-- ==== Sys2Proof/Word.lean ====
section
/-! DEFINITION. Word widths of the unit and the sparse map that holds addressed state. -/

namespace Sys2Proof

abbrev Byte := BitVec 8
abbrev W32 := BitVec 32
abbrev W64 := BitVec 64
abbrev W128 := BitVec 128
/-- The VI number (R28: 10 bits). -/
abbrev ViId := BitVec 10
/-- A 640-bit exact register (R83). -/
abbrev Exact := BitVec 640

/-- A map from Nat keys, listed with strictly rising keys; an unlisted key holds the map's default. -/
abbrev Sparse (α : Type) := List (Nat × α)

end Sys2Proof
end

