-- ==== Sys2Proof/Config.lean ====
section
/-! DEFINITION. What one implementation fixes: the figures of P512 (R25) as definitions, and the values the
spec leaves open as opaque constants, which nothing in Lean can evaluate (assumption log, entry 1). -/

namespace Sys2Proof.Config

/-- Logical lanes of P512 (R21, R25). -/
def lanes : Nat := 512
/-- Physical lanes of P512 (R21, R25): those from 512 on are spares. -/
def physicalLanes : Nat := 528
/-- Row slots of P512 (R25). -/
def rowSlots : Nat := 32768
/-- Bytes of tile SRAM (R447). -/
def tileBytes : Nat := 50331648
/-- Drain queue depth (R25, R29). -/
def drainDepth : Nat := 64
/-- Ring-context cache entries (R25, R475). -/
def ctxEntries : Nat := 4096
/-- Tumbler cache words (R166). -/
def tumblerWords : Nat := 1024
/-- Ring contexts in the context region (R462). -/
def ringCount : Nat := 262144
/-- Records of the trace buffer (R521). -/
def traceRecords : Nat := 3072
/-- Register sets held resident (R484). -/
def residentSets : Nat := 4
/-- Depth of the shift request queue (R579). -/
def shiftDepth : Nat := 8
/-- Outstanding ring-context reads (R630). -/
def ctxReadsMax : Nat := 32
/-- Outstanding tumbler-word reads (R630). -/
def tumblerReadsMax : Nat := 16

/-- TCLK cycles that pass up to use `n` of the clock; times are not modelled (log entry 8). -/
opaque elapsedTclk : Nat → Nat
/-- fclk cycles that pass up to use `n` of the clock (log entry 8). -/
opaque elapsedFclk : Nat → Nat
/-- fclk cycles of those that pass up to use `n` in which no vector enters, by cause: 0 to 5 those of R626 in order, 6
R629, 7 withheld issue slots (log entry 8). -/
opaque stalledFclk : Nat → Nat → Nat
/-- Times that TWN_ALIVE toggles, one toggle in 64 nclk (R28), while `n` of the clock passes (log entry 8). -/
opaque aliveToggles : Nat → Nat
/-- Scan data that TST_SCAN shifts out while TST_OPEN is asserted (R49): the scan chains are not given. -/
opaque scanOut : Nat → BitVec 4
/-- What the save area of a command that another unit suspended says of its progress (R483 gives no layout): stamp, item. -/
opaque savedProgress : Nat → Nat → Nat
/-- Byte at an address of a range that holds no defined value (R355, R484, R546), by the range's stamp. -/
opaque undefByte : Nat → Nat → Byte
/-- Vector-register lane with no defined value (R546), by stamp, register and lane. -/
opaque undefLane : Nat → Nat → Nat → BitVec 40
/-- Entry of the factory table bank (R204): its contents are in ROM and not given. -/
opaque factoryEntry : Nat → BitVec 256
/-- Kernel value, in units of 2^-46, where R194 and R195 name no piece, which is an entry with no valid piece: the
directory entry and the argument m · 2^e. -/
opaque unstatedKernel : BitVec 256 → Int → Int → Int
/-- The piece (R199) that holds each of the two kernels of the rotary curve, 0 the cosine and 1 the sine, at s on each
side of 0 (R191 gives two kernels on one interval, R202 lets one entry hold one): kernel, directory entry, sign of s. -/
opaque rotaryPiece : Nat → BitVec 256 → Bool → BitVec 64
/-- The integer k that JOIN takes when a custom curve's argument is zero or infinite (R198 gives the kernel only). -/
opaque unstatedK : BitVec 256 → BitVec 64 → Int
/-- Raw bits of a block element to which no rule gives a code: a NaN in a format without NaN, an infinity under the
NaN policy, an element of a block whose scale would exceed 2^127 under that policy (R102, R105): format code,
position in the block, sign, magnitude and exponent. -/
opaque unstatedElement : Nat → Nat → Nat → Nat → Int → Nat
/-- Choice among the entries that a full cache may evict (R166, R476). -/
opaque evict : Nat → Nat
/-- Accumulator lane that ACC_PEEK reads (R452): the array's accumulators lie outside the boundary. -/
opaque accLane : Nat → W32 → Nat → BitVec 48
/-- Exponent of the accumulator row that ACC_PEEK reads. -/
opaque accExp : Nat → W32 → BitVec 10
/-- Token that SAMPLE gives on registers that hold no list of R368 (their entries out of candidate order). -/
opaque unstatedToken : Nat → BitVec 40
/-- Values of a pair partner whose key block a repeated beat displaced (R280), so that it never arrives (R150 states
none): bits in the working format. -/
opaque displacedPartner : Nat → Nat → BitVec 64
/-- PARTIAL packets that the hinge input store holds (R339 gives no capacity). -/
opaque hingeStore : Nat
/-- Bytes of the canonical form of a vector's or completion's results on the twin link (R566 gives no framing). -/
opaque lockstepFrame : List Nat → List Byte
/-- Bits of a header's SETTLED, LEVEL, REASON, REPLY and MEMBER where the packet's type uses none (R331), by type. -/
opaque unusedHead : Nat → BitVec 512
/-- Steps of a flush that are done before it hangs (R553). -/
opaque flushProgress : Nat → Nat
/-- Whether the completion path still works after a UNIT_FATAL error (R549). -/
opaque completionPathWorks : Nat → Bool

end Sys2Proof.Config
end

