-- ==== Sys2Proof/Syntax.lean ====
section
/-! DEFINITION. The commands of the block: one constructor of `Instr` for each row of spec/opcode_table.json,
and the types of their operands. -/

namespace Sys2Proof

/-- Where a register access comes from: the management page over MGT_REG; the VI window of R646; the management page over
CMD_TGT, which R42 turns away; or a VI page over CMD_TGT with the requester's VI and the byte enables (R28, R40, R636);
`covered` for a page of the covered tile, which the integrator routes to the survivor (the text after R575). -/
inductive RegPort where
  | mgmt
  | window
  | foreign (requester : ViId)
  | page (covered : Bool) (vi requester : ViId) (byteEn : BitVec 8)
  deriving DecidableEq, Repr

/-- One accumulator beat with its sideband (R28). Lanes beyond the list are 0. -/
structure Beat where
  lanes  : List (BitVec 48)
  exp    : BitVec 10
  count  : W32
  rowId  : W32
  digest : W128
  deriving DecidableEq, Repr

/-- A hinge packet: the 64-byte header flit (R331) and its payload bytes. -/
structure HingePacket where
  header  : BitVec 512
  payload : List Byte
  deriving DecidableEq, Repr

/-- A hardware error that the protection of R537 detects while a command runs. -/
inductive HwError where
  /-- SECDED single-bit error in the structure of SOURCE `source` (R538). -/
  | corrected (source : BitVec 4) (location : BitVec 20)
  /-- Uncorrectable word of the drain or staging buffers: the position of its first element in the next vector, and how
  many elements it holds. -/
  | staging (first elements : Nat)
  /-- Uncorrectable word of the hinge input store: the chain, the member and the chain row of the input it belongs to. -/
  | hingeInput (chain member row : Nat)
  /-- Uncorrectable word of a vector context: register and lane. -/
  | vectorContext (reg : Nat) (lane : Nat)
  /-- Uncorrectable entry of the ring-context cache. -/
  | contextCache (ring : Nat)
  /-- Uncorrectable entry of the tumbler cache. -/
  | tumblerCache (vi : ViId) (address : W64)
  /-- Uncorrectable chain descriptor. -/
  | chainDescriptor (chain : Nat)
  /-- Uncorrectable word of the trace buffer. -/
  | traceBuffer
  /-- Uncorrectable digest state of the running command. -/
  | digestState
  /-- Uncorrectable trap record of a VI. -/
  | trapRecord (vi : ViId)
  /-- Residue error of a CURVE multiplier. -/
  | curveMultiplier (lane : BitVec 20)
  /-- Residue error of an exact adder on a slot. -/
  | exactAdder (slot : Nat)
  /-- Parity error of a stage register or of the active tumbler. -/
  | stageRegister (location : BitVec 20)
  /-- Parity error of the sequencer, command processor or arbitration state. -/
  | sequencer
  /-- Fourth residue or parity error of one logical lane within 1 s. -/
  | laneFailed (lane : BitVec 20)
  /-- Error response of device memory or tile memory. -/
  | memoryResponse
  deriving DecidableEq, Repr

/-- How far one step takes a pass: at most so many vectors, or records of bucket placement (none: to the next segment
boundary, its end, or until it must wait), and the hardware error met on the way, if any. -/
structure Run where
  vectors : Option Nat
  error   : Option HwError
  deriving DecidableEq, Repr

/-- The read of a ring's commands as memory answers it, with its error response, if any (R477, R537). -/
structure RingRead where
  ring  : Nat
  error : Option HwError
  deriving DecidableEq, Repr

/-- The read of a tumbler word as memory answers it, with its error response, if any (R163, R537). -/
structure WordRead where
  address : W64
  error   : Option HwError
  deriving DecidableEq, Repr

/-- What the scrubber or a read finds in a word (R537, R538). -/
inductive ScrubResult where
  | clean
  | single
  | double
  deriving DecidableEq, Repr

/-- The word that the scrubber reads: eight bytes of a row slot, or an entry of a table bank. -/
inductive ScrubWord where
  | rowStore (slot : Nat) (word : Fin 32)
  | tableStore (bank : Fin 4) (entry : Nat)
  deriving DecidableEq, Repr

/-- The commands of the block. -/
inductive Instr where
  -- ring commands
  | nop
  | chain (run : Run)
  | chainAcc (run : Run)
  | norm (run : Run)
  | softmaxStep (run : Run)
  | softmaxFinal (run : Run)
  | select (run : Run)
  | sample
  | compress (run : Run)
  | expand (run : Run)
  | scatterBuckets (run : Run)
  | quantiseMx (run : Run)
  | rowstatOpen
  | rowstatClose
  | rowstatSpill
  | rowstatFill
  | hingeSend
  | hingeSendLoad
  | hingeWait
  | tableLoad
  | tableSwap
  | fence
  | eventSignal
  | eventWait
  | digestSeal
  | counterSnap
  | accPeek
  -- VI page
  | viDoorbell (port : RegPort) (data : W64)
  | create (port : RegPort) (ring : BitVec 18)
  | resume (port : RegPort) (ring : BitVec 18)
  | pause (port : RegPort) (ring : BitVec 18)
  | destroy (port : RegPort) (ring : BitVec 18)
  | viTumblerInval (port : RegPort) (data : W64)
  | viTolerance (port : RegPort) (data : W64)
  | viRings (data : W64)
  | viDigestBase (port : RegPort) (data : W64)
  | evSelect (port : RegPort) (n : Fin 16) (data : W32)
  | evCount (port : RegPort) (n : Fin 16) (data : W64)
  | evCtrlClear (port : RegPort) (freeze : Bool)
  -- fence and reset
  | mgFenceSet (handover : Bool)
  | mgFenceClear (handover : Bool)
  | mgFenceReset (fence handover : Bool)
  | unitStop (flushEnds : Bool)
  | stopAbortTimeout
  | flushTimeout
  | rstN (lowMclk : Nat)
  | resetSequenceEnd
  -- twin
  | mgTwinModeLockstep (primary clean : Bool)
  | mgTwinModeCover (clean : Bool)
  | mgTwinModeIndependent
  | twinAliveTimeout
  | twinSignature (signature : W64)
  -- power requests
  | mgPowerReqOff (autoOff : Bool) (floor ceil : BitVec 3)
  | mgPowerReqOn (autoOff : Bool) (floor ceil : BitVec 3)
  | pwrRailAck (level : Bool)
  | powerUpDone
  -- keys
  | mgKeyEraseVi (vi : ViId)
  | mgKeyEraseAll
  | mgtKeyWord (vi : ViId) (word : W32)
  | mgViReset (vi : ViId)
  -- determinism
  | mgDetCtrl (data : W32)
  | quiescentPoint
  | mgTraceRptr (data : W32)
  | replayDivergeTimeout
  -- debug
  | mgDbgTumbler (stage : Fin 8) (data : W64)
  | debugHalt (chipDebug halt : Bool)
  | mgRingCtxBase (data : W64)
  -- other registers
  | registerWrite (port : RegPort) (offset : BitVec 16) (data : W64)
  -- command processor
  | arbitrate (error : Option HwError)
  | quantumExpiry
  | contextReadReturn (ring : Nat) (error : Option HwError)
  | commandFetchReturn (read : RingRead)
  | tumblerFetchReturn (vi : ViId) (read : WordRead)
  | blockedWaitEnd (ring : Nat)
  | eventWaitTimeout (ring : Nat)
  | tableLoadDone
  | tableSwapApply
  -- drain and shift
  | drnBeat (beat : Beat)
  | shfAck (status : Bool)
  | shiftAckTimeout
  | shiftQueueSpace
  -- hinge
  | hingePartial (packet : HingePacket)
  | hingeFinal (packet : HingePacket)
  | finalCommit (chain : BitVec 10)
  | hingeRetract (packet : HingePacket)
  | hingeNack (packet : HingePacket)
  | hingeProbe (packet : HingePacket)
  | epochAheadResend (chain : BitVec 10)
  | probeRetryTimer (chain : BitVec 10)
  | chainTimeout (chain : BitVec 10)
  | hngTxCredit (credits : BitVec 4)
  -- watch and scrub
  | watchdogExpiry
  | scrub (word : ScrubWord) (found : ScrubResult)
  -- power
  | pwrDroop (level : Bool)
  | droopWindowEnd
  | powerWindow (measured stepUp : Nat)
  | pwrOpAck
  | mgtGrant (grant : Byte)
  | grantZeroGate
  | pwrThrottle (level : Bool)
  | throttleStep
  | thmSenseUpdate (s0 s1 s2 s3 : BitVec 10)
  | idleTimer
  | powerStateExitDone
  | pwrHoldup
  | holdupCheckpointDone
  | pwrRestored
  | tstModeReq
  | testWipeDone
  | powerLoss
  | powerStateEntryDone
  | registerRead (port : RegPort) (offset : BitVec 16)
  deriving DecidableEq, Repr

end Sys2Proof
end

