-- ==== Sys2Proof/Decode.lean ====
section
/-! DEFINITION. The command that a word spells: no row of spec/opcode_table.json gives any bits, so no word spells one. -/

namespace Sys2Proof

/-- The commands of this block have no encoding in the table (every row's list of fields is empty). -/
def decodeTableWord (_nbits _w : Nat) : Option Instr := none

end Sys2Proof
end

