-- ==== Sys2Proof/Machine/Sparse.lean ====
section
/-! DEFINITION. Operations on sparse maps and on bit fields, used by every other file of the machine. -/

namespace Sys2Proof.Machine

/-- The value at a key; `d` where the map lists none. -/
def spGet {α : Type} (d : α) : Sparse α → Nat → α
  | [], _ => d
  | (k, v) :: rest, n => if k = n then v else spGet d rest n

/-- The listed value at a key. -/
def spFind {α : Type} : Sparse α → Nat → Option α
  | [], _ => none
  | (k, v) :: rest, n => if k = n then some v else spFind rest n

/-- The map without a key. -/
def spErase {α : Type} : Sparse α → Nat → Sparse α
  | [], _ => []
  | (k, v) :: rest, n => if k = n then spErase rest n else (k, v) :: spErase rest n

/-- The map with a value listed at a key, in key order. -/
def spPut {α : Type} : Sparse α → Nat → α → Sparse α
  | [], n, x => [(n, x)]
  | (k, v) :: rest, n, x =>
    if n < k then (n, x) :: (k, v) :: rest
    else if n = k then (n, x) :: rest
    else (k, v) :: spPut rest n x

/-- The map with a value at a key, in canonical form: the default is not listed. -/
def spSet {α : Type} [DecidableEq α] (d : α) (m : Sparse α) (n : Nat) (x : α) : Sparse α :=
  if x = d then spErase m n else spPut m n x

/-- Keys strictly rise from above `lo`, and no value is the default. -/
def spWfFrom {α : Type} [DecidableEq α] (d : α) : Option Nat → Sparse α → Bool
  | _, [] => true
  | lo, (k, v) :: rest =>
    (match lo with | none => true | some l => decide (l < k)) && decide (v ≠ d) && spWfFrom d (some k) rest

/-- The canonical form of a sparse map. -/
def spWf {α : Type} [DecidableEq α] (d : α) (m : Sparse α) : Bool := spWfFrom d none m

/-- A set of numbers as a strictly rising list: insertion. -/
def setInsert : List Nat → Nat → List Nat
  | [], n => [n]
  | k :: rest, n => if n < k then n :: k :: rest else if n = k then k :: rest else k :: setInsert rest n

/-- Removal from a rising list. -/
def setErase (l : List Nat) (n : Nat) : List Nat := l.filter (fun k => k ≠ n)

/-! ## Bit fields (R5, R6) -/

/-- Bits [hi:lo] of a word, as a number. -/
def field {w : Nat} (x : BitVec w) (hi lo : Nat) : Nat := (x.toNat >>> lo) % 2 ^ (hi + 1 - lo)

/-- Bit `i` of a word. -/
def bit {w : Nat} (x : BitVec w) (i : Nat) : Bool := x.toNat.testBit i

/-- A number placed at bit `lo`. -/
def place (n lo : Nat) : Nat := n <<< lo

def boolNat (b : Bool) : Nat := if b then 1 else 0

/-- The two's-complement integer that the low `w` bits of a number hold. -/
def signed (w n : Nat) : Int :=
  if n % 2 ^ w < 2 ^ (w - 1) then (n % 2 ^ w : Nat) else ((n % 2 ^ w : Nat) : Int) - (2 ^ w : Nat)

/-- The low `w` bits of an integer's two's complement. -/
def wrapNat (w : Nat) (i : Int) : Nat := (i % ((2 ^ w : Nat) : Int)).toNat

/-- The number that a list of bytes holds, little-endian (R7). -/
def bytesNat : List Byte → Nat
  | [] => 0
  | b :: rest => b.toNat + 256 * bytesNat rest

/-- The low `n` bytes of a number, little-endian (R7). -/
def natBytes : Nat → Nat → List Byte
  | 0, _ => []
  | n + 1, x => BitVec.ofNat 8 x :: natBytes n (x / 256)

/-- A value enters a list ordered by number, behind those of its own number. -/
def insertOrdered {α : Type} (x : Nat × α) : List (Nat × α) → List (Nat × α)
  | [] => [x]
  | y :: rest => if x.1 < y.1 then x :: y :: rest else y :: insertOrdered x rest

/-- The numbers from `a` to `a + n - 1`. -/
def span (a n : Nat) : List Nat := (List.range n).map (fun i => a + i)

/-- ceil(a / b). -/
def ceilDiv (a b : Nat) : Nat := if b = 0 then 0 else (a + b - 1) / b

/-- Replace the first list element that satisfies `p`, by `f` of it. -/
def updateWhere {α : Type} (p : α → Bool) (f : α → α) (l : List α) : List α :=
  l.map (fun x => if p x then f x else x)

end Sys2Proof.Machine
end

