-- ==== Sys2Proof/Machine/Num.lean ====
section
/-! DEFINITION. Exact values and rounding. A value is held exactly, as a sign, a magnitude m and a power of two;
a magnitude known only to lie strictly between m and m + 1 units carries `sticky`. Every rounding of the spec is
one call of `roundTo`. -/

namespace Sys2Proof.Machine

/-- A value of the chain: NaN, an infinity, or (-1)^neg · m · 2^e. With `sticky`, the magnitude lies strictly
between m · 2^e and (m + 1) · 2^e. -/
inductive Val where
  | nan
  | inf (neg : Bool)
  | fin (neg : Bool) (m : Nat) (e : Int) (sticky : Bool)
  deriving DecidableEq, Repr

/-- The rounding attributes (R97). -/
inductive Rnd where
  | tiesToEven
  | tiesToAway
  | towardPositive
  | towardNegative
  | towardZero
  deriving DecidableEq, Repr

/-- The attribute of a 3-bit code; 5 to 7 are reserved and are refused before use. -/
def rndOfCode (c : BitVec 3) : Rnd :=
  if c = 1 then .tiesToAway
  else if c = 2 then .towardPositive
  else if c = 3 then .towardNegative
  else if c = 4 then .towardZero
  else .tiesToEven

/-- +0 or -0. -/
def vzero (neg : Bool) : Val := .fin neg 0 0 false

/-- An integer. -/
def vint (i : Int) : Val := .fin (decide (i < 0)) i.natAbs 0 false

/-- i · 2^e. -/
def vdyadic (i : Int) (e : Int) : Val := .fin (decide (i < 0)) i.natAbs e false

/-- Number of bits of a magnitude; 0 for 0. -/
def bitLen (n : Nat) : Nat := if n = 0 then 0 else Nat.log2 n + 1

def isNan : Val → Bool
  | .nan => true
  | _ => false

def isInf : Val → Bool
  | .inf _ => true
  | _ => false

def isFinite : Val → Bool
  | .fin .. => true
  | _ => false

def isZero : Val → Bool
  | .fin _ 0 _ false => true
  | _ => false

def isNeg : Val → Bool
  | .nan => false
  | .inf n => n
  | .fin n .. => n

def vneg : Val → Val
  | .nan => .nan
  | .inf n => .inf !n
  | .fin n m e s => .fin (!n) m e s

def vabs : Val → Val
  | .nan => .nan
  | .inf _ => .inf false
  | .fin _ m e s => .fin false m e s

/-- The value scaled by 2^k, exactly. -/
def vscale (v : Val) (k : Int) : Val :=
  match v with
  | .fin n m e s => .fin n m (e + k) s
  | v => v

/-- A sticky magnitude stands in comparisons and sums for the middle of its unit. -/
def unstick : Val → Val
  | .fin n m e true => .fin n (2 * m + 1) (e - 1) false
  | v => v

/-- The integer i with value i · 2^e, for e at or below the value's own exponent. -/
def toUnits (v : Val) (e : Int) : Int :=
  match unstick v with
  | .fin n m e' _ =>
    let k := m <<< (e' - e).toNat
    if n then -(k : Int) else k
  | _ => 0

def expOf (v : Val) : Int :=
  match unstick v with
  | .fin _ _ e _ => e
  | _ => 0

/-- Comparison of two values neither of which is NaN; +0 and -0 are equal. -/
def vcmp (a b : Val) : Ordering :=
  match a, b with
  | .inf na, .inf nb => if na = nb then .eq else if na then .lt else .gt
  | .inf na, _ => if na then .lt else .gt
  | _, .inf nb => if nb then .gt else .lt
  | a, b =>
    let e := min (expOf a) (expOf b)
    compare (toUnits a e) (toUnits b e)

/-- a < b, false when either is NaN. -/
def vlt (a b : Val) : Bool := !isNan a && !isNan b && vcmp a b == .lt

/-- a ≤ b, false when either is NaN. -/
def vle (a b : Val) : Bool := !isNan a && !isNan b && vcmp a b != .gt

/-- A result and whether forming it was an invalid operation. -/
structure Op where
  val     : Val
  invalid : Bool
  deriving DecidableEq, Repr

/-- The exact sum under IEEE 754 rules for infinities, NaN and the sign of zero (to nearest). -/
def vadd (a b : Val) : Op :=
  match a, b with
  | .nan, _ => ⟨.nan, false⟩
  | _, .nan => ⟨.nan, false⟩
  | .inf na, .inf nb => if na = nb then ⟨.inf na, false⟩ else ⟨.nan, true⟩
  | .inf na, _ => ⟨.inf na, false⟩
  | _, .inf nb => ⟨.inf nb, false⟩
  | .fin na ma ea sa, .fin nb mb eb sb =>
    if ma = 0 ∧ sa = false then
      if mb = 0 ∧ sb = false then ⟨vzero (na && nb), false⟩ else ⟨.fin nb mb eb sb, false⟩
    else if mb = 0 ∧ sb = false then ⟨.fin na ma ea sa, false⟩
    else
      let e := min (expOf (.fin na ma ea sa)) (expOf (.fin nb mb eb sb))
      let s := toUnits (.fin na ma ea sa) e + toUnits (.fin nb mb eb sb) e
      if s = 0 then ⟨vzero false, false⟩
      else if sa ∨ sb then ⟨.fin (decide (s < 0)) (2 * (s.natAbs - 1) + 1) (e - 1) true, false⟩
      else ⟨vdyadic s e, false⟩

def vsub (a b : Val) : Op := vadd a (vneg b)

/-- The exact product under IEEE 754 rules. -/
def vmul (a b : Val) : Op :=
  match a, b with
  | .nan, _ => ⟨.nan, false⟩
  | _, .nan => ⟨.nan, false⟩
  | .inf na, b => if isZero b then ⟨.nan, true⟩ else ⟨.inf (na != isNeg b), false⟩
  | a, .inf nb => if isZero a then ⟨.nan, true⟩ else ⟨.inf (isNeg a != nb), false⟩
  | .fin na ma ea sa, .fin nb mb eb sb =>
    if sa ∨ sb then
      match unstick (.fin na ma ea sa), unstick (.fin nb mb eb sb) with
      | .fin _ ma' ea' _, .fin _ mb' eb' _ => ⟨.fin (na != nb) (ma' * mb') (ea' + eb') true, false⟩
      | _, _ => ⟨.nan, false⟩
    else ⟨.fin (na != nb) (ma * mb) (ea + eb) false, false⟩

/-- a · b + c, exact. -/
def vfma (a b c : Val) : Op :=
  let p := vmul a b
  let s := vadd p.val c
  ⟨s.val, p.invalid || s.invalid⟩

/-- floor of a finite value. -/
def vfloor (v : Val) : Int :=
  match unstick v with
  | .fin n m e _ =>
    let i : Int := if n then -(m : Int) else m
    if e ≥ 0 then i * (2 ^ e.toNat : Nat) else i.fdiv ((2 ^ (-e).toNat : Nat) : Int)
  | _ => 0

/-- ceil of a finite value. -/
def vceil (v : Val) : Int := -(vfloor (vneg v))

/-- Whether a finite value is an integer. -/
def isInteger (v : Val) : Bool :=
  match v with
  | .fin _ m e false => decide (e ≥ 0) || decide (m % 2 ^ (-e).toNat = 0)
  | _ => false

/-! ## Floating-point formats -/

/-- What the largest exponent field encodes. -/
inductive FmtKind where
  | ieee
  | e4m3
  | finiteOnly
  deriving DecidableEq, Repr

/-- A floating-point layout: exponent bits, fraction bits, bias (R54, R73, R75). -/
structure FloatFmt where
  eb   : Nat
  fb   : Nat
  bias : Nat
  kind : FmtKind
  deriving DecidableEq, Repr

def fmtW38 : FloatFmt := ⟨10, 27, 511, .ieee⟩
def fmtH24 : FloatFmt := ⟨9, 14, 255, .ieee⟩
/-- The H24 register form (the text after R79). -/
def fmtH24Reg : FloatFmt := ⟨8, 10, 127, .ieee⟩
def fmtF64 : FloatFmt := ⟨11, 52, 1023, .ieee⟩
def fmtF32 : FloatFmt := ⟨8, 23, 127, .ieee⟩
def fmtBf16 : FloatFmt := ⟨8, 7, 127, .ieee⟩
def fmtF16 : FloatFmt := ⟨5, 10, 15, .ieee⟩
def fmtE4m3 : FloatFmt := ⟨4, 3, 7, .e4m3⟩
def fmtE5m2 : FloatFmt := ⟨5, 2, 15, .ieee⟩
def fmtE3m2 : FloatFmt := ⟨3, 2, 3, .finiteOnly⟩
def fmtE2m3 : FloatFmt := ⟨2, 3, 1, .finiteOnly⟩
def fmtE2m1 : FloatFmt := ⟨2, 1, 1, .finiteOnly⟩

/-- Width of the format in bits. -/
def fmtWidth (f : FloatFmt) : Nat := 1 + f.eb + f.fb

/-- Exponent of the unit of the smallest subnormal. -/
def fmtQmin (f : FloatFmt) : Int := 1 - (f.bias : Int) - f.fb

/-- Significand bits. -/
def fmtPrec (f : FloatFmt) : Nat := f.fb + 1

/-- Significand and exponent of the largest finite value. -/
def fmtMax (f : FloatFmt) : Nat × Int :=
  match f.kind with
  | .ieee => (2 ^ (f.fb + 1) - 1, (2 ^ f.eb - 2 : Nat) - (f.bias : Int) - f.fb)
  | .e4m3 => (2 ^ (f.fb + 1) - 2, (2 ^ f.eb - 1 : Nat) - (f.bias : Int) - f.fb)
  | .finiteOnly => (2 ^ (f.fb + 1) - 1, (2 ^ f.eb - 1 : Nat) - (f.bias : Int) - f.fb)

/-- The largest finite value of a format. -/
def fmtLargest (f : FloatFmt) (neg : Bool) : Val := .fin neg (fmtMax f).1 (fmtMax f).2 false

/-- Smallest normal value. -/
def fmtMinNormal (f : FloatFmt) : Val := .fin false 1 (fmtQmin f + f.fb) false

/-! ## Rounding -/

/-- The magnitude m · 2^e (with sticky) rounded to a multiple of 2^q: the multiple, and whether it is inexact. -/
def roundUnits (r : Rnd) (neg : Bool) (m : Nat) (e : Int) (sticky : Bool) (q : Int) : Nat × Bool :=
  let k := (q - e).toNat
  let fl := if q ≤ e then m <<< (e - q).toNat else m >>> k
  let rem := if q ≤ e then 0 else m % 2 ^ k
  let unit := if q ≤ e then 1 else 2 ^ k
  let inexact := decide (rem ≠ 0) || sticky
  let above := decide (2 * rem > unit) || (decide (2 * rem = unit) && sticky)
  let tie := decide (2 * rem = unit) && !sticky
  let up := match r with
    | .tiesToEven => above || (tie && decide (fl % 2 = 1))
    | .tiesToAway => above || tie
    | .towardPositive => inexact && !neg
    | .towardNegative => inexact && neg
    | .towardZero => false
  (if up then fl + 1 else fl, inexact)

/-- The outcome of one rounding (R676). -/
structure Rounded where
  val      : Val
  overflow : Bool
  tiny     : Bool
  inexact  : Bool
  deriving DecidableEq, Repr

/-- Whether the attribute takes an overflow of this sign to infinity. -/
def overflowsToInf (r : Rnd) (neg : Bool) : Bool :=
  match r with
  | .tiesToEven => true
  | .tiesToAway => true
  | .towardPositive => !neg
  | .towardNegative => neg
  | .towardZero => false

/-- One rounding to a format, with subnormals; on overflow the IEEE 754 result of the attribute (R98). -/
def roundTo (f : FloatFmt) (r : Rnd) (v : Val) : Rounded :=
  match v with
  | .nan => ⟨.nan, false, false, false⟩
  | .inf n => ⟨.inf n, false, false, false⟩
  | .fin n m e s =>
    if m = 0 ∧ s = false then ⟨vzero n, false, false, false⟩
    else
      let qU : Int := (bitLen m : Int) + e - fmtPrec f
      let q := max qU (fmtQmin f)
      let x := roundUnits r n m e s q
      let xU := roundUnits r n m e s qU
      let res : Val := .fin n x.1 q false
      let tiny := vlt (.fin false xU.1 qU false) (fmtMinNormal f)
      if vlt (fmtLargest f false) (.fin false x.1 q false) then
        ⟨if overflowsToInf r n then .inf n else fmtLargest f n, true, false, true⟩
      else ⟨if x.1 = 0 then vzero n else res, false, tiny, x.2⟩

/-- One rounding to nearest with ties to even. -/
def roundRne (f : FloatFmt) (v : Val) : Rounded := roundTo f .tiesToEven v

/-! ## Encodings -/

/-- The bits of a value that the format represents; NaN becomes the canonical NaN (R56). -/
def encodeFloat (f : FloatFmt) (v : Val) : Nat :=
  let sign (n : Bool) := boolNat n <<< (f.eb + f.fb)
  let ones := (2 ^ f.eb - 1) <<< f.fb
  match v with
  | .nan => match f.kind with
    | .e4m3 => 2 ^ (f.eb + f.fb) - 1
    | _ => ones + 2 ^ (f.fb - 1)
  | .inf n => match f.kind with
    | .ieee => sign n + ones
    | .e4m3 => 2 ^ (f.eb + f.fb) - 1
    | .finiteOnly => sign n + (2 ^ (f.eb + f.fb) - 1)
  | .fin n m e _ =>
    if m = 0 then sign n
    else
      let q := max ((bitLen m : Int) + e - fmtPrec f) (fmtQmin f)
      let k := if q ≤ e then m <<< (e - q).toNat else m >>> (q - e).toNat
      if k < 2 ^ f.fb then sign n + k
      else sign n + ((q - fmtQmin f + 1).toNat <<< f.fb) + (k - 2 ^ f.fb)

/-- The value that the bits encode. -/
def decodeFloat (f : FloatFmt) (x : Nat) : Val :=
  let n := x.testBit (f.eb + f.fb)
  let e := (x >>> f.fb) % 2 ^ f.eb
  let fr := x % 2 ^ f.fb
  let top := decide (e = 2 ^ f.eb - 1)
  if f.kind = .ieee ∧ top then (if fr = 0 then .inf n else .nan)
  else if f.kind = .e4m3 ∧ top ∧ fr = 2 ^ f.fb - 1 then .nan
  else if e = 0 then (if fr = 0 then vzero n else .fin n fr (fmtQmin f) false)
  else .fin n (2 ^ f.fb + fr) (fmtQmin f + (e - 1 : Nat)) false

/-- Whether the bits encode a signalling NaN: most significant fraction bit 0 (the text after R54). -/
def isSignalling (f : FloatFmt) (x : Nat) : Bool :=
  isNan (decodeFloat f x) && !x.testBit (f.fb - 1)

/-- The value in W38 bits; the value is representable. -/
def toW38 (v : Val) : BitVec 38 := BitVec.ofNat 38 (encodeFloat fmtW38 v)
def ofW38 (x : BitVec 38) : Val := decodeFloat fmtW38 x.toNat
def toF64 (v : Val) : W64 := BitVec.ofNat 64 (encodeFloat fmtF64 v)
def ofF64 (x : W64) : Val := decodeFloat fmtF64 x.toNat
def toF32 (v : Val) : W32 := BitVec.ofNat 32 (encodeFloat fmtF32 v)
def ofF32 (x : W32) : Val := decodeFloat fmtF32 x.toNat

/-- Round once to binary64 and encode. -/
def f64Round (v : Val) : W64 := toF64 (roundRne fmtF64 v).val

/-- round64(a + b) of R235 on binary64 encodings, and whether it was an invalid operation. -/
def f64Add (a b : W64) : W64 × Bool :=
  let s := vadd (ofF64 a) (ofF64 b)
  (f64Round s.val, s.invalid)

/-- round64(a · b) on binary64 encodings. -/
def f64Mul (a b : W64) : W64 := f64Round (vmul (ofF64 a) (ofF64 b)).val

/-! ## Quotients and roots, rounded once -/

/-- n / d (d > 0) as a value with at least `bits` significant bits, sticky when inexact. -/
def ratio (neg : Bool) (n d : Nat) (bits : Nat) : Val :=
  if n = 0 then vzero neg
  else
    let k := bitLen d + bits - bitLen n
    let x := n <<< k
    .fin neg (x / d) (-(k : Int)) (decide (x % d ≠ 0))

/-- floor of the square root, by bits from the top. -/
def isqrtGo (n : Nat) : Nat → Nat → Nat
  | 0, r => r
  | k + 1, r =>
    let c := r + 2 ^ k
    isqrtGo n k (if c * c ≤ n then c else r)

def isqrt (n : Nat) : Nat := isqrtGo n (bitLen n / 2 + 1) 0

/-- sqrt(n · 2^e) with at least `bits` significant bits, sticky when inexact. -/
def rootOf (n : Nat) (e : Int) (bits : Nat) : Val :=
  if n = 0 then vzero false
  else
    let odd := decide (e % 2 ≠ 0)
    let n' := if odd then 2 * n else n
    let e' := if odd then e - 1 else e
    let k := 2 * bits
    let x := n' <<< k
    let r := isqrt x
    .fin false r (e' / 2 - bits) (decide (r * r ≠ x))

/-- 1 / sqrt(n / d) for n, d > 0: sqrt(d / n) with at least `bits` significant bits, sticky when inexact. -/
def invRootOf (n d : Nat) (bits : Nat) : Val :=
  let k := 2 * (bits + bitLen n)
  let x := (d <<< k) / n
  let rem := (d <<< k) % n
  let r := isqrt x
  .fin false r (-((bits + bitLen n : Nat) : Int)) (decide (r * r ≠ x) || decide (rem ≠ 0))

end Sys2Proof.Machine
end

