-- ==== Sys2Proof/Machine/Flags.lean ====
section
/-! DEFINITION. The eight per-lane flags (R113) and the flags that a rounding raises (R676). -/

namespace Sys2Proof.Machine

def flInvalid : Byte := 0x01
def flDivZero : Byte := 0x02
def flOverflow : Byte := 0x04
def flUnderflow : Byte := 0x08
def flInexact : Byte := 0x10
def flSaturate : Byte := 0x20
def flFlush : Byte := 0x40
def flHeadroom : Byte := 0x80

/-- A flag when its condition holds. -/
def flagIf (c : Bool) (f : Byte) : Byte := if c then f else 0

/-- The flags that one rounding raises (R113, R676): underflow needs inexactness in strict mode, and inexact is
raised in strict mode only. -/
def roundFlags (strict : Bool) (r : Rounded) : Byte :=
  flagIf r.overflow flOverflow ||| flagIf (r.tiny && (!strict || r.inexact)) flUnderflow
    ||| flagIf (strict && r.inexact) flInexact

/-- Whether a set of flags holds a flag. -/
def hasFlag (s f : Byte) : Bool := s &&& f != 0

end Sys2Proof.Machine
end

