-- ==== Sys2Proof/Machine/Formats.lean ====
section
/-! DEFINITION. The element formats (R50 to R68): decoding in INTAKE, rounding and encoding in EMIT. -/

namespace Sys2Proof.Machine

/-- Whether a format code is an MX format. -/
def isMx (code : Nat) : Bool := decide (6 ≤ code) && decide (code ≤ 11)
/-- The tagged block stream. -/
def codeTagged : Nat := 15
/-- The accumulator drain format. -/
def codeDrain : Nat := 14
/-- MX formats and the tagged block stream. -/
def isBlock (code : Nat) : Bool := isMx code || decide (code = codeTagged)
/-- Narrow formats (the text after R52). -/
def isNarrow (code : Nat) : Bool := (decide (2 ≤ code) && decide (code ≤ 12)) || decide (code = codeTagged)

/-- Bits of an element in memory. -/
def elemBits (code : Nat) : Nat :=
  match code with
  | 0 => 64 | 1 => 32 | 2 => 16 | 3 => 16 | 4 => 8 | 5 => 8
  | 6 => 8 | 7 => 8 | 8 => 6 | 9 => 6 | 10 => 4 | 11 => 8
  | 12 => 8 | 13 => 32 | 14 => 48 | _ => 4

/-- Bytes of an element of a format that is not a block format. -/
def elemBytes (code : Nat) : Nat := elemBits code / 8

/-- Bytes of a block of 32 elements (R62). -/
def blockBytes (code : Nat) : Nat := 4 * elemBits code

/-- The floating-point layout of a code's element; none for the integer codes. -/
def floatFmtOf (code : Nat) : Option FloatFmt :=
  match code with
  | 0 => some fmtF64 | 1 => some fmtF32 | 2 => some fmtBf16 | 3 => some fmtF16
  | 4 => some fmtE4m3 | 5 => some fmtE5m2 | 6 => some fmtE4m3 | 7 => some fmtE5m2
  | 8 => some fmtE3m2 | 9 => some fmtE2m3 | 10 => some fmtE2m1
  | _ => none

/-- The element value that raw bits encode, before any block scale (R54, R57, R58). -/
def decodeElem (code raw : Nat) : Val :=
  match floatFmtOf code with
  | some f => decodeFloat f raw
  | none =>
    if code = 11 then vdyadic (signed 8 raw) (-6)
    else if code = 12 then vint (signed 8 raw)
    else if code = 13 then vint (signed 32 raw)
    else .nan

/-- Whether raw bits are a signalling NaN: FP64, FP32, BF16 and FP16 only (R55). -/
def decodeSignalling (code raw : Nat) : Bool :=
  match code with
  | 0 => isSignalling fmtF64 raw
  | 1 => isSignalling fmtF32 raw
  | 2 => isSignalling fmtBf16 raw
  | 3 => isSignalling fmtF16 raw
  | _ => false

/-- The value of an E8M0 scale byte as an exponent; none for the scale NaN (R60). -/
def scaleExp (b : Byte) : Option Int := if b = 0xFF then none else some ((b.toNat : Int) - 127)

/-- An MX element under its scale (R60, R68). -/
def decodeMx (code raw : Nat) (scale : Byte) : Val :=
  match scaleExp scale with
  | none => .nan
  | some e => vscale (decodeElem code raw) e

/-- Raw bits of element `i` of a block (R62 to R64). -/
def blockElem (code : Nat) (bytes : List Byte) (i : Nat) : Nat :=
  (bytesNat bytes >>> (elemBits code * i)) % 2 ^ elemBits code

/-- Bytes of a block from its 32 raw elements (R62 to R64). -/
def packBlock (code : Nat) (raws : List Nat) : List Byte :=
  natBytes (blockBytes code)
    (raws.foldr (fun r acc => r % 2 ^ elemBits code + (acc <<< elemBits code)) 0)

/-! ## EMIT -/

/-- What EMIT's conversion depends on (R93, R94, R99, R107). -/
structure EmitMode where
  strict   : Bool
  rnd      : Rnd
  saturate : Bool
  flush    : Bool
  deriving DecidableEq, Repr

/-- One converted element: its raw bits, the value written, the flags raised. -/
structure Emitted where
  raw   : Nat
  val   : Val
  flags : Byte
  deriving DecidableEq, Repr

/-- The canonical NaN of a format as raw bits, or +0 in a format without NaN (R56, R181). -/
def canonicalNan (code : Nat) : Nat :=
  match floatFmtOf code with
  | some f => if f.kind = .finiteOnly then 0 else encodeFloat f .nan
  | none => 0

/-- Rounding attribute of EMIT: to nearest even in fast mode (R93, R94). -/
def emitRnd (m : EmitMode) : Rnd := if m.strict then m.rnd else .tiesToEven

/-- Conversion to INT8 or INT32 (R109, R110). DEDUCED (log entry 16): in strict mode a finite value that an integer limit
replaces raises inexact (R676); an infinity is no rounding and raises none. -/
def emitInt (m : EmitMode) (bits : Nat) (v : Val) : Emitted :=
  let hi : Int := (2 ^ (bits - 1) : Nat) - 1
  let lo : Int := -((2 ^ (bits - 1) : Nat) : Int)
  let out (i : Int) (f : Byte) : Emitted := ⟨wrapNat bits i, vint i, f⟩
  match v with
  | .nan => out 0 flInvalid
  | .inf n => out (if n then lo else hi) (flInvalid ||| flSaturate)
  | .fin n mag e s =>
    let x := roundUnits (emitRnd m) n mag e s 0
    let i : Int := if n then -(x.1 : Int) else x.1
    let inex := flagIf (m.strict && x.2) flInexact
    if i > hi then out hi (flInvalid ||| flSaturate ||| flagIf m.strict flInexact)
    else if i < lo then out lo (flInvalid ||| flSaturate ||| flagIf m.strict flInexact)
    else out i inex

/-- Conversion to FP8 E4M3 (R99, R100). -/
def emitE4m3 (m : EmitMode) (v : Val) : Emitted :=
  let enc (w : Val) (f : Byte) : Emitted := ⟨encodeFloat fmtE4m3 w, w, f⟩
  let policy (n : Bool) (f : Byte) : Emitted :=
    if m.saturate then enc (fmtLargest fmtE4m3 n) (f ||| flSaturate ||| flOverflow)
    else enc .nan (f ||| flOverflow)
  match v with
  | .nan => enc .nan 0
  | .inf n => policy n 0
  | .fin n mag e s =>
    let r := roundTo fmtE4m3 (emitRnd m) (.fin n mag e s)
    if r.overflow then
      let f := flagIf m.strict flInexact
      if m.strict ∧ overflowsToInf m.rnd n = false then enc (fmtLargest fmtE4m3 n) (f ||| flOverflow)
      else policy n f
    else enc r.val (roundFlags m.strict r)

/-- Conversion to an IEEE-style format (R93, R94, R98, R106, R107). -/
def emitIeee (m : EmitMode) (f : FloatFmt) (v : Val) : Emitted :=
  let r := roundTo f (emitRnd m) v
  let fl := roundFlags m.strict r
  if m.flush && !m.strict && decide (f = fmtF32) && !isZero r.val && vlt (vabs r.val) (fmtMinNormal f) then
    ⟨encodeFloat f (vzero (isNeg r.val)), vzero (isNeg r.val), fl ||| flFlush ||| flUnderflow⟩
  else ⟨encodeFloat f r.val, r.val, fl⟩

/-- Conversion to a format that is not a block format. -/
def emitScalar (m : EmitMode) (code : Nat) (v : Val) : Emitted :=
  match code with
  | 0 => emitIeee m fmtF64 v
  | 1 => emitIeee m fmtF32 v
  | 2 => emitIeee m fmtBf16 v
  | 3 => emitIeee m fmtF16 v
  | 4 => emitE4m3 m v
  | 5 => emitIeee m fmtE5m2 v
  | 12 => emitInt m 8 v
  | _ => emitInt m 32 v

/-! ## MX blocks (R101 to R105, R413, R414) -/

/-- Exponent of the largest binade of an MX element (the table in R413). -/
def mxEmax (code : Nat) : Int :=
  match code with
  | 6 => 8 | 7 => 15 | 8 => 4 | 9 => 2 | 10 => 2 | _ => 0

/-- Largest finite element value: 127/64 for MXINT8 (R59, R413). -/
def mxLargest (code : Nat) (neg : Bool) : Val :=
  match floatFmtOf code with
  | some f => fmtLargest f neg
  | none => .fin neg 127 (-6) false

/-- floor(log2 |v|) of a finite non-zero value. -/
def floorLog2 (v : Val) : Int :=
  match v with
  | .fin _ m e _ => (bitLen m : Int) - 1 + e
  | _ => 0

/-- The block scale exponent of R413; none when it exceeds 127. -/
def mxScale (code : Nat) (scaleUp : Bool) (amax : Val) : Option Int :=
  let e :=
    if isZero amax then (-127 : Int)
    else
      let e0 := floorLog2 amax - mxEmax code
      let e1 := if scaleUp && vlt (mxLargest code false) (vscale amax (-e0)) then e0 + 1 else e0
      max e1 (-127)
  if e > 127 then none else some e

/-- Raw bits of an MX element value that the format represents. -/
def mxEncode (code : Nat) (v : Val) : Nat :=
  match floatFmtOf code with
  | some f => encodeFloat f v
  | none =>
    match v with
    | .fin n m e _ =>
      let k := if e + 6 ≥ 0 then m <<< (e + 6).toNat else m >>> (-(e + 6)).toNat
      wrapNat 8 (if n then -(k : Int) else k)
    | _ => 0

/-- One finite element divided by the scale and rounded with an unbounded exponent, then clamped (R101, R414). -/
def mxElement (strict : Bool) (code : Nat) (e : Int) (v : Val) : Emitted :=
  let x := vscale v (-e)
  match floatFmtOf code with
  | some f =>
    match x with
    | .fin n m ex s =>
      let q := max ((bitLen m : Int) + ex - fmtPrec f) (fmtQmin f)
      let r := roundUnits .tiesToEven n m ex s q
      let w : Val := if r.1 = 0 then vzero n else .fin n r.1 q false
      let u := roundUnits .tiesToEven n m ex s ((bitLen m : Int) + ex - fmtPrec f)
      let tiny := !isZero x &&
        vlt (.fin false u.1 ((bitLen m : Int) + ex - fmtPrec f) false) (fmtMinNormal f)
      if vlt (mxLargest code false) (vabs w) then
        ⟨mxEncode code (mxLargest code n), mxLargest code n, flSaturate ||| flagIf strict flInexact⟩
      else ⟨mxEncode code w, w, roundFlags strict ⟨w, false, tiny, r.2⟩⟩
    | w => ⟨mxEncode code w, w, 0⟩
  | none =>
    match x with
    | .fin n m ex s =>
      let r := roundUnits .tiesToEven n m ex s (-6)
      if r.1 > 127 then
        ⟨mxEncode code (mxLargest code n), mxLargest code n, flSaturate ||| flagIf strict flInexact⟩
      else ⟨wrapNat 8 (if n then -(r.1 : Int) else r.1), .fin n r.1 (-6) false, flagIf (strict && r.2) flInexact⟩
    | _ => ⟨0, vzero false, 0⟩

/-- One element of a block as EMIT receives it. -/
structure BlockElem where
  val     : Val
  poison  : Bool
  deriving DecidableEq, Repr

/-- An encoded MX block: scale byte, one result for each present element, and whether a special value or the
scale NaN stands in it. -/
structure MxBlock where
  scale   : Byte
  elems   : List Emitted
  special : Bool
  deriving DecidableEq, Repr

/-- The largest finite magnitude of a block, 0 when there is none (R103). -/
def blockAmax (es : List BlockElem) : Val :=
  es.foldl (fun a x => if !x.poison && isFinite x.val && vlt a (vabs x.val) then vabs x.val else a) (vzero false)

/-- The code that an element takes to which no rule gives one: a free one, but no NaN other than the canonical one (R56)
and never 0x80 of MXINT8 (R59). -/
def unstatedCode (code i : Nat) (v : Val) : Nat :=
  let raw := Config.unstatedElement code i (boolNat (isNeg v)) (match v with | .fin _ k _ _ => k | _ => 0) (expOf v)
    % 2 ^ elemBits code
  if isNan (decodeElem code raw) then canonicalNan code
  else if decide (code = 11) && decide (raw = 0x80) then 0x81
  else raw

/-- A block of present elements in an MX format under the overflow policy (R101 to R105, R182, R413). -/
def mxBlock (m : EmitMode) (code : Nat) (scaleUp : Bool) (es : List BlockElem) : MxBlock :=
  let hasPoison := es.any (fun x => x.poison)
  let live := es.filter (fun x => !x.poison)
  let hasInf := live.any (fun x => isInf x.val)
  let hasNan := live.any (fun x => isNan x.val)
  let e := mxScale code scaleUp (blockAmax es)
  let nanable := code = 6 ∨ code = 7
  let infLegal := code = 7
  let policy := (hasInf && !decide infLegal) || e.isNone
  let eUsed : Int := match e with | some x => if policy && m.saturate then 127 else x | none => 127
  let lost := policy && !m.saturate
  let one (x : BlockElem) (i : Nat) : Emitted :=
    if x.poison then ⟨canonicalNan code, .nan, 0⟩
    else match x.val with
      | .nan => ⟨if nanable then canonicalNan code else unstatedCode code i .nan, .nan, 0⟩
      | .inf n =>
        if infLegal then ⟨encodeFloat fmtE5m2 (.inf n), .inf n, 0⟩
        else if m.saturate then ⟨mxEncode code (mxLargest code n), mxLargest code n, flSaturate ||| flOverflow⟩
        else ⟨unstatedCode code i (.inf n), .nan, flOverflow⟩
      | v =>
        let r := mxElement m.strict code eUsed v
        if lost && e.isNone && !isZero v then
          ⟨unstatedCode code i v, .nan, flagIf (vlt (mxLargest code false) (vscale (vabs v) (-127))) flOverflow⟩
        else ⟨r.raw, r.val, r.flags ||| flagIf (e.isNone && hasFlag r.flags flSaturate) flOverflow⟩
  let scaleNan := hasPoison || (hasNan && !decide nanable) || lost
  let scale : Byte := if scaleNan then 0xFF else BitVec.ofNat 8 (eUsed + 127).toNat
  ⟨scale, es.zipIdx.map (fun x => one x.1 x.2), decide (scale = 0xFF) || hasInf || hasNan⟩

end Sys2Proof.Machine
end

