-- ==== Sys2Proof/Machine/Real.lean ====
section
/-! DEFINITION. The functions of R186 evaluated to far more bits than any rounding needs. A result that no dyadic
value equals is a sticky value of 256 bits, so one rounding of it is the correctly rounded result; R222's basis for
strict FP64, a relative error below 2^-128, is far coarser. -/

namespace Sys2Proof.Machine

/-- A working number: n · 2^e. -/
structure Big where
  n : Int
  e : Int
  deriving DecidableEq, Repr

/-- Bits kept by the working numbers. -/
def bigBits : Nat := 384

/-- Truncation of a working number to `p` bits. -/
def bigNorm (p : Nat) (x : Big) : Big :=
  let l := bitLen x.n.natAbs
  if l ≤ p then x
  else
    let k := l - p
    let m : Int := ((x.n.natAbs >>> k : Nat) : Int)
    ⟨if x.n < 0 then -m else m, x.e + k⟩

def bigOfInt (i : Int) : Big := ⟨i, 0⟩

/-- The working number of a finite value. -/
def bigOf (v : Val) : Big :=
  match unstick v with
  | .fin n m e _ => ⟨if n then -(m : Int) else m, e⟩
  | _ => ⟨0, 0⟩

def bigNeg (x : Big) : Big := ⟨-x.n, x.e⟩

def bigAdd (p : Nat) (x y : Big) : Big :=
  if x.n = 0 then y
  else if y.n = 0 then x
  else
    let e := min x.e y.e
    let a := x.n * ((2 ^ (x.e - e).toNat : Nat) : Int)
    let b := y.n * ((2 ^ (y.e - e).toNat : Nat) : Int)
    bigNorm p ⟨a + b, e⟩

def bigMul (p : Nat) (x y : Big) : Big := bigNorm p ⟨x.n * y.n, x.e + y.e⟩

/-- Quotient to `p` bits. -/
def bigDiv (p : Nat) (x y : Big) : Big :=
  let k := p + bitLen y.n.natAbs
  let q : Int := (((x.n.natAbs <<< k) / y.n.natAbs : Nat) : Int)
  bigNorm p ⟨if (x.n < 0) = (y.n < 0) then q else -q, x.e - y.e - k⟩

def bigDivNat (p : Nat) (x : Big) (d : Nat) : Big := bigDiv p x ⟨d, 0⟩

def bigScale (x : Big) (k : Int) : Big := ⟨x.n, x.e + k⟩

/-- floor(x + 1/2). -/
def bigNearest (x : Big) : Int := vfloor (vdyadic (2 * x.n + (2 ^ (-x.e).toNat : Nat)) (x.e - 1))

/-- Square root to `p` bits of a positive number. -/
def bigSqrt (p : Nat) (x : Big) : Big :=
  let k := 2 * p
  let n := x.n.natAbs <<< k
  let odd := decide (x.e % 2 ≠ 0)
  let n' := if odd then 2 * n else n
  let e' := if odd then x.e - 1 else x.e
  bigNorm p ⟨isqrt n', (e' - k) / 2⟩

/-- Sum of t_0 + t_0·r_1 + t_0·r_1·r_2 + …, `n` terms, where term i is term i-1 times `step i`. -/
def bigSeries (p : Nat) (step : Nat → Big → Big) : Nat → Nat → Big → Big → Big
  | 0, _, _, acc => acc
  | n + 1, i, t, acc => bigSeries p step n (i + 1) (step i t) (bigAdd p acc t)

/-- atanh(z)/z-style sum: z + z^3/3 + z^5/5 + … -/
def bigAtanh (p : Nat) (z : Big) : Big :=
  let z2 := bigMul p z z
  let rec go : Nat → Nat → Big → Big → Big
    | 0, _, _, acc => acc
    | n + 1, i, pw, acc => go n (i + 1) (bigMul p pw z2) (bigAdd p acc (bigDivNat p pw (2 * i + 1)))
  go (p / 3 + 8) 0 z ⟨0, 0⟩

/-- ln 2 = 2 atanh(1/3). -/
def bigLn2 (p : Nat) : Big := bigScale (bigAtanh p (bigDiv p ⟨1, 0⟩ ⟨3, 0⟩)) 1

/-- arctan(1/k). -/
def bigAtanInv (p : Nat) (k : Nat) : Big :=
  let rec go : Nat → Nat → Big → Big → Big
    | 0, _, _, acc => acc
    | n + 1, i, pw, acc =>
      let t := bigDivNat p pw (2 * i + 1)
      go n (i + 1) (bigDivNat p pw (k * k)) (bigAdd p acc (if i % 2 = 0 then t else bigNeg t))
  go (p / 4 + 8) 0 (bigDivNat p ⟨1, 0⟩ k) ⟨0, 0⟩

/-- π by Machin's formula. -/
def bigPi (p : Nat) : Big :=
  bigAdd p (bigScale (bigAtanInv p 5) 4) (bigNeg (bigScale (bigAtanInv p 239) 2))

/-- e^r - 1 for |r| below 1, by its series. -/
def bigExpm1Small (p : Nat) (r : Big) : Big :=
  bigSeries p (fun i t => bigDivNat p (bigMul p t r) (i + 1)) (p / 4 + 16) 1 r ⟨0, 0⟩

/-- e^y for |y| below 2^14. -/
def bigExp (p : Nat) (y : Big) : Big :=
  let l := bigLn2 (p + 32)
  let k := bigNearest (bigDiv 64 y l)
  let r := bigAdd (p + 32) y (bigNeg (bigMul (p + 32) ⟨k, 0⟩ l))
  bigNorm p (bigScale (bigAdd (p + 32) ⟨1, 0⟩ (bigExpm1Small (p + 32) r)) k)

def bigLt (x y : Big) : Bool := vlt (vdyadic x.n x.e) (vdyadic y.n y.e)

def bigAbs (x : Big) : Big := ⟨x.n.natAbs, x.e⟩

/-- e^y - 1 with small relative error everywhere. -/
def bigExpm1 (p : Nat) (y : Big) : Big :=
  if bigLt (bigAbs y) ⟨1, -2⟩ then bigExpm1Small p y
  else bigAdd p (bigExp (p + 32) y) ⟨-1, 0⟩

/-- ln(1 + t) for |t| at most 1/2. -/
def bigLog1pSmall (p : Nat) (t : Big) : Big :=
  bigScale (bigAtanh p (bigDiv p t (bigAdd p ⟨2, 0⟩ t))) 1

/-- ln x for x > 0. -/
def bigLn (p : Nat) (x : Big) : Big :=
  let k : Int := (bitLen x.n.natAbs : Int) - 1 + x.e
  let m := bigScale x (-k)
  let big := !bigLt m ⟨3, -1⟩
  let m' := if big then bigScale m (-1) else m
  let k' := if big then k + 1 else k
  bigAdd p (bigMul p ⟨k', 0⟩ (bigLn2 p)) (bigLog1pSmall p (bigAdd (2 * p + 2048) m' ⟨-1, 0⟩))

/-- ln(1 + t) for t > -1, with small relative error. -/
def bigLog1p (p : Nat) (t : Big) : Big :=
  if bigLt (bigAbs t) ⟨1, -1⟩ then bigLog1pSmall p t
  else bigLn p (bigAdd (p + 2048) ⟨1, 0⟩ t)

/-- sin x for |x| below 1. -/
def bigSin (p : Nat) (x : Big) : Big :=
  let x2 := bigNeg (bigMul p x x)
  bigSeries p (fun i t => bigDivNat p (bigMul p t x2) ((2 * i) * (2 * i + 1))) (p / 6 + 16) 1 x ⟨0, 0⟩

/-- cos x for |x| below 1. -/
def bigCos (p : Nat) (x : Big) : Big :=
  let x2 := bigNeg (bigMul p x x)
  bigSeries p (fun i t => bigDivNat p (bigMul p t x2) ((2 * i - 1) * (2 * i))) (p / 6 + 16) 1 ⟨1, 0⟩ ⟨0, 0⟩

/-- erf x for x ≥ 0 below 64: (2/√π) e^(-x²) Σ 2^n x^(2n+1) / (1·3·…·(2n+1)). -/
def bigErf (p : Nat) (x : Big) : Big :=
  let x2 := bigMul p x x
  let s := bigSeries p (fun i t => bigDivNat p (bigScale (bigMul p t x2) 1) (2 * i + 1))
    (p + 8 * (vceil (vdyadic x2.n x2.e)).toNat + 32) 1 x ⟨0, 0⟩
  bigDiv p (bigScale (bigMul p s (bigExp p (bigNeg x2))) 1) (bigSqrt p (bigPi p))

/-! ## From working numbers to sticky values -/

/-- The working number as a sticky value of 256 bits. -/
def stickyOf (x : Big) : Val :=
  let m := x.n.natAbs
  let l := bitLen m
  if l ≤ 256 then .fin (decide (x.n < 0)) (m <<< (256 - l)) (x.e - ((256 - l : Nat) : Int)) true
  else .fin (decide (x.n < 0)) (m >>> (l - 256)) (x.e + ((l - 256 : Nat) : Int)) true

/-- A value just above (in magnitude) or just below a dyadic one. -/
def nudge (v : Val) (up : Bool) : Val :=
  match v with
  | .fin n m e _ =>
    let k := 320 - bitLen m
    .fin n (if up then m <<< k else (m <<< k) - 1) (e - (k : Int)) true
  | v => v

/-- A magnitude beyond every format, and one below every format. -/
def hugeVal (neg : Bool) : Val := .fin neg 1 5000 false
def minuteVal (neg : Bool) : Val := .fin neg 1 (-5000) true

/-- |v| < 2^k. -/
def belowPow (v : Val) (k : Int) : Bool := vlt (vabs v) (.fin false 1 k false)

/-- 2^y for finite y. -/
def exactExp2 (y : Val) : Val :=
  if isInteger y then
    let k := vfloor y
    if k > 4000 then hugeVal false else if k < -4000 then minuteVal false else .fin false 1 k false
  else if !belowPow y 12 then (if isNeg y then minuteVal false else hugeVal false)
  else if belowPow y (-300) then nudge (vint 1) (!isNeg y)
  else
    let k := vfloor y
    let f := (vsub y (vint k)).val
    vscale (stickyOf (bigExp bigBits (bigMul bigBits (bigOf f) (bigLn2 bigBits)))) k

/-- e^y for finite y ≠ 0. -/
def exactExp (y : Val) : Val :=
  if !belowPow y 12 then (if isNeg y then minuteVal false else hugeVal false)
  else if belowPow y (-300) then nudge (vint 1) (!isNeg y)
  else stickyOf (bigExp bigBits (bigOf y))

/-- e^y - 1 for finite y ≠ 0. -/
def exactExpm1 (y : Val) : Val :=
  if !belowPow y 12 then (if isNeg y then nudge (vint (-1)) false else hugeVal false)
  else if isNeg y && !belowPow y 8 then nudge (vint (-1)) false
  else if belowPow y (-300) then nudge y (!isNeg y)
  else stickyOf (bigExpm1 bigBits (bigOf y))

/-- The exponent of a power of two; none for another value. -/
def powerOfTwo (v : Val) : Option Int :=
  match v with
  | .fin false m e false => if m ≠ 0 ∧ 2 ^ (bitLen m - 1) = m then some ((bitLen m : Int) - 1 + e) else none
  | _ => none

/-- log2 y for y > 0. -/
def exactLog2 (y : Val) : Val :=
  match powerOfTwo y with
  | some k => vint k
  | none => stickyOf (bigDiv bigBits (bigLn (bigBits + 64) (bigOf y)) (bigLn2 bigBits))

/-- ln y for y > 0, y ≠ 1. -/
def exactLn (y : Val) : Val := stickyOf (bigLn bigBits (bigOf y))

/-- ln(1 + y) for y > -1, y ≠ 0. -/
def exactLog1p (y : Val) : Val :=
  if belowPow y (-300) then nudge y (isNeg y)
  else stickyOf (bigLog1p bigBits (bigOf y))

/-- 1 / y for y ≠ 0. -/
def exactRcp (y : Val) : Val :=
  match unstick y with
  | .fin n m e _ => vscale (ratio n 1 m 320) (-e)
  | v => v

/-- √y for y > 0. -/
def exactSqrt (y : Val) : Val :=
  match unstick y with
  | .fin _ m e _ => rootOf m e 320
  | v => v

/-- 1/√y for y > 0. -/
def exactRsqrt (y : Val) : Val :=
  match unstick y with
  | .fin _ m e _ => if e ≥ 0 then invRootOf (m <<< e.toNat) 1 320 else invRootOf m (2 ^ (-e).toNat) 320
  | v => v

/-- tanh y for y ≠ 0. -/
def exactTanh (y : Val) : Val :=
  if belowPow y (-150) then nudge y false
  else if !belowPow y 8 then nudge (if isNeg y then vint (-1) else vint 1) false
  else
    let t := bigExpm1 (bigBits + 64) (bigScale (bigOf (vabs y)) 1)
    let r := stickyOf (bigDiv bigBits t (bigAdd bigBits t ⟨2, 0⟩))
    let cap := nudge (vint 1) false
    let r' := if vlt r (vint 1) then r else cap
    if isNeg y then vneg r' else r'

/-- 1/(1 + e^-y) for y ≠ 0. -/
def exactSigmoid (y : Val) : Val :=
  if belowPow y (-300) then nudge (.fin false 1 (-1) false) (!isNeg y)
  else if !belowPow y 12 then (if isNeg y then minuteVal false else nudge (vint 1) false)
  else
    let x := bigExp bigBits (bigOf (vabs y))
    let d := bigAdd (bigBits + 12000) ⟨1, 0⟩ x
    if isNeg y then stickyOf (bigDiv bigBits ⟨1, 0⟩ d)
    else if !belowPow y 8 then nudge (vint 1) false
    else stickyOf (bigDiv bigBits x d)

/-- erf y for y ≠ 0. -/
def exactErf (y : Val) : Val :=
  let r :=
    if !belowPow y 4 then nudge (vint 1) false
    else stickyOf (bigErf (bigBits + 448) (bigOf (vabs y)))
  if isNeg y then vneg r else r

/-- (1 + erf(y/√2))/2 for y ≠ 0, as a working number; none when it is below every format. -/
def phiOf (y : Val) : Option Big :=
  if isNeg y then
    if !belowPow y 6 then none
    else
      let p := bigBits + 3200
      let x := bigDiv p (bigOf (vabs y)) (bigSqrt p ⟨2, 0⟩)
      some (bigScale (bigAdd p ⟨1, 0⟩ (bigNeg (bigErf p x))) (-1))
  else if !belowPow y 6 then some ⟨1, 0⟩
  else
    let p := bigBits + 3200
    let x := bigDiv p (bigOf y) (bigSqrt p ⟨2, 0⟩)
    some (bigScale (bigAdd p ⟨1, 0⟩ (bigErf p x)) (-1))

/-- y times a factor in (0, 1). -/
def timesFactor (y : Val) (g : Option Big) : Val :=
  match g with
  | none => minuteVal (isNeg y)
  | some x => stickyOf (bigMul (bigBits + 3200) (bigOf y) x)

/-- gelu_erf y for y ≠ 0 (R186). -/
def exactGeluErf (y : Val) : Val :=
  if belowPow y (-300) then nudge (vscale y (-1)) (!isNeg y)
  else if !isNeg y && !belowPow y 6 then nudge y false
  else timesFactor y (phiOf y)

/-- gelu_tanh y for y ≠ 0: the factor (1 + tanh u)/2 is 1/(1 + e^(-2u)) (R186). -/
def exactGeluTanh (y : Val) : Val :=
  if belowPow y (-300) then nudge (vscale y (-1)) (!isNeg y)
  else if !belowPow y 6 then (if isNeg y then minuteVal true else nudge y false)
  else
    let p := bigBits + 64
    let b := bigOf (vabs y)
    let c := bigDiv p (bigMul p ⟨44715, 0⟩ (bigMul p b (bigMul p b b))) ⟨1000000, 0⟩
    let u := bigMul p (bigSqrt p (bigDiv p ⟨2, 0⟩ (bigPi p))) (bigAdd p b c)
    if bigLt ⟨2000, 0⟩ u then (if isNeg y then minuteVal true else nudge y false)
    else
      let x := bigExp p (bigScale u 1)
      let d := bigAdd (p + 12000) ⟨1, 0⟩ x
      if isNeg y then timesFactor y (some (bigDiv p ⟨1, 0⟩ d))
      else timesFactor y (some (bigDiv (p + 6000) x d))

/-- silu y for y ≠ 0. -/
def exactSilu (y : Val) : Val :=
  if belowPow y (-300) then nudge (vscale y (-1)) (!isNeg y)
  else if !belowPow y 12 then (if isNeg y then minuteVal true else nudge y false)
  else
    match exactSigmoid y with
    | .fin _ m e _ =>
      let s : Big := bigOf (.fin false m e true)
      if !isNeg y && !belowPow y 7 then nudge y false else stickyOf (bigMul 600 (bigOf y) s)
    | v => v

/-- ln(1 + e^y) for finite y. -/
def exactSoftplus (y : Val) : Val :=
  if !belowPow y 12 then (if isNeg y then minuteVal false else nudge y true)
  else if !isNeg y && !belowPow y 8 then nudge y true
  else
    let x := if isZero y then (⟨1, 0⟩ : Big) else bigExp (bigBits + 64) (bigOf y)
    stickyOf (bigLog1p (bigBits + 64) x)

/-- mish y for y ≠ 0: tanh(ln(1 + t)) is (t² + 2t)/(t² + 2t + 2) with t = e^y. -/
def exactMish (y : Val) : Val :=
  if !belowPow y 12 then (if isNeg y then minuteVal true else nudge y false)
  else if !isNeg y && !belowPow y 8 then nudge y false
  else
    let p := bigBits + 64
    let t := bigExp p (bigOf y)
    let a := bigAdd p (bigMul p t t) (bigScale t 1)
    timesFactor y (some (bigDiv p a (bigAdd (p + 800) a ⟨2, 0⟩)))

/-- y = 2n + r with -1 ≤ r < 1, exactly; q = floor(2r + 1/2), s = r - q/2 (R191). -/
def piReduce (y : Val) : Int × Val :=
  let n := vfloor (vscale (vadd y (vint 1)).val (-1))
  let r := (vsub y (vint (2 * n))).val
  let q := vfloor (vadd (vscale r 1) (.fin false 1 (-1) false)).val
  (q, (vsub r (vdyadic q (-1))).val)

/-- sin(πs) for |s| ≤ 1/4. -/
def sinPiKernel (s : Val) : Val :=
  if isZero s then vzero false
  else stickyOf (bigSin bigBits (bigMul bigBits (bigPi bigBits) (bigOf s)))

/-- cos(πs) for |s| ≤ 1/4. -/
def cosPiKernel (s : Val) : Val :=
  if isZero s then vint 1
  else if belowPow s (-150) then nudge (vint 1) false
  else stickyOf (bigCos bigBits (bigMul bigBits (bigPi bigBits) (bigOf s)))

/-- sin(π y) by its quadrant. -/
def exactSinPi (y : Val) : Val :=
  let (q, s) := piReduce y
  match q % 4 with
  | 0 => sinPiKernel s
  | 1 => cosPiKernel s
  | 2 => vneg (sinPiKernel s)
  | _ => vneg (cosPiKernel s)

/-- cos(π y) by its quadrant. -/
def exactCosPi (y : Val) : Val :=
  let (q, s) := piReduce y
  match q % 4 with
  | 0 => cosPiKernel s
  | 1 => vneg (sinPiKernel s)
  | 2 => vneg (cosPiKernel s)
  | _ => sinPiKernel s

/-- The exact value of built-in curve `c` of R186 at a finite argument that R187 does not list; rotary is not
a function of one argument and is handled apart. -/
def exactCurve (c : Nat) (y : Val) : Val :=
  match c with
  | 0 => exactExp2 y
  | 1 => exactExp y
  | 2 => exactExpm1 y
  | 3 => exactLog2 y
  | 4 => exactLn y
  | 5 => exactLog1p y
  | 6 => exactRcp y
  | 7 => exactRsqrt y
  | 8 => exactSqrt y
  | 9 => exactTanh y
  | 10 => exactSigmoid y
  | 11 => exactErf y
  | 12 => exactGeluErf y
  | 13 => exactGeluTanh y
  | 14 => exactSilu y
  | 15 => exactSoftplus y
  | 16 => exactMish y
  | 17 => if isNeg y then exactExpm1 y else y
  | 18 => vneg (exactSoftplus (vneg y))
  | 19 => exactSinPi y
  | _ => exactCosPi y

end Sys2Proof.Machine
end

