-- ==== Sys2Proof/Machine/Digest.lean ====
section
/-! DEFINITION. The digest engine's functions: SHA-256 (FIPS 180-4) and HMAC-SHA-256 of R526, R528, R535, the GHASH
of R529 (NIST SP 800-38D), the CRC-64 of the lockstep signature (R566), and the table-set identifier (R203). -/

namespace Sys2Proof.Machine

/-! ## SHA-256 -/

/-- The largest number below r + 2^n, and at least r, whose k-th power is at most x. -/
def rootFloor (k x : Nat) : Nat → Nat → Nat
  | 0, r => r
  | n + 1, r => rootFloor k x n (if (r + 2 ^ n) ^ k ≤ x then r + 2 ^ n else r)

/-- The first 32 bits of the fractional part of the k-th root of p. -/
def rootFraction (k p : Nat) : W32 := BitVec.ofNat 32 (rootFloor k (p <<< (32 * k)) 36 0)

/-- The first 64 prime numbers: those below 312. -/
def shaPrimes : List Nat :=
  ((List.range 312).drop 2).filter (fun n => ((List.range n).drop 2).all (fun d => decide (n % d ≠ 0)))

/-- The 64 constants of FIPS 180-4: from the cube roots of the first 64 primes. -/
def shaRoundConstants : List W32 := shaPrimes.map (rootFraction 3)

/-- The eight words of a hash value, first word first; from the square roots of the first eight primes. -/
def shaInit : List W32 := (shaPrimes.take 8).map (rootFraction 2)

/-- The exclusive or of a word rotated right by each of some distances. -/
def rotations (x : W32) (ds : List Nat) : W32 := ds.foldl (fun r d => r ^^^ x.rotateRight d) 0

/-- The message schedule, newest word first: `n` further words behind those at hand. -/
def shaSchedule : Nat → List W32 → List W32
  | 0, w => w
  | n + 1, w =>
    let back (i : Nat) : W32 := w.getD (i - 1) 0
    let low := rotations (back 15) [7, 18] ^^^ (back 15 >>> 3)
    let high := rotations (back 2) [17, 19] ^^^ (back 2 >>> 10)
    shaSchedule n ((high + back 7 + low + back 16) :: w)

/-- One round: every word moves down by one; the first and the fifth take what the round mixes. -/
def shaRound (v : List W32) (kw : W32) : List W32 :=
  let x (i : Nat) : W32 := v.getD i 0
  let chosen := (x 4 &&& (x 5 ^^^ x 6)) ^^^ x 6
  let most := (x 0 &&& (x 1 ||| x 2)) ||| (x 1 &&& x 2)
  let mixed := x 7 + rotations (x 4) [6, 11, 25] + chosen + kw
  (mixed + rotations (x 0) [2, 13, 22] + most)
    :: v.dropLast.zipIdx.map (fun y => if y.2 = 3 then y.1 + mixed else y.1)

/-- The number that a list of bytes holds, most significant byte first. -/
def bytesBig (bs : List Byte) : Nat := bs.foldl (fun a b => 256 * a + b.toNat) 0

/-- Words of a block, most significant byte first. -/
def blockWords : Nat → List Byte → List W32
  | 0, _ => []
  | n + 1, bs => BitVec.ofNat 32 (bytesBig (bs.take 4)) :: blockWords n (bs.drop 4)

/-- A hash value after one block of 64 bytes, under the round constants. -/
def shaBlock (ks hash : List W32) (block : List Byte) : List W32 :=
  let ws := (shaSchedule 48 (blockWords 16 block).reverse).reverse
  List.zipWith (· + ·) hash ((List.zipWith (· + ·) ks ws).foldl shaRound hash)

def shaBlocks (ks : List W32) : Nat → List Byte → List W32 → List W32
  | 0, _, hash => hash
  | n + 1, bs, hash => shaBlocks ks n (bs.drop 64) (shaBlock ks hash (bs.take 64))

/-- SHA-256 of a byte string. -/
def sha256 (msg : List Byte) : List Byte :=
  let l := msg.length
  let blocks := (l + 9 + 63) / 64
  let padded := msg ++ [0x80] ++ List.replicate (64 * blocks - l - 9) 0 ++ (natBytes 8 (8 * l)).reverse
  (shaBlocks shaRoundConstants blocks padded shaInit).flatMap (fun w => (natBytes 4 w.toNat).reverse)

/-- HMAC-SHA-256 under a 32-byte key. -/
def hmac256 (key msg : List Byte) : List Byte :=
  let pad (x : Byte) := (key ++ List.replicate (64 - key.length) 0).map (fun b => b ^^^ x)
  sha256 (pad 0x5c ++ sha256 (pad 0x36 ++ msg))

/-! ## GHASH -/

/-- Product in GF(2^128) with the bit order of SP 800-38D: bit 0 of the standard is the most significant bit. -/
def gmulGo (y : Nat) : Nat → Nat → Nat → Nat
  | 0, _, z => z
  | n + 1, v, z =>
    let z' := if y.testBit n then z ^^^ v else z
    let v' := if v % 2 = 1 then (v / 2) ^^^ (0xE1 <<< 120) else v / 2
    gmulGo y n v' z'

def gmul (x y : Nat) : Nat := gmulGo x 128 y 0

def ghashGo (h : Nat) : Nat → List Byte → Nat → Nat
  | 0, _, y => y
  | n + 1, bs, y => ghashGo h n (bs.drop 16) (gmul (y ^^^ bytesBig (bs.take 16)) h)

/-- Zero padding to a multiple of 16 bytes. -/
def pad16 (bs : List Byte) : List Byte := bs ++ List.replicate ((16 - bs.length % 16) % 16) 0

/-- The hash of R529 of the sources present, under the subkey: the 16 bytes of GHASH. -/
def streamHash (subkey : List Byte) (sources : List (List Byte)) : List Byte :=
  let data := sources.flatMap pad16
  let total := sources.foldl (fun a s => a + s.length) 0
  let blocks := data ++ natBytes 8 total ++ natBytes 8 sources.length
  (natBytes 16 (ghashGo (bytesBig subkey) (blocks.length / 16) blocks 0)).reverse

/-- The hash subkey of a digest key (R529). -/
def hashSubkey (key : BitVec 256) : List Byte :=
  (hmac256 (natBytes 32 key.toNat) ((1 : Byte) :: List.replicate 15 0)).take 16

/-! ## CRC-64 -/

def crcByte (crc : W64) (b : Byte) : W64 :=
  (List.range 8).foldl
    (fun c _ => if bit c 63 then (c <<< 1) ^^^ 0x42F0E1EBA9EA3693 else c <<< 1)
    (crc ^^^ (BitVec.ofNat 64 b.toNat <<< 56))

/-- CRC-64 with the ECMA-182 polynomial, continued from a signature (R566). -/
def crc64 (crc : W64) (bs : List Byte) : W64 := bs.foldl crcByte crc

/-! ## The factory table set (R203, R204) -/

/-- An entry of the factory bank: the directory of the built-in curves and their segments; every custom slot empty. -/
def factoryBankEntry (i : Nat) : BitVec 256 :=
  if i ≤ 21 ∨ 32 ≤ i ∧ i < 8192 then Config.factoryEntry i else 0

/-- The table-set identifier of 12,288 entries in address order (R203). -/
def tableSetId (entry : Nat → BitVec 256) : W64 :=
  BitVec.ofNat 64 (bytesNat ((sha256 ((List.range 12288).flatMap (fun i => natBytes 32 (entry i).toNat))).take 8))

/-- The identifier of the factory set, stored in ROM (R204). -/
def factoryTableId : W64 := tableSetId factoryBankEntry

end Sys2Proof.Machine
end

