-- ==== Sys2Proof/Machine/State.lean ====
section
/-! DEFINITION. The state of the unit as plain data, its value after reset, and the reasons for which a step can
stop. Every field is listed in INVENTORY.md with the rule that names it. -/

namespace Sys2Proof.Machine

/-! ## Memories -/

/-- A range of addresses whose bytes hold no defined value (R355, R484, R546), with the stamp of its free bytes. -/
structure UndefRange where
  start : Nat
  len   : Nat
  stamp : Nat
  deriving DecidableEq, Repr

/-- A byte memory: the bytes that differ from 0, the ranges with no defined value, and the 64-byte sectors
(address div 64) whose poison bit is set (R36, R37). -/
structure Memory where
  cells  : List Host.Cell
  undef  : List UndefRange
  poison : List Nat
  deriving DecidableEq, Repr

/-- Memory to which nothing has been written (log entry 6). -/
def Memory.empty : Memory := ⟨[], [], []⟩

/-- The three memories that the unit reaches: device memory, its tile's SRAM, and the twin tile's SRAM (R39). -/
inductive Space where
  | device
  | tile
  | twin
  deriving DecidableEq, Repr

/-! ## Row slots -/

/-- MAXV or MINV: a W38 value and a 40-bit global index (R258). -/
structure Extremum where
  value : BitVec 38
  index : BitVec 40
  deriving DecidableEq, Repr

/-- A row slot (R258, R259). -/
structure Slot where
  count   : BitVec 48
  epoch   : W32
  flushes : BitVec 16
  xover   : Bool
  xninf   : Bool
  xpinf   : Bool
  xnan    : Bool
  poison  : Bool
  fin     : BitVec 2
  exact   : Bool
  isOpen  : Bool
  owner   : ViId
  maxv    : Extremum
  minv    : Extremum
  ref     : BitVec 16
  fsum    : W64
  fsumsq  : W64
  xsum    : Exact
  xsumsq  : Exact
  sw      : W128
  dlink   : W128
  deriving DecidableEq, Repr

/-- The slot whose 256 bytes are all zero (R271, R275). -/
def Slot.zero : Slot :=
  { count := 0, epoch := 0, flushes := 0, xover := false, xninf := false, xpinf := false, xnan := false,
    poison := false, fin := 0, exact := false, isOpen := false, owner := 0, maxv := ⟨0, 0⟩, minv := ⟨0, 0⟩,
    ref := 0, fsum := 0, fsumsq := 0, xsum := 0, xsumsq := 0, sw := 0, dlink := 0 }

/-! ## Vector registers -/

/-- One vector register: the lanes written, over zero or over lanes with no defined value (R546). -/
structure RegVal where
  undef : Option Nat
  lanes : Sparse (BitVec 40)
  deriving DecidableEq, Repr

/-- The 32 registers of a ring (R169); an unlisted register is zero (R170). -/
abbrev RegFile := Sparse RegVal

/-- A save area: the tile and the address VSAVE (R462). -/
structure SaveArea where
  space   : Space
  address : Nat
  deriving DecidableEq, Repr

/-! ## Commands under way -/

/-- The values latched at the start of a command (R111, R284, R440, R527). -/
structure Latched where
  exact     : Bool
  strict    : Bool
  rnd       : BitVec 3
  saturate  : Bool
  flush     : Bool
  headroom  : BitVec 4
  refpol    : BitVec 2
  bias      : BitVec 16
  sqnrFloor : BitVec 6
  nanTrap   : Bool
  deriving DecidableEq, Repr

/-- A candidate: W38 value and global index (R364, R370). -/
structure Cand where
  value : BitVec 38
  index : Nat
  deriving DecidableEq, Repr

/-- A candidate list: its non-empty entries in order, and whether it is marked poisoned (R367, R368). -/
structure CandList where
  entries  : List Cand
  poisoned : Bool
  deriving DecidableEq, Repr

/-- A value in a lane: the number, the flags that an operation raises by using it (R91, R123), and its poison (R178). -/
structure Datum where
  val    : Val
  use    : Byte
  poison : Bool
  deriving DecidableEq, Repr

/-- An active position in the chain (R120): its place, the stage value, both ports, the values TAP can take, what EMIT
rounds in place of the stage value (R225), its flags, and the first NaN made from numbers with the stage and
operands (R550). -/
structure Elem where
  pos     : Nat
  row     : Nat
  j       : Nat
  index   : Nat
  y       : Datum
  xa      : Datum
  xb      : Option Datum
  aff     : Datum
  mixIn   : Datum
  late    : Option Val
  flags   : Byte
  made    : Option (Nat × Val × Val)
  deriving DecidableEq, Repr

/-- An element on its way into a block (R411): block, position, the value encoded, the working value, poison. -/
structure BlockItem where
  block  : Nat
  pos    : Nat
  val    : Val
  work   : Val
  poison : Bool
  deriving DecidableEq, Repr

/-- A sector held in the write buffer: the bytes covered so far by offset, and their poison (R175). -/
structure HeldSector where
  space  : Space
  sector : Nat
  bytes  : List (Nat × Byte)
  poison : Bool
  deriving DecidableEq, Repr

/-- The memory writes of one vector: bytes, the sectors that receive a poisoned element, and the runs of addresses
with the descriptor that each belongs to. -/
structure VecWrites where
  bytes    : List (Space × Nat × Byte)
  poisoned : List (Space × Nat)
  runs     : List (Nat × Space × Nat × Nat)
  promoted : List (Space × Nat)
  deriving DecidableEq, Repr

/-- A lane value and the lowest lane that holds it. -/
structure LaneMax where
  value : BitVec 48
  lane  : Nat
  deriving DecidableEq, Repr

/-- A beat in the drain queue with its prescan record (R32, R282): its maximum, and that of each group of 32 lanes. -/
structure DrainEntry where
  beat   : Beat
  top    : LaneMax
  groups : List LaneMax
  deriving DecidableEq, Repr

/-- Writes of a beat that EMIT holds until a shift is acknowledged (R298); `raising` when the beat itself
waits for its acknowledgement. -/
structure HeldBeat where
  raising : Bool
  writes  : VecWrites
  deriving DecidableEq, Repr

/-- A word of the drain or staging buffers that fails: its first element's position and how many elements it holds (R537). -/
structure BadWord where
  first    : Nat
  elements : Nat
  deriving DecidableEq, Repr

/-- A beat that has come for a vector which must wait for others: the vector's row, the beat, a word of it that failed. -/
structure WaitingBeat where
  row   : Nat
  entry : DrainEntry
  bad   : Option BadWord
  deriving DecidableEq, Repr

/-- A vector whose elements have passed MIX with the rest of its row: its number, its lanes over the headroom, its elements. -/
structure ReadyVec where
  number : Nat
  fired  : Nat
  elems  : List Elem
  deriving DecidableEq, Repr

/-- The completion statuses (R457), in the order of their codes. -/
inductive Status where
  | ok
  | okFlags
  | trapNan
  | errorContained
  | skipped
  | unitFenced
  | hingePeerLost
  | hingeTimeout
  | retracted
  | badCommand
  | quota
  | poisonInput
  | tableMismatch
  | tainted
  deriving DecidableEq, Repr

/-- Progress of a command: what R483 saves at suspension, and the sums that its completion reports. -/
structure Progress where
  checked    : Bool
  contributed : Bool
  finalised  : Bool
  vector     : Nat
  decided    : Nat
  taken      : Sparse Nat
  kept       : Sparse Nat
  beats      : Sparse Nat
  positions  : Nat
  elements   : Nat
  flags      : Byte
  poisonIn   : Bool
  blocks     : Nat
  promoted   : Nat
  denied     : Nat
  saturated  : Nat
  zeroed     : Nat
  headroom   : Nat
  special    : Nat
  signal     : W64
  noise      : W64
  side       : Nat
  mapGroup   : Nat
  mapBits    : W64
  mapBase    : Nat
  held       : List HeldSector
  heldBeats  : List HeldBeat
  wrote      : List (Nat × Space × Nat × Nat)
  wroteRegs  : List Nat
  changed    : List Nat
  reduced    : List Nat
  upstream   : W128
  drained    : Bool
  drainBytes : List (Nat × Nat × BitVec 48)
  inputs     : Sparse (List Byte)
  lists      : Sparse CandList
  fills      : Sparse Nat
  combine    : List (Nat × HeldSector)
  placed     : Nat
  dropped    : Nat
  overflowed : Nat
  result     : W64
  count      : Nat
  cols       : Sparse (List Datum)
  snap       : Sparse Slot
  waiting    : List (Nat × WaitingBeat)
  ready      : List ReadyVec
  packPend   : List (Nat × List Elem)
  sqnr       : List (Nat × List (Nat × W64 × W64))
  tagNext    : Nat
  tagPend    : Sparse (List BlockItem)
  ended      : Option Status
  deriving DecidableEq, Repr

/-- What a BLOCKED command waits for (R469, R493). -/
inductive Wait where
  | nothing
  | final (chain : Nat)
  | event (number : Nat) (target : W32)
  | loader
  | spareBank
  | rings (upTo : List (Nat × W32))
  deriving DecidableEq, Repr

/-- Where a started command stands (R469). -/
inductive CmdPhase where
  | running
  | blocked (waitEnded : Bool)
  | suspended
  deriving DecidableEq, Repr

/-- A started command of a ring: RUNNING, BLOCKED or SUSPENDED. -/
structure RunCmd where
  ring    : Nat
  vi      : ViId
  seq     : W32
  packet  : BitVec 512
  descs   : Sparse (BitVec 256)
  tumbler : BitVec 512
  poisonedFetch : Bool
  latched : Latched
  bank    : Option Nat
  tableId : W64
  key     : Option (BitVec 256)
  phase   : CmdPhase
  wait    : Wait
  tainted : Bool
  failed  : Option Status
  retained : Bool
  prog    : Progress
  deriving DecidableEq, Repr

/-! ## Rings -/

/-- The ring states (R469), in the order of their codes. -/
inductive RingState where
  | disabled
  | idle
  | ready
  | running
  | blocked
  | suspended
  | halted
  | paused
  deriving DecidableEq, Repr

/-- A ring context (R462). -/
structure RingCtx where
  cmdBase : W64
  cplBase : W64
  head    : W32
  tail    : W32
  cpli    : W32
  size    : Byte
  sched   : Byte
  halt    : BitVec 16
  key     : W64
  vsave   : W64
  notify  : W64
  owner   : BitVec 16
  state   : RingState
  prog    : BitVec 40
  deriving DecidableEq, Repr

/-- A context in the context cache, and whether it has changed since it was read (R476). -/
structure CtxEntry where
  ring  : Nat
  ctx   : RingCtx
  dirty : Bool
  deriving DecidableEq, Repr

/-- A command packet read from a ring's command array (R477), and whether its read was answered with poison or with an error. -/
structure Fetched where
  ring   : Nat
  index  : W32
  bytes  : BitVec 512
  poison : Bool
  failed : Bool
  deriving DecidableEq, Repr

/-- A tumbler word in the cache, tagged by VI and address (R166). -/
structure TumblerEntry where
  vi      : ViId
  address : W64
  word    : BitVec 512
  deriving DecidableEq, Repr

/-- A tumbler word as its read returned it: with poison, or with an error (R537, R547). -/
structure FetchedWord where
  word   : BitVec 512
  poison : Bool
  failed : Bool
  deriving DecidableEq, Repr

/-- The command that arbitration has chosen to run next, with the shadow tumbler once filled (R163). -/
structure Chosen where
  ring   : Nat
  packet : Option Fetched
  shadow : Option FetchedWord
  deriving DecidableEq, Repr

/-- The turn of a ring (R479): commands started, the quantum that applies to the turn, and whether it expired. -/
structure Turn where
  ring    : Nat
  started : Nat
  quantum : BitVec 16
  expired : Bool
  deriving DecidableEq, Repr

/-- What a VI page asks of a ring, in order of arrival (R473). -/
inductive RingAction where
  | doorbell (tail : W32)
  | create (image : BitVec 512)
  | resume
  | pause
  | destroy
  deriving DecidableEq, Repr

/-- A ring action waiting for the ring's context (R475). -/
structure PageAction where
  vi     : ViId
  ring   : Nat
  action : RingAction
  deriving DecidableEq, Repr

/-- What happens to a ring when its current command completes (R469, R491). -/
inductive Deferred where
  | pause
  | disable
  deriving DecidableEq, Repr

/-- Rings, their contexts, the command processor and arbitration. -/
structure Rings where
  cache     : List CtxEntry
  reads     : List Nat
  wanted    : List Nat
  actions   : List PageAction
  live      : List Nat
  fetches   : List Nat
  fetched   : List Fetched
  tumblers  : List TumblerEntry
  tumblerReads : List (ViId × W64)
  chosen    : Option Chosen
  cmds      : List RunCmd
  holder    : Option Nat
  turn      : Option Turn
  lastHolder : Sparse Nat
  deferred  : List (Nat × Deferred)
  fetchStopped : Bool
  regs      : Sparse RegFile
  resident  : List Nat
  regsChanged : List Nat
  savedRegs : List (SaveArea × RegFile)
  savedCmds : List (SaveArea × RunCmd)
  deriving DecidableEq, Repr

/-! ## Tables -/

/-- A table bank: the entries that differ from its base, which is the factory set or zero (R199, R204). -/
structure Bank where
  factory : Bool
  entries : Sparse (BitVec 256)
  deriving DecidableEq, Repr

/-- A TABLE_LOAD under way in the loader (R206, R210). -/
structure LoadJob where
  ring    : Nat
  mode    : BitVec 2
  slot    : BitVec 3
  space   : Space
  source  : Nat
  deriving DecidableEq, Repr

/-- The table store and its loader. -/
structure Tables where
  banks       : Sparse Bank
  active      : Nat
  shadow      : Nat
  shadowValid : Bool
  shadowId    : W64
  bad         : List Nat
  id          : W64
  job         : Option LoadJob
  queue       : List Nat
  swap        : Option Nat
  deriving DecidableEq, Repr

/-! ## Hinge -/

/-- The state of one chain row: sums, extrema and flags (R332, R333). -/
structure RowStat where
  fsum    : W64
  fsumsq  : W64
  xsum    : Exact
  xsumsq  : Exact
  maxv    : Extremum
  minv    : Extremum
  count   : BitVec 48
  flushes : BitVec 16
  ref     : BitVec 16
  flags   : BitVec 8
  deriving DecidableEq, Repr

/-- What a member contributes for one chain row: the sums or extrema, or a candidate list of length `k`. -/
structure ChainRow where
  stat : RowStat
  list : CandList
  k    : Nat
  deriving DecidableEq, Repr

/-- An input received from another member (R342, R350), with the unit address it came from (R356): `missing` counts the
candidates not yet received. -/
structure Input where
  member  : Nat
  level   : Nat
  row     : Nat
  value   : ChainRow
  missing : Nat
  settled : Bool
  inc     : BitVec 16
  src     : BitVec 16
  deriving DecidableEq, Repr

/-- A chain row that the member itself contributes (R341): the ring and SEQ of the command that contributed it, and whether
that command's part of it is settled (R350). -/
structure OwnRow where
  value   : ChainRow
  ring    : Nat
  seq     : W32
  settled : Bool
  deriving DecidableEq, Repr

/-- A settle notice taken (R350): from which input, and from which unit address. -/
structure Notice where
  level  : Nat
  member : Nat
  src    : BitVec 16
  deriving DecidableEq, Repr

/-- One row of a FINAL (R346, R380, R384). -/
inductive FinalRow where
  | nfin (fin0 fin1 : W64) (count : BitVec 48) (flags : BitVec 8)
  | stat (s : RowStat)
  | list (l : ChainRow) (missing : Nat)
  | token (draws : List (BitVec 40)) (number : Nat) (flags : BitVec 8)
  deriving DecidableEq, Repr

/-- The states of one epoch at a member (the table after R362). -/
inductive EpochPhase where
  | opened
  | sent
  | done
  | closed
  deriving DecidableEq, Repr

/-- A PARTIAL that the member sent, kept so that it can be sent again (R339, R359). -/
structure SentPartial where
  level   : Nat
  member  : Nat
  packet  : HingePacket
  refused : Bool
  deriving DecidableEq, Repr

/-- One epoch of a chain at this member. -/
structure Epoch where
  number    : W32
  phase     : EpochPhase
  reason    : Status
  own       : Sparse OwnRow
  unsettledSent : Bool
  noticed   : Bool
  inputs    : List Input
  settledNotices : List Notice
  forwarded : List (Nat × Nat)
  sent      : List SentPartial
  final     : Sparse FinalRow
  finalSettled : Bool
  finalSent : Bool
  committed : Bool
  nacked    : Bool
  timer     : Bool
  consumer  : Option Nat
  deriving DecidableEq, Repr

/-- A chain descriptor (R320 to R328). -/
structure ChainDesc where
  valid    : Bool
  owner    : ViId
  image    : BitVec 512
  nanTrap  : Bool
  epoch    : W32
  hops     : Sparse (BitVec 32)
  incs     : List (BitVec 16 × BitVec 16)
  epochs   : List Epoch
  deriving DecidableEq, Repr

/-- The descriptor that no load has made valid (R330). -/
def ChainDesc.invalid : ChainDesc :=
  { valid := false, owner := 0, image := 0, nanTrap := false, epoch := 0, hops := [], incs := [], epochs := [] }

/-- The hinge port: transmit credits per virtual channel, the credits that the sender holds per receive channel, packets
waiting for credits, receive flits withheld by the input store, PARTIALs to send again (R336 to R339). -/
structure HingePort where
  credits  : Sparse Nat
  granted  : Sparse Nat
  waiting  : List HingePacket
  withheld : Nat
  resend   : List (Nat × HingePacket)
  deriving DecidableEq, Repr

/-! ## VI state -/

/-- VI_MODE (R655). -/
structure ViMode where
  rm        : Bool
  fm        : Bool
  rnd       : BitVec 3
  ovfPolicy : Bool
  flush     : Bool
  headroom  : BitVec 4
  refpol    : BitVec 2
  sqnrFloor : BitVec 6
  nanTrap   : Bool
  deriving DecidableEq, Repr

/-- A VI's views of the fixed counters and their overflow bits 16 to 19 (R664). -/
structure ViCounters where
  fclk         : BitVec 48
  retired      : BitVec 48
  nondetBits   : BitVec 24
  nondetTiming : BitVec 24
  throttle     : BitVec 48
  ovf          : BitVec 4
  deriving DecidableEq, Repr

def ViCounters.zero : ViCounters := ⟨0, 0, 0, 0, 0, 0⟩

/-- The fields of one VI that software sets through its page or the VI window (R654). -/
structure ViCfg where
  mode        : ViMode
  bias        : BitVec 16
  tolerance   : W32
  quotaLimit  : BitVec 16
  ringBase    : BitVec 18
  ringCount   : BitVec 19
  minClass    : BitVec 2
  tableExpect : W64
  digestBase  : BitVec 58
  debugEnable : Bool
  ctrlRing    : BitVec 18
  ringCfg     : BitVec 512
  deriving DecidableEq, Repr

/-- The state of one VI that the unit writes: VI_FLAGS, OPEN of VI_QUOTA, the digest key, RESULT of VI_RING_CTRL,
the trap record, events and counter views (R654). -/
structure ViState where
  flags       : Byte
  quotaOpen   : BitVec 16
  key         : Option (BitVec 256)
  ctrlResult  : Byte
  trapInfo0   : W64
  trapInfo1   : W64
  trapInfo2   : W64
  trapInfo3   : W64
  events      : Sparse W32
  counters    : ViCounters
  deriving DecidableEq, Repr

/-- The reset value of VI_MODE (R655). -/
def ViMode.reset : ViMode :=
  { rm := false, fm := false, rnd := 0, ovfPolicy := false, flush := false, headroom := 4, refpol := 0,
    sqnrFloor := 0, nanTrap := false }

/-- The reset values of a VI page's fields (R621, R654 to R658). -/
def ViCfg.reset : ViCfg :=
  { mode := ViMode.reset, bias := 112, tolerance := 40, quotaLimit := 0,
    ringBase := 0, ringCount := 0, minClass := 0, tableExpect := 0, digestBase := 0, debugEnable := false,
    ctrlRing := 0, ringCfg := 0 }

def ViState.reset : ViState :=
  { flags := 0, quotaOpen := 0, key := none, ctrlResult := 0, trapInfo0 := 0, trapInfo1 := 0, trapInfo2 := 0,
    trapInfo3 := 0, events := [], counters := ViCounters.zero }

/-! ## Event counters -/

/-- EV_SELECTn (R660). -/
structure EvSelect where
  allVi : Bool
  vi    : ViId
  en    : Bool
  event : Byte
  deriving DecidableEq, Repr

def EvSelect.reset : EvSelect := ⟨true, 0, false, 0⟩

/-- The event counters in their unit view (R659, R664). -/
structure Counters where
  count        : Sparse (BitVec 48)
  fclk         : BitVec 48
  retired      : BitVec 48
  nondetBits   : BitVec 24
  nondetTiming : BitVec 24
  throttle     : BitVec 48
  ovf          : BitVec 20
  deriving DecidableEq, Repr

/-! ## Software-set registers -/

/-- The register fields that software sets and that the unit itself never writes. -/
structure Cfg where
  wdogMs      : BitVec 16
  trmPoint    : BitVec 3
  traceStall  : Bool
  traceBase   : BitVec 58
  traceLog2   : BitVec 6
  traceRptr   : BitVec 27
  quantum     : BitVec 16
  ownerValid  : Bool
  ownerVi     : ViId
  viSel       : ViId
  ctxBase     : BitVec 40
  coverBase   : BitVec 40
  autoOff     : Bool
  floor       : BitVec 3
  ceil        : BitVec 3
  freeze      : Bool
  select      : Sparse EvSelect
  vi          : Sparse ViCfg
  deriving DecidableEq, Repr

/-- The reset values of R516, R553, R619, R640, R641, R646, R650, R651, R660, R663. -/
def Cfg.reset : Cfg :=
  { wdogMs := 10, trmPoint := 2, traceStall := true, traceBase := 0, traceLog2 := 16, traceRptr := 0,
    quantum := 200, ownerValid := false, ownerVi := 0, viSel := 0, ctxBase := 0, coverBase := 0, autoOff := false,
    floor := 7, ceil := 0, freeze := false, select := [], vi := [] }

/-! ## Drain and shift -/

/-- The drain queue, oldest beat first, and its credits (R29 to R33). -/
structure Drain where
  queue    : List DrainEntry
  credits  : Nat
  withheld : Nat
  deriving DecidableEq, Repr

/-- A shift request that the matrix array has not answered (R295, R299); `sent` once it has left the queue. -/
structure ShiftReq where
  rowId       : W32
  shift       : Byte
  incarnation : BitVec 16
  sent        : Bool
  deriving DecidableEq, Repr

structure Shift where
  requests : List ShiftReq
  beatHeld : Bool
  deriving DecidableEq, Repr

/-! ## Unit, twin, power, determinism, management -/

/-- MGT_STATE (R28). -/
inductive MgtState where
  | active
  | fenced
  | resetting
  | off
  deriving DecidableEq, Repr

/-- Why the unit is to stop at the next boundary (R554, R575, R606). -/
inductive StopReason where
  | fence
  | powerDown
  | coverRelease
  deriving DecidableEq, Repr

/-- Test access (R48). -/
inductive TestMode where
  | closed
  | wiping
  | opened
  deriving DecidableEq, Repr

structure UnitCtl where
  state        : MgtState
  dbgHalt      : Bool
  dbgHaltReq   : Bool
  chipDebug    : Bool
  ringsLost    : Bool
  fatal        : Bool
  suspect      : Bool
  fence        : Bool
  handover     : Bool
  flushed      : Bool
  wedged       : Bool
  resetSinceFence : Bool
  stop         : Option StopReason
  flushing     : Bool
  refuse       : Bool
  test         : TestMode
  incarnation  : BitVec 16
  deriving DecidableEq, Repr

/-- MG_TWIN_MODE MODE (R562). -/
inductive TwinMode where
  | independent
  | lockstep
  | cover
  deriving DecidableEq, Repr

/-- One VI's entry of the cover record (R571). -/
structure CoverVi where
  rings      : W64
  digestBase : W64
  mode       : W64
  deriving DecidableEq, Repr

structure Twin where
  mode      : TwinMode
  primary   : Bool
  lost      : Bool
  covering  : Bool
  clean     : Bool
  vis       : Sparse CoverVi
  releasing : Bool
  signature : W64
  deriving DecidableEq, Repr

/-- POWER of MG_UNIT_STATE (R597). -/
inductive PowerState where
  | active
  | gated
  | retain
  | off
  | powerUp
  | quiesce
  | checkpoint
  | railOff
  | holdup
  deriving DecidableEq, Repr

/-- A power-state entry or exit under way (R602, R603). -/
inductive PowerMove where
  | none
  | entering (target : PowerState)
  | leaving (source : PowerState)
  deriving DecidableEq, Repr

structure Power where
  state       : PowerState
  move        : PowerMove
  pending     : BitVec 2
  grant       : Byte
  point       : BitVec 3
  slots       : BitVec 5
  capUnmet    : Bool
  stretch     : Bool
  opReq       : Option (BitVec 3)
  droop       : Bool
  droopSeen   : Bool
  throttle    : Bool
  risePace    : Nat
  roomWindows : Nat
  overWindows : Nat
  underWindows : Nat
  grantStop   : Bool
  tolMarked   : List Nat
  railReq     : Bool
  railAck     : Bool
  holdupReq   : Bool
  restored    : Bool
  downAfterExit : Bool
  thm         : List (BitVec 10)
  deriving DecidableEq, Repr

/-- A trace record: 32 bytes (R519). -/
abbrev TraceRecord := BitVec 256

structure Det where
  replay       : Bool
  trace        : Bool
  trm          : Bool
  trmActive    : Bool
  replayActive : Bool
  traceActive  : Bool
  diverged     : Bool
  changePending : Bool
  bseq         : W64
  replayFrom   : W32
  wptr         : W32
  replayPos    : W32
  buffer       : List TraceRecord
  stalled      : Bool
  dropped      : Nat
  heldDoorbells : List PageAction
  deriving DecidableEq, Repr

structure Mg where
  keyLast     : BitVec 2
  keyLastVi   : ViId
  keyPartial  : Option (ViId × List W32)
  viReset     : Option ViId
  fuses       : Sparse W32
  laneRepair  : Sparse W32
  capture     : Option (RegPort × Nat × W128)
  writeHold   : Option (RegPort × Nat × W128)
  unitAddress : BitVec 16
  deriving DecidableEq, Repr

/-- The error log (R540): entries by index, the indices from oldest to newest, and those named in a DETAIL
(R543); errors counted per lane are the operand of the error itself. -/
structure ErrLog where
  entries : Sparse W128
  age     : List Nat
  pinned  : List Nat
  deriving DecidableEq, Repr

/-- What the unit drives at its boundary, in order. -/
inductive OutEvent where
  /-- DRN_CREDIT: credits returned. -/
  | drnCredit (number : Nat)
  /-- SHF_REQ: row identity, shift, incarnation. -/
  | shfReq (rowId : W32) (shift : Byte) (incarnation : BitVec 16)
  /-- A packet on HNG_TX, or over the twin link. -/
  | hngTx (twin : Bool) (packet : HingePacket)
  /-- HNG_RX_CREDIT: flit credits returned on a channel. -/
  | hngRxCredit (channel number : Nat)
  /-- A pulse on a line of MGT_IRQ: 0 corrected, 1 contained, 2 unit-fatal, 3 SUSPECT. -/
  | mgtIrq (line : Nat)
  /-- PWR_OP_REQ. -/
  | opRequest (point : BitVec 3)
  /-- PWR_RAIL_REQ. -/
  | railRequest (on : Bool)
  /-- PWR_CAP_UNMET. -/
  | capUnmet (on : Bool)
  /-- TST_OPEN. -/
  | testOpen (on : Bool)
  /-- TST_SCAN output when the port opens or closes (R49). -/
  | testScan (data : BitVec 4)
  /-- A signature, command or decision on the twin link in LOCKSTEP (R564, R566). -/
  | twinLink (value : W64)
  /-- The twin link in LOCKSTEP: the ring to which the primary's arbitration gives the chain (R564). -/
  | twinDecision (ring : Nat)
  /-- The twin link in LOCKSTEP: the packet of a command that the primary starts (R564). -/
  | twinCommand (ring : Nat) (packet : BitVec 512)
  deriving DecidableEq, Repr

/-- Output pins that time moves: TWN_ALIVE (R28) and TST_SCAN (R49). -/
structure Pins where
  twnAlive : Bool
  tstScan  : BitVec 4
  deriving DecidableEq, Repr

/-! ## The whole state -/

/-- The state of the block. -/
structure State where
  pending  : List Instr
  cfg      : Cfg
  free     : Nat
  out      : List OutEvent
  readData : W64
  tclk     : W64
  fcyc     : BitVec 48
  throttled : Nat
  pins     : Pins
  shown    : List Nat
  ctl      : UnitCtl
  twin     : Twin
  pwr      : Power
  det      : Det
  mg       : Mg
  log      : ErrLog
  drain    : Drain
  shift    : Shift
  rings    : Rings
  slots    : Sparse Slot
  tabs     : Tables
  chains   : Sparse ChainDesc
  hinge    : HingePort
  vis      : Sparse ViState
  ev       : Counters
  dev      : Memory
  tile     : Memory
  twinTile : Memory
  deriving DecidableEq, Repr

/-- Why the machine stops with a fault. -/
inductive Fault where
  /-- Raised by DRN_BEAT: the matrix array presents a beat while it holds no credit, which R30 forbids it and to
  which the spec gives no effect. Safe: the machine stops. -/
  | beatWithoutCredit
  deriving DecidableEq, Repr

/-- Why a command has no meaning. -/
inductive Refusal where
  /-- The command's meaning is not written. Safe: the machine stops. -/
  | notModelled (mnemonic : String)
  deriving DecidableEq, Repr

/-! ## Reset -/

def Rings.reset : Rings :=
  { cache := [], reads := [], wanted := [], actions := [], live := [], fetches := [], fetched := [],
    tumblers := [], tumblerReads := [], chosen := none, cmds := [], holder := none, turn := none,
    lastHolder := [], deferred := [], fetchStopped := false, regs := [], resident := [], regsChanged := [],
    savedRegs := [], savedCmds := [] }

/-- The factory set in the active and the shadow bank, both spares free (R204). -/
def Tables.reset : Tables :=
  { banks := [(0, ⟨true, []⟩), (1, ⟨true, []⟩)], active := 0, shadow := 1, shadowValid := true,
    shadowId := factoryTableId, bad := [], id := factoryTableId, job := none, queue := [], swap := none }

def Counters.reset : Counters :=
  { count := [], fclk := 0, retired := 0, nondetBits := 0, nondetTiming := 0, throttle := 0,
    ovf := 0 }

/-- 32 flit credits held and 64 granted on each virtual channel (R336). -/
def HingePort.reset : HingePort :=
  { credits := [(0, 32), (1, 32), (2, 32), (3, 32)], granted := [(0, 64), (1, 64), (2, 64), (3, 64)], waiting := [], withheld := 0, resend := [] }

/-- The unit right after a power-up: FENCED, every SRAM zero, the factory tables in place (R605, R204, R559). -/
def State.reset : State :=
  { pending := [], cfg := Cfg.reset, free := 0, out := [], readData := 0, tclk := 0,
    fcyc := 0, throttled := 0, pins := { twnAlive := false, tstScan := 0 }, shown := [],
    ctl := { state := .fenced, dbgHalt := false, dbgHaltReq := false, chipDebug := false, ringsLost := true,
             fatal := false, suspect := false, fence := true, handover := false, flushed := false,
             wedged := false, resetSinceFence := true, stop := none, flushing := false, refuse := true,
             test := .closed, incarnation := 1 },
    twin := { mode := .independent, primary := false, lost := false, covering := false, clean := false,
              vis := [], releasing := false, signature := 0 },
    pwr := { state := .active, move := .none, pending := 0, grant := 0,
             point := 0, slots := 16, capUnmet := false, stretch := false, opReq := none, droop := false,
             droopSeen := false, throttle := false, risePace := 0, roomWindows := 0, overWindows := 0,
             underWindows := 0, grantStop := false, tolMarked := [], railReq := true, railAck := true,
             holdupReq := false, restored := false, downAfterExit := false, thm := [0, 0, 0, 0] },
    det := { replay := false, trace := false, trm := false,
             trmActive := false, replayActive := false, traceActive := false, diverged := false,
             changePending := false, bseq := 0, replayFrom := 0, wptr := 0, replayPos := 0, buffer := [],
             stalled := false, dropped := 0, heldDoorbells := [] },
    mg := { keyLast := 0, keyLastVi := 0, keyPartial := none,
            viReset := none, fuses := [], laneRepair := [], capture := none, writeHold := none,
            unitAddress := 0 },
    log := { entries := [], age := [], pinned := [] },
    drain := { queue := [], credits := 64, withheld := 0 },
    shift := { requests := [], beatHeld := false },
    rings := Rings.reset, slots := [], tabs := Tables.reset, chains := [], hinge := HingePort.reset, vis := [],
    ev := Counters.reset, dev := Memory.empty, tile := Memory.empty, twinTile := Memory.empty }

end Sys2Proof.Machine
end

