-- ==== Sys2Proof/Machine/Curve.lean ====
section
/-! DEFINITION. CURVE with its SPLIT and JOIN (R186 to R198, R218 to R229): listed inputs, the evaluation of a table
entry, the reconstruction, the promise of a released table set, and rotary. -/

namespace Sys2Proof.Machine

/-! ## Constants of R189 -/

/-- log2(e) truncated to 128 significant bits. -/
def cLog2e : Val := .fin false 0xb8aa3b295c17f0bbbe87fed0691d3e88 (-127) false
/-- ln 2 truncated to 128 significant bits. -/
def cLn2 : Val := .fin false 0xb17217f7d1cf79abc9e3b39803f2f6af (-128) false
/-- 1/(2π) truncated to 640 bits after the binary point. -/
def cTurns : Val :=
  .fin false (0x28be60db9391054a7f09d5f47d4d377036d8a5664f10e410 <<< 448
    + 0x7f9458eaf7aef1586dc91b8e909374b801924bba82746487 <<< 256
    + 0x3f877ac72c4a69cfba208d7d4baed121 <<< 128 + 0x3a671c09ad17df904e64758e60d4ce7d) (-640) false

def half : Val := .fin false 1 (-1) false

/-! ## Table entries (R199 to R201) -/

/-- The entry at an index of a bank: a loaded one, else the factory's or zero. -/
def bankEntry (b : Bank) (i : Nat) : BitVec 256 :=
  match spFind b.entries i with
  | some e => e
  | none => if b.factory then factoryBankEntry i else 0

/-- The 64-bit value of a piece of a directory entry. -/
def piece (d : BitVec 256) (k : Nat) : BitVec 64 := BitVec.ofNat 64 (field d (64 * k + 63) (64 * k))
def pcValid (p : BitVec 64) : Bool := bit p 37
def pcE (p : BitVec 64) : Int := signed 8 (field p 36 29)
def pcLo (p : BitVec 64) : Int := signed 8 (field p 28 21)
def pcDeg (p : BitVec 64) : Nat := field p 20 18
def pcG (p : BitVec 64) : Nat := field p 17 14
def pcBase (p : BitVec 64) : Nat := field p 13 0
def dirFlags (d : BitVec 256) : BitVec 32 := BitVec.ofNat 32 (field d 159 128)
def dirPresent (d : BitVec 256) : Bool := bit d 128
def dirPacked (d : BitVec 256) : Bool := bit d 129
def dirSplit (d : BitVec 256) : Nat := field d 132 130
def dirSym (d : BitVec 256) : Bool := bit d 133
def dirJoin (d : BitVec 256) : Nat := field d 135 134
def dirSymFix (d : BitVec 256) : Nat := field d 137 136
def dirKscale (d : BitVec 256) : Nat := field d 139 138
def dirOutLo (d : BitVec 256) : Nat := field d 141 140
def dirOutHi (d : BitVec 256) : Nat := field d 143 142
def dirCLo (d : BitVec 256) : Val := ofF32 (BitVec.ofNat 32 (field d 191 160))
def dirCHi (d : BitVec 256) : Val := ofF32 (BitVec.ofNat 32 (field d 223 192))
/-- Coefficient i of a segment entry: c0 has 48 bits, the others 32. -/
def coeff (e : BitVec 256) (i : Nat) : Int :=
  if i = 0 then signed 48 (field e 47 0) else signed 32 (field e (64 + 32 * (i - 1) + 31) (64 + 32 * (i - 1)))
def entryOexp (e : BitVec 256) : Int := signed 8 (field e 55 48)

/-! ## Evaluating a kernel (R194, R195) -/

/-- One Horner pass: coefficients i-1 down to 0 over an accumulator of 56 bits. -/
def hornerGo (e : BitVec 256) (t tb : Nat) : Nat → Int → Int
  | 0, acc => acc
  | i + 1, acc =>
    let prod := (acc * (t : Int)).fdiv ((2 ^ tb : Nat) : Int)
    let add := if i = 0 then coeff e 0 else coeff e i * 65536
    hornerGo e t tb i (signed 56 (wrapNat 56 (prod + add)))

/-- The value of segment `seg` of a piece at the fraction t / 2^tb. -/
def segmentValue (b : Bank) (p : BitVec 64) (seg t tb : Nat) : Val :=
  let e := bankEntry b (pcBase p + seg)
  let d := pcDeg p
  let acc := if d = 0 then coeff e 0 else hornerGo e t tb d (signed 56 (wrapNat 56 (coeff e d * 65536)))
  vdyadic acc (entryOexp e - 46)

/-- A kernel's value. -/
structure Kernel where
  val     : Val
  invalid : Bool
  deriving DecidableEq, Repr

def fractionBits (packed : Bool) : Nat := if packed then 20 else 32

/-- A piece at an argument inside it. -/
def pieceValue (b : Bank) (p : BitVec 64) (packed : Bool) (f : Val) : Val :=
  let v := (vsub (vscale f (-(pcE p))) (vint (pcLo p))).val
  let x := vscale v (pcG p)
  let seg := vfloor x
  let t := (vfloor (vscale (vsub x (vint seg)).val 32)).toNat
  segmentValue b p seg.toNat (if packed then t >>> 12 else t) (fractionBits packed)

def pieceStart (p : BitVec 64) : Val := vdyadic (pcLo p) (pcE p)
def pieceEnd (p : BitVec 64) : Val := vdyadic (pcLo p + 1) (pcE p)

/-- The rule for an argument outside both pieces: `hi` above, else below. -/
def outOfPieces (b : Bank) (d : BitVec 256) (packed hi : Bool) (f : Val) : Kernel :=
  let ps := [piece d 0, piece d 1].filter pcValid
  match if hi then dirOutHi d else dirOutLo d with
  | 0 => ⟨if hi then dirCHi d else dirCLo d, false⟩
  | 1 =>
    match if hi then ps.getLast? else ps.head? with
    | none => ⟨vdyadic (Config.unstatedKernel d (toUnits f (expOf f)) (expOf f)) (-46), false⟩
    | some p =>
      if hi then ⟨segmentValue b p (2 ^ pcG p - 1) (2 ^ fractionBits packed - 1) (fractionBits packed), false⟩
      else ⟨segmentValue b p 0 0 (fractionBits packed), false⟩
  | 2 => ⟨.nan, true⟩
  | _ => ⟨f, false⟩

/-- The kernel of a directory entry at f. -/
def kernelAt (b : Bank) (d : BitVec 256) (packed : Bool) (f : Val) : Kernel :=
  let ps := [piece d 0, piece d 1].filter pcValid
  match ps.find? (fun p => vle (pieceStart p) f && vlt f (pieceEnd p)) with
  | some p => ⟨pieceValue b p packed f, false⟩
  | none =>
    match ps with
    | [] => match f with
      | .inf n => outOfPieces b d packed (!n) f
      | f => ⟨vdyadic (Config.unstatedKernel d (toUnits f (expOf f)) (expOf f)) (-46), false⟩
    | p :: _ => outOfPieces b d packed (!vlt f (pieceStart p)) f

/-! ## Reductions (R190) -/

/-- floor(x + 1/2) and the rest. -/
def splitNearest (x : Val) : Int × Val := let k := vfloor (vadd x half).val; (k, (vsub x (vint k)).val)
def splitFloor (x : Val) : Int × Val := let k := vfloor x; (k, (vsub x (vint k)).val)
/-- x = 2^k · m with 1 ≤ m < 2. -/
def splitExpMant (x : Val) : Int × Val := let k := floorLog2 x; (k, vscale x (-k))
/-- x = 2^k · m with k even. -/
def splitExpMantEven (x : Val) : Int × Val :=
  let k0 := floorLog2 x
  let k := if k0 % 2 = 0 then k0 else k0 - 1
  (k, vscale x (-k))

/-- A scale beyond every format, kept small enough to compute with. -/
def clampExp (k : Int) : Int := max (-5000) (min 5000 k)

/-! ## Inputs with a listed result (R187) -/

/-- An input of R187 gives this value with these flags. -/
def curveListed (c : Nat) (y : Val) : Option (Val × Byte) :=
  let inv : Option (Val × Byte) := some (.nan, flInvalid)
  let inf (n : Bool) : Option (Val × Byte) := some (.inf n, 0)
  let num (v : Val) : Option (Val × Byte) := some (v, 0)
  let divz (n : Bool) : Option (Val × Byte) := some (.inf n, flDivZero)
  match y with
  | .nan => none
  | .inf n =>
    match c with
    | 0 | 1 => if n then num (vzero false) else inf false
    | 2 | 17 => if n then num (vint (-1)) else inf false
    | 3 | 4 | 5 | 8 => if n then inv else inf false
    | 6 => num (vzero n)
    | 7 => if n then inv else num (vzero false)
    | 9 | 11 => num (if n then vint (-1) else vint 1)
    | 10 => num (if n then vzero false else vint 1)
    | 12 | 13 | 14 | 16 => if n then num (vzero true) else inf false
    | 15 => if n then num (vzero false) else inf false
    | 18 => if n then inf true else num (vzero true)
    | _ => inv
  | .fin n _ _ _ =>
    if isZero y then
      match c with
      | 0 | 1 => num (vint 1)
      | 3 | 4 => divz true
      | 6 | 7 => divz n
      | 10 => num half
      | 15 | 18 => none
      | 20 => num (vint 1)
      | _ => num y
    else
      match c with
      | 3 | 4 => if n then inv else if y = vint 1 ∨ vcmp y (vint 1) = .eq then num (vzero false) else none
      | 5 => if vcmp y (vint (-1)) = .eq then divz true else if vlt y (vint (-1)) then inv else none
      | 7 | 8 => if n then inv else none
      | 19 => if isInteger y then num (vzero n) else none
      | 20 =>
        if isInteger y then num (if vfloor y % 2 = 0 then vint 1 else vint (-1))
        else if isInteger (vscale y 1) then num (vzero false) else none
      | _ => none

/-! ## A built-in curve (R191) -/

/-- The reconstruction of a built-in curve before JOIN's rounding, at an input that R187 does not list. DEDUCED (log
entry 37): the sine kernel that sin_pi and cos_pi share is that of entry 19 and the cosine kernel that of entry 20, and
ln 2 in the reconstruction of ln and log1p is the constant of R189, truncated to 128 bits. -/
def builtinValue (b : Bank) (c : Nat) (packed : Bool) (y : Val) : Kernel :=
  let dir (i : Nat) := bankEntry b i
  let k (i : Nat) (f : Val) := kernelAt b (dir i) packed f
  let a := vabs y
  let with_ (g : Kernel) (f : Val → Val) : Kernel := ⟨f g.val, g.invalid⟩
  let mul (x z : Val) := (vmul x z).val
  let add (x z : Val) := (vadd x z).val
  let expParts (x : Val) : Int × Val := splitNearest x
  let exp2Of (i : Nat) (x : Val) : Kernel :=
    let r := expParts x
    with_ (k i r.2) (fun g => vscale g (clampExp r.1))
  let lnParts (x : Val) : Int × Val :=
    let r := splitExpMant x
    if vle (.fin false 3 (-1) false) r.2 then (r.1 + 1, vscale r.2 (-1)) else r
  let small := vlt a half
  match c with
  | 0 => exp2Of 0 y
  | 1 => exp2Of 1 (mul y cLog2e)
  | 2 => if small then with_ (k 2 y) (fun g => mul y g)
    else with_ (exp2Of 1 (mul y cLog2e)) (fun v => (vsub v (vint 1)).val)
  | 3 => let r := lnParts y; with_ (k 3 r.2) (fun g => add (vint r.1) (mul (vsub r.2 (vint 1)).val g))
  | 4 => let r := lnParts y; with_ (k 4 r.2) (fun g => add (mul (vint r.1) cLn2) (mul (vsub r.2 (vint 1)).val g))
  | 5 => if small then with_ (k 5 y) (fun g => mul y g)
    else
      let r := lnParts (vadd y (vint 1)).val
      with_ (k 4 r.2) (fun g => add (mul (vint r.1) cLn2) (mul (vsub r.2 (vint 1)).val g))
  | 6 => let r := splitExpMant a
    with_ (k 6 r.2) (fun g => let v := vscale g (-r.1); if isNeg y then vneg v else v)
  | 7 => let r := splitExpMantEven y; with_ (k 7 r.2) (fun g => vscale g (-(r.1 / 2)))
  | 8 => let r := splitExpMantEven y; with_ (k 8 r.2) (fun g => vscale g (r.1 / 2))
  | 9 | 11 => with_ (k c a) (fun g =>
      let v := if vlt a (vint 1) then mul a g else g
      if isNeg y then vneg v else v)
  | 10 => with_ (k 10 a) (fun g => if isNeg y then g else (vsub (vint 1) g).val)
  | 12 | 13 | 14 | 16 => with_ (k c y) (fun g => mul y g)
  | 15 => with_ (k 15 a) (fun g => if isNeg y || isZero y then g else add y g)
  | 17 => if isNeg y then with_ (k 17 y) (fun g => mul y g) else ⟨y, false⟩
  | 18 => with_ (k 18 a) (fun g => if isNeg y && !isZero y then (vsub y g).val else vneg g)
  | _ =>
    let r := piReduce y
    let sinK := with_ (k 19 r.2) (fun g => mul r.2 g)
    let cosK := k 20 r.2
    let q := if c = 19 then r.1 % 4 else (r.1 + 1) % 4
    match q with
    | 0 => sinK
    | 1 => cosK
    | 2 => with_ sinK vneg
    | _ => with_ cosK vneg

/-! ## Custom curves (R197, R198) -/

/-- A custom curve before JOIN's rounding; `round` is R196's rounding when JOIN is IDENTITY. DEDUCED (log entry 37):
SYMFIX goes by the sign of the stage value whether SYM is set or not, its complement is taken before JOIN's rounding, and
with SYM an infinite stage value falls under OUT_HI as |x| does. -/
def customValue (b : Bank) (slot : Nat) (packed : Bool) (round : Val → Val) (y : Val) : Kernel :=
  let d := bankEntry b (24 + slot)
  let σ := isNeg y
  let x := if dirSym d then vabs y else y
  let mode := dirSplit d
  let mant := decide (mode = 3) || decide (mode = 4)
  let k0 := clampExp (Config.unstatedK d (BitVec.ofNat 64 (encodeFloat fmtF64 y)))
  let r : Kernel × Int :=
    match x with
    | .inf n => (outOfPieces b d packed (!n) x, k0)
    | .nan => (⟨.nan, false⟩, 0)
    | x =>
      if mant && isZero x then (outOfPieces b d packed false x, k0)
      else if mant && isNeg x then (⟨.nan, true⟩, 0)
      else
        let s := match mode with
          | 1 => splitFloor x | 2 => splitNearest x | 3 => splitExpMant x | 4 => splitExpMantEven x | _ => (0, x)
        (kernelAt b d packed s.2, s.1)
  let g := r.1.val
  -- KSCALE · k in halves; k is even where KSCALE is ±1/2
  let k2 : Int := match dirKscale d with | 0 => 2 * r.2 | 1 => -(2 * r.2) | 2 => r.2 | _ => -r.2
  let z := match dirJoin d with
    | 1 => vscale g (clampExp (k2 / 2))
    | 2 => (vadd g (vdyadic k2 (-1))).val
    | _ => round g
  let w := if !σ then z else match dirSymFix d with
    | 1 => vneg z
    | 3 => (vsub (vint 1) z).val
    | _ => z
  ⟨w, r.1.invalid⟩

/-! ## Released table sets (R219 to R222)

R221 calls the promise a property of each table set that Mileth releases, and R222 releases none that breaks it. Whatever the
bank, a curve is evaluated by R194 to R197 from the bank's entries. The factory's entries are not given, so the promise is
said of them by `released`: a working value that breaks it, which no set of R222 gives, stands for one that keeps it (log
entry 38). -/

/-- Whether the built-in curves of a bank are those of the factory set: entries 0 to 21 and 32 to 8,191 (R219). -/
def bankReleased (b : Bank) : Bool :=
  (b.factory && b.entries.all (fun x => decide (22 ≤ x.1 ∧ x.1 < 32 ∨ 8192 ≤ x.1)))
    || (List.range 8192).all (fun i => decide (22 ≤ i ∧ i < 32) || decide (bankEntry b i = factoryBankEntry i))

/-- A value rounded to p significant bits, to nearest even. -/
def roundBits (p : Nat) (v : Val) : Val :=
  match v with
  | .fin n m e s =>
    if m = 0 ∧ s = false then v
    else
      let q : Int := (bitLen m : Int) + e - p
      .fin n (roundUnits .tiesToEven n m e s q).1 q false
  | v => v

def sameVal (a b : Val) : Bool := !isNan a && !isNan b && decide (vcmp a b = .eq)

/-- A value that differs from the exact one by a rounding to nearest only where its last bit is 0: rounded toward zero,
then to odd, so that every later rounding to two bits fewer is that of the exact value. -/
def roundOdd (f : FloatFmt) (v : Val) : Val :=
  let r := roundTo f .towardZero v
  if r.overflow then (roundRne f v).val
  else if !r.inexact then r.val
  else decodeFloat f (encodeFloat f r.val / 2 * 2 + 1)

/-- FP64's row of R221: the relative error allowed is 2 to the power of minus this. -/
def curveBits (c : Nat) : Nat := if c = 0 ∨ c = 1 ∨ c = 3 ∨ c = 4 ∨ c = 6 ∨ c = 7 ∨ c = 8 then 26 else 25

/-- Whether an exact value lies within 2^-4 ULP of a rounding tie of FP16. -/
def nearTieF16 (x : Val) : Bool :=
  match (roundTo fmtF16 .towardZero x).val with
  | .fin _ m e _ =>
    let u := max e (fmtQmin fmtF16)
    let tie := (vadd (.fin false m e false) (.fin false 1 (u - 1) false)).val
    vle (vabs (vsub (unstick (vabs x)) tie).val) (.fin false 1 (u - 4) false)
  | _ => false

/-- A 16-bit input is correctly rounded in BF16, FP8, INT8 and MX elements at any scale, so at one to eight significant
bits; and in FP16, but near a tie of a packed pass, where it is faithfully rounded (R221). -/
def narrowKept (packed : Bool) (x w : Val) : Bool :=
  let half (r : Rnd) (v : Val) := (roundTo fmtF16 r v).val
  ((List.range 8).all (fun p => sameVal (roundBits (p + 1) w) (roundBits (p + 1) x)))
    && (sameVal (half .tiesToEven w) (half .tiesToEven x)
      || (packed && nearTieF16 x
        && (sameVal (half .tiesToEven w) (half .towardPositive x) || sameVal (half .tiesToEven w) (half .towardNegative x))))

/-- Whether the working value w keeps R220, R221 and the bound of R290 for curve `c` at y, whose exact value is x. -/
def promiseKept (f : FloatFmt) (c : Nat) (packed narrow : Bool) (y x w : Val) : Bool :=
  let min := fmtMinNormal f
  if !isFinite x || (roundRne f x).overflow then isInf w && decide (isNeg w = isNeg x)
  else if isZero x then isZero w
  else if vlt (vabs x) min then vle (vabs w) (vscale min 1) && (isZero w || decide (isNeg w = isNeg x))
  else
    isFinite w && decide (isNeg w = isNeg x)
      && (packed || vle (vabs (vsub w (unstick x)).val) (vscale (vabs (unstick x)) (-(curveBits c : Int))))
      && (!narrow || narrowKept packed x w)
      && (decide (c ≠ 0) || vle w (.fin false 1 (vceil y) false))

/-- Bits of the significand of a finite value, and the weight of its last bit. -/
def oddPart (v : Val) : Nat × Int :=
  match v with
  | .fin _ m e _ => go m e (bitLen m)
  | _ => (0, 0)
where
  go (m : Nat) (e : Int) : Nat → Nat × Int
    | 0 => (bitLen m, e)
    | n + 1 => if m % 2 = 0 then go (m / 2) (e + 1) n else (bitLen m, e)

/-- A 16-bit input (R221): a value of BF16 or FP16, or of an MX element at some scale. -/
def isNarrowValue (v : Val) : Bool :=
  match v with
  | .fin _ m _ _ =>
    let fits (f : FloatFmt) := let r := roundRne f v; !r.inexact && !r.overflow
    let o := oddPart v
    decide (m = 0) || fits fmtBf16 || fits fmtF16
      || (decide (o.1 ≤ 3) && decide (-143 ≤ o.2) && vle (vabs v) (.fin false 7 140 false))
      || (decide (o.1 ≤ 4) && decide (-136 ≤ o.2) && vle (vabs v) (.fin false 7 133 false))
  | _ => true

/-! ## One element through SPLIT, CURVE and JOIN -/

/-- What JOIN gives: the value rounded to the working format; the exact result where EMIT rounds it itself (R225);
flags of the curve, and of JOIN's rounding. -/
structure CurveOut where
  y      : Val
  late   : Option Val
  flags  : Byte
  rflags : Byte
  deriving DecidableEq, Repr

/-- How a curve is evaluated in this pass. -/
structure CurveMode where
  bank   : Bank
  packed : Bool
  strict : Bool
  wf     : FloatFmt
  deriving DecidableEq, Repr

/-- The curves of R223. -/
def strictCurve (c : Nat) : Bool := decide (c ≤ 8)

def rounded (m : CurveMode) (v : Val) : Val × Byte := let r := roundRne m.wf v; (r.val, roundFlags m.strict r)

/-- R227 for a curve outside R223: inexact for a finite non-zero result. -/
def unlistedFlag (m : CurveMode) (v : Val) : Byte := flagIf (m.strict && isFinite v && !isZero v) flInexact

/-- JOIN's one rounding of a reconstruction (R191, R196). -/
def joinOut (m : CurveMode) (g : Kernel) : CurveOut :=
  let r := rounded m g.val
  { y := r.1, late := none, flags := flagIf g.invalid flInvalid ||| unlistedFlag m r.1, rflags := r.2 }

/-- The same for curve `c` of a released set, whose exact value at y is x. -/
def releasedOut (m : CurveMode) (c : Nat) (narrow : Bool) (y x : Val) (o : CurveOut) : CurveOut :=
  if promiseKept m.wf c m.packed narrow y x o.y then o
  else
    let w := roundOdd m.wf x
    { y := w, late := none, flags := unlistedFlag m w, rflags := roundFlags m.strict (roundRne m.wf x) }

/-- R220 and R221 bound sin_pi and cos_pi up to 2^20. -/
def promised (c : Nat) (y : Val) : Bool :=
  !((decide (c = 19) || decide (c = 20)) && vlt (.fin false 1 20 false) (vabs y))

/-- Curve `c` at y, y no NaN; not rotary. -/
def curveAt (m : CurveMode) (c : Nat) (y : Val) : CurveOut :=
  match if c < 22 then curveListed c y else none with
  | some r => { y := r.1, late := none, flags := r.2, rflags := 0 }
  | none =>
    if m.strict && strictCurve c then
      let e := exactCurve c y
      let r := rounded m e
      { y := r.1, late := some e, flags := 0, rflags := r.2 }
    else if c < 22 then
      let o := joinOut m (builtinValue m.bank c m.packed y)
      if (isNarrowValue y || !m.packed) && promised c y && bankReleased m.bank then
        releasedOut m c (isNarrowValue y) y (exactCurve c y) o
      else o
    else joinOut m (customValue m.bank (c - 24) m.packed (fun v => (rounded m v).1) y)

/-! ## Rotary (R192, R193) -/

/-- A position that R187 accepts. -/
def rotaryPosition (p : Val) : Option Nat :=
  if isFinite p && isInteger p && !(isNeg p && !isZero p) && vlt p (.fin false 1 24 false) then some (vfloor p).toNat
  else none

/-- What n of R192 makes of the cosine and the sine of s. -/
def rotaryTurn (n : Int) (c z : Val) : Val × Val :=
  match n % 4 with
  | 0 => (c, z) | 1 => (vneg z, c) | 2 => (vneg c, vneg z) | _ => (z, vneg c)

/-- A kernel of the rotary curve at s: R194 on the piece that holds it (log entry 1 for which that is). -/
def rotaryKernel (b : Bank) (k : Nat) (s : Val) : Val :=
  pieceValue b (Config.rotaryPiece k (bankEntry b 21) (isNeg s)) false s

/-- The two results of a pair: cosine at the lower element, sine at the upper. -/
def rotaryAt (m : CurveMode) (p theta : Val) : CurveOut × CurveOut :=
  let bad : CurveOut := { y := .nan, late := none, flags := flInvalid, rflags := 0 }
  match rotaryPosition p, isFinite theta with
  | some n, true =>
    let a := (vmul (vint n) theta).val
    let t := (vmul a cTurns).val
    let w := (vsub t (vint (vfloor t))).val
    let q := vfloor (vadd (vscale w 2) half).val
    let s := (vsub w (vdyadic q (-2))).val
    let r := rotaryTurn q (rotaryKernel m.bank 0 s) (vmul s (rotaryKernel m.bank 1 s)).val
    let o := (joinOut m ⟨r.1, false⟩, joinOut m ⟨r.2, false⟩)
    if vle (vabs a) (.fin false 1 20 false) && bankReleased m.bank then
      let x := rotaryTurn q (cosPiKernel (vscale s 1)) (sinPiKernel (vscale s 1))
      let narrow := isNarrowValue (vint n) && isNarrowValue theta
      (releasedOut m 21 narrow a x.1 o.1, releasedOut m 21 narrow a x.2 o.2)
    else o
  | _, _ => (bad, bad)

end Sys2Proof.Machine
end

