-- ==== Sys2Proof/Machine/Packet.lean ====
section
/-! DEFINITION. Layouts in memory: the command packet (R436 to R439), the descriptor (R446), the tumbler word (R130
to R155), the ring context (R462), the row-slot image (R258, R259). -/

namespace Sys2Proof.Machine

/-! ## The command packet -/

def pkOpcode (p : BitVec 512) : Nat := field p 7 0
def pkVi (p : BitVec 512) : Nat := field p 17 8
def pkNotify (p : BitVec 512) : Bool := bit p 18
def pkF0 (p : BitVec 512) : Bool := bit p 20
def pkF1 (p : BitVec 512) : Bool := bit p 21
def pkSeq (p : BitVec 512) : Nat := field p 63 32
def pkTaddr (p : BitVec 512) : Nat := field p 127 64
def pkDaddr (p : BitVec 512) : Nat := field p 191 128
def pkRow0 (p : BitVec 512) : Nat := field p 206 192
/-- The row count R (ROWSEL holds R minus 1). -/
def pkRows (p : BitVec 512) : Nat := field p 222 208 + 1
def pkNoSlot (p : BitVec 512) : Bool := bit p 223
def pkMlen (p : BitVec 512) : Nat := field p 255 224
def pkShard (p : BitVec 512) : Nat := field p 295 256
def pkDmask (p : BitVec 512) : Nat := field p 303 296
def pkVlen (p : BitVec 512) : Nat := field p 314 304
def pkChainId (p : BitVec 512) : Nat := field p 329 320
def pkChv (p : BitVec 512) : Bool := bit p 335
def pkModes (p : BitVec 512) : Nat := field p 351 336
def pkOpa (p : BitVec 512) : Nat := field p 383 352
def pkKey (p : BitVec 512) : Nat := field p 447 384
def pkOpb (p : BitVec 512) : Nat := field p 479 448
def pkOpc (p : BitVec 512) : Nat := field p 495 480
def pkRecord (p : BitVec 512) : Bool := bit p 496
def pkHashIn (p : BitVec 512) : Bool := bit p 497
def pkHashOut (p : BitVec 512) : Bool := bit p 498
def pkLink (p : BitVec 512) : Bool := bit p 499

/-- Bits [hi:lo] of MODES (R439). -/
def modesField (p : BitVec 512) (hi lo : Nat) : Nat := field p (336 + hi) (336 + lo)

/-! ## Descriptors -/

def dBase (d : BitVec 256) : Nat := field d 63 0
def dBase2 (d : BitVec 256) : Nat := field d 127 64
def dStride (d : BitVec 256) : Nat := field d 159 128
def dCap (d : BitVec 256) : Nat := field d 191 160
def dDevice (d : BitVec 256) : Bool := bit d 192
def dFmt (d : BitVec 256) : Nat := field d 203 200

/-! ## The tumbler word: stage fields INTAKE 0 to EMIT 7 -/

/-- Bits [hi:lo] of the field of a stage. -/
def tf (t : BitVec 512) (stage hi lo : Nat) : Nat := field t (64 * stage + hi) (64 * stage + lo)
def tb (t : BitVec 512) (stage i : Nat) : Bool := bit t (64 * stage + i)

def stIntake : Nat := 0
def stAffine : Nat := 1
def stSplit : Nat := 2
def stCurve : Nat := 3
def stJoin : Nat := 4
def stMix : Nat := 5
def stTap : Nat := 6
def stEmit : Nat := 7

/-- EN of a stage (R131). -/
def tEn (t : BitVec 512) (stage : Nat) : Bool := tb t stage 0

def tPack (t : BitVec 512) : Bool := tb t 0 1
def tBias (t : BitVec 512) : Bool := tb t 0 2
def tHeadroom (t : BitVec 512) : Bool := tb t 0 3
def tSrcA (t : BitVec 512) : Nat := tf t 0 5 4
def tFmtA (t : BitVec 512) : Nat := tf t 0 9 6
def tRegA (t : BitVec 512) : Nat := tf t 0 14 10
def tSrcB (t : BitVec 512) : Nat := tf t 0 16 15
def tFmtB (t : BitVec 512) : Nat := tf t 0 20 17
def tRegB (t : BitVec 512) : Nat := tf t 0 25 21
def tRdMode (t : BitVec 512) : Nat := tf t 0 27 26
def tScaleA (t : BitVec 512) : Int := signed 8 (tf t 0 35 28)

def tOrder (t : BitVec 512) : Bool := tb t 1 1
def tLog2e (t : BitVec 512) : Bool := tb t 1 2
def tASrc (t : BitVec 512) : Nat := tf t 1 6 3
def tBSrc (t : BitVec 512) : Nat := tf t 1 10 7
def tCSrc (t : BitVec 512) : Nat := tf t 1 14 11
def tDSrc (t : BitVec 512) : Nat := tf t 1 18 15
def tNegA (t : BitVec 512) : Bool := tb t 1 19
def tNegB (t : BitVec 512) : Bool := tb t 1 20
def tNegC (t : BitVec 512) : Bool := tb t 1 21
def tNegD (t : BitVec 512) : Bool := tb t 1 22
def tMask (t : BitVec 512) : Nat := tf t 1 24 23
def tAffReg (t : BitVec 512) : Nat := tf t 1 29 25
def tAffImm (t : BitVec 512) : W32 := BitVec.ofNat 32 (tf t 1 63 32)

def tSplitMode (t : BitVec 512) : Nat := tf t 2 3 1
def tSym (t : BitVec 512) : Bool := tb t 2 4
def tPosSrc (t : BitVec 512) : Nat := tf t 2 6 5
def tPairing (t : BitVec 512) : Bool := tb t 2 7
def tHalfBlk (t : BitVec 512) : Nat := tf t 2 10 8

def tCurve (t : BitVec 512) : Nat := tf t 3 5 1
def tJoinMode (t : BitVec 512) : Nat := tf t 4 2 1
def tSymFix (t : BitVec 512) : Nat := tf t 4 4 3

def tMixOp (t : BitVec 512) : Nat := tf t 5 4 1
def tMSrc (t : BitVec 512) : Nat := tf t 5 7 5
def tMixReg (t : BitVec 512) : Nat := tf t 5 12 8
def tSwap (t : BitVec 512) : Bool := tb t 5 13
def tMixImm (t : BitVec 512) : W32 := BitVec.ofNat 32 (tf t 5 63 32)

def tTapOp (t : BitVec 512) : Nat := tf t 6 4 1
def tPoint (t : BitVec 512) : Nat := tf t 6 6 5
def tSeg (t : BitVec 512) : Nat := tf t 6 9 7
def tPred (t : BitVec 512) : Nat := tf t 6 12 10
def tThresh (t : BitVec 512) : W32 := BitVec.ofNat 32 (tf t 6 63 32)

def tFmt (t : BitVec 512) : Nat := tf t 7 4 1
def tDest (t : BitVec 512) : Nat := tf t 7 6 5
def tEmitReg (t : BitVec 512) : Nat := tf t 7 11 7
def tRaw (t : BitVec 512) : Bool := tb t 7 12
def tWMode (t : BitVec 512) : Nat := tf t 7 14 13
def tIndex (t : BitVec 512) : Bool := tb t 7 15
def tScaleUp (t : BitVec 512) : Bool := tb t 7 16
def tPromoRatio (t : BitVec 512) : Nat := tf t 7 20 17
def tPromoZero (t : BitVec 512) : Nat := tf t 7 25 21
def tSqnr (t : BitVec 512) : Bool := tb t 7 26

/-! ## The ring context -/

def ringStateCode : RingState → Nat
  | .disabled => 0 | .idle => 1 | .ready => 2 | .running => 3
  | .blocked => 4 | .suspended => 5 | .halted => 6 | .paused => 7

def ringStateOf (n : Nat) : RingState :=
  match n % 8 with
  | 0 => .disabled | 1 => .idle | 2 => .ready | 3 => .running
  | 4 => .blocked | 5 => .suspended | 6 => .halted | _ => .paused

/-- A context from its 64 bytes. -/
def ctxOf (x : BitVec 512) : RingCtx :=
  { cmdBase := BitVec.ofNat 64 (field x 63 0), cplBase := BitVec.ofNat 64 (field x 127 64),
    head := BitVec.ofNat 32 (field x 159 128), tail := BitVec.ofNat 32 (field x 191 160),
    cpli := BitVec.ofNat 32 (field x 223 192), size := BitVec.ofNat 8 (field x 231 224),
    sched := BitVec.ofNat 8 (field x 239 232), halt := BitVec.ofNat 16 (field x 255 240),
    key := BitVec.ofNat 64 (field x 319 256), vsave := BitVec.ofNat 64 (field x 383 320),
    notify := BitVec.ofNat 64 (field x 447 384), owner := BitVec.ofNat 16 (field x 463 448),
    state := ringStateOf (field x 466 464), prog := BitVec.ofNat 40 (field x 511 472) }

/-- The 64 bytes of a context. -/
def ctxBits (c : RingCtx) : BitVec 512 :=
  BitVec.ofNat 512 (c.cmdBase.toNat + place c.cplBase.toNat 64 + place c.head.toNat 128 + place c.tail.toNat 160
    + place c.cpli.toNat 192 + place c.size.toNat 224 + place c.sched.toNat 232 + place c.halt.toNat 240
    + place c.key.toNat 256 + place c.vsave.toNat 320 + place c.notify.toNat 384 + place c.owner.toNat 448
    + place (ringStateCode c.state) 464 + place c.prog.toNat 472)

def ctxLog2 (c : RingCtx) : Nat := field c.size 4 0
def ctxSize (c : RingCtx) : Nat := 2 ^ ctxLog2 c
def ctxClass (c : RingCtx) : Nat := field c.sched 1 0
def ctxWeight (c : RingCtx) : Nat := field c.sched 5 2 + 1
def ctxOwner (c : RingCtx) : ViId := BitVec.ofNat 10 (field c.owner 9 0)

/-! ## The row-slot image -/

/-- MAXV or MINV as 80 bits. -/
def extremumNat (x : Extremum) : Nat := x.value.toNat + place x.index.toNat 40
def extremumOf (n : Nat) : Extremum := ⟨BitVec.ofNat 38 n, BitVec.ofNat 40 (n >>> 40)⟩

/-- The 128-bit header of a slot (R259). -/
def slotHeader (s : Slot) : Nat :=
  s.owner.toNat + place (boolNat s.isOpen) 10 + place (boolNat s.exact) 11 + place s.fin.toNat 12
    + place (boolNat s.poison) 14 + place (boolNat s.xnan) 15 + place (boolNat s.xpinf) 16
    + place (boolNat s.xninf) 17 + place (boolNat s.xover) 18 + place s.flushes.toNat 32
    + place s.epoch.toNat 48 + place s.count.toNat 80

/-- The 256 bytes of a slot (R258); padding is zero. -/
def slotBytes (s : Slot) : List Byte :=
  natBytes 16 (slotHeader s) ++ natBytes 10 (extremumNat s.maxv) ++ natBytes 10 (extremumNat s.minv)
    ++ natBytes 2 s.ref.toNat ++ natBytes 10 0 ++ natBytes 8 s.fsum.toNat ++ natBytes 8 s.fsumsq.toNat
    ++ natBytes 80 s.xsum.toNat ++ natBytes 80 s.xsumsq.toNat ++ natBytes 16 s.sw.toNat ++ natBytes 16 s.dlink.toNat

/-- Bytes [a, a + n) of an image as a number. -/
def imageField (bs : List Byte) (a n : Nat) : Nat := bytesNat ((bs.drop a).take n)

/-- A slot from its image: reserved bits and padding ignored, a FIN of 3 taken as 0 (R273). -/
def slotOf (bs : List Byte) : Slot :=
  let h := BitVec.ofNat 128 (imageField bs 0 16)
  { count := BitVec.ofNat 48 (field h 127 80), epoch := BitVec.ofNat 32 (field h 79 48),
    flushes := BitVec.ofNat 16 (field h 47 32), xover := bit h 18, xninf := bit h 17, xpinf := bit h 16,
    xnan := bit h 15, poison := bit h 14,
    fin := if field h 13 12 = 3 then 0 else BitVec.ofNat 2 (field h 13 12),
    exact := bit h 11, isOpen := bit h 10, owner := BitVec.ofNat 10 (field h 9 0),
    maxv := extremumOf (imageField bs 16 10), minv := extremumOf (imageField bs 26 10),
    ref := BitVec.ofNat 16 (imageField bs 36 2), fsum := BitVec.ofNat 64 (imageField bs 48 8),
    fsumsq := BitVec.ofNat 64 (imageField bs 56 8), xsum := BitVec.ofNat 640 (imageField bs 64 80),
    xsumsq := BitVec.ofNat 640 (imageField bs 144 80), sw := BitVec.ofNat 128 (imageField bs 224 16),
    dlink := BitVec.ofNat 128 (imageField bs 240 16) }

/-- The empty index of MAXV and MINV (R247). -/
def emptyIndex : BitVec 40 := 0xFF_FFFF_FFFF
/-- W38 infinities: exponent field 1,023, fraction 0. -/
def w38PosInf : BitVec 38 := 0x1F_F800_0000
def w38NegInf : BitVec 38 := 0x3F_F800_0000
def emptyMax : Extremum := ⟨w38NegInf, emptyIndex⟩
def emptyMin : Extremum := ⟨w38PosInf, emptyIndex⟩

/-- REF of an unset reference (R269). -/
def refUnset : BitVec 16 := 0x8000

/-- A slot as ROWSTAT_OPEN sets it (R269). -/
def slotOpened (vi : ViId) (exact : Bool) (ref : BitVec 16) (sw : W128) (poison : Bool) : Slot :=
  { Slot.zero with owner := vi, isOpen := true, exact := exact, maxv := emptyMax, minv := emptyMin, ref := ref,
                   sw := sw, poison := poison }

end Sys2Proof.Machine
end

