-- ==== Sys2Proof/Machine/Reduce.lean ====
section
/-! DEFINITION. The reduction tree and the exact registers: what one vector adds to one slot (R232 to R251), the
binary64 views (R242), the exact shift (R244) and the comparison fields (R246, R247). -/

namespace Sys2Proof.Machine

/-! ## Exact registers -/

/-- The value of an exact register (R83). -/
def exactVal (x : Exact) : Val := vdyadic x.toInt (-320)

/-- The register with an integer added, modulo 2^640. -/
def exactAdd (x : Exact) (i : Int) : Exact := x + BitVec.ofInt 640 i

/-- floor(v · 2^320). -/
def exactUnits (v : Val) : Int := vfloor (vscale v 320)

/-- floor(X / 2^Δ): the shifts of R244 by steps of at most 255 give this. -/
def exactShr (x : Exact) (d : Nat) : Exact := BitVec.ofInt 640 (x.toInt.fdiv ((2 ^ d : Nat) : Int))

/-- XSUM read as a number, before its one rounding (R242). -/
def sumValue (xover xnan xpinf xninf : Bool) (x : Exact) : Val :=
  if xover || xnan || (xpinf && xninf) then .nan
  else if xpinf then .inf false
  else if xninf then .inf true
  else exactVal x

/-- XSUMSQ read as a number, before its one rounding (R242). -/
def sumsqValue (xover xnan xpinf xninf : Bool) (x : Exact) : Val :=
  if xover || xnan then .nan
  else if xpinf || xninf then .inf false
  else exactVal x

def slotSum (s : Slot) : Val := sumValue s.xover s.xnan s.xpinf s.xninf s.xsum
def slotSumsq (s : Slot) : Val := sumsqValue s.xover s.xnan s.xpinf s.xninf s.xsumsq

/-- R243: the binary64 views of an exact slot; a finalised slot keeps FIN0 and FIN1 there. -/
def slotViews (s : Slot) : Slot :=
  if s.exact && decide (s.fin = 0) then { s with fsum := f64Round (slotSum s), fsumsq := f64Round (slotSumsq s) }
  else s

/-- FSUM scaled by 2^-Δ in steps of at most 255, each rounded to binary64 (R244, R294). -/
def shiftF64 : Nat → Nat → W64 → W64
  | 0, _, x => x
  | n + 1, d, x =>
    if d = 0 then x
    else
      let k := min d 255
      shiftF64 n (d - k) (f64Round (vscale (ofF64 x) (-(k : Int))))

/-- COUNT of a slot after more positions, with R241's limit in exact mode. -/
def slotCount (s : Slot) (n : Nat) : Slot :=
  { s with count := s.count + BitVec.ofNat 48 n,
           xover := s.xover || (s.exact && decide (2 ^ 40 < s.count.toNat + n)) }

/-! ## Comparisons (R246, R247) -/

/-- Whether a candidate replaces the field's value: larger for a maximum, smaller for a minimum; NaN by the trap. -/
def beats (isMax trap : Bool) (v : Val) (vi : Nat) (w : Val) (wi : Nat) : Bool :=
  match isNan v, isNan w with
  | true, true => decide (vi < wi)
  | true, false => trap
  | false, true => !trap
  | false, false =>
    match vcmp v w with
    | .eq => decide (vi < wi)
    | .gt => isMax
    | .lt => !isMax

/-- A field after one candidate. -/
def extremumFold (isMax trap : Bool) (x : Extremum) (v : Val) (index : Nat) : Extremum :=
  if x.index = emptyIndex || beats isMax trap v index (ofW38 x.value) x.index.toNat then
    ⟨toW38 v, BitVec.ofNat 40 index⟩
  else x

/-- Two fields combined. -/
def extremumMerge (isMax trap : Bool) (x y : Extremum) : Extremum :=
  if y.index = emptyIndex then x else extremumFold isMax trap x (ofW38 y.value) y.index.toNat

/-! ## What TAP delivers -/

/-- One active position as TAP delivers it (R232, R250, R251): the AFFINE output goes with LSE. -/
structure Tapped where
  pos    : Nat
  index  : Nat
  val    : Val
  aff    : Val
  pred   : Bool
  poison : Bool
  deriving DecidableEq, Repr

/-- An invalid addition of the tree, with its binary64 operands (R237, R550). -/
structure TreeNan where
  a : W64
  b : W64
  deriving DecidableEq, Repr

/-- The outcome of one vector's reduction into one slot: the flags raised, values flushed, whether the update was
discarded (R262), and the first NaN that the tree made from numbers. -/
structure Reduction where
  slot    : Slot
  flags   : Byte
  flushed : Nat
  discard : Bool
  made    : Option TreeNan
  deriving DecidableEq, Repr

/-- A binary64 value in the tree, and whether a poisoned position lies below it (R179). -/
structure Leaf where
  val    : W64
  poison : Bool
  deriving DecidableEq, Repr

/-- Value at each position, none where no active position lies. -/
def treeLeaves (s : Nat) (vs : List (Nat × Leaf)) : List (Option Leaf) :=
  (List.range s).map (fun p => (vs.find? (fun x => decide (x.1 = p))).map (fun x => x.2))

/-- What the additions of a segment met: the first invalid one whose operands nothing poisoned (R180, R550), and whether any
was invalid (R237). -/
structure TreeAcc where
  made    : Option TreeNan
  invalid : Bool
  deriving DecidableEq, Repr

/-- round64(a + b), noting an invalid addition. -/
def treeAdd (acc : TreeAcc) (a b : Leaf) : Leaf × TreeAcc :=
  let r := f64Add a.val b.val
  let p := a.poison || b.poison
  (⟨r.1, p⟩, if r.2 then ⟨acc.made <|> (if p then none else some ⟨a.val, b.val⟩), true⟩ else acc)

/-- One level of the tree (R235). -/
def treeLevel : List (Option Leaf) → TreeAcc → List (Option Leaf) × TreeAcc
  | a :: b :: rest, acc =>
    match a, b with
    | some x, some y =>
      let r := treeAdd acc x y
      let t := treeLevel rest r.2
      (some r.1 :: t.1, t.2)
    | none, y => let t := treeLevel rest acc; (y :: t.1, t.2)
    | x, none => let t := treeLevel rest acc; (x :: t.1, t.2)
  | l, acc => (l, acc)

/-- The levels of the tree, each halving the width. -/
def treeSum : Nat → List (Option Leaf) → TreeAcc → Option Leaf × TreeAcc
  | 0, l, acc => (l.headD none, acc)
  | n + 1, l, acc =>
    let r := treeLevel l acc
    treeSum n r.1 r.2

/-- The fast sum of one vector's values added to a binary64 field (R235, R236). -/
def fastSum (levels : Nat) (base : Leaf) (vs : List (Nat × Leaf)) : W64 × TreeAcc :=
  let r := treeSum levels (treeLeaves (2 ^ levels) vs) ⟨none, false⟩
  match r.1 with
  | none => (base.val, r.2)
  | some x => let t := treeAdd r.2 base x; (t.1.val, t.2)

/-- One value added to the exact registers (R238 to R240): its flags and whether it was flushed. -/
def exactTerm (sum sumsq : Bool) (s : Slot) (v : Val) : Slot × Byte × Bool :=
  match v with
  | .nan => ({ s with xnan := true }, 0, false)
  | .inf n => (if n then { s with xninf := true } else { s with xpinf := true }, 0, false)
  | .fin n m e st =>
    let x : Val := .fin n m e st
    if isZero x then (s, 0, false)
    else if vlt (vabs x) (.fin false 1 (-126) false) then
      ({ s with flushes := if s.flushes = 0xFFFF then 0xFFFF else s.flushes + 1 }, flFlush, true)
    else if !vlt (vabs x) (.fin false 1 128 false) then
      (if n then { s with xninf := true } else { s with xpinf := true }, flOverflow, false)
    else
      let s1 := if sum then { s with xsum := exactAdd s.xsum (exactUnits x) } else s
      (if sumsq then { s1 with xsumsq := exactAdd s1.xsumsq (exactUnits (vmul x x).val) } else s1, 0, false)

/-- Sums of one vector into an exact slot. -/
def exactSums (sum sumsq : Bool) (s : Slot) (ts : List Tapped) : Slot × Byte × Nat :=
  ts.foldl (fun (a : Slot × Byte × Nat) t =>
    let r := exactTerm sum sumsq a.1 t.val
    (r.1, if t.poison then a.2.1 else a.2.1 ||| r.2.1, a.2.2 + boolNat r.2.2)) (s, 0, 0)

/-- Sums of one vector into a fast slot (R234 to R237); the positions rise. -/
def fastSums (levels : Nat) (sum sumsq : Bool) (s : Slot) (ts : List Tapped) : Slot × Option TreeNan × Bool :=
  let base := (ts.map (fun t => t.pos)).headD 0 / 2 ^ levels * 2 ^ levels
  let vs := ts.map (fun t => (t.pos - base, (⟨f64Round t.val, t.poison⟩ : Leaf)))
  let qs := ts.map (fun t => (t.pos - base, (⟨f64Round (vmul t.val t.val).val, t.poison⟩ : Leaf)))
  let a := if sum then fastSum levels ⟨s.fsum, s.poison⟩ vs else (s.fsum, ⟨none, false⟩)
  let b := if sumsq then fastSum levels ⟨s.fsumsq, s.poison⟩ qs else (s.fsumsq, ⟨none, false⟩)
  ({ s with fsum := a.1, fsumsq := b.1 }, a.2.made <|> b.2.made, a.2.invalid || b.2.invalid)

/-- MAXV or MINV after one vector: a binary64 value is first rounded to W38, with that rounding's flags, and the rounded
value compared (R228, R246); any other value is in W38 already. -/
def extremaOf (isMax trap : Bool) (strict : Bool) (x : Extremum) (vs : List (Nat × Val × Bool)) : Extremum × Byte :=
  vs.foldl (fun (a : Extremum × Byte) v =>
    let r := roundRne fmtW38 v.2.1
    (extremumFold isMax trap a.1 r.val v.1, a.2 ||| flagIf (strict && !v.2.2) (roundFlags true r))) (x, 0)

/-- One vector's reduction into one slot under TAP operation `op` (R152). `levels` is log2 of the segment. -/
def reduceVector (op levels : Nat) (trap strict : Bool) (slot : Slot) (ts : List Tapped) : Reduction :=
  let pois := ts.any (fun t => t.poison)
  if ts.isEmpty then ⟨slot, 0, 0, false, none⟩
  else if slot.fin ≠ 0 then
    ⟨slot, flagIf (ts.any (fun t => !t.poison)) flInvalid, 0, true, none⟩
  else
    let s0 := { slotCount slot ts.length with poison := slot.poison || pois }
    let sums (sum sumsq : Bool) (ts : List Tapped) : Reduction :=
      if s0.exact then
        let r := exactSums sum sumsq s0 ts
        ⟨r.1, r.2.1, r.2.2, false, none⟩
      else
        -- the slot's own poison counts as it stood before this vector
        let r := fastSums levels sum sumsq { s0 with poison := slot.poison } ts
        -- as if raised by the lowest active position, which a poisoned one does not (R180, R237)
        ⟨{ r.1 with poison := s0.poison }, flagIf (r.2.2 && !((ts.map (fun t => t.poison)).headD true)) flInvalid, 0, false, r.2.1⟩
    let maxes (vs : List (Nat × Val × Bool)) (r : Reduction) : Reduction :=
      let m := extremaOf true trap strict r.slot.maxv vs
      { r with slot := { r.slot with maxv := m.1 }, flags := r.flags ||| m.2 }
    let vals := ts.map (fun t => (t.index, t.val, t.poison))
    match op with
    | 0 => sums true false ts
    | 1 => sums false true ts
    | 2 => sums true true ts
    | 3 => maxes vals ⟨s0, 0, 0, false, none⟩
    | 5 => maxes vals ⟨s0, 0, 0, false, none⟩
    | 7 =>
      let n := (ts.filter (fun t => t.pred)).length
      if s0.exact then ⟨{ s0 with xsum := exactAdd s0.xsum ((n : Int) * (2 ^ 320 : Nat)) }, 0, 0, false, none⟩
      else ⟨{ s0 with fsum := (f64Add s0.fsum (f64Round (vint n))).1 }, 0, 0, false, none⟩
    | 8 => maxes (ts.map (fun t => (t.index, t.aff, t.poison))) (sums true false ts)
    | _ =>
      let m := extremaOf false trap strict s0.minv vals
      ⟨{ s0 with minv := m.1 }, m.2, 0, false, none⟩

/-! ## Finalisation by normalisation (R312 to R314) -/

/-- The state that a row is finalised from, and what finalising it gives. -/
structure NormResult where
  fin0    : W64
  fin1    : W64
  flags   : Byte
  empty   : Bool
  clamped : Bool
  poison  : Bool
  deriving DecidableEq, Repr

def canonicalF64 : W64 := toF64 .nan

/-- R313: whether the state has no finite statistics. -/
def statSpoiled (s : RowStat) : Bool :=
  decide (field s.flags 4 0 ≠ 0) || !isFinite (ofF64 s.fsum) || !isFinite (ofF64 s.fsumsq)

/-- Mean and reciprocal standard deviation of a row (R312, R313). -/
def normFinal (exact rms : Bool) (eps : Val) (s : RowStat) : NormResult :=
  let poison := bit s.flags 4
  let bad := if exact then decide (field s.flags 4 0 ≠ 0) else statSpoiled s
  if bad then ⟨canonicalF64, canonicalF64, flInvalid, false, false, poison⟩
  else
    let n := s.count.toNat
    -- 1/sqrt of var + ε, with the divide-by-zero flag when that is 0
    let rstd (x : Val) : W64 × Byte :=
      match unstick x with
      | .fin _ 0 _ _ => (toF64 (.inf false), flDivZero)
      | .fin _ m e _ =>
        (f64Round (if e ≥ 0 then invRootOf (m <<< e.toNat) 1 120 else invRootOf m (2 ^ (-e).toNat) 120), 0)
      | .inf _ => (toF64 (vzero false), 0)
      | .nan => (canonicalF64, 0)
    if n = 0 then
      let r := rstd eps
      ⟨toF64 (vzero false), r.1, r.2, true, false, poison⟩
    else if exact then
      let xs := s.xsum.toInt
      let xq := s.xsumsq.toInt
      let mean := if rms then vzero false else vscale (ratio (decide (xs < 0)) xs.natAbs n 80) (-320)
      -- var = num / (n · n · 2^640), or num / (n · 2^320)
      let num : Int := if rms then xq else (n : Int) * xq * (2 ^ 320 : Nat) - xs * xs
      let den : Nat := if rms then n * 2 ^ 320 else n * n * 2 ^ 640
      let clamp := decide (num < 0)
      let num' := if clamp then 0 else num.natAbs
      -- ε as a fraction over 2^149
      let en := (toUnits eps (-149)).natAbs
      let a := num' * 2 ^ 149 + en * den
      let b := den * 2 ^ 149
      let r : W64 × Byte := if a = 0 then (toF64 (.inf false), flDivZero) else (f64Round (invRootOf a b 120), 0)
      ⟨f64Round mean, r.1, r.2, false, clamp && !rms, poison⟩
    else
      let quot (x : W64) : W64 :=
        match unstick (ofF64 x) with
        | .fin neg m e _ => f64Round (vscale (ratio neg m n 80) e)
        | v => toF64 v
      let mean : W64 := if rms then toF64 (vzero false) else quot s.fsum
      let var0 : W64 := if rms then quot s.fsumsq else
        f64Round (vsub (ofF64 (quot s.fsumsq)) (ofF64 (f64Mul mean mean))).val
      let clamp := !rms && vlt (ofF64 var0) (vzero false)
      let var : W64 := if clamp then toF64 (vzero false) else var0
      let r := rstd (ofF64 (f64Round (vadd (ofF64 var) eps).val))
      ⟨mean, r.1, r.2, false, clamp, poison⟩

end Sys2Proof.Machine
end

