-- ==== Sys2Proof/Machine/Lists.lean ====
section
/-! DEFINITION. Candidate lists (R364 to R368, R381), the weights over a list (R390), the generator (R389) and the
draw (R391). -/

namespace Sys2Proof.Machine

/-- Candidate order (R365). -/
def candBefore (a b : Cand) : Bool :=
  match vcmp (ofW38 a.value) (ofW38 b.value) with
  | .gt => true
  | .eq => decide (a.index < b.index)
  | .lt => false

/-- Insertion after every entry that the new one does not precede. -/
def candInsert (c : Cand) : List Cand → List Cand
  | [] => [c]
  | x :: rest => if candBefore c x then c :: x :: rest else x :: candInsert c rest

/-- The first `k` of a list with one more entry (R368). -/
def candAdmit (k : Nat) (l : List Cand) (c : Cand) : List Cand := (candInsert c l).take k

/-- Whether SELECT admits a value (R366). -/
def admits (v : Val) : Bool := !isNan v && decide (v ≠ .inf true)

/-- combine(a, b) of two lists (R381). -/
def candMerge (k : Nat) (a b : CandList) : CandList :=
  ⟨b.entries.foldl (candAdmit k) a.entries, a.poisoned || b.poisoned⟩

/-- Whether entries stand in candidate order. -/
def candOrdered : List Cand → Bool
  | a :: b :: rest => !candBefore b a && candOrdered (b :: rest)
  | _ => true

/-- The empty entry (R368). -/
def emptyCandIndex : Nat := 0x3F_FFFF_FFFF

/-! ## Weights and draws -/

/-- 2^d correctly rounded to binary64, for binary64 d at most 0 or any other value. -/
def weightOf (d : Val) : W64 :=
  match d with
  | .nan => canonicalF64
  | .inf n => toF64 (if n then vzero false else .inf false)
  | d => f64Round (exactExp2 d)

/-- The weight of a value against the first value of its list (R390). -/
def weightAgainst (v0 v : Val) : W64 :=
  match v0 with
  | .inf false => toF64 (if v = .inf false then vint 1 else vzero false)
  | v0 => weightOf (ofF64 (f64Round (vsub v v0).val))

/-- floor(w · 2^320) (R391). -/
def weightUnits (w : W64) : Nat := (exactUnits (ofF64 w)).toNat

/-- u · 2^24 of R389. -/
def drawUnits (key step row draw : Nat) : Nat :=
  let m := 2 ^ 64
  let c := step % 2 ^ 32 * 2 ^ 32 + row % 2 ^ 24 * 2 ^ 8 + draw % 2 ^ 8
  let k := key % m
  let rot := (k <<< 17) % m ||| (k >>> 47)
  let round (x : Nat) : Nat :=
    let x1 := x * 0x9E3779B97F4A7C15 % m
    let x2 := x1 ^^^ (x1 >>> 29)
    (x2 + rot) % m
  round (round (round (round (c ^^^ k)))) >>> 40

/-- Running sums. -/
def runningSums {α : Type} (f : α → α → α) : α → List α → List α
  | _, [] => []
  | acc, x :: rest => let y := f acc x; y :: runningSums f y rest

/-- The least position at or below a limit that satisfies a test. -/
def leastIndex {α : Type} (p : α → Bool) (l : List α) : Option Nat := l.findIdx? p

/-- The position that one draw chooses in exact reduction mode (R391). `top` is TOP_P, `u24` is u · 2^24. -/
def drawExact (ws : List W64) (top : Val) (u24 : Nat) : Nat :=
  let cs := runningSums (· + ·) 0 (ws.map weightUnits)
  let p := (toUnits top (-149)).natAbs
  let m := (leastIndex (fun c => decide (p * cs.getLastD 0 ≤ c * 2 ^ 149)) cs).getD (ws.length - 1)
  (leastIndex (fun c => decide (u24 * cs.getD m 0 < c * 2 ^ 24)) (cs.take (m + 1))).getD m

/-- The position that one draw chooses in fast reduction mode (R391). -/
def drawFast (ws : List W64) (top : Val) (u24 : Nat) : Nat :=
  match ws with
  | [] => 0
  | w0 :: rest =>
    let cs := w0 :: runningSums (fun a b => (f64Add a b).1) w0 rest
    let th := ofF64 (f64Round (vmul top (ofF64 (cs.getLastD 0))).val)
    let m := (leastIndex (fun c => vle th (ofF64 c)) cs).getD (ws.length - 1)
    let tg := ofF64 (f64Round (vmul (vdyadic u24 (-24)) (ofF64 (cs.getD m 0))).val)
    (leastIndex (fun c => vlt tg (ofF64 c)) (cs.take (m + 1))).getD m

/-- The token of one draw from non-empty entries; none when there are none (R392). -/
def drawToken (exact : Bool) (entries : List Cand) (top : Val) (u24 : Nat) : Option (BitVec 40) :=
  match entries with
  | [] => none
  | e0 :: _ =>
    let ws := entries.map (fun e => weightAgainst (ofW38 e0.value) (ofW38 e.value))
    let t := if exact then drawExact ws top u24 else drawFast ws top u24
    some (BitVec.ofNat 40 (entries.getD t e0).index)

/-- Gating weights of a row's list: w_i / Z rounded once to FP32, Z over `all` the values that count (R396). -/
def gateWeights (entries : List Cand) (all : List (BitVec 38)) : List W32 :=
  match entries with
  | [] => []
  | e0 :: _ =>
    let v0 := ofW38 e0.value
    let z := all.foldl (fun a v => a + weightUnits (weightAgainst v0 (ofW38 v))) 0
    entries.map (fun e =>
      match unstick (ofF64 (weightAgainst v0 (ofW38 e.value))) with
      | .fin n m ex _ => toF32 (roundRne fmtF32 (vscale (ratio n m z 80) (ex + 320))).val
      | _ => toF32 (vzero false))

end Sys2Proof.Machine
end

