-- ==== Sys2Proof/Machine/Ops.lean ====
section
/-! DEFINITION. The named operations over the state that every command is written with: memories and their poison,
row slots, vector registers, VI state, event counters, the output log, time, ring contexts, the error log, trace
records. -/

namespace Sys2Proof.Machine

/-! ## Byte memories (R7, R36, R37) -/

/-- The byte listed at an address; 0 when none is (log entry 6). -/
def cellGet : List Host.Cell → Nat → Byte
  | [], _ => 0
  | (k, v) :: rest, a => if k = a then v else cellGet rest a

/-- The list without an address. -/
def cellErase (m : List Host.Cell) (a : Nat) : List Host.Cell := m.filter (fun c => decide (c.1 ≠ a))

/-- The list with a byte before the first higher address. -/
def cellInsert : List Host.Cell → Nat → Byte → List Host.Cell
  | [], a, b => [(a, b)]
  | (k, v) :: rest, a, b => if a < k then (a, b) :: (k, v) :: rest else (k, v) :: cellInsert rest a b

/-- The list with a byte at an address, in canonical form: rising addresses, no byte 0. -/
def cellSet (m : List Host.Cell) (a : Nat) (b : Byte) : List Host.Cell :=
  if b = 0 then cellErase m a else cellInsert (cellErase m a) a b

/-- Every address exceeds `lo`, addresses rise, and no byte is 0. -/
def cellsWfFrom : Option Nat → List Host.Cell → Bool
  | _, [] => true
  | lo, (k, v) :: rest =>
    (match lo with | none => true | some l => decide (l < k)) && decide (v ≠ 0) && cellsWfFrom (some k) rest

/-- Rising numbers. -/
def risingFrom : Option Nat → List Nat → Bool
  | _, [] => true
  | lo, k :: rest => (match lo with | none => true | some l => decide (l < k)) && risingFrom (some k) rest

/-- The canonical form of a memory: its cells and its poisoned sectors are listed in rising order, no cell is 0. -/
def Memory.wf (m : Memory) : Bool := cellsWfFrom none m.cells && risingFrom none m.poison

def UndefRange.holds (r : UndefRange) (a : Nat) : Bool := decide (r.start ≤ a) && decide (a < r.start + r.len)

/-- The byte that a read of an address gives. -/
def Memory.byte (m : Memory) (a : Nat) : Byte :=
  match m.undef.find? (fun r => r.holds a) with
  | some r => Config.undefByte r.stamp a
  | none => cellGet m.cells a

/-- A range without the addresses [a, a + n). -/
def UndefRange.carve (r : UndefRange) (a n : Nat) : List UndefRange :=
  let e := r.start + r.len
  (if r.start < min a e then [⟨r.start, min a e - r.start, r.stamp⟩] else [])
    ++ (if max (a + n) r.start < e then [⟨max (a + n) r.start, e - max (a + n) r.start, r.stamp⟩] else [])

/-- One byte written. -/
def Memory.setByte (m : Memory) (a : Nat) (b : Byte) : Memory :=
  { m with cells := cellSet m.cells a b,
           undef := if m.undef.any (fun r => r.holds a) then m.undef.flatMap (fun r => r.carve a 1) else m.undef }

/-- [a, a + n) holds no defined value from now on. -/
def Memory.undefine (m : Memory) (a n stamp : Nat) : Memory :=
  if n = 0 then m
  else { m with cells := m.cells.filter (fun c => !(decide (a ≤ c.1) && decide (c.1 < a + n))),
                undef := ⟨a, n, stamp⟩ :: m.undef.flatMap (fun r => r.carve a n) }

/-- Whether a sector's poison bit is set. -/
def Memory.poisoned (m : Memory) (sector : Nat) : Bool := m.poison.contains sector

def Memory.setPoison (m : Memory) (sector : Nat) (p : Bool) : Memory :=
  { m with poison := if p then setInsert m.poison sector else setErase m.poison sector }

/-- The bytes that exist in a memory. -/
def spaceBytes : Space → Nat
  | .device => 2 ^ 64
  | .tile => Config.tileBytes
  | .twin => Config.tileBytes

/-- A device address wraps at 2^64 (log entry 7). -/
def spaceAddr (sp : Space) (a : Nat) : Nat :=
  match sp with
  | .device => a % 2 ^ 64
  | _ => a

def getMem (s : State) : Space → Memory
  | .device => s.dev
  | .tile => s.tile
  | .twin => s.twinTile

def setMem (s : State) (sp : Space) (m : Memory) : State :=
  match sp with
  | .device => { s with dev := m }
  | .tile => { s with tile := m }
  | .twin => { s with twinTile := m }

def readByte (s : State) (sp : Space) (a : Nat) : Byte := (getMem s sp).byte (spaceAddr sp a)

def readBytes (s : State) (sp : Space) (a n : Nat) : List Byte := (List.range n).map (fun i => readByte s sp (a + i))

/-- A little-endian number in memory. -/
def readNat (s : State) (sp : Space) (a n : Nat) : Nat := bytesNat (readBytes s sp a n)

def sectorOf (a : Nat) : Nat := a / 64

/-- The sectors that hold any byte of [a, a + n). -/
def sectorsOf (sp : Space) (a n : Nat) : List Nat :=
  if n = 0 then [] else (span (a / 64) ((a + n - 1) / 64 + 1 - a / 64)).map (fun k => sectorOf (spaceAddr sp (64 * k)))

def sectorPoison (s : State) (sp : Space) (a : Nat) : Bool := (getMem s sp).poisoned (sectorOf (spaceAddr sp a))

/-- Whether any sector of [a, a + n) is poisoned. -/
def rangePoison (s : State) (sp : Space) (a n : Nat) : Bool :=
  (sectorsOf sp a n).any (fun k => (getMem s sp).poisoned k)

def writeByte (s : State) (sp : Space) (a : Nat) (b : Byte) : State :=
  setMem s sp ((getMem s sp).setByte (spaceAddr sp a) b)

def writeBytes (s : State) (sp : Space) : Nat → List Byte → State
  | _, [] => s
  | a, b :: rest => writeBytes (writeByte s sp a b) sp (a + 1) rest

def setSectorPoison (s : State) (sp : Space) (a : Nat) (p : Bool) : State :=
  setMem s sp ((getMem s sp).setPoison (sectorOf (spaceAddr sp a)) p)

/-! ## Free values, output, time -/

/-- A fresh stamp for a free value. -/
def takeFree (s : State) : Nat × State := (s.free, { s with free := s.free + 1 })

def emit (s : State) (e : OutEvent) : State := { s with out := s.out ++ [e] }

/-! ## VI state and configuration -/

def viOf (s : State) (v : ViId) : ViState := spGet ViState.reset s.vis v.toNat
def setVi (s : State) (v : ViId) (x : ViState) : State := { s with vis := spSet ViState.reset s.vis v.toNat x }
def modVi (s : State) (v : ViId) (f : ViState → ViState) : State := setVi s v (f (viOf s v))

def cfgVi (s : State) (v : ViId) : ViCfg := spGet ViCfg.reset s.cfg.vi v.toNat
def setCfgVi (s : State) (v : ViId) (x : ViCfg) : State :=
  { s with cfg := { s.cfg with vi := spSet ViCfg.reset s.cfg.vi v.toNat x } }

def evSelectOf (s : State) (n : Nat) : EvSelect := spGet EvSelect.reset s.cfg.select n

/-! ## Event counters (R659 to R669) -/

/-- A 48-bit counter after `n` events, and whether it wrapped (R668). -/
def bump48 (x : BitVec 48) (n : Nat) : BitVec 48 × Bool := (x + BitVec.ofNat 48 n, decide (2 ^ 48 ≤ x.toNat + n))

/-- A 24-bit saturating field after `n` events, and whether it saturates now (R512, R668). -/
def bump24 (x : BitVec 24) (n : Nat) : BitVec 24 × Bool :=
  if x.toNat + n < 2 ^ 24 - 1 then (x + BitVec.ofNat 24 n, false) else (BitVec.ofNat 24 (2 ^ 24 - 1), decide (x ≠ BitVec.ofNat 24 (2 ^ 24 - 1)))

def ovfBit (w n : Nat) (b : Bool) : BitVec w := if b then BitVec.ofNat w (2 ^ n) else 0

/-- Counter `i` after `n` occurrences of an event. -/
def countOne (sel : Sparse EvSelect) (code n : Nat) (vi : Option ViId) (c : Counters) (i : Nat) : Counters :=
  let e := spGet EvSelect.reset sel i
  if e.en && decide (e.event.toNat = code) && (e.allVi || decide (vi = some e.vi)) then
    let x := bump48 (spGet 0 c.count i) n
    { c with count := spSet 0 c.count i x.1, ovf := c.ovf ||| ovfBit 20 i x.2 }
  else c

/-- `n` occurrences of an event, attributed to a VI or to none (R665, R666). -/
def countEvent (code n : Nat) (vi : Option ViId) (s : State) : State :=
  if s.cfg.freeze || decide (n = 0) then s
  else { s with ev := (List.range 16).foldl (countOne s.cfg.select code n vi) s.ev }

/-- EV_RETIRED, unit view and VI view (R664). -/
def countRetired (v : ViId) (s : State) : State :=
  if s.cfg.freeze then s
  else
    let u := bump48 s.ev.retired 1
    let c := (viOf s v).counters
    let x := bump48 c.retired 1
    let s' := { s with ev := { s.ev with retired := u.1, ovf := s.ev.ovf ||| ovfBit 20 17 u.2 } }
    modVi s' v (fun i => { i with counters := { c with retired := x.1, ovf := c.ovf ||| ovfBit 4 1 x.2 } })

/-- `n` occurrences of an event, where `n` is a free amount: no branch depends on it. -/
def countFree (code n : Nat) (vi : Option ViId) (s : State) : State :=
  if s.cfg.freeze then s else { s with ev := (List.range 16).foldl (countOne s.cfg.select code n vi) s.ev }

/-- EV_THROTTLE and its event: withheld issue slots (R628, R664). -/
def countThrottle (n : Nat) (vi : Option ViId) (s0 : State) : State :=
  let s := countFree 0x0B n vi s0
  if s.cfg.freeze then s
  else
    let u := bump48 s.ev.throttle n
    let s' := { s with ev := { s.ev with throttle := u.1, ovf := s.ev.ovf ||| ovfBit 20 19 u.2 } }
    match vi with
    | none => s'
    | some v => modVi s' v (fun i =>
        let x := bump48 i.counters.throttle n
        { i with counters := { i.counters with throttle := x.1, ovf := i.counters.ovf ||| ovfBit 4 3 x.2 } })

/-- Timing-only choices (R512, R514, R515) and their event. -/
def countTimings (n : Nat) (vi : Option ViId) (s : State) : State :=
  let s := countFree 0x67 n vi s
  if s.cfg.freeze then s
  else
    let u := bump24 s.ev.nondetTiming n
    let s' := { s with ev := { s.ev with nondetTiming := u.1, ovf := s.ev.ovf ||| ovfBit 20 18 u.2 } }
    match vi with
    | none => s'
    | some v => modVi s' v (fun i =>
        let x := bump24 i.counters.nondetTiming n
        { i with counters := { i.counters with nondetTiming := x.1, ovf := i.counters.ovf ||| ovfBit 4 2 x.2 } })

def countTiming (vi : Option ViId) (s : State) : State := countTimings 1 vi s

/-- A bit-affecting choice (R513, R515) and its event. -/
def countBits (n : Nat) (v : ViId) (s : State) : State :=
  let s := countEvent 0x57 n (some v) s
  if s.cfg.freeze || decide (n = 0) then s
  else
    let u := bump24 s.ev.nondetBits n
    let s' := { s with ev := { s.ev with nondetBits := u.1, ovf := s.ev.ovf ||| ovfBit 20 18 u.2 } }
    modVi s' v (fun i =>
      let x := bump24 i.counters.nondetBits n
      { i with counters := { i.counters with nondetBits := x.1, ovf := i.counters.ovf ||| ovfBit 4 2 x.2 } })

/-- A management write without effect. -/
def mgIgnored (s : State) : State := countEvent 0xC7 1 none s
/-- A VI-page write without effect. -/
def regIgnored (v : ViId) (s : State) : State := countEvent 0x66 1 (some v) s

/-! ## Rings and their contexts (R462, R570) -/

/-- Whether a global ring number is that of a covered ring. -/
def isCovered (ring : Nat) : Bool := decide (Config.ringCount ≤ ring)

/-- The tile that a ring's commands reach (R39, R447, R572). -/
def ringTile (ring : Nat) : Space := if isCovered ring then .twin else .tile

/-- The address of a ring's context (R462, R570). -/
def ctxAddr (s : State) (ring : Nat) : Nat :=
  if isCovered ring then s.cfg.coverBase.toNat * 2 ^ 24 + 64 * (ring - Config.ringCount)
  else s.cfg.ctxBase.toNat * 2 ^ 24 + 64 * ring

/-- BASE, COUNT and MINCLASS that apply to a VI's own rings or to its covered ones (R465, R571). -/
structure ViRange where
  base     : Nat
  count    : Nat
  minClass : Nat
  deriving DecidableEq, Repr

def coverOf (s : State) (v : ViId) : CoverVi := spGet ⟨0, 0, 0⟩ s.twin.vis v.toNat

def viRange (s : State) (covered : Bool) (v : ViId) : ViRange :=
  if covered then
    let r := (coverOf s v).rings
    ⟨Config.ringCount + field r 17 0, field r 36 18, field r 38 37⟩
  else
    let c := cfgVi s v
    ⟨c.ringBase.toNat, c.ringCount.toNat, c.minClass.toNat⟩

/-- The local index of a ring of a VI. -/
def localRing (s : State) (v : ViId) (ring : Nat) : Nat := ring - (viRange s (isCovered ring) v).base

/-- The cached context of a ring. -/
def cacheEntry (s : State) (ring : Nat) : Option CtxEntry := s.rings.cache.find? (fun e => decide (e.ring = ring))

/-- A context as it stands in device memory. -/
def memCtx (s : State) (ring : Nat) : RingCtx := ctxOf (BitVec.ofNat 512 (readNat s .device (ctxAddr s ring) 64))

/-- The states in which a ring may hold started work; a context loaded in one of them after a reset is taken as
HALTED (R561). -/
def RingState.carriesWork : RingState → Bool
  | .ready => true
  | .running => true
  | .blocked => true
  | .suspended => true
  | _ => false

/-- A ring's context: the cache's, else memory's. -/
def ctxOfRing (s : State) (ring : Nat) : RingCtx :=
  match cacheEntry s ring with
  | some e => e.ctx
  | none => memCtx s ring

/-- The started command of a ring. -/
def cmdOf (s : State) (ring : Nat) : Option RunCmd := s.rings.cmds.find? (fun c => decide (c.ring = ring))

def setCmd (s : State) (c : RunCmd) : State :=
  { s with rings := { s.rings with cmds := c :: s.rings.cmds.filter (fun x => decide (x.ring ≠ c.ring)) } }

def dropCmd (s : State) (ring : Nat) : State :=
  { s with rings := { s.rings with cmds := s.rings.cmds.filter (fun x => decide (x.ring ≠ ring)) } }

/-- The command that holds the chain. -/
def holderCmd (s : State) : Option RunCmd :=
  match s.rings.holder with
  | none => none
  | some r => cmdOf s r

def holderVi (s : State) : Option ViId := (holderCmd s).map (fun c => c.vi)

/-! ## Time -/

/-- Whether the chain receives fclk cycles (R664). -/
def fclkRuns (s : State) : Bool :=
  match s.pwr.state with
  | .gated => false
  | .retain => false
  | .off => false
  | .railOff => false
  | _ => true

/-- Stalls of the fclk that pass, against the causes of R626 and R629, by free amounts. -/
def countStalls (n : Nat) (s : State) : State :=
  match holderVi s with
  | some v => (List.range 6).foldl (fun s i => countFree (0x10 + i) (Config.stalledFclk n i) (some v) s) s
  | none =>
    if !s.rings.reads.isEmpty || s.rings.cache.any (fun e => decide (e.ctx.state = .ready) || decide (e.ctx.state = .suspended))
    then countFree 0xC0 (Config.stalledFclk n 6) none s else s

/-- The pins after `n` of the clock: TWN_ALIVE has toggled while the unit has power (R28), TST_SCAN shows scan data only while the
port is open (R49). -/
def movePins (n : Nat) (s : State) : Pins :=
  { twnAlive := if s.ctl.state = .off then s.pins.twnAlive else s.pins.twnAlive ^^ decide (Config.aliveToggles n % 2 = 1),
    tstScan := if s.ctl.test = .opened then Config.scanOut n else 0 }

/-- The clocks advance by free amounts: TCLK, EV_FCLK, and FCYC of the trace (log entry 8). -/
def advanceClock (s : State) : State :=
  let n := s.free
  let f := Config.elapsedFclk n
  let s1 := { s with free := n + 1, tclk := s.tclk + BitVec.ofNat 64 (Config.elapsedTclk n), pins := movePins n s }
  if !fclkRuns s then s1
  else
    let s2 := { s1 with fcyc := s1.fcyc + BitVec.ofNat 48 f }
    if s.cfg.freeze then s2
    else
      let u := bump48 s.ev.fclk f
      let s3 := { s2 with ev := { s2.ev with fclk := u.1, ovf := s2.ev.ovf ||| ovfBit 20 16 u.2 } }
      match holderVi s with
      | none => s3
      | some v => modVi s3 v (fun i =>
          let x := bump48 i.counters.fclk f
          { i with counters := { i.counters with fclk := x.1, ovf := i.counters.ovf ||| ovfBit 4 0 x.2 } })

/-- Issue slots that the slot rate withholds; in timing-repeatable mode each is a timing-only choice (R509), and the run of them
waits to be recorded (R520). -/
def countWithheld (n : Nat) (s : State) : State :=
  if s.pwr.slots = 16 then s
  else
    let k := Config.stalledFclk n 7
    let s1 := countThrottle k (holderVi s) s
    if s.det.trmActive then
      let s2 := countTimings k (holderVi s) s1
      { s2 with throttled := s2.throttled + k }
    else s1

/-- Time passes: stalls, withheld slots and the clocks advance by free amounts (log entry 8). -/
def tick (s0 : State) : State := advanceClock (countWithheld s0.free (countStalls s0.free s0))

/-! ## Device writes of the unit's own records -/

/-- Whether this unit is the secondary of a LOCKSTEP pair, which writes no device memory and sends no hinge packet
or shift request (R565). -/
def isSecondary (s : State) : Bool := decide (s.twin.mode = .lockstep) && !s.twin.primary

/-- A write to device memory: the sectors it covers whole lose their poison (R37). -/
def devWrite (s : State) (a : Nat) (bs : List Byte) : State :=
  if isSecondary s then s else
  let whole := (sectorsOf .device a bs.length).filter (fun k => decide (a ≤ 64 * k) && decide (64 * k + 64 ≤ a + bs.length))
  whole.foldl (fun s k => setSectorPoison s .device (64 * k) false) (writeBytes s .device a bs)

/-- A ring's context written: in the cache, where it then differs from memory, else in memory. -/
def setCtx (s : State) (ring : Nat) (c : RingCtx) : State :=
  match cacheEntry s ring with
  | some _ =>
    { s with rings := { s.rings with
        cache := updateWhere (fun e => decide (e.ring = ring)) (fun e => { e with ctx := c, dirty := true }) s.rings.cache } }
  | none => devWrite s (ctxAddr s ring) (natBytes 64 (ctxBits c).toNat)

def modCtx (s : State) (ring : Nat) (f : RingCtx → RingCtx) : State := setCtx s ring (f (ctxOfRing s ring))

def setRingState (s : State) (ring : Nat) (st : RingState) : State := modCtx s ring (fun c => { c with state := st })

/-- The same, counted as DEV_WR for a VI (R665). -/
def devWriteFor (v : ViId) (s : State) (a : Nat) (bs : List Byte) : State :=
  countEvent 0x24 (sectorsOf .device a bs.length).length (some v) (devWrite s a bs)

/-! ## Row slots (R258, R266) -/

def slotAt (s : State) (h : Nat) : Slot := spGet Slot.zero s.slots h

/-- OPEN of a VI's quota moves by one. -/
def quotaMove (up : Bool) (v : ViId) (s : State) : State :=
  modVi s v (fun i => { i with quotaOpen := if up then i.quotaOpen + 1 else i.quotaOpen - 1 })

/-- A slot written; OPEN of VI_QUOTA follows the slots that are open (R266). -/
def putSlot (s : State) (h : Nat) (x : Slot) : State :=
  let old := slotAt s h
  let s1 := if old.isOpen then quotaMove false old.owner s else s
  let s2 := if x.isOpen then quotaMove true x.owner s1 else s1
  { s2 with slots := spSet Slot.zero s2.slots h x }

def modSlot (s : State) (h : Nat) (f : Slot → Slot) : State := putSlot s h (f (slotAt s h))

/-! ## What a LOCKSTEP pair compares (R566, R567) -/

/-- A binary64 field in canonical form. -/
def canonF64 (x : W64) : W64 := if isNan (ofF64 x) then toF64 .nan else x

/-- A W38 field in canonical form. -/
def canonW38 (x : BitVec 38) : BitVec 38 := if isNan (ofW38 x) then toW38 .nan else x

/-- MAXV or MINV in canonical form, without its bits [39:38]. -/
def shownExtremum (x : Extremum) : List Nat := [(canonW38 x.value).toNat, x.index.toNat]

/-- A row slot in canonical form: its handle and its fields, without padding. -/
def shownSlot (h : Nat) (x : Slot) : List Nat :=
  [h, slotHeader x] ++ shownExtremum x.maxv ++ shownExtremum x.minv
    ++ [x.ref.toNat, (canonF64 x.fsum).toNat, (canonF64 x.fsumsq).toNat, x.xsum.toNat, x.xsumsq.toNat,
        (canonF64 (BitVec.ofNat 64 x.sw.toNat)).toNat, (canonF64 (BitVec.ofNat 64 (x.sw.toNat >>> 64))).toNat, x.dlink.toNat]

/-- A result that the next signature of a LOCKSTEP pair covers. -/
def showTwin (items : List Nat) (s : State) : State :=
  if s.twin.mode = .lockstep then { s with shown := s.shown ++ items } else s

/-- In LOCKSTEP the results since the last signature, with those of a vector or a completion, give a signature, which goes to the
twin (R566). -/
def lockstepFold (items : List Nat) (s : State) : State :=
  if s.twin.mode = .lockstep then
    let g := crc64 0 (Config.lockstepFrame (s.shown ++ items))
    emit { s with shown := [], twin := { s.twin with signature := g } } (.twinLink g)
  else s

/-! ## Vector registers (R169 to R173) -/

def regsOf (s : State) (ring : Nat) : RegFile := spGet [] s.rings.regs ring

/-- One 40-bit lane of a register file. -/
def regLane (f : RegFile) (reg lane : Nat) : BitVec 40 :=
  let r := spGet (⟨none, []⟩ : RegVal) f reg
  match spFind r.lanes lane with
  | some x => x
  | none => match r.undef with
    | some st => Config.undefLane st reg lane
    | none => 0

def setRegLane (f : RegFile) (reg lane : Nat) (x : BitVec 40) : RegFile :=
  let r := spGet (⟨none, []⟩ : RegVal) f reg
  let lanes := if r.undef = none then spSet 0 r.lanes lane x else spPut r.lanes lane x
  spSet ⟨none, []⟩ f reg { r with lanes := lanes }

/-- A ring's registers written, and marked changed (R484). -/
def setRegs (s : State) (ring : Nat) (f : RegFile) : State :=
  { s with rings := { s.rings with regs := spSet [] s.rings.regs ring f,
                                   regsChanged := setInsert s.rings.regsChanged ring } }

/-! ## The error log (R540 to R545) -/

/-- What an error names. -/
structure ErrArgs where
  cls      : Nat
  source   : Nat
  check    : Nat
  location : Nat
  ring     : Option (Nat × Nat × ViId)
  deriving DecidableEq, Repr

/-- The entry of R540 with VALID set. -/
def errEntry (e : ErrArgs) (time : Nat) : W128 :=
  let r : Nat := match e.ring with
    | none => 0
    | some (ring, seq, vi) => place seq 96 + place (ring % Config.ringCount) 78 + place vi.toNat 68
        + place (boolNat (isCovered ring)) 67 + place 1 1
  BitVec.ofNat 128 (r + place (time % 2 ^ 32) 32 + place (e.location % 2 ^ 20) 12 + place e.source 8
    + place e.check 5 + place e.cls 3 + 1)

def errSlot (s : State) (i : Nat) : W128 := spGet 0 s.log.entries i

/-- The entry that a new error takes: a free one, else the oldest CORRECTED one for an error of another class. -/
def errChoice (s : State) (cls : Nat) : Option Nat :=
  match (List.range 8).find? (fun i => !bit (errSlot s i) 0) with
  | some i => some i
  | none =>
    if cls = 0 then none
    else s.log.age.find? (fun i => decide (field (errSlot s i) 4 3 = 0) && !s.log.pinned.contains i)

/-- MGT_IRQ's line for a class (R544). -/
def irqLine (cls : Nat) : Nat := if cls = 0 then 0 else if cls = 2 then 2 else 1

/-- An error is logged or counted, and its line pulsed: the index of its entry, 0xFFFF when none was written. -/
def logError (e : ErrArgs) (s : State) : Nat × State :=
  let s := emit (tick s) (.mgtIrq (irqLine e.cls))
  let s := if e.cls = 0 then countEvent 0xC5 1 none s else s
  match errChoice s e.cls with
  | some i => (i, { s with log := { s.log with entries := spSet 0 s.log.entries i (errEntry e s.tclk.toNat),
                                               age := s.log.age.filter (fun k => decide (k ≠ i)) ++ [i] } })
  | none => (0xFFFF, if e.cls = 0 then s else countEvent 0xC6 1 none s)

/-- An entry named in a DETAIL is not overwritten (R543). -/
def pinError (i : Nat) (s : State) : State :=
  if i < 8 then { s with log := { s.log with pinned := setInsert s.log.pinned i } } else s

/-! ## Trace records (R519 to R521) -/

/-- A record's 32 bytes (R519). -/
def traceRecord (type vi a bseq fcyc b c : Nat) : TraceRecord :=
  BitVec.ofNat 256 (type + place (vi % 1024) 16 + place (a % 2 ^ 32) 32 + place (bseq % 2 ^ 64) 64
    + place (fcyc % 2 ^ 48) 128 + place (b % 2 ^ 16) 176 + place (c % 2 ^ 64) 192)

def traceSize (s : State) : Nat := 2 ^ s.cfg.traceLog2.toNat

/-- Whether the trace ring has no room for a record (R651). -/
def traceFull (s : State) : Bool :=
  decide ((s.det.wptr.toNat + 32) % traceSize s = s.cfg.traceRptr.toNat * 32 % traceSize s)

/-- Records leave the buffer for the trace ring while it has room. -/
def traceDrain : List TraceRecord → State → State
  | [], s => { s with det := { s.det with buffer := [] } }
  | r :: rest, s =>
    if traceFull s then { s with det := { s.det with buffer := r :: rest } }
    else
      let s1 := devWrite s (s.cfg.traceBase.toNat * 64 + s.det.wptr.toNat) (natBytes 32 r.toNat)
      traceDrain rest { s1 with det := { s1.det with
        wptr := BitVec.ofNat 32 ((s1.det.wptr.toNat + 32) % traceSize s) } }

def traceFlush (s : State) : State := traceDrain s.det.buffer s

/-- A record enters the buffer and leaves it while the trace ring has room (R521). When the buffer has filled behind a full ring,
TRACE_STALL 1 stops the unit at its next boundary, a timing-only choice of the VI given; a record that finds no place is dropped
(DESIGN CHOICE under TRACE_STALL 1, log entry 37). -/
def tracePut (charge : Option ViId) (r : TraceRecord) (s : State) : State :=
  if s.det.buffer.length < Config.traceRecords then
    let s1 := traceFlush { s with det := { s.det with buffer := s.det.buffer ++ [r] } }
    if s1.det.buffer.length < Config.traceRecords || !s1.cfg.traceStall || s1.det.stalled then s1
    else
      let s2 := countEvent 0xC8 1 none (countTiming charge s1)
      { s2 with det := { s2.det with stalled := true } }
  else countEvent 0xC9 1 none { s with det := { s.det with dropped := s.det.dropped + 1 } }

/-- The VI that a timing-only choice is charged to: that of the running ring, else that of the ring just chosen (R515). -/
def chargedVi (s : State) (chosen : Option ViId) : Option ViId :=
  match holderVi s with
  | some v => some v
  | none => chosen

/-- A record of the time that the clock shows now. -/
def traceNow (type : Nat) (charge vi : Option ViId) (a b c : Nat) (s : State) : State :=
  let s1 := advanceClock s
  tracePut charge (traceRecord type (match vi with | some v => v.toNat | none => 0) a s1.det.bseq.toNat s1.fcyc.toNat b c) s1

/-- A choice is recorded while recording is in effect. -/
def traceChoice (type : Nat) (vi : Option ViId) (a b c : Nat) (s : State) : State :=
  if s.det.traceActive then traceNow type (chargedVi s (if type = 2 then vi else none)) vi a b c s else s

/-- The throttled slots since the last decision are recorded as one run (R520, log entry 8). -/
def traceThrottle (s : State) : State :=
  if s.throttled = 0 then s
  else { traceChoice 5 (holderVi s) s.throttled 0 s.pwr.point.toNat s with throttled := 0 }

end Sys2Proof.Machine
end

