-- ==== Sys2Proof/Machine/Hinge.lean ====
section
/-! DEFINITION. Hinge chains: descriptors and shapes (R320 to R325), packets (R331 to R333, R378 to R380), combining
(R342, R343, R381), sending and credits (R336, R337), contributions, settling, retraction, FINAL and its commit
(R346 to R354). The rows that deliver packets and timers are in HingeEvents. -/

namespace Sys2Proof.Machine

/-! ## Descriptor images (R322) -/

def cdMembers (x : BitVec 512) : Nat := field x 6 0 + 1
def cdSelf (x : BitVec 512) : Nat := field x 14 8
def cdLevels (x : BitVec 512) : Nat := field x 29 28
/-- N of a level. -/
def cdGroup (x : BitVec 512) (lvl : Nat) : Nat :=
  match lvl with
  | 0 => field x 19 16 + 1
  | 1 => field x 23 20 + 1
  | _ => field x 27 24 + 1
def cdExact (x : BitVec 512) : Bool := bit x 32
def cdStar (x : BitVec 512) : Bool := bit x 33
def cdRetry (x : BitVec 512) : Bool := bit x 34
def cdKind (x : BitVec 512) : Nat := field x 36 35
def cdTable (x : BitVec 512) : Nat := field x 127 64
def cdRowBase (x : BitVec 512) : Nat := field x 143 128
def cdRows (x : BitVec 512) : Nat := field x 159 144
def cdEpoch0 (x : BitVec 512) : W32 := BitVec.ofNat 32 (field x 191 160)
/-- The member index of the keystone (R325). -/
def cdKeystone (x : BitVec 512) : Nat := cdMembers x - 1
def cdIsKeystone (x : BitVec 512) : Bool := decide (cdSelf x = cdKeystone x)

/-- A list cut into groups of `n`; `fuel` bounds the number of groups. -/
def chunks (n : Nat) : Nat → List Nat → List (List Nat)
  | 0, _ => []
  | fuel + 1, l => if l.isEmpty then [] else l.take n :: chunks n fuel (l.drop n)

/-- The members of a level (R325). -/
def levelMembers (x : BitVec 512) : Nat → List Nat
  | 0 => List.range (cdMembers x)
  | lvl + 1 => (chunks (cdGroup x lvl) 128 (levelMembers x lvl)).map (fun g => g.getLastD 0)

/-- The groups of a level. -/
def levelGroups (x : BitVec 512) (lvl : Nat) : List (List Nat) := chunks (cdGroup x lvl) 128 (levelMembers x lvl)

/-- The group of a member at a level. -/
def groupOf (x : BitVec 512) (lvl m : Nat) : Option (List Nat) := (levelGroups x lvl).find? (fun g => g.contains m)

def groupTail (g : List Nat) : Nat := g.getLastD 0

/-- Whether the shape closes in one group at its top level (R326). -/
def shapeCloses (x : BitVec 512) : Bool := decide ((levelGroups x (cdLevels x - 1)).length = 1)

/-- Levels from 0 at which a member takes part: it stops after the first where it is not the tail. -/
def memberLevels (x : BitVec 512) (m : Nat) : List Nat :=
  (List.range (cdLevels x)).filter (fun lvl => (groupOf x lvl m).isSome)

/-- The inputs that a member combines, in the order of R342: level and member. -/
def chainInputs (x : BitVec 512) (m : Nat) : List (Nat × Nat) :=
  (memberLevels x m).flatMap (fun lvl =>
    match groupOf x lvl m with
    | none => []
    | some g =>
      let pos := g.findIdx (fun k => decide (k = m))
      if cdStar x then (if groupTail g = m then (g.filter (fun k => decide (k ≠ m))).map (fun k => (lvl, k)) else [])
      else if pos = 0 then [] else [(lvl, g.getD (pos - 1) 0)])

/-- Where a member sends its combination: level and member; none at the keystone. -/
def upTarget (x : BitVec 512) (m : Nat) : Option (Nat × Nat) :=
  match (memberLevels x m).find? (fun lvl => match groupOf x lvl m with
      | some g => decide (groupTail g ≠ m)
      | none => false) with
  | none => none
  | some lvl =>
    match groupOf x lvl m with
    | none => none
    | some g =>
      let pos := g.findIdx (fun k => decide (k = m))
      some (lvl, if cdStar x then groupTail g else g.getD (pos + 1) 0)

/-! ## Epochs (R339) -/

/-- x is later than y. -/
def epochLater (x y : W32) : Bool := decide (1 ≤ (x - y).toNat) && decide ((x - y).toNat ≤ 2 ^ 31)

/-- x is earlier than y. -/
def epochEarlier (x y : W32) : Bool := decide (2 ^ 31 < (x - y).toNat)

def chainAt (s : State) (c : Nat) : ChainDesc := spGet ChainDesc.invalid s.chains c
def setChain (s : State) (c : Nat) (d : ChainDesc) : State := { s with chains := spSet ChainDesc.invalid s.chains c d }
def modChain (s : State) (c : Nat) (f : ChainDesc → ChainDesc) : State := setChain s c (f (chainAt s c))

def Epoch.fresh (e : W32) : Epoch :=
  { number := e, phase := .opened, reason := .ok, own := [], unsettledSent := false,
    noticed := false, inputs := [], settledNotices := [], forwarded := [], sent := [], final := [],
    finalSettled := false, finalSent := false, committed := false, nacked := false, timer := false, consumer := none }

def epochAt (d : ChainDesc) (e : W32) : Epoch := (d.epochs.find? (fun x => decide (x.number = e))).getD (Epoch.fresh e)

def setEpoch (d : ChainDesc) (x : Epoch) : ChainDesc :=
  { d with epochs := d.epochs.filter (fun y => decide (y.number ≠ x.number)) ++ [x] }

def modEpoch (s : State) (c : Nat) (e : W32) (f : Epoch → Epoch) : State :=
  modChain s c (fun d => setEpoch d (f (epochAt d e)))

/-! ## Row payloads (R332, R333, R378, R380) -/

def RowStat.zero : RowStat :=
  { fsum := 0, fsumsq := 0, xsum := 0, xsumsq := 0, maxv := emptyMax, minv := emptyMin, count := 0, flushes := 0,
    ref := refUnset, flags := 0 }

/-- FLAGS of a slot's row payload (R333). -/
def slotFlags (s : Slot) : BitVec 8 :=
  BitVec.ofNat 8 (boolNat s.xnan + 2 * boolNat s.xpinf + 4 * boolNat s.xninf + 8 * boolNat s.xover + 16 * boolNat s.poison)

/-- A slot as a chain row; an exact slot's sums read as binary64 by R242. -/
def statOfSlot (s : Slot) : RowStat :=
  let v := slotViews s
  { fsum := v.fsum, fsumsq := v.fsumsq, xsum := s.xsum, xsumsq := s.xsumsq, maxv := s.maxv, minv := s.minv,
    count := s.count, flushes := s.flushes, ref := s.ref, flags := slotFlags s }

def ptypeFstat : Nat := 0
def ptypeXstat : Nat := 1
def ptypeExtrema : Nat := 2
def ptypeNfin : Nat := 3
def ptypeCand : Nat := 4
def ptypeToken : Nat := 5
def ptypeNone : Nat := 15

/-- Bytes of one row's payload; CAND payloads vary. -/
def payloadBytes (pt : Nat) : Nat := if pt = ptypeXstat then 192 else 32

def fstatBytes (r : RowStat) : List Byte :=
  natBytes 8 r.fsum.toNat ++ natBytes 8 r.fsumsq.toNat ++ natBytes 6 r.count.toNat ++ natBytes 2 r.ref.toNat
    ++ natBytes 8 r.flags.toNat

def xstatBytes (r : RowStat) : List Byte :=
  natBytes 80 r.xsum.toNat ++ natBytes 80 r.xsumsq.toNat ++ natBytes 10 (extremumNat r.maxv)
    ++ natBytes 10 (extremumNat r.minv) ++ natBytes 6 r.count.toNat ++ natBytes 2 r.flushes.toNat
    ++ natBytes 2 r.ref.toNat ++ natBytes 2 r.flags.toNat

def extremaBytes (r : RowStat) : List Byte :=
  natBytes 10 (extremumNat r.maxv) ++ natBytes 10 (extremumNat r.minv) ++ natBytes 6 r.count.toNat
    ++ natBytes 6 r.flags.toNat

def nfinBytes (f0 f1 : W64) (count : BitVec 48) (flags : BitVec 8) : List Byte :=
  natBytes 8 f0.toNat ++ natBytes 8 f1.toNat ++ natBytes 6 count.toNat ++ natBytes 10 flags.toNat

def statBytes (pt : Nat) (r : RowStat) : List Byte :=
  if pt = ptypeFstat then fstatBytes r else if pt = ptypeXstat then xstatBytes r else extremaBytes r

/-- A chain row from its payload. -/
def statOf (pt : Nat) (bs : List Byte) : RowStat :=
  let n (a k : Nat) := imageField bs a k
  if pt = ptypeFstat then
    { RowStat.zero with fsum := BitVec.ofNat 64 (n 0 8), fsumsq := BitVec.ofNat 64 (n 8 8),
                        count := BitVec.ofNat 48 (n 16 6), ref := BitVec.ofNat 16 (n 22 2),
                        flags := BitVec.ofNat 8 (n 24 1 % 32) }
  else if pt = ptypeXstat then
    { RowStat.zero with xsum := BitVec.ofNat 640 (n 0 80), xsumsq := BitVec.ofNat 640 (n 80 80),
                        maxv := extremumOf (n 160 10), minv := extremumOf (n 170 10),
                        count := BitVec.ofNat 48 (n 180 6), flushes := BitVec.ofNat 16 (n 186 2),
                        ref := BitVec.ofNat 16 (n 188 2), flags := BitVec.ofNat 8 (n 190 1 % 32) }
  else
    { RowStat.zero with maxv := extremumOf (n 0 10), minv := extremumOf (n 10 10),
                        count := BitVec.ofNat 48 (n 20 6), flags := BitVec.ofNat 8 (n 26 1 % 32) }

/-- One CAND chunk (R378). -/
def candBytes (first : Nat) (r : ChainRow) : List Byte :=
  natBytes 2 first ++ natBytes 2 r.k ++ natBytes 2 r.list.entries.length
    ++ natBytes 10 (16 * boolNat r.list.poisoned + r.stat.flags.toNat % 16)
    ++ ((r.list.entries.drop first).take 31).flatMap (fun c =>
      natBytes 8 (toF64 (ofW38 c.value)).toNat ++ natBytes 8 c.index)

/-- A TOKEN row (R380). -/
def tokenBytes (draws : List (BitVec 40)) (number : Nat) (flags : BitVec 8) : List Byte :=
  (List.range 4).flatMap (fun i => natBytes 5 (draws.getD i emptyIndex).toNat)
    ++ natBytes 1 (number - 1) ++ natBytes 11 flags.toNat

def ChainRow.ofStat (r : RowStat) : ChainRow := ⟨r, ⟨[], false⟩, 0⟩
def ChainRow.ofList (k : Nat) (l : CandList) : ChainRow := ⟨RowStat.zero, l, k⟩

/-- PTYPE of a chain's contributions. -/
def partialType (x : BitVec 512) : Nat :=
  match cdKind x with
  | 0 => if cdExact x then ptypeXstat else ptypeFstat
  | 1 => ptypeExtrema
  | _ => ptypeCand

/-! ## Combining (R343, R381) -/

/-- FSUM or FSUMSQ scaled down by 2^d and rounded to binary64. -/
def f64Down (d : Nat) (x : W64) : W64 := if d = 0 then x else f64Round (vscale (ofF64 x) (-(d : Int)))

/-- The sums of a state moved to reference g; zero when its reference is unset and the other's is set. -/
def statToRef (exact : Bool) (g : BitVec 16) (r : RowStat) : RowStat :=
  if g = refUnset then r
  else if r.ref = refUnset then { r with fsum := 0, fsumsq := 0, xsum := 0, xsumsq := 0 }
  else
    let d := (g.toInt - r.ref.toInt).toNat
    if exact then { r with xsum := exactShr r.xsum d, xsumsq := exactShr r.xsumsq d }
    else { r with fsum := f64Down d r.fsum, fsumsq := f64Down d r.fsumsq }

/-- g = max of the references that are set. -/
def refMax (a b : BitVec 16) : BitVec 16 :=
  if a = refUnset then b else if b = refUnset then a else if a.toInt < b.toInt then b else a

/-- COUNT added with a clamp at 2^48 - 1. -/
def countClamp (a b : BitVec 48) : BitVec 48 := BitVec.ofNat 48 (min (a.toNat + b.toNat) (2 ^ 48 - 1))

def flushAdd (a b : BitVec 16) : BitVec 16 := BitVec.ofNat 16 (min (a.toNat + b.toNat) 0xFFFF)

/-- combine(a, b) for sums (R343). -/
def combineSums (exact trap : Bool) (a b : RowStat) : RowStat :=
  let g := refMax a.ref b.ref
  let x := statToRef exact g a
  let y := statToRef exact g b
  let many : BitVec 8 := if exact && decide (2 ^ 40 < a.count.toNat + b.count.toNat) then 8 else 0
  { fsum := if exact then x.fsum else (f64Add x.fsum y.fsum).1,
    fsumsq := if exact then x.fsumsq else (f64Add x.fsumsq y.fsumsq).1,
    xsum := if exact then x.xsum + y.xsum else x.xsum, xsumsq := if exact then x.xsumsq + y.xsumsq else x.xsumsq,
    maxv := if exact then extremumMerge true trap x.maxv y.maxv else x.maxv,
    minv := if exact then extremumMerge false trap x.minv y.minv else x.minv,
    count := countClamp a.count b.count,
    flushes := if exact then flushAdd a.flushes b.flushes else a.flushes,
    ref := g, flags := a.flags ||| b.flags ||| many }

/-- combine(a, b) for extrema. -/
def combineExtrema (trap : Bool) (a b : RowStat) : RowStat :=
  { a with maxv := extremumMerge true trap a.maxv b.maxv, minv := extremumMerge false trap a.minv b.minv,
           count := countClamp a.count b.count, flags := a.flags ||| b.flags }

/-- combine(a, b) of a chain; of candidate lists too the FLAGS are ORed (R381), of which bits 0 to 3 stand in `stat`. -/
def combineRows (d : ChainDesc) (a b : ChainRow) : ChainRow :=
  match cdKind d.image with
  | 0 => { a with stat := combineSums (cdExact d.image) d.nanTrap a.stat b.stat }
  | 1 => { a with stat := combineExtrema d.nanTrap a.stat b.stat }
  | _ => { a with list := candMerge a.k a.list b.list, stat := { a.stat with flags := a.stat.flags ||| b.stat.flags } }

/-- The inputs of a row at a level, in the order in which they are combined: arrival order at a fast star tail,
else the order of R342. -/
def orderedInputs (d : ChainDesc) (e : Epoch) (row : Nat) : List Input :=
  let want := chainInputs d.image (cdSelf d.image)
  let have_ (lm : Nat × Nat) := e.inputs.filter (fun i => decide (i.row = row) && decide (i.level = lm.1) && decide (i.member = lm.2))
  if cdStar d.image && !cdExact d.image && decide (cdKind d.image = 0) then
    (List.range 3).flatMap (fun lvl =>
      e.inputs.filter (fun i => decide (i.row = row) && decide (i.level = lvl) && want.contains (i.level, i.member)))
  else want.flatMap have_

/-- Whether every input of a row is present, whole. -/
def rowReady (d : ChainDesc) (e : Epoch) (row : Nat) : Bool :=
  (chainInputs d.image (cdSelf d.image)).all (fun lm =>
    e.inputs.any (fun i => decide (i.row = row) && decide (i.level = lm.1) && decide (i.member = lm.2) && decide (i.missing = 0)))

/-- The combination of a row: in a line an input stands before the member's own state, in a star after it. -/
def combineRow (d : ChainDesc) (e : Epoch) (row : Nat) (own : ChainRow) : ChainRow :=
  (orderedInputs d e row).foldl
    (fun v i => if cdStar d.image then combineRows d v i.value
      else { combineRows d i.value v with k := v.k }) own

/-- Whether every input combined into a row is settled. -/
def rowSettled (d : ChainDesc) (e : Epoch) (row : Nat) : Bool :=
  (orderedInputs d e row).all (fun i => i.settled)

/-- A chain row with POISON set. -/
def poisonChainRow (r : ChainRow) : ChainRow :=
  { r with stat := { r.stat with flags := r.stat.flags ||| 16 }, list := { r.list with poisoned := true } }

/-- A word of the hinge input store fails: what it holds of an input is poisoned (R537). -/
def poisonInput (c m row : Nat) (s : State) : State :=
  modChain s c (fun d => { d with epochs := d.epochs.map (fun x => { x with
    inputs := x.inputs.map (fun i => if i.member = m ∧ i.row = row then { i with value := poisonChainRow i.value } else i) }) })

/-! ## Packets -/

/-- The fields of a hinge header. -/
structure HingeHead where
  type    : Nat
  settled : Bool
  ptype   : Nat
  level   : Nat
  reason  : Nat
  reply   : Bool
  chain   : Nat
  epoch   : W32
  member  : Nat
  rows    : Nat
  dst     : Nat
  row0    : Nat
  len     : Nat
  deriving DecidableEq, Repr

/-- A header flit from its fields and the sender's incarnation and address (R331). -/
def headBits (h : HingeHead) (inc : BitVec 16) (src : BitVec 16) : BitVec 512 :=
  BitVec.ofNat 512 (h.type + place (boolNat h.settled) 3 + place h.ptype 4 + place h.level 8 + place h.reason 10
    + place (boolNat h.reply) 14 + place h.chain 16 + place h.epoch.toNat 32 + place h.member 64 + place h.rows 72
    + place inc.toNat 80 + place src.toNat 96 + place h.dst 112 + place h.row0 128 + place h.len 144)

def hdType (x : BitVec 512) : Nat := field x 2 0
def hdSettled (x : BitVec 512) : Bool := bit x 3
def hdPtype (x : BitVec 512) : Nat := field x 7 4
def hdLevel (x : BitVec 512) : Nat := field x 9 8
def hdReason (x : BitVec 512) : Nat := field x 13 10
def hdReply (x : BitVec 512) : Bool := bit x 14
def hdChain (x : BitVec 512) : Nat := field x 25 16
def hdEpoch (x : BitVec 512) : W32 := BitVec.ofNat 32 (field x 63 32)
def hdMember (x : BitVec 512) : Nat := field x 70 64
def hdRows (x : BitVec 512) : Nat := field x 76 72
def hdInc (x : BitVec 512) : BitVec 16 := BitVec.ofNat 16 (field x 95 80)
def hdSrc (x : BitVec 512) : BitVec 16 := BitVec.ofNat 16 (field x 111 96)
def hdRow0 (x : BitVec 512) : Nat := field x 143 128
def hdLen (x : BitVec 512) : Nat := field x 153 144

/-- Flits of a packet: its header and ceil(LEN / 64). -/
def packetFlits (p : HingePacket) : Nat := 1 + ceilDiv (hdLen p.header) 64

/-- The virtual channel of a type (R335). -/
def packetChannel (p : HingePacket) : Nat :=
  match hdType p.header with
  | 0 => 0
  | 1 => 1
  | 4 => 3
  | _ => 2

/-! ## Sending (R336, R337) -/

/-- Header bits that a packet's type does not use: SETTLED at 3, LEVEL at 8, REASON at 10, REPLY at 14, and MEMBER at 64
of a NACK that says the sender has no descriptor. -/
def unusedHeadMask (x : BitVec 512) : BitVec 512 :=
  match hdType x with
  | 0 => 0x7C00
  | 1 => 0x7F00
  | 2 => 0x7F08
  | 3 => if hdReason x = 3 then BitVec.ofNat 512 (0x4308 + place 127 64) else 0x4308
  | _ => 0x3F08

/-- A packet as it is driven: the bits that its type does not use have no stated value. -/
def onWire (p : HingePacket) : HingePacket :=
  { p with header := p.header ||| (Config.unusedHead (hdType p.header) &&& unusedHeadMask p.header) }

/-- Where the payload of a type holds binary64 fields, and where it holds extrema (R332, R378). -/
def payloadReals (pt n : Nat) : List Nat × List Nat :=
  let rows (size : Nat) (offs : List Nat) : List Nat := (List.range (n / size)).flatMap (fun r => offs.map (fun o => size * r + o))
  if pt = ptypeFstat || pt = ptypeNfin then (rows 32 [0, 8], [])
  else if pt = ptypeXstat then ([], rows 192 [160, 170])
  else if pt = ptypeExtrema then ([], rows 32 [0, 10])
  else if pt = ptypeCand then ((List.range ((n - 16) / 16)).map (fun i => 16 + 16 * i), [])
  else ([], [])

/-- Bytes with a field at `a` replaced. -/
def putField (bs : List Byte) (a : Nat) (x : List Byte) : List Byte := bs.take a ++ x ++ bs.drop (a + x.length)

/-- A packet as a LOCKSTEP pair compares it (R567): its header without SRC and INC, its payload with canonical NaNs. -/
def shownPacket (p : HingePacket) : List Nat :=
  let bs := p.payload.take (hdLen p.header)
  let at_ := payloadReals (hdPtype p.header) bs.length
  let b1 := at_.1.foldl (fun b a => putField b a (natBytes 8 (canonF64 (BitVec.ofNat 64 (imageField b a 8))).toNat)) bs
  let b2 := at_.2.foldl (fun b a =>
    let x := extremumOf (imageField b a 10)
    putField b a (natBytes 10 (extremumNat { x with value := canonW38 x.value }))) b1
  (p.header.toNat - place (field p.header 111 80) 80) :: b2.map (fun b => b.toNat)

/-- A packet leaves: over HNG_TX while it has credits for all its flits and none waits before it on its channel. -/
def hingeOut (twin : Bool) (owner : ViId) (p : HingePacket) (s0 : State) : State :=
  let s := showTwin (shownPacket p) s0
  let ch := packetChannel p
  let n := packetFlits p
  let c := spGet 0 s.hinge.credits ch
  if isSecondary s then s
  else if twin then countEvent 0x50 1 (some owner) (emit s (.hngTx true (onWire p)))
  else if s.hinge.waiting.any (fun q => decide (packetChannel q = ch)) || decide (c < n) then
    { s with hinge := { s.hinge with waiting := s.hinge.waiting ++ [p] } }
  else
    countEvent 0x50 1 (some owner)
      (emit { s with hinge := { s.hinge with credits := spSet 0 s.hinge.credits ch (c - n) } } (.hngTx false (onWire p)))

/-- The member-table entry that a descriptor holds for a member. -/
def hopEntry (d : ChainDesc) (m : Nat) : BitVec 32 := spGet 0 d.hops m
def entryAddr (e : BitVec 32) : Nat := field e 15 0
/-- The twin's unit address: tiles 2k and 2k+1 of one chip are twins (R17, R324). -/
def twinAddress (s : State) : BitVec 16 := s.mg.unitAddress ^^^ 1
/-- R323: whether packets go over the twin link. -/
def entryTwin (s : State) (e : BitVec 32) : Bool := bit e 16 && decide (entryAddr e = (twinAddress s).toNat)

def sendHead (h : HingeHead) (twin : Bool) (owner : ViId) (payload : List Byte) (s : State) : State :=
  hingeOut twin owner ⟨headBits h s.ctl.incarnation s.mg.unitAddress, payload⟩ s

def HingeHead.blank (type chain : Nat) (epoch : W32) (member dst : Nat) : HingeHead :=
  { type := type, settled := false, ptype := ptypeNone, level := 0, reason := 0, reply := false, chain := chain,
    epoch := epoch, member := member, rows := 0, dst := dst, row0 := 0, len := 0 }

/-- A packet without payload to a member. -/
def sendPlain (type reason : Nat) (reply : Bool) (c : Nat) (epoch : W32) (entry : BitVec 32) (s : State) : State :=
  let d := chainAt s c
  sendHead { HingeHead.blank type c epoch (cdSelf d.image) (entryAddr entry) with reason := reason, reply := reply }
    (entryTwin s entry) d.owner [] s

def typePartial : Nat := 0
def typeFinal : Nat := 1
def typeRetract : Nat := 2
def typeNack : Nat := 3
def typeProbe : Nat := 4

/-- The member table's entry of a member, read from device memory (R323). -/
def tableEntry (s : State) (d : ChainDesc) (m : Nat) : BitVec 32 :=
  BitVec.ofNat 32 (readNat s .device (cdTable d.image + 4 * m) 4)

/-! ## Retraction (R352, R353) -/

def sendRetract (c : Nat) (epoch : W32) (entry : BitVec 32) (s : State) : State :=
  countEvent 0x55 1 (some (chainAt s c).owner) (sendPlain typeRetract 0 false c epoch entry s)

/-- RETRACT to every other member, by the keystone (R352). -/
def retractAll (c : Nat) (epoch : W32) (s : State) : State :=
  let d := chainAt s c
  ((List.range (cdMembers d.image)).filter (fun m => decide (m ≠ cdSelf d.image))).foldl
    (fun s m => sendRetract c epoch (tableEntry s d m) s) s

/-- Flit credits of a receive channel return to the sender (R337). -/
def returnFlits (ch n : Nat) (s : State) : State :=
  emit { s with hinge := { s.hinge with granted := spSet 0 s.hinge.granted ch (spGet 0 s.hinge.granted ch + n) } } (.hngRxCredit ch n)

/-- Credits that the input store withheld return when it has room again (R339). -/
def storeUsed (s : State) : Nat :=
  s.chains.foldl (fun n c => n + c.2.epochs.foldl (fun k e => k + e.inputs.length) 0) 0

def storeRelease (s : State) : State :=
  if 0 < s.hinge.withheld ∧ storeUsed s < Config.hingeStore then
    returnFlits 0 s.hinge.withheld { s with hinge := { s.hinge with withheld := 0 } }
  else s

/-- The wait of the consuming command of an epoch ends. -/
def wakeConsumer (c : Nat) (s : State) : State :=
  { s with rings := { s.rings with cmds := s.rings.cmds.map (fun x =>
      match x.phase, x.wait with
      | .blocked _, .final k => if k = c then { x with phase := .blocked true } else x
      | _, _ => x) } }

/-- Every input and held FINAL of an epoch is discarded and the epoch closed (R353). -/
def closeEpoch (c : Nat) (e : W32) (reason : Status) (s : State) : State :=
  storeRelease (wakeConsumer c (modEpoch s c e (fun x =>
    { x with phase := .closed, reason := reason, inputs := [], final := [], finalSettled := false, timer := false,
             sent := [] })))

/-- Whether an epoch is over at this member. -/
def Epoch.isOver (e : Epoch) : Bool := decide (e.phase = .done) || decide (e.phase = .closed)

/-- A member fails an epoch: RETRACT to the keystone, or from the keystone to all others, and the epoch closes
(R352, R358, R361). -/
def failEpoch (c : Nat) (e : W32) (reason : Status) (s : State) : State :=
  let d := chainAt s c
  let x := epochAt d e
  if x.isOver || x.finalSent then s
  else
    let s1 := if cdIsKeystone d.image then retractAll c e s
      else sendRetract c e (hopEntry d (cdKeystone d.image)) s
    closeEpoch c e reason s1

/-! ## Sending contributions upward (R342, R350) -/

/-- One PARTIAL with a payload to the member above, kept for a resend. -/
def sendPartial (c : Nat) (e : W32) (settled : Bool) (pt row0 rows : Nat) (payload : List Byte) (s : State) : State :=
  let d := chainAt s c
  match upTarget d.image (cdSelf d.image) with
  | none => s
  | some (lvl, m) =>
    let entry := hopEntry d m
    let h : HingeHead := { HingeHead.blank typePartial c e (cdSelf d.image) (entryAddr entry) with
      settled := settled, ptype := pt, level := lvl, rows := rows, row0 := row0, len := payload.length }
    let p : HingePacket := ⟨headBits h s.ctl.incarnation s.mg.unitAddress, payload⟩
    hingeOut (entryTwin s entry) d.owner p
      (modEpoch s c e (fun x => { x with
        sent := x.sent ++ [⟨lvl, m, p, false⟩], unsettledSent := x.unsettledSent || !settled,
        phase := if x.phase = .opened then .sent else x.phase, timer := true }))

/-- The packets that carry one candidate list (R379). -/
def sendList (c : Nat) (e : W32) (settled : Bool) (row : Nat) (r : ChainRow) (s : State) : State :=
  (List.range (ceilDiv (max r.list.entries.length 1) 31)).foldl
    (fun s i => sendPartial c e settled ptypeCand row 1 (candBytes (31 * i) r) s) s

/-- Rows cut into runs of consecutive rows, at most `n` each. -/
def rowRuns (n : Nat) : List Nat → List (List Nat)
  | [] => []
  | r :: rest =>
    match rowRuns n rest with
    | (q :: run) :: more => if q = r + 1 ∧ run.length + 1 < n then (r :: q :: run) :: more else [r] :: (q :: run) :: more
    | more => [r] :: more

/-- The member's own state of a row. -/
def ownValue (x : Epoch) (r : Nat) : ChainRow :=
  match spFind x.own r with
  | some o => o.value
  | none => ChainRow.ofStat RowStat.zero

/-- Whether the member's contribution to a row is settled: the command that contributed it has succeeded, and every input
combined into it is settled (R350). -/
def contributionSettled (d : ChainDesc) (x : Epoch) (r : Nat) : Bool :=
  (match spFind x.own r with | some o => o.settled | none => false) && rowSettled d x r

/-- HINGE_ORDER of each input that a fast star tail adds: its position in the arrival order of its level, in four bits (R520). -/
def traceOrder (c : Nat) (e : W32) (row : Nat) (owner : ViId) (ins : List Input) (s : State) : State :=
  (ins.zipIdx).foldl (fun s i =>
    let pos := ((ins.take i.2).filter (fun y => decide (y.level = i.1.level))).length
    traceChoice 4 (some owner) e.toNat row (c + place i.1.level 10 + place i.1.member 12 + place (pos % 16) 19) s) s

/-- Every row whose own state and inputs are present and that has not been sent is combined and sent; at a fast star
tail each addition counts as a bit-affecting choice (R344) and is recorded. -/
def forwardRows (c : Nat) (e : W32) (s : State) : State :=
  let d := chainAt s c
  let x := epochAt d e
  let self := cdSelf d.image
  match upTarget d.image self with
  | none => s
  | some (lvl, _) =>
    if x.isOver then s
    else
      let rows := (x.own.map (fun r => r.1)).filter (fun r => rowReady d x r && !x.forwarded.contains (lvl, r))
      let settledRow (r : Nat) := contributionSettled d x r
      let pt := partialType d.image
      let value (r : Nat) := combineRow d x r (ownValue x r)
      let s1 := modEpoch s c e (fun y => { y with forwarded := y.forwarded ++ rows.map (fun r => (lvl, r)) })
      let s2 := if pt = ptypeCand then rows.foldl (fun s r => sendList c e (settledRow r) r (value r) s) s1
        else
          let send (set : Bool) (s : State) :=
            (rowRuns (512 / payloadBytes pt) (rows.filter (fun r => settledRow r = set))).foldl
              (fun s run => sendPartial c e set pt (run.headD 0) run.length
                (run.flatMap (fun r => statBytes pt (value r).stat)) s) s
          send false (send true s1)
      let fast := cdStar d.image && !cdExact d.image && decide (cdKind d.image = 0)
      if fast then rows.foldl (fun s r =>
          let ins := orderedInputs d x r
          let s' := countBits ins.length d.owner s
          traceOrder c e r d.owner ins s') s2
      else s2

/-- When the contribution, some of it sent unsettled, has settled, one notice goes up (R350). DEDUCED (log entry 40): as the
notice speaks for the whole chain range, it waits until every row of the range has been sent and is settled. -/
def settleNotice (c : Nat) (e : W32) (s : State) : State :=
  let d := chainAt s c
  let x := epochAt d e
  if x.unsettledSent && !x.noticed && !x.isOver
      && (List.range (cdRows d.image)).all (fun r => x.forwarded.any (fun f => decide (f.2 = r)) && contributionSettled d x r) then
    sendPartial c e true ptypeNone 0 0 [] (modEpoch s c e (fun y => { y with noticed := true }))
  else s

/-! ## The keystone's FINAL (R346, R347) -/

/-- Whether the keystone holds every row, settled. -/
def keystoneReady (d : ChainDesc) (x : Epoch) : Bool :=
  (List.range (cdRows d.image)).all (fun r => rowReady d x r && contributionSettled d x r)

/-- The combined rows at the keystone. -/
def combinedRow (d : ChainDesc) (x : Epoch) (r : Nat) : ChainRow :=
  combineRow d x r (ownValue x r)

/-- PTYPE of a FINAL row. -/
def finalType (d : ChainDesc) : FinalRow → Nat
  | .nfin .. => ptypeNfin
  | .stat _ => if cdKind d.image = 1 then ptypeExtrema else if cdExact d.image then ptypeXstat else ptypeFstat
  | .list .. => ptypeCand
  | .token .. => ptypeToken

def finalBytes (pt : Nat) : FinalRow → List Byte
  | .nfin f0 f1 c fl => nfinBytes f0 f1 c fl
  | .stat r => statBytes pt r
  | .list r _ => candBytes 0 r
  | .token ds n fl => tokenBytes ds n fl

/-- The packets of a FINAL to one member. -/
def sendFinalTo (c : Nat) (e : W32) (entry : BitVec 32) (rows : List (Nat × FinalRow)) (s : State) : State :=
  let d := chainAt s c
  let head (pt row0 n len : Nat) : HingeHead :=
    { HingeHead.blank typeFinal c e (cdSelf d.image) (entryAddr entry) with
      settled := true, ptype := pt, rows := n, row0 := row0, len := len }
  let send (pt row0 n : Nat) (payload : List Byte) (s : State) : State :=
    sendHead (head pt row0 n payload.length) (entryTwin s entry) d.owner payload s
  let pt := finalType d ((rows.map (fun r => r.2)).headD (.stat RowStat.zero))
  if pt = ptypeCand then
    rows.foldl (fun s r => match r.2 with
      | .list v _ => (List.range (ceilDiv (max v.list.entries.length 1) 31)).foldl
          (fun s i => send ptypeCand r.1 1 (candBytes (31 * i) v) s) s
      | _ => s) s
  else
    (rowRuns (512 / payloadBytes pt) (rows.map (fun r => r.1))).foldl
      (fun s run => send pt (run.headD 0) run.length
        (run.flatMap (fun r => finalBytes pt (spGet (.stat RowStat.zero) rows r))) s) s

/-- FINAL to every other member in increasing member index; the keystone holds it for its own commit. -/
def sendFinal (c : Nat) (e : W32) (rows : List (Nat × FinalRow)) (s : State) : State :=
  let d := chainAt s c
  let s1 := ((List.range (cdMembers d.image)).filter (fun m => decide (m ≠ cdSelf d.image))).foldl
    (fun s m => sendFinalTo c e (tableEntry s d m) rows s) s
  modEpoch s1 c e (fun x => { x with final := rows, finalSettled := true, finalSent := true })

/-- The keystone builds and sends FINAL when everything is there and its consuming command has started; `make` gives a
row's payload from the combined row. Bit-affecting additions of a fast star tail count here. -/
def keystoneFinal (c : Nat) (e : W32) (make : Nat → ChainRow → FinalRow) (s : State) : State :=
  let d := chainAt s c
  let x := epochAt d e
  if x.isOver || x.finalSent || !keystoneReady d x then s
  else
    let rows := (List.range (cdRows d.image)).map (fun r => (r, make r (combinedRow d x r)))
    let fast := cdStar d.image && !cdExact d.image && decide (cdKind d.image = 0)
    let s1 := if fast then (List.range (cdRows d.image)).foldl (fun s r =>
        let ins := orderedInputs d x r
        let s' := countBits ins.length d.owner s
        traceOrder c e r d.owner ins s') s
      else s
    sendFinal c e rows s1

/-! ## Contributions (R341, R350) -/

/-- Own rows of a command enter the current epoch, settled or not; those whose inputs are present are sent. A row already
contributed is not replaced. Lists already received with another K fail the epoch (R382, R334). -/
def contributeRows (c : Nat) (rows : List (Nat × ChainRow)) (rc : RunCmd) (settled : Bool) (s : State) : State :=
  let d := chainAt s c
  let x := epochAt d d.epoch
  if x.isOver then s
  else
    let own := rows.foldl (fun o r =>
      if (spFind o r.1).isSome then o else spPut o r.1 ⟨r.2, rc.ring, rc.seq, settled⟩) x.own
    let s1 := modEpoch s c d.epoch (fun y => { y with own := own })
    let foreign := decide (2 ≤ cdKind d.image) && own.any (fun r => x.inputs.any (fun i => decide (i.value.k ≠ r.2.value.k)))
    if foreign then failEpoch c d.epoch .retracted (countEvent 0x52 1 (some d.owner) s1)
    else settleNotice c d.epoch (forwardRows c d.epoch s1)

/-- The chain rows of a range of slots. -/
def slotRows (s : State) (row0 rows : Nat) : List (Nat × ChainRow) :=
  (List.range rows).map (fun r => (r, ChainRow.ofStat (statOfSlot (slotAt s (row0 + r)))))

/-- Whether a command contributed an own row. -/
def OwnRow.isOf (rc : RunCmd) (o : OwnRow) : Bool := decide (o.ring = rc.ring) && decide (o.seq = rc.seq)

/-- The epochs of a chain that a command contributed to. -/
def epochsOf (d : ChainDesc) (rc : RunCmd) : List Epoch := d.epochs.filter (fun x => x.own.any (fun o => o.2.isOf rc))

/-- A command has succeeded: what it contributed is settled on its part (R350). -/
def settleOwn (c : Nat) (rc : RunCmd) (s : State) : State :=
  (epochsOf (chainAt s c) rc).foldl (fun s x =>
    settleNotice c x.number (modEpoch s c x.number (fun y =>
      { y with own := y.own.map (fun o => (o.1, if o.2.isOf rc then { o.2 with settled := true } else o.2)) }))) s

/-- A command has failed: each epoch for which it contributed and whose contribution is not settled is retracted (R352). -/
def retractOwn (c : Nat) (rc : RunCmd) (s : State) : State :=
  let d := chainAt s c
  ((epochsOf d rc).filter (fun x => x.own.any (fun o => o.2.isOf rc && !contributionSettled d x o.1))).foldl
    (fun s x => failEpoch c x.number .retracted s) s

/-- The consuming command of the current epoch completes: the current epoch advances (R341). -/
def advanceEpoch (c : Nat) (s : State) : State :=
  storeRelease (wakeConsumer c (modChain s c (fun d => { d with
    epoch := d.epoch + 1, epochs := d.epochs.filter (fun x => epochLater x.number d.epoch) })))

/-- Whether a held FINAL covers every chain row, whole and settled. -/
def finalComplete (d : ChainDesc) (x : Epoch) : Bool :=
  x.finalSettled && (List.range (cdRows d.image)).all (fun r =>
    match spFind x.final r with
    | some (.list _ missing) => decide (missing = 0)
    | some _ => true
    | none => false)

/-- An epoch that is not over, with a contribution that is not settled (R350). -/
def unsettledOwn (d : ChainDesc) (x : Epoch) : Bool := !x.isOver && x.own.any (fun o => !contributionSettled d x o.1)

/-- A descriptor is invalidated, with RETRACT for every epoch with an unsettled contribution (R330). -/
def invalidateChain (c : Nat) (s : State) : State :=
  let d := chainAt s c
  let s1 := d.epochs.foldl (fun s x => if unsettledOwn d x then failEpoch c x.number .retracted s else s) s
  storeRelease (setChain (wakeConsumer c s1) c ChainDesc.invalid)

/-- Inputs and FINALs of any epoch, or an unsettled contribution of the current one (R327). -/
def chainHolds (d : ChainDesc) : Bool :=
  d.epochs.any (fun x => !x.inputs.isEmpty || !x.final.isEmpty)
    || unsettledOwn d (epochAt d d.epoch)

end Sys2Proof.Machine
end

