-- ==== Sys2Proof/Machine/Complete.lean ====
section
/-! DEFINITION. What every command does when it completes: which status it carries (R458, R459), what a contained
error leaves (R546), its digest record (R524 to R533), the completion itself (R456 to R463), the notification word
(R470), and the ring's next state (R469). -/

namespace Sys2Proof.Machine

/-! ## Status -/

def statusCode : Status → Nat
  | .ok => 0 | .okFlags => 1 | .trapNan => 2 | .errorContained => 3 | .skipped => 4 | .unitFenced => 5
  | .hingePeerLost => 6 | .hingeTimeout => 7 | .retracted => 8 | .badCommand => 9 | .quota => 10
  | .poisonInput => 11 | .tableMismatch => 12 | .tainted => 13

/-- The rank of R458; statuses of commands that did not start come first. -/
def statusRank : Status → Nat
  | .errorContained => 1 | .trapNan => 2 | .retracted => 3 | .hingePeerLost => 4 | .hingeTimeout => 5
  | .poisonInput => 6 | .tainted => 7 | .okFlags => 8 | .ok => 9 | _ => 0

def statusFirst (a b : Status) : Status := if statusRank b < statusRank a then b else a

/-- The status of a command that ran, from what it met (R458, R459). -/
def finalStatus (rc : RunCmd) (base : Status) : Status :=
  let s1 := if rc.prog.poisonIn then statusFirst base .poisonInput else base
  let s2 := if rc.tainted then statusFirst s1 .tainted else s1
  let s3 := if rc.prog.flags ≠ 0 then statusFirst s2 .okFlags else s2
  match rc.failed with
  | some f => statusFirst s3 f
  | none => s3

/-- Whether a status stands for success. -/
def Status.succeeded : Status → Bool
  | .ok => true
  | .okFlags => true
  | _ => false

/-- The event code of a completion (R665). -/
def statusEvent : Status → Nat
  | .ok => 0x04 | .okFlags => 0x04
  | .errorContained => 0x05 | .trapNan => 0x05 | .hingePeerLost => 0x05 | .hingeTimeout => 0x05 | .retracted => 0x05
  | .poisonInput => 0x06
  | .badCommand => 0x07 | .quota => 0x07 | .tableMismatch => 0x07
  | .skipped => 0x08 | .tainted => 0x09
  | .unitFenced => 0x00

/-! ## The completion record -/

/-- The fields of a completion. -/
structure Cpl where
  seq    : Nat
  status : Status
  flags  : Byte
  detail : Nat
  result : Nat
  count  : Nat
  deriving DecidableEq, Repr

/-- PHASE of an index (R463). -/
def cplPhase (c : RingCtx) (index : Nat) : Bool := !index.testBit (ctxLog2 c)

/-- The 32 bytes of a completion (R456). -/
def cplBytes (x : Cpl) (phase : Bool) (tstamp : Nat) : List Byte :=
  natBytes 4 x.seq ++ natBytes 1 (statusCode x.status) ++ [x.flags] ++ natBytes 2 x.detail ++ natBytes 8 x.result
    ++ natBytes 6 x.count ++ natBytes 2 (place (boolNat phase) 7) ++ natBytes 8 tstamp

/-- Where the completion of an index lies (R462). -/
def cplAddr (c : RingCtx) (index : Nat) : Nat := c.cplBase.toNat + 32 * (index % ctxSize c)

/-- Where the packet of an index lies (R462). -/
def packetAddr (c : RingCtx) (index : Nat) : Nat := c.cmdBase.toNat + 64 * (index % ctxSize c)

/-- A completion as a LOCKSTEP pair compares it (R567): without TSTAMP, and without DETAIL of ERROR_CONTAINED. -/
def shownCpl (x : Cpl) (phase : Bool) : List Nat :=
  [x.seq, statusCode x.status, x.flags.toNat, if x.status = .errorContained then 0 else x.detail, x.result, x.count, boolNat phase]

/-- The completion of index CPLI is written, counted, and CPLI advances; the VI's flags take those of the
completion (R657). -/
def writeCpl (ring : Nat) (x : Cpl) (s0 : State) : State :=
  let s := tick s0
  let c := ctxOfRing s ring
  let v := ctxOwner c
  let i := c.cpli.toNat
  let s1 := devWriteFor v s (cplAddr c i) (cplBytes x (cplPhase c i) s.tclk.toNat)
  let s2 := countRetired v (countEvent (statusEvent x.status) 1 (some v) s1)
  let s2 := lockstepFold (shownCpl x (cplPhase c i)) s2
  let s3 := if x.flags = 0 then s2 else modVi s2 v (fun y => { y with flags := y.flags ||| x.flags })
  modCtx s3 ring (fun c => { c with cpli := c.cpli + 1 })

/-- The notification word of a command with NOTIFY set (R470). -/
def writeNotify (ring index : Nat) (s : State) : State :=
  let c := ctxOfRing s ring
  if c.notify = 0 then s else devWriteFor (ctxOwner c) s c.notify.toNat (natBytes 8 index)

/-- Completes SKIPPED the index HEAD, `n` times (R469, R474). -/
def skipGo (ring : Nat) : Nat → State → State
  | 0, s => s
  | n + 1, s =>
    let c := ctxOfRing s ring
    let i := c.head.toNat
    let a := packetAddr c i
    let notify := pkNotify (BitVec.ofNat 512 (readNat s .device a 64)) && !sectorPoison s .device a
    let s1 := writeCpl ring ⟨i, .skipped, 0, 0, 0, 0⟩ s
    let s2 := if notify then writeNotify ring i s1 else s1
    skipGo ring n (modCtx s2 ring (fun c => { c with head := c.head + 1 }))

/-- Every index from HEAD to TAIL - 1 completes SKIPPED. -/
def skipAll (ring : Nat) (s : State) : State :=
  let c := ctxOfRing s ring
  let s1 := { s with rings := { s.rings with fetched := s.rings.fetched.filter (fun f => decide (f.ring ≠ ring)) } }
  skipGo ring (c.tail - c.head).toNat s1

/-! ## What failed commands leave -/

/-- The memory a command wrote holds no defined value (R355, R546). -/
def undefineWrites (rc : RunCmd) (s : State) : State :=
  rc.prog.wrote.foldl (fun s w =>
    let t := takeFree s
    setMem t.2 w.2.1 ((getMem t.2 w.2.1).undefine (spaceAddr w.2.1 w.2.2.1) w.2.2.2 t.1)) s

/-- The registers a command wrote hold no defined value (R546). -/
def undefineRegs (rc : RunCmd) (s : State) : State :=
  rc.prog.wroteRegs.foldl (fun s r =>
    let t := takeFree s
    setRegs t.2 rc.ring (spPut (regsOf t.2 rc.ring) r ⟨some t.1, []⟩)) s

/-- R243: the binary64 views of the exact slots among those given. -/
def writeViews (hs : List Nat) (s : State) : State :=
  hs.foldl (fun s h => if (slotAt s h).exact then modSlot s h slotViews else s) s

/-- Every slot into which the command reduced, or to which it committed, is poisoned (R546). -/
def poisonSlots (rc : RunCmd) (s : State) : State :=
  rc.prog.reduced.foldl (fun s h => if (slotAt s h).isOpen then modSlot s h (fun x => { x with poison := true }) else s) s

/-- Whether a command is one that consumes a chain epoch (R341, R385). -/
def consumesChain (d : ChainDesc) (op : Nat) : Bool :=
  let draws := decide (cdKind d.image = 3) && cdIsKeystone d.image
  decide (op = 0x03) || decide (op = 0x05) || (decide (op = 0x19) && !draws) || (decide (op = 0x07) && draws)

/-- Whether another command already consumes the current epoch. -/
def otherConsumes (d : ChainDesc) (rc : RunCmd) (s : State) : Bool :=
  match (epochAt d d.epoch).consumer with
  | some r => decide (r ≠ rc.ring) && (cmdOf s r).isSome
  | none => false

/-- The opcodes whose commands contribute as they run, or consume an epoch (R341, R383, R385). A HINGE_SEND contributes settled
rows and completes with them, so that its completion settles nothing more. -/
def chainOpcodes : List Nat := [0x01, 0x02, 0x03, 0x05, 0x06, 0x07, 0x19]

/-- What the completion of a command does to the chain that it names (R341, R350, R352, R383). -/
def settleChain (rc : RunCmd) (st : Status) (s : State) : State :=
  if !pkChv rc.packet || !chainOpcodes.contains (pkOpcode rc.packet) || rc.poisonedFetch && rc.packet = 0 then s
  else
    let c := pkChainId rc.packet
    let d := chainAt s c
    let op := pkOpcode rc.packet
    if !d.valid || d.owner ≠ rc.vi then s
    else
      let s1 := if st.succeeded then settleOwn c rc s
        else if op = 0x06 && decide (tDest rc.tumbler = 3) then failEpoch c d.epoch .retracted s
        else retractOwn c rc s
      if consumesChain d op && !otherConsumes d rc s then advanceEpoch c s1 else s1

/-! ## Digest records (R524 to R533) -/

/-- The address of a ring's chain entry. -/
def digestEntry (s : State) (v : ViId) (ring : Nat) : Nat :=
  let base := if isCovered ring then (coverOf s v).digestBase.toNat / 64 * 64 else (cfgVi s v).digestBase.toNat * 64
  base + 64 * localRing s v ring

/-- The latched mode word (R527). -/
def latchedWord (l : Latched) : Nat :=
  boolNat l.exact + place (boolNat l.strict) 1 + place l.rnd.toNat 2 + place (boolNat l.saturate) 5
    + place (boolNat l.flush) 6 + place l.headroom.toNat 7 + place l.refpol.toNat 11 + place l.bias.toNat 13
    + place l.sqnrFloor.toNat 29 + place (boolNat l.nanTrap) 35

/-- Insertion of an interval of bytes by its start. -/
def intervalInsert (x : Nat × Nat) : List (Nat × Nat) → List (Nat × Nat)
  | [] => [x]
  | y :: rest => if x.1 ≤ y.1 then x :: y :: rest else y :: intervalInsert x rest

/-- Sorted intervals with overlaps joined. -/
def intervalMerge : List (Nat × Nat) → List (Nat × Nat)
  | [] => []
  | x :: rest =>
    match intervalMerge rest with
    | y :: more => if y.1 ≤ x.1 + x.2 then (x.1, max (x.1 + x.2) (y.1 + y.2) - x.1) :: more else x :: y :: more
    | [] => [x]

/-- The bytes that a command wrote to the region of descriptor `d`, in address order. -/
def regionBytes (s : State) (rc : RunCmd) (d : Nat) : List Byte :=
  [Space.device, Space.tile, Space.twin].flatMap (fun sp =>
    let parts := (rc.prog.wrote.filter (fun w => decide (w.1 = d) && decide (w.2.1 = sp))).map (fun w => w.2.2)
    (intervalMerge (parts.foldr intervalInsert [])).flatMap (fun i => readBytes s sp i.1 i.2))

/-- The sources of the output hash (R529): each destination region, the registers, the slots changed. Regions are
numbered by descriptor; a bucket's region by 16 plus its place in the range. -/
def outputSources (s : State) (rc : RunCmd) : List (List Byte) :=
  let ds := (rc.prog.wrote.map (fun w => w.1)).foldl setInsert []
  let regs := rc.prog.wroteRegs.foldl setInsert []
  let slots := rc.prog.changed.foldl setInsert []
  (ds.map (regionBytes s rc)).filter (fun b => !b.isEmpty)
    ++ (if regs.isEmpty then [] else [regs.flatMap (fun r => (List.range Config.lanes).flatMap (fun l =>
          natBytes 5 (regLane (regsOf s rc.ring) r l).toNat))])
    ++ (if slots.isEmpty then [] else [slots.flatMap (fun h => slotBytes { slotAt s h with dlink := 0 })])

/-- The sources of the input hash that are present, each with its parts in order (R529). -/
def inputSources (rc : RunCmd) : List (List Byte) :=
  ((List.range 6).map (fun n =>
    (rc.prog.inputs.filter (fun e => decide (e.1 / 2 ^ 40 = n))).flatMap (fun e => e.2))).filter (fun b => !b.isEmpty)

/-- CFG of a record (R526). -/
def cfgHash (rc : RunCmd) : List Byte :=
  (sha256 (natBytes 64 rc.packet.toNat ++ natBytes 64 (if pkTaddr rc.packet = 0 then 0 else rc.tumbler.toNat)
    ++ rc.descs.flatMap (fun d => natBytes 32 d.2.toNat) ++ natBytes 8 (latchedWord rc.latched))).take 16

/-- The 64-byte record of a command (R526, R530). -/
def digestRecord (s : State) (rc : RunCmd) (x : Cpl) : List Byte :=
  let void := match x.status with
    | .badCommand => true | .quota => true | .tableMismatch => true | .retracted => true | .errorContained => true
    | _ => false
  let key := rc.key.getD 0
  let inOn := pkHashIn rc.packet && !void
  let outOn := pkHashOut rc.packet && !void
  let inH := if inOn then (streamHash (hashSubkey key) (inputSources rc)).take 8 else natBytes 8 0
  let outH := if outOn then (streamHash (hashSubkey key) (outputSources s rc)).take 8 else natBytes 8 0
  let attr := boolNat (decide (x.status = .tainted)) + 2 * boolNat inOn + 4 * boolNat outOn + 8 * boolNat rc.prog.drained
  natBytes 4 x.seq ++ natBytes 1 (pkOpcode rc.packet) ++ natBytes 1 (statusCode x.status) ++ [x.flags]
    ++ natBytes 1 attr ++ natBytes 8 (if tEn rc.tumbler stCurve && decide (pkTaddr rc.packet ≠ 0) then rc.tableId.toNat else 0)
    ++ cfgHash rc ++ natBytes 16 rc.prog.upstream.toNat ++ inH ++ outH

/-- DLINK of every slot that the command changed, one that it closed among them (R532); a slot that another VI has opened
since is that VI's (R487). -/
def linkSlots (rc : RunCmd) (digest : W128) (s : State) : State :=
  rc.prog.changed.foldl (fun s h =>
    let x := slotAt s h
    if x.isOpen && decide (x.owner ≠ rc.vi) then s else modSlot s h (fun y => { y with dlink := digest })) s

/-- A record joins its ring's chain: digest_n, N, the log and its pointers, TAINT; LINK ties the changed slots. -/
def appendRecord (rc : RunCmd) (x : Cpl) (taint : Bool) (s : State) : State :=
  if !pkRecord rc.packet then s
  else
    let a := digestEntry s rc.vi rc.ring
    let rec_ := digestRecord s rc x
    let digest := sha256 (readBytes s .device a 32 ++ rec_)
    let n := readNat s .device (a + 32) 8
    let ptr := readNat s .device (a + 40) 8
    let fin := readNat s .device (a + 48) 8
    let st := readNat s .device (a + 56) 1
    let full := decide (fin < ptr + 64)
    let s1 := if full then countEvent 0x65 1 (some rc.vi) s else devWriteFor rc.vi s ptr rec_
    let st' := st ||| boolNat taint ||| (if full then 2 else 0)
    let s2 := devWriteFor rc.vi s1 a (digest ++ natBytes 8 (n + 1) ++ natBytes 8 (if full then ptr else ptr + 64)
      ++ natBytes 8 fin ++ natBytes 1 st')
    if pkLink rc.packet then linkSlots rc (BitVec.ofNat 128 (bytesNat (digest.take 16))) s2 else s2

/-! ## The ring after a completion (R469) -/

def ringDeferred (s : State) (ring : Nat) : Option Deferred :=
  (s.rings.deferred.find? (fun d => decide (d.1 = ring))).map (fun d => d.2)

def clearDeferred (ring : Nat) (s : State) : State :=
  { s with rings := { s.rings with deferred := s.rings.deferred.filter (fun d => decide (d.1 ≠ ring)) } }

/-- Whether a ring action of a VI still waits for a context. -/
def actionWaits (s : State) (v : ViId) : Bool :=
  s.rings.actions.any (fun a => decide (a.vi = v) && (match a.action with | .doorbell _ => false | _ => true))

/-- RESULT of the VI that owns a ring becomes `done` when a pending action on it takes effect, if that was the VI's last
action (R468). -/
def actionDone (v : ViId) (ring : Nat) (s : State) : State :=
  if decide (localRing s v ring = (cfgVi s v).ctrlRing.toNat) && !actionWaits s v then
    modVi s v (fun i => { i with ctrlResult := if i.ctrlResult = 1 then 0 else i.ctrlResult })
  else s

/-- The ring's context leaves the unit: the ring is DISABLED (R469, R491). -/
def disableRing (ring : Nat) (s : State) : State :=
  let s1 := clearDeferred ring (setRingState s ring .disabled)
  { s1 with rings := { s1.rings with
      live := setErase s1.rings.live ring,
      fetched := s1.rings.fetched.filter (fun f => decide (f.ring ≠ ring)),
      regs := spErase s1.rings.regs ring, resident := s1.rings.resident.filter (fun r => decide (r ≠ ring)),
      regsChanged := setErase s1.rings.regsChanged ring } }

/-- Whether the whole unit is to stop or flushes: the release of covered rings concerns those alone (R575). -/
def unitStops (s : State) : Bool :=
  match s.ctl.stop with
  | none => s.ctl.flushing
  | some r => decide (r ≠ .coverRelease)

/-- Whether a ring has stopped or is stopping with the unit or with the covered rings, so that it writes no SKIPPED completion
(R555, R575, log entry 20). -/
def ringStopped (s : State) (ring : Nat) : Bool :=
  decide (s.ctl.state ≠ .active) || (s.ctl.flushing && unitStops s) || (s.twin.releasing && isCovered ring)

/-- A VI reset ends when every ring of the VI is DISABLED (R648). -/
def viResetCheck (s : State) : State :=
  match s.mg.viReset with
  | none => s
  | some v =>
    if s.rings.deferred.any (fun d => decide (d.2 = .disable) && decide (ctxOwner (ctxOfRing s d.1) = v)) then s
    else { s with mg := { s.mg with viReset := none } }

/-- The turn of a ring that leaves RUNNING ends (R479); between two commands of the turn the ring is READY. -/
def endTurn (ring : Nat) (s : State) : State :=
  match s.rings.turn with
  | some t => if t.ring = ring then { s with rings := { s.rings with turn := none } } else s
  | none => s

/-- The ring's state after its command has completed with a status; the chain is free if the ring held it. -/
def ringAfter (ring : Nat) (st : Status) (s : State) : State :=
  let c := ctxOfRing s ring
  let s0 := dropCmd { s with rings := { s.rings with holder := if s.rings.holder = some ring then none else s.rings.holder } } ring
  match ringDeferred s ring with
  | some .disable => viResetCheck (endTurn ring (disableRing ring (actionDone (ctxOwner c) ring s0)))
  | d =>
    let s1 := if d = none then s0 else actionDone (ctxOwner c) ring (clearDeferred ring s0)
    if bit c.halt (statusCode st) then
      let s2 := setRingState (endTurn ring s1) ring .halted
      if ringStopped s ring then s2 else skipAll ring s2
    else if d = some .pause then setRingState (endTurn ring s1) ring .paused
    else if c.head = c.tail then setRingState (endTurn ring s1) ring .idle
    else setRingState s1 ring .ready

/-! ## Completing a command -/

/-- What a command shows to the twin at its end beside its vectors (R566): the slots that it changed, and what it wrote to tile SRAM
and registers other than by EMIT. Writes that hold no defined value any more are left out. -/
def cmdResults (rc : RunCmd) (st : Status) (s : State) : List Nat :=
  let slots := (rc.prog.changed ++ rc.prog.reduced).foldl setInsert []
  let emits := decide (pkTaddr rc.packet ≠ 0) && tEn rc.tumbler stEmit && decide (pkOpcode rc.packet ≠ 0x06)
  let void := decide (st = .errorContained) || decide (st = .retracted)
  slots.flatMap (fun h => shownSlot h (slotAt s h))
    ++ (if void then [] else
        (rc.prog.wrote.filter (fun w => decide (w.2.1 ≠ .device) && !(emits && decide (w.1 = 4)))).flatMap (fun w =>
          w.2.2.1 :: (readBytes s w.2.1 w.2.2.1 w.2.2.2).map (fun b => b.toNat)))
    ++ (if void || emits then [] else
        rc.prog.wroteRegs.flatMap (fun r => r :: (List.range Config.lanes).map (fun l => (regLane (regsOf s rc.ring) r l).toNat)))

/-- A command completes, the views of the exact slots into which it reduced first (R243). `detail` is used by BAD_COMMAND; ERROR_CONTAINED takes the index of its log entry. -/
def completeCmd (rc : RunCmd) (base : Status) (detail result count : Nat) (s0 : State) : State :=
  let st := finalStatus rc base
  let s := writeViews rc.prog.reduced s0
  let s1 := match st with
    | .errorContained => poisonSlots rc (undefineRegs rc (undefineWrites rc s))
    | .retracted => undefineWrites rc s
    | _ => s
  let s2 := settleChain rc st s1
  let x : Cpl := { seq := rc.seq.toNat,
                   status := st, flags := rc.prog.flags,
                   detail := match st with | .badCommand => detail | .errorContained => detail | _ => 0,
                   result := result, count := count }
  let s2 := showTwin (cmdResults rc st s2) s2
  let s3 := appendRecord rc x (decide (st = .tainted)) s2
  let s4 := writeCpl rc.ring x s3
  let s5 := if pkNotify rc.packet then writeNotify rc.ring rc.seq.toNat s4 else s4
  ringAfter rc.ring st s5

/-- A command is refused at a check (R454): BAD_COMMAND and where it failed. -/
def refuseCmd (rc : RunCmd) (detail : Nat) (s : State) : State :=
  completeCmd { rc with failed := none, tainted := false } .badCommand detail 0 0 s

/-- The result word and the count of R449 as they stand when a command fails (log entry 25). -/
def soFar (rc : RunCmd) (s : State) : Nat × Nat :=
  let p := rc.prog
  match pkOpcode rc.packet with
  | 0x01 | 0x02 | 0x04 => (0, p.positions)
  | 0x08 | 0x09 => (0, p.elements)
  | 0x06 => if tWMode rc.tumbler = 2 then (p.overflowed, p.placed) else (0, p.elements)
  | 0x0A => (p.overflowed, p.placed)
  | 0x0B => (p.promoted, p.blocks)
  | 0x2A => ((spGet 0 (viOf s rc.vi).events (pkOpa rc.packet % 256)).toNat, 0)
  | _ => (p.result.toNat, p.count)

/-- A command fails by a contained error: the entry is written and named in DETAIL (R543, R546). -/
def failCmd (rc : RunCmd) (e : ErrArgs) (s : State) : State :=
  let r := logError { e with ring := some (rc.ring, rc.seq.toNat, rc.vi) } s
  completeCmd rc .errorContained r.1 (soFar rc s).1 (soFar rc s).2 (pinError r.1 r.2)

/-- A command that a failure named in the manual ends ERROR_CONTAINED without a log entry: DETAIL 0xFFFF (R543). -/
def failCmdUnlogged (rc : RunCmd) (s : State) : State :=
  completeCmd rc .errorContained 0xFFFF (soFar rc s).1 (soFar rc s).2 s

end Sys2Proof.Machine
end

