-- ==== Sys2Proof/Machine/Errors.lean ====
section
/-! DEFINITION. How each structure's error is handled (R537 to R549), and waking from a power state (R598, R602). -/

namespace Sys2Proof.Machine

/-! ## Waking (R598 to R603) -/

/-- A wake event: the unit starts its exit from GATED or RETAIN, or reverses an entry; not under a zero grant, nor
in hold-up before the supply is restored (log entry 21). -/
def wake (s : State) : State :=
  if s.pwr.grantStop || s.pwr.holdupReq then s
  else
    match s.pwr.move with
    | .leaving _ => s
    | .entering t => { s with pwr := { s.pwr with move := .leaving t } }
    | .none =>
      match s.pwr.state with
      | .gated => { s with pwr := { s.pwr with move := .leaving .gated } }
      | .retain => { s with pwr := { s.pwr with move := .leaving .retain } }
      | _ => s

/-! ## Errors -/

/-- What a running command's error names. -/
def ringArgs (rc : Option RunCmd) : Option (Nat × Nat × ViId) := rc.map (fun c => (c.ring, c.seq.toNat, c.vi))

/-- CHECK and CLASS codes (R536, R540). -/
def ckSingle : Nat := 0
def ckDouble : Nat := 1
def ckResidue : Nat := 2
def ckParity : Nat := 3
def ckCompare : Nat := 4
def ckWatchdog : Nat := 5
def ckBoundary : Nat := 6
def clCorrected : Nat := 0
def clContained : Nat := 1
def clFatal : Nat := 2
def clChip : Nat := 3

/-- A CORRECTED event in a structure (R538). -/
def correctedError (source location : Nat) (s : State) : State :=
  (logError ⟨clCorrected, source, ckSingle, location, none⟩ s).2

/-- R549: fetching stops, FATAL is set, and the running command completes ERROR_CONTAINED while the completion path
still works. -/
def fatalError (source check location : Nat) (s : State) : State :=
  let rc := holderCmd s
  let r := logError ⟨clFatal, source, check, location, ringArgs rc⟩ s
  let s1 := { r.2 with ctl := { r.2.ctl with fatal := true }, rings := { r.2.rings with fetchStopped := true } }
  match rc with
  | none => s1
  | some c =>
    let t := takeFree s1
    if Config.completionPathWorks t.1 then completeCmd c .errorContained r.1 (soFar c s).1 (soFar c s).2 (pinError r.1 t.2) else t.2

/-- The running command, if any, fails by an error. -/
def failHolder (e : ErrArgs) (s : State) : State :=
  match holderCmd s with
  | none => (logError e s).2
  | some c => failCmd c e s

/-- A lane of a ring's register is marked poisoned. -/
def poisonLane (ring reg lane : Nat) (s : State) : State :=
  let f := regsOf s ring
  setRegs s ring (setRegLane f reg lane (regLane f reg lane ||| BitVec.ofNat 40 (2 ^ 39)))

/-- The records in the trace buffer are dropped and a LOST record is written (R537). -/
def dropTrace (s : State) : State :=
  let n := s.det.buffer.length
  let s1 := countEvent 0xC9 n none { s with det := { s.det with buffer := [] } }
  traceNow 7 (holderVi s) none n 0 0 s1

/-- One error met while the unit works (R537). DESIGN CHOICE (log entry 37): R537 gives no SOURCE or CHECK for a lane that has failed
by four errors, residue or parity; the entry has those of the stage registers, 10 and parity. -/
def applyError (e : HwError) (s : State) : State :=
  let ring := ringArgs (holderCmd s)
  match e with
  | .corrected src loc => correctedError src.toNat loc.toNat s
  | .staging p _ => (logError ⟨clContained, 2, ckDouble, p, ring⟩ s).2
  | .hingeInput c m r => poisonInput c m r (logError ⟨clContained, 2, ckDouble, c, ring⟩ s).2
  | .vectorContext reg lane =>
    let s1 := (logError ⟨clContained, 3, ckDouble, 512 * reg + lane, ring⟩ s).2
    match s.rings.holder with
    | some r => poisonLane r reg lane s1
    | none => s1
  | .contextCache r =>
    match cacheEntry s r with
    | none => s
    | some x =>
      let drop (s : State) : State :=
        { s with rings := { s.rings with cache := s.rings.cache.filter (fun y => decide (y.ring ≠ r)) } }
      let named := some (r, x.ctx.head.toNat, ctxOwner x.ctx)
      if x.dirty then
        -- the entry is lost: the ring is DISABLED and receives no further completion
        let s1 := (logError ⟨clContained, 4, ckDouble, r, named⟩ s).2
        let s2 := disableRing r (dropCmd { s1 with rings := { s1.rings with
          holder := if s1.rings.holder = some r then none else s1.rings.holder } } r)
        s2
      else
        let s1 := (logError ⟨clCorrected, 4, ckDouble, r, named⟩ s).2
        let c := memCtx s1 r
        { drop s1 with rings := { (drop s1).rings with cache := ⟨r, c, false⟩ :: (drop s1).rings.cache } }
  | .tumblerCache vi a =>
    let s1 := (logError ⟨clCorrected, 5, ckDouble, 0, none⟩ s).2
    { s1 with rings := { s1.rings with
        tumblers := s1.rings.tumblers.filter (fun t => !(decide (t.vi = vi) && decide (t.address = a))) } }
  | .chainDescriptor c => invalidateChain c (logError ⟨clContained, 7, ckDouble, c, none⟩ s).2
  | .traceBuffer => dropTrace (logError ⟨clContained, 6, ckDouble, 0, none⟩ s).2
  | .digestState =>
    match holderCmd s with
    | none => (logError ⟨clContained, 6, ckDouble, 0, none⟩ s).2
    | some c =>
      let a := digestEntry s c.vi c.ring
      let s1 := devWriteFor c.vi s (a + 56) (natBytes 1 (readNat s .device (a + 56) 1 ||| 1))
      failCmd c ⟨clContained, 6, ckDouble, 0, none⟩ s1
  | .trapRecord vi =>
    let s1 := (logError ⟨clContained, 6, ckDouble, vi.toNat, none⟩ s).2
    modVi s1 vi (fun i => { i with trapInfo0 := 0, trapInfo1 := 0, trapInfo2 := 0, trapInfo3 := 0 })
  | .curveMultiplier lane => failHolder ⟨clContained, 8, ckResidue, lane.toNat, ring⟩ s
  | .exactAdder h =>
    let s1 := if (slotAt s h).isOpen then modSlot s h (fun x => { x with poison := true }) else s
    failHolder ⟨clContained, 9, ckResidue, h, ring⟩ s1
  | .stageRegister loc => failHolder ⟨clContained, 10, ckParity, loc.toNat, ring⟩ s
  | .sequencer => fatalError 11 ckParity 0 s
  | .laneFailed lane => fatalError 10 ckParity lane.toNat s
  | .memoryResponse => failHolder ⟨clChip, 13, ckBoundary, 0, ring⟩ s

/-- Whether a command still runs after an error. -/
def survives (rc : RunCmd) (s : State) : Bool :=
  match holderCmd s with
  | some c => decide (c.ring = rc.ring) && decide (c.seq = rc.seq)
  | none => false

end Sys2Proof.Machine
end

