-- ==== Sys2Proof/Machine/Rings.lean ====
section
/-! DEFINITION. Rings: doorbells and ring actions (R465 to R477), the context cache, the tumbler cache (R166), the
register sets (R484), starting, suspending and resuming commands (R469, R483), and arbitration (R478 to R481). -/

namespace Sys2Proof.Machine

/-! ## The context cache (R475, R476, R548, R561) -/

/-- At most 32 context reads are outstanding; a further one waits (R630). -/
def startCtxRead (ring : Nat) (s : State) : State :=
  if s.rings.reads.contains ring || s.rings.wanted.contains ring then s
  else if s.rings.reads.length < Config.ctxReadsMax then { s with rings := { s.rings with reads := s.rings.reads ++ [ring] } }
  else { s with rings := { s.rings with wanted := s.rings.wanted ++ [ring] } }

/-- Waiting context reads start while places are free. -/
def promoteReads (s : State) : State :=
  let n := Config.ctxReadsMax - s.rings.reads.length
  { s with rings := { s.rings with reads := s.rings.reads ++ s.rings.wanted.take n, wanted := s.rings.wanted.drop n } }

/-- A changed context goes back to device memory. -/
def writeBackCtx (e : CtxEntry) (s : State) : State :=
  if e.dirty then devWriteFor (ctxOwner e.ctx) s (ctxAddr s e.ring) (natBytes 64 (ctxBits e.ctx).toNat) else s

/-- Contexts that may leave the cache. -/
def evictable (s : State) (e : CtxEntry) : Bool :=
  match e.ctx.state with
  | .running => false
  | .blocked => false
  | .suspended => false
  | _ => match s.rings.chosen with
    | some c => decide (c.ring ≠ e.ring)
    | none => true

/-- Room for one more context; the victim is a free choice. A ring that leaves READY, or with an action or doorbell that waits
for it, is read again (R475). -/
def makeRoom (s : State) : State :=
  if s.rings.cache.length < Config.ctxEntries then s
  else
    let t := takeFree s
    let vs := t.2.rings.cache.filter (evictable t.2)
    match vs[Config.evict t.1 % vs.length]? with
    | none => t.2
    | some e =>
      let s1 := writeBackCtx e { t.2 with rings := { t.2.rings with
        cache := t.2.rings.cache.filter (fun x => decide (x.ring ≠ e.ring)) } }
      if decide (e.ctx.state = .ready) || s1.rings.actions.any (fun a => decide (a.ring = e.ring)) then startCtxRead e.ring s1
      else s1

/-- Whether a ring stands under RINGS_LOST (R561, R571). -/
def underLost (s : State) (ring : Nat) : Bool :=
  (if isCovered ring then !s.twin.clean else s.ctl.ringsLost) && !s.rings.live.contains ring

/-- The command that a save area holds for a suspended ring (R483). -/
def savedCmd (s : State) (ring : Nat) (c : RingCtx) : Option RunCmd :=
  (s.rings.savedCmds.find? (fun x => decide (x.1 = ⟨ringTile ring, c.vsave.toNat⟩))).map
    (fun x => { x.2 with ring := ring, phase := .suspended, retained := false })

/-- A context enters the cache; under RINGS_LOST one that may hold started work counts as HALTED. -/
def loadCtx (ring : Nat) (s : State) : State :=
  let s1 := makeRoom s
  let c := memCtx s1 ring
  let halted := c.state.carriesWork && (underLost s1 ring || (decide (c.state = .running) || decide (c.state = .blocked)) && (cmdOf s1 ring).isNone)
  let s2 := { s1 with rings := { s1.rings with
      cache := ⟨ring, if halted then { c with state := .halted } else c, halted⟩ :: s1.rings.cache } }
  if c.state = .suspended ∧ !halted ∧ (cmdOf s1 ring).isNone then
    match savedCmd s1 ring c with
    | some x => setCmd s2 x
    | none => s2
  else s2

/-! ## Ring actions (R466 to R474) -/

def ringByIndex (s : State) (covered : Bool) (v : ViId) (index : Nat) : Option Nat :=
  let r := viRange s covered v
  if index < r.count then some (r.base + index) else none

/-- The choice of the next command is dropped when its ring can no longer start it. -/
def dropChoice (ring : Nat) (s : State) : State :=
  match s.rings.chosen with
  | some c => if c.ring = ring then { s with rings := { s.rings with chosen := none } } else s
  | none => s

/-- Whether the shadow holds the tumbler word of a ring's next command, which then runs next whatever comes (R163). -/
def choiceStands (s : State) (ring : Nat) : Bool :=
  match s.rings.chosen with
  | some c => decide (c.ring = ring) && c.shadow.isSome
  | none => false

/-- Whether the chain is idle, with nothing that a boundary could give it to: applying a doorbell that leaves it so is a
boundary of its own, and any other shares its number with the decision that it leads to (R517). -/
def chainIdle (s : State) : Bool :=
  s.rings.holder.isNone && s.rings.chosen.isNone
    && !s.rings.cache.any (fun e => decide (e.ctx.state = .ready) || decide (e.ctx.state = .suspended))
    && !s.rings.cmds.any (fun c => decide (c.phase = .blocked true))

def nextBoundary (s : State) : State := { s with det := { s.det with bseq := s.det.bseq + 1 } }

/-- A VI whose tolerance is below 40 ns and whose ring is READY while the grant is 0 counts once in each such period
(R594). -/
def tolViolations (s : State) : State :=
  if !s.pwr.grantStop then s
  else s.rings.cache.foldl (fun s e =>
    let v := ctxOwner e.ctx
    if decide (e.ctx.state = .ready) && decide ((cfgVi s v).tolerance.toNat < 40) && !s.pwr.tolMarked.contains v.toNat then
      countEvent 0x64 1 (some v) { s with pwr := { s.pwr with tolMarked := setInsert s.pwr.tolMarked v.toNat } }
    else s) s

/-- A doorbell reaches its ring (R472, R469). -/
def applyDoorbell (v : ViId) (ring : Nat) (tail : W32) (s : State) : State :=
  let c := ctxOfRing s ring
  let bad := decide (c.state = .disabled) || decide (ctxSize c < (tail - c.head).toNat)
    || decide (2 ^ 31 ≤ (tail - c.tail).toNat) || underLost s ring
  if bad then countEvent 0x61 1 (some v) s
  else
    let s1 := countEvent 0x60 1 (some v) s
    let s2 := traceChoice 1 (some v) ring 0 tail.toNat s1
    let s3 := modCtx s2 ring (fun c => { c with tail := tail })
    let s4 := match c.state with
      | .idle => if tail = c.head then s3 else tolViolations (setRingState s3 ring .ready)
      | .halted => if ringStopped s ring then s3 else skipAll ring s3
      | _ => s3
    if chainIdle s4 then nextBoundary s4 else s4

/-- Whether a ring-context image can be used (R467). -/
def imageGood (x : BitVec 512) : Bool :=
  decide (4 ≤ field x 228 224) && decide (field x 228 224 ≤ 20) && decide (field x 231 229 = 0)
    && decide (field x 5 0 = 0) && decide (field x 69 64 = 0) && decide (field x 325 320 = 0)
    && decide (field x 386 384 = 0) && decide (field x 239 238 = 0) && decide (field x 463 458 = 0)
    && decide (field x 471 467 = 0) && decide (field x 511 472 = 0)

def setResult (v : ViId) (n : Byte) (s : State) : State := modVi s v (fun i => { i with ctrlResult := n })

/-- HALT with bits 2, 3, 5 and 11 set and bits 0, 1 and 4 clear (R466). -/
def forcedHalt (h : BitVec 16) : BitVec 16 := (h ||| 0x082C) &&& 0xFFEC

/-- A ring is created (R466, R525). -/
def createRing (v : ViId) (ring : Nat) (image : BitVec 512) (s : State) : State :=
  let c := ctxOf image
  let r := viRange s (isCovered ring) v
  let cls := max (ctxClass c) r.minClass
  let c' : RingCtx := { c with head := 0, tail := 0, cpli := 0, owner := BitVec.ofNat 16 v.toNat, state := .idle, prog := 0,
                               sched := BitVec.ofNat 8 (c.sched.toNat / 4 * 4 + cls), halt := forcedHalt c.halt }
  let s1 := setCtx s ring c'
  let area : SaveArea := ⟨ringTile ring, c'.vsave.toNat⟩
  let s2 := { s1 with rings := { s1.rings with
      live := setInsert s1.rings.live ring, regs := spErase s1.rings.regs ring,
      resident := s1.rings.resident.filter (fun x => decide (x ≠ ring)),
      regsChanged := setErase s1.rings.regsChanged ring,
      savedRegs := (area, []) :: s1.rings.savedRegs.filter (fun x => decide (x.1 ≠ area)) } }
  let a := digestEntry s2 v ring
  devWriteFor v (devWriteFor v s2 a (List.replicate 40 0)) (a + 56) [0]

/-- A ring action reaches its ring: RESULT 0 done, 1 pending, 2 refused (R467 to R469). -/
def applyAction (a : PageAction) (s : State) : State :=
  let ring := a.ring
  let c := ctxOfRing s ring
  let refuse (s : State) := setResult a.vi 2 s
  let done (s : State) := setResult a.vi 0 s
  let defer (s : State) : State :=
    setResult a.vi 1 (if (ringDeferred s ring).isSome then s
      else { s with rings := { s.rings with deferred := s.rings.deferred ++ [(ring, .pause)] } })
  let readyOrIdle (s : State) : State :=
    let c := ctxOfRing s ring
    setRingState s ring (if c.head = c.tail then .idle else .ready)
  match a.action with
  | .doorbell tail => applyDoorbell a.vi ring tail s
  | .create image =>
    if c.state ≠ .disabled ∨ imageGood image = false then refuse (regIgnored a.vi s)
    else done (createRing a.vi ring image s)
  | .resume =>
    match c.state with
    | .halted => if underLost s ring then refuse s else done (readyOrIdle (skipAll ring s))
    | .paused => if underLost s ring then refuse s else done (readyOrIdle s)
    | _ => refuse s
  | .pause =>
    match c.state with
    | .idle => done (setRingState s ring .paused)
    | .ready => if choiceStands s ring then defer s else done (dropChoice ring (setRingState s ring .paused))
    | .running | .blocked | .suspended => defer s
    | _ => refuse s
  | .destroy =>
    match c.state with
    | .idle | .paused | .halted => done (disableRing ring s)
    | _ => refuse s

/-- Actions whose rings' contexts are present are applied; those of one VI stay in their order (R473). RESULT stays pending
while a later action of the VI waits (R468). -/
def runActions : List PageAction → List PageAction → State → State
  | [], kept, s => { s with rings := { s.rings with actions := kept } }
  | a :: rest, kept, s =>
    if kept.any (fun k => decide (k.vi = a.vi)) || (cacheEntry s a.ring).isNone then runActions rest (kept ++ [a]) s
    else
      let s1 := applyAction a s
      let later := (kept ++ rest).any (fun k => decide (k.vi = a.vi) && (match k.action with | .doorbell _ => false | _ => true))
      runActions rest kept (if later then setResult a.vi 1 s1 else s1)

def processActions (s : State) : State := runActions s.rings.actions [] s

/-- An action arrives: it is applied if its context is cached and no earlier action of its VI waits, else it waits
(R473, R475). -/
def requestAction (a : PageAction) (s : State) : State :=
  match cacheEntry s a.ring with
  | some _ =>
    let s1 := countEvent 0x2A 1 (some a.vi) s
    if s.rings.actions.any (fun k => decide (k.vi = a.vi)) then
      { s1 with rings := { s1.rings with actions := s1.rings.actions ++ [a] } }
    else applyAction a s1
  | none =>
    let s1 := startCtxRead a.ring (countEvent 0x2B 1 (some a.vi) s)
    { s1 with rings := { s1.rings with actions := s1.rings.actions ++ [a] } }

/-- A context read returns (R475, R548). -/
def contextReturn (ring : Nat) (s : State) : State :=
  if s.rings.reads.contains ring then
    let s1 := promoteReads { s with rings := { s.rings with reads := s.rings.reads.filter (fun r => decide (r ≠ ring)) } }
    let vi := match s.rings.actions.find? (fun a => decide (a.ring = ring)) with
      | some a => a.vi
      | none => ctxOwner (memCtx s ring)
    let s2 := countEvent 0x23 1 (some vi) s1
    if sectorPoison s .device (ctxAddr s ring) then
      let s3 := countEvent 0x25 1 (some vi) (logError ⟨clContained, 13, ckBoundary, 0, some (ring, 0, vi)⟩ s2).2
      let s4 := makeRoom s3
      processActions { s4 with rings := { s4.rings with
        cache := ⟨ring, { memCtx s4 ring with state := .disabled }, false⟩ :: s4.rings.cache } }
    else processActions (loadCtx ring s2)
  else s

/-! ## Fetching packets (R477) -/

/-- A read of up to 8 packets from HEAD, never past TAIL, returns, with an error or not. -/
def commandFetchReturn (ring : Nat) (failed : Bool) (s : State) : State :=
  if s.rings.fetches.contains ring then
    let s1 := { s with rings := { s.rings with fetches := s.rings.fetches.filter (fun r => decide (r ≠ ring)) } }
    match cacheEntry s ring with
    | none => s1
    | some e =>
      let c := e.ctx
      if c.state ≠ .ready then s1
      else
        let n := min 8 (c.tail - c.head).toNat
        let fs := (List.range n).map (fun k =>
          let i := c.head + BitVec.ofNat 32 k
          let a := packetAddr c i.toNat
          (⟨ring, i, BitVec.ofNat 512 (readNat s .device a 64), sectorPoison s .device a, failed⟩ : Fetched))
        let s2 := countEvent 0x23 n (some (ctxOwner c)) s1
        { s2 with rings := { s2.rings with fetched := s2.rings.fetched.filter (fun f => decide (f.ring ≠ ring)) ++ fs } }
  else s

/-! ## The tumbler cache (R163, R166) -/

def tumblerHit (s : State) (v : ViId) (a : W64) : Option (BitVec 512) :=
  (s.rings.tumblers.find? (fun t => decide (t.vi = v) && decide (t.address = a))).map (fun t => t.word)

/-- A word enters the cache; when it is full the victim is a free choice. -/
def tumblerFill (v : ViId) (a : W64) (w : BitVec 512) (s : State) : State :=
  let t := takeFree s
  let ts := t.2.rings.tumblers
  let kept := if ts.length < Config.tumblerWords then ts else ts.eraseIdx (Config.evict t.1 % ts.length)
  { t.2 with rings := { t.2.rings with tumblers := ⟨v, a, w⟩ :: kept } }

/-- A missed tumbler word returns: it fills the shadow of the chosen command. A word with poison or an error is not kept. -/
def tumblerReturn (v : ViId) (a : W64) (failed : Bool) (s : State) : State :=
  if s.rings.tumblerReads.contains (v, a) then
    let s1 := { s with rings := { s.rings with tumblerReads := s.rings.tumblerReads.filter (fun x => decide (x ≠ (v, a))) } }
    let w := BitVec.ofNat 512 (readNat s .device a.toNat 64)
    let p := sectorPoison s .device a.toNat
    let s2 := countEvent 0x23 1 (some v) s1
    let s3 := if p || failed then s2 else tumblerFill v a w s2
    match s3.rings.chosen with
    | some c =>
      match c.packet, c.shadow with
      | some f, none =>
        if ctxOwner (ctxOfRing s3 c.ring) = v ∧ pkTaddr f.bytes = a.toNat then
          { s3 with rings := { s3.rings with chosen := some { c with shadow := some ⟨w, p, failed⟩ } } }
        else s3
      | _, _ => s3
    | none => s3
  else s

/-! ## Register sets (R169, R170, R484) -/

def hasRegs (c : RingCtx) : Bool := decide (c.vsave ≠ 0)

/-- The bytes of a save area from `off` on lose their defined value: the layout is not given (R483, R484). -/
def touchSave (ring : Nat) (c : RingCtx) (off n : Nat) (s : State) : State :=
  let t := takeFree s
  let sp := ringTile ring
  let a := c.vsave.toNat + off
  setMem t.2 sp ((getMem t.2 sp).undefine a (min n (spaceBytes sp - a)) t.1)

/-- A resident ring's registers go to its save area, unless unchanged. -/
def saveRegs (ring : Nat) (s : State) : State :=
  if s.rings.regsChanged.contains ring then
    let c := ctxOfRing s ring
    let area : SaveArea := ⟨ringTile ring, c.vsave.toNat⟩
    let s1 := countEvent 0x2C 1 (some (ctxOwner c)) (touchSave ring c 0 81920 s)
    { s1 with rings := { s1.rings with
        regsChanged := setErase s1.rings.regsChanged ring,
        savedRegs := (area, regsOf s ring) :: s1.rings.savedRegs.filter (fun x => decide (x.1 ≠ area)) } }
  else s

/-- The registers a save area gives: what was saved there, else nothing defined. -/
def savedRegFile (s : State) (stamp : Nat) (area : SaveArea) : RegFile :=
  match s.rings.savedRegs.find? (fun x => decide (x.1 = area)) with
  | some x => x.2
  | none => (List.range 32).map (fun r => (r, ⟨some stamp, []⟩))

/-- A ring's registers become resident when it starts or resumes a command; the least recently run of 4 leaves. -/
def makeResident (ring : Nat) (s : State) : State :=
  let c := ctxOfRing s ring
  if !hasRegs c then s
  else if s.rings.resident.contains ring then
    { s with rings := { s.rings with resident := s.rings.resident.filter (fun r => decide (r ≠ ring)) ++ [ring] } }
  else
    let s1 := if s.rings.resident.length < Config.residentSets then s
      else match s.rings.resident with
        | [] => s
        | old :: rest =>
          let t := saveRegs old s
          { t with rings := { t.rings with resident := rest, regs := spErase t.rings.regs old } }
    let t := takeFree (countEvent 0x2D 1 (some (ctxOwner c)) s1)
    let f := savedRegFile t.2 t.1 ⟨ringTile ring, c.vsave.toNat⟩
    { t.2 with rings := { t.2.rings with regs := spSet [] t.2.rings.regs ring f, resident := t.2.rings.resident ++ [ring] } }

/-! ## Starting a command (R111, R215, R440, R469) -/

/-- VI_MODE from its 64 bits (R655). -/
def viModeOf (x : W64) : ViMode :=
  { rm := bit x 0, fm := bit x 1, rnd := BitVec.ofNat 3 (field x 4 2), ovfPolicy := bit x 5, flush := bit x 6,
    headroom := BitVec.ofNat 4 (field x 10 7), refpol := BitVec.ofNat 2 (field x 12 11),
    sqnrFloor := BitVec.ofNat 6 (field x 18 13), nanTrap := bit x 19 }

/-- The 64 bits of VI_MODE. -/
def viModeBits (m : ViMode) : W64 :=
  BitVec.ofNat 64 (boolNat m.rm + place (boolNat m.fm) 1 + place m.rnd.toNat 2 + place (boolNat m.ovfPolicy) 5
    + place (boolNat m.flush) 6 + place m.headroom.toNat 7 + place m.refpol.toNat 11 + place m.sqnrFloor.toNat 13
    + place (boolNat m.nanTrap) 19)

def viModeFor (s : State) (covered : Bool) (v : ViId) : ViMode :=
  if covered then viModeOf (coverOf s v).mode else (cfgVi s v).mode

/-- The values in effect: MODES where its override bit is 1, else VI_MODE (R440). -/
def latch (s : State) (covered : Bool) (v : ViId) (p : BitVec 512) : Latched :=
  let m := viModeFor s covered v
  let ov (b : Nat) := decide (modesField p b b = 1)
  { exact := if ov 0 then ov 1 else m.rm, strict := if ov 2 then ov 3 else m.fm,
    rnd := if ov 4 then BitVec.ofNat 3 (modesField p 7 5) else m.rnd, saturate := m.ovfPolicy, flush := m.flush,
    headroom := if ov 8 then BitVec.ofNat 4 (modesField p 12 9) else m.headroom,
    refpol := if ov 15 then BitVec.ofNat 2 (modesField p 14 13) else m.refpol,
    bias := (cfgVi s v).bias, sqnrFloor := m.sqnrFloor, nanTrap := m.nanTrap }

def Progress.zero : Progress :=
  { checked := false, contributed := false, finalised := false, vector := 0, decided := 0, taken := [], kept := [], beats := [],
    positions := 0, elements := 0, flags := 0, poisonIn := false, blocks := 0, promoted := 0, denied := 0,
    saturated := 0, zeroed := 0, headroom := 0, special := 0, signal := 0, noise := 0, side := 0, mapGroup := 0,
    mapBits := 0, mapBase := 0, held := [], heldBeats := [], wrote := [], wroteRegs := [], changed := [],
    reduced := [], upstream := 0, drained := false, drainBytes := [], inputs := [], lists := [], fills := [],
    combine := [], placed := 0, dropped := 0, overflowed := 0, result := 0, count := 0,
    cols := [], snap := [], waiting := [], ready := [], packPend := [], sqnr := [], tagNext := 0, tagPend := [], ended := none }

/-- Descriptors whose DMASK bit is set, in order (R445). -/
def readDescs (s : State) (p : BitVec 512) : Sparse (BitVec 256) :=
  ((List.range 8).filter (fun d => (pkDmask p).testBit d)).map
    (fun d => (d, BitVec.ofNat 256 (readNat s .device (pkDaddr p + 32 * d) 32)))

def descsPoisoned (s : State) (p : BitVec 512) : Bool :=
  ((List.range 8).filter (fun d => (pkDmask p).testBit d)).any (fun d => rangePoison s .device (pkDaddr p + 32 * d) 32)

/-- The opcodes of R448. -/
def opcodeKnown (op : Nat) : Bool :=
  decide (op ≤ 0x0B) || (decide (0x10 ≤ op) && decide (op ≤ 0x13)) || decide (op = 0x18) || decide (op = 0x19)
    || decide (op = 0x20) || decide (op = 0x21) || (decide (0x28 ≤ op) && decide (op ≤ 0x2A)) || decide (op = 0x30)
    || decide (op = 0x31) || decide (op = 0x38)

/-- A new turn (R479, R640). -/
def newTurn (s : State) (ring : Nat) : Turn := ⟨ring, 0, s.cfg.quantum, false⟩

/-- The turn that a ring has: the one that goes on, else a new one. -/
def turnOf (s : State) (ring : Nat) : Turn :=
  match s.rings.turn with
  | some t => if t.ring = ring then t else newTurn s ring
  | none => newTurn s ring

/-- The turn with one more command of a ring started (R479). -/
def turnStart (s : State) (ring : Nat) : Turn := { turnOf s ring with started := (turnOf s ring).started + 1 }

/-- The ring takes the chain. -/
def takeChain (ring : Nat) (t : Turn) (s : State) : State :=
  let c := ctxOfRing s ring
  { s with rings := { s.rings with chosen := none, holder := some ring, turn := some t,
                                   lastHolder := spPut s.rings.lastHolder (ctxClass c) ring } }

/-- The primary of a LOCKSTEP pair forwards what it does to its secondary (R564). -/
def twinForward (e : OutEvent) (s : State) : State :=
  if decide (s.twin.mode = .lockstep) && s.twin.primary then emit s e else s

/-- The command at HEAD starts: HEAD + 1, RUNNING, everything latched. A command read with an error (R537) or with poison, which
counts only now that the command runs (R38, R547), or with a reserved opcode (R455), completes at once. -/
def startRing (f : Fetched) (w : FetchedWord) (s0 : State) : State :=
  let ring := f.ring
  let s := twinForward (.twinCommand ring f.bytes) s0
  let c := ctxOfRing s ring
  let v := ctxOwner c
  let t := turnStart s ring
  let s1 := makeResident ring (takeChain ring t (modCtx s ring (fun c => { c with head := c.head + 1, state := .running })))
  let s2 := { s1 with rings := { s1.rings with
      fetched := s1.rings.fetched.filter (fun x => !(decide (x.ring = ring) && decide (x.index = f.index))) } }
  let base : RunCmd :=
    { ring := ring, vi := v, seq := f.index, packet := 0, descs := [], tumbler := 0, poisonedFetch := true,
      latched := latch s (isCovered ring) v 0, bank := none, tableId := s.tabs.id, key := (viOf s v).key, phase := .running,
      wait := .nothing, tainted := false, failed := none, retained := false, prog := Progress.zero }
  if f.failed then failCmd base ⟨clChip, 13, ckBoundary, 0, none⟩ (setCmd s2 base)
  else if f.poison then completeCmd base .poisonInput 0 0 0 (setCmd (countEvent 0x25 1 (some v) s2) base)
  else
    let p := f.bytes
    let rc := { base with packet := p, latched := latch s (isCovered ring) v p, tumbler := w.word, poisonedFetch := false,
                          descs := readDescs s p, bank := some s.tabs.active }
    let nd := ((List.range 8).filter (fun d => (pkDmask p).testBit d)).length
    let s3 := countEvent 0x23 (ceilDiv nd 2) (some v) (countEvent 0x03 1 (some v) (setCmd s2 rc))
    if w.failed then failCmd rc ⟨clChip, 13, ckBoundary, 0, none⟩ s3
    else if w.poison || descsPoisoned s p then
      completeCmd { rc with poisonedFetch := true } .poisonInput 0 0 0 (countEvent 0x25 (boolNat w.poison) (some v) s3)
    else if !opcodeKnown (pkOpcode p) then refuseCmd rc 0 s3
    else s3

/-! ## Segment boundaries (R482, R486) -/

/-- Vectors between segment boundaries. -/
def segmentVectors (rc : RunCmd) : Nat := if tPack rc.tumbler && !rc.latched.strict then 64 else 128

/-- Vectors of a pass, or records of bucket placement, from one segment boundary to the next. -/
def segmentLength (rc : RunCmd) : Nat := if pkOpcode rc.packet = 0x0A then 65536 else segmentVectors rc

def cmdDrains (rc : RunCmd) : Bool :=
  decide (pkTaddr rc.packet ≠ 0) && (decide (tSrcA rc.tumbler = 1) || decide (tSrcB rc.tumbler = 2))

/-- Bucket records that `v` vectors of a SELECT have placed (R399): those of its whole rows. -/
def recordsAt (rc : RunCmd) (v : Nat) : Nat :=
  pkOpc rc.packet % 2 ^ 11 * min (pkOpb rc.packet) (v * (if cmdDrains rc then 1 else pkVlen rc.packet / (32 * 2 ^ tSeg rc.tumbler)))

/-- Whether a SELECT places records in buckets (R369). -/
def placesRecords (rc : RunCmd) : Bool :=
  decide (pkOpcode rc.packet = 0x06) && decide (tDest rc.tumbler = 0) && decide (tWMode rc.tumbler = 2)

/-- Whether a segment boundary falls after `v` vectors, or records of SCATTER_BUCKETS; the records that a pass places in
buckets have boundaries of their own (R482). -/
def isBoundary (rc : RunCmd) (v : Nat) : Bool :=
  decide (v ≠ 0) && (decide (v % segmentLength rc = 0)
    || (placesRecords rc && decide (recordsAt rc (v - 1) / 65536 < recordsAt rc v / 65536)))

/-- The segments that are complete after `v` vectors or records. -/
def segmentsDone (rc : RunCmd) (v : Nat) : Nat := ((List.range (v + 1)).filter (isBoundary rc)).length

/-- Vectors or records left to the next segment boundary, at most `n`. -/
def toBoundary (rc : RunCmd) (n : Nat) : Nat :=
  let m := min n (segmentLength rc - rc.prog.vector % segmentLength rc)
  if placesRecords rc then
    ((List.range m).find? (fun k => isBoundary rc (rc.prog.vector + k + 1))).elim m (fun k => k + 1)
  else m

/-- Whether a command stands at a segment boundary at which arbitration has not decided yet (R478, R482, R486). -/
def atSegment (s : State) (rc : RunCmd) : Bool :=
  hasRegs (ctxOfRing s rc.ring) && rc.prog.checked
    && (decide (pkOpcode rc.packet = 0x0A) || decide (pkTaddr rc.packet ≠ 0))
    && isBoundary rc rc.prog.vector && decide (rc.prog.decided ≠ rc.prog.vector)

/-- Vectors or records that one step may take of those that are left. -/
def stepLimit (s : State) (rc : RunCmd) (left : Nat) (most : Option Nat) : Nat :=
  let n := min left (most.getD left)
  if atSegment s rc then 0
  else if hasRegs (ctxOfRing s rc.ring) then toBoundary rc n else n

/-- Arbitration has decided at the boundary where the command stands. -/
def decidedHere (rc : RunCmd) : RunCmd := { rc with prog := { rc.prog with decided := rc.prog.vector } }

/-! ## Suspending and resuming (R469, R483, R573) -/

/-- The running command is saved at a segment boundary. -/
def suspendRing (rc : RunCmd) (s : State) : State :=
  let c := ctxOfRing s rc.ring
  let area : SaveArea := ⟨ringTile rc.ring, c.vsave.toNat⟩
  let rc' := { decidedHere rc with phase := .suspended, retained := true }
  let s1 := touchSave rc.ring c 81920 3072 (setCmd s rc')
  let t := takeFree s1
  let prog := BitVec.ofNat 40 (bytesNat ((List.range 5).map (fun i => Config.undefByte t.1 i)))
  let s2 := modCtx t.2 rc.ring (fun c => { c with state := .suspended, prog := prog })
  countEvent 0x0A 1 (some rc.vi) { s2 with rings := { s2.rings with
    holder := none, turn := none, savedCmds := (area, rc') :: s2.rings.savedCmds.filter (fun x => decide (x.1 ≠ area)) } }

/-- The progress that a save area of another unit records: at a segment boundary, and all else as free values (log entry 36). -/
def savedProgress (rc : RunCmd) (stamp : Nat) : Progress :=
  let n (k : Nat) := Config.savedProgress stamp k
  let v := segmentLength rc * n 0
  { Progress.zero with
    vector := v, decided := v, tagNext := v, flags := BitVec.ofNat 8 (n 1), positions := n 2, elements := n 3, blocks := n 4,
    promoted := n 5, denied := n 6, saturated := n 7, zeroed := n 8, special := n 9, headroom := n 10, side := n 11,
    placed := n 12, overflowed := n 13, mapBits := BitVec.ofNat 64 (n 14), mapBase := n 15, signal := BitVec.ofNat 64 (n 16),
    noise := BitVec.ofNat 64 (n 17),
    kept := if tWMode rc.tumbler = 1 then (List.range (pkRows rc.packet)).map (fun r => (r, n (32 + r))) else [],
    inputs := if pkHashIn rc.packet then [(0, [Config.undefByte stamp 0])] else [] }

/-- A command that another unit suspended, or whose saved state is not at hand: its packet, descriptors and tumbler word are read
again, and its modes are those of its VI. -/
def savedElsewhere (s : State) (ring : Nat) (c : RingCtx) : RunCmd × State :=
  let t := takeFree s
  let v := ctxOwner c
  let p := BitVec.ofNat 512 (readNat s .device (packetAddr c c.cpli.toNat) 64)
  let rc : RunCmd :=
    { ring := ring, vi := v, seq := c.cpli, packet := p, descs := readDescs s p,
      tumbler := if pkTaddr p = 0 then 0 else BitVec.ofNat 512 (readNat s .device (pkTaddr p) 64), poisonedFetch := false,
      latched := latch s (isCovered ring) v p, bank := some s.tabs.active, tableId := s.tabs.id, key := (viOf s v).key,
      phase := .suspended, wait := .nothing, tainted := false, failed := none, retained := false, prog := Progress.zero }
  ({ rc with prog := savedProgress rc t.1 }, t.2)

/-- The command of a suspended ring: the one at hand, the one that its save area holds, or one that another unit saved. -/
def suspendedCmd (s : State) (ring : Nat) (c : RingCtx) : RunCmd × State :=
  match cmdOf s ring with
  | some rc => (rc, s)
  | none =>
    match savedCmd s ring c with
    | some rc => (rc, s)
    | none => savedElsewhere s ring c

/-- A SUSPENDED or BLOCKED command takes the chain again. A suspended command of a covered ring that names row slots completes
ERROR_CONTAINED (R573). -/
def resumeRing (ring : Nat) (s : State) : State :=
  let c := ctxOfRing s ring
  let s1 := makeResident ring (takeChain ring (turnOf s ring) (setRingState s ring .running))
  let r := suspendedCmd s1 ring c
  let rc := { r.1 with phase := .running }
  if isCovered ring && decide (c.state = .suspended) && !pkNoSlot rc.packet && !rc.retained then
    failCmdUnlogged { rc with prog := { rc.prog with reduced := [] } } (setCmd r.2 rc)
  else setCmd r.2 rc

/-- A running command waits: the chain is free and its ring BLOCKED (R469). -/
def blockCmd (rc : RunCmd) (w : Wait) (s : State) : State :=
  let s1 := setCmd (setRingState s rc.ring .blocked) { rc with phase := .blocked false, wait := w }
  { s1 with rings := { s1.rings with holder := none, turn := none } }

/-! ## Arbitration (R478 to R481) -/

/-- Whether a packet's pass has a drain port. -/
def packetDrains (s : State) (v : ViId) (p : BitVec 512) : Bool :=
  let a := pkTaddr p
  if a = 0 then false
  else
    let w := match tumblerHit s v (BitVec.ofNat 64 a) with
      | some w => w
      | none => BitVec.ofNat 512 (readNat s .device a 64)
    decide (tSrcA w = 1) || decide (tSrcB w = 2)

/-- The next packet of a READY ring. -/
def nextPacket (s : State) (ring : Nat) : BitVec 512 :=
  let c := ctxOfRing s ring
  match s.rings.fetched.find? (fun f => decide (f.ring = ring) && decide (f.index = c.head)) with
  | some f => f.bytes
  | none => BitVec.ofNat 512 (readNat s .device (packetAddr c c.head.toNat) 64)

/-- Whether arbitration may give a ring the chain (R478, R480); a covered ring that is being released has stopped (R575). A command with a drain port does not start while another one is
suspended, or would be by its start (R300). -/
def eligible (s : State) (e : CtxEntry) : Bool :=
  !(s.twin.releasing && isCovered e.ring) && match e.ctx.state with
  | .ready =>
    !(packetDrains s (ctxOwner e.ctx) (nextPacket s e.ring)
      && s.rings.cmds.any (fun c => (decide (c.phase = .suspended) || decide (s.rings.holder = some c.ring)) && cmdDrains c
          && decide (c.ring ≠ e.ring)))
  | .suspended => true
  | .blocked => match cmdOf s e.ring with
    | some c => decide (c.phase = .blocked true)
    | none => false
  | .running => decide (s.rings.holder = some e.ring)
  | _ => false

def eligibleRings (s : State) : List CtxEntry := s.rings.cache.filter (eligible s)

/-- The first of some rings after a ring number, cyclically. -/
def cyclicNext (last : Nat) (rings : List Nat) : Option Nat :=
  let after := rings.filter (fun r => decide (last < r))
  match after.foldl (fun (a : Option Nat) r => match a with | none => some r | some x => some (min x r)) none with
  | some r => some r
  | none => rings.foldl (fun (a : Option Nat) r => match a with | none => some r | some x => some (min x r)) none

/-- Whether the turn goes on: the ring of the turn is eligible, has commands left in it, and no rule of R479 ends it. -/
def turnHolds (s : State) (cls : Nat) (same : List CtxEntry) : Option Nat :=
  match s.rings.turn with
  | none => none
  | some t =>
    match same.find? (fun e => decide (e.ring = t.ring)) with
    | none => none
    | some e =>
      let more := decide (e.ctx.state = .running) || decide (t.started < ctxWeight e.ctx)
      let expired := t.expired && decide (1 < same.length)
      if decide (ctxClass e.ctx = cls) && more && !expired
          && (decide (e.ctx.state = .running) || decide (e.ctx.state = .ready)) then some t.ring else none

/-- Whether a choice of a ring goes on with its turn. -/
def turnContinues (s : State) (ring : Nat) : Bool :=
  let cls := ctxClass (ctxOfRing s ring)
  decide (turnHolds s cls ((eligibleRings s).filter (fun e => decide (ctxClass e.ctx = cls))) = some ring)

/-- The ring that gets the chain: of the lowest class, the turn's ring or the next in cyclic order. -/
def chooseRing (s : State) : Option Nat :=
  let es := eligibleRings s
  match es.foldl (fun (a : Option Nat) e => match a with
      | none => some (ctxClass e.ctx) | some x => some (min x (ctxClass e.ctx))) none with
  | none => none
  | some cls =>
    let same := es.filter (fun e => decide (ctxClass e.ctx = cls))
    match turnHolds s cls same with
    | some r => some r
    | none =>
      let rings := same.map (fun e => e.ring)
      match spFind s.rings.lastHolder cls with
      | some last => cyclicNext last rings
      | none => rings.foldl (fun (a : Option Nat) r => match a with | none => some r | some x => some (min x r)) none

/-- Whether the unit decides at boundaries now. The release of covered rings leaves its own rings running (R575). -/
def mayArbitrate (s : State) : Bool :=
  decide (s.ctl.state = .active) && !s.ctl.dbgHalt && !unitStops s && !s.rings.fetchStopped
    && !s.ctl.fatal && decide (s.pwr.state = .active) && decide (s.pwr.move = .none) && !s.pwr.grantStop
    && !s.det.stalled && !(decide (s.twin.mode = .lockstep) && s.twin.lost)
    && !isSecondary s

/-! ## Replay (R522) -/

/-- The record at the replay position. -/
def replayRecord (s : State) : Option TraceRecord :=
  if s.det.replayActive && decide (s.det.replayPos ≠ s.det.wptr) then
    some (BitVec.ofNat 256 (readNat s .device (s.cfg.traceBase.toNat * 64 + s.det.replayPos.toNat) 32))
  else none

def replayAdvance (s : State) : State :=
  { s with det := { s.det with replayPos := BitVec.ofNat 32 ((s.det.replayPos.toNat + 32) % traceSize s) } }

def recType (r : TraceRecord) : Nat := field r 7 0
def recA (r : TraceRecord) : Nat := field r 63 32
def recBseq (r : TraceRecord) : Nat := field r 127 64
def recC (r : TraceRecord) : Nat := field r 255 192

/-- Whether a record belongs to a boundary that is past. -/
def recPast (s : State) (r : TraceRecord) : Bool := decide (2 ^ 63 ≤ (recBseq r + 2 ^ 64 - s.det.bseq.toNat) % 2 ^ 64)

/-- The next record that forces a choice; MARK, HINGE_ORDER (forced at the star tail), THROTTLE, POINT and LOST pass. -/
def replaySkip : Nat → State → State
  | 0, s => s
  | n + 1, s =>
    match replayRecord s with
    | none => s
    | some r => if recType r = 1 ∨ recType r = 2 ∨ recType r = 3 then s else replaySkip n (replayAdvance s)

/-- What replay asks at this boundary. -/
inductive ReplayStep where
  | free (s : State)
  | forced (ring : Nat) (s : State)
  | waits (s : State)
  deriving DecidableEq, Repr

/-- Recorded doorbells of this boundary are applied from those held; then the recorded choice is forced. A choice record of a
boundary already decided is passed: SWITCH and ARBITRATE of one boundary tell the same choice (R520). -/
def replayBoundary : Nat → State → ReplayStep
  | 0, s => .waits s
  | n + 1, s0 =>
    let s := replaySkip 3072 s0
    match replayRecord s with
    | none => .free s
    | some r =>
      if recBseq r ≠ s.det.bseq.toNat ∧ recPast s r = false then .free s
      else if recType r = 1 then
        match s.det.heldDoorbells.find? (fun a => decide (a.ring = recA r) && decide (a.action = .doorbell (BitVec.ofNat 32 (recC r)))) with
        | none => .waits s
        | some a =>
          let s1 := { s with det := { s.det with heldDoorbells := s.det.heldDoorbells.erase a } }
          if (cacheEntry s1 a.ring).isNone then .waits (startCtxRead a.ring s)
          else replayBoundary n (replayAdvance (applyAction a s1))
      else if recPast s r then replayBoundary n (replayAdvance s)
      else .forced (if recType r = 2 then recA r else field r 210 192) s

/-! ## One arbitration -/

/-- Progress of the chosen command: its packet is read, its tumbler word fills the shadow, then it starts (R163,
R477). -/
def advanceChosen (s : State) : State :=
  match s.rings.chosen with
  | none => s
  | some ch =>
    let c := ctxOfRing s ch.ring
    let v := ctxOwner c
    match ch.packet with
    | none =>
      match s.rings.fetched.find? (fun f => decide (f.ring = ch.ring) && decide (f.index = c.head)) with
      | none =>
        if s.rings.fetches.contains ch.ring then s
        else { s with rings := { s.rings with fetches := s.rings.fetches ++ [ch.ring] } }
      | some f =>
        let a := pkTaddr f.bytes
        if f.poison || f.failed || decide (a = 0) || decide (a % 64 ≠ 0) then startRing f ⟨0, false, false⟩ s
        else
          match tumblerHit s v (BitVec.ofNat 64 a) with
          | some w => startRing f ⟨w, false, false⟩ (countEvent 0x28 1 (some v) s)
          | none =>
            let s1 := countEvent 0x29 1 (some v) s
            { s1 with rings := { s1.rings with
                chosen := some { ch with packet := some f },
                tumblerReads := if s1.rings.tumblerReads.contains (v, BitVec.ofNat 64 a) then s1.rings.tumblerReads
                  else s1.rings.tumblerReads ++ [(v, BitVec.ofNat 64 a)] } }
    | some f =>
      match ch.shadow with
      | some w => startRing f w s
      | none => s

/-- A decision made: its count, its record, the boundary number, and what the twin hears of it (R481, R517, R520, R564). -/
def decided (ring n : Nat) (s : State) : State :=
  let v := some (ctxOwner (ctxOfRing s ring))
  let s1 := if 2 ≤ n then traceChoice 2 v ring n 0 (countEvent 0x63 1 v (countTiming v s)) else s
  twinForward (.twinDecision ring) (nextBoundary s1)

/-- The chain goes to a ring. -/
def giveChain (ring : Nat) (s : State) : State :=
  match (ctxOfRing s ring).state with
  | .ready => advanceChosen { s with rings := { s.rings with chosen := some ⟨ring, none, none⟩ } }
  | .suspended => resumeRing ring s
  | .blocked => resumeRing ring s
  | _ => s

/-- The decision at a boundary: the choice of R478 or the one that replay forces. -/
def decide1 (forced : Option Nat) (s : State) : State :=
  let n := (eligibleRings s).length
  let pick := match forced with
    | some r => if (eligibleRings s).any (fun e => decide (e.ring = r)) then some r else none
    | none => chooseRing s
  match pick with
  | none => s
  | some r =>
    -- a turn that has ended starts anew, for the same ring too (R479)
    let s := if turnContinues s r then s else { s with rings := { s.rings with turn := none } }
    match holderCmd s with
    | none => giveChain r (decided r n s)
    | some rc =>
      if rc.ring = r then
        let s1 := setCmd (decided r n s) (decidedHere rc)
        { s1 with rings := { s1.rings with turn := some (turnOf s1 r) } }
      else
        let segs := segmentsDone rc rc.prog.vector
        let s1 := decided r n (traceChoice 3 (some rc.vi) rc.ring 0 (r % 2 ^ 19 + place segs 32) s)
        giveChain r (suspendRing rc s1)

/-- Whether arbitration stands at a command boundary or a segment boundary. -/
def atBoundary (s : State) : Bool :=
  match s.rings.holder, holderCmd s with
  | none, _ => true
  | some _, some rc => decide (rc.phase = .running) && atSegment s rc
  | some _, none => false

/-! ## Operating points (R581) -/

/-- The unit asks for an operating point; issue waits for the acknowledgement. -/
def requestPoint (p : BitVec 3) (s : State) : State :=
  if s.pwr.opReq = none ∧ s.pwr.point = p then s
  else emit { s with pwr := { s.pwr with opReq := some p } } (.opRequest p)

/-- R610: point 7 with every slot. -/
def fullSlots (s : State) : State := requestPoint 7 { s with pwr := { s.pwr with slots := 16 } }

/-- HOLDUP is entered: the running command, at a segment boundary, is saved; DRN_REFUSE (R612). A choice whose shadow is filled
stands (R163). -/
def enterHoldup (s : State) : State :=
  let s1 := match holderCmd s with
    | some rc => suspendRing rc s
    | none => s
  fullSlots { s1 with
    ctl := { s1.ctl with refuse := true }
    rings := { s1.rings with chosen := s1.rings.chosen.filter (fun c => c.shadow.isSome) }
    pwr := { s1.pwr with state := .holdup, move := .none } }

/-- What a boundary does before any choice: a requested debug halt or hold-up takes effect (R576, R612). -/
def boundaryRequests (s : State) : State :=
  if s.pwr.holdupReq && decide (s.pwr.state = .active) && decide (s.pwr.move = .none)
      && (decide (s.ctl.state = .active) || decide (s.ctl.state = .fenced)) then enterHoldup s
  else if s.ctl.dbgHaltReq && s.rings.holder.isNone then
    { s with ctl := { s.ctl with dbgHalt := true, dbgHaltReq := false } }
  else s

/-- A choice that replay forces: while its ring is not eligible the unit waits, and reads the ring's context if it has to (R522,
R523). -/
def forceChoice (ring : Nat) (s : State) : State :=
  if (eligibleRings s).any (fun e => decide (e.ring = ring)) then decide1 (some ring) (replayAdvance s)
  else if (cacheEntry s ring).isNone then startCtxRead ring s
  else s

/-- One arbitration step. -/
def arbitrateStep (s0 : State) : State :=
  if !atBoundary s0 then s0
  else
    let s := boundaryRequests (traceThrottle s0)
    if !mayArbitrate s then s
    else
      let s := promoteReads s
      if s.rings.chosen.isSome then advanceChosen s
      else if s.det.replayActive then
        match replayBoundary 3072 s with
        | .free s => decide1 none s
        | .forced r s => forceChoice r s
        | .waits s => s
      else decide1 none s

end Sys2Proof.Machine
end

