-- ==== Sys2Proof/Machine/Operands.lean ====
section
/-! DEFINITION. Operand forms of a pass: its shape (R125 to R129, R153, R160, R228), what INTAKE decodes from memory,
from the drain and from vector registers (R69, R85 to R92, R136, R171 to R174), columns (R122) and row operands
(R123, R138, R261). -/

namespace Sys2Proof.Machine

/-! ## The shape of a pass -/

def psStrict (rc : RunCmd) : Bool := rc.latched.strict
/-- R160, R161. -/
def psPacked (rc : RunCmd) : Bool := tPack rc.tumbler && !rc.latched.strict
/-- Whether EMIT converts to FP64 for memory (R228). -/
def emitsF64 (rc : RunCmd) : Bool :=
  tEn rc.tumbler stEmit && decide (tFmt rc.tumbler = 0) && (decide (tDest rc.tumbler = 0) || decide (tDest rc.tumbler = 2))
/-- Which columns a tumbler word selects, AFFINE's, MIX's and rotary's. -/
def usesColumn (t : BitVec 512) (c : Nat) : Bool :=
  (tEn t stAffine && (decide (tASrc t = 2 + c) || decide (tBSrc t = 2 + c) || decide (tCSrc t = 2 + c) || decide (tDSrc t = 2 + c)))
    || (tEn t stMix && decide (tMSrc t = 4 + c))
    || (tEn t stCurve && decide (tCurve t = 21) && decide (c = 0))

def descOf (rc : RunCmd) (d : Nat) : BitVec 256 := spGet 0 rc.descs d
/-- Whether a selected column is in FP64. -/
def columnF64 (rc : RunCmd) : Bool :=
  (List.range 2).any (fun c => usesColumn rc.tumbler c && decide (dFmt (descOf rc (2 + c)) = 0))
/-- An FP64 pass (R228): a port, a column (DEDUCED: a column is an operand) or EMIT's memory output is FP64. -/
def psF64 (rc : RunCmd) : Bool :=
  psStrict rc && ((decide (tSrcA rc.tumbler = 0) && decide (tFmtA rc.tumbler = 0))
    || (decide (tSrcB rc.tumbler = 1) && decide (tFmtB rc.tumbler = 0)) || columnF64 rc || emitsF64 rc)
/-- The working format. -/
def psFmt (rc : RunCmd) : FloatFmt := if psF64 rc then fmtF64 else if psPacked rc then fmtH24 else fmtW38
/-- P, the width of the pass. -/
def psWidth (rc : RunCmd) : Nat := if psPacked rc then 2 * Config.lanes else Config.lanes
/-- S, the positions of a segment (R153). -/
def psSeg (rc : RunCmd) : Nat :=
  if tEn rc.tumbler stTap then min (32 * 2 ^ tSeg rc.tumbler * (if psPacked rc then 2 else 1)) (psWidth rc) else psWidth rc
def psSegmented (rc : RunCmd) : Bool := decide (psSeg rc < psWidth rc)
def psL (rc : RunCmd) : Nat := pkVlen rc.packet
def psM (rc : RunCmd) : Nat := pkMlen rc.packet
/-- Whether the command scatters its records into buckets (R369, R399). -/
def psBuckets (rc : RunCmd) : Bool :=
  decide (pkOpcode rc.packet = 0x06) && tEn rc.tumbler stEmit && decide (tWMode rc.tumbler = 2)
/-- The rows of the pass: the token rows of a bucket form, whose range is its buckets (R398, R449). -/
def psR (rc : RunCmd) : Nat := if psBuckets rc then pkOpb rc.packet else pkRows rc.packet
/-- Whether a row of the pass has a row slot (R443). -/
def psHasSlot (rc : RunCmd) (row : Nat) : Bool := !pkNoSlot rc.packet && decide (row < pkRows rc.packet)
/-- Vectors of one row. -/
def psPerRow (rc : RunCmd) : Nat := ceilDiv (psM rc) (psL rc)
def psDrains (rc : RunCmd) : Bool := decide (tSrcA rc.tumbler = 1) || decide (tSrcB rc.tumbler = 2)
/-- Vectors of the pass. -/
def psVectors (rc : RunCmd) : Nat :=
  if psSegmented rc && !psDrains rc then ceilDiv (psR rc) (psL rc / psSeg rc) else psR rc * psPerRow rc
def psSlot (rc : RunCmd) (row : Nat) : Nat := pkRow0 rc.packet + row
/-- The space of a descriptor's region. -/
def descSpace (rc : RunCmd) (d : BitVec 256) : Space := if dDevice d then .device else ringTile rc.ring
/-- Flush-to-zero (R107). -/
def psFlush (rc : RunCmd) : Bool := rc.latched.flush && !rc.latched.strict

/-- A place in a vector: position, row, local index. -/
structure Spot where
  pos : Nat
  row : Nat
  j   : Nat
  deriving DecidableEq, Repr

/-- The places of part `k` of a row laid onto vectors of L (R125). -/
def rowSpots (rc : RunCmd) (row k : Nat) : List Spot :=
  (List.range (min (psL rc) (psM rc - psL rc * k))).map (fun p => ⟨p, row, psL rc * k + p⟩)

/-- The places of vector `n` of a pass without a drain port (R125, R126). -/
def vectorSpots (rc : RunCmd) (n : Nat) : List Spot :=
  if psSegmented rc then
    let per := psL rc / psSeg rc
    (List.range per).flatMap (fun g =>
      let row := n * per + g
      if row < psR rc then (List.range (psM rc)).map (fun j => ⟨psSeg rc * g + j, row, j⟩) else [])
  else rowSpots rc (n / psPerRow rc) (n % psPerRow rc)

/-! ## Memory streams -/

/-- Start of a row in a stream of elements of `nb` bytes (R446). -/
def rowStart (d : BitVec 256) (nb m row : Nat) : Nat := dBase d + row * (if dStride d = 0 then m * nb else dStride d)

/-- Blocks of one row (R65). -/
def blocksPerRow (m : Nat) : Nat := ceilDiv m 32

/-- What a read of one element gives: its bits under their scale, the sectors read. -/
structure MemElem where
  val     : Val
  snan    : Bool
  poison  : Bool
  sectors : List (Space × Nat)
  deriving DecidableEq, Repr

def spaceSectors (sp : Space) (a n : Nat) : List (Space × Nat) := (sectorsOf sp a n).map (fun k => (sp, k))

def anyPoison (s : State) (l : List (Space × Nat)) : Bool := l.any (fun x => (getMem s x.1).poisoned x.2)

/-- An element of a stream that is not a block format, at an address. -/
def readScalar (s : State) (sp : Space) (code a : Nat) : MemElem :=
  let raw := readNat s sp a (elemBytes code)
  let sec := spaceSectors sp a (elemBytes code)
  ⟨decodeElem code raw, decodeSignalling code raw, anyPoison s sec, sec⟩

/-- Element `i` of MX block `b` (R61 to R65). -/
def readMx (s : State) (sp : Space) (code base base2 b i : Nat) : MemElem :=
  let a := base + b * blockBytes code
  let lo := elemBits code * i / 8
  let hi := (elemBits code * i + elemBits code - 1) / 8
  let raw := (readNat s sp (a + lo) (hi + 1 - lo) >>> (elemBits code * i % 8)) % 2 ^ elemBits code
  let sec := spaceSectors sp (a + lo) (hi + 1 - lo) ++ spaceSectors sp (base2 + b) 1
  ⟨decodeMx code raw (readByte s sp (base2 + b)), false, anyPoison s sec, sec⟩

/-- PROMO and SIDX of the map entry of a block, and where the map and side regions lie (R419, R679). -/
structure TagPlace where
  promoted : Bool
  side     : Nat
  mapAddr  : Nat
  deriving DecidableEq, Repr

def popBelow (bits n : Nat) : Nat := ((List.range n).filter (fun i => bits.testBit i)).length

def tagPlace (s : State) (rc : RunCmd) (b : Nat) : TagPlace :=
  let aux0 := descOf rc 6
  let sp := descSpace rc aux0
  let a := dBase aux0 + 16 * (b / 64)
  let bits := readNat s sp a 8
  ⟨bits.testBit (b % 64), readNat s sp (a + 8) 4 + popBelow bits (b % 64), a⟩

/-- Element `i` of block `b` of a tagged block stream (R420, R424, R425, R679). -/
def readTagged (s : State) (rc : RunCmd) (d : BitVec 256) (b i : Nat) : MemElem :=
  let sp := descSpace rc d
  let aux0 := descOf rc 6
  let aux1 := descOf rc 7
  let t := tagPlace s rc b
  let mapSec := spaceSectors (descSpace rc aux0) t.mapAddr 16
  let scaleSec := spaceSectors sp (dBase2 d + b) 1
  let scale := readByte s sp (dBase2 d + b)
  if t.promoted then
    if dCap aux1 ≤ t.side then ⟨.nan, false, true, mapSec ++ scaleSec⟩
    else
      let a := dBase aux1 + 32 * t.side
      let sec := mapSec ++ scaleSec ++ spaceSectors (descSpace rc aux1) a 32
      ⟨decodeMx 6 (readNat s (descSpace rc aux1) (a + i) 1) scale, false, anyPoison s sec, sec⟩
  else
    let a := dBase d + 16 * b
    let sec := mapSec ++ scaleSec ++ spaceSectors sp a 16
    let raw := (readNat s sp (a + i / 2) 1 >>> (4 * (i % 2))) % 16
    ⟨decodeMx 10 raw scale, false, anyPoison s sec, sec⟩

/-- Element `k` of a row of a memory stream. -/
def readElem (s : State) (rc : RunCmd) (d : BitVec 256) (code row k : Nat) : MemElem :=
  let b := row * blocksPerRow (psM rc) + k / 32
  if code = codeTagged then readTagged s rc d b (k % 32)
  else if isMx code then readMx s (descSpace rc d) code (dBase d) (dBase2 d) b (k % 32)
  else readScalar s (descSpace rc d) code (rowStart d (elemBytes code) (psM rc) row + k * elemBytes code)

/-- FP32 subnormals become zero under flush-to-zero (R92). -/
def flushed (rc : RunCmd) (code : Nat) (v : Val) : Val × Byte :=
  if psFlush rc && decide (code = 1) && !isZero v && isFinite v && vlt (vabs v) (fmtMinNormal fmtF32) then
    (vzero (isNeg v), flFlush)
  else (v, 0)

/-- What a port delivers: the value, the flags its decode raises, the sectors read, lanes over the headroom. -/
structure PortVal where
  datum    : Datum
  flags    : Byte
  sectors  : List (Space × Nat)
  deriving DecidableEq, Repr

def quiet (v : Val) (poison : Bool) : Datum := ⟨v, 0, poison⟩

/-- INTAKE's decode of a memory element under a scale 2^sc (R85, R86, R136). -/
def decodePort (rc : RunCmd) (code : Nat) (sc : Int) (x : MemElem) : PortVal :=
  let f := flushed rc code x.val
  let v := vscale f.1 sc
  let rounds := decide (sc ≠ 0) || ((decide (code = 0) || decide (code = 13)) && !psF64 rc)
  let r := roundRne (psFmt rc) v
  let fl := f.2 ||| (if rounds then roundFlags (psStrict rc) r else 0)
  ⟨⟨r.val, flagIf x.snan flInvalid, x.poison⟩, if x.poison then 0 else fl, x.sectors⟩

/-! ## The drain (R69, R431) -/

def laneValue (b : Beat) (lane : Nat) : Int := (b.lanes.getD lane 0).toInt

/-- The exact value that an accumulator value of a beat stands for. -/
def drainScaled (biasOn : Bool) (corr : BitVec 16) (sc : Int) (b : Beat) (x : Int) : Val :=
  vdyadic (x * 256 + (if biasOn then (b.count.toNat : Int) * corr.toInt else 0)) (b.exp.toInt - 8 + sc)

/-- The exact value of a drain lane. -/
def drainExact (biasOn : Bool) (corr : BitVec 16) (sc : Int) (b : Beat) (lane : Nat) : Val :=
  drainScaled biasOn corr sc b (laneValue b lane)

/-- R431: less than four bits of margin. -/
def headroomFires (a : Int) : Bool := decide (a < -(2 ^ 43 : Nat)) || decide (((2 ^ 43 : Nat) : Int) ≤ a)

/-- Whether the element at a position lies in the word that failed. -/
def inBadWord (bad : Option BadWord) (pos : Nat) : Bool :=
  match bad with
  | some w => decide (w.first ≤ pos) && decide (pos < w.first + w.elements)
  | none => false

def drainPort (rc : RunCmd) (sc : Int) (b : Beat) (bad : Option BadWord) (pos : Nat) : PortVal :=
  let r := roundRne fmtW38 (drainExact (tBias rc.tumbler) rc.latched.bias sc b pos)
  let hd := flagIf (tHeadroom rc.tumbler && headroomFires (laneValue b pos)) flHeadroom
  let p := inBadWord bad pos
  ⟨⟨r.val, 0, p⟩, if p then 0 else roundFlags (psStrict rc) r ||| hd, []⟩

/-! ## Vector registers (R80, R171 to R174) -/

def laneOf (rc : RunCmd) (pos : Nat) : Nat := if psPacked rc then pos / 2 else pos

/-- An element of a register: poisoned by its lane or by the lane's form. -/
def readReg (s : State) (rc : RunCmd) (reg pos : Nat) : Datum :=
  let x := regLane (regsOf s rc.ring) reg (laneOf rc pos)
  let packed := psPacked rc
  let v := if packed then decodeFloat fmtH24Reg (if pos % 2 = 0 then field x 18 0 else field x 37 19)
    else decodeFloat fmtW38 (field x 37 0)
  quiet v (bit x 39 || decide (bit x 38 ≠ packed))

/-! ## Columns (R122) -/

/-- A column element as decoded, with the flags of its use. -/
def columnElem (s : State) (rc : RunCmd) (c j : Nat) : Datum × List (Space × Nat) :=
  let d := descOf rc (2 + c)
  let code := dFmt d
  let x := if isMx code then readMx s (descSpace rc d) code (dBase d) (dBase2 d) (j / 32) (j % 32)
    else readScalar s (descSpace rc d) code (dBase d + j * elemBytes code)
  let f := flushed rc code x.val
  (⟨f.1, f.2 ||| flagIf x.snan flInvalid, x.poison⟩, x.sectors)

/-! ## Counting reads (R665) -/

def countReads (rc : RunCmd) (l : List (Space × Nat)) (s : State) : State :=
  let ds := l.eraseDups
  let dev := (ds.filter (fun x => decide (x.1 = .device))).length
  let poisoned := (ds.filter (fun x => (getMem s x.1).poisoned x.2)).length
  countEvent 0x25 poisoned (some rc.vi) (countEvent 0x23 dev (some rc.vi)
    (countEvent 0x20 (ds.length - dev) (some rc.vi) s))

/-- The columns are loaded before the first vector. -/
def loadColumns (rc : RunCmd) (s : State) : RunCmd × State :=
  let cs := (List.range 2).filter (usesColumn rc.tumbler)
  let loaded := cs.map (fun c => (c, (List.range (psM rc)).map (columnElem s rc c)))
  let s1 := countReads rc (loaded.flatMap (fun x => x.2.flatMap (fun y => y.2))) s
  ({ rc with prog := { rc.prog with
      cols := loaded.map (fun x => (x.1, x.2.map (fun y => y.1))),
      poisonIn := rc.prog.poisonIn } }, s1)

def columnAt (rc : RunCmd) (c j : Nat) : Datum := (spGet [] rc.prog.cols c).getD j (quiet (vzero false) false)

/-! ## Row operands (R123, R138, R261) -/

/-- The slot that row operands of a row read: as it stood at the row's first vector (R255). -/
def rowSnap (rc : RunCmd) (row : Nat) : Slot := spGet Slot.zero rc.prog.snap row

def swDatum (x : W64) (poison : Bool) : Datum := ⟨ofF64 x, flagIf (isSignalling fmtF64 x.toNat) flInvalid, poison⟩

def swLow (h : Slot) : W64 := BitVec.ofNat 64 h.sw.toNat
def swHigh (h : Slot) : W64 := BitVec.ofNat 64 (h.sw.toNat >>> 64)

def rowOperand (h : Slot) (sel : Nat) : Datum :=
  let fin (n : BitVec 2) (x : W64) : Datum := if h.fin = n then quiet (ofF64 x) h.poison else ⟨.nan, flInvalid, h.poison⟩
  match sel with
  | 8 => quiet (vint (if h.ref = refUnset then 0 else h.ref.toInt)) h.poison
  | 9 => quiet (ofW38 h.maxv.value) h.poison
  | 10 => fin 1 h.fsum
  | 11 => fin 1 h.fsumsq
  | 12 => fin 2 h.fsum
  | 13 => fin 2 h.fsumsq
  | 14 => swDatum (swLow h) h.poison
  | _ => swDatum (swHigh h) h.poison

/-- FP32 immediate. -/
def immDatum (x : W32) : Datum := ⟨ofF32 x, flagIf (isSignalling fmtF32 x.toNat) flInvalid, false⟩

/-- R123: an operand rounded once to the working format, with the flags of its use. -/
def roundOperand (rc : RunCmd) (d : Datum) : Datum :=
  let r := roundRne (psFmt rc) d.val
  if isInf d.val || isNan d.val then d else { d with val := r.val, use := d.use ||| roundFlags (psStrict rc) r }

/-- The query position of a row (R281): masked throughout, up to an index, or nowhere. -/
inductive Query where
  | everywhere
  | above (q : Int)
  | nowhere
  deriving DecidableEq, Repr

def queryOf (h : Slot) : Query :=
  match ofF64 (swHigh h) with
  | .nan => .everywhere
  | .inf n => if n then .everywhere else .nowhere
  | v => .above (vfloor v)

def masked (q : Query) (index : Nat) : Bool :=
  match q with
  | .everywhere => true
  | .nowhere => false
  | .above x => decide (x < (index : Int))

/-- Whether AFFINE of a tumbler word reads row slots, or any other stage does. -/
def readsSlots (t : BitVec 512) : Bool :=
  (tEn t stAffine && (decide (8 ≤ tASrc t) || decide (8 ≤ tBSrc t) || decide (8 ≤ tCSrc t) || decide (8 ≤ tDSrc t) || decide (tMask t = 1)))
    || (tEn t stCurve && decide (tCurve t = 21) && decide (tPosSrc t = 1))

end Sys2Proof.Machine
end

