-- ==== Sys2Proof/Machine/Stages.lean ====
section
/-! DEFINITION. The stages AFFINE to MIX on one element (R120, R139 to R150), and what TAP sees of it (R151 to R154,
R232). -/

namespace Sys2Proof.Machine

/-! ## Exact operations and the trap (R550) -/

/-- A sum in which an exact zero takes the sign that the attribute gives it (`down`: toward negative). -/
def vaddSign (down : Bool) (a b : Val) : Op :=
  let r := vadd a b
  if down && isZero r.val && !(isZero a && isZero b && isNeg a = isNeg b) then { r with val := vzero true } else r

/-- Operands of an operation that made a NaN from numbers. -/
def madeNan (r : Op) (a b : Val) : Option (Val × Val) :=
  if isNan r.val && !isNan a && !isNan b then some (a, b) else none

/-- A partial result: value, flags, the first NaN made. -/
structure Calc where
  val   : Val
  flags : Byte
  made  : Option (Val × Val)
  deriving DecidableEq, Repr

def calcOp (r : Op) (a b : Val) : Calc := ⟨r.val, flagIf r.invalid flInvalid, madeNan r a b⟩

def calcMul (a b : Val) : Calc := calcOp (vmul a b) a b
def calcAdd (down : Bool) (a b : Val) : Calc := calcOp (vaddSign down a b) a b

/-- a · b + c, exact. -/
def calcFma (down : Bool) (a b c : Val) : Calc :=
  let p := calcMul a b
  let s := calcAdd down p.val c
  ⟨s.val, p.flags ||| s.flags, p.made <|> s.made⟩

/-- A result rounded once to the working format, with its flags. -/
def calcRound (rc : RunCmd) (x : Calc) : Calc :=
  let r := roundRne (psFmt rc) x.val
  { x with val := r.val, flags := x.flags ||| roundFlags (psStrict rc) r }

/-- A stage's result on an element: the value that the next stage sees is rounded; the last enabled stage of AFFINE,
JOIN and MIX in a strict pass leaves its rounding to EMIT (R225). -/
def finishStage (rc : RunCmd) (stage : Nat) (last poison : Bool) (use : Byte) (x : Calc) (e : Elem) : Elem :=
  let r := roundRne (psFmt rc) x.val
  let fl := use ||| x.flags ||| (if last then 0 else roundFlags (psStrict rc) r)
  { e with y := ⟨r.val, 0, poison⟩, late := if last then some x.val else none,
           flags := if poison then e.flags else e.flags ||| fl,
           made := if poison then e.made else e.made <|> x.made.map (fun p => (stage, p.1, p.2)) }

/-- A stage value where only W38 can be held: a register written with RAW, a candidate (R157, R228, R364). The unrounded
result of the last stage is rounded to the working format, and that of an FP64 pass once more to W38; the flags of both. -/
def heldW38 (rc : RunCmd) (e : Elem) : Val × Byte :=
  let once := match e.late with
    | some v => roundFlags (psStrict rc) (roundRne (psFmt rc) v)
    | none => 0
  if psF64 rc then
    let r := roundRne fmtW38 e.y.val
    (r.val, once ||| roundFlags (psStrict rc) r)
  else (e.y.val, once)

/-- Which of AFFINE, JOIN and MIX does not round (R225). -/
def lastStage (rc : RunCmd) : Option Nat :=
  let t := rc.tumbler
  if !psStrict rc then none
  else if tEn t stMix then some stMix else if tEn t stCurve then some stCurve
  else if tEn t stAffine then some stAffine else none

/-- Whether the command's attribute gives an exact zero sum a minus sign, at a stage that does not round. -/
def zeroDown (rc : RunCmd) (stage : Nat) : Bool :=
  decide (lastStage rc = some stage) && decide (rndOfCode rc.latched.rnd = .towardNegative)

/-! ## AFFINE (R139) -/

def negDatum (n : Bool) (d : Datum) : Datum := if n then { d with val := vneg d.val } else d

/-- An AFFINE operand by its source. -/
def affineSource (s : State) (rc : RunCmd) (e : Elem) (dflt : Int) (sel : Nat) : Datum :=
  match sel with
  | 0 => quiet (vint dflt) false
  | 1 => immDatum (tAffImm rc.tumbler)
  | 2 => columnAt rc 0 e.j
  | 3 => columnAt rc 1 e.j
  | 4 => readReg s rc (tAffReg rc.tumbler + e.j / psL rc) e.pos
  | 5 => e.xb.getD (quiet .nan false)
  | n => rowOperand (rowSnap rc e.row) n

/-- An AFFINE operand in the working format: row, IMM and column operands are rounded (R123); a register lane and the port
B value are in it already. -/
def affineOperand (s : State) (rc : RunCmd) (e : Elem) (dflt : Int) (sel : Nat) : Datum :=
  let d := affineSource s rc e dflt sel
  if sel = 4 ∨ sel = 5 then d else roundOperand rc d

/-- Operand a of a row, in the working format, after negation and LOG2E: value, flags, NaN made. -/
def affineA (rc : RunCmd) (a : Datum) : Datum × Calc :=
  let d := negDatum (tNegA rc.tumbler) a
  if tLog2e rc.tumbler then
    let c := calcRound rc (calcMul d.val (ofF64 0x3FF71547652B82FE))
    ({ d with val := c.val }, c)
  else (d, ⟨d.val, 0, none⟩)

/-- R139. DEDUCED (log entry 37): its sums are those of IEEE 754 also where every source is at default, so that −0 enters
and +0, which compares equal to it, leaves. -/
def affine (s : State) (rc : RunCmd) (e : Elem) : Elem :=
  let t := rc.tumbler
  let src (neg : Bool) (dflt : Int) (sel : Nat) := negDatum neg (affineOperand s rc e dflt sel)
  let a := affineA rc (affineOperand s rc e 1 (tASrc t))
  let b := src (tNegB t) 0 (tBSrc t)
  let c := src (tNegC t) 1 (tCSrc t)
  let d := src (tNegD t) 0 (tDSrc t)
  let x := e.y.val
  let step1 :=
    if tOrder t then
      let p := calcAdd false x b.val
      let q := calcMul p.val a.1.val
      (⟨q.val, p.flags ||| q.flags, p.made <|> q.made⟩ : Calc)
    else calcFma false a.1.val x b.val
  let r1 := calcRound rc step1
  let last := decide (lastStage rc = some stAffine)
  let u := calcFma (zeroDown rc stAffine) c.val r1.val d.val
  let u1 := if last then u else calcRound rc u
  let q := queryOf (rowSnap rc e.row)
  let mask := decide (tMask t = 1)
  let u2 : Calc :=
    if mask && masked q e.index then
      let m := calcAdd false u1.val (.inf true)
      ⟨m.val, u1.flags ||| m.flags, u1.made <|> m.made⟩
    else u1
  let all : Calc := ⟨u2.val, a.2.flags ||| r1.flags ||| u2.flags, a.2.made <|> r1.made <|> u2.made⟩
  let use := e.y.use ||| a.1.use ||| b.use ||| c.use ||| d.use
  let poison := e.y.poison || a.1.poison || b.poison || c.poison || d.poison || (mask && (rowSnap rc e.row).poison)
  finishStage rc stAffine last poison use all e

/-! ## SPLIT, CURVE, JOIN -/

/-- The pair partner of a local index (R140). -/
def partnerOf (t : BitVec 512) (j : Nat) : Nat := if tPairing t then j ^^^ (2 ^ (tHalfBlk t + 3)) else j ^^^ 1

def curveMode (s : State) (rc : RunCmd) : CurveMode :=
  { bank := spGet ⟨false, []⟩ s.tabs.banks (rc.bank.getD s.tabs.active), packed := psPacked rc, strict := psStrict rc,
    wf := psFmt rc }

/-- What JOIN gives becomes the stage value. -/
def joinElem (rc : RunCmd) (use : Byte) (poison : Bool) (a b : Val) (o : CurveOut) (e : Elem) : Elem :=
  let last := decide (lastStage rc = some stCurve)
  let late := if last then o.late else none
  let fl := use ||| o.flags ||| (if late.isSome then 0 else o.rflags)
  let made := if isNan o.y && !isNan a && !isNan b then some (stCurve, a, b) else none
  { e with y := ⟨o.y, 0, poison⟩, late := if poison then none else late,
           flags := if poison then e.flags else e.flags ||| fl,
           made := if poison then e.made else e.made <|> made }

def nanOut : CurveOut := { y := .nan, late := none, flags := 0, rflags := 0 }

/-- CURVE on one element. `zero` stands for the second operand of a unary operation. -/
def curveElem (s : State) (rc : RunCmd) (e : Elem) : Elem :=
  let t := rc.tumbler
  let m := curveMode s rc
  if tCurve t = 21 then
    let lo := min e.j (partnerOf t e.j)
    let p := if tPosSrc t = 1 then rowOperand (rowSnap rc e.row) 14 else e.xb.getD (quiet .nan false)
    let th := roundOperand rc (columnAt rc 0 lo)
    let poison := p.poison || th.poison
    let r := rotaryAt m p.val th.val
    joinElem rc (p.use ||| th.use) poison p.val th.val (if e.j = lo then r.1 else r.2) e
  else
    let out := if isNan e.y.val then nanOut else curveAt m (tCurve t) e.y.val
    joinElem rc e.y.use e.y.poison e.y.val (vzero false) out e

/-! ## MIX (R147 to R150) -/

/-- The larger (or smaller) of two numbers, the one in the role of y on equality. -/
def pick (wantMax : Bool) (y m : Val) : Val :=
  if isNan y || isNan m then .nan
  else match vcmp y m with
    | .eq => y
    | .lt => if wantMax then m else y
    | .gt => if wantMax then y else m

def relu (y : Val) : Val := if isNan y then .nan else if vlt (vzero false) y then y else vzero false

def nonZero (v : Val) : Bool := !isZero v

/-- R148 with R149's roles already exchanged. DEDUCED (log entry 37): LEAKY uses m only where y is below 0 or NaN, so a
NaN m beside y ≥ 0 does not count as an operand and y is the result. -/
def mixOp (down : Bool) (op : Nat) (sel : Bool) (y m : Val) : Calc :=
  let same (v : Val) : Calc := ⟨v, 0, none⟩
  match op with
  | 0 => calcAdd down y m
  | 1 => let r := vaddSign down y (vneg m); calcOp r y m
  | 2 => calcMul y m
  | 3 => same (pick true y m)
  | 4 => same (pick false y m)
  | 5 => if isNan y || isNan m then same .nan
    else if vlt (vabs m) y then same (vabs m) else if vlt y (vneg (vabs m)) then same (vneg (vabs m)) else same y
  | 6 => same (if sel then y else m)
  | 7 => same (relu y)
  | 8 => if isNan y || isNan m then same .nan else same (if vlt m (relu y) then m else relu y)
  | _ => if vle (vzero false) y then same y else calcMul y m

def mixSource (s : State) (rc : RunCmd) (e : Elem) : Datum :=
  let t := rc.tumbler
  match tMSrc t with
  | 0 => e.xb.getD (quiet .nan false)
  | 1 => e.xa
  | 2 => readReg s rc (tMixReg t + e.j / psL rc) e.pos
  | 3 => immDatum (tMixImm t)
  | n => columnAt rc (n - 4) e.j

/-- MIX's m in the working format: IMM and column operands are rounded (R123); the others are in it already. -/
def mixOperand (s : State) (rc : RunCmd) (e : Elem) : Datum :=
  let d := mixSource s rc e
  if 3 ≤ tMSrc rc.tumbler then roundOperand rc d else d

/-- Whether the operation has no m operand. -/
def mixUnary (t : BitVec 512) : Bool := decide (tMixOp t = 7) && !tSwap t

def mixElem (s : State) (rc : RunCmd) (e0 : Elem) : Elem :=
  let t := rc.tumbler
  let e := { e0 with mixIn := e0.y }
  let last := decide (lastStage rc = some stMix)
  let m := if mixUnary t then quiet (vzero false) false else mixOperand s rc e
  let xb := e.xb.getD (quiet .nan false)
  let select := decide (tMixOp t = 6)
  -- RELU with SWAP 1 reads m alone
  let yUsed := !(decide (tMixOp t = 7) && tSwap t)
  let r := mixOp (zeroDown rc stMix) (tMixOp t) (nonZero xb.val) (if tSwap t then m.val else e.y.val)
    (if tSwap t then e.y.val else m.val)
  let use := (if yUsed then e.y.use else 0) ||| m.use ||| (if select then xb.use else 0)
  let poison := (yUsed && e.y.poison) || m.poison || (select && xb.poison)
  finishStage rc stMix last poison use r e

/-- ROTATE and SWAP_PAIR of an element with its partner, both as they enter MIX. -/
def mixPair (rc : RunCmd) (e0 p : Elem) : Elem :=
  let e := { e0 with mixIn := e0.y }
  let last := decide (lastStage rc = some stMix)
  let poison := e.y.poison || p.y.poison
  if tMixOp rc.tumbler = 11 then finishStage rc stMix last p.y.poison p.y.use ⟨p.y.val, 0, none⟩ e
  else
    let down := zeroDown rc stMix
    let lower := decide (e.j < p.j)
    let x := calcMul (if lower then e.xa.val else p.xa.val) e.y.val
    let z := calcMul (if lower then p.xa.val else e.xa.val) p.y.val
    let zv := if lower then vneg z.val else z.val
    let sum := vaddSign down x.val zv
    let c : Calc := ⟨sum.val, x.flags ||| z.flags ||| flagIf sum.invalid flInvalid,
      x.made <|> z.made <|> madeNan sum x.val z.val⟩
    finishStage rc stMix last (poison || e.xa.poison || p.xa.poison)
      (e.y.use ||| p.y.use ||| e.xa.use ||| p.xa.use) c e

/-- Whether MIX exchanges values between the two elements of a pair. -/
def mixPairs (t : BitVec 512) : Bool := tEn t stMix && (decide (tMixOp t = 10) || decide (tMixOp t = 11))

/-! ## From INTAKE to JOIN -/

/-- AFFINE, the subtraction of a reference (R291), CURVE. -/
def throughJoin (s : State) (rc : RunCmd) (ref : Int) (e : Elem) : Elem :=
  let t := rc.tumbler
  let e1 := if tEn t stAffine then affine s rc e else e
  let e2 := { e1 with aff := e1.y }
  let e3 := if ref = 0 || !isFinite e2.y.val then e2 else { e2 with y := { e2.y with val := (vsub e2.y.val (vint ref)).val } }
  let e4 := if tEn t stCurve then curveElem s rc e3 else e3
  { e4 with mixIn := e4.y }

/-! ## TAP (R151 to R154) -/

def tappedDatum (t : BitVec 512) (e : Elem) : Datum :=
  match if tEn t stTap then tPoint t else 0 with
  | 0 => e.y
  | 1 => e.mixIn
  | 2 => e.aff
  | _ => e.xa

def predicate (t : BitVec 512) (v : Val) : Bool :=
  let th := ofF32 (tThresh t)
  match if tEn t stTap then tPred t else 0 with
  | 0 => !isZero v
  | 1 => vlt th v
  | 2 => vle th v
  | 3 => vlt v th
  | 4 => vle v th
  | 5 => isNan v
  | _ => isInf v

def keepElem (t : BitVec 512) (e : Elem) : Bool := predicate t (tappedDatum t e).val

def tapOf (t : BitVec 512) (e : Elem) : Tapped :=
  let d := tappedDatum t e
  { pos := e.pos, index := e.index, val := d.val, aff := e.aff.val, pred := predicate t d.val,
    poison := d.poison || (decide (tTapOp t = 8) && e.aff.poison) }

/-- Whether the tapped value is that of the stage which does not round (R225), so that TAP's rounding of it to the working
format (R232) is its own. -/
def tapsLast (rc : RunCmd) : Bool :=
  let t := rc.tumbler
  match lastStage rc with
  | none => false
  | some n => tPoint t = 0 || (tPoint t = 1 && decide (n ≠ stMix)) || (decide (n = stAffine) && (tPoint t = 2 || tTapOp t = 8))

/-- The flags of one position that TAP delivers: those of using signalling NaNs, of the tapped value and with LSE of the
AFFINE output too (R91, R251), and those of rounding to the working format (R232, R676). -/
def tapUseOf (rc : RunCmd) (e : Elem) : Byte :=
  let t := rc.tumbler
  let d := tappedDatum t e
  let once := match e.late with
    | some v => if tapsLast rc then roundFlags (psStrict rc) (roundRne (psFmt rc) v) else 0
    | none => 0
  (if d.poison then 0 else d.use ||| once)
    ||| (if decide (tTapOp t = 8) && !e.aff.poison then e.aff.use else 0)

def tapUse (rc : RunCmd) (es : List Elem) : Byte := es.foldl (fun f e => f ||| tapUseOf rc e) 0

end Sys2Proof.Machine
end

