-- ==== Sys2Proof/Machine/Drain.lean ====
section
/-! DEFINITION. The drain queue (R29 to R33, R276 to R280) and the shift requests (R34, R295 to R299, R627). -/

namespace Sys2Proof.Machine

/-- The larger of two records; of equal values that of the lower lane, the first. -/
def laneMaxOf (a b : LaneMax) : LaneMax := if a.value.toInt < b.value.toInt then b else a

/-- The prescan of lanes `first` to `first + n - 1` of a beat. -/
def prescanGroup (b : Beat) (first n : Nat) : LaneMax :=
  (List.range n).foldl (fun m i => laneMaxOf m ⟨b.lanes.getD (first + i) 0, first + i⟩) ⟨b.lanes.getD first 0, first⟩

/-- A beat as it is written to the queue, with its maxima (R32, R282). -/
def prescan (b : Beat) : DrainEntry :=
  { beat := b, top := prescanGroup b 0 Config.lanes,
    groups := (List.range 16).map (fun g => prescanGroup b (32 * g) 32) }

/-- The front beat leaves the queue; its credit returns, or is held back while the unit refuses (R31, R33). -/
def takeBeat (s : State) : Option (DrainEntry × State) :=
  match s.drain.queue with
  | [] => none
  | b :: rest =>
    let s1 := { s with drain := { s.drain with queue := rest } }
    if s.ctl.refuse then some (b, { s1 with drain := { s1.drain with withheld := s1.drain.withheld + 1 } })
    else some (b, emit { s1 with drain := { s1.drain with credits := s1.drain.credits + 1 } } (.drnCredit 1))

/-- Row handle and key block of a row identity (R276). -/
def beatHandle (b : Beat) : Nat := field b.rowId 14 0
def beatBlock (b : Beat) : Nat := field b.rowId 31 15

/-- The row of the command that a beat belongs to; none when R279 or R280 refuses it. -/
def beatRow (rc : RunCmd) (b : Beat) : Option Nat :=
  let h := beatHandle b
  let r := h - pkRow0 rc.packet
  if pkRow0 rc.packet ≤ h ∧ r < psR rc ∧ beatBlock b < psPerRow rc ∧ spGet 0 rc.prog.beats r < psPerRow rc then some r
  else none

/-- The drain record of the digest's upstream field, and the row's count of beats. -/
def noteBeat (rc : RunCmd) (row : Nat) (b : Beat) : RunCmd :=
  let p := rc.prog
  let bytes := if pkHashIn rc.packet then
      (rowSpots rc row (beatBlock b)).map (fun x => (row, x.j, b.lanes.getD x.pos 0)) else []
  { rc with prog := { p with
      beats := spPut p.beats row (spGet 0 p.beats row + 1), upstream := p.upstream + b.digest, drained := true,
      drainBytes := p.drainBytes ++ bytes } }

/-- Requests that still hold a place in the request queue. -/
def queuedShifts (s : State) : Nat := (s.shift.requests.filter (fun r => !r.sent)).length

/-- A shift request is queued and goes out (R295). -/
def requestShift (vi : ViId) (rowId : W32) (delta : Nat) (s : State) : State :=
  let sh := BitVec.ofNat 8 (min delta 127)
  let s1 := countEvent 0x31 1 (some vi) { showTwin [rowId.toNat, sh.toNat, s.ctl.incarnation.toNat] s with shift := { s.shift with
    requests := s.shift.requests ++ [⟨rowId, sh, s.ctl.incarnation, false⟩] } }
  if isSecondary s then s1 else emit s1 (.shfReq rowId sh s.ctl.incarnation)

/-- The oldest queued request leaves the queue. -/
def shiftPlace : List ShiftReq → List ShiftReq
  | [] => []
  | r :: rest => if r.sent then r :: shiftPlace rest else { r with sent := true } :: rest

end Sys2Proof.Machine
end

