-- ==== Sys2Proof/Machine/Check.lean ====
section
/-! DEFINITION. The checks before a command runs (R454) and the DETAIL of each failure (R455): the packet's fields
(R437 to R453, R531), the descriptors (R445 to R447), the tumbler word (R159 and what each opcode adds), the
row-handle range (R26, R263 to R265), the quota (R267) and the table identifier (R216). -/

namespace Sys2Proof.Machine

/-- DETAIL of the first condition that holds, in the order given. -/
def firstBad : List (Bool × Nat) → Option Nat
  | [] => none
  | (bad, d) :: rest => if bad then some d else firstBad rest

/-- A condition that involves more than one field (R455). -/
def detMulti : Nat := 0xFFFF

/-! ## Usage of the packet by each opcode (R449) -/

inductive PassUse where
  | none
  | optional
  | required
  deriving DecidableEq, Repr

inductive RowUse where
  | none
  | either
  | slots
  | noslot
  deriving DecidableEq, Repr

/-- What an opcode uses: pass, rows, flags, the used low bits of OPA, KEY, OPB, OPC, chain, bits of MODES beyond those
of a pass, and the descriptors that may lie in device memory. -/
structure OpUse where
  pass  : PassUse
  rows  : RowUse
  f0    : Bool
  f1    : Bool
  opa   : Nat
  key   : Nat
  opb   : Nat
  opc   : Nat
  chain : Bool
  modes : Nat
  dev   : List Nat
  deriving DecidableEq, Repr

def OpUse.base (pass : PassUse) (rows : RowUse) : OpUse :=
  { pass := pass, rows := rows, f0 := false, f1 := false, opa := 0, key := 0, opb := 0, opc := 0, chain := false,
    modes := 0, dev := [] }

/-- R449. What the usage table does not name is reserved (R442), MODES of ROWSTAT_OPEN and of SAMPLE among it: they run
in the reduction mode of VI_MODE (log entry 37). -/
def opUse (p : BitVec 512) : OpUse :=
  match pkOpcode p with
  | 0x01 => { OpUse.base .required .either with f0 := true, chain := true }
  | 0x02 => { OpUse.base .required .either with f0 := true, chain := true }
  | 0x03 => { OpUse.base .optional .slots with f0 := true, opa := 32, chain := true }
  | 0x04 => { OpUse.base .required .slots with modes := 0xFF00 }
  | 0x05 => { OpUse.base .optional .slots with f0 := true, chain := true, dev := [5] }
  | 0x06 => { OpUse.base .required .either with f0 := true, f1 := true, opa := 32, opb := 32, opc := 11, chain := true }
  | 0x07 => { OpUse.base .none .noslot with
      f0 := true, opa := 32, key := 64, opb := 32, opc := 13, chain := true, dev := [4] }
  | 0x08 => OpUse.base .required .either
  | 0x09 => OpUse.base .required .either
  | 0x0A => { OpUse.base .none .slots with opa := 32, opb := 32, opc := 7 }
  | 0x0B => { OpUse.base .required .either with dev := [5] }
  | 0x10 => { OpUse.base .none .slots with key := 16 }
  | 0x11 => OpUse.base .none .slots
  | 0x12 => { OpUse.base .none .slots with f0 := true }
  | 0x13 => OpUse.base .none .slots
  | 0x18 => { OpUse.base .none (if pkF0 p then .none else .slots) with f0 := true, chain := true, dev := [0] }
  | 0x19 => { OpUse.base .none .either with opc := 5, chain := true, dev := [4] }
  | 0x20 => { OpUse.base .none .none with opc := 5, dev := [0] }
  | 0x28 => { OpUse.base .none .none with f0 := true }
  | 0x29 => { OpUse.base .none .none with f0 := true, opa := 8, opb := 32 }
  | 0x2A => { OpUse.base .none .none with opa := 8, opb := 32, opc := 16 }
  | 0x30 => { OpUse.base .none .none with f0 := true, opa := 18, dev := [4] }
  | 0x31 => { OpUse.base .none .none with f0 := true, opa := 20, dev := [4] }
  | 0x38 => { OpUse.base .none .none with opa := 32, dev := [4] }
  | _ => OpUse.base .none .none

/-- Whether the command runs a pass. -/
def hasPass (p : BitVec 512) : Bool :=
  match (opUse p).pass with
  | .none => false
  | .optional => decide (pkTaddr p ≠ 0)
  | .required => true

/-! ## Step 1: the packet -/

/-- A field of which the low `used` bits are in use: nonzero above them. -/
def overUsed (x used : Nat) : Bool := decide (x >>> used ≠ 0)

/-- The descriptor of the chain that a command names. -/
def namedChain (s : State) (rc : RunCmd) : ChainDesc := chainAt s (pkChainId rc.packet)

/-- Whether the command names a chain that its VI holds here: what depends on the chain's KIND is judged only then
(R329, R487). -/
def chainKnown (s : State) (rc : RunCmd) : Bool :=
  pkChv rc.packet && (namedChain s rc).valid && decide ((namedChain s rc).owner = rc.vi)

/-- Whether the tumbler address can be read at all (R159). -/
def tumblerRead (rc : RunCmd) : Bool := decide (pkTaddr rc.packet % 64 = 0)

/-- Packet fields that a row of R449 uses on a condition: OPB and the range of a bucket SELECT, CHAIN of a chained one
(a chain named in another form is R372's), NOSLOT and OPC of HINGE_WAIT by the chain's KIND. -/
def checkConditional (s : State) (rc : RunCmd) : Option Nat :=
  let p := rc.packet
  let select := decide (pkOpcode p = 0x06) && tumblerRead rc
  let wait := decide (pkOpcode p = 0x19) && chainKnown s rc
  let buckets := decide (tWMode rc.tumbler = 2)
  let kind := cdKind (namedChain s rc).image
  firstBad
    [ (select && buckets && pkNoSlot p, 27), (wait && decide (pkNoSlot p ≠ decide (2 ≤ kind)), 27),
      (select && decide (tDest rc.tumbler ≠ 3) && !pkChv p && decide (pkChainId p ≠ 0), 40),
      (select && !buckets && decide (pkOpb p ≠ 0), 56), (wait && decide (kind ≠ 2) && decide (pkOpc p ≠ 0), 60) ]

def checkPacket (s : State) (rc : RunCmd) : Option Nat :=
  let p := rc.packet
  let u := opUse p
  let pass := hasPass p
  let modesUsed := (if pass then 0xFF else 0) ||| u.modes
  let above (x used byte : Nat) : Bool × Nat := (overUsed x used, byte + used / 8)
  let rowsUsed := decide (u.rows ≠ .none)
  firstBad
    [ (!opcodeKnown (pkOpcode p), 0), (decide (pkVi p ≠ rc.vi.toNat), 1), (decide (pkSeq p ≠ rc.seq.toNat), 4),
      (bit p 19 || (pkF0 p && !u.f0) || (pkF1 p && !u.f1) || decide (field p 31 22 ≠ 0), 2),
      (decide (u.pass = .required) && decide (pkTaddr p = 0), 8),
      (decide (u.pass = .none) && decide (pkTaddr p ≠ 0), 8),
      (decide (if pkDmask p = 0 then pkDaddr p ≠ 0 else pkDaddr p % 64 ≠ 0), 16),
      (!rowsUsed && decide (pkRow0 p ≠ 0), 24), (bit p 207, 25), (!rowsUsed && decide (field p 222 208 ≠ 0), 26),
      (!rowsUsed && pkNoSlot p, 27),
      (decide (u.rows = .slots) && pkNoSlot p, 27), (decide (u.rows = .noslot) && !pkNoSlot p, 27),
      (!pass && decide (pkMlen p ≠ 0), 28), (!pass && decide (pkShard p ≠ 0), 32),
      (!pass && decide (pkVlen p ≠ 0), 38), (decide (field p 319 315 ≠ 0), 39),
      (!u.chain && decide (pkChainId p ≠ 0), 40), (decide (field p 334 330 ≠ 0), 41), (!u.chain && pkChv p, 41),
      (decide (pkModes p % 256 &&& (0xFF ^^^ modesUsed % 256) ≠ 0), 42),
      (decide (pkModes p / 256 &&& (0xFF ^^^ modesUsed / 256) ≠ 0), 43),
      above (pkOpa p) u.opa 44, above (pkKey p) u.key 48, above (pkOpb p) u.opb 56, above (pkOpc p) u.opc 60,
      (decide (field p 511 500 ≠ 0), 62),
      (pass && decide (pkMlen p = 0), 28), (pass && decide (pkVlen p = 0), 38),
      (decide (modesField p 4 4 = 1) && decide (5 ≤ modesField p 7 5), 42),
      ((pkHashIn p || pkHashOut p) && decide (rc.key = none), 62),
      (decide (pkOpcode p = 0x0A) && (decide (pkOpc p = 0) || decide (64 < pkOpc p)), 60),
      (decide (pkOpcode p = 0x20) && decide (pkOpc p % 4 = 3), 60),
      ((decide (pkOpcode p = 0x20) || decide (pkOpcode p = 0x21))
        && !(s.cfg.ownerValid && decide (s.cfg.ownerVi = rc.vi)), 1) ]

/-! ## Step 2: the descriptors (R445 to R447) -/

/-- Whether the EMIT stage of a pass writes memory through DST0. -/
def writesDst0 (rc : RunCmd) : Bool :=
  let t := rc.tumbler
  if pkOpcode rc.packet = 0x06 then tEn t stEmit && decide (tDest t = 0) && decide (tWMode t ≠ 2)
  else tEn t stEmit && (decide (tDest t = 0) || decide (tDest t = 2))

/-- Whether EMIT of a command's pass writes vector registers. -/
def writesRegs (rc : RunCmd) : Bool :=
  decide (pkOpcode rc.packet ≠ 0x06) && tEn rc.tumbler stEmit && (decide (tDest rc.tumbler = 1) || decide (tDest rc.tumbler = 2))

/-- Whether the pass reads or writes a tagged block stream. -/
def usesTagged (rc : RunCmd) : Bool :=
  let t := rc.tumbler
  (decide (tSrcA t = 0) && decide (tFmtA t = codeTagged)) || (decide (tSrcB t = 1) && decide (tFmtB t = codeTagged))
    || (writesDst0 rc && decide (tFmt t = codeTagged))

/-- Descriptors that a command must have, and those it may have. -/
def descNeeds (rc : RunCmd) : List Nat × List Nat :=
  let p := rc.packet
  let t := rc.tumbler
  let op := pkOpcode p
  let pass : List Nat :=
    if hasPass p then
      (if tSrcA t = 0 then [0] else []) ++ (if tSrcB t = 1 then [1] else [])
        ++ ((List.range 2).filter (usesColumn t)).map (fun c => 2 + c) ++ (if writesDst0 rc then [4] else [])
        ++ (if usesTagged rc then [6, 7] else [])
    else []
  match op with
  | 0x05 => (pass ++ (if pkF0 p then [5] else []), [])
  | 0x06 => (pass, if psBuckets rc then [6] else [])
  | 0x07 => ([], [4])
  | 0x08 => (pass ++ [5], [])
  | 0x0A => ([0], [6])
  | 0x0B => (pass, [5])
  | 0x10 => ([], [0])
  | 0x12 => ([4], [])
  | 0x13 => ([0], [])
  | 0x18 => (if pkF0 p then [0] else [], [])
  | 0x19 => ([], [4])
  | 0x20 => (if pkOpc p % 4 = 1 then [] else [0], [])
  | 0x30 => ([4], [])
  | 0x31 => ([4], [])
  | 0x38 => ([4], [])
  | _ => (pass, [])

/-- The format code of the tensor that a descriptor names; none where it names no tensor of a format. -/
def descCode (rc : RunCmd) (d : Nat) : Option Nat :=
  let t := rc.tumbler
  -- the drain's code names no format of a region; the tumbler word is refused for it (R51, R159)
  let plain (c : Nat) : Option Nat := if c = codeDrain then none else some c
  if !hasPass rc.packet then none
  else if d = 0 then (if tSrcA t = 0 then plain (tFmtA t) else none)
  else if d = 1 then (if tSrcB t = 1 then plain (tFmtB t) else none)
  else if d = 2 ∨ d = 3 then plain (dFmt (descOf rc d))
  else if d = 4 then (if writesDst0 rc then plain (tFmt t) else none)
  else none

/-- Bytes of a region, and bytes of its scale region. -/
def regionSize (rc : RunCmd) (d : Nat) : Nat × Nat :=
  let p := rc.packet
  let x := descOf rc d
  let r := psR rc
  let m := psM rc
  let nb := r * blocksPerRow m
  match pkOpcode p, d with
  | 0x0A, 0 => (8 * (pkOpb p * pkOpc p), 0)
  | 0x0A, 6 => (16 * dCap x, 0)
  | 0x10, 0 => (16 * pkRows p, 0)
  | 0x12, 4 => (256 * pkRows p, 0)
  | 0x13, 0 => (256 * pkRows p, 0)
  | 0x18, 0 => (64, 0)
  | 0x07, 4 => (8 * (pkRows p * (field p 492 485 + 1)), 0)
  | 0x19, 4 => (8 * pkRows p, 0)
  | 0x30, 4 => (128, 0)
  | 0x31, 4 => (192, 0)
  | 0x38, 4 => (4104, 0)
  | 0x20, 0 => (if pkOpc p % 4 = 0 then 393216 else 32, 0)
  | 0x05, 5 => (8 * r, 0)
  | 0x08, 5 => (4 * r, 0)
  | 0x0B, 5 => (64, 0)
  | op, d =>
    if op = 0x06 ∧ d = 4 then (8 * (r * pkOpc p), 0)
    else if d = 6 then (if usesTagged rc then 16 * ceilDiv nb 64 else 16 * dCap x, 0)
    else if d = 7 then (32 * dCap x, 0)
    else match descCode rc d with
      | none => (0, 0)
      | some c =>
        if d = 2 ∨ d = 3 then
          if isMx c then (blocksPerRow (dCap x) * blockBytes c, blocksPerRow (dCap x)) else (dCap x * elemBytes c, 0)
        else if c = codeTagged then (16 * nb, nb)
        else if isMx c then (nb * blockBytes c, nb)
        else if dStride x = 0 then (r * m * elemBytes c, 0) else (dStride x * (r - 1) + m * elemBytes c, 0)

/-- The element size to which BASE is aligned: that of the descriptor's format, of COMPRESS's INT32 counts (R408), of
SOFTMAX_FINAL's binary64 results (R306); 64 where a rule asks for it (R272, R418, R674). -/
def baseAlign (rc : RunCmd) (d : Nat) (tagged : Bool) : Nat :=
  let op := pkOpcode rc.packet
  if tagged || decide (op = 0x12) || decide (op = 0x31) then 64
  else if d = 5 ∧ op = 0x08 then 4
  else if d = 5 ∧ op = 0x05 then 8
  else match descCode rc d with
    | some c => if isBlock c then 1 else max 1 (elemBytes c)
    | none => 1

/-- R447 for one present descriptor. A ROWSTAT_SPILL whose destination is not 64-byte aligned (R272) is refused like an
unaligned element region, at the BASE byte (DESIGN CHOICE, log entry 37). -/
def checkDesc (rc : RunCmd) (d : Nat) : Option Nat :=
  let p := rc.packet
  let x := descOf rc d
  let op := pkOpcode p
  let at_ (b : Nat) := 128 + 32 * d + b
  let col := decide (hasPass p) && (decide (d = 2) || decide (d = 3))
  let code := descCode rc d
  let block := match code with | some c => isBlock c | none => false
  let tagged := usesTagged rc && hasPass p && (decide (d = 6) || decide (d = 7) || decide (code = some codeTagged))
  let capUsed := col || (hasPass p && usesTagged rc && decide (d = 7))
    || (decide (d = 6) && (decide (op = 0x0A) || psBuckets rc))
  let size := regionSize rc d
  firstBad
    [ (!block && decide (dBase2 x ≠ 0), at_ 8), (!capUsed && decide (dCap x ≠ 0), at_ 20),
      (decide (field x 199 193 ≠ 0), at_ 24), ((!col && decide (field x 203 200 ≠ 0)) || decide (field x 207 204 ≠ 0), at_ 25),
      (col && decide (14 ≤ dFmt x), at_ 25), (decide (field x 255 208 ≠ 0), at_ 26),
      (!dDevice x && decide (Config.tileBytes < dBase x + size.1), at_ 0),
      (!dDevice x && decide (0 < size.2) && decide (Config.tileBytes < dBase2 x + size.2), at_ 8),
      (decide (dBase x % baseAlign rc d tagged ≠ 0), at_ 0), (tagged && decide (d ≠ 6) && decide (d ≠ 7) && decide (dBase2 x % 64 ≠ 0), at_ 8),
      (decide (dStride x ≠ 0) && (block || decide (op = 0x10) || decide (op = 0x12) || decide (op = 0x13)), at_ 16),
      (dDevice x && !(opUse p).dev.contains d, at_ 24) ]

/-- The reserved bits that no use of a descriptor changes. -/
def checkDescBits (rc : RunCmd) (d : Nat) : Option Nat :=
  let x := descOf rc d
  let at_ (b : Nat) := 128 + 32 * d + b
  firstBad [ (decide (field x 199 193 ≠ 0), at_ 24), (decide (field x 207 204 ≠ 0), at_ 25), (decide (field x 255 208 ≠ 0), at_ 26) ]

/-- Descriptors of a command whose tumbler word cannot be read: which of them its pass uses, and how, no word says, so
only those that the opcode itself asks for and the bits reserved in every use are judged (log entry 37). -/
def checkDescsBlind (rc : RunCmd) : Option Nat :=
  let p := rc.packet
  let has (d : Nat) := (pkDmask p).testBit d
  let five := (decide (pkOpcode p = 0x08) || (decide (pkOpcode p = 0x05) && pkF0 p)) && !has 5
  if five then some 37 else ((List.range 8).filter has).findSome? (checkDescBits rc)

def checkDescsUsed (rc : RunCmd) : Option Nat :=
  let needs := descNeeds rc
  let has (d : Nat) := (pkDmask rc.packet).testBit d
  let wrong := (List.range 8).any (fun d =>
    (needs.1.contains d && !has d) || (has d && !needs.1.contains d && !needs.2.contains d))
  if wrong then some 37
  else ((List.range 8).filter has).findSome? (checkDesc rc)

/-- The segment entries that an image of a custom slot holds: those that its pieces name (log entry 23). -/
def slotSegments (d : BitVec 256) : Nat :=
  let top (p : BitVec 64) := if pcValid p then min 512 (pcBase p + 2 ^ pcG p) else 0
  max (top (piece d 0)) (top (piece d 1))

/-- The image of a custom slot (R207) is as long as its directory entry says: it too ends within the tile's SRAM. -/
def checkSlotImage (s : State) (rc : RunCmd) : Option Nat :=
  let p := rc.packet
  let x := descOf rc 0
  if pkOpcode p = 0x20 ∧ pkOpc p % 4 = 2 ∧ !dDevice x then
    let e := BitVec.ofNat 256 (readNat s (descSpace rc x) (dBase x) 32)
    if Config.tileBytes < dBase x + 32 + 32 * slotSegments e then some 128 else none
  else none

def checkDescs (s : State) (rc : RunCmd) : Option Nat :=
  if hasPass rc.packet && !tumblerRead rc then checkDescsBlind rc else checkDescsUsed rc <|> checkSlotImage s rc

/-! ## Step 3: the tumbler word (R130 to R161) -/

/-- Lowest bits of the fields of each stage, reserved runs among them. -/
def fieldStarts (stage : Nat) : List Nat :=
  match stage with
  | 0 => [0, 1, 2, 3, 4, 6, 10, 15, 17, 21, 26, 28, 36]
  | 1 => [0, 1, 2, 3, 7, 11, 15, 19, 20, 21, 22, 23, 25, 30, 32]
  | 2 => [0, 1, 4, 5, 7, 8, 11]
  | 3 => [0, 1, 6]
  | 4 => [0, 1, 3, 5]
  | 5 => [0, 1, 5, 8, 13, 14, 32]
  | 6 => [0, 1, 5, 7, 10, 13, 32]
  | _ => [0, 1, 5, 7, 12, 13, 15, 16, 17, 21, 26, 27]

/-- Reserved bits of an enabled stage. -/
def reservedBits (t : BitVec 512) (stage : Nat) : Nat :=
  match stage with
  | 0 => place (tf t 0 63 36) 36
  | 1 => place (tf t 1 31 30) 30
  | 2 => place (tf t 2 63 11) 11
  | 3 => place (tf t 3 63 6) 6
  | 4 => place (tf t 4 63 5) 5
  | 5 => place (tf t 5 31 14) 14
  | 6 => place (tf t 6 31 13) 13
  | _ => place (tf t 7 63 27) 27

/-- DETAIL of a field of a stage by its lowest bit. -/
def detField (stage lo : Nat) : Nat := 64 + 8 * stage + lo / 8

/-- DETAIL of the field that holds the lowest set bit of a fault. -/
def detLowest (stage bits : Nat) : Nat :=
  let b := ((List.range 64).find? (fun i => bits.testBit i)).getD 0
  detField stage ((fieldStarts stage).foldl (fun a lo => if lo ≤ b then lo else a) 0)

/-- Reserved bits of one stage (R9, R132). -/
def checkReserved (t : BitVec 512) (stage : Nat) : Option Nat :=
  let bits := if stage = 0 || tEn t stage then reservedBits t stage else tf t stage 63 1 * 2
  if bits = 0 then none else some (detLowest stage bits)

/-- Reserved values of encoded fields (R134, R135, R149). -/
def checkValues (t : BitVec 512) : Option Nat :=
  let en (st : Nat) (c : Bool) := tEn t st && c
  let src67 (x : Nat) := decide (x = 6) || decide (x = 7)
  firstBad
    [ (decide (2 ≤ tRdMode t), detField 0 26), (decide (tSrcA t = 3), detField 0 4),
      (!tEn t 0 && decide (tSrcA t ≠ 2), detField 0 4),
      (!tEn t 0 && !(decide (tSrcB t = 0) || decide (tSrcB t = 3)), detField 0 15),
      (decide (tSrcA t = 1) && decide (tSrcB t = 2), detMulti),
      ((match tSrcA t with | 0 => decide (tFmtA t = 14) | 1 => decide (tFmtA t ≠ 14) | _ => decide (tFmtA t ≠ 0)), detField 0 6),
      ((match tSrcB t with | 1 => decide (tFmtB t = 14) | 2 => decide (tFmtB t ≠ 14) | _ => decide (tFmtB t ≠ 0)), detField 0 17),
      (en 1 (src67 (tASrc t)), detField 1 3), (en 1 (src67 (tBSrc t)), detField 1 7),
      (en 1 (src67 (tCSrc t)), detField 1 11), (en 1 (src67 (tDSrc t)), detField 1 15),
      (en 1 (decide (2 ≤ tMask t)), detField 1 23),
      (en 2 (decide (6 ≤ tSplitMode t)), detField 2 1), (en 2 (decide (2 ≤ tPosSrc t)), detField 2 5),
      (en 2 (decide (6 ≤ tHalfBlk t)), detField 2 8), (en 3 (decide (tCurve t = 22) || decide (tCurve t = 23)), detField 3 1),
      (en 5 (decide (6 ≤ tMSrc t)), detField 5 5), (en 5 (decide (12 ≤ tMixOp t)), detField 5 1),
      (en 5 ((decide (tMixOp t = 10) || decide (tMixOp t = 11)) && tSwap t), detField 5 13),
      (en 6 (decide (9 ≤ tTapOp t)), detField 6 1), (en 6 (decide (5 ≤ tSeg t)), detField 6 7),
      (en 6 (decide (tPred t = 7)), detField 6 10),
      (en 7 (decide (tWMode t = 3)), detField 7 13), (en 7 (decide (tFmt t = 14)), detField 7 1) ]

/-- The directory entry of the curve in the latched bank. -/
def curveEntry (s : State) (rc : RunCmd) : BitVec 256 := bankEntry (curveMode s rc).bank (tCurve rc.tumbler)

/-- R143 to R146, and empty custom slots. -/
def checkCurve (s : State) (rc : RunCmd) : Option Nat :=
  let t := rc.tumbler
  let c := tCurve t
  let on := tEn t 3
  let custom := on && decide (24 ≤ c)
  let builtin := on && decide (c < 24)
  let d := curveEntry s rc
  firstBad
    [ (decide (tEn t 2 ≠ on) || decide (tEn t 4 ≠ on), detMulti),
      (custom && !dirPresent d, detField 3 1),
      (builtin && decide (tSplitMode t ≠ 0), detField 2 1), (builtin && tSym t, detField 2 4),
      (builtin && decide (tJoinMode t ≠ 0), detField 4 1), (builtin && decide (tSymFix t ≠ 0), detField 4 3),
      (custom && decide (tSplitMode t ≠ dirSplit d), detField 2 1), (custom && decide (tSym t ≠ dirSym d), detField 2 4),
      (custom && decide (tJoinMode t ≠ dirJoin d), detField 4 1), (custom && decide (tSymFix t ≠ dirSymFix d), detField 4 3),
      (on && decide (c ≠ 21) && decide (tPosSrc t ≠ 0), detField 2 5), (on && decide (c ≠ 21) && tPairing t, detField 2 7),
      (on && decide (c ≠ 21) && decide (tHalfBlk t ≠ 0), detField 2 8) ]

/-- Whether a curve is packed-capable (R186, R200). -/
def curvePacked (s : State) (rc : RunCmd) : Bool :=
  let c := tCurve rc.tumbler
  if 24 ≤ c then dirPacked (curveEntry s rc) else !(decide (c = 2) || decide (c = 5) || decide (c = 21))

/-- The highest vector register that the pass uses (R171), none where it uses none. -/
def regTops (rc : RunCmd) : List Nat :=
  let t := rc.tumbler
  let v := psVectors rc
  (if tSrcA t = 2 then [tRegA t + v - 1] else []) ++ (if tSrcB t = 3 then [tRegB t + v - 1] else [])
    ++ (if tEn t 1 && (decide (tASrc t = 4) || decide (tBSrc t = 4) || decide (tCSrc t = 4) || decide (tDSrc t = 4))
        then [tAffReg t + psPerRow rc - 1] else [])
    ++ (if tEn t 5 && decide (tMSrc t = 2) then [tMixReg t + psPerRow rc - 1] else [])
    ++ (if tEn t 7 && (decide (tDest t = 1) || decide (tDest t = 2)) && decide (pkOpcode rc.packet ≠ 0x06)
        then [tEmitReg t + v - 1] else [])

/-- Whether MIX's operation has an m operand (R148, R149): SWAP_PAIR has none, RELU without SWAP names y alone. -/
def mixTakesM (t : BitVec 512) : Bool := !(decide (tMixOp t = 11) || mixUnary t)

/-- The elements that a column operand holds: at most 65,536 of its descriptor's (R122). -/
def columnLength (rc : RunCmd) (c : Nat) : Nat := min 65536 (dCap (descOf rc (2 + c)))

/-- The remaining conditions of R159, with R27, R53, R122, R156, R157, R229, R249, R412, R427 and R444. R53 is judged by
formats alone: a register operand whose lanes are not in packed form fails no check, its elements are poisoned by R174
(DEDUCED, log entry 37). -/
def checkPass (s : State) (rc : RunCmd) : Option Nat :=
  let p := rc.packet
  let t := rc.tumbler
  let op := pkOpcode p
  let m := psM rc
  let emit := tEn t 7
  let fmt := tFmt t
  let regDest := emit && (decide (tDest t = 1) || decide (tDest t = 2))
  let memDest := emit && (decide (tDest t = 0) || decide (tDest t = 2))
  let pack := psPacked rc
  let rotary := tEn t 3 && decide (tCurve t = 21)
  let rotate := tEn t 5 && decide (tMixOp t = 10)
  let pairs := mixPairs t
  let affine5 := tEn t 1 && (decide (tASrc t = 5) || decide (tBSrc t = 5) || decide (tCSrc t = 5) || decide (tDSrc t = 5))
  let affineRow := tEn t 1 && (decide (8 ≤ tASrc t) || decide (8 ≤ tBSrc t) || decide (8 ≤ tCSrc t) || decide (8 ≤ tDSrc t))
  let select := tEn t 5 && decide (tMixOp t = 6)
  let mSrc0 := tEn t 5 && decide (tMSrc t = 0) && mixTakesM t
  let wideIn := (decide (tSrcA t = 0) && !isNarrow (tFmtA t)) || (decide (tSrcB t = 1) && !isNarrow (tFmtB t))
  let tags := boolNat (decide (tSrcA t = 0) && decide (tFmtA t = codeTagged))
    + boolNat (decide (tSrcB t = 1) && decide (tFmtB t = codeTagged)) + boolNat (emit && decide (fmt = codeTagged))
  let packedReg := decide (fmt = 2) || decide (fmt = 3) || decide (fmt = 4) || decide (fmt = 5) || decide (fmt = 12)
  firstBad
    [ (emit && tRaw t && decide (tDest t = 1) && decide (fmt ≠ 0), detField 7 1),
      (regDest && !tRaw t && decide (op ≠ 0x06) && !(packedReg || decide (fmt = 1)), detMulti),
      (decide (tRdMode t = 1) && decide (tSrcA t ≠ 0), detMulti), (decide (1 < tags), detMulti),
      (decide (psWidth rc < psL rc), 38), (decide (2 ^ 40 - 1 < pkShard p + m), detMulti),
      (pack && (wideIn || (emit && decide (tDest t ≠ 1) && !isNarrow fmt) || psDrains rc
        || (tEn t 3 && !curvePacked s rc) || rotate || (emit && tRaw t) || decide (tScaleA t ≠ 0)
        || (regDest && !packedReg)), detMulti),
      (decide (tSrcB t = 0) && (affine5 || mSrc0 || select || decide (tRdMode t = 1) || (rotary && decide (tPosSrc t = 0))),
        detMulti),
      (select && mSrc0, detMulti), (rotate && !(decide (tMSrc t = 1) && rotary), detMulti),
      (pairs && decide (m % 2 = 1), detMulti),
      (pairs && tPairing t && decide (m % 2 ^ (4 + tHalfBlk t) ≠ 0), detMulti),
      ((List.range 2).any (fun c => usesColumn t c && decide (columnLength rc c < m)), detMulti),
      ((regTops rc).any (fun r => decide (31 < r)), detMulti),
      (psSegmented rc && (decide (psSeg rc < m) || decide (psL rc % psSeg rc ≠ 0)), detMulti),
      (emit && tIndex t && decide (fmt ≠ 13), detMulti),
      (emit && decide (fmt ≠ codeTagged) && (decide (tPromoRatio t ≠ 0) || decide (tPromoZero t ≠ 0)), detMulti),
      (emit && decide (fmt = codeTagged) && decide (tPromoRatio t = 0), detField 7 17),
      (emit && decide (tWMode t = 1) && isBlock fmt, detMulti),
      (emit && decide (op ≠ 0x06) && (decide (tWMode t = 2) || decide (tDest t = 3)), detMulti),
      (memDest && isBlock fmt && decide (psL rc < m) && decide (psL rc % 32 ≠ 0), detMulti),
      (emit && decide (fmt = codeTagged) && !(decide (op = 1) || decide (op = 2) || decide (op = 3) || decide (op = 0x0B)),
        detMulti),
      (pkNoSlot p && (tEn t 6 || affineRow || (tEn t 1 && decide (tMask t = 1)) || (rotary && decide (tPosSrc t = 1))),
        detMulti),
      (psF64 rc && ((tEn t 3 && decide (8 < tCurve t)) || rotate), detMulti) ]

/-- R292. -/
def checkSoftmax (rc : RunCmd) : Option Nat :=
  let t := rc.tumbler
  let a := (affineA rc (roundOperand rc (if tASrc t = 1 then immDatum (tAffImm t) else quiet (vint 1) false))).1.val
  firstBad
    [ (tPack t, detField 0 1), (decide (tSrcA t = 2), detField 0 4), (!tEn t 1, detField 1 0), (tOrder t, detField 1 1),
      (tNegA t || tNegB t || tNegC t || tNegD t, detField 1 19), (decide (tCSrc t ≠ 0), detField 1 11),
      (decide (tDSrc t ≠ 0), detField 1 15), (decide (1 < tASrc t), detField 1 3),
      (!(isFinite a && vlt (vzero false) a), detMulti),
      (!(decide (tBSrc t = 0) || decide (tBSrc t = 2) || decide (tBSrc t = 3)), detField 1 7),
      (!(tEn t 3 && decide (tCurve t = 0)), detField 3 1), (tEn t 5, detField 5 0),
      (tEn t 6 && !(decide (tTapOp t = 0) || decide (tTapOp t = 8)), detField 6 1), (tEn t 6 && decide (tPoint t ≠ 0), detField 6 5),
      (tEn t 6 && decide (tSeg t ≠ 4), detField 6 7), (decide (tWMode t ≠ 0), detField 7 13), (decide (tDest t = 3), detField 7 5),
      (decide (rc.latched.refpol = 3), 43) ]

/-- Whether a command's range is the chain's rows. -/
def rangeIsChain (s : State) (rc : RunCmd) : Bool :=
  let d := (namedChain s rc).image
  decide (pkRow0 rc.packet = cdRowBase d) && decide (pkRows rc.packet = cdRows d)

/-- R369 and R372. -/
def checkSelect (s : State) (rc : RunCmd) : Option Nat :=
  let p := rc.packet
  let t := rc.tumbler
  let k := pkOpc p
  let gating := decide (tDest t = 0)
  let d := (namedChain s rc).image
  firstBad
    [ (tEn t 7 && decide (tDest t = 2), detField 7 5), (!tEn t 7, detField 7 0),
      (decide (k = 0) || decide ((if gating then 64 else 1024) < k), 60), (tPack t, detField 0 1),
      (!gating && (!tRaw t || decide (tFmt t ≠ 0) || decide (31 < tEmitReg t + 4 * psR rc - 1)), detMulti),
      (decide (2 ^ 38 - 1 < pkShard p + psM rc), detMulti),
      (gating && decide (tFmt t ≠ 1), detField 7 1), (gating && (!psSegmented rc || decide (psSeg rc < psM rc)), detMulti),
      (decide (tDest t = 3) && (!pkChv p || (chainKnown s rc && (decide (cdKind d < 2) || !rangeIsChain s rc))), detMulti),
      (decide (tDest t ≠ 3) && pkChv p, detMulti) ]

/-- R387. -/
def checkSample (s : State) (rc : RunCmd) : Option Nat :=
  let p := rc.packet
  let d := (namedChain s rc).image
  let top := ofF32 (BitVec.ofNat 32 (pkOpa p))
  firstBad
    [ (!(vlt (vzero false) top && vle top (vint 1)), 44),
      (chainKnown s rc && (decide (cdKind d ≠ 3) || !cdIsKeystone d), 40), (chainKnown s rc && decide (4 < field p 492 485 + 1), detMulti),
      (decide (31 < pkOpc p % 32 + 4 * pkRows p - 1), detMulti) ]

/-- Whether a command reads or writes a vector register. -/
def usesRegs (s : State) (rc : RunCmd) : Bool :=
  let p := rc.packet
  let t := rc.tumbler
  match pkOpcode p with
  | 0x07 => !pkChv p
  | 0x19 => chainKnown s rc && decide (cdKind (namedChain s rc).image = 2)
  | op => hasPass p && (!(regTops rc).isEmpty || (decide (op = 0x06) && tEn t 7 && decide (tDest t ≠ 0)))

/-- What the opcode adds to step 3. -/
def checkOpcode (s : State) (rc : RunCmd) : Option Nat :=
  let p := rc.packet
  let t := rc.tumbler
  match pkOpcode p with
  | 0x01 => firstBad [(psDrains rc, detMulti)]
  | 0x02 => firstBad [(!psDrains rc, detMulti)]
  | 0x03 => firstBad [(hasPass p && tEn t 6, detField 6 0), (hasPass p && tEn t 7 && decide (tDest t = 3), detField 7 5)]
  | 0x04 => checkSoftmax rc
  | 0x06 => checkSelect s rc
  | 0x07 => checkSample s rc
  | 0x08 => firstBad [(decide (tWMode t ≠ 1), detField 7 13)]
  | 0x09 => firstBad [(decide (tRdMode t ≠ 1), detField 0 26)]
  | 0x0B => firstBad [(!(isBlock (tFmt t)), detField 7 1), (decide (tDest t ≠ 0), detField 7 5), (decide (tWMode t ≠ 0), detField 7 13)]
  | 0x19 =>
    let d := (namedChain s rc).image
    firstBad [(chainKnown s rc && decide (cdKind d = 2) && decide (31 < pkOpc p + 4 * cdRows d - 1), 60)]
  | 0x30 => firstBad [ (decide ((viRange s (isCovered rc.ring) rc.vi).count ≤ pkOpa p), 44), (decide (rc.key = none), detMulti) ]
  | _ => none

/-- ε of NORM is a number at least 0 (R311). -/
def epsGood (p : BitVec 512) : Bool :=
  let e := ofF32 (BitVec.ofNat 32 (pkOpa p))
  isFinite e && (isZero e || !isNeg e)

/-- R329 and the checks of R159 that need no tumbler word. The chain that a covered ring names may have no descriptor on
this unit: that alone fails no check (the text after R330). -/
def checkTumbler (s : State) (rc : RunCmd) : Option Nat :=
  let p := rc.packet
  let op := pkOpcode p
  let d := namedChain s rc
  let load := decide (op = 0x18) && pkF0 p
  let named := firstBad
    [ (pkChv p && !load && !chainKnown s rc && !(isCovered rc.ring && !d.valid), 40),
      ((decide (op = 0x18) || decide (op = 0x19)) && !load && !pkChv p, 41),
      (decide (op = 0x03) && !epsGood p, 44),
      (decide ((ctxOfRing s rc.ring).vsave = 0) && usesRegs s rc, detMulti) ]
  let pass := if hasPass p then
      ((List.range 8).findSome? (checkReserved rc.tumbler)) <|> checkValues rc.tumbler <|> checkCurve s rc
    else none
  if hasPass p && !tumblerRead rc then some 8
  else pass <|> named <|> (if hasPass p then checkPass s rc else none) <|> checkOpcode s rc

/-! ## Steps 4 to 6 -/

/-- The row-handle range and the slots in it. -/
def checkRange (s : State) (rc : RunCmd) : Option Nat :=
  let p := rc.packet
  let op := pkOpcode p
  let used := decide ((opUse p).rows ≠ .none) && !pkNoSlot p
  if !used then none
  else if Config.rowSlots < pkRow0 p + pkRows p then some 24
  else
    let hs := span (pkRow0 p) (pkRows p)
    let d := namedChain s rc
    let opens := decide (op = 0x10) || decide (op = 0x13)
    firstBad
      [ (hs.any (fun h => (slotAt s h).isOpen && decide ((slotAt s h).owner ≠ rc.vi)), 24),
        (!opens && hs.any (fun h => !(slotAt s h).isOpen), 24),
        ((decide (op = 0x03) || decide (op = 0x05)) && hs.any (fun h => decide ((slotAt s h).fin ≠ 0)), 24),
        (decide (op = 0x04) && decide (rc.latched.refpol = 1) && hs.any (fun h => decide ((slotAt s h).ref = refUnset)), 24),
        (decide (op = 0x03) && chainKnown s rc && (!rangeIsChain s rc || hs.any (fun h => decide ((slotAt s h).exact ≠ cdExact d.image))), 24),
        ((decide (op = 0x0A) || psBuckets rc) && decide (4096 < pkRows p), 26) ]

/-- R267: slots already open by the VI do not add. -/
def overQuota (s : State) (rc : RunCmd) : Bool :=
  let new := ((span (pkRow0 rc.packet) (pkRows rc.packet)).filter (fun h => !(slotAt s h).isOpen)).length
  decide (0 < new) && decide ((cfgVi s rc.vi).quotaLimit.toNat < (viOf s rc.vi).quotaOpen.toNat + new)

/-- The outcome of the checks. -/
inductive Verdict where
  | good
  | bad (detail : Nat)
  | refused (status : Status)
  deriving DecidableEq, Repr

def verdict (s : State) (rc : RunCmd) : Verdict :=
  let op := pkOpcode rc.packet
  let expect := (cfgVi s rc.vi).tableExpect
  -- a covered ring's chain without a descriptor on this unit (the text after R330)
  let lost := isCovered rc.ring && pkChv rc.packet && !(decide (op = 0x18) && pkF0 rc.packet)
    && !(namedChain s rc).valid
  match checkPacket s rc <|> checkConditional s rc <|> checkDescs s rc <|> checkTumbler s rc <|> checkRange s rc with
  | some d => .bad d
  | none =>
    if lost then .refused .hingePeerLost
    else if (op = 0x10 ∨ op = 0x13) ∧ overQuota s rc then .refused .quota
    else if hasPass rc.packet && tEn rc.tumbler stCurve && decide (expect ≠ 0) && decide (expect ≠ rc.tableId) then
      .refused .tableMismatch
    else .good

end Sys2Proof.Machine
end

