-- ==== Sys2Proof/Machine/Emit.lean ====
section
/-! DEFINITION. EMIT: conversion of a vector's elements (R155 to R158, R172, R173, R181, R225, R228), blocks and the
tagged stream (R411 to R425), the SQNR monitor (R433 to R435), and the write buffer that merges sectors (R175 to
R177). -/

namespace Sys2Proof.Machine

/-! ## Sectors (R175, R176) -/

/-- One sector's bytes of a vector. -/
structure SectorBytes where
  space  : Space
  sector : Nat
  bytes  : List (Nat × Byte)
  deriving DecidableEq, Repr

/-- A byte enters the list of its sector; a later byte at the same offset replaces an earlier one. -/
def sectorAdd (sp : Space) (a : Nat) (b : Byte) : List SectorBytes → List SectorBytes
  | [] => [⟨sp, a / 64, [(a % 64, b)]⟩]
  | x :: rest =>
    if x.space = sp ∧ x.sector = a / 64 then
      { x with bytes := (a % 64, b) :: x.bytes.filter (fun y => decide (y.1 ≠ a % 64)) } :: rest
    else x :: sectorAdd sp a b rest

/-- The bytes of a vector by sector, in the order in which the sectors are first touched. -/
def bySector (l : List (Space × Nat × Byte)) : List SectorBytes :=
  l.foldl (fun acc x => sectorAdd x.1 (spaceAddr x.1 x.2.1) x.2.2 acc) []

/-- Bytes put at their offsets of a sector. -/
def putSector (sp : Space) (k : Nat) (bs : List (Nat × Byte)) (s : State) : State :=
  bs.foldl (fun s x => writeByte s sp (64 * k + x.1) x.2) s

/-- The events of one sector write (R665). -/
def countSectorWrite (v : ViId) (sp : Space) (s : State) : State :=
  countEvent (if sp = .device then 0x24 else 0x21) 1 (some v) s

/-- A sector written whole: its poison becomes that of the new elements. -/
def writeWhole (v : ViId) (sp : Space) (k : Nat) (bs : List (Nat × Byte)) (poison : Bool) (s : State) : State :=
  if decide (sp = .device) && isSecondary s then s
  else setSectorPoison (putSector sp k bs (countSectorWrite v sp s)) sp (64 * k) poison

/-- A sector read, merged and written back (R176). -/
def mergeSector (v : ViId) (h : HeldSector) (s : State) : State :=
  let s1 := countEvent 0x22 1 (some v) (countEvent (if h.space = .device then 0x23 else 0x20) 1 (some v) s)
  let s2 := if (getMem s h.space).poisoned h.sector then countEvent 0x25 1 (some v) s1 else s1
  writeWhole v h.space h.sector h.bytes ((getMem s h.space).poisoned h.sector || h.poison) s2

/-- A vector's writes reach the write buffer: whole sectors go out, a sector held since the vector before is completed
or merged, a partial sector is held. -/
def bufferWrites (rc : RunCmd) (w : VecWrites) (s : State) : RunCmd × State :=
  let new := bySector w.bytes
  let find (x : SectorBytes) := rc.prog.held.find? (fun h => decide (h.space = x.space) && decide (h.sector = x.sector))
  let touched (h : HeldSector) := new.any (fun x => decide (h.space = x.space) && decide (h.sector = x.sector))
  let pois (x : SectorBytes) := w.poisoned.any (fun q => decide (q.1 = x.space) && decide (q.2 = x.sector))
  let s1 := (rc.prog.held.filter (fun h => !touched h)).foldl (fun s h => mergeSector rc.vi h s) s
  let out := new.foldl (fun (a : List HeldSector × State) x =>
    match find x with
    | some h =>
      let bs := x.bytes ++ h.bytes.filter (fun y => !x.bytes.any (fun z => decide (z.1 = y.1)))
      if bs.length = 64 then (a.1, writeWhole rc.vi x.space x.sector bs (h.poison || pois x) a.2)
      else (a.1, mergeSector rc.vi ⟨x.space, x.sector, bs, h.poison || pois x⟩ a.2)
    | none =>
      if x.bytes.length = 64 then (a.1, writeWhole rc.vi x.space x.sector x.bytes (pois x) a.2)
      else (a.1 ++ [⟨x.space, x.sector, x.bytes, pois x⟩], a.2)) ([], s1)
  ({ rc with prog := { rc.prog with held := out.1, wrote := rc.prog.wrote ++ w.runs } }, out.2)

/-- At the end of a pass every sector still held is merged. -/
def flushSectors (rc : RunCmd) (s : State) : RunCmd × State :=
  ({ rc with prog := { rc.prog with held := [] } }, rc.prog.held.foldl (fun s h => mergeSector rc.vi h s) s)

def VecWrites.empty : VecWrites := ⟨[], [], [], []⟩

def VecWrites.append (a b : VecWrites) : VecWrites :=
  ⟨a.bytes ++ b.bytes, a.poisoned ++ b.poisoned, a.runs ++ b.runs, a.promoted ++ b.promoted⟩

/-- Bytes at an address of a descriptor's region. -/
def VecWrites.place (d : Nat) (sp : Space) (a : Nat) (bs : List Byte) (poison : Bool) : VecWrites :=
  ⟨bs.zipIdx.map (fun x => (sp, a + x.2, x.1)), if poison then spaceSectors sp a bs.length else [],
   if bs.isEmpty then [] else [(d, sp, a, bs.length)], []⟩

/-- Writes with nothing behind them, sector by sector (a record, a list of counts, a slot image). -/
def writeRecord (rc : RunCmd) (d : Nat) (sp : Space) (a : Nat) (bs : List Byte) (poison : Bool) (s : State) : RunCmd × State :=
  let r := bufferWrites rc (VecWrites.place d sp a bs poison) s
  flushSectors r.1 r.2

/-! ## The value that EMIT converts -/

def emitMode (rc : RunCmd) : EmitMode :=
  { strict := psStrict rc, rnd := rndOfCode rc.latched.rnd, saturate := rc.latched.saturate, flush := rc.latched.flush }

/-- The value before conversion: the index, the unrounded result of the last stage (R225), or the stage value. -/
def emitValue (rc : RunCmd) (e : Elem) : Val := if tIndex rc.tumbler then vint e.index else e.late.getD e.y.val

/-- The flags that EMIT's conversion raises by using the stage value (R91, R122). -/
def convertUse (rc : RunCmd) (e : Elem) : Byte := if tIndex rc.tumbler || e.y.poison then 0 else e.y.use

/-- One element converted to a format that is not a block format. -/
def emitOne (rc : RunCmd) (e : Elem) : Emitted :=
  let code := tFmt rc.tumbler
  if e.y.poison then ⟨canonicalNan code, .nan, 0⟩
  else
    let x := emitScalar (emitMode rc) code (emitValue rc e)
    { x with flags := x.flags ||| convertUse rc e }

/-! ## Memory, formats that are not block formats -/

/-- Elements that compress mode kept in rows before a row. -/
def keptBefore (rc : RunCmd) (row : Nat) : Nat :=
  (rc.prog.kept.filter (fun x => decide (x.1 < row))).foldl (fun n x => n + x.2) 0

/-- Where the element that is number `k` of those written for its row goes (R155, R408, R446). -/
def scalarAddr (rc : RunCmd) (e : Elem) (k : Nat) : Nat :=
  let d := descOf rc 4
  let nb := elemBytes (tFmt rc.tumbler)
  if tWMode rc.tumbler = 1 then
    if dStride d = 0 then dBase d + (keptBefore rc e.row + k) * nb else dBase d + dStride d * e.row + k * nb
  else rowStart d nb (psM rc) e.row + e.j * nb

/-- What EMIT does with a vector: its writes, flags by position, and the command's counts so far. -/
structure EmitOut where
  rc     : RunCmd
  writes : VecWrites
  flags  : List (Nat × Byte)
  deriving DecidableEq, Repr

/-- Whether EMIT writes an element: compress mode leaves some out (R155). -/
def emitsElem (rc : RunCmd) (e : Elem) : Bool := decide (tWMode rc.tumbler ≠ 1) || keepElem rc.tumbler e

/-- One element counted as written, and in compress mode as one of its row's. -/
def countKept (rc : RunCmd) (e : Elem) : RunCmd :=
  { rc with prog := { rc.prog with
      kept := if tWMode rc.tumbler = 1 then spPut rc.prog.kept e.row (spGet 0 rc.prog.kept e.row + 1) else rc.prog.kept,
      elements := rc.prog.elements + 1 } }

/-- The elements of a vector written in a format that is not a block format. -/
def placeScalars (rc : RunCmd) (es : List Elem) : RunCmd × VecWrites :=
  let d := descOf rc 4
  let nb := elemBytes (tFmt rc.tumbler)
  (es.filter (emitsElem rc)).foldl (fun o e =>
    (countKept o.1 e,
     o.2.append (VecWrites.place 4 (descSpace rc d) (scalarAddr o.1 e (spGet 0 o.1.prog.kept e.row)) (natBytes nb (emitOne rc e).raw) e.y.poison)))
    (rc, VecWrites.empty)

/-- Vector `v` in a format that is not a block format. Elements that compress mode leaves out raise their flags all the same
(R185). In compress mode the elements of a drain pass wait for its end, since beats may come in any order and what is kept is
written in element and row order (R155, R408). -/
def emitScalars (rc : RunCmd) (v : Nat) (es : List Elem) : EmitOut :=
  let flags := es.map (fun e => (e.pos, (emitOne rc e).flags))
  if psDrains rc && decide (tWMode rc.tumbler = 1) then
    ⟨{ rc with prog := { rc.prog with packPend := insertOrdered (v, es) rc.prog.packPend } }, VecWrites.empty, flags⟩
  else
    let r := placeScalars rc es
    ⟨r.1, r.2, flags⟩

/-- What compress mode kept of a drain pass, written at its end. -/
def finishPacked (rc : RunCmd) : EmitOut :=
  let r := rc.prog.packPend.foldl (fun (o : RunCmd × VecWrites) x =>
    let y := placeScalars o.1 x.2
    (y.1, o.2.append y.2)) ({ rc with prog := { rc.prog with packPend := [] } }, VecWrites.empty)
  ⟨r.1, r.2, []⟩

/-! ## Blocks -/

/-- The block of an element (R411). -/
def blockOf (rc : RunCmd) (e : Elem) : Nat := e.row * blocksPerRow (psM rc) + e.j / 32

def blockItems (rc : RunCmd) (es : List Elem) : List BlockItem :=
  es.map (fun e => ⟨blockOf rc e, e.pos, if e.y.poison then .nan else emitValue rc e, e.y.val, e.y.poison⟩)

/-- Items grouped by block, in the order in which the blocks appear. -/
def groupBlocks (l : List BlockItem) : List (List BlockItem) :=
  l.foldl (fun acc x =>
    match acc.getLast? with
    | some g => if (g.headD x).block = x.block then acc.dropLast ++ [g ++ [x]] else acc ++ [[x]]
    | none => [[x]]) []

/-- The tests of R415. -/
def promotes (t : BitVec 512) (e2 : MxBlock) (es : List BlockElem) : Bool :=
  let mags := es.map (fun x => vabs x.val)
  let amax := mags.foldl (fun a v => if vlt a v then v else a) (vzero false)
  -- the largest entry of the list once one copy of the maximum is removed
  let i := mags.findIdx (fun v => decide (vcmp v amax = .eq))
  let s2 := (mags.eraseIdx i).foldl (fun a v => if vlt a v then v else a) (vzero false)
  let zeroed := ((es.zip e2.elems).filter (fun x => !isZero x.1.val && isZero x.2.val)).length
  es.all (fun x => !x.poison && isFinite x.val)
    && ((vlt (vzero false) s2 && vlt (vscale s2 (tPromoRatio t)) amax) || decide (tPromoZero t < zeroed))

/-- One written map entry (R419). -/
def mapEntry (rc : RunCmd) : VecWrites :=
  let d := descOf rc 6
  VecWrites.place 6 (descSpace rc d) (dBase d + 16 * rc.prog.mapGroup)
    (natBytes 8 rc.prog.mapBits.toNat ++ natBytes 4 rc.prog.mapBase ++ natBytes 4 0) false

/-- The map entry under construction moves on to a block's group. -/
def enterGroup (rc : RunCmd) (b : Nat) : RunCmd × VecWrites :=
  if b / 64 = rc.prog.mapGroup then (rc, VecWrites.empty)
  else ({ rc with prog := { rc.prog with mapGroup := b / 64, mapBits := 0, mapBase := rc.prog.side } }, mapEntry rc)

/-- The counts that an encoded block adds (R429), and its SQNR terms (R433). -/
def blockCounts (rc : RunCmd) (items : List BlockItem) (blk : MxBlock) (promoted denied : Bool) : RunCmd :=
  let pairs := items.zip blk.elems
  let sat := (pairs.filter (fun x => hasFlag x.2.flags flSaturate)).length
  let zeros := (pairs.filter (fun x => !x.1.poison && isFinite x.1.val && !isZero x.1.val && isZero x.2.val)).length
  { rc with prog := { rc.prog with
      blocks := rc.prog.blocks + 1, promoted := rc.prog.promoted + boolNat promoted,
      denied := rc.prog.denied + boolNat denied, saturated := rc.prog.saturated + sat, zeroed := rc.prog.zeroed + zeros,
      special := rc.prog.special + boolNat blk.special, elements := rc.prog.elements + items.length } }

/-- Signal and noise terms of a block by position. -/
def sqnrTerms (items : List BlockItem) (blk : MxBlock) : List (Nat × W64 × W64) :=
  if blk.scale = 0xFF then []
  else
    (items.zip blk.elems).filterMap (fun x =>
      if x.1.poison || !isFinite x.1.work then none
      else
        let q := vscale x.2.val ((blk.scale.toNat : Int) - 127)
        let d := (vsub x.1.work q).val
        some (x.1.pos, f64Round (vmul x.1.work x.1.work).val, f64Round (vmul d d).val))

/-- An encoded block: the command's counts, its writes, flags by position, SQNR terms. -/
structure BlockOut where
  rc     : RunCmd
  writes : VecWrites
  flags  : List (Nat × Byte)
  terms  : List (Nat × W64 × W64)
  deriving DecidableEq, Repr

def padBlock (raws : List Nat) : List Nat := raws ++ List.replicate (32 - raws.length) 0

/-- A block in an MX format (R61 to R66, R182). -/
def emitMx (rc : RunCmd) (items : List BlockItem) : BlockOut :=
  let d := descOf rc 4
  let code := tFmt rc.tumbler
  let b := (items.map (fun x => x.block)).headD 0
  let blk := mxBlock (emitMode rc) code (tScaleUp rc.tumbler) (items.map (fun x => ⟨x.val, x.poison⟩))
  let sp := descSpace rc d
  let w1 := VecWrites.place 4 sp (dBase d + b * blockBytes code) (packBlock code (padBlock (blk.elems.map (fun x => x.raw))))
    (items.any (fun x => x.poison))
  let w2 := VecWrites.place 4 sp (dBase2 d + b) [blk.scale] false
  ⟨blockCounts rc items blk false false, w1.append w2, items.zip blk.elems |>.map (fun x => (x.1.pos, x.2.flags)),
   sqnrTerms items blk⟩

/-- A block of a tagged stream (R415 to R422); `promote` is false for a block that is written again. -/
def emitTagged (rc0 : RunCmd) (promote : Bool) (items : List BlockItem) : BlockOut :=
  let t := rc0.tumbler
  let d := descOf rc0 4
  let aux1 := descOf rc0 7
  let b := (items.map (fun x => x.block)).headD 0
  let es : List BlockElem := items.map (fun x => ⟨x.val, x.poison⟩)
  let e2 := mxBlock (emitMode rc0) 10 (tScaleUp t) es
  let want := promote && promotes t e2 es
  let r := if promote then enterGroup rc0 b else (rc0, VecWrites.empty)
  let rc := r.1
  let sp := descSpace rc d
  let room := decide (rc.prog.side < dCap aux1)
  if want && room then
    let e4 := mxBlock (emitMode rc) 6 (tScaleUp t) es
    let w1 := { VecWrites.place 4 sp (dBase d + 16 * b) (List.replicate 16 0) false with promoted := [(sp, dBase d + 16 * b)] }
    let w2 := VecWrites.place 4 sp (dBase2 d + b) [e4.scale] false
    let w3 := VecWrites.place 7 (descSpace rc aux1) (dBase aux1 + 32 * rc.prog.side)
      (packBlock 6 (padBlock (e4.elems.map (fun x => x.raw)))) false
    let rc1 := blockCounts rc items e4 true false
    ⟨{ rc1 with prog := { rc1.prog with
        side := rc1.prog.side + 1, mapBits := rc1.prog.mapBits ||| BitVec.ofNat 64 (2 ^ (b % 64)) } },
     (r.2.append w1).append (w2.append w3), items.zip e4.elems |>.map (fun x => (x.1.pos, x.2.flags)), sqnrTerms items e4⟩
  else
    let w1 := VecWrites.place 4 sp (dBase d + 16 * b) (packBlock 10 (padBlock (e2.elems.map (fun x => x.raw))))
      (items.any (fun x => x.poison))
    let w2 := VecWrites.place 4 sp (dBase2 d + b) [e2.scale] false
    ⟨blockCounts rc items e2 false want, r.2.append (w1.append w2),
     items.zip e2.elems |>.map (fun x => (x.1.pos, x.2.flags)), sqnrTerms items e2⟩

/-- The vector's terms, kept under its number for the sums of R434. -/
def addSqnr (rc : RunCmd) (v : Nat) (terms : List (Nat × W64 × W64)) : RunCmd :=
  if !tSqnr rc.tumbler || terms.isEmpty then rc
  else { rc with prog := { rc.prog with sqnr := insertOrdered (v, terms) rc.prog.sqnr } }

/-- The sums of R434: each vector's terms in the order of R235, the vectors in increasing order. -/
def sumSqnr (rc : RunCmd) : RunCmd :=
  let add (base : W64) (vs : List (Nat × W64)) : W64 :=
    (fastSum (Nat.log2 (psWidth rc)) ⟨base, false⟩ (vs.map (fun x => (x.1, (⟨x.2, false⟩ : Leaf))))).1
  let r := rc.prog.sqnr.foldl (fun (a : W64 × W64) x =>
    (add a.1 (x.2.map (fun y => (y.1, y.2.1))), add a.2 (x.2.map (fun y => (y.1, y.2.2))))) (rc.prog.signal, rc.prog.noise)
  { rc with prog := { rc.prog with signal := r.1, noise := r.2, sqnr := [] } }

/-- The blocks of vector `v`. -/
def emitBlocks (rc : RunCmd) (v : Nat) (one : RunCmd → List BlockItem → BlockOut) (items : List BlockItem) : EmitOut :=
  let r := (groupBlocks items).foldl (fun (a : EmitOut × List (Nat × W64 × W64)) g =>
    let o := one a.1.rc g
    (⟨o.rc, a.1.writes.append o.writes, a.1.flags ++ o.flags⟩, a.2 ++ o.terms)) (⟨rc, VecWrites.empty, []⟩, [])
  { r.1 with rc := addSqnr r.1.rc v r.2 }

/-- Vectors of a tagged stream that stand next in block order are encoded. -/
def emitPending : Nat → EmitOut → EmitOut
  | 0, o => o
  | n + 1, o =>
    match spFind o.rc.prog.tagPend o.rc.prog.tagNext with
    | none => o
    | some items =>
      let rc := { o.rc with prog := { o.rc.prog with
        tagPend := spErase o.rc.prog.tagPend o.rc.prog.tagNext, tagNext := o.rc.prog.tagNext + 1 } }
      let x := emitBlocks rc o.rc.prog.tagNext (fun rc g => emitTagged rc true g) items
      emitPending n ⟨x.rc, o.writes.append x.writes, o.flags ++ x.flags⟩

/-- Vector `v` of a tagged stream. Blocks are encoded in block order; a vector that came before is written again
without promotion (log entry 9). -/
def emitTaggedVector (rc : RunCmd) (v : Nat) (items : List BlockItem) : EmitOut :=
  if v < rc.prog.tagNext then emitBlocks rc v (fun rc g => emitTagged rc false g) items
  else
    let rc1 := { rc with prog := { rc.prog with tagPend := spPut rc.prog.tagPend v items } }
    emitPending (rc1.prog.tagPend.length) ⟨rc1, VecWrites.empty, []⟩

/-- What a pass leaves to write at its end: what compress mode kept, or of a tagged stream the vectors never contiguous and the
last map entry. -/
def finishEmit (rc : RunCmd) : EmitOut :=
  if !(writesDst0 rc && decide (tFmt rc.tumbler = codeTagged)) then finishPacked rc
  else
    let o := rc.prog.tagPend.foldl (fun (o : EmitOut) x =>
      let y := emitBlocks { o.rc with prog := { o.rc.prog with tagPend := spErase o.rc.prog.tagPend x.1 } } x.1
        (fun rc g => emitTagged rc true g) x.2
      ⟨y.rc, o.writes.append y.writes, o.flags ++ y.flags⟩) ⟨rc, VecWrites.empty, []⟩
    { o with writes := o.writes.append (mapEntry o.rc) }

/-! ## Registers (R172, R173, R181) -/

/-- The value that a register receives, and the flags of forming it. -/
def regValue (rc : RunCmd) (e : Elem) : Val × Byte :=
  if e.y.poison then (.nan, 0)
  else if tRaw rc.tumbler then heldW38 rc e
  else
    let x := emitOne rc e
    (x.val, x.flags)

/-- One element written to its lane. -/
def writeLane (packed : Bool) (both : Bool) (reg : Nat) (f : RegFile) (pos : Nat) (v : Val) (poison : Bool) : RegFile :=
  if packed then
    let lane := pos / 2
    let old := regLane f reg lane
    let h := encodeFloat fmtH24Reg v
    let keep : Nat := if pos % 2 = 0 then place (field old 37 19) 19 else field old 18 0
    let own : Nat := if pos % 2 = 0 then h else place h 19
    -- a half that keeps its contents keeps the lane's poison; the first of two halves starts it anew
    let pois := poison || ((!both || pos % 2 = 1) && bit old 39)
    setRegLane f reg lane (BitVec.ofNat 40 (keep + own + place 1 38 + place (boolNat pois) 39))
  else setRegLane f reg pos (BitVec.ofNat 40 ((toW38 v).toNat + place (boolNat poison) 39))

/-- A vector's register writes. DESIGN CHOICE (log entry 37): R155 packs what compress mode keeps in memory only; of a register
destination compress mode writes every active position at its own lane (R172). -/
def emitRegs (rc : RunCmd) (reg : Nat) (es : List Elem) (f : RegFile) : RegFile × List (Nat × Byte) :=
  es.foldl (fun (a : RegFile × List (Nat × Byte)) e =>
    let x := regValue rc e
    let both := es.any (fun y => decide (y.pos = e.pos ^^^ 1))
    (writeLane (psPacked rc) both reg a.1 e.pos x.1 e.y.poison, a.2 ++ [(e.pos, x.2)])) (f, [])

/-- The flags of using the values of a vector whose blocks are formed (R91). -/
def withUses (rc : RunCmd) (es : List Elem) (o : EmitOut) : EmitOut :=
  { o with flags := o.flags ++ es.map (fun e => (e.pos, convertUse rc e)) }

/-- EMIT on vector `v` of a pass: memory writes, register writes into the ring's file, flags by position. -/
def emitVector (rc : RunCmd) (v : Nat) (es : List Elem) (f : RegFile) : EmitOut × RegFile :=
  let t := rc.tumbler
  let mem := decide (tDest t = 0) || decide (tDest t = 2)
  let regs := decide (tDest t = 1) || decide (tDest t = 2)
  if !tEn t stEmit then (⟨rc, VecWrites.empty, []⟩, f)
  else
    let o : EmitOut :=
      if !mem then
        ⟨(es.filter (emitsElem rc)).foldl countKept rc, VecWrites.empty, []⟩
      else if tFmt t = codeTagged then withUses rc es (emitTaggedVector rc v (blockItems rc es))
      else if isMx (tFmt t) then withUses rc es (emitBlocks rc v emitMx (blockItems rc es))
      else emitScalars rc v es
    if regs then
      let reg := tEmitReg t + v
      let r := emitRegs rc reg es f
      (⟨{ o.rc with prog := { o.rc.prog with wroteRegs := setInsert o.rc.prog.wroteRegs reg } }, o.writes, o.flags ++ r.2⟩, r.1)
    else (o, f)

end Sys2Proof.Machine
end

