-- ==== Sys2Proof/Machine/Softmax.lean ====
section
/-! DEFINITION. The soft-maximum step's beat bound (R282, R283, R678), its reference (R284 to R289) and shifts (R294 to
R299), and finalisation by soft maximum (R301 to R304). -/

namespace Sys2Proof.Machine

/-- The larger of two values; NaN propagates. -/
def maxNan (a b : Val) : Val := if isNan a || isNan b then .nan else if vlt a b then b else a

/-- AFFINE operand b's source column. -/
def boundColumn (t : BitVec 512) : Option Nat :=
  if tBSrc t = 2 then some 0 else if tBSrc t = 3 then some 1 else none

/-- cmax of a lane group: the run maximum of the active columns (R282), 0 when b is default. -/
def groupColumn (rc : RunCmd) (js : List Nat) : Val :=
  match boundColumn rc.tumbler with
  | none => vzero false
  | some c => js.foldl (fun a j => maxNan a (roundOperand rc (columnAt rc c j)).val) (.inf true)

/-- The last lane that is not masked, plus one more than it at most L (R283). -/
def laneOpen (rc : RunCmd) (row block lane : Nat) : Bool :=
  if tMask rc.tumbler ≠ 1 then true
  else match queryOf (rowSnap rc row) with
    | .everywhere => false
    | .nowhere => true
    | .above q => decide ((lane : Int) ≤ q - ((pkShard rc.packet : Int) + psL rc * block))

/-- The beat bound t. `lane l` is port A's decoded value, −∞ at a lane that is not read. -/
def beatBound (rc : RunCmd) (row block : Nat) (lane : Nat → Val) : Val :=
  let a := (affineA rc (roundOperand rc
    (if tASrc rc.tumbler = 1 then immDatum (tAffImm rc.tumbler) else quiet (vint 1) false))).1.val
  (List.range 16).foldl (fun t g =>
    if psL rc ≤ 32 * g || !laneOpen rc row block (32 * g) then t
    else
      let gmax := (List.range 32).foldl (fun m i => maxNan m (lane (32 * g + i))) (.inf true)
      let js := ((List.range 32).map (fun i => 32 * g + i)).filter (fun p => decide (p < psL rc) && decide (psL rc * block + p < psM rc))
      let cmax := groupColumn rc (js.map (fun p => psL rc * block + p))
      if cmax = .inf true then t
      else maxNan t (vadd (vmul a gmax).val cmax).val) (.inf true)

/-- The decision of R288: the new REF, the shift. -/
structure RefStep where
  ref   : BitVec 16
  delta : Nat
  deriving DecidableEq, Repr

def refOf (i : Int) : BitVec 16 := BitVec.ofInt 16 i

def refDecision (pol : BitVec 2) (h : Nat) (fin : BitVec 2) (ref : BitVec 16) (t : Val) : RefStep :=
  if fin ≠ 0 then ⟨ref, 0⟩
  else if isNan t || t = .inf false then ⟨if ref = refUnset then 0 else ref, 0⟩
  else if t = .inf true then ⟨ref, 0⟩
  else if ref = refUnset then ⟨refOf (min (max (vceil t) (-32767)) 32767), 0⟩
  else if pol = 0 && vlt (vint (ref.toInt + h)) t then
    let rn := min (vceil t) 32767
    ⟨refOf rn, (rn - ref.toInt).toNat⟩
  else ⟨ref, 0⟩

/-- rb of R288. -/
def refBase (ref : BitVec 16) : Int := if ref = refUnset then 0 else ref.toInt

/-- The slot's sums moved to a raised reference (R244, R294). -/
def shiftSlot (d : Nat) (x : Slot) : Slot :=
  if d = 0 then x
  else { x with xsum := exactShr x.xsum d, xsumsq := exactShr x.xsumsq d, fsum := shiftF64 258 d x.fsum }

/-- The global policy sets every unset reference of the range from MAXV (R287). -/
def globalRef (x : Slot) : Slot :=
  if x.ref ≠ refUnset then x
  else
    let v := ofW38 x.maxv.value
    { x with ref := if x.maxv.index = emptyIndex || !isFinite v then 0
                    else refOf (min (max (vceil v) (-32767)) 32767) }

/-! ## Finalisation (R301 to R304) -/

/-- What finalisation of a row gives: FIN0, FIN1, flags, whether the row is empty. -/
structure SoftResult where
  fin0  : W64
  fin1  : W64
  flags : Byte
  empty : Bool
  deriving DecidableEq, Repr

/-- S of a combined state, exact before any rounding. A state whose reference is unset, so that no member's is set, contributes
zero (R302). -/
def softSum (exact : Bool) (r : RowStat) : Val :=
  let unset := decide (r.ref = refUnset)
  if exact then sumValue (bit r.flags 3) (bit r.flags 0) (bit r.flags 1) (bit r.flags 2) (if unset then 0 else r.xsum)
  else if unset then vzero false else ofF64 r.fsum

/-- 2^d / S and g + log2 S, which is log2 of 2^g · S, each rounded once. -/
def softFinal (g d : Int) (sum : Val) : SoftResult :=
  match sum with
  | .nan => ⟨canonicalF64, canonicalF64, 0, false⟩
  | .inf false => ⟨toF64 (vzero false), toF64 (.inf false), 0, false⟩
  | .inf true => ⟨canonicalF64, canonicalF64, flInvalid, false⟩
  | v =>
    if isZero v then ⟨toF64 (vzero false), toF64 (.inf true), 0, true⟩
    else if isNeg v then ⟨canonicalF64, canonicalF64, flInvalid, false⟩
    else ⟨f64Round (vscale (exactRcp v) d), f64Round (exactLog2 (vscale v g)), 0, false⟩

/-- A row finalised from a combined state (R303): g is its reference, `ref` the slot's own. -/
def softRow (exact : Bool) (r : RowStat) (ref : BitVec 16) : SoftResult :=
  let g := refBase r.ref
  softFinal g (refBase ref - g) (softSum exact r)

end Sys2Proof.Machine
end

