-- ==== Sys2Proof/Machine/Pass.lean ====
section
/-! DEFINITION. One vector of a pass: INTAKE (R120, R125 to R129, R135, R136), the stages, TAP's reductions (R233 to
R262), the NaN trap (R550 to R552), EMIT, and the sources of the input hash (R529). -/

namespace Sys2Proof.Machine

/-- Under which a part of a source of the input hash is kept: the sources follow one another in the order of R529, and so do
the parts of a source (its rows or vectors), in whatever order the data arrives. -/
def inputKey (source part : Nat) : Nat := source * 2 ^ 40 + part

/-! ## INTAKE -/

/-- What INTAKE gives: elements, port A elements taken per row (R135), sectors read, lanes over the headroom, bytes for
the input hash by source. -/
structure Intake where
  elems   : List Elem
  taken   : Sparse Nat
  sectors : List (Space × Nat)
  fired   : Nat
  bytes   : List (Nat × List Byte)
  deriving DecidableEq, Repr

/-- A vector: its number, its places, its beat, and a staged word of it that failed. -/
structure VecIn where
  number : Nat
  spots  : List Spot
  beat   : Option DrainEntry
  staged : Option BadWord
  deriving DecidableEq, Repr

/-- Elements that expand mode took for rows before a row. -/
def takenBefore (taken : Sparse Nat) (row : Nat) : Nat :=
  (taken.filter (fun x => decide (x.1 < row))).foldl (fun n x => n + x.2) 0

/-- Address of element `k` taken for a row in expand mode; rows without a stride follow one another (R409, R446). -/
def expandAddr (rc : RunCmd) (taken : Sparse Nat) (row k : Nat) : Nat :=
  let d := descOf rc 0
  let nb := elemBytes (tFmtA rc.tumbler)
  if dStride d = 0 then dBase d + (takenBefore taken row + k) * nb else dBase d + row * dStride d + k * nb

def stagedPoison (x : PortVal) (bad : Bool) : PortVal :=
  if bad then { x with datum := { x.datum with poison := true }, flags := 0 } else x

def emptyBeat : Beat := ⟨[], 0, 0, 0, 0⟩

/-- The beat of a vector. -/
def VecIn.lanes (v : VecIn) : Beat := (v.beat.map (fun x => x.beat)).getD emptyBeat

/-- Port B at a place; none without a source. -/
def portB (s : State) (rc : RunCmd) (v : VecIn) (x : Spot) : Option PortVal :=
  let t := rc.tumbler
  let bad := inBadWord v.staged x.pos
  match tSrcB t with
  | 0 => none
  | 1 => some (stagedPoison (decodePort rc (tFmtB t) 0 (readElem s rc (descOf rc 1) (tFmtB t) x.row x.j)) bad)
  | 2 => some (drainPort rc 0 v.lanes v.staged x.pos)
  | _ => some ⟨readReg s rc (tRegB t + v.number) x.pos, 0, []⟩

/-- Port A at a place, given port B and the elements taken so far. -/
def portA (s : State) (rc : RunCmd) (v : VecIn) (x : Spot) (b : Option PortVal) (taken : Sparse Nat) :
    PortVal × Sparse Nat × List Byte :=
  let t := rc.tumbler
  let bad := inBadWord v.staged x.pos
  let d := descOf rc 0
  match tSrcA t with
  | 0 =>
    if tRdMode t = 1 then
      let xb := match b with | some y => y.datum | none => quiet (vzero false) false
      if isZero xb.val then (⟨quiet (vzero false) xb.poison, 0, []⟩, taken, [])
      else
        let k := spGet 0 taken x.row
        let code := tFmtA t
        let m := if isBlock code then readElem s rc d code x.row k
          else readScalar s (descSpace rc d) code (expandAddr rc taken x.row k)
        let bytes := if isBlock code then [] else readBytes s (descSpace rc d) (expandAddr rc taken x.row k) (elemBytes code)
        let p := stagedPoison (decodePort rc code (tScaleA t) m) (bad || xb.poison)
        (p, spPut taken x.row (k + 1), bytes)
    else (stagedPoison (decodePort rc (tFmtA t) (tScaleA t) (readElem s rc d (tFmtA t) x.row x.j)) bad, taken, [])
  | 1 => (drainPort rc (tScaleA t) v.lanes v.staged x.pos, taken, [])
  | _ => (⟨readReg s rc (tRegA t + v.number) x.pos, 0, []⟩, taken, [])

def intakeOne (s : State) (rc : RunCmd) (v : VecIn) (a : Intake) (x : Spot) : Intake :=
  let b := portB s rc v x
  let p := portA s rc v x b a.taken
  let xa := p.1.datum
  let fl := p.1.flags ||| (match b with | some y => y.flags | none => 0)
  let e : Elem :=
    { pos := x.pos, row := x.row, j := x.j, index := pkShard rc.packet + x.j, y := xa, xa := xa,
      xb := b.map (fun y => y.datum), aff := xa, mixIn := xa, late := none, flags := fl, made := none }
  let fired := psDrains rc && tHeadroom rc.tumbler && headroomFires (laneValue v.lanes x.pos)
  { elems := a.elems ++ [e], taken := p.2.1, fired := a.fired + boolNat fired,
    sectors := a.sectors ++ p.1.sectors ++ (match b with | some y => y.sectors | none => []),
    bytes := if p.2.2.isEmpty then a.bytes else a.bytes ++ [(inputKey 0 v.number, p.2.2)] }

/-- Bytes of the register lanes that a vector reads through a port. -/
def laneBytes (s : State) (rc : RunCmd) (reg : Nat) (xs : List Spot) : List Byte :=
  ((xs.map (fun x => laneOf rc x.pos)).eraseDups).flatMap (fun l => natBytes 5 (regLane (regsOf s rc.ring) reg l).toNat)

def intake (s : State) (rc : RunCmd) (v : VecIn) : Intake :=
  let t := rc.tumbler
  let a := v.spots.foldl (intakeOne s rc v) ⟨[], rc.prog.taken, [], 0, []⟩
  { a with bytes := a.bytes
      ++ (if tSrcA t = 2 then [(inputKey 0 v.number, laneBytes s rc (tRegA t + v.number) v.spots)] else [])
      ++ (if tSrcB t = 3 then [(inputKey 1 v.number, laneBytes s rc (tRegB t + v.number) v.spots)] else []) }

/-! ## Sources of the input hash (R529) -/

/-- A row of a memory stream in its memory encoding. -/
def rowSource (s : State) (rc : RunCmd) (d : BitVec 256) (code row : Nat) : List Byte :=
  let sp := descSpace rc d
  let n := blocksPerRow (psM rc)
  if code = codeTagged then
    (List.range n).flatMap (fun i =>
      let b := row * n + i
      let p := tagPlace s rc b
      let aux1 := descOf rc 7
      readBytes s (descSpace rc (descOf rc 6)) p.mapAddr 16 ++ readBytes s sp (dBase2 d + b) 1
        ++ readBytes s sp (dBase d + 16 * b) 16
        ++ (if p.promoted && decide (p.side < dCap aux1) then readBytes s (descSpace rc aux1) (dBase aux1 + 32 * p.side) 32 else []))
  else if isMx code then
    readBytes s sp (dBase d + row * n * blockBytes code) (n * blockBytes code) ++ readBytes s sp (dBase2 d + row * n) n
  else readBytes s sp (rowStart d (elemBytes code) (psM rc) row) (psM rc * elemBytes code)

/-- A column in its memory encoding. -/
def columnSource (s : State) (rc : RunCmd) (c : Nat) : List Byte :=
  let d := descOf rc (2 + c)
  let sp := descSpace rc d
  let code := dFmt d
  if isMx code then
    let n := blocksPerRow (psM rc)
    readBytes s sp (dBase d) (n * blockBytes code) ++ readBytes s sp (dBase2 d) n
  else readBytes s sp (dBase d) (psM rc * elemBytes code)

/-- Bytes appended to a source of the input hash, while the command hashes its inputs. -/
def addInput (rc : RunCmd) (key : Nat) (bs : List Byte) : RunCmd :=
  if pkHashIn rc.packet && !bs.isEmpty then
    { rc with prog := { rc.prog with inputs := spPut rc.prog.inputs key (spGet [] rc.prog.inputs key ++ bs) } }
  else rc

/-- DLINK of the slots of a range that a command reads. -/
def addLinks (s : State) (rc : RunCmd) : RunCmd :=
  if pkNoSlot rc.packet then rc
  else addInput rc (inputKey 4 0) ((span (pkRow0 rc.packet) (pkRows rc.packet)).flatMap (fun h => natBytes 16 (slotAt s h).dlink.toNat))

/-- The first vector of a row: its slot's fields are taken for row operands, and its memory streams for the hash. -/
def rowStarts (s : State) (rc : RunCmd) (row : Nat) : RunCmd :=
  let t := rc.tumbler
  let rc1 := if psHasSlot rc row then
      { rc with prog := { rc.prog with snap := spPut rc.prog.snap row (slotAt s (psSlot rc row)) } }
    else rc
  let rc2 := if tSrcA t = 0 ∧ (tRdMode t ≠ 1 ∨ isBlock (tFmtA t)) then
      addInput rc1 (inputKey 0 row) (rowSource s rc (descOf rc 0) (tFmtA t) row) else rc1
  if tSrcB t = 1 then addInput rc2 (inputKey 1 row) (rowSource s rc (descOf rc 1) (tFmtB t) row) else rc2

/-! ## Reductions -/

/-- Rows of a vector, in order of position. -/
def vectorRows (es : List Elem) : List Nat := (es.map (fun e => e.row)).eraseDups

/-- What a vector's values do to each slot that they reach (R232 to R262). -/
def vectorReductions (s : State) (rc : RunCmd) (es : List Elem) : List (Nat × Reduction) :=
  let t := rc.tumbler
  if !tEn t stTap then []
  else
    ((vectorRows es).filter (psHasSlot rc)).map (fun row =>
      let h := psSlot rc row
      (h, reduceVector (tTapOp t) (Nat.log2 (psSeg rc)) rc.latched.nanTrap (psStrict rc) (slotAt s h)
        ((es.filter (fun e => decide (e.row = row))).map (tapOf t))))

/-- One reduction applied to its slot. -/
def applyReduction (rc : RunCmd) (h : Nat) (r : Reduction) (s : State) : RunCmd × State :=
  if r.discard then (rc, countEvent 0x39 1 (some rc.vi) s)
  else
    ({ rc with prog := { rc.prog with reduced := setInsert rc.prog.reduced h, changed := setInsert rc.prog.changed h } },
     putSlot (countEvent 0x38 r.flushed (some rc.vi) s) h r.slot)

/-! ## The trap (R550 to R552) -/

/-- A NaN made from numbers: stage, place, operands, and whether they are recorded in binary64. -/
structure Trap where
  stage : Nat
  pos   : Nat
  index : Nat
  a     : Val
  b     : Val
  wide  : Bool
  deriving DecidableEq, Repr

/-- The earlier of two traps: the lower stage, then the lower position. -/
def trapFirst (x y : Option Trap) : Option Trap :=
  match x, y with
  | some a, some b => if b.stage < a.stage ∨ (b.stage = a.stage ∧ b.pos < a.pos) then some b else some a
  | some a, none => some a
  | none, y => y

/-- The trap of a vector. -/
def vectorTrap (rc : RunCmd) (es : List Elem) (rs : List (Nat × Reduction)) : Option Trap :=
  if !rc.latched.nanTrap then none
  else
    let a := es.foldl (fun x e => trapFirst x (e.made.map (fun m => ⟨m.1, e.pos, e.index, m.2.1, m.2.2, psF64 rc⟩))) none
    rs.foldl (fun x r =>
      match r.2.made, es.find? (fun e => decide (psSlot rc e.row = r.1)) with
      | some n, some e => trapFirst x (some ⟨stTap, e.pos, e.index, ofF64 n.a, ofF64 n.b, true⟩)
      | _, _ => x) a

/-- An operand in the record. -/
def trapOperand (wide : Bool) (v : Val) : W64 :=
  if wide then f64Round v else BitVec.ofNat 64 (toW38 (roundRne fmtW38 v).val).toNat

/-- VI_TRAP_INFO0 to VI_TRAP_INFO3 filled, or OVERRUN set (R551, R552). -/
def recordTrap (rc : RunCmd) (x : Trap) (s : State) : State :=
  let t := rc.tumbler
  let packed := psPacked rc
  let info0 := place rc.seq.toNat 32 + place (localRing s rc.vi rc.ring % 2 ^ 18) 14 + place (pkOpcode rc.packet) 6
    + place x.stage 3 + place (boolNat x.wide) 2 + 1
  let op := if x.stage = stMix then tMixOp t else if x.stage = stTap then tTapOp t else 0
  let info1 := place (x.index % 2 ^ 40) 24 + place ((if packed then x.pos / 2 else x.pos) % 512) 15
    + place (boolNat (packed && decide (x.pos % 2 = 1))) 14 + place (if tEn t stCurve then tCurve t else 0) 9 + place op 5
  modVi s rc.vi (fun i =>
    if bit i.trapInfo0 0 then { i with trapInfo0 := i.trapInfo0 ||| 2 }
    else { i with trapInfo0 := BitVec.ofNat 64 info0, trapInfo1 := BitVec.ofNat 64 info1,
                  trapInfo2 := trapOperand x.wide x.a, trapInfo3 := trapOperand x.wide x.b })

/-! ## The chain up to MIX -/

/-- The pair partner of an element among those of its row, else one with free values: its key block never came (R280, log
entry 1). -/
def partnerElem (rc : RunCmd) (stamp : Nat) (all : List Elem) (e : Elem) : Elem :=
  let j := partnerOf rc.tumbler e.j
  match all.find? (fun p => decide (p.row = e.row) && decide (p.j = j)) with
  | some p => p
  | none =>
    let free (k : Nat) : Val :=
      let x := Config.displacedPartner stamp k
      if psF64 rc then ofF64 x else ofW38 (BitVec.ofNat 38 x.toNat)
    { e with j := j, y := quiet (free (2 * j)) false, xa := quiet (free (2 * j + 1)) false }

/-- MIX on the elements of a vector; `all` are the elements among which pair partners are found. -/
def mixAll (s : State) (rc : RunCmd) (stamp : Nat) (all es : List Elem) : List Elem :=
  let t := rc.tumbler
  if !tEn t stMix then es
  else if mixPairs t then es.map (fun e => mixPair rc e (partnerElem rc stamp all e))
  else es.map (mixElem s rc)

/-- Whether pairs may reach over the vectors of a row, so that its vectors enter MIX together. -/
def rowAtOnce (rc : RunCmd) : Bool :=
  mixPairs rc.tumbler && !psSegmented rc && decide (1 < psPerRow rc)

/-- Whether the beats of a pass wait for others: for the rest of their row where pairs reach over its vectors (R148, R150), and in
expand mode for every beat, since elements of the stream are taken in element and row order (R135, R409). DEDUCED (log
entry 39). -/
def beatsWait (rc : RunCmd) : Bool := psDrains rc && (rowAtOnce rc || decide (tRdMode rc.tumbler = 1))

/-- Poison that the command has consumed in an element (R178, R183). -/
def consumesPoison (e : Elem) : Bool :=
  e.y.poison || e.xa.poison || e.aff.poison || e.mixIn.poison || (match e.xb with | some x => x.poison | none => false)

/-! ## Finishing a vector -/

/-- How a command writes what leaves MIX: EMIT, or SELECT's lists. -/
structure Writer where
  write : State → RunCmd → Nat → List Elem → EmitOut × State

/-- EMIT of R155 to R158. -/
def emitWriter : Writer :=
  ⟨fun s rc v es =>
    let r := emitVector rc v es (regsOf s rc.ring)
    (r.1, if r.2 = regsOf s rc.ring then s else setRegs s rc.ring r.2)⟩

/-- Positions that raised saturate. -/
def saturatedCount (rc : RunCmd) (es : List Elem) (fl : List (Nat × Byte)) : Nat :=
  if writesDst0 rc && isBlock (tFmt rc.tumbler) then (fl.filter (fun x => hasFlag x.2 flSaturate)).length
  else (es.filter (fun e => fl.any (fun x => decide (x.1 = e.pos) && hasFlag x.2 flSaturate))).length

/-- Writes go out, or wait behind a raising beat (R298). -/
def outWrites (rc : RunCmd) (raising : Bool) (w : VecWrites) (s : State) : RunCmd × State :=
  if raising || !rc.prog.heldBeats.isEmpty then
    ({ rc with prog := { rc.prog with heldBeats := rc.prog.heldBeats ++ [⟨raising, w⟩] } }, s)
  else bufferWrites rc w s

/-- Events of the blocks written between two states of a command's counts (R665). -/
def countBlocks (old new : Progress) (v : ViId) (s : State) : State :=
  countEvent 0x4A (new.denied - old.denied) (some v) (countEvent 0x49 (new.promoted - old.promoted) (some v)
    (countEvent 0x48 (new.blocks - old.blocks) (some v) s))

/-- The rows of a vector that it completes. -/
def rowsCompleted (rc : RunCmd) (es : List Elem) : List Nat :=
  (vectorRows es).filter (fun r =>
    if psDrains rc then decide (spGet 0 rc.prog.beats r = psPerRow rc)
    else psSegmented rc || es.any (fun e => decide (e.row = r) && decide (e.j + 1 = psM rc)))

/-- Chain rows of a command's slots, as contributions (R341); a chain of lists takes none from slots (R383). -/
def chainRowsOf (s : State) (rc : RunCmd) (hs : List Nat) : List (Nat × ChainRow) :=
  let d := (namedChain s rc).image
  if pkNoSlot rc.packet || decide (2 ≤ cdKind d) then []
  else (hs.filter (fun h => decide (cdRowBase d ≤ h) && decide (h < cdRowBase d + cdRows d))).map
    (fun h => (h - cdRowBase d, ChainRow.ofStat (statOfSlot (slotAt s h))))

/-- Early forwarding of rows whose last vector has reached its slot (R349). -/
def forwardEarly (rc : RunCmd) (es : List Elem) (s : State) : State :=
  if pkF0 rc.packet && pkChv rc.packet && (pkOpcode rc.packet = 1 || pkOpcode rc.packet = 2) then
    let rows := chainRowsOf s rc ((rowsCompleted rc es).map (psSlot rc))
    if rows.isEmpty then s else contributeRows (pkChainId rc.packet) rows rc false s
  else s

/-- What R288 decides for a vector: the slot and its REF where the vector has one, the base rb, the shift. -/
structure SoftStep where
  slot  : Option (Nat × BitVec 16)
  base  : Int
  delta : Nat
  deriving DecidableEq, Repr

/-- No decision. -/
def SoftStep.none : SoftStep := ⟨.none, 0, 0⟩

/-- Writes to tile SRAM as a LOCKSTEP pair compares them: addresses and bytes, but for the element bytes of promoted blocks. -/
def shownWrites (w : VecWrites) : List Nat :=
  (w.bytes.filter (fun b => decide (b.1 ≠ .device)
      && !w.promoted.any (fun p => decide (p.1 = b.1) && decide (p.2 ≤ b.2.1) && decide (b.2.1 < p.2 + 16)))).flatMap
    (fun b => [b.2.1, b.2.2.toNat])

/-- A register position that a vector wrote, with the poison bit of its lane; the other half of a packed lane stays out. -/
def shownLane (packed : Bool) (f : RegFile) (reg pos : Nat) : List Nat :=
  if packed then
    let x := regLane f reg (pos / 2)
    [reg, pos, if pos % 2 = 0 then field x 18 0 else field x 37 19, field x 39 38]
  else [reg, pos, (regLane f reg pos).toNat]

/-- What a vector shows to the twin (R566, R567): its writes to tile SRAM, the registers and the slots that it updated. NaNs that
EMIT writes are canonical (R56). -/
def vectorResults (rc : RunCmd) (v : Nat) (d : SoftStep) (es : List Elem) (w : VecWrites) (s : State) : List Nat :=
  let t := rc.tumbler
  let regs := writesRegs rc
  v :: shownWrites w
    ++ (if regs then es.flatMap (fun e => shownLane (psPacked rc) (regsOf s rc.ring) (tEmitReg t + v) e.pos) else [])
    ++ (if tEn t stTap then ((vectorRows es).filter (psHasSlot rc)).flatMap (fun row => shownSlot (psSlot rc row) (slotAt s (psSlot rc row)))
        else match d.slot with | .none => [] | some x => shownSlot x.1 (slotAt s x.1))

/-- A decision takes effect on its slot: REF, and the sums moved to a raised reference (R288, R294). -/
def applyDecision (d : SoftStep) (rc : RunCmd) (s : State) : RunCmd × State :=
  match d.slot with
  | .none => (rc, s)
  | some x =>
    if x.2 = (slotAt s x.1).ref then (rc, s)
    else ({ rc with prog := { rc.prog with changed := setInsert rc.prog.changed x.1 } },
          modSlot s x.1 (fun y => shiftSlot d.delta { y with ref := x.2 }))

/-- TAP, trap, EMIT and the slot updates of one vector whose elements have passed MIX. A vector that traps changes no slot, not
even by its decision (R551). -/
def finishVector (w : Writer) (v : Nat) (d : SoftStep) (raising : Bool) (fired : Nat) (es : List Elem) (rc0 : RunCmd) (s0 : State) :
    RunCmd × State :=
  let t := rc0.tumbler
  let rs := vectorReductions (applyDecision d rc0 s0).2 rc0 es
  let flags := rc0.prog.flags ||| es.foldl (fun f e => f ||| e.flags) (if tEn t stTap then tapUse rc0 es else 0)
    ||| rs.foldl (fun f r => f ||| r.2.flags) 0
  let met : Progress := { rc0.prog with
    flags := flags, poisonIn := rc0.prog.poisonIn || es.any consumesPoison, vector := rc0.prog.vector + 1 }
  match vectorTrap rc0 es rs with
  | some x =>
    ({ rc0 with prog := { met with
        ended := some .trapNan,
        heldBeats := if raising then rc0.prog.heldBeats ++ [⟨true, VecWrites.empty⟩] else rc0.prog.heldBeats } },
     recordTrap rc0 x s0)
  | none =>
    let a := applyDecision d { rc0 with prog := met } s0
    let o := w.write a.2 a.1 v es
    let rc1 := { o.1.rc with prog := { o.1.rc.prog with
      flags := o.1.flags.foldl (fun f x => f ||| x.2) o.1.rc.prog.flags,
      positions := o.1.rc.prog.positions + es.length, headroom := o.1.rc.prog.headroom + fired } }
    let s1 := countEvent 0x4B (saturatedCount rc1 es o.1.flags) (some rc0.vi) (countBlocks rc0.prog rc1.prog rc0.vi o.2)
    let r2 := rs.foldl (fun (a : RunCmd × State) r => applyReduction a.1 r.1 r.2 a.2) (rc1, s1)
    let r3 := outWrites r2.1 raising o.1.writes r2.2
    (r3.1, forwardEarly r3.1 es (lockstepFold (vectorResults rc0 v d es o.1.writes r3.2) r3.2))

end Sys2Proof.Machine
end

