-- ==== Sys2Proof/Machine/Buckets.lean ====
section
/-! DEFINITION. The bucket engine (R398 to R407): buckets in row slots, records gathered into whole sectors, overflow,
and the fills that a bucket command reads at its start and writes back before its completion. -/

namespace Sys2Proof.Machine

/-- A record on its way to a bucket: token row, expert, weight, poison. -/
structure GateRecord where
  token  : Nat
  expert : Int
  weight : W32
  poison : Bool
  deriving DecidableEq, Repr

def bucketBase (x : Slot) : Nat := field x.sw 63 0
def bucketCap (x : Slot) : Nat := field x.sw 95 64
def bucketFill (x : Slot) : Nat := field x.sw 127 96

/-- FILL written back to a bucket's software word. -/
def setFill (n : Nat) (x : Slot) : Slot := { x with sw := BitVec.ofNat 128 (field x.sw 95 0 + place (n % 2 ^ 32) 96) }

/-- FILL of every bucket of the range, as the command finds it at its start (R401). -/
def readFills (s : State) (rc : RunCmd) : RunCmd :=
  { rc with prog := { rc.prog with
      fills := (List.range (pkRows rc.packet)).map (fun e => (e, bucketFill (slotAt s (pkRow0 rc.packet + e)))) } }

/-- The fill of a bucket as this command stands. -/
def fillNow (rc : RunCmd) (e : Nat) : Nat := spGet 0 rc.prog.fills e

/-! ## Placing records -/

/-- The records placed so far: the command with its fills and counts, the memory writes, and whether a bucket's
address fell outside the tile's SRAM. -/
structure Placing where
  rc     : RunCmd
  writes : VecWrites
  fault  : Bool
  deriving DecidableEq, Repr

/-- One sector's bytes join the combining buffer of a stream; a whole sector leaves it (R406). -/
def combineSector (key : Nat) (poison : Bool) (p : Placing) (x : SectorBytes) : Placing :=
  let mine (h : Nat × HeldSector) : Bool :=
    decide (h.1 = key) && decide (h.2.space = x.space) && decide (h.2.sector = x.sector)
  let buf := p.rc.prog.combine
  let old := (buf.filter mine).flatMap (fun h => h.2.bytes)
  let bad := poison || (buf.filter mine).any (fun h => h.2.poison)
  let rest := buf.filter (fun h => !mine h)
  let bs := x.bytes ++ old.filter (fun y => !x.bytes.any (fun z => decide (z.1 = y.1)))
  let keep (l : List (Nat × HeldSector)) : RunCmd := { p.rc with prog := { p.rc.prog with combine := l } }
  if bs.length = 64 then
    { p with rc := keep rest
             writes := p.writes.append ⟨bs.map (fun b => (x.space, 64 * x.sector + b.1, b.2)),
               if bad then [(x.space, x.sector)] else [], [], []⟩ }
  else { p with rc := keep (rest ++ [(key, ⟨x.space, x.sector, bs, bad⟩)]) }

/-- A record's bytes join a stream: a bucket, by 16 plus its place in the range, or the overflow region of descriptor 6. -/
def combineRecord (key : Nat) (sp : Space) (a : Nat) (bs : List Byte) (poison : Bool) (p : Placing) : Placing :=
  let w := VecWrites.place key sp a bs poison
  (bySector w.bytes).foldl (combineSector key poison) { p with writes := p.writes.append ⟨[], [], w.runs, []⟩ }

/-- One record (R400 to R404, R407). -/
def placeRecord (s : State) (a : Placing) (g : GateRecord) : Placing :=
  let rc := a.rc
  let p := { rc.prog with poisonIn := rc.prog.poisonIn || g.poison }
  let with_ (p : Progress) : Placing := { a with rc := { rc with prog := p } }
  if g.expert = -1 then with_ p
  else if g.expert < 0 ∨ (pkRows rc.packet : Int) ≤ g.expert then
    with_ { p with flags := p.flags ||| flInvalid, special := p.special + 1 }
  else
    let e := g.expert.toNat
    let x := slotAt s (pkRow0 rc.packet + e)
    let fill := fillNow rc e
    let d := descOf rc 6
    if fill < bucketCap x then
      let addr := bucketBase x + 8 * fill
      if Config.tileBytes < addr + 8 then { with_ p with fault := true }
      else combineRecord (16 + e) (ringTile rc.ring) addr (natBytes 4 g.token ++ natBytes 4 g.weight.toNat) g.poison
        (with_ { p with fills := spPut p.fills e (fill + 1), placed := p.placed + 1 })
    else if (pkDmask rc.packet).testBit 6 && decide (p.overflowed < dCap d) then
      combineRecord 6 (descSpace rc d) (dBase d + 16 * p.overflowed)
        (natBytes 4 g.token ++ natBytes 4 e ++ natBytes 4 g.weight.toNat ++ natBytes 4 0) g.poison
        (with_ { p with overflowed := p.overflowed + 1 })
    else with_ { p with flags := p.flags ||| flSaturate, dropped := p.dropped + 1 }

/-- The events of records placed between two states of a command's counts (R665): bad experts are counted in `special`. -/
def countBuckets (old new : Progress) (v : ViId) (s : State) : State :=
  countEvent 0x46 (new.special - old.special) (some v) (countEvent 0x45 (new.dropped - old.dropped) (some v)
    (countEvent 0x44 (new.overflowed - old.overflowed) (some v)
      (countEvent 0x43 (new.placed - old.placed) (some v) s)))

/-- Records placed one after another; the sectors that they complete are written whole. A bucket address that does not
exist is answered by the memory port with an error. -/
def placeRecords (gs : List GateRecord) (rc : RunCmd) (s : State) : Bool × RunCmd × State :=
  let a := gs.foldl (placeRecord s) ⟨rc, VecWrites.empty, false⟩
  let r := bufferWrites a.rc a.writes (countBuckets rc.prog a.rc.prog rc.vi s)
  (a.fault, r.1, r.2)

/-! ## The end of a bucket command -/

/-- What the combining buffers still hold is merged into its sectors (R406). -/
def flushBuckets (rc : RunCmd) (s : State) : RunCmd × State :=
  ({ rc with prog := { rc.prog with combine := [] } }, rc.prog.combine.foldl (fun s h => mergeSector rc.vi h.2 s) s)

/-- FILL of every bucket goes back to its slot before the completion (R401). -/
def writeFills (rc : RunCmd) (s : State) : RunCmd × State :=
  rc.prog.fills.foldl (fun (a : RunCmd × State) x =>
    let h := pkRow0 rc.packet + x.1
    if bucketFill (slotAt a.2 h) = x.2 then a
    else ({ a.1 with prog := { a.1.prog with changed := setInsert a.1.prog.changed h } }, modSlot a.2 h (setFill x.2)))
    (rc, s)

/-- A bucket command completes, by itself or by the NaN trap (R405, R551). -/
def finishBuckets (base : Status) (rc : RunCmd) (s : State) : State :=
  let m := flushBuckets rc s
  let f := writeFills m.1 m.2
  completeCmd f.1 base 0 f.1.prog.overflowed f.1.prog.placed f.2

/-- A bucket command whose bucket lies outside the tile's SRAM (R537, R543). -/
def failBuckets (rc : RunCmd) (s : State) : State :=
  failCmd { rc with failed := none } ⟨clChip, 13, ckBoundary, 0, none⟩ s

end Sys2Proof.Machine
end

