-- ==== Sys2Proof/Machine/Run.lean ====
section
/-! DEFINITION. Running a pass: its vectors in order (R120, R125 to R129, R277 to R280), the soft-maximum decision
(R284 to R290), segments (R482), hardware errors met on the way (R537), and the end of the pass (R175, R243, R435). -/

namespace Sys2Proof.Machine

/-! ## Forming the elements of a vector -/

/-- A vector's elements through JOIN or MIX, and its headroom count. -/
structure Formed where
  rc    : RunCmd
  state : State
  elems : List Elem
  fired : Nat
  mixed : Bool
  deriving DecidableEq, Repr

/-- INTAKE of one vector, with its sector reads counted and its bytes kept for the input hash. -/
def takeIn (s : State) (rc : RunCmd) (v : VecIn) : RunCmd × State × Intake :=
  let i := intake s rc v
  let rc1 := { rc with prog := { rc.prog with taken := i.taken } }
  (i.bytes.foldl (fun r b => addInput r b.1 b.2) rc1, countReads rc i.sectors s, i)

/-- Vectors of a row whose pairs reach over them: they pass MIX together and are then ready in the order given. `stamp` names the
free values of partners that never came. -/
def formRow (s : State) (rc : RunCmd) (stamp : Nat) (vs : List VecIn) : RunCmd × State :=
  let r := vs.foldl (fun (a : RunCmd × State × List ReadyVec) v =>
    let x := takeIn a.2.1 a.1 v
    (x.1, x.2.1, a.2.2 ++ [⟨v.number, x.2.2.fired, x.2.2.elems.map (throughJoin a.2.1 rc 0)⟩])) (rc, s, [])
  let all := r.2.2.flatMap (fun x => x.elems)
  let mixed := r.2.2.map (fun x => { x with elems := mixAll s rc stamp all x.elems })
  ({ r.1 with prog := { r.1.prog with ready := mixed } }, r.2.1)

/-- The vectors of a memory pass's row, of which the first is `v`. -/
def rowVectors (rc : RunCmd) (v : VecIn) : List VecIn :=
  let n := psPerRow rc
  let row := v.number / n
  (List.range n).map (fun k =>
    { number := row * n + k, spots := rowSpots rc row k, beat := none, staged := if k = 0 then v.staged else none })

/-- The next vector, formed: the first of those ready, where pairs reach over vectors. -/
def formVector (s : State) (rc : RunCmd) (v : VecIn) : Formed :=
  if rowAtOnce rc then
    let a := if rc.prog.ready.isEmpty then formRow s rc 0 (rowVectors rc v) else (rc, s)
    match a.1.prog.ready with
    | [] => ⟨a.1, a.2, [], 0, true⟩
    | x :: rest => ⟨{ a.1 with prog := { a.1.prog with ready := rest } }, a.2, x.elems, x.fired, true⟩
  else
    let x := takeIn s rc v
    ⟨x.1, x.2.1, x.2.2.elems, x.2.2.fired, false⟩

/-! ## The soft-maximum decision -/

/-- The beat bound of a vector's row: from the prescan of the drain, or from port A's decoded values. -/
def vectorBound (rc : RunCmd) (v : VecIn) (row : Nat) (es : List Elem) : Val :=
  let block := v.number % psPerRow rc
  if tSrcA rc.tumbler = 1 then
    let groups := (v.beat.map (fun x => x.groups)).getD []
    beatBound rc row block (fun l => drainScaled (tBias rc.tumbler) rc.latched.bias (tScaleA rc.tumbler) v.lanes
      ((groups.map (fun m => m.value)).getD (l / 32) 0).toInt)
  else
    beatBound rc row block (fun l => match es.find? (fun e => decide (e.pos = l)) with
      | some e => e.xa.val
      | none => .inf true)

/-- The decision of R288 for a vector. -/
def softDecide (rc : RunCmd) (v : VecIn) (es : List Elem) (s : State) : SoftStep :=
  match es.head? with
  | none => SoftStep.none
  | some e =>
    let h := psSlot rc e.row
    let x := slotAt s h
    let d := refDecision rc.latched.refpol rc.latched.headroom.toNat x.fin x.ref (vectorBound rc v e.row es)
    ⟨some (h, d.ref), refBase d.ref, d.delta⟩

/-- R290: the headroom flag of a lane above rb + H. -/
def overHeadroom (rc : RunCmd) (base : Int) (e : Elem) : Bool :=
  !e.aff.poison && vlt (vint (base + rc.latched.headroom.toNat)) e.aff.val

def markHeadroom (rc : RunCmd) (base : Int) (e : Elem) : Elem :=
  if overHeadroom rc base e then { e with flags := e.flags ||| flHeadroom } else e

/-! ## One vector -/

/-- How a command's pass runs: its writer, and whether its vectors take the soft-maximum decision. -/
structure PassKind where
  writer : Writer
  soft   : Bool

/-- The events of a vector entering INTAKE (R665). -/
def countVector (rc : RunCmd) (n fired : Nat) (s : State) : State :=
  countEvent 0x33 fired (some rc.vi) (countEvent 0x02 n (some rc.vi) (countEvent 0x01 1 (some rc.vi) s))

/-- One vector runs; none while its shift request finds no place (R627). -/
def runVector (k : PassKind) (v : VecIn) (rc : RunCmd) (s : State) : Option (RunCmd × State) :=
  let f := formVector s rc v
  let d : SoftStep := if k.soft then softDecide f.rc v f.elems f.state else SoftStep.none
  let raising := decide (0 < d.delta) && v.beat.isSome
  if raising && decide (Config.shiftDepth ≤ queuedShifts s) then none
  else
    let s1 := countVector rc f.elems.length f.fired f.state
    -- the request goes out before the chain, so that a trap further on does not call it back (R295, log entry 39)
    let s2 := match raising, v.beat with
      | true, some b => requestShift rc.vi b.beat.rowId d.delta s1
      | _, _ => s1
    let joined := if f.mixed then f.elems else f.elems.map (throughJoin s2 f.rc d.base)
    let high := if k.soft then (joined.filter (overHeadroom f.rc d.base)).length else 0
    let marked := if k.soft then joined.map (markHeadroom f.rc d.base) else joined
    let s3 := countEvent 0x32 high (some rc.vi) s2
    let es := if f.mixed then marked else mixAll s3 f.rc 0 marked marked
    some (finishVector k.writer v.number d raising f.fired es f.rc s3)

/-! ## Beats -/

/-- A beat that belongs to no vector, or that comes after the command ended. After a trap the pass still consumes its beats
(R278, R526); a beat that R279 discards is not consumed. -/
def passBeat (rc : RunCmd) (b : Beat) (ended : Option Status) : RunCmd :=
  { rc with prog := { rc.prog with
      vector := rc.prog.vector + 1, ended := ended,
      upstream := if ended = some .trapNan then rc.prog.upstream + b.digest else rc.prog.upstream } }

/-- The vector of a beat. -/
def beatVector (rc : RunCmd) (row : Nat) (b : DrainEntry) (bad : Option BadWord) : VecIn :=
  ⟨row * psPerRow rc + beatBlock b.beat, rowSpots rc row (beatBlock b.beat), some b, bad⟩

/-- A beat joins its row; none when R279 or R280 refuses it. -/
def admitBeat (rc : RunCmd) (b : Beat) (s : State) : Option (Nat × RunCmd) :=
  (beatRow rc b).map (fun row =>
    (row, noteBeat (if spGet 0 rc.prog.beats row = 0 then rowStarts s rc row else rc) row b))

/-- Whether every beat of the pass has come. -/
def allCame (rc : RunCmd) : Bool := decide (psVectors rc ≤ rc.prog.vector + rc.prog.waiting.length + rc.prog.ready.length)

/-- The beats of the pass that stand in the queue are taken (R278), each to wait for its vector: in arrival order, in expand
mode in element and row order. -/
def gatherBeats : Nat → Option BadWord → RunCmd → State → RunCmd × State
  | 0, _, rc, s => (rc, s)
  | n + 1, bad, rc, s =>
    if allCame rc then (rc, s) else
    match takeBeat s with
    | none => (rc, s)
    | some (b, s0) =>
      let s1 := countEvent 0x30 1 (some rc.vi) s0
      if rc.prog.ended.isSome then gatherBeats n bad (passBeat rc b.beat rc.prog.ended) s1
      else
        match admitBeat rc b.beat s1 with
        | none => gatherBeats n bad (passBeat rc b.beat (some .errorContained)) s1
        | some (row, rc1) =>
          let x := ((beatVector rc1 row b bad).number, (⟨row, b, bad⟩ : WaitingBeat))
          let waiting := if tRdMode rc.tumbler = 1 then insertOrdered x rc1.prog.waiting else rc1.prog.waiting ++ [x]
          gatherBeats n none { rc1 with prog := { rc1.prog with waiting := waiting } } s1

/-- Waiting vectors of a command that has ended write nothing. -/
def dropWaiting (rc : RunCmd) : RunCmd :=
  { rc with prog := { rc.prog with
      vector := rc.prog.vector + rc.prog.waiting.length + rc.prog.ready.length, waiting := [], ready := [] } }

/-- The waiting beats that can be run now: those of a row that is complete, or the first of all once all have come. -/
def runnable (rc : RunCmd) : List (Nat × WaitingBeat) :=
  let w := rc.prog.waiting
  if tRdMode rc.tumbler = 1 && !allCame rc then []
  else if rowAtOnce rc then
    match w.find? (fun x => decide (spGet 0 rc.prog.beats x.2.row = psPerRow rc)) with
    | some x => w.filter (fun y => decide (y.2.row = x.2.row))
    | none => []
  else w.take 1

/-- The next of the waiting vectors. -/
def nextWaiting (k : PassKind) (rc : RunCmd) (s : State) : Bool × RunCmd × State :=
  let go (v : VecIn) (rc1 : RunCmd) (s1 : State) : Bool × RunCmd × State :=
    match runVector k v rc1 s1 with
    | some r => (true, r.1, { r.2 with shift := { r.2.shift with beatHeld := false } })
    | none => (false, rc, { s with shift := { s.shift with beatHeld := true } })
  match rc.prog.ready with
  | x :: _ => go ⟨x.number, [], none, none⟩ rc s
  | [] =>
    let xs := runnable rc
    let rc1 := { rc with prog := { rc.prog with
      waiting := rc.prog.waiting.filter (fun y => !xs.contains y) } }
    match xs with
    | [] => (false, rc, s)
    | x :: _ =>
      if rowAtOnce rc then
        let t := takeFree s
        let a := formRow t.2 rc1 t.1 (xs.map (fun y => beatVector rc y.2.row y.2.entry y.2.bad))
        go ⟨x.1, [], none, none⟩ a.1 a.2
      else go (beatVector rc x.2.row x.2.entry x.2.bad) rc1 s

/-- The next vector of a drain pass whose beats run as they come. -/
def nextBeat (k : PassKind) (bad : Option BadWord) (rc : RunCmd) (s : State) : Bool × RunCmd × State :=
  match takeBeat s with
  | none => (false, rc, s)
  | some (b, s0) =>
    let s1 := countEvent 0x30 1 (some rc.vi) s0
    if rc.prog.ended.isSome then (true, passBeat rc b.beat rc.prog.ended, s1)
    else
      match admitBeat rc b.beat s1 with
      | none => (true, passBeat rc b.beat (some .errorContained), s1)
      | some (row, rc1) =>
        match runVector k (beatVector rc1 row b bad) rc1 s1 with
        | some r => (true, r.1, { r.2 with shift := { r.2.shift with beatHeld := false } })
        | none => (false, rc, { s with shift := { s.shift with beatHeld := true } })

/-- The next vector of a pass: whether there was one, the command and the state. -/
def nextVector (k : PassKind) (bad : Option BadWord) (rc : RunCmd) (s : State) : Bool × RunCmd × State :=
  if beatsWait rc then
    let a := gatherBeats s.drain.queue.length bad rc s
    if a.1.prog.ended.isSome then
      (decide (rc.prog.vector < (dropWaiting a.1).prog.vector), dropWaiting a.1, a.2)
    else nextWaiting k a.1 a.2
  else if psDrains rc then nextBeat k bad rc s
  else
    let n := rc.prog.vector
    let spots := vectorSpots rc n
    let rc1 := ((spots.filter (fun x => decide (x.j = 0))).map (fun x => x.row)).foldl (rowStarts s) rc
    match runVector k ⟨n, spots, none, bad⟩ rc1 s with
    | some r => (true, r.1, r.2)
    | none => (false, rc, s)

/-- Whether no vector of the pass is left: a pass that ended early still takes the beats that belong to it. -/
def passOver (rc : RunCmd) : Bool :=
  decide (psVectors rc ≤ rc.prog.vector) || (!psDrains rc && rc.prog.ended.isSome)

/-- Vectors until a limit, the end of the pass, or a wait. -/
def runVectors (k : PassKind) : Nat → RunCmd → State → RunCmd × State
  | 0, rc, s => (rc, s)
  | n + 1, rc, s =>
    if passOver rc then (rc, s)
    else
      let r := nextVector k none rc s
      if r.1 then runVectors k n r.2.1 r.2.2 else r.2

/-- A staging word that fails poisons its elements in the next vector (R537). -/
def stagedVector (k : PassKind) (staged : Option BadWord) (rc : RunCmd) (s : State) : RunCmd × State :=
  match staged with
  | none => (rc, s)
  | some _ => if passOver rc || atSegment s rc then (rc, s) else (nextVector k staged rc s).2

/-! ## The end of a pass -/

/-- Insertion of drain lanes by row and index. -/
def drainInsert (x : Nat × Nat × BitVec 48) : List (Nat × Nat × BitVec 48) → List (Nat × Nat × BitVec 48)
  | [] => [x]
  | y :: rest =>
    if x.1 < y.1 ∨ (x.1 = y.1 ∧ x.2.1 ≤ y.2.1) then x :: y :: rest else y :: drainInsert x rest

/-- The drain as a source of the input hash: its lanes in row and index order, six bytes each (R529). -/
def drainSource (rc : RunCmd) : RunCmd :=
  addInput rc (inputKey (if tSrcA rc.tumbler = 1 then 0 else 1) 0)
    ((rc.prog.drainBytes.foldr drainInsert []).flatMap (fun x => natBytes 6 x.2.2.toNat))

/-- R435: whether the SQNR floor alarm fires. -/
def sqnrAlarm (rc : RunCmd) : Bool :=
  let floor := rc.latched.sqnrFloor.toNat
  tSqnr rc.tumbler && decide (floor ≠ 0)
    && vlt (ofF64 rc.prog.signal) (ofF64 (f64Round (vscale (ofF64 rc.prog.noise) floor)))

/-- What remains of the tagged stream, of partial sectors and of hash sources at the end of a pass. -/
def endPass (rc0 : RunCmd) (s0 : State) : RunCmd × State :=
  let o := finishEmit rc0
  let s1 := countBlocks rc0.prog o.rc.prog rc0.vi s0
  let r1 := bufferWrites (drainSource (sumSqnr o.rc)) o.writes s1
  let r2 := flushSectors r1.1 r1.2
  let s3 := if sqnrAlarm r2.1 then countEvent 0x4C 1 (some rc0.vi) r2.2 else r2.2
  let flags := o.flags.foldl (fun f x => f ||| x.2) r2.1.prog.flags
  ({ r2.1 with prog := { r2.1.prog with flags := flags } }, s3)

/-! ## Starting a pass -/

/-- R287: unset references of the range under the global policy. -/
def setGlobalRefs (rc : RunCmd) (s : State) : RunCmd × State :=
  (span (pkRow0 rc.packet) (pkRows rc.packet)).foldl (fun (a : RunCmd × State) h =>
    let x := slotAt a.2 h
    let y := globalRef x
    if y = x then a
    else ({ a.1 with prog := { a.1.prog with changed := setInsert a.1.prog.changed h } }, putSlot a.2 h y)) (rc, s)

/-- Whether the digest links of the range are inputs of the command (R529). -/
def linksIn (rc : RunCmd) : Bool :=
  !pkNoSlot rc.packet
    && (readsSlots rc.tumbler || tEn rc.tumbler stTap || psBuckets rc || decide (pkOpcode rc.packet = 0x04)
        || decide (pkOpcode rc.packet = 0x03) || decide (pkOpcode rc.packet = 0x05))

/-- The map group of a tagged stream that goes on at the vector where another unit left it (R423). -/
def resumedGroup (rc : RunCmd) : RunCmd :=
  if rc.prog.vector = 0 then rc
  else
    match (vectorSpots rc rc.prog.vector).head? with
    | none => rc
    | some x => { rc with prog := { rc.prog with mapGroup := (x.row * blocksPerRow (psM rc) + x.j / 32) / 64 } }

/-- Columns loaded, hash sources of columns and links taken, fills of buckets read, global references set. -/
def beginPass (k : PassKind) (rc0 : RunCmd) (s0 : State) : RunCmd × State :=
  let r1 := loadColumns (resumedGroup rc0) s0
  let cols := (List.range 2).filter (usesColumn rc0.tumbler)
  let rc2 := cols.foldl (fun r c => addInput r (inputKey (2 + c) 0) (columnSource s0 rc0 c)) r1.1
  let rc3 := if linksIn rc2 && (spFind rc2.prog.inputs (inputKey 4 0)).isNone then addLinks s0 rc2 else rc2
  let rc3 := if psBuckets rc3 then readFills s0 rc3 else rc3
  if k.soft && decide (rc3.latched.refpol = 2) then setGlobalRefs rc3 r1.2 else (rc3, r1.2)

/-! ## A pass as part of its command -/

/-- COUNT of a command that the NaN trap ends (R551). -/
def trapCount (rc : RunCmd) : Nat :=
  match pkOpcode rc.packet with
  | 0x08 => rc.prog.elements
  | 0x06 => if tWMode rc.tumbler = 2 then rc.prog.placed else rc.prog.elements
  | _ => rc.prog.positions

/-- The result word of R248. -/
def chainResult (rc : RunCmd) (s : State) : Nat :=
  let t := rc.tumbler
  if tEn t stTap && decide (pkRows rc.packet = 1) && !pkNoSlot rc.packet then
    let x := slotAt s (pkRow0 rc.packet)
    if tTapOp t = 5 then x.maxv.index.toNat else if tTapOp t = 6 then x.minv.index.toNat else 0
  else 0

/-- The result word of a command that the NaN trap ends: R449's, over the vectors before the trap (R456). -/
def trapResult (rc : RunCmd) (s : State) : Nat :=
  match pkOpcode rc.packet with
  | 0x01 | 0x02 => chainResult rc s
  | 0x0B => rc.prog.promoted
  | _ => 0

/-- A command that the NaN trap ends (R551); a bucket fault met before is named in its error log entry (R458, R543). -/
def finishTrap (rc : RunCmd) (s : State) : State :=
  if psBuckets rc then
    if rc.failed = some .errorContained then failBuckets rc s else finishBuckets .trapNan rc s
  else completeCmd rc .trapNan 0 (trapResult rc s) (trapCount rc) s

/-- The error of a step before its vectors: the command goes on, or not, with the position that is staged bad. -/
def meetError (e : Option HwError) (rc : RunCmd) (s : State) : Option (Option BadWord × RunCmd × State) :=
  match e with
  | none => some (none, rc, s)
  | some x =>
    let s1 := applyError x (setCmd s rc)
    if survives rc s1 then some (match x with | .staging p n => some ⟨p, n⟩ | _ => none, (cmdOf s1 rc.ring).getD rc, s1)
    else none

/-- The writes of held beats go out, up to the next beat that waits for its own acknowledgement (R298). -/
def releaseHeld : List HeldBeat → RunCmd → State → RunCmd × State
  | [], rc, s => ({ rc with prog := { rc.prog with heldBeats := [] } }, s)
  | b :: rest, rc, s =>
    if b.raising then ({ rc with prog := { rc.prog with heldBeats := b :: rest } }, s)
    else
      let r := bufferWrites rc b.writes s
      releaseHeld rest r.1 r.2

/-- Runs a pass that has begun, for one step. Beats acknowledged while the command was suspended go out first (R483). When no vector and no held beat is left, the pass ends: by the trap,
by an error, or through `finish`. -/
def continuePass (k : PassKind) (run : Run) (finish : RunCmd → State → State) (rc0 : RunCmd) (s0 : State) : State :=
  let h := releaseHeld rc0.prog.heldBeats rc0 s0
  match meetError run.error h.1 h.2 with
  | none => applyError (run.error.getD .memoryResponse) (setCmd h.2 h.1)
  | some (staged, rc1, s1) =>
    let r2 := stagedVector k staged rc1 s1
    let r := runVectors k (stepLimit r2.2 r2.1 (psVectors r2.1 - r2.1.prog.vector) run.vectors) r2.1 r2.2
    if !passOver r.1 || !r.1.prog.heldBeats.isEmpty then setCmd r.2 r.1
    else
      let e := endPass r.1 r.2
      let s := setCmd e.2 e.1
      match e.1.prog.ended with
      | some .trapNan => finishTrap e.1 s
      | some _ => failCmdUnlogged e.1 s
      | none => finish e.1 s

/-- The checks of R454, then `start` once they have passed; a command already checked goes on with `go`. -/
def checkedThen (rc : RunCmd) (start go : RunCmd → State → State) (s : State) : State :=
  if rc.prog.checked then go rc s
  else
    match verdict s rc with
    | .bad d => refuseCmd rc d s
    | .refused st => completeCmd rc st 0 0 0 s
    | .good => start { rc with prog := { rc.prog with checked := true } } s

/-- Whether a command of the covered tile names the drain (R574), or a command latched a bad table bank (R537): it
completes ERROR_CONTAINED. -/
def barred (s : State) (rc : RunCmd) : Bool :=
  hasPass rc.packet
    && (isCovered rc.ring && cmdDrains rc
        || tEn rc.tumbler stCurve && (match rc.bank with | some b => s.tabs.bad.contains b | none => false))

end Sys2Proof.Machine
end

