-- ==== Sys2Proof/Machine/Chain.lean ====
section
/-! DEFINITION. How a command's meaning is applied to the state, and the plain passes: CHAIN and CHAIN_ACC (R450,
R451), COMPRESS and EXPAND (R408, R409), QUANTISE_MX (R426 to R429). -/

namespace Sys2Proof.Machine

/-! ## Applying a meaning -/

/-- A command that leaves the queue and the registers that software sets as they are. -/
def command (f : State → State) (s : State) : Host.Outcome State Fault Refusal :=
  .next { f s with
    pending := s.pending
    cfg := s.cfg }

/-- A command that leaves the queue as it is. -/
def register (f : State → State) (s : State) : Host.Outcome State Fault Refusal :=
  .next { f s with pending := s.pending }

/-- Whether the chain issues: the unit has power and cycles, and nothing has stopped it. -/
def mayIssue (s : State) : Bool :=
  (decide (s.pwr.state = .active) || decide (s.pwr.state = .quiesce)) && decide (s.pwr.move = .none)
    && !s.pwr.grantStop && s.pwr.opReq.isNone
    && !s.ctl.dbgHalt && !(s.ctl.flushing && unitStops s)

/-- A ring command acts while a command of its opcode holds the chain; else the step changes nothing. -/
def issueIf (p : RunCmd → Bool) (body : RunCmd → State → State) (s : State) : State :=
  if mayIssue s then
    match holderCmd s with
    | some rc => if p rc && decide (rc.phase = .running) then body rc s else s
    | none => s
  else s

def issue (op : Nat) (body : RunCmd → State → State) (s : State) : State :=
  issueIf (fun rc => decide (pkOpcode rc.packet = op)) body s

/-- EMIT to memory and registers, no soft-maximum decision. -/
def plainPass : PassKind := ⟨emitWriter, false⟩

/-- A command that is one pass: checks, the pass, then its own completion. -/
def passCommand (k : PassKind) (run : Run) (finish : RunCmd → State → State) (rc : RunCmd) (s : State) : State :=
  checkedThen rc
    (fun rc s =>
      if barred s rc then failCmdUnlogged rc s
      else
        let b := beginPass k rc s
        continuePass k run finish b.1 b.2)
    (continuePass k run finish) s

/-! ## CHAIN and CHAIN_ACC -/

/-- The command's rows enter the chain that it names, settled, when it succeeds (R341, R350); with early forwarding they have
entered it one by one (R349). -/
def chainContribute (rc : RunCmd) (s : State) : State :=
  if pkChv rc.packet && !pkF0 rc.packet && (finalStatus rc .ok).succeeded then
    contributeRows (pkChainId rc.packet) (chainRowsOf s rc (span (pkRow0 rc.packet) (pkRows rc.packet))) rc true s
  else s

def finishChain (rc : RunCmd) (s : State) : State :=
  completeCmd rc .ok 0 (chainResult rc s) rc.prog.positions (chainContribute rc s)

def chainRow (run : Run) : State → State := issue 0x01 (passCommand plainPass run finishChain)
def chainAccRow (run : Run) : State → State := issue 0x02 (passCommand plainPass run finishChain)

/-! ## COMPRESS and EXPAND -/

/-- The counts of the rows, and the command's completion. -/
def finishCompress (rc : RunCmd) (s : State) : State :=
  let d := descOf rc 5
  let r := writeRecord rc 5 (descSpace rc d) (dBase d)
    ((List.range (psR rc)).flatMap (fun i => natBytes 4 (spGet 0 rc.prog.kept i))) false s
  completeCmd r.1 .ok 0 0 rc.prog.elements r.2

def finishExpand (rc : RunCmd) (s : State) : State := completeCmd rc .ok 0 0 rc.prog.elements s

def compressRow (run : Run) : State → State := issue 0x08 (passCommand plainPass run finishCompress)
def expandRow (run : Run) : State → State := issue 0x09 (passCommand plainPass run finishExpand)

/-! ## QUANTISE_MX -/

/-- The 64-byte summary record (R429). -/
def quantiseSummary (rc : RunCmd) : List Byte :=
  let p := rc.prog
  natBytes 8 p.signal.toNat ++ natBytes 8 p.noise.toNat ++ natBytes 4 p.blocks ++ natBytes 4 p.promoted
    ++ natBytes 4 p.denied ++ natBytes 4 p.saturated ++ natBytes 4 p.zeroed ++ natBytes 4 p.headroom
    ++ natBytes 4 p.special ++ natBytes 1 (boolNat (sqnrAlarm rc)) ++ natBytes 19 0

def finishQuantise (rc : RunCmd) (s : State) : State :=
  let d := descOf rc 5
  let r := if (pkDmask rc.packet).testBit 5 then
      writeRecord rc 5 (descSpace rc d) (dBase d) (quantiseSummary rc) false s
    else (rc, s)
  completeCmd r.1 .ok 0 rc.prog.promoted rc.prog.blocks r.2

def quantiseRow (run : Run) : State → State := issue 0x0B (passCommand plainPass run finishQuantise)

/-! ## The commands -/

/-- CHAIN (R450). -/
def execChain (run : Run) (s : State) : Host.Outcome State Fault Refusal := command (chainRow run) s
/-- CHAIN_ACC (R451). -/
def execChainAcc (run : Run) (s : State) : Host.Outcome State Fault Refusal := command (chainAccRow run) s
/-- COMPRESS (R408). -/
def execCompress (run : Run) (s : State) : Host.Outcome State Fault Refusal := command (compressRow run) s
/-- EXPAND (R409). -/
def execExpand (run : Run) (s : State) : Host.Outcome State Fault Refusal := command (expandRow run) s
/-- QUANTISE_MX (R426). -/
def execQuantise (run : Run) (s : State) : Host.Outcome State Fault Refusal := command (quantiseRow run) s

end Sys2Proof.Machine
end

