-- ==== Sys2Proof/Machine/Sample.lean ====
section
/-! DEFINITION. Candidate lists in vector registers (R370) and the draw of tokens (R388 to R394). -/

namespace Sys2Proof.Machine

/-! ## Lists in registers -/

/-- A register's lanes written whole. -/
def wholeReg (lane : Nat → Nat) : RegVal :=
  ⟨none, ((List.range Config.lanes).map (fun l => (l, BitVec.ofNat 40 (lane l)))).filter (fun x => decide (x.2 ≠ 0))⟩

/-- The four registers of a row's list, every lane written (R370). -/
def putList (reg : Nat) (l : CandList) (f : RegFile) : RegFile :=
  let bad := place (boolNat l.poisoned) 39
  let value (i : Nat) := (match l.entries[i]? with | some c => c.value.toNat | none => w38NegInf.toNat) + bad
  let index (i : Nat) := (match l.entries[i]? with | some c => c.index | none => emptyCandIndex) % 2 ^ 38 + bad
  let put (k : Nat) (x : Nat → Nat) (f : RegFile) : RegFile := spSet ⟨none, []⟩ f (reg + k) (wholeReg x)
  put 3 (fun i => index (512 + i)) (put 2 index (put 1 (fun i => value (512 + i)) (put 0 value f)))

/-- The lists of the rows of a command, into its ring's registers. -/
def putLists (rc : RunCmd) (reg : Nat) (ls : List (Nat × CandList)) (s : State) : RunCmd × State :=
  let f := ls.foldl (fun f l => putList (reg + 4 * l.1) l.2 f) (regsOf s rc.ring)
  let rs := ls.flatMap (fun l => span (reg + 4 * l.1) 4)
  ({ rc with prog := { rc.prog with wroteRegs := rs.foldl setInsert rc.prog.wroteRegs } }, setRegs s rc.ring f)

/-- Position `i` of the list in registers `reg` to `reg + 3`, and whether a lane of it is poisoned. -/
def regEntry (f : RegFile) (reg i : Nat) : Cand × Bool :=
  let v := regLane f (reg + i / 512) (i % 512)
  let x := regLane f (reg + 2 + i / 512) (i % 512)
  (⟨BitVec.ofNat 38 (field v 37 0), field x 37 0⟩, field v 39 38 != 0 || field x 39 38 != 0)

def regEntries (f : RegFile) (reg k : Nat) : List (Cand × Bool) := (List.range k).map (regEntry f reg)

/-- Whether registers hold a list of R368: admitted entries in candidate order, then empty entries. -/
def isList (es : List Cand) : Bool :=
  let n := (es.filter (fun c => admits (ofW38 c.value))).length
  (es.take n).all (fun c => admits (ofW38 c.value)) && candOrdered (es.take n)
    && (es.drop n).all (fun c => decide (c = ⟨w38NegInf, emptyCandIndex⟩))

/-! ## Drawing -/

/-- A row's tokens: whether its list was empty, and whether it was poisoned. -/
structure Drawn where
  tokens : List (BitVec 40)
  empty  : Bool
  poison : Bool
  deriving DecidableEq, Repr

def pkDraws (p : BitVec 512) : Nat := field p 492 485 + 1

/-- The key of the generator (R389). -/
def sampleKey (s : State) (rc : RunCmd) : Nat :=
  if pkF0 rc.packet then pkKey rc.packet else (ctxOfRing s rc.ring).key.toNat

/-- The draws of one row; `row` is the row of the generator's counter. -/
def drawRow (s : State) (rc : RunCmd) (row : Nat) (l : CandList) : Drawn :=
  let p := rc.packet
  let top := ofF32 (BitVec.ofNat 32 (pkOpa p))
  let draw (d : Nat) := drawToken rc.latched.exact l.entries top (drawUnits (sampleKey s rc) (pkOpb p) row d)
  ⟨(List.range (pkDraws p)).map (fun d => (draw d).getD emptyIndex), l.entries.isEmpty, l.poisoned⟩

/-- Row `r` drawn from the command's registers; registers that hold no list give free tokens (log entry 1). -/
def drawFromRegs (rc : RunCmd) (r : Nat) (s : State) : Drawn × State :=
  let p := rc.packet
  let es := regEntries (regsOf s rc.ring) (pkOpc p % 32 + 4 * r) 1024
  let cs := es.map (fun e => e.1)
  let bad := es.any (fun e => e.2)
  if isList cs then
    (drawRow s rc (pkRow0 p + r) ⟨cs.filter (fun c => admits (ofW38 c.value)), bad⟩, s)
  else
    let t := takeFree s
    (⟨(List.range (pkDraws p)).map (fun d => Config.unstatedToken (t.1 + 256 * d)), false, bad⟩, t.2)

/-- Tokens at the destination, if the command has one (R393). -/
def writeTokens (rc : RunCmd) (rows : List (Nat × List (BitVec 40) × Bool)) (s : State) : RunCmd × State :=
  if (pkDmask rc.packet).testBit 4 then
    let d := descOf rc 4
    let w := rows.foldl (fun (w : VecWrites) x =>
      w.append (VecWrites.place 4 (descSpace rc d) (dBase d + 8 * (x.2.1.length * x.1))
        (x.2.1.flatMap (fun t => natBytes 8 t.toNat)) x.2.2)) VecWrites.empty
    let r := bufferWrites rc w s
    flushSectors r.1 r.2
  else (rc, s)

/-- What drawing raises and counts (R392, R394). -/
def noteDrawn (ds : List Drawn) (rc : RunCmd) (s : State) : RunCmd × State :=
  let n := (ds.filter (fun d => d.empty)).length
  ({ rc with prog := { rc.prog with
      flags := rc.prog.flags ||| flagIf (decide (0 < n)) flInvalid,
      poisonIn := rc.prog.poisonIn || ds.any (fun d => d.poison) } },
   countEvent 0x41 n (some rc.vi) s)

/-- SAMPLE without a chain: every row from its registers. -/
def sampleLocal (rc : RunCmd) (s : State) : State :=
  let p := rc.packet
  let rows := (List.range (pkRows p)).foldl (fun (a : List Drawn × State) r =>
    let x := drawFromRegs rc r a.2
    (a.1 ++ [x.1], x.2)) ([], s)
  let n := noteDrawn rows.1 rc rows.2
  let w := writeTokens n.1 (rows.1.zipIdx.map (fun x => (x.2, x.1.tokens, x.1.poison))) n.2
  completeCmd w.1 .ok 0 (((rows.1.headD ⟨[], false, false⟩).tokens.headD emptyIndex).toNat) (pkRows p * pkDraws p) w.2

end Sys2Proof.Machine
end

