-- ==== Sys2Proof/Machine/Final.lean ====
section
/-! DEFINITION. Consuming a chain epoch (R341, R346 to R348, R353, R361, R384, R385), finalisation of rows (R303 to
R308, R312 to R318), and the commands NORM, SOFTMAX_STEP, SOFTMAX_FINAL and SAMPLE. -/

namespace Sys2Proof.Machine

/-! ## Local finalisation -/

def normEps (p : BitVec 512) : Val :=
  match ofF32 (BitVec.ofNat 32 (pkOpa p)) with
  | .fin _ 0 _ _ => vzero false
  | v => v

/-- Flags, poison and changed slots that a finalised row gives its command. -/
def noteFinal (rc : RunCmd) (h : Nat) (flags : Byte) (poison : Bool) : RunCmd :=
  { rc with prog := { rc.prog with flags := rc.prog.flags ||| flags, poisonIn := rc.prog.poisonIn || poison,
                                   changed := setInsert rc.prog.changed h } }

/-- The events of a row finalised by normalisation (R312). -/
def countNorm (n : NormResult) (v : ViId) (s : State) : State :=
  countEvent 0x3B (boolNat n.clamped) (some v) (countEvent 0x3A (boolNat n.empty) (some v) s)

/-- FIN0, FIN1 and FIN of a slot (R260). -/
def slotFinal (n : BitVec 2) (f0 f1 : W64) (x : Slot) : Slot := { x with fsum := f0, fsumsq := f1, fin := n }

def normLocal (rc : RunCmd) (s : State) : RunCmd × State :=
  (span (pkRow0 rc.packet) (pkRows rc.packet)).foldl (fun (a : RunCmd × State) h =>
    let x := slotAt a.2 h
    let n := normFinal x.exact (pkF0 rc.packet) (normEps rc.packet) (statOfSlot x)
    (noteFinal a.1 h n.flags n.poison,
     putSlot (countNorm n rc.vi a.2) h (slotFinal 1 n.fin0 n.fin1 x))) (rc, s)

/-- One slot finalised by soft maximum from a combined state (R303, R304). -/
def softSlot (h : Nat) (exact : Bool) (r : RowStat) (rc : RunCmd) (s : State) : RunCmd × State :=
  let x := slotAt s h
  let n := softRow exact r x.ref
  (noteFinal rc h n.flags (bit r.flags 4),
   putSlot (countEvent 0x34 (boolNat n.empty) (some rc.vi) s) h (slotFinal 2 n.fin0 n.fin1 x))

def softLocal (rc : RunCmd) (s : State) : RunCmd × State :=
  (span (pkRow0 rc.packet) (pkRows rc.packet)).foldl (fun (a : RunCmd × State) h =>
    softSlot h (slotAt a.2 h).exact (statOfSlot (slotAt a.2 h)) a.1 a.2) (rc, s)

/-! ## FINAL: building it at the keystone -/

/-- The FINAL row that the keystone's consuming command makes of a combined row (R346, R380, R384, R385). -/
def finalRowOf (s : State) (rc : RunCmd) (d : ChainDesc) (r : Nat) (v : ChainRow) : FinalRow :=
  match cdKind d.image with
  | 0 =>
    if pkOpcode rc.packet = 0x03 then
      let n := normFinal (cdExact d.image) (pkF0 rc.packet) (normEps rc.packet) v.stat
      .nfin n.fin0 n.fin1 v.stat.count v.stat.flags
    else .stat v.stat
  | 1 => .stat v.stat
  | 2 => .list v 0
  | _ =>
    let x := drawRow s rc r v.list
    .token x.tokens x.tokens.length (BitVec.ofNat 8 (place (boolNat x.poison) 4))

/-- What the keystone's command counts and raises while it builds FINAL. -/
def noteBuilt (rc : RunCmd) (d : ChainDesc) (x : Epoch) (s : State) : RunCmd × State :=
  let rows := List.range (cdRows d.image)
  if cdKind d.image = 0 ∧ pkOpcode rc.packet = 0x03 then
    (rc, rows.foldl (fun s r =>
      countNorm (normFinal (cdExact d.image) (pkF0 rc.packet) (normEps rc.packet) (combinedRow d x r).stat) rc.vi s) s)
  else if cdKind d.image = 3 then noteDrawn (rows.map (fun r => drawRow s rc r (combinedRow d x r).list)) rc s
  else (rc, s)

/-- The keystone's consuming command builds and sends FINAL once everything is there. On a KIND 3 chain only SAMPLE
builds it (R385). -/
def buildFinal (rc : RunCmd) (c : Nat) (s : State) : RunCmd × State :=
  let d := chainAt s c
  let x := epochAt d d.epoch
  let may := decide (cdKind d.image ≠ 3) || decide (pkOpcode rc.packet = 0x07)
  if cdIsKeystone d.image && may && !x.isOver && !x.finalSent && keystoneReady d x then
    let n := noteBuilt rc d x s
    (n.1, keystoneFinal c d.epoch (finalRowOf s rc d) n.2)
  else (rc, s)

/-! ## FINAL: committing it (R348) -/

/-- The payload of a FINAL row, as hashed (R529). -/
def finalInput (d : ChainDesc) (f : FinalRow) : List Byte :=
  match f with
  | .list v _ => (List.range (ceilDiv (max v.list.entries.length 1) 31)).flatMap (fun i => candBytes (31 * i) v)
  | f => finalBytes (finalType d f) f

/-- A slot that takes a FINAL: its EPOCH, and its place among those committed to. -/
def commitSlot (h : Nat) (e : W32) (f : Slot → Slot) (rc : RunCmd) (s : State) : RunCmd × State :=
  ({ rc with prog := { rc.prog with changed := setInsert rc.prog.changed h, reduced := setInsert rc.prog.reduced h } },
   modSlot s h (fun x => { f x with epoch := e }))

/-- The flags that the committing command raises from an NFIN row. -/
def nfinFlags (f0 f1 : W64) : Byte :=
  flagIf (isNan (ofF64 f0) || isNan (ofF64 f1)) flInvalid ||| flagIf (decide (ofF64 f1 = .inf false)) flDivZero

/-- One row of FINAL committed to its slot; rows of lists and tokens go to registers and memory. -/
def commitRow (d : ChainDesc) (e : W32) (r : Nat) (f : FinalRow) (rc : RunCmd) (s : State) : RunCmd × State :=
  let h := cdRowBase d.image + r
  let mine := (slotAt s h).isOpen && decide ((slotAt s h).owner = rc.vi)
  let note (flags : Byte) (fl : BitVec 8) (rc : RunCmd) : RunCmd :=
    { rc with prog := { rc.prog with flags := rc.prog.flags ||| flags, poisonIn := rc.prog.poisonIn || bit fl 4 } }
  match f with
  | .nfin f0 f1 _ fl =>
    let rc1 := note (nfinFlags f0 f1) fl rc
    if mine then commitSlot h e (slotFinal 1 f0 f1) rc1 s else (rc1, s)
  | .stat v =>
    if cdKind d.image = 1 then
      let rc1 := note 0 v.flags rc
      if mine then commitSlot h e (fun x => { x with maxv := v.maxv, minv := v.minv }) rc1 s else (rc1, s)
    else if mine then
      let k := softSlot h (cdExact d.image) v rc s
      commitSlot h e (fun x => x) k.1 k.2
    else (note 0 v.flags rc, s)
  | .list v _ => (note 0 (BitVec.ofNat 8 (place (boolNat v.list.poisoned) 4)) rc, s)
  | .token _ _ fl => (note 0 fl rc, s)

/-- What HINGE_WAIT and the keystone's SAMPLE write when the rows are committed: MAXV indices (R375), merged lists
(R384), tokens (R385). -/
def commitOutputs (d : ChainDesc) (rows : List (Nat × FinalRow)) (rc : RunCmd) (s : State) : RunCmd × State :=
  let p := rc.packet
  let result (n : Nat) (rc : RunCmd) : RunCmd := { rc with prog := { rc.prog with result := BitVec.ofNat 64 n } }
  match cdKind d.image with
  | 0 => (rc, s)
  | 1 =>
    let ix := rows.map (fun r => match r.2 with | .stat v => v.maxv.index | _ => emptyIndex)
    let rc1 := result (ix.headD emptyIndex).toNat rc
    if pkOpcode p = 0x19 ∧ (pkDmask p).testBit 4 then
      let x := descOf rc 4
      writeRecord rc1 4 (descSpace rc x) (dBase x) (ix.flatMap (fun i => natBytes 8 i.toNat)) false s
    else (rc1, s)
  | 2 =>
    putLists rc (pkOpc p % 32) (rows.filterMap (fun r => match r.2 with | .list v _ => some (r.1, v.list) | _ => none)) s
  | _ =>
    let ts := rows.map (fun r => match r.2 with
      | .token ds n fl => (r.1, (List.range n).map (fun i => ds.getD i emptyIndex), bit fl 4)
      | _ => (r.1, [], false))
    let first := (ts.headD (0, [], false)).2.1.headD emptyIndex
    writeTokens (result first.toNat rc) ts s

/-- The FINAL of the current epoch is committed for its consuming command. -/
def commitFinal (rc : RunCmd) (c : Nat) (s : State) : RunCmd × State :=
  let d := chainAt s c
  let x := epochAt d d.epoch
  if x.isOver || !finalComplete d x then (rc, s)
  else
    let rows := (List.range (cdRows d.image)).map (fun r => (r, spGet (.stat RowStat.zero) x.final r))
    let rc0 := addInput rc (inputKey 5 0) (rows.flatMap (fun r => finalInput d r.2))
    let r1 := rows.foldl (fun (a : RunCmd × State) r => commitRow d d.epoch r.1 r.2 a.1 a.2) (rc0, s)
    let r2 := commitOutputs d rows r1.1 r1.2
    ({ r2.1 with prog := { r2.1.prog with finalised := true, count := cdRows d.image } },
     storeRelease (modEpoch r2.2 c d.epoch (fun y => { y with
       phase := .done, committed := true, timer := false, final := [], inputs := [], sent := [] })))

/-- FINAL is built, if this is the keystone and everything is there, and committed, if it is whole. -/
def buildAndCommit (rc : RunCmd) (c : Nat) (s : State) : RunCmd × State :=
  let b := buildFinal rc c s
  commitFinal b.1 c b.2

/-! ## The consuming command -/

/-- Contribution of the consuming command itself, unless every row has come from an earlier one (R316, R341). -/
def consumerContribute (rc : RunCmd) (s : State) : State :=
  let c := pkChainId rc.packet
  let rows := chainRowsOf s rc (span (pkRow0 rc.packet) (pkRows rc.packet))
  if rows.isEmpty then s else contributeRows c rows rc true s

/-- The consuming command contributes, waits for the settled FINAL and commits it; then `finish` goes on. -/
def consume (finish : RunCmd → State → State) (rc : RunCmd) (s : State) : State :=
  let c := pkChainId rc.packet
  let d := chainAt s c
  if rc.prog.finalised then finish rc s
  else if !d.valid || decide (d.owner ≠ rc.vi) then completeCmd rc .retracted 0 0 0 s
  else
    if otherConsumes d rc s then blockCmd rc (.final c) s
    else
      let s1 := if rc.prog.contributed then s else consumerContribute rc s
      let rc1 := { rc with prog := { rc.prog with contributed := true } }
      let s2 := modEpoch s1 c d.epoch (fun x => { x with
        consumer := some rc.ring, timer := x.timer || (cdIsKeystone d.image && !x.isOver) })
      let x := epochAt (chainAt s2 c) d.epoch
      if x.isOver then completeCmd rc1 x.reason 0 0 0 s2
      else
        let r := buildAndCommit rc1 c s2
        if r.1.prog.finalised then finish r.1 (setCmd r.2 r.1) else blockCmd r.1 (.final c) r.2

/-! ## NORM and SOFTMAX_FINAL -/

/-- FIN1 of each row at the second destination (R306). -/
def writeLse (rc : RunCmd) (s : State) : RunCmd × State :=
  if decide (pkOpcode rc.packet = 0x05) && pkF0 rc.packet then
    let d := descOf rc 5
    let w := (List.range (pkRows rc.packet)).foldl (fun (w : VecWrites) r =>
      let x := slotAt s (pkRow0 rc.packet + r)
      w.append (VecWrites.place 5 (descSpace rc d) (dBase d + 8 * r)
        (natBytes 8 (if x.poison then canonicalF64 else x.fsumsq).toNat) x.poison)) VecWrites.empty
    let poison := (span (pkRow0 rc.packet) (pkRows rc.packet)).any (fun h => (slotAt s h).poison)
    let r := bufferWrites rc w s
    let f := flushSectors r.1 r.2
    ({ f.1 with prog := { f.1.prog with poisonIn := f.1.prog.poisonIn || poison } }, f.2)
  else (rc, s)

def finishRows (rc : RunCmd) (s : State) : State := completeCmd rc .ok 0 0 rc.prog.count s

/-- The rows are finalised: what is written, and the apply pass or the completion. -/
def afterFinal (run : Run) (rc : RunCmd) (s : State) : State :=
  let l := writeLse { rc with wait := .nothing } s
  if hasPass rc.packet then
    let b := beginPass plainPass l.1 l.2
    continuePass plainPass run finishRows b.1 b.2
  else finishRows l.1 l.2

/-- A command that finalises rows: locally, or through its chain; then its apply pass. -/
def finalCommand (finalise : RunCmd → State → RunCmd × State) (run : Run) (rc : RunCmd) (s : State) : State :=
  let rows (rc : RunCmd) (s : State) : State :=
    if pkChv rc.packet then consume (afterFinal run) rc s
    else
      let f := finalise rc s
      let rc1 := { f.1 with prog := { f.1.prog with finalised := true, count := pkRows rc.packet } }
      afterFinal run rc1 (setCmd f.2 rc1)
  checkedThen rc
    (fun rc s => if barred s rc then failCmdUnlogged rc s else rows (addLinks s rc) s)
    (fun rc s =>
      if rc.prog.finalised && decide (rc.wait = .nothing) then continuePass plainPass run finishRows rc s
      else rows rc s) s

def normRow (run : Run) : State → State := issue 0x03 (finalCommand normLocal run)
def softFinalRow (run : Run) : State → State := issue 0x05 (finalCommand softLocal run)

/-! ## SOFTMAX_STEP -/

/-- EMIT, with the decision of R288 before each vector. -/
def softPass : PassKind := ⟨emitWriter, true⟩

def finishSoft (rc : RunCmd) (s : State) : State := completeCmd rc .ok 0 0 rc.prog.positions s

def softStepRow (run : Run) : State → State := issue 0x04 (passCommand softPass run finishSoft)

/-! ## SAMPLE -/

/-- The keystone's SAMPLE is done once its tokens are committed (R385, R393). -/
def finishSample (rc : RunCmd) (s : State) : State :=
  completeCmd rc .ok 0 rc.prog.result.toNat (rc.prog.count * pkDraws rc.packet) s

def sampleBody (rc : RunCmd) (s : State) : State :=
  let go (rc : RunCmd) (s : State) : State :=
    if pkChv rc.packet then consume finishSample rc s else sampleLocal rc s
  checkedThen rc go go s

def sampleRow : State → State := issue 0x07 sampleBody

/-! ## The commands -/

/-- NORM (R315 to R318). -/
def execNorm (run : Run) (s : State) : Host.Outcome State Fault Refusal := command (normRow run) s
/-- SOFTMAX_STEP (R288). -/
def execSoftmaxStep (run : Run) (s : State) : Host.Outcome State Fault Refusal := command (softStepRow run) s
/-- SOFTMAX_FINAL (R303). -/
def execSoftmaxFinal (run : Run) (s : State) : Host.Outcome State Fault Refusal := command (softFinalRow run) s
/-- SAMPLE (R391). -/
def execSample (s : State) : Host.Outcome State Fault Refusal := command sampleRow s

end Sys2Proof.Machine
end

