-- ==== Sys2Proof/Machine/Select.lean ====
section
/-! DEFINITION. Selection: SELECT in its list, chained and gating forms (R366 to R373, R396, R397), the bucket engine
(R398 to R407) and SCATTER_BUCKETS. -/

namespace Sys2Proof.Machine

/-! ## SCATTER_BUCKETS -/

/-- Dense record `i` of token row `r` (R397), with the poison of its sector. -/
def denseRecord (s : State) (rc : RunCmd) (n : Nat) : GateRecord :=
  let d := descOf rc 0
  let k := pkOpc rc.packet
  let sp := descSpace rc d
  let a := dBase d + 8 * n
  { token := (pkOpa rc.packet + n / k) % 2 ^ 32, expert := signed 32 (readNat s sp a 4),
    weight := BitVec.ofNat 32 (readNat s sp (a + 4) 4), poison := rangePoison s sp a 8 }

/-- Records of one step: at most to the next segment boundary, every 65,536 records (R482). -/
def scatterStep (run : Run) (rc0 : RunCmd) (s0 : State) : State :=
  match meetError run.error rc0 s0 with
  | none => applyError (run.error.getD .memoryResponse) (setCmd s0 rc0)
  | some (staged, rc, s) =>
    let total := pkOpb rc.packet * pkOpc rc.packet
    let at_ := rc.prog.vector
    let n := stepLimit s rc (total - at_) run.vectors
    let d := descOf rc 0
    let ns := span at_ n
    let gs := ns.map (fun i => let g := denseRecord s rc i; if inBadWord staged (i - at_) then { g with poison := true } else g)
    let s1 := countReads rc (spaceSectors (descSpace rc d) (dBase d + 8 * at_) (8 * n)) s
    let r := placeRecords gs { rc with prog := { rc.prog with vector := at_ + n } } s1
    if r.1 then failBuckets r.2.1 r.2.2
    else if at_ + n < total then setCmd r.2.2 r.2.1
    else finishBuckets .ok r.2.1 (setCmd r.2.2 r.2.1)

def scatterBody (run : Run) (rc : RunCmd) (s : State) : State :=
  checkedThen rc (fun rc s => scatterStep run (readFills s (addLinks s rc)) s) (scatterStep run) s

def scatterRow (run : Run) : State → State := issue 0x0A (scatterBody run)

/-! ## SELECT: admission -/

def selectK (rc : RunCmd) : Nat := pkOpc rc.packet % 2 ^ 11

/-- A position's candidate: its stage value where only W38 can be held (R228, R364), with the flags of the roundings. -/
def candidateOf (rc : RunCmd) (e : Elem) : Val × Byte := heldW38 rc e

/-- What a row keeps: its list, every admitted value (for R396), NaNs skipped. -/
structure Admitted where
  list    : CandList
  values  : List (BitVec 38)
  flags   : List (Nat × Byte)
  skipped : Nat
  deriving DecidableEq, Repr

/-- One position of a row (R366, R367). -/
def admitOne (rc : RunCmd) (k : Nat) (a : Admitted) (e : Elem) : Admitted :=
  if e.y.poison then { a with list := { a.list with poisoned := true } }
  else
    let c := candidateOf rc e
    let fl := a.flags ++ [(e.pos, c.2)]
    if isNan c.1 then { a with flags := fl, skipped := a.skipped + 1 }
    else if admits c.1 then
      { a with list := { a.list with entries := candAdmit k a.list.entries ⟨toW38 c.1, e.index⟩ },
               values := a.values ++ [toW38 c.1], flags := fl }
    else { a with flags := fl }

/-- The list that a row starts from: empty, or with CONT the K entries in its registers as candidates. A poisoned lane is
not admitted and marks the list (R367, R371). -/
def startList (s : State) (rc : RunCmd) (row : Nat) : CandList :=
  let t := rc.tumbler
  if pkF0 rc.packet && decide (tDest t ≠ 0) then
    let es := regEntries (regsOf s rc.ring) (tEmitReg t + 4 * row) (selectK rc)
    let clean := (es.filter (fun e => !e.2)).map (fun e => e.1)
    ⟨clean.foldl (fun l c => if admits (ofW38 c.value) then candAdmit (selectK rc) l c else l) [], es.any (fun e => e.2)⟩
  else ⟨[], false⟩

/-- The NaNs among the entries that CONT takes from a row's registers, each counted as not admitted (R366, R371). -/
def startNans (s : State) (rc : RunCmd) (row : Nat) : Nat :=
  if pkF0 rc.packet && decide (tDest rc.tumbler ≠ 0) then
    ((regEntries (regsOf s rc.ring) (tEmitReg rc.tumbler + 4 * row) (selectK rc)).filter
      (fun e => !e.2 && isNan (ofW38 e.1.value))).length
  else 0

/-- A row's gating records: expert by local index, weight (R396, R397). -/
def gateRecords (rc : RunCmd) (row : Nat) (a : Admitted) : List GateRecord :=
  let l := a.list.entries
  let all := if pkF1 rc.packet then l.map (fun c => c.value) else a.values
  let ws := gateWeights l all
  (List.range (selectK rc)).map (fun i =>
    match l[i]? with
    | some c => ⟨(pkOpa rc.packet + row) % 2 ^ 32, (c.index : Int) - pkShard rc.packet, ws.getD i 0, a.list.poisoned⟩
    | none => ⟨(pkOpa rc.packet + row) % 2 ^ 32, -1, 0, a.list.poisoned⟩)

/-- SELECT's writer: the positions of a vector join the lists of their rows; in the gating form each row is complete
in its vector, and its records are written. -/
def selectWriter : Writer :=
  ⟨fun s rc _ es =>
    let k := selectK rc
    let t := rc.tumbler
    let gating := decide (tDest t = 0)
    let step (a : EmitOut × State) (row : Nat) : EmitOut × State :=
      let mine := es.filter (fun e => decide (e.row = row))
      let begun := spFind a.1.rc.prog.lists row
      let skipped := if begun.isSome then 0 else startNans s rc row
      let x := mine.foldl (admitOne rc k) ⟨begun.getD (startList s rc row), [], [], skipped⟩
      let s1 := countEvent 0x40 x.skipped (some rc.vi) a.2
      let p := a.1.rc.prog
      let rc1 := { a.1.rc with prog := { p with
        lists := if gating then p.lists else spPut p.lists row x.list,
        poisonIn := p.poisonIn || x.list.poisoned,
        elements := if gating then p.elements + k else p.elements } }
      if !gating then (⟨rc1, a.1.writes, a.1.flags ++ x.flags⟩, s1)
      else
        let gs := gateRecords rc row x
        let s2 := countEvent 0x42 (boolNat x.list.entries.isEmpty) (some rc.vi) s1
        if tWMode t = 2 then
          let b := gs.foldl (placeRecord s2) ⟨rc1, VecWrites.empty, false⟩
          let s3 := countBuckets rc1.prog b.rc.prog rc.vi s2
          let rc2 := if b.fault then { b.rc with failed := some .errorContained } else b.rc
          (⟨rc2, a.1.writes.append b.writes, a.1.flags ++ x.flags⟩, s3)
        else
          let d := descOf rc 4
          let w := VecWrites.place 4 (descSpace rc d) (dBase d + 8 * (k * row))
            (gs.flatMap (fun g => natBytes 4 (wrapNat 32 g.expert) ++ natBytes 4 g.weight.toNat)) x.list.poisoned
          (⟨rc1, a.1.writes.append w, a.1.flags ++ x.flags⟩, s2)
    (vectorRows es).foldl step (⟨rc, VecWrites.empty, []⟩, s)⟩

/-! ## SELECT: completion -/

/-- The chain rows that the lists contribute (R383). -/
def listRows (rc : RunCmd) : List (Nat × ChainRow) :=
  (List.range (psR rc)).map (fun r => (r, ChainRow.ofList (selectK rc) (spGet ⟨[], false⟩ rc.prog.lists r)))

/-- Registers written, the chain contributed to, and the result word of R449. -/
def finishLists (rc : RunCmd) (s : State) : State :=
  let ls := (List.range (psR rc)).map (fun r => (r, spGet ⟨[], false⟩ rc.prog.lists r))
  let w := putLists rc (tEmitReg rc.tumbler) ls s
  let s1 := if decide (tDest rc.tumbler = 3) && (finalStatus w.1 .ok).succeeded then
      contributeRows (pkChainId rc.packet) (listRows rc) rc true w.2
    else w.2
  let first := match (spGet ⟨[], false⟩ rc.prog.lists 0).entries with
    | c :: _ => c.index
    | [] => emptyCandIndex
  completeCmd w.1 .ok 0 first ((ls.map (fun l => l.2.entries.length)).foldl (· + ·) 0) s1

def finishSelect (rc : RunCmd) (s : State) : State :=
  match rc.failed with
  | some .errorContained => failBuckets rc s
  | _ =>
    if decide (tDest rc.tumbler = 0) then
      if decide (tWMode rc.tumbler = 2) then finishBuckets .ok rc s
      else completeCmd rc .ok 0 0 rc.prog.elements s
    else finishLists rc s

def selectPass : PassKind := ⟨selectWriter, false⟩

def selectRow (run : Run) : State → State := issue 0x06 (passCommand selectPass run finishSelect)

/-! ## The commands -/

/-- SELECT (R369). -/
def execSelect (run : Run) (s : State) : Host.Outcome State Fault Refusal := command (selectRow run) s
/-- SCATTER_BUCKETS (R399). -/
def execScatterBuckets (run : Run) (s : State) : Host.Outcome State Fault Refusal := command (scatterRow run) s

end Sys2Proof.Machine
end

