-- ==== Sys2Proof/Machine/RowState.lean ====
section
/-! DEFINITION. The row-state commands (R269 to R273). -/

namespace Sys2Proof.Machine

/-- The handles of a command's range. -/
def rangeHandles (rc : RunCmd) : List Nat := span (pkRow0 rc.packet) (pkRows rc.packet)

/-- A command that works on its slots at once: checks, then `body`. -/
def rowCommand (op : Nat) (body : RunCmd → State → State) : State → State :=
  issue op (fun rc s => checkedThen rc body body s)

/-- A slot that the command changes. -/
def changeSlot (rc : RunCmd) (h : Nat) (x : Slot) (s : State) : RunCmd × State :=
  ({ rc with prog := { rc.prog with changed := setInsert rc.prog.changed h } }, putSlot s h x)

def notePoison (p : Bool) (rc : RunCmd) : RunCmd := { rc with prog := { rc.prog with poisonIn := rc.prog.poisonIn || p } }

/-! ## ROWSTAT_OPEN (R269, R270) -/

/-- The slot of row `r` as ROWSTAT_OPEN sets it. -/
def openSlot (s : State) (rc : RunCmd) (r : Nat) : Slot :=
  let ref := BitVec.ofNat 16 (pkKey rc.packet)
  if (pkDmask rc.packet).testBit 0 then
    let d := descOf rc 0
    let sp := descSpace rc d
    let a := dBase d + 16 * r
    slotOpened rc.vi rc.latched.exact ref (BitVec.ofNat 128 (readNat s sp a 16)) (rangePoison s sp a 16)
  else slotOpened rc.vi rc.latched.exact ref 0 false

def rowOpen (rc : RunCmd) (s : State) : State :=
  let d := descOf rc 0
  let n := pkRows rc.packet
  let s1 := if (pkDmask rc.packet).testBit 0 then
      countReads rc (spaceSectors (descSpace rc d) (dBase d) (16 * n)) s else s
  let r := (List.range n).foldl (fun (a : RunCmd × State) r =>
    let x := openSlot s rc r
    changeSlot (notePoison x.poison a.1) (pkRow0 rc.packet + r) x a.2) (rc, s1)
  completeCmd r.1 .ok 0 0 n r.2

/-! ## ROWSTAT_CLOSE (R271) -/

def closeSlots (rc : RunCmd) (s : State) : RunCmd × State :=
  (rangeHandles rc).foldl (fun (a : RunCmd × State) h => changeSlot a.1 h Slot.zero a.2) (rc, s)

def rowClose (rc : RunCmd) (s : State) : State :=
  let r := closeSlots rc s
  completeCmd r.1 .ok 0 0 (pkRows rc.packet) r.2

/-! ## ROWSTAT_SPILL (R272) -/

/-- The image of each slot, its binary64 views first (R243); a poisoned slot's sectors are written poisoned. -/
def spillWrites (rc : RunCmd) (s : State) : VecWrites :=
  let d := descOf rc 4
  (List.range (pkRows rc.packet)).foldl (fun (w : VecWrites) r =>
    let x := slotAt s (pkRow0 rc.packet + r)
    w.append (VecWrites.place 4 (descSpace rc d) (dBase d + 256 * r) (slotBytes x) x.poison)) VecWrites.empty

/-- The slots whose binary64 views a spill brings up to date are slots that it changes (R243, R529). -/
def spillViews (rc : RunCmd) (s : State) : RunCmd × State :=
  let s1 := writeViews (rangeHandles rc) s
  let touched := (rangeHandles rc).filter (fun h => decide (slotAt s1 h ≠ slotAt s h))
  ({ rc with prog := { rc.prog with changed := touched.foldl setInsert rc.prog.changed } }, s1)

def rowSpill (rc0 : RunCmd) (s : State) : State :=
  let v := spillViews (addLinks s rc0) s
  let rc := v.1
  let s1 := v.2
  let b := bufferWrites rc (spillWrites rc s1) s1
  let f := flushSectors b.1 b.2
  let c := if pkF0 rc.packet then closeSlots f.1 f.2 else f
  completeCmd c.1 .ok 0 0 (pkRows rc.packet) c.2

/-! ## ROWSTAT_FILL (R273) -/

/-- The slot that an image gives. -/
def fillSlot (s : State) (rc : RunCmd) (r : Nat) : Slot :=
  let d := descOf rc 0
  let sp := descSpace rc d
  let a := dBase d + 256 * r
  let x := slotOf (readBytes s sp a 256)
  { x with owner := rc.vi, isOpen := true, poison := x.poison || rangePoison s sp a 256 }

def rowFill (rc : RunCmd) (s : State) : State :=
  let d := descOf rc 0
  let sp := descSpace rc d
  let n := pkRows rc.packet
  let s1 := countReads rc (spaceSectors sp (dBase d) (256 * n)) s
  let r := (List.range n).foldl (fun (a : RunCmd × State) r =>
    changeSlot a.1 (pkRow0 rc.packet + r) (fillSlot s rc r) a.2)
    (notePoison (rangePoison s sp (dBase d) (256 * n)) rc, s1)
  completeCmd r.1 .ok 0 0 n r.2

/-! ## The commands -/

/-- ROWSTAT_OPEN (R269). -/
def execRowstatOpen (s : State) : Host.Outcome State Fault Refusal := command (rowCommand 0x10 rowOpen) s
/-- ROWSTAT_CLOSE (R271). -/
def execRowstatClose (s : State) : Host.Outcome State Fault Refusal := command (rowCommand 0x11 rowClose) s
/-- ROWSTAT_SPILL (R272). -/
def execRowstatSpill (s : State) : Host.Outcome State Fault Refusal := command (rowCommand 0x12 rowSpill) s
/-- ROWSTAT_FILL (R273). -/
def execRowstatFill (s : State) : Host.Outcome State Fault Refusal := command (rowCommand 0x13 rowFill) s

end Sys2Proof.Machine
end

