-- ==== Sys2Proof/Machine/HingeCommands.lean ====
section
/-! DEFINITION. The hinge commands: HINGE_SEND and its load form (R321 to R328, R341), HINGE_WAIT (R375, R384, R385). -/

namespace Sys2Proof.Machine

/-! ## The load form -/

def detImage (b : Nat) : Nat := 384 + b
def detTable (b : Nat) : Nat := 448 + b

/-- What is wrong with a descriptor image by itself (R322, R326). -/
def checkImage (x : BitVec 512) : Option Nat :=
  firstBad
    [ (bit x 7, detImage 0), (bit x 15, detImage 1), (decide (field x 31 30 ≠ 0), detImage 3),
      (decide (cdLevels x = 0), detImage 3), (decide (field x 39 37 ≠ 0), detImage 4),
      (decide (field x 47 40 ≠ 0), detImage 5), (decide (field x 511 192 ≠ 0), detImage 24),
      (cdStar x && decide (2 ≤ cdKind x), detImage 4), (decide (cdTable x % 64 ≠ 0), detImage 8),
      (decide (cdRows x = 0) || decide (Config.rowSlots < cdRows x), detImage 18),
      (!shapeCloses x || decide (cdMembers x ≤ cdSelf x) || decide (Config.rowSlots < cdRowBase x + cdRows x), detMulti) ]

/-- A member-table entry with a reserved bit set (R323, R324). -/
def checkEntries (entries : List (Nat × BitVec 32)) : Option Nat :=
  entries.findSome? (fun e => firstBad
    [ (decide (field e.2 15 11 ≠ 0), detTable (4 * e.1 + 1)), (decide (field e.2 31 17 ≠ 0), detTable (4 * e.1 + 2)) ])

/-- Whether a descriptor may not be replaced now (R327). -/
def chainBusy (s : State) (rc : RunCmd) (c : Nat) : Bool :=
  (s.rings.cmds ++ s.rings.savedCmds.map (fun x => x.2)).any
      (fun x => decide (x.ring ≠ rc.ring) && pkChv x.packet && decide (pkChainId x.packet = c))
    || chainHolds (chainAt s c)

/-- The members whose table entries a descriptor keeps: the member above and the keystone (R328). -/
def nextHops (x : BitVec 512) : List Nat :=
  (match upTarget x (cdSelf x) with | some t => [t.2] | none => []) ++ [cdKeystone x]

/-- The descriptor that a load leaves (R328). -/
def loadedChain (s : State) (rc : RunCmd) (x : BitVec 512) : ChainDesc :=
  let d := { ChainDesc.invalid with valid := true, owner := rc.vi, image := x, nanTrap := rc.latched.nanTrap,
                                    epoch := cdEpoch0 x }
  { d with hops := (nextHops x).foldl (fun h m => spPut h m (tableEntry s d m)) [] }

def hingeLoad (rc : RunCmd) (s : State) : State :=
  let c := pkChainId rc.packet
  let old := chainAt s c
  let src := descOf rc 0
  let sp := descSpace rc src
  if old.valid && decide (old.owner ≠ rc.vi) || chainBusy s rc c then refuseCmd rc 40 s
  else
    let s1 := countReads rc (spaceSectors sp (dBase src) 64) s
    if rangePoison s sp (dBase src) 64 then completeCmd (notePoison true rc) .poisonInput 0 0 0 s1
    else
      let x := BitVec.ofNat 512 (readNat s sp (dBase src) 64)
      match checkImage x with
      | some d => refuseCmd rc d s1
      | none =>
        let n := cdMembers x
        let s2 := countReads rc (spaceSectors .device (cdTable x) (4 * n)) s1
        if rangePoison s .device (cdTable x) (4 * n) then completeCmd (notePoison true rc) .poisonInput 0 0 0 s2
        else
          match checkEntries ((List.range n).map (fun m => (m, BitVec.ofNat 32 (readNat s .device (cdTable x + 4 * m) 4)))) with
          | some d => refuseCmd rc d s2
          | none => completeCmd rc .ok 0 0 0 (setChain s2 c (loadedChain s rc x))

/-- The load form as a whole. -/
def hingeLoadRow : State → State :=
  issueIf (fun rc => decide (pkOpcode rc.packet = 0x18) && pkF0 rc.packet) (fun rc s => checkedThen rc hingeLoad hingeLoad s)

/-! ## HINGE_SEND -/

/-- The rows of the range enter the chain for its current epoch, from slots that stand committed (R341, R350). -/
def hingeSend (rc0 : RunCmd) (s : State) : State :=
  let rc := addLinks s rc0
  let c := pkChainId rc.packet
  let d := chainAt s c
  let own := (epochAt d d.epoch).own
  let rows := (chainRowsOf s rc (rangeHandles rc)).filter (fun r => (spFind own r.1).isNone)
  let s1 := if rows.isEmpty then s else contributeRows c rows rc true s
  completeCmd rc .ok 0 0 rows.length s1

def hingeSendRow : State → State :=
  issueIf (fun rc => decide (pkOpcode rc.packet = 0x18) && !pkF0 rc.packet) (fun rc s => checkedThen rc hingeSend hingeSend s)

/-! ## HINGE_WAIT -/

def finishWait (rc : RunCmd) (s : State) : State := completeCmd rc .ok 0 rc.prog.result.toNat rc.prog.count s

/-- HINGE_WAIT consumes the epoch; at the keystone of a KIND 3 chain, where SAMPLE does that (R385), it gets no FINAL
and waits until the epoch is closed (log entry 22). -/
def hingeWait (rc : RunCmd) (s : State) : State :=
  let c := pkChainId rc.packet
  let d := chainAt s c
  if d.valid && decide (cdKind d.image = 3) && cdIsKeystone d.image then
    let x := epochAt d d.epoch
    if x.phase = .closed then completeCmd rc x.reason 0 0 0 s else blockCmd rc (.final c) s
  else consume finishWait rc s

def hingeWaitRow : State → State :=
  issue 0x19 (fun rc s => checkedThen rc (fun rc s => hingeWait (addLinks s rc) s) hingeWait s)

/-! ## The commands -/

/-- HINGE_SEND (R341). -/
def execHingeSend (s : State) : Host.Outcome State Fault Refusal := command hingeSendRow s
/-- HINGE_SEND, load form (R321). -/
def execHingeSendLoad (s : State) : Host.Outcome State Fault Refusal := command hingeLoadRow s
/-- HINGE_WAIT (R375). -/
def execHingeWait (s : State) : Host.Outcome State Fault Refusal := command hingeWaitRow s

end Sys2Proof.Machine
end

