-- ==== Sys2Proof/Machine/TableStore.lean ====
section
/-! DEFINITION. The table store: well-formed banks (R202), table-set identifiers (R203), the loader (R206 to R210), and
swaps (R211 to R215). -/

namespace Sys2Proof.Machine

/-! ## Well-formed banks (R202) -/

def bankEntries : Nat := 12288

/-- First and last entry of a slot's area. -/
def slotArea (n : Nat) : Nat × Nat := (8192 + 512 * n, 8703 + 512 * n)

/-- A piece within an area, with a degree and a segment count that are not reserved. -/
def pieceGood (area : Nat × Nat) (packed : Bool) (p : BitVec 64) : Bool :=
  decide (field p 63 38 = 0)
    && (!pcValid p || (decide (pcDeg p ≤ 5) && decide (pcG p ≤ 9) && decide (area.1 ≤ pcBase p)
        && decide (pcBase p + 2 ^ pcG p - 1 ≤ area.2) && (!packed || decide (pcDeg p ≤ 3))))

/-- A valid piece 1 starts where piece 0 ends. -/
def piecesMeet (d : BitVec 256) : Bool :=
  !pcValid (piece d 1) || decide (vcmp (pieceEnd (piece d 0)) (pieceStart (piece d 1)) = .eq)

def dirReserved (d : BitVec 256) : Bool := decide (field d 255 224 = 0) && decide (field d 159 144 = 0)

def dirPieces (area : Nat × Nat) (d : BitVec 256) : Bool :=
  dirReserved d && pieceGood area (dirPacked d) (piece d 0) && pieceGood area (dirPacked d) (piece d 1) && piecesMeet d

/-- The Packed column of R186. -/
def builtinPacked (c : Nat) : Bool := !(decide (c = 2) || decide (c = 5) || decide (c = 21))

def builtinGood (c : Nat) (d : BitVec 256) : Bool :=
  dirPieces (32, 8191) d && dirPresent d && decide (dirKscale d = 0) && !dirSym d && decide (dirSymFix d = 0)
    && decide (dirSplit d = 0) && decide (dirJoin d = 0) && decide (dirPacked d = builtinPacked c)

/-- A custom slot's directory entry: zero, or a curve of its own. -/
def customGood (n : Nat) (d : BitVec 256) : Bool :=
  decide (d = 0)
    || (dirPieces (slotArea n) d && dirPresent d && decide (1 ≤ dirSplit d) && decide (dirSplit d ≤ 5)
        && decide (1 ≤ dirJoin d) && (decide (dirKscale d < 2) || decide (dirSplit d = 4)))

/-- The entry at an index is well formed. -/
def entryGood (i : Nat) (e : BitVec 256) : Bool :=
  if i < 22 then builtinGood i e
  else if i < 24 then decide (e = 0)
  else if i < 32 then customGood (i - 24) e
  else decide (field e 63 56 = 0) && decide (field e 255 224 = 0)

/-- R202 over a bank. The factory's own entries are well formed (log entry 23), so that of a bank based on them the
loaded entries decide. -/
def bankGood (b : Bank) : Bool :=
  if b.factory then b.entries.all (fun e => entryGood e.1 e.2)
  else (List.range bankEntries).all (fun i => entryGood i (bankEntry b i))

/-- The table-set identifier (R203). -/
def bankId (b : Bank) : W64 := tableSetId (bankEntry b)

/-! ## Banks -/

def bankAt (s : State) (i : Nat) : Bank := spGet ⟨false, []⟩ s.tabs.banks i

/-- Whether an unretired command started on a bank (R212, R215), one that waits in a save area included. -/
def bankHeld (s : State) (i : Nat) : Bool :=
  (s.rings.cmds ++ s.rings.savedCmds.map (fun x => x.2)).any (fun c => decide (c.bank = some i) && hasPass c.packet && tEn c.tumbler stCurve)

/-- The spare banks that no command holds. -/
def freeSpares (s : State) : List Nat :=
  (List.range 4).filter (fun i => decide (i ≠ s.tabs.active) && decide (i ≠ s.tabs.shadow) && !bankHeld s i)

/-- What a load finds: the bank, whether a read returned poison, the bytes loaded. -/
structure Loaded where
  bank   : Bank
  poison : Bool
  bytes  : Nat
  good   : Bool
  deriving DecidableEq, Repr

/-- A directory entry with each BASE moved to a slot's area (R207). -/
def moveBases (n : Nat) (d : BitVec 256) : BitVec 256 :=
  let move (x : Nat) (lo : Nat) : Nat :=
    let old := field d (lo + 13) lo
    x - place old lo + place ((old + 8192 + 512 * n) % 2 ^ 14) lo
  BitVec.ofNat 256 (move (move d.toNat 0) 64)

/-- One custom slot replaced in a bank. -/
def loadSlot (s : State) (b : Bank) (n : Nat) (sp : Space) (a : Nat) : Loaded :=
  let d := BitVec.ofNat 256 (readNat s sp a 32)
  let k := slotSegments d
  let put (m : Sparse (BitVec 256)) (i : Nat) (x : BitVec 256) := spSet 0 m i x
  let e1 := put b.entries (24 + n) (moveBases n d)
  let e2 := (List.range 512).foldl (fun m i =>
    put m (8192 + 512 * n + i) (if i < k then BitVec.ofNat 256 (readNat s sp (a + 32 + 32 * i) 32) else 0)) e1
  ⟨{ b with entries := e2 }, rangePoison s sp a (32 + 32 * k), 32 + 32 * k, true⟩

/-- What a load reads (R206): the whole bank, the active bank, or one slot. -/
def loadBank (s : State) (j : LoadJob) : Loaded :=
  match j.mode.toNat with
  | 0 =>
    let es := ((List.range bankEntries).map (fun i => (i, BitVec.ofNat 256 (readNat s j.space (j.source + 32 * i) 32)))).filter
      (fun x => decide (x.2 ≠ 0))
    ⟨⟨false, es⟩, rangePoison s j.space j.source 393216, 393216, true⟩
  | 1 => ⟨bankAt s s.tabs.active, false, 393216, !s.tabs.bad.contains s.tabs.active⟩
  | _ => { loadSlot s (bankAt s s.tabs.shadow) j.slot.toNat j.space j.source with good := !s.tabs.bad.contains s.tabs.shadow }

/-! ## The loader's queue (R210, R213, R214) -/

/-- How a table command ends: the status, the result word and the count wait with the command. -/
def loaderOutcome (ring : Nat) (st : Status) (result : W64) (count : Nat) (s : State) : State :=
  match cmdOf s ring with
  | none => s
  | some c => setCmd s { c with
      phase := .blocked true
      prog := { c.prog with finalised := true, ended := some st, result := result, count := count } }

/-- The front of the loader's queue is taken up. -/
def serveLoader : Nat → State → State
  | 0, s => s
  | n + 1, s =>
    if s.tabs.job.isSome || s.tabs.swap.isSome then s
    else
      match s.tabs.queue with
      | [] => s
      | ring :: rest =>
        match cmdOf s ring with
        | none => serveLoader n { s with tabs := { s.tabs with queue := rest } }
        | some c =>
          if pkOpcode c.packet = 0x20 then
            let m := pkOpc c.packet
            { s with tabs := { s.tabs with
                job := some ⟨ring, BitVec.ofNat 2 m, BitVec.ofNat 3 (m / 4), descSpace c (descOf c 0), dBase (descOf c 0)⟩ } }
          else if !s.tabs.shadowValid then
            serveLoader n (loaderOutcome ring .badCommand 0 0 { s with tabs := { s.tabs with queue := rest } })
          else if (freeSpares s).isEmpty then setCmd s { c with wait := .spareBank }
          else { setCmd s { c with wait := .loader } with tabs := { s.tabs with swap := some ring } }

def serveAll (s : State) : State := serveLoader (s.tabs.queue.length + 1) s

/-- A ring no longer waits for the loader, nor has it work there. -/
def leaveLoader (ring : Nat) (s : State) : State :=
  { s with tabs := { s.tabs with
      queue := s.tabs.queue.filter (fun r => decide (r ≠ ring)),
      job := match s.tabs.job with | some j => if j.ring = ring then none else some j | none => none,
      swap := if s.tabs.swap = some ring then none else s.tabs.swap } }

/-! ## TABLE_LOAD and TABLE_SWAP -/

/-- The command reaches the loader and its ring waits. -/
def reachLoader (rc : RunCmd) (s : State) : State :=
  let s1 := blockCmd rc .loader s
  serveAll { s1 with tabs := { s1.tabs with queue := s1.tabs.queue ++ [rc.ring] } }

/-- Resumed after its wait, the command completes. -/
def finishLoader (rc : RunCmd) (s : State) : State :=
  match rc.prog.ended with
  | some st => completeCmd rc st detMulti rc.prog.result.toNat rc.prog.count s
  | none => blockCmd rc .loader s

def tableRow (op : Nat) : State → State := issue op (fun rc s => checkedThen rc reachLoader finishLoader s)

/-- The load under way ends: the shadow bank holds what was read, and R202 decides (R208, R209). -/
def tableLoadDone (s : State) : State :=
  match s.tabs.job with
  | none => s
  | some j =>
    let l := loadBank s j
    let good := l.good && !l.poison && bankGood l.bank
    let id := bankId l.bank
    let s1 := match cmdOf s j.ring with
      | some c => if j.mode = 1 then s else countReads c (spaceSectors j.space j.source l.bytes) s
      | none => s
    let bad := if l.good then setErase s1.tabs.bad s1.tabs.shadow else setInsert s1.tabs.bad s1.tabs.shadow
    let s2 := { s1 with tabs := { s1.tabs with
        banks := spPut s1.tabs.banks s1.tabs.shadow l.bank, shadowValid := good, shadowId := id, bad := bad,
        job := none, queue := s1.tabs.queue.filter (fun r => decide (r ≠ j.ring)) } }
    let st : Status := if l.poison then .poisonInput else if good then .ok else .badCommand
    serveAll (loaderOutcome j.ring st (if good then id else 0) (if good then l.bytes else 0) s2)

/-- At a command boundary the shadow becomes the active bank (R211, R212). -/
def tableSwapApply (s : State) : State :=
  match s.tabs.swap with
  | none => s
  | some ring =>
    if s.rings.holder.isSome then s
    else
      let old := s.tabs.active
      let t := s.tabs
      let t1 := { t with active := t.shadow, id := t.shadowId, swap := none,
                         queue := t.queue.filter (fun r => decide (r ≠ ring)) }
      let t2 := match bankHeld s old, freeSpares s with
        | true, n :: _ => { t1 with shadow := n, shadowValid := false, shadowId := 0 }
        | _, _ => { t1 with shadow := old, shadowValid := !t.bad.contains old, shadowId := t.id }
      serveAll (loaderOutcome ring .ok t.shadowId 0 { s with tabs := t2 })

/-! ## The commands -/

/-- TABLE_LOAD (R206). -/
def execTableLoad (s : State) : Host.Outcome State Fault Refusal := command (tableRow 0x20) s
/-- TABLE_SWAP (R211). -/
def execTableSwap (s : State) : Host.Outcome State Fault Refusal := command (tableRow 0x21) s
/-- The table loader ends a load (R208). -/
def execTableLoadDone (s : State) : Host.Outcome State Fault Refusal := command tableLoadDone s
/-- A swap takes effect at a command boundary (R211). -/
def execTableSwapApply (s : State) : Host.Outcome State Fault Refusal := command tableSwapApply s

end Sys2Proof.Machine
end

