-- ==== Sys2Proof/Machine/HingeEvents.lean ====
section
/-! DEFINITION. Hinge packets that arrive, and the hinge port's timers (R331 to R362, R377 to R382). -/

namespace Sys2Proof.Machine

/-! ## What arrives -/

/-- Whether the unit itself takes packets; else the fabric proxy answers for it (R357, R556). -/
def hingeListens (s : State) : Bool := decide (s.ctl.state = .active)

/-- The VI that the events of a chain identifier belong to. -/
def chainVi (s : State) (c : Nat) : Option ViId := if (chainAt s c).valid then some (chainAt s c).owner else none

def rxCredit (p : HingePacket) (s : State) : State := returnFlits (packetChannel p) (packetFlits p) s

/-- The flits of a packet take credits of their channel (R336). -/
def takeFlits (p : HingePacket) (s : State) : State :=
  { s with hinge := { s.hinge with
      granted := spSet 0 s.hinge.granted (packetChannel p) (spGet 0 s.hinge.granted (packetChannel p) - packetFlits p) } }

/-- A packet of a type arrives: it is counted and wakes the unit (R598). A reserved type is dropped and counted (R334);
a packet of another type is no concern of this command. -/
def arrive (type : Nat) (p : HingePacket) (body : State → State) (s : State) : State :=
  let t := hdType p.header
  if !hingeListens s then s
  else if t = type then body (countEvent 0x51 1 (chainVi s (hdChain p.header)) (takeFlits p (wake s)))
  else if 5 ≤ t then
    let v := chainVi s (hdChain p.header)
    countEvent 0x52 1 v (countEvent 0x51 1 v (rxCredit p (takeFlits p (wake s))))
  else s

/-- An answer goes to the sender of a packet, over the link that its member-table entry names (R323). -/
def answer (p : HingePacket) (type reason : Nat) (reply : Bool) (epoch : W32) (s : State) : State :=
  let c := hdChain p.header
  let d := chainAt s c
  let e := tableEntry s d (hdMember p.header)
  let twin := d.valid && entryTwin s e && decide (entryAddr e = (hdSrc p.header).toNat)
  let self := if d.valid then cdSelf d.image else 0
  sendHead { HingeHead.blank type c epoch self (hdSrc p.header).toNat with reason := reason, reply := reply }
    twin d.owner [] s

/-! ## R334 -/

def headReserved (x : BitVec 512) : Bool :=
  decide (5 ≤ hdType x) || bit x 15 || decide (field x 31 26 ≠ 0) || bit x 71 || decide (field x 79 77 ≠ 0)
    || decide (field x 159 154 ≠ 0) || decide (field x 511 160 ≠ 0)

/-- A RETRACT, NACK or PROBE that carries more than its header. -/
def plainBad (x : BitVec 512) : Bool :=
  headReserved x || decide (hdPtype x ≠ ptypeNone) || decide (hdRows x ≠ 0) || decide (hdRow0 x ≠ 0) || decide (hdLen x ≠ 0)

/-- PTYPEs of a FINAL by the chain's KIND and MODE (R346, R384, R385). -/
def finalSuits (x : BitVec 512) (pt : Nat) : Bool :=
  match cdKind x with
  | 3 => decide (pt = ptypeToken)
  | 0 => decide (pt = partialType x) || decide (pt = ptypeNfin)
  | _ => decide (pt = partialType x)

/-- Where FLAGS stands in a row payload (R332, R378, R380). -/
def flagsByte (pt : Nat) : Nat :=
  if pt = ptypeFstat then 24 else if pt = ptypeXstat then 190 else if pt = ptypeExtrema then 26
  else if pt = ptypeNfin then 22 else if pt = ptypeCand then 6 else 21

def payloadRow (p : HingePacket) (pt k : Nat) : List Byte := (p.payload.drop (payloadBytes pt * k)).take (payloadBytes pt)

/-- Row payloads with a bad length, reserved flags, a range beyond the chain's rows, or a foreign K (R331, R334,
R382). -/
def rowsBad (d : ChainDesc) (p : HingePacket) (ownK : Option Nat) : Bool :=
  let x := p.header
  let pt := hdPtype x
  let n := hdRows x
  let flags (bs : List Byte) : Bool := decide (32 ≤ imageField bs (flagsByte pt) 1)
  decide (cdRows d.image < hdRow0 x + n)
    || (if pt = ptypeCand then
          decide (n ≠ 1) || decide (hdLen x < 16) || decide (hdLen x % 16 ≠ 0) || decide (512 < hdLen x) || flags p.payload
            || (match ownK with | some k => decide (imageField p.payload 2 2 ≠ k) | none => false)
        else
          decide (n = 0) || decide (16 < n) || decide (hdLen x ≠ n * payloadBytes pt) || decide (512 < hdLen x)
            || (List.range n).any (fun k => flags (payloadRow p pt k)))

/-- K of the member's own contribution for an epoch. -/
def ownLength (d : ChainDesc) (e : W32) : Option Nat :=
  if 2 ≤ cdKind d.image then (epochAt d e).own.head?.map (fun r => r.2.value.k) else none

def isNotice (x : BitVec 512) : Bool := decide (hdPtype x = ptypeNone)

/-- A settle notice that is not one: it stands for the whole range whatever its ROW0 (R334, R350). -/
def noticeBad (x : BitVec 512) : Bool := !hdSettled x || decide (hdRows x ≠ 0) || decide (hdLen x ≠ 0)

def partialBad (d : ChainDesc) (p : HingePacket) : Bool :=
  let x := p.header
  headReserved x || !(chainInputs d.image (cdSelf d.image)).contains (hdLevel x, hdMember x)
    || (if isNotice x then noticeBad x
        else decide (hdPtype x ≠ partialType d.image) || rowsBad d p (ownLength d (hdEpoch x)))

def finalBad (d : ChainDesc) (p : HingePacket) : Bool :=
  headReserved p.header || cdIsKeystone d.image || !finalSuits d.image (hdPtype p.header)
    || rowsBad d p (ownLength d (hdEpoch p.header))

/-! ## Incarnations (R356) -/

def incOlder (x y : BitVec 16) : Bool := decide (2 ^ 15 < (x - y).toNat)

def incOf (d : ChainDesc) (src : BitVec 16) : Option (BitVec 16) := (d.incs.find? (fun r => decide (r.1 = src))).map (fun r => r.2)

/-- An epoch without the unsettled inputs of a peer, and without its notices, which spoke for its older incarnation; what was
combined from those inputs is formed anew. -/
def dropUnsettled (src : BitVec 16) (e : Epoch) : Epoch :=
  let gone := e.inputs.filter (fun i => decide (i.src = src) && !i.settled)
  { e with inputs := e.inputs.filter (fun i => !(decide (i.src = src) && !i.settled)),
           settledNotices := e.settledNotices.filter (fun n => decide (n.src ≠ src)),
           forwarded := e.forwarded.filter (fun f => !gone.any (fun i => decide (i.row = f.2))) }

/-- The incarnation of a packet against the record: none when it is older, else the state with the record taken and,
for a newer one, the old unsettled inputs discarded. -/
def meetIncarnation (p : HingePacket) (s : State) : Option State :=
  let c := hdChain p.header
  let d := chainAt s c
  let src := hdSrc p.header
  let inc := hdInc p.header
  let noted := (src, inc) :: d.incs.filter (fun r => decide (r.1 ≠ src))
  match incOf d src with
  | none => some (setChain s c { d with incs := noted })
  | some old =>
    if inc = old then some s
    else if incOlder inc old then none
    else
      some (storeRelease (setChain s c
        { d with incs := noted, epochs := d.epochs.map (dropUnsettled src) }))

/-! ## PARTIAL (R339, R340, R342, R350) -/

/-- The position in arrival order that a HINGE_ORDER record ahead of the replay gives an input (R522). -/
def orderPosition (s : State) (c e row level member : Nat) : Nat → Nat → Option Nat
  | 0, _ => none
  | n + 1, pos =>
    if pos = s.det.wptr.toNat then none
    else
      let r := BitVec.ofNat 256 (readNat s .device (s.cfg.traceBase.toNat * 64 + pos) 32)
      if field r 7 0 = 4 ∧ field r 63 32 = e ∧ field r 191 176 = row ∧ field r 201 192 = c ∧ field r 203 202 = level
          ∧ field r 210 204 = member then some (field r 214 211)
      else orderPosition s c e row level member n ((pos + 32) % traceSize s)

/-- The recorded position of an input while replay is in effect; else none. A record that the replay of choices has passed still
holds. -/
def recordedPlace (s : State) (c : Nat) (e : W32) (i : Input) : Option Nat :=
  let find (pos : W32) := orderPosition s c e.toNat i.row i.level i.member (traceSize s / 32) pos.toNat
  if s.det.replayActive then find s.det.replayPos <|> find s.det.replayFrom else none

/-- An input joins in arrival order, or before the inputs of its row and level that the record puts after it. -/
def joinInput (place : Input → Option Nat) (i : Input) : List Input → List Input
  | [] => [i]
  | y :: rest =>
    let before := decide (y.row = i.row) && decide (y.level = i.level)
      && (match place i, place y with | some a, some b => decide (a < b) | _, _ => false)
    if before then i :: y :: rest else y :: joinInput place i rest

def sameInput (a b : Input) : Bool := decide (a.member = b.member) && decide (a.level = b.level) && decide (a.row = b.row)

/-- A candidate list with one more chunk (R378, R379), and how many entries are still to come; FLAGS are ORed over the chunks. -/
def takeChunk (old : Option ChainRow) (bs : List Byte) : ChainRow × Nat :=
  let first := imageField bs 0 2
  let k := imageField bs 2 2
  let n := imageField bs 4 2
  let entries := (List.range ((bs.length - 16) / 16)).map (fun i =>
    (⟨toW38 (roundRne fmtW38 (ofF64 (BitVec.ofNat 64 (imageField bs (16 + 16 * i) 8)))).val, imageField bs (24 + 16 * i) 5⟩ : Cand))
  let flags := BitVec.ofNat 8 (imageField bs 6 1)
  let before : ChainRow := match old with
    | some r => if first = 0 then ChainRow.ofList k ⟨[], false⟩ else r
    | none => ChainRow.ofList k ⟨[], false⟩
  let l := before.list.entries.take first ++ entries
  ({ ChainRow.ofList k ⟨l, before.list.poisoned || bit flags 4⟩ with
     stat := { RowStat.zero with flags := before.stat.flags ||| (flags &&& 0xF) } }, n - l.length)

/-- The inputs that a PARTIAL with rows carries. -/
def packetInputs (x : Epoch) (p : HingePacket) : List Input :=
  let h := p.header
  let pt := hdPtype h
  let base : Input := { member := hdMember h, level := hdLevel h, row := hdRow0 h, value := ChainRow.ofStat RowStat.zero,
                        missing := 0, settled := hdSettled h || x.settledNotices.contains ⟨hdLevel h, hdMember h, hdSrc h⟩,
                        inc := hdInc h, src := hdSrc h }
  if pt = ptypeCand then
    let old := (x.inputs.find? (sameInput base)).map (fun i => i.value)
    let c := takeChunk old (p.payload.take (hdLen h))
    [{ base with value := c.1, missing := c.2 }]
  else
    (List.range (hdRows h)).map (fun k =>
      { base with row := hdRow0 h + k, value := ChainRow.ofStat (statOf pt (payloadRow p pt k)) })

/-- One input enters an epoch. A whole settled input stays; another is replaced, and its row is combined anew. -/
def enterInput (place : Input → Option Nat) (x : Epoch) (i : Input) : Epoch :=
  match x.inputs.find? (sameInput i) with
  | none => { x with inputs := joinInput place i x.inputs }
  | some old =>
    if old.settled && decide (old.missing = 0) then x
    else { x with inputs := x.inputs.map (fun y => if sameInput i y then i else y),
                  forwarded := x.forwarded.filter (fun f => decide (f.2 ≠ i.row)) }

/-- A settle notice settles everything that its member has sent (R350). -/
def takeNotice (n : Notice) (x : Epoch) : Epoch :=
  { x with settledNotices := n :: x.settledNotices,
           inputs := x.inputs.map (fun i => if i.member = n.member ∧ i.level = n.level then { i with settled := true } else i) }

/-- A consuming command of the current epoch that waits: FINAL is built if this is the keystone and everything is
there, and committed if it is whole; then its wait ends. -/
def commitStep (c : Nat) (s : State) : State :=
  let d := chainAt s c
  match (epochAt d d.epoch).consumer with
  | none => s
  | some ring =>
    match cmdOf s ring with
    | none => s
    | some rc =>
      if decide (rc.phase = .blocked false) && decide (rc.wait = .final c) && !rc.prog.finalised then
        let r := buildAndCommit rc c s
        let s1 := setCmd r.2 r.1
        if r.1.prog.finalised then wakeConsumer c s1 else s1
      else s

/-- What follows from a new input: rows go up, or the keystone makes FINAL. -/
def afterInput (c : Nat) (e : W32) (s : State) : State :=
  let s1 := settleNotice c e (forwardRows c e s)
  if cdIsKeystone (chainAt s1 c).image then commitStep c s1 else s1

/-- Whether an epoch lies before the current one or is over (R340). -/
def epochStale (d : ChainDesc) (e : W32) : Bool := epochEarlier e d.epoch || (epochAt d e).isOver

/-- A PARTIAL of an epoch that this member takes inputs for. -/
def storePartial (p : HingePacket) (s : State) : State :=
  let c := hdChain p.header
  let e := hdEpoch p.header
  let full := decide (Config.hingeStore ≤ storeUsed s)
  let s1 := if full then { s with hinge := { s.hinge with withheld := s.hinge.withheld + packetFlits p } } else rxCredit p s
  let s2 := modEpoch s1 c e (fun x =>
    if isNotice p.header then takeNotice ⟨hdLevel p.header, hdMember p.header, hdSrc p.header⟩ x
    else (packetInputs x p).foldl (enterInput (recordedPlace s c e)) x)
  afterInput c e s2

def partialBody (p : HingePacket) (s : State) : State :=
  let c := hdChain p.header
  let e := hdEpoch p.header
  let v := chainVi s c
  if !(chainAt s c).valid then
    if headReserved p.header then countEvent 0x52 1 v (rxCredit p s) else answer p typeNack 3 false e (rxCredit p s)
  else
    match meetIncarnation p s with
    | none => countEvent 0x53 1 v (rxCredit p s)
    | some s1 =>
      let d := chainAt s1 c
      if epochStale d e then countEvent 0x53 1 v (rxCredit p s1)
      else if partialBad d p then failEpoch c e .retracted (countEvent 0x52 1 v (rxCredit p s1))
      else if e ≠ d.epoch ∧ e ≠ d.epoch + 1 then answer p typeNack 4 false e (rxCredit p s1)
      else storePartial p s1

def hingePartialRow (p : HingePacket) : State → State := arrive typePartial p (partialBody p)

/-! ## FINAL (R348) -/

/-- The rows that a FINAL carries. -/
def packetFinal (x : Epoch) (p : HingePacket) : List (Nat × FinalRow) :=
  let h := p.header
  let pt := hdPtype h
  if pt = ptypeCand then
    let old := match spFind x.final (hdRow0 h) with
      | some (.list v _) => some v
      | _ => none
    let c := takeChunk old (p.payload.take (hdLen h))
    [(hdRow0 h, .list c.1 c.2)]
  else
    (List.range (hdRows h)).map (fun k =>
      let bs := payloadRow p pt k
      (hdRow0 h + k,
        if pt = ptypeNfin then
          .nfin (BitVec.ofNat 64 (imageField bs 0 8)) (BitVec.ofNat 64 (imageField bs 8 8))
            (BitVec.ofNat 48 (imageField bs 16 6)) (BitVec.ofNat 8 (imageField bs 22 1))
        else if pt = ptypeToken then
          .token ((List.range 4).map (fun i => BitVec.ofNat 40 (imageField bs (5 * i) 5))) (imageField bs 20 1 % 4 + 1)
            (BitVec.ofNat 8 (imageField bs 21 1))
        else .stat (statOf pt bs)))

def finalBody (p : HingePacket) (s0 : State) : State :=
  let s := rxCredit p s0
  let c := hdChain p.header
  let e := hdEpoch p.header
  let v := chainVi s c
  if !(chainAt s c).valid then
    if headReserved p.header then countEvent 0x52 1 v s else answer p typeNack 3 false e s
  else
    match meetIncarnation p s with
    | none => countEvent 0x53 1 v s
    | some s1 =>
      let d := chainAt s1 c
      if epochStale d e then countEvent 0x53 1 v s1
      else if finalBad d p then countEvent 0x52 1 v s1
      else modEpoch s1 c e (fun x =>
        { x with final := (packetFinal x p).foldl (fun f r => spPut f r.1 r.2) x.final,
                 finalSettled := hdSettled p.header })

def hingeFinalRow (p : HingePacket) : State → State := arrive typeFinal p (finalBody p)

/-- A held FINAL is committed for the consuming command that waits for it. -/
def finalCommitRow (c : Nat) (s : State) : State := if hingeListens s then commitStep c s else s

/-! ## RETRACT (R352 to R354) -/

def retractBody (p : HingePacket) (s0 : State) : State :=
  let s := rxCredit p s0
  let c := hdChain p.header
  let e := hdEpoch p.header
  let v := chainVi s c
  if plainBad p.header then countEvent 0x52 1 v s
  else if !(chainAt s c).valid then answer p typeNack 3 false e s
  else
    match meetIncarnation p s with
    | none => countEvent 0x53 1 v s
    | some s1 =>
      let d := chainAt s1 c
      let x := epochAt d e
      if epochStale d e || x.finalSent then s1
      else closeEpoch c e .retracted (if cdIsKeystone d.image then retractAll c e s1 else s1)

def hingeRetractRow (p : HingePacket) : State → State := arrive typeRetract p (retractBody p)

/-! ## NACK (R357 to R359, R339, R362) -/

/-- The PARTIALs of an epoch that are to be sent again once their receiver is ready. -/
def refuseSent (x : Epoch) : Epoch := { x with nacked := true, sent := x.sent.map (fun q => { q with refused := true }) }

/-- The first PARTIAL of an epoch that is not already waiting to be sent again. -/
def nextAhead (s : State) (c : Nat) (x : Epoch) : Option HingePacket :=
  (x.sent.find? (fun q => !s.hinge.resend.contains (c, q.packet))).map (fun q => q.packet)

def nackValid (p : HingePacket) (c : Nat) (v : Option ViId) (s : State) : State :=
  let d := chainAt s c
  let e := hdEpoch p.header
  let x := epochAt d e
  let r := hdReason p.header
  if cdIsKeystone d.image || epochStale d e || x.sent.isEmpty then countEvent 0x56 1 v s
  else if r = 4 then
    match nextAhead s c x with
    | some q => { s with hinge := { s.hinge with resend := s.hinge.resend ++ [(c, q)] } }
    | none => s
  else if cdRetry d.image then modEpoch s c e refuseSent
  else failEpoch c e .hingePeerLost s

/-- Whoever sends it, a NACK is held against the recorded incarnation (R356). With the descriptor gone, what it refuses can
only be counted (R330, R362). -/
def nackBody (p : HingePacket) (s0 : State) : State :=
  let s := rxCredit p s0
  let c := hdChain p.header
  let v := chainVi s c
  if plainBad p.header || decide (4 < hdReason p.header) then countEvent 0x52 1 v s
  else
    let s1 := countEvent 0x54 1 v s
    if !(chainAt s1 c).valid then countEvent 0x56 1 v s1
    else
      match meetIncarnation p s1 with
      | none => countEvent 0x53 1 v s1
      | some s2 => nackValid p c v s2

def hingeNackRow (p : HingePacket) : State → State := arrive typeNack p (nackBody p)

/-! ## PROBE (R359, R360) -/

/-- A packet with another receiver address. -/
def readdress (x : BitVec 512) (dst : Nat) : BitVec 512 := BitVec.ofNat 512 (x.toNat - place (field x 127 112) 112 + place dst 112)

/-- A PARTIAL goes out again, to the unit that the descriptor now names for its receiver. -/
def resendPartial (c : Nat) (q : SentPartial) (s : State) : State :=
  let d := chainAt s c
  let e := hopEntry d q.member
  hingeOut (entryTwin s e) d.owner ⟨readdress q.packet.header (entryAddr e), q.packet.payload⟩ s

/-- The refused PARTIALs to a member go out again. -/
def resendRefused (c m : Nat) (s : State) : State :=
  (chainAt s c).epochs.foldl (fun s x =>
    if x.isOver then s
    else
      let again := x.sent.filter (fun q => q.refused && decide (q.member = m))
      modEpoch (again.foldl (fun s q => resendPartial c q s) s) c x.number (fun y =>
        { y with sent := y.sent.map (fun q => if q.member = m then { q with refused := false } else q) })) s

def probeBody (p : HingePacket) (s0 : State) : State :=
  let s := rxCredit p s0
  let c := hdChain p.header
  let v := chainVi s c
  if plainBad p.header then countEvent 0x52 1 v s
  else if !(chainAt s c).valid then
    if hdReply p.header then s else answer p typeNack 3 false (hdEpoch p.header) s
  else
    match meetIncarnation p s with
    | none => countEvent 0x53 1 v s
    | some s1 =>
      let d := chainAt s1 c
      if !hdReply p.header then answer p typeProbe 0 true d.epoch s1
      else if epochLater (hdEpoch p.header) d.epoch then s1
      else resendRefused c (hdMember p.header) s1

def hingeProbeRow (p : HingePacket) : State → State := arrive typeProbe p (probeBody p)

/-! ## Timers -/

/-- The member that a chain sends to and whose PARTIALs stand refused. -/
def refusedMember (d : ChainDesc) : Option (W32 × Nat) :=
  (d.epochs.find? (fun x => !x.isOver && x.sent.any (fun q => q.refused))).bind (fun x =>
    (x.sent.find? (fun q => q.refused)).map (fun q => (x.number, q.member)))

/-- Every 5 µs under RETRY: the refused member's entry is read again and probed (R359). -/
def probeRetry (c : Nat) (s : State) : State :=
  let d := chainAt s c
  if !hingeListens s || !d.valid then s
  else
    match refusedMember d with
    | none => s
    | some (e, m) =>
      let entry := tableEntry s d m
      let s1 := setChain s c { d with hops := spPut d.hops m entry }
      sendPlain typeProbe 0 false c e entry s1

/-- 1 µs after EPOCH_AHEAD the PARTIAL goes out again (R339). -/
def aheadResend (c : Nat) (s : State) : State :=
  let mine := (s.hinge.resend.filter (fun q => decide (q.1 = c))).map (fun q => q.2)
  if !hingeListens s || mine.isEmpty then s
  else
    let s1 := { s with hinge := { s.hinge with resend := s.hinge.resend.filter (fun q => decide (q.1 ≠ c)) } }
    let d := chainAt s1 c
    if !d.valid then s1
    else mine.foldl (fun s q =>
      match (epochAt d (hdEpoch q.header)).sent.find? (fun x => decide (x.packet = q)) with
      | some x => resendPartial c x s
      | none => s) s1

/-- The chain timer of the current epoch reaches TIMEOUT (R361). -/
def chainTimeoutRow (c : Nat) (s : State) : State :=
  let d := chainAt s c
  let x := epochAt d d.epoch
  if !hingeListens s || !d.valid || !x.timer || x.isOver then s
  else failEpoch c d.epoch (if x.nacked then .hingePeerLost else .hingeTimeout) s

/-! ## Transmit credits (R336, R337) -/

/-- The waiting packets of a channel leave in order while credits last. -/
def drainWaiting (ch : Nat) : List HingePacket → State → State
  | [], s => s
  | p :: rest, s =>
    if packetChannel p = ch then
      let have_ := spGet 0 s.hinge.credits ch
      if have_ < packetFlits p then s
      else
        let s1 := { s with hinge := { s.hinge with credits := spSet 0 s.hinge.credits ch (have_ - packetFlits p),
                                                   waiting := s.hinge.waiting.erase p } }
        drainWaiting ch rest (countEvent 0x50 1 (chainVi s1 (hdChain p.header)) (emit s1 (.hngTx false (onWire p))))
    else drainWaiting ch rest s

/-- Each set bit returns one flit credit of its channel. -/
def txCredit (bits : BitVec 4) (s : State) : State :=
  (List.range 4).foldl (fun s ch =>
    if bit bits ch then
      let s1 := { s with hinge := { s.hinge with credits := spSet 0 s.hinge.credits ch (spGet 0 s.hinge.credits ch + 1) } }
      drainWaiting ch s1.hinge.waiting s1
    else s) s

/-! ## The commands -/

/-- HINGE_PARTIAL (R342). -/
def execHingePartial (p : HingePacket) (s : State) : Host.Outcome State Fault Refusal := command (hingePartialRow p) s
/-- HINGE_FINAL (R348). -/
def execHingeFinal (p : HingePacket) (s : State) : Host.Outcome State Fault Refusal := command (hingeFinalRow p) s
/-- FINAL_COMMIT (R348). -/
def execFinalCommit (chain : BitVec 10) (s : State) : Host.Outcome State Fault Refusal := command (finalCommitRow chain.toNat) s
/-- HINGE_RETRACT (R353). -/
def execHingeRetract (p : HingePacket) (s : State) : Host.Outcome State Fault Refusal := command (hingeRetractRow p) s
/-- HINGE_NACK (R358). -/
def execHingeNack (p : HingePacket) (s : State) : Host.Outcome State Fault Refusal := command (hingeNackRow p) s
/-- HINGE_PROBE (R360). -/
def execHingeProbe (p : HingePacket) (s : State) : Host.Outcome State Fault Refusal := command (hingeProbeRow p) s
/-- EPOCH_AHEAD_RESEND (R339). -/
def execEpochAheadResend (chain : BitVec 10) (s : State) : Host.Outcome State Fault Refusal := command (aheadResend chain.toNat) s
/-- PROBE_RETRY_TIMER (R359). -/
def execProbeRetryTimer (chain : BitVec 10) (s : State) : Host.Outcome State Fault Refusal := command (probeRetry chain.toNat) s
/-- CHAIN_TIMEOUT (R361). -/
def execChainTimeout (chain : BitVec 10) (s : State) : Host.Outcome State Fault Refusal := command (chainTimeoutRow chain.toNat) s
/-- HNG_TX_CREDIT (R337). -/
def execHngTxCredit (credits : BitVec 4) (s : State) : Host.Outcome State Fault Refusal := command (txCredit credits) s

end Sys2Proof.Machine
end

