-- ==== Sys2Proof/Machine/DrainEvents.lean ====
section
/-! DEFINITION. The drain port and the shift acknowledgements (R29 to R35, R276 to R280, R295 to R299, R627). -/

namespace Sys2Proof.Machine

/-! ## DRN_BEAT (R30 to R33) -/

/-- A beat arrives with a credit and joins the queue with its prescan (R32, R282). It wakes the unit (R598). While the unit
refuses, it accepts none. -/
def drainBeat (b : Beat) (s : State) : State :=
  wake { s with drain := { s.drain with queue := s.drain.queue ++ [prescan b], credits := s.drain.credits - 1 } }

/-- What comes of a beat: refused, a breach of R30, or taken. -/
def beatArrives (b : Beat) (s : State) : Host.Outcome State Fault Refusal :=
  if s.ctl.refuse then command (fun s => s) s
  else if s.drain.credits = 0 then .fault .beatWithoutCredit
  else command (drainBeat b) s

/-! ## SHF_ACK (R298, R299) -/

/-- Held beats of a command that wait for an acknowledgement of their own. -/
def raisingHeld (rc : RunCmd) : Nat := (rc.prog.heldBeats.filter (fun b => b.raising)).length

/-- The command whose beats wait for acknowledgements, running or suspended: one at most (R300). -/
def shiftCmd (s : State) : Option RunCmd := s.rings.cmds.find? (fun rc => decide (0 < raisingHeld rc))

/-- Whether the oldest request without an answer is one of that command's: its requests are the last. -/
def ackIsMine (s : State) (rc : RunCmd) : Bool :=
  decide (0 < raisingHeld rc) && decide (s.shift.requests.length ≤ raisingHeld rc)

/-- The oldest raising beat no longer waits. -/
def ackOldest : List HeldBeat → List HeldBeat
  | [] => []
  | b :: rest => if b.raising then { b with raising := false } :: rest else b :: ackOldest rest

/-- Status 0 for a command's oldest raising beat. What it held goes out now, or when the command resumes (R483). -/
def ackApplied (rc : RunCmd) (s : State) : State :=
  let held := ackOldest rc.prog.heldBeats
  if rc.phase = .running then
    let r := releaseHeld held rc s
    setCmd r.2 r.1
  else setCmd s { rc with prog := { rc.prog with heldBeats := held } }

/-- Status 1, or no answer: nothing is written for that beat or a later one, and the command ends ERROR_CONTAINED once
its remaining beats are taken. -/
def ackFailed (rc : RunCmd) (s : State) : State :=
  setCmd s { rc with prog := { rc.prog with heldBeats := [], ended := some .errorContained } }

/-- The oldest request is answered, or given up. -/
def shiftAnswered (ok : Bool) (s : State) : State :=
  match s.shift.requests with
  | [] => s
  | _ :: rest =>
    let s1 := { s with shift := { s.shift with requests := rest } }
    match shiftCmd s with
    | none => s1
    | some rc => if ackIsMine s rc then (if ok then ackApplied rc s1 else ackFailed rc s1) else s1

/-! ## SHIFT_QUEUE_SPACE (R627) -/

/-- The oldest queued request leaves the queue, and the beat that waits for a place is decided. -/
def queueSpace (s : State) : State :=
  let s1 := { s with shift := { s.shift with requests := shiftPlace s.shift.requests } }
  if s.shift.beatHeld && mayIssue s1 then
    match holderCmd s1 with
    | none => s1
    | some rc =>
      let r := nextVector softPass none rc s1
      setCmd r.2.2 r.2.1
  else s1

/-! ## The commands -/

/-- DRN_BEAT (R32). -/
def execDrnBeat (beat : Beat) (s : State) : Host.Outcome State Fault Refusal := beatArrives beat s
/-- SHF_ACK (R299): status 0 applied, 1 discarded. -/
def execShfAck (status : Bool) (s : State) : Host.Outcome State Fault Refusal := command (shiftAnswered (!status)) s
/-- SHIFT_ACK_TIMEOUT (R299). -/
def execShiftAckTimeout (s : State) : Host.Outcome State Fault Refusal := command (shiftAnswered false) s
/-- SHIFT_QUEUE_SPACE (R627). -/
def execShiftQueueSpace (s : State) : Host.Outcome State Fault Refusal := command queueSpace s

end Sys2Proof.Machine
end

