-- ==== Sys2Proof/Machine/RingEvents.lean ====
section
/-! DEFINITION. What a register access reaches (R40 to R42, R631 to R637, R646), doorbells and ring actions (R465 to
R474), the command processor's events: arbitration, the quantum, and the returns of its reads (R475 to R480, R548). -/

namespace Sys2Proof.Machine

/-! ## Reaching a register -/

/-- Whether registers answer: not while the unit is under test, nor from its first wipe on (R48, R578). -/
def mgmtAnswers (s : State) : Bool := decide (s.ctl.test = .closed)

/-- Whether the unit itself answers at VI pages: not while it is reset or off (R556). -/
def pageAnswers (s : State) : Bool :=
  mgmtAnswers s && (decide (s.ctl.state = .active) || decide (s.ctl.state = .fenced))

/-- A management write without effect (R637), or a VI-page write without effect. -/
def portIgnored (port : RegPort) (s : State) : State :=
  match port with
  | .mgmt => mgIgnored s
  | .window => mgIgnored s
  | .foreign _ => s
  | .page _ v _ _ => regIgnored v s

/-- The VI whose page an access reaches: none when it is discarded, with the count of R41 where it is a mismatch. The
covered tile's pages are served while the unit covers it (R575). -/
def reachPage (port : RegPort) (s : State) : Option ViId × State :=
  match port with
  | .mgmt => (none, s)
  | .window => if mgmtAnswers s then (some s.cfg.viSel, wake s) else (none, s)
  | .foreign _ => if pageAnswers s then (none, countEvent 0x62 1 none (wake s)) else (none, s)
  | .page covered v requester _ =>
    if !pageAnswers s || covered && !s.twin.covering then (none, s)
    else if requester ≠ v then (none, countEvent 0x62 1 (some v) (wake s))
    else (some v, wake s)

/-- Whether an access is to a covered ring's page. -/
def portCovered : RegPort → Bool
  | .page covered _ _ _ => covered
  | _ => false

/-- Byte enables that are not all set (R636). -/
def partBytes : RegPort → Bool
  | .page _ _ _ be => decide (be ≠ 0xFF)
  | _ => false

/-- A write to a VI page: `body` on its VI, after R40, R41 and R636. -/
def pageWrite (port : RegPort) (body : ViId → State → State) (s : State) : State :=
  match reachPage port s with
  | (none, s1) => s1
  | (some v, s1) => if partBytes port then portIgnored port s1 else body v s1

/-- A management register write: `body`, and a wake (R598). -/
def mgmtWrite (body : State → State) (s : State) : State := if mgmtAnswers s then body (wake s) else s

/-! ## Doorbells and ring actions -/

/-- Writes to VI_DOORBELL and VI_RING_CTRL through the window have no effect (R646); so do those that the fabric proxy
answers, for a unit that is not ACTIVE (R556) or a secondary (R564). -/
def steerWrite (port : RegPort) (body : ViId → State → State) (s : State) : State :=
  match port with
  | .page _ _ _ _ =>
    pageWrite port (fun v s => if decide (s.ctl.state = .active) && !isSecondary s then body v s else s) s
  | .window => if mgmtAnswers s then mgIgnored (wake s) else s
  | .foreign _ => (reachPage port s).2
  | .mgmt => s

/-- A doorbell (R471, R472); replay holds it until its recorded boundary (R522). -/
def doorbell (port : RegPort) (data : W64) (v : ViId) (s : State) : State :=
  match ringByIndex s (portCovered port) v (field data 17 0) with
  | none => countEvent 0x61 1 (some v) s
  | some ring =>
    let a : PageAction := ⟨v, ring, .doorbell (BitVec.ofNat 32 (field data 63 32))⟩
    if s.det.replayActive then { s with det := { s.det with heldDoorbells := s.det.heldDoorbells ++ [a] } }
    else requestAction a s

/-- A ring action of VI_RING_CTRL (R468): RING takes the index, RESULT the outcome. -/
def ringControl (port : RegPort) (index : BitVec 18) (action : ViCfg → RingAction) (v : ViId) (s0 : State) : State :=
  let s := setCfgVi s0 v { cfgVi s0 v with ctrlRing := index }
  match ringByIndex s (portCovered port) v index.toNat with
  | none =>
    let s1 := setResult v 2 s
    match action (cfgVi s v) with
    | .create _ => regIgnored v s1
    | _ => s1
  | some ring =>
    let a : PageAction := ⟨v, ring, action (cfgVi s v)⟩
    let s1 := requestAction a s
    if s1.rings.actions.contains a then setResult v 1 s1 else s1

def doorbellRow (port : RegPort) (data : W64) : State → State := steerWrite port (doorbell port data)
def actionRow (port : RegPort) (index : BitVec 18) (action : ViCfg → RingAction) : State → State :=
  steerWrite port (ringControl port index action)

/-- VI_TUMBLER_INVAL: every cached word of the VI is invalid (R167). -/
def tumblerInval (data : W64) (v : ViId) (s : State) : State :=
  if bit data 0 then { s with rings := { s.rings with tumblers := s.rings.tumblers.filter (fun t => decide (t.vi ≠ v)) } }
  else s

def tumblerInvalRow (port : RegPort) (data : W64) : State → State := pageWrite port (tumblerInval data)

/-! ## The command processor -/

/-- Arbitration, after a hardware error met there. -/
def arbitrateRow (error : Option HwError) (s : State) : State :=
  arbitrateStep (match error with
    | none => s
    | some e => applyError e s)

/-- The quantum that a turn may last has passed; whether another ring of the class is eligible is seen at the boundary
(R479, turnHolds). -/
def quantumRow (s : State) : State :=
  match s.rings.turn with
  | none => s
  | some t =>
    if s.rings.holder = some t.ring then { s with rings := { s.rings with turn := some { t with expired := true } } } else s

/-- A context read that the memory answers with an error: the ring stays DISABLED, as for a poisoned context. -/
def contextRefused (ring : Nat) (s : State) : State :=
  if s.rings.reads.contains ring then
    let s1 := promoteReads { s with rings := { s.rings with reads := s.rings.reads.filter (fun r => decide (r ≠ ring)) } }
    let vi := ctxOwner (memCtx s ring)
    let s2 := makeRoom (logError ⟨clChip, 13, ckBoundary, 0, some (ring, 0, vi)⟩ s1).2
    processActions { s2 with rings := { s2.rings with
      cache := ⟨ring, { memCtx s2 ring with state := .disabled }, false⟩ :: s2.rings.cache } }
  else s

def contextReturnRow (ring : Nat) (error : Option HwError) (s : State) : State :=
  match error with
  | none => contextReturn ring s
  | some .memoryResponse => contextRefused ring s
  | some e => applyError e (contextReturn ring s)

/-- A fetch returns: an error answer to it is met by the command that it was for (R537), any other error first. -/
def fetchReturn (body : Bool → State → State) (error : Option HwError) (s : State) : State :=
  match error with
  | none => body false s
  | some .memoryResponse => body true s
  | some e => body false (applyError e s)

/-! ## The commands -/

/-- VI_DOORBELL (R472). -/
def execViDoorbell (port : RegPort) (data : W64) (s : State) : Host.Outcome State Fault Refusal := command (doorbellRow port data) s
/-- CREATE (R466). -/
def execCreate (port : RegPort) (ring : BitVec 18) (s : State) : Host.Outcome State Fault Refusal :=
  register (actionRow port ring (fun c => .create c.ringCfg)) s
/-- RESUME (R474). -/
def execResume (port : RegPort) (ring : BitVec 18) (s : State) : Host.Outcome State Fault Refusal :=
  register (actionRow port ring (fun _ => .resume)) s
/-- PAUSE (R469). -/
def execPause (port : RegPort) (ring : BitVec 18) (s : State) : Host.Outcome State Fault Refusal :=
  register (actionRow port ring (fun _ => .pause)) s
/-- DESTROY (R469). -/
def execDestroy (port : RegPort) (ring : BitVec 18) (s : State) : Host.Outcome State Fault Refusal :=
  register (actionRow port ring (fun _ => .destroy)) s
/-- VI_TUMBLER_INVAL (R167). -/
def execViTumblerInval (port : RegPort) (data : W64) (s : State) : Host.Outcome State Fault Refusal := command (tumblerInvalRow port data) s
/-- ARBITRATE (R478). -/
def execArbitrate (error : Option HwError) (s : State) : Host.Outcome State Fault Refusal := command (arbitrateRow error) s
/-- QUANTUM_EXPIRY (R479). -/
def execQuantumExpiry (s : State) : Host.Outcome State Fault Refusal := command quantumRow s
/-- CONTEXT_READ_RETURN (R475). -/
def execContextReadReturn (ring : Nat) (error : Option HwError) (s : State) : Host.Outcome State Fault Refusal :=
  command (contextReturnRow ring error) s
/-- COMMAND_FETCH_RETURN (R477). -/
def execCommandFetchReturn (read : RingRead) (s : State) : Host.Outcome State Fault Refusal :=
  command (fetchReturn (commandFetchReturn read.ring) read.error) s
/-- TUMBLER_FETCH_RETURN (R163). -/
def execTumblerFetchReturn (vi : ViId) (read : WordRead) (s : State) : Host.Outcome State Fault Refusal :=
  command (fetchReturn (tumblerReturn vi read.address) read.error) s

end Sys2Proof.Machine
end

