-- ==== Sys2Proof/Machine/Recovery.lean ====
section
/-! DEFINITION. Stopping, the flush (R554, R555), unit reset (R559 to R561, R617, R618), and the phases of power-down and
power-up that they share (R604 to R611). -/

namespace Sys2Proof.Machine

/-! ## Drain credits (R33) -/

/-- When the unit stops, the beats left in the queue are discarded and their credits held back. -/
def discardBeats (s : State) : State :=
  { s with drain := { s.drain with queue := [], withheld := s.drain.withheld + s.drain.queue.length } }

/-- Every held credit returns. -/
def returnCredits (s : State) : State :=
  if s.drain.withheld = 0 then s
  else emit { s with drain := { s.drain with credits := s.drain.credits + s.drain.withheld, withheld := 0 } }
    (.drnCredit s.drain.withheld)

/-! ## Which rings there are -/

/-- The rings of a context region with anything in memory. -/
def ringsInMemory (s : State) (covered : Bool) : List Nat :=
  let first := if covered then Config.ringCount else 0
  let base := ctxAddr s first
  ((s.dev.cells.filter (fun c => decide (base ≤ c.1) && decide (c.1 < base + 2 ^ 24))).map
    (fun c => first + (c.1 - base) / 64)).foldl setInsert []

/-- The rings that a flush deals with: all, or the covered ones. -/
def flushRings (coveredOnly : Bool) (s : State) : List Nat :=
  ((ringsInMemory s false ++ (if s.twin.covering then ringsInMemory s true else []) ++ s.rings.cache.map (fun e => e.ring)).foldl
    setInsert []).filter (fun r => !coveredOnly || isCovered r)

/-- The state of a ring, cached or not: a context in memory that a load would take for HALTED stands for a HALTED ring (R561). -/
def standingState (s : State) (ring : Nat) : RingState :=
  match cacheEntry s ring with
  | some e => e.ctx.state
  | none =>
    let st := (memCtx s ring).state
    if st.carriesWork && (underLost s ring || (decide (st = .running) || decide (st = .blocked)) && (cmdOf s ring).isNone) then .halted
    else st

/-! ## The flush (R555) -/

/-- RETRACT for each epoch with an unsettled contribution that a flushed command contributed to or waits for. -/
def retractFlushed (rc : RunCmd) (s : State) : State :=
  let c := pkChainId rc.packet
  let d := chainAt s c
  if pkChv rc.packet && d.valid && decide (d.owner = rc.vi) then
    (d.epochs.filter (fun x => unsettledOwn d x && (x.own.any (fun o => o.2.isOf rc) || decide (x.consumer = some rc.ring)))).foldl
      (fun s x => failEpoch c x.number .retracted s) s
  else s

/-- Steps 1 to 3: an aborted or BLOCKED command completes ERROR_CONTAINED; a SUSPENDED one too, unless it is handed
over, be its command in its save area only. -/
def flushCmd (handover : Bool) (ring : Nat) (s : State) : State :=
  match cmdOf s ring with
  | none =>
    let c := ctxOfRing s ring
    if c.state = .suspended ∧ !handover ∧ !underLost s ring then
      let r := suspendedCmd s ring c
      failCmdUnlogged r.1 (setCmd r.2 r.1)
    else s
  | some c =>
    if c.phase = .suspended ∧ handover then s
    else
      let s1 := match s.tabs.job with
        | some j => if j.ring = ring then { s with tabs := { s.tabs with shadowValid := false } } else s
        | none => s
      failCmdUnlogged c (retractFlushed c (leaveLoader ring s1))

/-- Step 4: every other ring with unstarted commands is HALTED. -/
def flushHalt (ring : Nat) (s : State) : State :=
  let c := ctxOfRing s ring
  if c.state = .disabled ∨ c.state = .suspended ∨ c.state = .halted ∨ c.head = c.tail then s else setRingState s ring .halted

/-- Step 5: a ring's registers and its changed context. -/
def flushBack (ring : Nat) (s : State) : State :=
  let s1 := if s.rings.resident.contains ring then saveRegs ring s else s
  match cacheEntry s1 ring with
  | some e => writeBackCtx e s1
  | none => s1

/-- One VI's entry of the cover record (R571). -/
def coverEntry (s : State) (v : Nat) : List Byte :=
  let c := spGet ViCfg.reset s.cfg.vi v
  natBytes 8 (c.ringBase.toNat + place c.ringCount.toNat 18 + place c.minClass.toNat 37)
    ++ natBytes 8 (place c.digestBase.toNat 6) ++ natBytes 8 (viModeBits c.mode).toNat ++ natBytes 8 0

/-- Step 6: the cover record. -/
def writeCoverRecord (s : State) : State :=
  devWrite s (ctxAddr s 0 + 2 ^ 24) ((List.range 1024).flatMap (coverEntry s))

/-- Context reads under way return first, so that the actions that wait for them are applied. -/
def finishReads (s : State) : State :=
  let rs := s.rings.reads ++ s.rings.wanted
  rs.foldl (fun s r => contextReturn r s) { s with rings := { s.rings with reads := rs, wanted := [] } }

/-- The steps of a flush in order. -/
def flushSteps (handover coveredOnly : Bool) (s : State) : List (State → State) :=
  let rs := flushRings coveredOnly s
  rs.map (flushCmd handover) ++ rs.map flushHalt ++ rs.map flushBack ++ (if handover then [writeCoverRecord] else [])

/-- Rings leave the unit. -/
def dropRings (gone : Nat → Bool) (s : State) : State :=
  let r := s.rings
  { s with rings := { r with
      cache := r.cache.filter (fun e => !gone e.ring), cmds := r.cmds.filter (fun c => !gone c.ring),
      fetches := r.fetches.filter (fun x => !gone x), fetched := r.fetched.filter (fun f => !gone f.ring),
      actions := r.actions.filter (fun a => !gone a.ring), deferred := r.deferred.filter (fun d => !gone d.1),
      regs := r.regs.filter (fun x => !gone x.1), resident := r.resident.filter (fun x => !gone x),
      regsChanged := r.regsChanged.filter (fun x => !gone x),
      chosen := r.chosen.filter (fun c => !gone c.ring), turn := r.turn.filter (fun t => !gone t.ring) } }

/-- A flush that ends, or one that hangs after some of its steps (R553); how many is open (log entry 1). -/
def runFlush (handover coveredOnly ends : Bool) (s0 : State) : State :=
  let s := finishReads s0
  let steps := flushSteps handover coveredOnly s
  if ends then dropRings (fun r => !coveredOnly || isCovered r) (steps.foldl (fun s f => f s) s)
  else
    let t := takeFree s
    (steps.take (Config.flushProgress t.1)).foldl (fun s f => f s) t.2

/-! ## Power-down (R604 to R609) -/

/-- The rail is given up. -/
def railOff (s : State) : State :=
  emit { s with ctl := { s.ctl with state := .off, stop := none, flushing := false, refuse := true },
                pwr := { s.pwr with state := .railOff, railReq := false } } (.railRequest false)

/-- An ON request ended the power-down: the unit goes on, with DRN_REFUSE only while it is fenced (R607). -/
def resumePower (s : State) : State :=
  let s1 := { s with
    pwr := { s.pwr with state := .active, pending := 0 }
    ctl := { s.ctl with stop := if s.ctl.state = .active ∧ s.ctl.fence then some .fence else none, flushing := false,
                        flushed := s.ctl.flushed && s.ctl.fence,
                        refuse := decide (s.ctl.state ≠ .active) || s.ctl.fence } }
  if s1.ctl.refuse then s1 else returnCredits s1

/-- QUIESCE begins (R606, R610). -/
def beginQuiesce (s : State) : State :=
  fullSlots { s with
    ctl := { s.ctl with stop := some .powerDown, refuse := true }
    pwr := { s.pwr with state := .quiesce, pending := 0, downAfterExit := false } }

/-- Power-up begins (R605). -/
def beginPowerUp (s : State) : State :=
  emit { s with pwr := { s.pwr with state := .powerUp, pending := 0, railReq := true, railAck := false } }
    (.railRequest true)

/-- A pending request applies at FENCED: ON has nothing to do there. -/
def applyPending (s : State) : State :=
  if s.pwr.pending = 2 then beginQuiesce s else { s with pwr := { s.pwr with pending := 0 } }

/-! ## Stopping (R554, R575, R606) -/

/-- Whether the unit stands where a stop takes effect. -/
def stopReady (r : StopReason) (s : State) : Bool :=
  atBoundary s || decide (r = .coverRelease) && (match s.rings.holder with | some x => !isCovered x | none => true)

/-- The running command, at a segment boundary, is suspended. -/
def stopHolder (r : StopReason) (s : State) : State :=
  match holderCmd s with
  | some rc => if r = .coverRelease ∧ isCovered rc.ring = false then s else suspendRing rc s
  | none => s

/-- What the end of the flush leaves for each reason. -/
def flushDone (r : StopReason) (s : State) : State :=
  let released (s : State) : State :=
    { s with twin := { s.twin with covering := false, releasing := false, vis := [] } }
  let s1 := { s with ctl := { s.ctl with flushing := false, stop := none } }
  match r with
  | .coverRelease => released s1
  | .fence =>
    let s2 := { s1 with ctl := { s1.ctl with flushed := true } }
    if s2.twin.releasing then released s2 else s2
  | .powerDown =>
    let s2 := { s1 with ctl := { s1.ctl with flushed := true } }
    if s2.pwr.pending = 1 then resumePower s2 else railOff s2

/-- Which suspended commands a flush keeps. -/
def keepsCommands (r : StopReason) (s : State) : Bool :=
  match r with
  | .fence => s.ctl.handover
  | .powerDown => false
  | .coverRelease => true

/-- The flush, to its end or not. -/
def flushFor (r : StopReason) (ends : Bool) (s : State) : State :=
  let s1 := runFlush (keepsCommands r s) (decide (r = .coverRelease)) ends s
  if ends then flushDone r s1 else s1

/-- The unit stops and flushes. An ON request pending at the end of QUIESCE ends the power-down there (R607). -/
def unitStop (ends : Bool) (s : State) : State :=
  match s.ctl.stop with
  | none => s
  | some r =>
    if s.ctl.flushing then (if ends then flushFor r true s else s)
    else if !stopReady r s then s
    else
      let s1 := stopHolder r s
      match r with
      | .powerDown =>
        if s1.pwr.pending = 1 then resumePower s1
        else flushFor r ends (discardBeats { s1 with
          ctl := { s1.ctl with flushing := true }
          pwr := { s1.pwr with state := .checkpoint } })
      | .fence => flushFor r ends (discardBeats { s1 with ctl := { s1.ctl with flushing := true, state := .fenced } })
      | .coverRelease => flushFor r ends { s1 with ctl := { s1.ctl with flushing := true } }

/-- 1 µs after the stop was asked for, a command that still runs is stopped where it stands and left to the flush
(R554). -/
def stopAbort (s : State) : State :=
  match s.ctl.stop with
  | none => s
  | some r =>
    if s.ctl.flushing || stopReady r s then s else { s with rings := { s.rings with holder := none } }

/-- 20 µs after the stop: WEDGED (R553). A power-down goes on to RAIL_OFF, or to ACTIVE on a pending request. -/
def flushTimeout (s : State) : State :=
  if s.ctl.flushing then
    let s1 := { s with ctl := { s.ctl with flushing := false, wedged := true, stop := none } }
    match s.ctl.stop with
    | some .powerDown => if s1.pwr.pending = 1 then resumePower s1 else railOff s1
    | _ => s1
  else s

/-! ## Unit reset (R560, R561, R670) -/

/-- What a reset keeps of a VI's page: VI_RINGS, LIMIT of VI_QUOTA, VI_MODE. -/
def resetViCfg (c : ViCfg) : ViCfg :=
  { ViCfg.reset with mode := c.mode, quotaLimit := c.quotaLimit, ringBase := c.ringBase, ringCount := c.ringCount,
                     minClass := c.minClass }

/-- A reset keeps every register field that management wrote, but for FREEZE. -/
def resetCfg (c : Cfg) : Cfg :=
  { c with freeze := false, vi := (c.vi.map (fun x => (x.1, resetViCfg x.2))).filter (fun x => decide (x.2 ≠ ViCfg.reset)) }

/-- The state that every reset leaves, in RESETTING, with MG_INCARNATION as it stands. -/
def resetState (s : State) : State :=
  let ringsLost := !s.ctl.flushed
  let det : Det := { State.reset.det with
    replay := s.det.replay, trace := s.det.trace, trm := s.det.trm,
    changePending := s.det.replay || s.det.trace || s.det.trm }
  { State.reset with
    pending := s.pending, free := s.free, out := s.out, readData := s.readData, tclk := s.tclk, log := s.log,
    dev := s.dev, tile := s.tile, twinTile := s.twinTile, pins := s.pins, cfg := resetCfg s.cfg, det := det
    ctl := { State.reset.ctl with
      state := .resetting, chipDebug := s.ctl.chipDebug, ringsLost := ringsLost, handover := s.ctl.handover,
      incarnation := s.ctl.incarnation }
    twin := { State.reset.twin with mode := s.twin.mode, primary := s.twin.primary, clean := s.twin.clean }
    pwr := { State.reset.pwr with
      pending := s.pwr.pending, point := s.cfg.ceil, droop := s.pwr.droop, throttle := s.pwr.throttle,
      railReq := s.pwr.railReq, railAck := s.pwr.railAck, thm := s.pwr.thm }
    mg := { State.reset.mg with fuses := s.mg.fuses, laneRepair := s.mg.laneRepair, unitAddress := s.mg.unitAddress }
    -- a command handed over resumes on the bank that is active then (R215; DESIGN CHOICE, log entry 37)
    rings := { Rings.reset with savedRegs := s.rings.savedRegs,
                                savedCmds := s.rings.savedCmds.map (fun x => (x.1, { x.2 with bank := none })) } }

/-- Whether a reset can start: the unit has power and is in no reset already (R559, R605, R618). -/
def mayReset (s : State) : Bool :=
  mgmtAnswers s && decide (s.ctl.state ≠ .resetting) && decide (s.ctl.state ≠ .off)

/-- A unit reset: MG_INCARNATION rises by 1. -/
def resetUnit (s : State) : State :=
  if mayReset s then
    let r := resetState s
    { r with ctl := { r.ctl with incarnation := s.ctl.incarnation + 1 } }
  else s

/-- The flit credits of the receive channels are granted (R336). -/
def grantReceive (s : State) : State :=
  HingePort.reset.granted.foldl (fun s g => emit s (.hngRxCredit g.1 g.2)) { s with hinge := { s.hinge with granted := HingePort.reset.granted } }

/-- The reset sequence ends with the phase lock-in, from which TCLK counts, and the unit is FENCED (R507, R511). -/
def resetEnd (s : State) : State :=
  if s.ctl.state = .resetting then applyPending (grantReceive { s with ctl := { s.ctl with state := .fenced }, tclk := 0 }) else s

/-- RST_N low for at least 4 mclk (R617). -/
def rstPin (lowMclk : Nat) (s : State) : State := if 4 ≤ lowMclk then resetUnit s else s

/-! ## MG_FENCE (R553, R554, R557, R559) -/

/-- FENCE 1. -/
def fenceSet (handover : Bool) (s : State) : State :=
  let s1 := { s with ctl := { s.ctl with handover := handover } }
  if s.ctl.state = .active ∧ !s.ctl.fence then
    { s1 with ctl := { s1.ctl with fence := true, refuse := true, flushed := false, resetSinceFence := false,
                                   stop := if s1.ctl.stop = some .powerDown then s1.ctl.stop else some .fence } }
  else { s1 with ctl := { s1.ctl with fence := true } }

/-- After an unfence, contexts that hold work come back by themselves. -/
def readWork (covered : Bool) (s : State) : State :=
  ((ringsInMemory s covered).filter (fun r => (memCtx s r).state.carriesWork && (cacheEntry s r).isNone)).foldl
    (fun s r => startCtxRead r s) s

/-- FENCE 0: back to ACTIVE when flushed, or reset since the fence; else ignored and counted. -/
def fenceClear (handover : Bool) (s : State) : State :=
  if !s.ctl.fence then { s with ctl := { s.ctl with handover := handover } }
  else if s.ctl.wedged || decide (s.ctl.state ≠ .fenced) || !(s.ctl.flushed || s.ctl.resetSinceFence) then mgIgnored s
  else
    let s1 := { s with ctl := { s.ctl with handover := handover, fence := false, state := .active, flushed := false } }
    readWork false (if s.pwr.state = .active then returnCredits { s1 with ctl := { s1.ctl with refuse := false } } else s1)

/-! ## The commands -/

/-- MG_FENCE_SET (R554). -/
def execMgFenceSet (handover : Bool) (s : State) : Host.Outcome State Fault Refusal := command (mgmtWrite (fenceSet handover)) s
/-- MG_FENCE_CLEAR (R557). -/
def execMgFenceClear (handover : Bool) (s : State) : Host.Outcome State Fault Refusal := command (mgmtWrite (fenceClear handover)) s
/-- MG_FENCE_RESET (R559): FENCE of the same write is 1 after the reset whatever it says; HANDOVER is kept. -/
def execMgFenceReset (_fence handover : Bool) (s : State) : Host.Outcome State Fault Refusal :=
  register (mgmtWrite (fun s => resetUnit { s with ctl := { s.ctl with handover := handover } })) s
/-- UNIT_STOP (R555). -/
def execUnitStop (flushEnds : Bool) (s : State) : Host.Outcome State Fault Refusal := command (unitStop flushEnds) s
/-- STOP_ABORT_TIMEOUT (R554). -/
def execStopAbortTimeout (s : State) : Host.Outcome State Fault Refusal := command stopAbort s
/-- FLUSH_TIMEOUT (R553). -/
def execFlushTimeout (s : State) : Host.Outcome State Fault Refusal := command flushTimeout s
/-- RST_N (R617). -/
def execRstN (lowMclk : Nat) (s : State) : Host.Outcome State Fault Refusal := register (rstPin lowMclk) s
/-- RESET_SEQUENCE_END (R559). -/
def execResetSequenceEnd (s : State) : Host.Outcome State Fault Refusal := command resetEnd s

end Sys2Proof.Machine
end

