-- ==== Sys2Proof/Machine/TwinEvents.lean ====
section
/-! DEFINITION. The twin: lockstep (R562 to R569), cover (R570 to R575); debug halt (R168, R576); test access (R48, R578);
the watchdog (R558); the scrubber (R537 to R539). -/

namespace Sys2Proof.Machine

/-! ## MG_TWIN_MODE -/

/-- The fields of the write; TWIN_LOST stands. -/
def twinFields (mode : TwinMode) (primary clean : Bool) (s : State) : State :=
  { s with twin := { s.twin with mode := mode, primary := primary, clean := clean } }

/-- Leaving COVER: the covered rings stop at their next boundary and are flushed (R575). -/
def releaseCover (s : State) : State :=
  if s.twin.covering ∧ !s.twin.releasing then
    { s with twin := { s.twin with releasing := true },
             ctl := { s.ctl with stop := if s.ctl.stop = none then some .coverRelease else s.ctl.stop } }
  else s

/-- LOCKSTEP (R564). -/
def setLockstep (primary clean : Bool) (s : State) : State :=
  let s1 := twinFields .lockstep primary clean (releaseCover s)
  { s1 with shown := [], twin := { s1.twin with signature := 0 } }

/-- One VI's entry of the cover record (R571). -/
def readCoverEntry (s : State) (v : Nat) : CoverVi :=
  let a := ctxAddr s Config.ringCount + 2 ^ 24 + 32 * v
  ⟨BitVec.ofNat 64 (readNat s .device a 8), BitVec.ofNat 64 (readNat s .device (a + 8) 8),
   BitVec.ofNat 64 (readNat s .device (a + 16) 8)⟩

/-- COVER: COVERING, the cover record, and the scan of the covered contexts, which brings in those that hold work
(R571). -/
def setCover (clean : Bool) (s : State) : State :=
  let s1 := twinFields .cover s.twin.primary clean s
  if s.twin.covering then s1
  else
    let vis := ((List.range 1024).map (fun v => (v, readCoverEntry s1 v))).filter (fun x => decide (x.2 ≠ ⟨0, 0, 0⟩))
    readWork true { s1 with twin := { s1.twin with covering := true, releasing := false, vis := vis } }

/-- INDEPENDENT. -/
def setIndependent (s : State) : State := releaseCover (twinFields .independent s.twin.primary s.twin.clean s)

/-! ## The heartbeat and the signatures -/

/-- TWN_ALIVE has not toggled for 1 µs (R47, R563); in LOCKSTEP the primary stops fetching and its running command ends
(R569). -/
def twinLost (s : State) : State :=
  if s.ctl.state = .off ∨ s.twin.lost then s
  else
    let s1 := { s with twin := { s.twin with lost := true } }
    let e : ErrArgs := ⟨clChip, 12, ckBoundary, 0, none⟩
    if s.twin.mode = .lockstep ∧ s.twin.primary then failHolder e s1 else (logError e s1).2

/-- A signature of the twin (R568): on a mismatch the running command ends, whichever twin this is; a secondary writes no completion
of it (R565). -/
def twinSignature (x : W64) (s : State) : State :=
  if s.twin.mode ≠ .lockstep ∨ x = s.twin.signature then s
  else failHolder ⟨clContained, 12, ckCompare, 0, ringArgs (holderCmd s)⟩ (countEvent 0xCB 1 none s)

/-! ## Debug halt (R576, R168) -/

/-- Debug halt, entered in the chip's debug state at a command boundary: at once when no command is in the chain. -/
def debugHalt (chipDebug halt : Bool) (s : State) : State :=
  let want := halt && chipDebug
  let free := match holderCmd s with
    | some rc => !rc.prog.checked
    | none => true
  { s with ctl := { s.ctl with chipDebug := chipDebug, dbgHalt := want && (s.ctl.dbgHalt || free),
                               dbgHaltReq := want && !(s.ctl.dbgHalt || free) } }

/-- A tumbler word with one stage's field replaced. -/
def setStage (t : BitVec 512) (stage : Nat) (x : W64) : BitVec 512 :=
  BitVec.ofNat 512 (t.toNat - place (field t (64 * stage + 63) (64 * stage)) (64 * stage) + place x.toNat (64 * stage))

/-- A write to the active tumbler: in debug halt it takes effect and taints the running command (R653). -/
def debugTumbler (stage : Nat) (x : W64) (s : State) : State :=
  if s.ctl.dbgHalt then
    match holderCmd s with
    | some rc => setCmd s { rc with tumbler := setStage rc.tumbler stage x, tainted := true }
    | none => s
  else mgIgnored s

/-! ## Test access (R48, R578) -/

/-- Everything the unit holds is at its reset value but MG_INCARNATION; memories (and the save areas in tile SRAM), pins, the
fuses and the queue lie outside it. -/
def wiped (s : State) : State :=
  { State.reset with
    pending := s.pending, free := s.free, out := s.out, dev := s.dev, tile := s.tile, twinTile := s.twinTile
    ctl := { State.reset.ctl with state := .off, chipDebug := s.ctl.chipDebug, incarnation := s.ctl.incarnation }
    pwr := { State.reset.pwr with
      state := .off, droop := s.pwr.droop, throttle := s.pwr.throttle, railReq := s.pwr.railReq,
      railAck := s.pwr.railAck, thm := s.pwr.thm }
    pins := s.pins, mg := { State.reset.mg with fuses := s.mg.fuses, unitAddress := s.mg.unitAddress }
    rings := { Rings.reset with savedRegs := s.rings.savedRegs, savedCmds := s.rings.savedCmds } }

/-- Test entry: the wipe, and MGT_STATE OFF. -/
def testRequest (s : State) : State :=
  if s.ctl.test = .closed then
    let w := wiped s
    { w with ctl := { w.ctl with test := .wiping } }
  else s

/-- The wipe is done: TST_OPEN, and TST_SCAN shifts out what the spec leaves open (R49). -/
def testWiped (s : State) : State :=
  if s.ctl.test = .wiping then
    let t := takeFree s
    let x := Config.scanOut t.1
    emit (emit { t.2 with ctl := { s.ctl with test := .opened }, pins := { s.pins with tstScan := x } } (.testOpen true)) (.testScan x)
  else s

/-- TST_OPEN falls, and TST_SCAN reads as zero from then on (R49). -/
def testClose (s : State) : State :=
  emit (emit { s with ctl := { s.ctl with test := .closed }, pins := { s.pins with tstScan := 0 } } (.testOpen false)) (.testScan 0)

/-- The rail is removed without a checkpoint (R596): everything is lost but what the always-on domain holds. -/
def powerLost (s : State) : State :=
  let w := wiped s
  { w with ctl := { w.ctl with test := .closed }, pins := { w.pins with tstScan := 0 },
           pwr := { w.pwr with railReq := false, railAck := false } }

/-! ## The watchdog (R558) -/

/-- WDOG_MS without progress while some ring of the unit, its context cached or in memory, is READY, RUNNING or SUSPENDED: SUSPECT,
its line, and an entry (of class CONTAINED; DEDUCED, log entry 24). -/
def watchdog (s : State) : State :=
  let busy := (flushRings false s).any (fun r =>
    decide (standingState s r = .ready) || decide (standingState s r = .running) || decide (standingState s r = .suspended))
  if decide (s.cfg.wdogMs ≠ 0) && busy && decide (s.ctl.state = .active) && !s.ctl.dbgHalt then
    let s1 := (logError ⟨clContained, 11, ckWatchdog, 0, ringArgs (holderCmd s)⟩ s).2
    emit { s1 with ctl := { s1.ctl with suspect := true } } (.mgtIrq 3)
  else s

/-! ## The scrubber (R537 to R539) -/

/-- An uncorrectable word of a row slot: POISON, or the whole slot zero when it lies in bytes 0 to 15. -/
def slotWordLost (h word : Nat) (s : State) : State :=
  if word < 2 then putSlot s h Slot.zero else modSlot s h (fun x => { x with poison := true })

/-- An uncorrectable word of a table bank: the bank is bad; a bad shadow is invalid. -/
def bankLost (b : Nat) (s : State) : State :=
  { s with tabs := { s.tabs with bad := setInsert s.tabs.bad b,
                                 shadowValid := s.tabs.shadowValid && decide (b ≠ s.tabs.shadow) } }

/-- Whether the row store or the table store has such a word. -/
def wordExists : ScrubWord → Bool
  | .rowStore h _ => decide (h < Config.rowSlots)
  | .tableStore _ e => decide (e < bankEntries)

def scrubRow (w : ScrubWord) (found : ScrubResult) (s : State) : State :=
  if s.ctl.state = .off ∨ wordExists w = false then s
  else
    match found, w with
    | .clean, _ => s
    | .single, .rowStore h k => correctedError 0 (32 * h + k) s
    | .single, .tableStore _ e => correctedError 1 e s
    | .double, .rowStore h k => slotWordLost h k (logError ⟨clContained, 0, ckDouble, h, none⟩ s).2
    | .double, .tableStore b _ => bankLost b (logError ⟨clContained, 1, ckDouble, b, none⟩ s).2

/-! ## The commands -/

/-- MG_TWIN_MODE_LOCKSTEP (R564). -/
def execMgTwinModeLockstep (primary clean : Bool) (s : State) : Host.Outcome State Fault Refusal :=
  command (mgmtWrite (setLockstep primary clean)) s
/-- MG_TWIN_MODE_COVER (R571). -/
def execMgTwinModeCover (clean : Bool) (s : State) : Host.Outcome State Fault Refusal := command (mgmtWrite (setCover clean)) s
/-- MG_TWIN_MODE_INDEPENDENT (R575). -/
def execMgTwinModeIndependent (s : State) : Host.Outcome State Fault Refusal := command (mgmtWrite setIndependent) s
/-- TWIN_ALIVE_TIMEOUT (R47). -/
def execTwinAliveTimeout (s : State) : Host.Outcome State Fault Refusal := command twinLost s
/-- TWIN_SIGNATURE (R568). -/
def execTwinSignature (signature : W64) (s : State) : Host.Outcome State Fault Refusal := command (twinSignature signature) s
/-- DEBUG_HALT (R576). -/
def execDebugHalt (chipDebug halt : Bool) (s : State) : Host.Outcome State Fault Refusal := command (debugHalt chipDebug halt) s
/-- MG_DBG_TUMBLER (R653). -/
def execMgDbgTumbler (stage : Fin 8) (data : W64) (s : State) : Host.Outcome State Fault Refusal :=
  command (mgmtWrite (debugTumbler stage.val data)) s
/-- TST_MODE_REQ (R48). -/
def execTstModeReq (s : State) : Host.Outcome State Fault Refusal := register testRequest s
/-- TEST_WIPE_DONE (R48). -/
def execTestWipeDone (s : State) : Host.Outcome State Fault Refusal := command testWiped s
/-- POWER_LOSS (R596). -/
def execPowerLoss (s : State) : Host.Outcome State Fault Refusal := register powerLost s
/-- WATCHDOG_EXPIRY (R558). -/
def execWatchdogExpiry (s : State) : Host.Outcome State Fault Refusal := command watchdog s
/-- SCRUB (R539). -/
def execScrub (word : ScrubWord) (found : ScrubResult) (s : State) : Host.Outcome State Fault Refusal := command (scrubRow word found) s

end Sys2Proof.Machine
end

