-- ==== Sys2Proof/Machine/DetEvents.lean ====
section
/-! DEFINITION. Determinism control (R509, R516 to R523, R649, R651). -/

namespace Sys2Proof.Machine

/-! ## MG_DET_CTRL (R516) -/

/-- The operating point of timing-repeatable mode (R583, R588). -/
def trmTarget (s : State) : BitVec 3 := if s.cfg.trmPoint.toNat < s.cfg.ceil.toNat then s.cfg.ceil else s.cfg.trmPoint

/-- Whether the power controller acts on its windows: powered, not moving, no change of point under way. -/
def powerSteady (s : State) : Bool :=
  decide (s.pwr.state = .active) && decide (s.pwr.move = .none) && s.pwr.opReq.isNone && !s.pwr.grantStop
    && (decide (s.ctl.state = .active) || decide (s.ctl.state = .fenced))

/-- A new TRM_POINT moves a unit in timing-repeatable mode, which runs there (R509); one that grant or throttle holds lower moves
only when the new point is lower still (R583). -/
def followPoint (old : BitVec 3) (s : State) : State :=
  let p := trmTarget s
  if s.det.trmActive && powerSteady s && (decide (s.pwr.point = old) || decide (s.pwr.point.toNat < p.toNat)) then requestPoint p s
  else s

/-- A write with TRACE and REPLAY together, or TRM_POINT 0 or 1, is ignored and counted. A change of TRACE, REPLAY or
TRM waits for a quiescent point. -/
def detControl (x : W32) (s : State) : State :=
  if bit x 1 && bit x 2 || decide (field x 6 4 < 2) then mgIgnored s
  else
    followPoint (trmTarget s) { s with
      cfg := { s.cfg with trmPoint := BitVec.ofNat 3 (field x 6 4), traceStall := bit x 3 }
      det := { s.det with
        trm := bit x 0, trace := bit x 1, replay := bit x 2,
        changePending := decide (bit x 0 ≠ s.det.trmActive) || decide (bit x 1 ≠ s.det.traceActive)
          || decide (bit x 2 ≠ s.det.replayActive) } }

/-! ## The quiescent point (R518) -/

def RingState.quiet : RingState → Bool
  | .ready => false
  | .running => false
  | .blocked => false
  | .suspended => false
  | _ => true

/-- Whether every ring is IDLE, PAUSED, HALTED or DISABLED, the rings whose contexts lie in memory among them. -/
def quiescent (s : State) : Bool :=
  s.rings.cmds.isEmpty && s.rings.chosen.isNone && (flushRings false s).all (fun r => (standingState s r).quiet)

/-- A pending change takes effect: BSEQ and FCYC are 0 and a MARK is written, whatever changes; recording and replay start at the
ring's read pointer and write pointer as they stand. -/
def quiescentPoint (s : State) : State :=
  if s.det.changePending && quiescent s && pageAnswers s then
    let d := s.det
    let pos := BitVec.ofNat 32 (s.cfg.traceRptr.toNat * 32 % traceSize s)
    let s1 := { s with fcyc := 0, throttled := 0, det := { d with
      changePending := false, bseq := 0, trmActive := d.trm, traceActive := d.trace,
      replayActive := d.replay, replayPos := pos, replayFrom := pos } }
    let s2 := tracePut none (traceRecord 0 0 s.ctl.incarnation.toNat 0 0 0 s.tabs.id.toNat) s1
    let s3 := if d.trm then requestPoint (trmTarget s2) { s2 with pwr := { s2.pwr with stretch := false } } else s2
    -- doorbells held for a replay that ends are applied (R523 continues live)
    if d.replay then s3
    else s3.det.heldDoorbells.foldl (fun s a => requestAction a s) { s3 with det := { s3.det with heldDoorbells := [] } }
  else s

/-! ## MG_TRACE_RPTR (R521) -/

/-- Space returns: held records leave, a LOST record tells of dropped ones, and a stalled unit goes on. -/
def traceSpace (s : State) : State :=
  let s1 := traceFlush s
  let room := decide (s1.det.buffer.length < Config.traceRecords)
  let s2 := if 0 < s1.det.dropped ∧ room then
      traceNow 7 (holderVi s1) none s1.det.dropped 0 0 { s1 with det := { s1.det with dropped := 0 } }
    else s1
  if room then { s2 with det := { s2.det with stalled := decide (Config.traceRecords ≤ s2.det.buffer.length) && s2.det.stalled } }
  else s2

def traceRead (x : W32) (s : State) : State :=
  traceSpace { s with cfg := { s.cfg with traceRptr := BitVec.ofNat 27 (field x 31 5) } }

/-! ## Leaving replay (R523) -/

/-- Whether the trace, from a place on, orders an input of a chain's epoch that has not arrived, at a row that waits for it. -/
def orderAwaited (s : State) (c : Nat) (d : ChainDesc) (x : Epoch) : Nat → Nat → Bool
  | 0, _ => false
  | n + 1, pos =>
    if pos = s.det.wptr.toNat then false
    else
      let r := BitVec.ofNat 256 (readNat s .device (s.cfg.traceBase.toNat * 64 + pos) 32)
      let row := field r 191 176
      (decide (field r 7 0 = 4) && decide (field r 63 32 = x.number.toNat) && decide (field r 201 192 = c)
        && (spFind x.own row).isSome && !rowReady d x row
        && !x.inputs.any (fun i => decide (i.row = row) && decide (i.level = field r 203 202) && decide (i.member = field r 210 204)))
      || orderAwaited s c d x n ((pos + 32) % traceSize s)

/-- Whether a choice that the recording forces now cannot be made: the ring it names is not eligible, or a recorded doorbell or
hinge input is missing. -/
def replayStuck (s : State) : Bool :=
  (atBoundary s && s.rings.chosen.isNone &&
    (match replayBoundary 3072 s with
      | .waits _ => true
      | .forced r s' => !(eligibleRings s').any (fun e => decide (e.ring = r))
      | .free _ => false))
  || s.chains.any (fun c => c.2.valid && c.2.epochs.any (fun x =>
      !x.isOver && orderAwaited s c.1 c.2 x (traceSize s / 32) s.det.replayFrom.toNat))

/-- A forced choice was not made within 10 ms: DIVERGED, and the unit goes on live with the doorbells it held. With no choice
waiting there is nothing whose time has run out. -/
def replayDiverged (s : State) : State :=
  if s.det.replayActive && replayStuck s then
    let s1 := countEvent 0xCA 1 none { s with det := { s.det with
      replayActive := false, diverged := true, heldDoorbells := [] } }
    s.det.heldDoorbells.foldl (fun s a => requestAction a s) s1
  else s

/-! ## The commands -/

/-- MG_DET_CTRL (R516). -/
def execMgDetCtrl (data : W32) (s : State) : Host.Outcome State Fault Refusal := register (mgmtWrite (detControl data)) s
/-- QUIESCENT_POINT (R518). -/
def execQuiescentPoint (s : State) : Host.Outcome State Fault Refusal := command quiescentPoint s
/-- MG_TRACE_RPTR (R521). -/
def execMgTraceRptr (data : W32) (s : State) : Host.Outcome State Fault Refusal := register (mgmtWrite (traceRead data)) s
/-- REPLAY_DIVERGE_TIMEOUT (R523). -/
def execReplayDivergeTimeout (s : State) : Host.Outcome State Fault Refusal := command replayDiverged s

end Sys2Proof.Machine
end

