-- ==== Sys2Proof/Machine/PowerEvents.lean ====
section
/-! DEFINITION. Power: management requests (R604 to R609, R619), the rail and power-up (R605), droop (R586 to R588), the
grant and throttling (R589 to R596), power states (R597 to R603), supply hold-up (R612 to R616). Powers are in mW. -/

namespace Sys2Proof.Machine

/-! ## Limits of the operating point (R583, R584, R588) -/

/-- The lowest point index that the unit chooses. -/
def topPoint (s : State) : BitVec 3 := if s.det.trmActive then trmTarget s else s.cfg.ceil

/-- MGT_GRANT in mW. -/
def grantMw (g : Byte) : Nat := 125 * g.toNat

/-- Full-activity power of a point in mW (R580). -/
def pointPower (p : Nat) : Nat := [11000, 9600, 8300, 7100, 6000, 4500, 3200, 2500].getD p 2500

/-- The point that the grant and CEIL allow at power-up (R605): the first whose full-activity power the grant covers. -/
def allowedPoint (s : State) : BitVec 3 :=
  let ps := (List.range 8).filter (fun p => decide (s.cfg.ceil.toNat ≤ p) && decide (pointPower p ≤ grantMw s.pwr.grant))
  BitVec.ofNat 3 (ps.headD 7)

/-- One step down: the point first, then the slot rate, down to 1. -/
def stepDown (s : State) : State :=
  if s.pwr.point.toNat < 7 then requestPoint (s.pwr.point + 1) s
  else { s with pwr := { s.pwr with slots := if s.pwr.slots.toNat ≤ 1 then s.pwr.slots else s.pwr.slots - 1 } }

/-- Whether a step up is left within R583. -/
def canRise (s : State) : Bool := decide (s.pwr.slots.toNat < 16) || decide ((topPoint s).toNat < s.pwr.point.toNat)

/-- One step up: the slot rate first, to 16, then the point. -/
def stepUp (s : State) : State :=
  if s.pwr.slots.toNat < 16 then { s with pwr := { s.pwr with slots := s.pwr.slots + 1 } }
  else if (topPoint s).toNat < s.pwr.point.toNat then requestPoint (s.pwr.point - 1) s
  else s

/-! ## MG_POWER_CTRL (R585, R604, R619) -/

/-- AUTO_OFF, FLOOR and CEIL; a CEIL above FLOOR is counted, and FLOOR taken as equal to it. -/
def powerFields (autoOff : Bool) (floor ceil : BitVec 3) (s : State) : State :=
  let s1 := { s with cfg := { s.cfg with autoOff := autoOff, ceil := ceil,
                                         floor := if floor.toNat < ceil.toNat then ceil else floor } }
  let s2 := if floor.toNat < ceil.toNat then mgIgnored s1 else s1
  if s2.pwr.point.toNat < ceil.toNat ∧ powerSteady s2 then requestPoint ceil s2 else s2

def holdRequest (n : BitVec 2) (s : State) : State := { s with pwr := { s.pwr with pending := n } }

/-- The unit leaves its power state, and QUIESCE follows (R609). -/
def leaveThenDown (from_ : PowerState) (s : State) : State :=
  { s with pwr := { s.pwr with move := .leaving from_, downAfterExit := true } }

/-- An OFF request. -/
def powerOff (s : State) : State :=
  if s.ctl.state = .resetting then holdRequest 2 s
  else
    match s.pwr.state, s.pwr.move with
    | .off, _ => s
    | .active, .none => beginQuiesce s
    | .active, .entering t => leaveThenDown t s
    | .active, .leaving t => leaveThenDown t s
    | .gated, _ => leaveThenDown .gated s
    | .retain, _ => if s.pwr.holdupReq then holdRequest 2 s else leaveThenDown .retain s
    | _, _ => holdRequest 2 s

/-- An ON request. -/
def powerOn (s : State) : State :=
  if s.ctl.state = .resetting then holdRequest 1 s
  else
    match s.pwr.state with
    | .off => beginPowerUp s
    | .powerUp => holdRequest 1 s
    | .quiesce => holdRequest 1 s
    | .checkpoint => holdRequest 1 s
    | .railOff => holdRequest 1 s
    | .holdup => holdRequest 1 s
    | _ => { s with pwr := { s.pwr with downAfterExit := false, pending := 0 } }

def powerOffRow (autoOff : Bool) (floor ceil : BitVec 3) : State → State :=
  mgmtWrite (fun s => powerOff (powerFields autoOff floor ceil s))

/-- From test mode the power-up sequence is the only way out (R578). -/
def powerOnRow (autoOff : Bool) (floor ceil : BitVec 3) (s : State) : State :=
  if s.ctl.test = .opened then
    powerOn (powerFields autoOff floor ceil (testClose s))
  else mgmtWrite (fun s => powerOn (powerFields autoOff floor ceil s)) s

/-! ## The rail and power-up (R605, R606, R608) -/

def railAck (level : Bool) (s : State) : State :=
  let s1 := { s with pwr := { s.pwr with railAck := level } }
  match s.pwr.state with
  | .powerUp =>
    if level && !s.pwr.railAck then
      emit { s1 with ctl := { s1.ctl with incarnation := s.ctl.incarnation + 1 } } (.opRequest (allowedPoint s))
    else s1
  | .railOff =>
    if level then s1
    else
      let s2 := { s1 with pwr := { s1.pwr with state := .off } }
      if s2.pwr.pending = 1 then beginPowerUp s2 else { s2 with pwr := { s2.pwr with pending := 0 } }
  | _ => s1

/-- Power-up ends: every register holds its default (R11) but MG_POWER_CTRL and MG_LANE_REPAIR, which the fuses give (R22, R652),
every SRAM is initialised, the factory tables are in place, and the unit is FENCED, with RINGS_LOST unless a CHECKPOINT was completed (R561); a hold-up or a request
that waits applies (R605, R616). -/
def powerUpDone (s : State) : State :=
  if s.pwr.state = .powerUp ∧ s.pwr.railAck then
    let w := wiped s
    let r := { w with
      cfg := { Cfg.reset with autoOff := s.cfg.autoOff, floor := s.cfg.floor, ceil := s.cfg.ceil }
      ctl := { w.ctl with state := .fenced, ringsLost := !s.ctl.flushed }
      mg := { w.mg with laneRepair := s.mg.fuses }
      pwr := { w.pwr with state := .active, point := allowedPoint s, grant := s.pwr.grant, holdupReq := s.pwr.holdupReq,
                          pending := s.pwr.pending }
      rings := { w.rings with fetchStopped := s.pwr.holdupReq } }
    if r.pwr.holdupReq then enterHoldup r else applyPending r
  else s

/-! ## Droop (R586 to R588) -/

def droopLevel (level : Bool) (s : State) : State :=
  { s with pwr := { s.pwr with droop := level, droopSeen := s.pwr.droopSeen || level,
                               stretch := s.pwr.stretch || (level && !s.det.trmActive) } }

/-- A 200 ns window ends. -/
def droopWindow (s : State) : State :=
  let s1 := if s.pwr.droopSeen then countEvent 0xC3 1 none s else s
  { s1 with pwr := { s1.pwr with stretch := s1.pwr.stretch && s1.pwr.droopSeen, droopSeen := s1.pwr.droop } }

/-! ## The grant and throttling (R589 to R596) -/

/-- PWR_CAP_UNMET, asserted after 10 windows over the grant at the lowest rate, and given up after 10 within it. -/
def capWindow (above : Bool) (s : State) : State :=
  let low := decide (s.pwr.point = 7) && decide (s.pwr.slots.toNat ≤ 1)
  let o := if above && low then s.pwr.overWindows + 1 else 0
  let u := if above then 0 else s.pwr.underWindows + 1
  let s1 := { s with pwr := { s.pwr with overWindows := o, underWindows := u } }
  if !s.pwr.capUnmet && decide (10 ≤ o) then
    countEvent 0xC2 1 none (emit { s1 with pwr := { s1.pwr with capUnmet := true } } (.capUnmet true))
  else if s.pwr.capUnmet && decide (10 ≤ u) then
    emit { s1 with pwr := { s1.pwr with capUnmet := false } } (.capUnmet false)
  else s1

/-- A window with room for one step up: the tenth in a row takes it; after a thermal throttle at most one step in 100
windows. -/
def riseWindow (room : Bool) (s : State) : State :=
  let n := if room then s.pwr.roomWindows + 1 else 0
  let pace := if s.pwr.risePace ≤ 1 then s.pwr.risePace else s.pwr.risePace - 1
  let s1 := { s with pwr := { s.pwr with roomWindows := n, risePace := pace } }
  if decide (10 ≤ n) && decide (pace ≤ 1) && !s.pwr.throttle && canRise s1 then
    let s2 := stepUp { s1 with pwr := { s1.pwr with roomWindows := 0, risePace := if pace = 0 then 0 else 100 } }
    if canRise s2 then s2 else { s2 with pwr := { s2.pwr with risePace := 0 } }
  else s1

/-- A 1 µs window: measured power, and the power modelled one step higher, against the grant. A window in which the floor
yields is counted (R584). -/
def powerWindow (measured higher : Nat) (s : State) : State :=
  if !powerSteady s then s
  else
    let g := grantMw s.pwr.grant
    let above := decide (g < measured)
    let s1 := if s.cfg.floor.toNat < s.pwr.point.toNat then countEvent 0xC1 1 none s else s
    let s2 := capWindow above s1
    if above then stepDown { s2 with pwr := { s2.pwr with roomWindows := 0 } }
    else riseWindow (decide (higher + 250 ≤ g)) s2

/-- The change of operating point is acknowledged (R581). In timing-repeatable mode a change by which grant or throttle forces the
unit lower than its point is a timing-only choice (R509); a step back up is none, nor is a move to point 7 for a power-down or a
hold-up (R610). -/
def opAck (s : State) : State :=
  match s.pwr.opReq with
  | none => s
  | some p =>
    let s1 := countEvent 0xC4 1 none { s with pwr := { s.pwr with opReq := none, point := p } }
    let forced := s.det.trmActive && decide ((trmTarget s).toNat < p.toNat) && decide (s.pwr.point.toNat < p.toNat)
      && decide (s.pwr.state = .active)
    let s2 := if forced then countTiming (holderVi s1) s1 else s1
    let s3 := traceChoice 6 none 0 0 p.toNat s2
    -- a limit that has moved meanwhile is met by a further change
    if powerSteady s3 && decide (p.toNat < (topPoint s3).toNat) then requestPoint (topPoint s3) s3 else s3

/-- A new grant (R592, R593). -/
def newGrant (g : Byte) (s : State) : State :=
  let s1 := { s with pwr := { s.pwr with grant := g } }
  if g = 0 then
    if s.pwr.grantStop then s1 else tolViolations { s1 with pwr := { s1.pwr with grantStop := true, tolMarked := [] } }
  else if s.pwr.grantStop then
    let s2 := tolViolations s1
    let s3 := { s2 with pwr := { s2.pwr with grantStop := false, tolMarked := [], roomWindows := 0 } }
    wake (if s3.pwr.state = .off ∨ s3.pwr.state = .railOff ∨ s3.pwr.state = .powerUp then s3
      else requestPoint 7 { s3 with pwr := { s3.pwr with slots := 1 } })
  else s1

/-- The chain has emptied under a zero grant, and the unit enters GATED (R592). -/
def grantGate (s : State) : State :=
  if s.pwr.grantStop && decide (s.pwr.state = .active) && decide (s.pwr.move = .none)
      && (decide (s.ctl.state = .active) || decide (s.ctl.state = .fenced)) then
    { s with pwr := { s.pwr with move := .entering .gated } }
  else s

/-- PWR_THROTTLE; after it falls the unit rises one step in 100 µs at most (R596). -/
def throttleLevel (level : Bool) (s : State) : State :=
  { s with pwr := { s.pwr with throttle := level, risePace := if level then s.pwr.risePace else (if s.pwr.throttle then 1 else s.pwr.risePace) } }

/-- Every 10 µs while throttled. -/
def throttleDown (s : State) : State := if s.pwr.throttle && powerSteady s then stepDown s else s

/-! ## Power states (R597 to R603) -/

/-- Whether the unit is idle (R599). -/
def unitIdle (s : State) : Bool :=
  let r := s.rings
  r.holder.isNone && r.chosen.isNone && r.wanted.isEmpty && r.reads.isEmpty && r.fetches.isEmpty && r.tumblerReads.isEmpty
    && r.actions.isEmpty && s.drain.queue.isEmpty && s.tabs.job.isNone && s.tabs.swap.isNone
    && r.cmds.all (fun c => decide (c.phase ≠ .suspended) && decide (c.phase ≠ .running))
    && r.cache.all (fun e => decide (e.ctx.state ≠ .ready) && decide (e.ctx.state ≠ .running) && decide (e.ctx.state ≠ .suspended))

/-- The rings that are not DISABLED. -/
def createdRings (s : State) : List Nat := (flushRings false s).filter (fun r => decide ((ctxOfRing s r).state ≠ .disabled))

/-- The tolerance bound in ns; none when it is unlimited (R600). -/
def toleranceBound (s : State) : Option Nat :=
  (createdRings s).foldl (fun b r =>
    let t := (cfgVi s (ctxOwner (ctxOfRing s r))).tolerance.toNat
    match b with
    | none => some t
    | some x => some (min x t)) none

def boundAllows (ns : Nat) (s : State) : Bool :=
  match toleranceBound s with
  | none => true
  | some b => decide (ns ≤ b)

/-- After 2 µs of idleness (R600, R601). -/
def idleTimer (s : State) : State :=
  if unitIdle s && powerSteady s && s.ctl.stop.isNone && !s.ctl.flushing && !s.pwr.holdupReq then
    if s.cfg.autoOff && (createdRings s).isEmpty && s.slots.all (fun x => !x.2.isOpen) then beginQuiesce s
    else if boundAllows 3000 s then { s with pwr := { s.pwr with move := .entering .retain } }
    else if boundAllows 40 s then { s with pwr := { s.pwr with move := .entering .gated } }
    else s
  else s

/-- The entry into GATED or RETAIN is complete; a restore recorded in a hold-up starts the exit (R602, R614). -/
def entryDone (s : State) : State :=
  match s.pwr.move with
  | .entering t =>
    let s1 := { s with pwr := { s.pwr with state := t, move := .none } }
    if t = .retain ∧ s.pwr.holdupReq ∧ s.pwr.restored then { s1 with pwr := { s1.pwr with move := .leaving .retain } } else s1
  | _ => s

/-- The unit resumes after a hold-up: DRN_REFUSE falls unless it is fenced (R614). -/
def endHoldup (s : State) : State :=
  let s1 := { s with
    pwr := { s.pwr with holdupReq := false, restored := false }
    ctl := { s.ctl with refuse := decide (s.ctl.state ≠ .active) || s.ctl.fence }
    rings := { s.rings with fetchStopped := s.ctl.fatal } }
  if s1.ctl.refuse then s1 else returnCredits s1

/-- A unit that is ACTIVE again with no fence deasserts DRN_REFUSE and returns the credits it held back (R33): a unit unfenced in a
power state does so when it leaves it. -/
def reopenDrain (s : State) : State :=
  if s.ctl.refuse && decide (s.ctl.state = .active) && !s.ctl.fence && s.ctl.stop.isNone && !s.pwr.holdupReq then
    returnCredits { s with ctl := { s.ctl with refuse := false } }
  else s

/-- The exit is complete: commands can start. A power-down that waited begins (R609). -/
def exitDone (s : State) : State :=
  match s.pwr.move with
  | .leaving _ =>
    let s1 := { s with pwr := { s.pwr with state := .active, move := .none } }
    let s2 := reopenDrain (if s1.pwr.holdupReq ∧ s1.pwr.restored then endHoldup s1 else s1)
    if s2.pwr.downAfterExit ∨ s2.pwr.pending = 2 then beginQuiesce s2 else { s2 with pwr := { s2.pwr with pending := 0 } }
  | _ => s

/-! ## Supply hold-up (R612 to R616) -/

/-- PWR_HOLDUP: fetching stops; with nothing in the chain HOLDUP is entered at once. -/
def holdup (s : State) : State :=
  let stopped (s : State) : State :=
    { s with pwr := { s.pwr with holdupReq := true, restored := false }, rings := { s.rings with fetchStopped := true } }
  match s.pwr.state with
  | .quiesce => s
  | .checkpoint => s
  | .railOff => s
  | .off => s
  | .holdup => s
  | .powerUp => stopped s
  | .retain => match s.pwr.move with
    | .none => if s.pwr.holdupReq then s else enterHoldup (stopped s)
    | _ => stopped s
  | _ =>
    match s.pwr.move with
    | .leaving _ => stopped s
    | _ => if s.ctl.state = .resetting ∨ s.rings.holder.isSome then stopped s else enterHoldup (stopped s)

/-- The checkpoint: changed contexts, the registers of resident rings, the trace buffer (R613); then RETAIN. -/
def checkpointDone (s : State) : State :=
  if s.pwr.state = .holdup ∧ s.pwr.move = .none then
    let s1 := s.rings.resident.foldl (fun s r => saveRegs r s) s
    let s2 := s1.rings.cache.foldl (fun s e => writeBackCtx e s) s1
    let s3 := traceFlush { s2 with rings := { s2.rings with cache := s2.rings.cache.map (fun e => { e with dirty := false }) } }
    { s3 with pwr := { s3.pwr with move := .entering .retain } }
  else s

/-- PWR_RESTORED is recorded; a unit already in RETAIN after its checkpoint starts the exit. -/
def supplyRestored (s : State) : State :=
  if s.pwr.holdupReq then
    let s1 := { s with pwr := { s.pwr with restored := true } }
    if s.pwr.state = .retain ∧ s.pwr.move = .none then { s1 with pwr := { s1.pwr with move := .leaving .retain } } else s1
  else s

/-! ## The commands -/

/-- MG_POWER_REQ_OFF (R606). -/
def execMgPowerReqOff (autoOff : Bool) (floor ceil : BitVec 3) (s : State) : Host.Outcome State Fault Refusal :=
  register (powerOffRow autoOff floor ceil) s
/-- MG_POWER_REQ_ON (R605). -/
def execMgPowerReqOn (autoOff : Bool) (floor ceil : BitVec 3) (s : State) : Host.Outcome State Fault Refusal :=
  register (powerOnRow autoOff floor ceil) s
/-- PWR_RAIL_ACK (R606). -/
def execPwrRailAck (level : Bool) (s : State) : Host.Outcome State Fault Refusal := command (railAck level) s
/-- POWER_UP_DONE (R605). -/
def execPowerUpDone (s : State) : Host.Outcome State Fault Refusal := register powerUpDone s
/-- PWR_DROOP (R586). -/
def execPwrDroop (level : Bool) (s : State) : Host.Outcome State Fault Refusal := command (droopLevel level) s
/-- DROOP_WINDOW_END (R586). -/
def execDroopWindowEnd (s : State) : Host.Outcome State Fault Refusal := command droopWindow s
/-- POWER_WINDOW (R589): measured power and power modelled one step higher, in mW. -/
def execPowerWindow (measured stepUp : Nat) (s : State) : Host.Outcome State Fault Refusal := command (powerWindow measured stepUp) s
/-- PWR_OP_ACK (R581). -/
def execPwrOpAck (s : State) : Host.Outcome State Fault Refusal := command opAck s
/-- MGT_GRANT (R592). -/
def execMgtGrant (grant : Byte) (s : State) : Host.Outcome State Fault Refusal := command (newGrant grant) s
/-- GRANT_ZERO_GATE (R592). -/
def execGrantZeroGate (s : State) : Host.Outcome State Fault Refusal := command grantGate s
/-- PWR_THROTTLE (R596). -/
def execPwrThrottle (level : Bool) (s : State) : Host.Outcome State Fault Refusal := command (throttleLevel level) s
/-- THROTTLE_STEP (R596). -/
def execThrottleStep (s : State) : Host.Outcome State Fault Refusal := command throttleDown s
/-- THM_SENSE_UPDATE (R595). -/
def execThmSenseUpdate (s0 s1 s2 s3 : BitVec 10) (s : State) : Host.Outcome State Fault Refusal :=
  command (fun s => if s.ctl.state = .off then s else { s with pwr := { s.pwr with thm := [s0, s1, s2, s3] } }) s
/-- IDLE_TIMER (R600). -/
def execIdleTimer (s : State) : Host.Outcome State Fault Refusal := command idleTimer s
/-- POWER_STATE_EXIT_DONE (R603). -/
def execPowerStateExitDone (s : State) : Host.Outcome State Fault Refusal := command exitDone s
/-- POWER_STATE_ENTRY_DONE (R602). -/
def execPowerStateEntryDone (s : State) : Host.Outcome State Fault Refusal := command entryDone s
/-- PWR_HOLDUP (R612). -/
def execPwrHoldup (s : State) : Host.Outcome State Fault Refusal := command holdup s
/-- HOLDUP_CHECKPOINT_DONE (R613). -/
def execHoldupCheckpointDone (s : State) : Host.Outcome State Fault Refusal := command checkpointDone s
/-- PWR_RESTORED (R614). -/
def execPwrRestored (s : State) : Host.Outcome State Fault Refusal := command supplyRestored s

end Sys2Proof.Machine
end

