-- ==== Sys2Proof/Machine/Sync.lean ====
section
/-! DEFINITION. Commands that order others: NOP, FENCE (R492, R493), EVENT_SIGNAL and EVENT_WAIT (R494 to R497), and
the end of a BLOCKED command's wait (R469). -/

namespace Sys2Proof.Machine

/-! ## NOP -/

def nopRow : State → State :=
  issue 0x00 (fun rc s => checkedThen rc (fun rc s => completeCmd rc .ok 0 0 0 s) (fun rc s => completeCmd rc .ok 0 0 0 s) s)

/-! ## FENCE -/

/-- The other rings of a VI with commands whose completion is still to come, and how far each must come (R493). -/
def fenceTargets (s : State) (rc : RunCmd) : List (Nat × W32) :=
  let r := viRange s (isCovered rc.ring) rc.vi
  (span r.base r.count).filterMap (fun ring =>
    let c := ctxOfRing s ring
    if ring = rc.ring || decide (c.state = .paused) || decide (c.state = .disabled) || decide (c.cpli = c.tail)
    then none else some (ring, c.tail))

/-- Whether a ring has completed everything up to a tail, or is gone. -/
def fenceReached (s : State) (x : Nat × W32) : Bool :=
  let c := ctxOfRing s x.1
  decide (c.state = .disabled) || decide ((c.cpli - x.2).toNat < 2 ^ 31)

def fenceBody (rc : RunCmd) (s : State) : State :=
  if !pkF0 rc.packet then completeCmd rc .ok 0 0 0 s
  else
    let ts := match rc.wait with
      | .rings l => l
      | _ => fenceTargets s rc
    if ts.all (fenceReached s) then completeCmd rc .ok 0 0 0 s else blockCmd rc (.rings ts) s

def fenceRow : State → State := issue 0x28 (fun rc s => checkedThen rc fenceBody fenceBody s)

/-! ## Events -/

def eventOf (s : State) (v : ViId) (n : Nat) : W32 := spGet 0 (viOf s v).events n

def eventReached (value target : W32) : Bool := decide ((value - target).toNat < 2 ^ 31)

/-- Waits of a VI's events that are satisfied end. -/
def releaseWaits (v : ViId) (s : State) : State :=
  { s with rings := { s.rings with cmds := s.rings.cmds.map (fun c =>
      match c.phase, c.wait with
      | .blocked _, .event n target =>
        if c.vi = v ∧ eventReached (eventOf s v n) target then { c with phase := .blocked true } else c
      | _, _ => c) } }

def signalBody (rc : RunCmd) (s : State) : State :=
  let n := pkOpa rc.packet % 256
  let x := BitVec.ofNat 32 (pkOpb rc.packet)
  let new := if pkF0 rc.packet then x else eventOf s rc.vi n + x
  let s1 := modVi s rc.vi (fun i => { i with events := spSet 0 i.events n new })
  completeCmd rc .ok 0 new.toNat 0 (releaseWaits rc.vi s1)

def signalRow : State → State := issue 0x29 (fun rc s => checkedThen rc signalBody signalBody s)

def waitBody (rc : RunCmd) (s : State) : State :=
  let n := pkOpa rc.packet % 256
  let target := BitVec.ofNat 32 (pkOpb rc.packet)
  let value := eventOf s rc.vi n
  if rc.wait = .event n target || eventReached value target then completeCmd rc .ok 0 value.toNat 0 s
  else blockCmd rc (.event n target) s

def waitRow : State → State := issue 0x2A (fun rc s => checkedThen rc waitBody waitBody s)

/-- The time limit of an EVENT_WAIT that still waits (R497). -/
def eventTimeout (ring : Nat) (s : State) : State :=
  match cmdOf s ring with
  | none => s
  | some c =>
    match c.phase, c.wait with
    | .blocked false, .event _ _ => if pkOpc c.packet = 0 then s else failCmdUnlogged c s
    | _, _ => s

/-! ## The end of a wait -/

/-- Whether what a BLOCKED command waits for has come. -/
def waitOver (s : State) (c : RunCmd) : Bool :=
  match c.wait with
  | .nothing => true
  | .event n target => eventReached (eventOf s c.vi n) target
  | .rings l => l.all (fenceReached s)
  | .final k => c.prog.finalised || !(chainAt s k).valid || (epochAt (chainAt s k) (chainAt s k).epoch).isOver
  | .loader => c.prog.finalised
  | .spareBank => c.prog.finalised

/-- The wait of a ring's BLOCKED command ends; a TABLE_SWAP that waits for a spare bank goes on in the loader. -/
def blockedWaitEnd (ring : Nat) (s : State) : State :=
  match cmdOf s ring with
  | none => s
  | some c =>
    match c.phase with
    | .blocked false =>
      if c.wait = .spareBank ∧ !c.prog.finalised then serveAll s
      else if waitOver s c then setCmd s { c with phase := .blocked true } else s
    | _ => s

/-! ## The commands -/

/-- NOP (R449). -/
def execNop (s : State) : Host.Outcome State Fault Refusal := command nopRow s
/-- FENCE (R493). -/
def execFence (s : State) : Host.Outcome State Fault Refusal := command fenceRow s
/-- EVENT_SIGNAL (R495). -/
def execEventSignal (s : State) : Host.Outcome State Fault Refusal := command signalRow s
/-- EVENT_WAIT (R496). -/
def execEventWait (s : State) : Host.Outcome State Fault Refusal := command waitRow s
/-- The wait of a BLOCKED command ends (R469). -/
def execBlockedWaitEnd (ring : Nat) (s : State) : Host.Outcome State Fault Refusal := command (blockedWaitEnd ring) s
/-- The time limit of an EVENT_WAIT expires (R497). -/
def execEventWaitTimeout (ring : Nat) (s : State) : Host.Outcome State Fault Refusal := command (eventTimeout ring) s

end Sys2Proof.Machine
end

