-- ==== Sys2Proof/Machine/Records.lean ====
section
/-! DEFINITION. Commands that write records: DIGEST_SEAL (R534, R535), COUNTER_SNAP (R672 to R675), ACC_PEEK (R20,
R452); and what a VI's page shows of the counters (R661, R664). -/

namespace Sys2Proof.Machine

/-! ## DIGEST_SEAL -/

/-- The 128-byte seal record. -/
def sealRecord (s : State) (rc : RunCmd) (entry loc : Nat) : List Byte :=
  let digest := readBytes s .device entry 32
  let tail := readBytes s .device (entry + 32) 8 ++ natBytes 2 rc.vi.toNat ++ natBytes 4 loc
    ++ natBytes 2 s.mg.unitAddress.toNat ++ readBytes s .device (entry + 56) 1
  digest ++ hmac256 (natBytes 32 (rc.key.getD 0).toNat) (digest ++ tail) ++ tail ++ natBytes 47 0

def sealBody (rc : RunCmd) (s : State) : State :=
  let loc := pkOpa rc.packet
  let a := digestEntry s rc.vi ((viRange s (isCovered rc.ring) rc.vi).base + loc)
  let n := readNat s .device (a + 32) 8
  let d := descOf rc 4
  let r := writeRecord rc 4 (descSpace rc d) (dBase d) (sealRecord s rc a loc) false s
  let s1 := if pkF0 rc.packet then
      devWriteFor rc.vi (devWriteFor rc.vi r.2 a (List.replicate 40 0)) (a + 56) [0]
    else r.2
  completeCmd r.1 .ok 0 n 128 s1

def sealRow : State → State := issue 0x30 (fun rc s => checkedThen rc sealBody sealBody s)

/-! ## What a VI's page shows of the counters -/

/-- Whether the page of a VI shows counter `n` (R661). -/
def shownTo (s : State) (v : ViId) (n : Nat) : Bool :=
  let e := evSelectOf s n
  !e.allVi && decide (e.vi = v)

/-- EV_NONDET as a number (R512). -/
def nondetWord (bits timing : BitVec 24) : Nat := place bits.toNat 24 + timing.toNat

/-- Counter `n` of the unit view, programmable or fixed. -/
def unitCounter (s : State) (n : Nat) : Nat :=
  match n with
  | 16 => s.ev.fclk.toNat
  | 17 => s.ev.retired.toNat
  | 18 => nondetWord s.ev.nondetBits s.ev.nondetTiming
  | 19 => s.ev.throttle.toNat
  | n => (spGet 0 s.ev.count n).toNat

/-- Counter `n` as the page of a VI shows it. -/
def viCounter (s : State) (v : ViId) (n : Nat) : Nat :=
  let c := (viOf s v).counters
  match n with
  | 16 => c.fclk.toNat
  | 17 => c.retired.toNat
  | 18 => nondetWord c.nondetBits c.nondetTiming
  | 19 => c.throttle.toNat
  | n => if shownTo s v n then (spGet 0 s.ev.count n).toNat else 0

/-- EV_OVF bit `n` as the page of a VI shows it. -/
def viOverflow (s : State) (v : ViId) (n : Nat) : Bool :=
  if 16 ≤ n then bit (viOf s v).counters.ovf (n - 16) else shownTo s v n && bit s.ev.ovf n

/-- Counter `n` and its overflow bit become 0. -/
def clearCounter (n : Nat) (s : State) : State :=
  { s with ev := { s.ev with count := spErase s.ev.count n, ovf := s.ev.ovf &&& ~~~(BitVec.ofNat 20 (2 ^ n)) } }

/-- A VI's view of fixed counter `n` and its overflow bit become 0. -/
def clearView (v : ViId) (n : Nat) (s : State) : State :=
  modVi s v (fun i =>
    let c := { i.counters with ovf := i.counters.ovf &&& ~~~(BitVec.ofNat 4 (2 ^ (n - 16))) }
    { i with counters := match n with
      | 16 => { c with fclk := 0 }
      | 17 => { c with retired := 0 }
      | 18 => { c with nondetBits := 0, nondetTiming := 0 }
      | _ => { c with throttle := 0 } })

/-- One counter cleared as far as the page of a VI shows it. -/
def clearShown (v : ViId) (s : State) (n : Nat) : State :=
  if 16 ≤ n then clearView v n s else if shownTo s v n then clearCounter n s else s

/-! ## COUNTER_SNAP -/

def snapEntry (s : State) (v : ViId) (mask n : Nat) : Nat :=
  if mask.testBit n then
    let event := if n < 16 ∧ shownTo s v n then (evSelectOf s n).event.toNat else 0
    viCounter s v n + place event 48 + place (boolNat (viOverflow s v n)) 63
  else 0

/-- The 192-byte record (R674). -/
def snapRecord (s : State) (rc : RunCmd) (mask : Nat) : List Byte :=
  natBytes 8 s.tclk.toNat ++ natBytes 4 rc.seq.toNat ++ natBytes 4 mask ++ natBytes 2 rc.vi.toNat ++ natBytes 14 0
    ++ (List.range 20).flatMap (fun n => natBytes 8 (snapEntry s rc.vi mask n))

def snapBody (rc : RunCmd) (s0 : State) : State :=
  let s := tick s0
  let mask := pkOpa rc.packet % 2 ^ 20
  let ns := (List.range 20).filter (fun n => mask.testBit n)
  let s1 := if pkF0 rc.packet then ns.foldl (clearShown rc.vi) s else s
  let d := descOf rc 4
  let r := writeRecord rc 4 (descSpace rc d) (dBase d) (snapRecord s rc mask) false s1
  completeCmd r.1 .ok 0 0 ns.length r.2

def snapRow : State → State := issue 0x31 (fun rc s => checkedThen rc snapBody snapBody s)

/-! ## ACC_PEEK -/

/-- R20: only in the chip's debug state, from a VI with debug enabled. -/
def mayPeek (s : State) (rc : RunCmd) : Bool := s.ctl.chipDebug && (cfgVi s rc.vi).debugEnable

/-- The lanes and the exponent of an accumulator row (R452): the accumulators lie outside the unit (log entry 1). -/
def peekBody (rc : RunCmd) (s : State) : State :=
  if !mayPeek s rc then refuseCmd rc 0 s
  else
    let t := takeFree s
    let row := BitVec.ofNat 32 (pkOpa rc.packet)
    let d := descOf rc 4
    let lanes := (List.range 512).flatMap (fun l => natBytes 8 (wrapNat 64 (Config.accLane t.1 row l).toInt))
    let r := writeRecord rc 4 (descSpace rc d) (dBase d) (lanes ++ natBytes 8 (wrapNat 64 (Config.accExp t.1 row).toInt)) false t.2
    completeCmd { r.1 with tainted := true } .ok 0 0 512 r.2

def peekRow : State → State := issue 0x38 (fun rc s => checkedThen rc peekBody peekBody s)

/-! ## The commands -/

/-- DIGEST_SEAL (R535). -/
def execDigestSeal (s : State) : Host.Outcome State Fault Refusal := command sealRow s
/-- COUNTER_SNAP (R674). -/
def execCounterSnap (s : State) : Host.Outcome State Fault Refusal := command snapRow s
/-- ACC_PEEK (R452). -/
def execAccPeek (s : State) : Host.Outcome State Fault Refusal := command peekRow s

end Sys2Proof.Machine
end

