-- ==== Sys2Proof/Machine/Registers.lean ====
section
/-! DEFINITION. The register maps (R631 to R658), event-counter registers (R659 to R671), keys (R643 to R645), VI reset
(R491, R647, R648). -/

namespace Sys2Proof.Machine

/-! ## Counter registers (R659 to R663, R669) -/

/-- The event codes of R665. -/
def eventKnown (e : Nat) : Bool :=
  decide (e ≤ 0x0B) || (decide (0x10 ≤ e) && decide (e ≤ 0x15)) || (decide (0x20 ≤ e) && decide (e ≤ 0x25))
    || (decide (0x28 ≤ e) && decide (e ≤ 0x2D)) || (decide (0x30 ≤ e) && decide (e ≤ 0x34))
    || (decide (0x38 ≤ e) && decide (e ≤ 0x3B)) || (decide (0x40 ≤ e) && decide (e ≤ 0x46))
    || (decide (0x48 ≤ e) && decide (e ≤ 0x4C)) || (decide (0x50 ≤ e) && decide (e ≤ 0x57))
    || (decide (0x60 ≤ e) && decide (e ≤ 0x67)) || (decide (0xC0 ≤ e) && decide (e ≤ 0xCC))

def setSelect (n : Nat) (x : EvSelect) (s : State) : State :=
  { s with cfg := { s.cfg with select := spSet EvSelect.reset s.cfg.select n x } }

/-- A write with ALLVI and VI writable; a change of either zeroes the counter and its selection (R662). -/
def selectWrite (n : Nat) (x : W32) (s : State) : State :=
  let old := evSelectOf s n
  let new : EvSelect := ⟨bit x 26, BitVec.ofNat 10 (field x 25 16), bit x 8, BitVec.ofNat 8 (field x 7 0)⟩
  if new.allVi = old.allVi ∧ new.vi = old.vi then setSelect n new s
  else setSelect n { new with en := false, event := 0 } (clearCounter n s)

/-- EV_SELECTn at a port (R660, R661). -/
def evSelectRow (port : RegPort) (n : Nat) (x : W32) (s : State) : State :=
  let bad := !eventKnown (field x 7 0)
  match port with
  | .mgmt => mgmtWrite (fun s => if bad then mgIgnored s else selectWrite n x s) s
  | _ => pageWrite port (fun v s =>
      if bad || !shownTo s v n then portIgnored port s
      else if port = .window then selectWrite n x s
      else setSelect n { evSelectOf s n with en := bit x 8, event := BitVec.ofNat 8 (field x 7 0) } s) s

def setCount (n : Nat) (x : W64) (s : State) : State :=
  { s with ev := { s.ev with count := spSet 0 s.ev.count n (BitVec.ofNat 48 (field x 47 0)) } }

/-- EV_COUNTn at a port. -/
def evCountRow (port : RegPort) (n : Nat) (x : W64) (s : State) : State :=
  match port with
  | .mgmt => mgmtWrite (setCount n x) s
  | _ => pageWrite port (fun v s => if shownTo s v n then setCount n x s else portIgnored port s) s

/-- CLEAR on the management page: every counter in every view (R663). -/
def clearAll (s : State) : State :=
  { s with ev := Counters.reset,
           vis := (s.vis.map (fun x => (x.1, { x.2 with counters := ViCounters.zero }))).filter (fun x => decide (x.2 ≠ ViState.reset)) }

def setFreeze (b : Bool) (s : State) : State := { s with cfg := { s.cfg with freeze := b } }

def clearPage (v : ViId) (s : State) : State := (List.range 20).foldl (clearShown v) s

/-- EV_CTRL with CLEAR 1. -/
def evClearRow (port : RegPort) (freeze : Bool) (s : State) : State :=
  match port with
  | .mgmt => mgmtWrite (fun s => setFreeze freeze (clearAll s)) s
  | .window => pageWrite port (fun v s => setFreeze freeze (clearPage v s)) s
  | _ => pageWrite port clearPage s

/-- Overflow bits cleared by writing 1 (R661). -/
def clearOvf (x : Nat) (s : State) : State := { s with ev := { s.ev with ovf := s.ev.ovf &&& ~~~(BitVec.ofNat 20 x) } }

def clearShownOvf (v : ViId) (x : Nat) (s : State) : State :=
  (List.range 20).foldl (fun s n =>
    if !x.testBit n then s
    else if 16 ≤ n then modVi s v (fun i => { i with counters := { i.counters with ovf := i.counters.ovf &&& ~~~(BitVec.ofNat 4 (2 ^ (n - 16))) } })
    else if shownTo s v n then clearOvf (2 ^ n) s else s) s

/-! ## VI registers (R654 to R658) -/

/-- Whether some ring of a VI is not DISABLED. -/
def viHasRings (s : State) (v : ViId) : Bool :=
  let r := viRange s false v
  (createdRings s).any (fun x => decide (r.base ≤ x) && decide (x < r.base + r.count))

def modCfgVi (v : ViId) (f : ViCfg → ViCfg) (s : State) : State := setCfgVi s v (f (cfgVi s v))

def viModeGood (x : W64) : Bool := decide (field x 4 2 < 5) && decide (field x 12 11 < 3)

def digestBaseRow (port : RegPort) (x : W64) : State → State :=
  pageWrite port (fun v s => if viHasRings s v then portIgnored port s
    else modCfgVi v (fun c => { c with digestBase := BitVec.ofNat 58 (field x 63 6) }) s)

def toleranceRow (port : RegPort) (x : W64) : State → State :=
  pageWrite port (fun v s => modCfgVi v (fun c => { c with tolerance := BitVec.ofNat 32 (field x 31 0) }) s)

/-- Whether a VI's new range lies in the rings that there are and meets no other VI's (R465). -/
def ringsFit (s : State) (v : ViId) (base count : Nat) : Bool :=
  decide (base + count ≤ Config.ringCount)
    && s.cfg.vi.all (fun y => decide (y.1 = v.toNat) || decide (y.2.ringCount = 0) || decide (count = 0)
        || decide (y.2.ringBase.toNat + y.2.ringCount.toNat ≤ base) || decide (base + count ≤ y.2.ringBase.toNat))

/-- VI_RINGS of the VI in MG_VI_SEL, through the window. -/
def ringsRow (x : W64) : State → State :=
  pageWrite .window (fun v s =>
    let base := field x 17 0
    let count := field x 36 18
    if ringsFit s v base count then
      modCfgVi v (fun c => { c with ringBase := BitVec.ofNat 18 base, ringCount := BitVec.ofNat 19 count,
                                    minClass := BitVec.ofNat 2 (field x 38 37) }) s
    else mgIgnored s)

/-- One 64-bit word of VI_RING_CFG. -/
def setImageWord (k : Nat) (x : W64) (c : ViCfg) : ViCfg := { c with ringCfg := setStage c.ringCfg k x }

/-- The action that VI_RING_CTRL's ACTION names. -/
def ringAction (n : Nat) : Option (ViCfg → RingAction) :=
  match n with
  | 0 => some (fun c => .create c.ringCfg)
  | 1 => some (fun _ => .resume)
  | 2 => some (fun _ => .pause)
  | 3 => some (fun _ => .destroy)
  | _ => none

/-- A write to a register of a VI page that has no row of its own, or whose row it equals; `off` within the page. -/
def viPageWrite (port : RegPort) (off : Nat) (x : W64) (s : State) : State :=
  let mg := decide (port = .window)
  let at_ (f : ViCfg → ViCfg) : State → State := pageWrite port (fun v s => modCfgVi v f s)
  let none_ : State → State := pageWrite port (fun _ s => portIgnored port s)
  let local_ (f : ViCfg → ViCfg) : State → State := if mg then at_ f else none_
  if off = 0x000 then steerWrite port (doorbell port x) s
  else if off = 0x008 then
    match ringAction (field x 22 20) with
    | some a => steerWrite port (ringControl port (BitVec.ofNat 18 (field x 17 0)) a) s
    | none => none_ s
  else if off = 0x010 then (if viModeGood x then at_ (fun c => { c with mode := viModeOf x }) s else none_ s)
  else if off = 0x018 then at_ (fun c => { c with bias := BitVec.ofNat 16 (field x 15 0) }) s
  else if off = 0x020 then toleranceRow port x s
  else if off = 0x028 then pageWrite port (fun v s => modVi s v (fun i => { i with flags := i.flags &&& ~~~(BitVec.ofNat 8 (field x 7 0)) })) s
  else if off = 0x030 then local_ (fun c => { c with quotaLimit := BitVec.ofNat 16 (field x 15 0) }) s
  else if off = 0x038 then (if mg then ringsRow x s else none_ s)
  else if off = 0x040 then tumblerInvalRow port x s
  else if off = 0x048 then at_ (fun c => { c with tableExpect := x }) s
  else if off = 0x058 then digestBaseRow port x s
  else if off = 0x060 then local_ (fun c => { c with debugEnable := bit x 1 }) s
  else if 0x080 ≤ off ∧ off < 0x0C0 ∧ off % 8 = 0 then at_ (setImageWord ((off - 0x080) / 8) x) s
  else if off = 0x100 then pageWrite port (fun v s => modVi s v (fun i => { i with trapInfo0 := i.trapInfo0 &&& ~~~(BitVec.ofNat 64 (field x 1 0)) })) s
  else if 0x800 ≤ off ∧ off < 0x880 ∧ off % 8 = 0 then evSelectRow port ((off - 0x800) / 8) (BitVec.ofNat 32 (field x 31 0)) s
  else if 0x880 ≤ off ∧ off < 0x900 ∧ off % 8 = 0 then evCountRow port ((off - 0x880) / 8) x s
  else if off = 0x920 then
    (if bit x 1 then evClearRow port (bit x 0) s else if mg then pageWrite port (fun _ s => setFreeze (bit x 0) s) s else none_ s)
  else if off = 0x928 then pageWrite port (fun v s => clearShownOvf v (field x 19 0) s) s
  else none_ s

/-- The value of a register of a VI page. -/
def viPageValue (s : State) (v : ViId) (off : Nat) : Nat :=
  let c := cfgVi s v
  let i := viOf s v
  if off = 0x008 then place i.ctrlResult.toNat 32 + c.ctrlRing.toNat
  else if off = 0x010 then (viModeBits c.mode).toNat
  else if off = 0x018 then c.bias.toNat
  else if off = 0x020 then c.tolerance.toNat
  else if off = 0x028 then i.flags.toNat
  else if off = 0x030 then place i.quotaOpen.toNat 16 + c.quotaLimit.toNat
  else if off = 0x038 then place c.minClass.toNat 37 + place c.ringCount.toNat 18 + c.ringBase.toNat
  else if off = 0x048 then c.tableExpect.toNat
  else if off = 0x050 then s.tabs.id.toNat
  else if off = 0x058 then place c.digestBase.toNat 6
  else if off = 0x060 then place (boolNat c.debugEnable) 1 + boolNat i.key.isSome
  else if 0x080 ≤ off ∧ off < 0x0C0 ∧ off % 8 = 0 then field c.ringCfg (8 * (off - 0x080) + 63) (8 * (off - 0x080))
  else if off = 0x100 then i.trapInfo0.toNat
  else if off = 0x108 then i.trapInfo1.toNat
  else if off = 0x110 then i.trapInfo2.toNat
  else if off = 0x118 then i.trapInfo3.toNat
  else if 0x800 ≤ off ∧ off < 0x880 ∧ off % 8 = 0 then
    let n := (off - 0x800) / 8
    let e := evSelectOf s n
    if shownTo s v n then place (boolNat e.allVi) 26 + place e.vi.toNat 16 + place (boolNat e.en) 8 + e.event.toNat else 0
  else if 0x880 ≤ off ∧ off < 0x920 ∧ off % 8 = 0 then viCounter s v ((off - 0x880) / 8)
  else if off = 0x920 then boolNat s.cfg.freeze
  else if off = 0x928 then (List.range 20).foldl (fun a n => a + place (boolNat (viOverflow s v n)) n) 0
  else 0

/-! ## Keys (R643, R644) -/

def eraseKey (v : ViId) (s : State) : State :=
  let s1 := modVi s v (fun i => { i with key := none })
  { s1 with mg := { s1.mg with keyLast := 3, keyLastVi := v } }

def eraseKeys (s : State) : State :=
  { s with mg := { s.mg with keyLast := 3 },
           vis := (s.vis.map (fun x => (x.1, { x.2 with key := none }))).filter (fun x => decide (x.2 ≠ ViState.reset)) }

/-- A key word: the eighth for one VI installs the key; a word for another VI discards a partial one. -/
def keyWord (v : ViId) (w : W32) (s : State) : State :=
  if s.ctl.state = .off then s
  else
    let fresh (s : State) : State := { s with mg := { s.mg with keyPartial := some (v, [w]) } }
    match s.mg.keyPartial with
    | none => fresh s
    | some (u, ws) =>
      if u ≠ v then fresh (countEvent 0xCC 1 none { s with mg := { s.mg with keyLast := 2, keyLastVi := u } })
      else
        let all := ws ++ [w]
        if all.length < 8 then { s with mg := { s.mg with keyPartial := some (v, all) } }
        else
          let key : BitVec 256 := BitVec.ofNat 256 (all.foldr (fun x a => x.toNat + 2 ^ 32 * a) 0)
          let s1 := modVi s v (fun i => { i with key := some key })
          { s1 with mg := { s1.mg with keyPartial := none, keyLast := 1, keyLastVi := v } }

/-! ## VI reset (R268, R330, R491, R648, R671) -/

/-- A ring of the VI is DISABLED, after its current command if it has one: one that is suspended in its save area too. -/
def resetRing (s : State) (ring : Nat) : State :=
  if (cmdOf s ring).isSome || decide (standingState s ring = .suspended) then
    let s1 := if (cacheEntry s ring).isNone then startCtxRead ring s else s
    { s1 with rings := { s1.rings with
        deferred := s1.rings.deferred.filter (fun d => decide (d.1 ≠ ring)) ++ [(ring, .disable)] } }
  else disableRing ring (dropChoice ring s)

/-- A counter that only this VI sees, and its selection, become zero. -/
def resetCounter (v : ViId) (s : State) (n : Nat) : State :=
  if shownTo s v n then setSelect n { evSelectOf s n with en := false, event := 0 } (clearCounter n s) else s

def resetVi (v : ViId) (s : State) : State :=
  if s.mg.viReset.isSome then mgIgnored s
  else
    let inRange (covered : Bool) (x : Nat) : Bool :=
      let r := viRange s covered v
      decide (isCovered x = covered) && decide (r.base ≤ x) && decide (x < r.base + r.count)
    let rings := (createdRings s).filter (fun x => inRange false x || (s.twin.covering && inRange true x))
    let s1 := { s with rings := { s.rings with actions := s.rings.actions.filter (fun a => decide (a.vi ≠ v)),
                                               tumblers := s.rings.tumblers.filter (fun t => decide (t.vi ≠ v)) } }
    let s2 := rings.foldl resetRing s1
    let slots := (s2.slots.filter (fun x => x.2.isOpen && decide (x.2.owner = v))).map (fun x => x.1)
    let s3 := slots.foldl (fun s h => putSlot s h Slot.zero) s2
    let chains := (s3.chains.filter (fun x => x.2.valid && decide (x.2.owner = v))).map (fun x => x.1)
    let s4 := chains.foldl (fun s c => invalidateChain c s) s3
    let s5 := (List.range 16).foldl (resetCounter v)
      (modVi s4 v (fun i => { i with events := [], key := none, counters := ViCounters.zero }))
    viResetCheck { s5 with mg := { s5.mg with viReset := some v } }

/-! ## Lane repair (R21, R652) -/

/-- MG_LANE_REPAIRs. -/
def laneRepairWord (s : State) (n : Nat) : W32 := spGet 0 s.mg.laneRepair n

/-- The one physical lane of a logical lane: the first spare that carries it, else the lane of the same number. -/
def physicalLane (s : State) (lane : Nat) : Nat :=
  match (List.range (Config.physicalLanes - Config.lanes)).find? (fun n =>
      bit (laneRepairWord s n) 31 && decide (field (laneRepairWord s n) 8 0 = lane)) with
  | some n => Config.lanes + n
  | none => lane

/-! ## MG_RING_CTX_BASE (R650) -/

/-- Refused while any ring is not DISABLED; contexts of the old region leave the cache. -/
def setCtxBase (x : W64) (s : State) : State :=
  if (createdRings s).any (fun r => !isCovered r) then mgIgnored s
  else
    let own := s.rings.cache.filter (fun e => !isCovered e.ring)
    let s1 := own.foldl (fun s e => writeBackCtx e s) s
    { s1 with cfg := { s1.cfg with ctxBase := BitVec.ofNat 40 (field x 63 24) },
              rings := { s1.rings with cache := s1.rings.cache.filter (fun e => isCovered e.ring) } }

/-! ## The management page (R638 to R653) -/

def powerCode : PowerState → Nat
  | .active => 0 | .gated => 1 | .retain => 2 | .off => 3 | .powerUp => 4 | .quiesce => 5 | .checkpoint => 6
  | .railOff => 7 | .holdup => 8

def mgtCode : MgtState → Nat
  | .active => 0 | .fenced => 1 | .resetting => 2 | .off => 3

def twinCode : TwinMode → Nat
  | .independent => 0 | .lockstep => 1 | .cover => 2

def unitStateWord (s : State) : Nat :=
  place s.cfg.wdogMs.toNat 16 + place (powerCode s.pwr.state) 8 + place (boolNat s.ctl.dbgHalt) 7
    + place (boolNat s.ctl.ringsLost) 6 + place (boolNat s.ctl.fatal) 5 + place (boolNat s.ctl.suspect) 4 + mgtCode s.ctl.state

def fenceWord (s : State) : Nat :=
  place (boolNat s.ctl.wedged) 3 + place (boolNat s.ctl.flushed) 2 + place (boolNat s.ctl.handover) 1 + boolNat s.ctl.fence

def twinWord (s : State) : Nat :=
  place (boolNat s.twin.clean) 5 + place (boolNat s.twin.covering) 4 + place (boolNat s.twin.lost) 3
    + place (boolNat s.twin.primary) 2 + twinCode s.twin.mode

def powerCtrlWord (s : State) : Nat :=
  place (boolNat s.cfg.autoOff) 11 + place s.cfg.floor.toNat 8 + place s.cfg.ceil.toNat 4 + place s.pwr.pending.toNat 2

def grantWord (s : State) : Nat :=
  place s.pwr.slots.toNat 24 + place (boolNat s.pwr.capUnmet) 23 + place (boolNat s.pwr.stretch) 22
    + place s.pwr.point.toNat 16 + s.pwr.grant.toNat

def keyLoadWord (s : State) : Nat :=
  place (boolNat s.mg.keyPartial.isSome) 31 + place s.mg.keyLast.toNat 29 + place s.mg.keyLastVi.toNat 16

def detCtrlWord (s : State) : Nat :=
  place s.cfg.trmPoint.toNat 4 + place (boolNat s.cfg.traceStall) 3 + place (boolNat s.det.replay) 2
    + place (boolNat s.det.trace) 1 + boolNat s.det.trm

def detStatusWord (s : State) : Nat :=
  place (boolNat s.det.trmActive) 3 + place (boolNat s.det.replayActive) 2 + place (boolNat s.det.traceActive) 1
    + boolNat s.det.diverged

def selectWord (s : State) (n : Nat) : Nat :=
  let e := evSelectOf s n
  place (boolNat e.allVi) 26 + place e.vi.toNat 16 + place (boolNat e.en) 8 + e.event.toNat

/-- A register of the management page by the offset of one of its words: first offset and width in words. -/
def mgRegister (off : Nat) : Option (Nat × Nat) :=
  if 0x8000 ≤ off ∧ off < 0x9000 then some (off / 8 * 8, 2)
  else if 0x0100 ≤ off ∧ off < 0x0180 then some (off / 16 * 16, 4)
  else if (0x0200 ≤ off ∧ off < 0x0240) ∨ (0x0040 ≤ off ∧ off < 0x0058) ∨ (0x0020 ≤ off ∧ off < 0x0028)
      ∨ (0x1080 ≤ off ∧ off < 0x1120) ∨ (0x1128 ≤ off ∧ off < 0x1130) then some (off / 8 * 8, 2)
  else if off ≤ 0x0038 ∨ off = 0x0058 ∨ off = 0x005C ∨ off = 0x0060 ∨ (0x0080 ≤ off ∧ off < 0x00C0)
      ∨ (0x1000 ≤ off ∧ off < 0x1040) ∨ off = 0x1120 then some (off, 1)
  else none

/-- The value of a register of the management page at its first offset. -/
def mgValue (s : State) (off : Nat) : Nat :=
  if off = 0x0000 then unitStateWord s
  else if off = 0x0004 then fenceWord s
  else if off = 0x0008 then twinWord s
  else if off = 0x000C then s.ctl.incarnation.toNat
  else if off = 0x0010 then powerCtrlWord s
  else if off = 0x0014 then grantWord s
  else if off = 0x0018 then s.cfg.quantum.toNat
  else if off = 0x001C then place (boolNat s.cfg.ownerValid) 31 + s.cfg.ownerVi.toNat
  else if off = 0x0020 then s.tabs.id.toNat
  else if off = 0x0028 then keyLoadWord s
  else if off = 0x002C then s.cfg.viSel.toNat
  else if off = 0x0030 then place (boolNat s.mg.viReset.isSome) 31
  else if off = 0x0034 then detCtrlWord s
  else if off = 0x0038 then detStatusWord s
  else if off = 0x0040 then place s.cfg.ctxBase.toNat 24
  else if off = 0x0048 then place s.cfg.coverBase.toNat 24
  else if off = 0x0050 then place s.cfg.traceBase.toNat 6
  else if off = 0x0058 then s.cfg.traceLog2.toNat
  else if off = 0x005C then s.det.wptr.toNat
  else if off = 0x0060 then place s.cfg.traceRptr.toNat 5
  else if 0x0080 ≤ off ∧ off < 0x00C0 then (laneRepairWord s ((off - 0x0080) / 4)).toNat
  else if 0x0100 ≤ off ∧ off < 0x0180 then (errSlot s ((off - 0x0100) / 16)).toNat
  else if 0x0200 ≤ off ∧ off < 0x0240 then
    match holderCmd s with
    | some rc => field rc.tumbler (8 * (off - 0x0200) + 63) (8 * (off - 0x0200))
    | none => 0
  else if 0x1000 ≤ off ∧ off < 0x1040 then selectWord s ((off - 0x1000) / 4)
  else if 0x1080 ≤ off ∧ off < 0x1120 then unitCounter s ((off - 0x1080) / 8)
  else if off = 0x1120 then boolNat s.cfg.freeze
  else if off = 0x1128 then s.ev.ovf.toNat
  else if 0x8000 ≤ off ∧ off < 0x9000 then viPageValue s s.cfg.viSel (off - 0x8000)
  else 0

/-- W1C bits of MG_UNIT_STATE, and WDOG_MS. -/
def writeUnitState (x : W128) (s : State) : State :=
  { s with cfg := { s.cfg with wdogMs := BitVec.ofNat 16 (field x 31 16) },
           ctl := { s.ctl with ringsLost := s.ctl.ringsLost && !bit x 6, fatal := s.ctl.fatal && !bit x 5,
                               suspect := s.ctl.suspect && !bit x 4 } }

/-- MG_FENCE as a whole. -/
def writeFence (x : W128) (s : State) : State :=
  if bit x 4 then resetUnit { s with ctl := { s.ctl with handover := bit x 1 } }
  else if bit x 0 then fenceSet (bit x 1) s else fenceClear (bit x 1) s

/-- MG_TWIN_MODE as a whole. -/
def writeTwin (x : W128) (s : State) : State :=
  let s1 := { s with twin := { s.twin with lost := s.twin.lost && !bit x 3 } }
  let fields (s : State) : State := { s with twin := { s.twin with primary := bit x 2, clean := bit x 5 } }
  match field x 1 0 with
  | 0 => setIndependent (fields s1)
  | 1 => setLockstep (bit x 2) (bit x 5) s1
  | 2 => setCover (bit x 5) (fields s1)
  | _ => mgIgnored s

/-- MG_POWER_CTRL as a whole. -/
def writePower (x : W128) (s : State) : State :=
  let fields (s : State) : State := powerFields (bit x 11) (BitVec.ofNat 3 (field x 10 8)) (BitVec.ofNat 3 (field x 6 4)) s
  match field x 1 0 with
  | 0 => fields s
  | 1 => powerOn (fields s)
  | 2 => powerOff (fields s)
  | _ => mgIgnored s

/-- MG_KEY_LOAD as a whole. -/
def writeKeyLoad (x : W128) (s : State) : State :=
  match field x 11 10 with
  | 0 => s
  | 1 => eraseKey (BitVec.ofNat 10 (field x 9 0)) s
  | 2 => eraseKeys s
  | _ => mgIgnored s

/-- An entry of the error log is freed by writing 1 to VALID. -/
def clearEntry (i : Nat) (x : W128) (s : State) : State :=
  if bit x 0 ∧ bit (errSlot s i) 0 then
    { s with log := { s.log with entries := spSet 0 s.log.entries i (errSlot s i - 1),
                                 age := s.log.age.filter (fun k => decide (k ≠ i)), pinned := setErase s.log.pinned i } }
  else s

/-- Whether recording or replay is in effect, so that the trace ring stays where it is (R651). -/
def traceHeld (s : State) : Bool := s.det.traceActive || s.det.replayActive

/-- A whole register of the management page is written at its first offset. -/
def mgWriteWhole (off : Nat) (x : W128) (s : State) : State :=
  let y : W64 := BitVec.ofNat 64 x.toNat
  let z : W32 := BitVec.ofNat 32 x.toNat
  if off = 0x0000 then writeUnitState x s
  else if off = 0x0004 then writeFence x s
  else if off = 0x0008 then writeTwin x s
  else if off = 0x0010 then writePower x s
  else if off = 0x0018 then { s with cfg := { s.cfg with quantum := BitVec.ofNat 16 (field x 15 0) } }
  else if off = 0x001C then
    { s with cfg := { s.cfg with ownerValid := bit x 31, ownerVi := BitVec.ofNat 10 (field x 9 0) } }
  else if off = 0x0028 then writeKeyLoad x s
  else if off = 0x002C then { s with cfg := { s.cfg with viSel := BitVec.ofNat 10 (field x 9 0) } }
  else if off = 0x0030 then resetVi (BitVec.ofNat 10 (field x 9 0)) s
  else if off = 0x0034 then detControl z s
  else if off = 0x0038 then { s with det := { s.det with diverged := s.det.diverged && !bit x 0 } }
  else if off = 0x0040 then setCtxBase y s
  else if off = 0x0048 then { s with cfg := { s.cfg with coverBase := BitVec.ofNat 40 (field x 63 24) } }
  else if off = 0x0050 then
    (if traceHeld s then mgIgnored s else { s with cfg := { s.cfg with traceBase := BitVec.ofNat 58 (field x 63 6) } })
  else if off = 0x0058 then
    (if traceHeld s || decide (field x 5 0 < 16) || decide (32 < field x 5 0) then mgIgnored s
     else { s with cfg := { s.cfg with traceLog2 := BitVec.ofNat 6 (field x 5 0) } })
  else if off = 0x0060 then traceRead z s
  else if 0x0100 ≤ off ∧ off < 0x0180 then clearEntry ((off - 0x0100) / 16) x s
  else if 0x0200 ≤ off ∧ off < 0x0240 then debugTumbler ((off - 0x0200) / 8) y s
  else if 0x1000 ≤ off ∧ off < 0x1040 then evSelectRow .mgmt ((off - 0x1000) / 4) z s
  else if 0x1080 ≤ off ∧ off < 0x1100 then evCountRow .mgmt ((off - 0x1080) / 8) y s
  else if off = 0x1120 then (if bit x 1 then evClearRow .mgmt (bit x 0) s else setFreeze (bit x 0) s)
  else if off = 0x1128 then clearOvf (field x 19 0) s
  else if 0x8000 ≤ off ∧ off < 0x9000 then viPageWrite .window (off - 0x8000) y s
  else mgIgnored s

/-- A word of a wide register is held; the highest one writes the register whole (R635). -/
def mgWriteWord (off : Nat) (w : W32) (s : State) : State :=
  match mgRegister off with
  | none => mgIgnored s
  | some (base, words) =>
    let k := (off - base) / 4
    let held : W128 := match s.mg.writeHold with
      | some (p, b, x) => if p = .mgmt ∧ b = base then x else 0
      | none => 0
    let now : W128 := BitVec.ofNat 128 (held.toNat % 2 ^ (32 * k) + place w.toNat (32 * k))
    if k + 1 = words then mgWriteWhole base now { s with mg := { s.mg with writeHold := none } }
    else { s with mg := { s.mg with writeHold := some (.mgmt, base, now) } }

/-- A register write: on MGT_REG a 32-bit word, on a VI page 64 bits. -/
def registerWriteRow (port : RegPort) (off : Nat) (x : W64) (s : State) : State :=
  match port with
  | .mgmt => if off % 4 = 0 then mgmtWrite (mgWriteWord off (BitVec.ofNat 32 x.toNat)) s else mgmtWrite mgIgnored s
  | .window => if off < 0x1000 then viPageWrite .window off x s else mgmtWrite mgIgnored s
  | .foreign _ => (reachPage port s).2
  | .page _ _ _ _ => if off < 0x1000 then viPageWrite port off x s else (reachPage port s).2

/-! ## Register reads (R634, R41, R598) -/

def answerRead (x : Nat) (s : State) : State := { s with readData := BitVec.ofNat 64 x }

/-- A word of the management page; the lowest word of a wide register captures it whole. -/
def mgReadWord (off : Nat) (s : State) : State :=
  match mgRegister off with
  | none => answerRead 0 s
  | some (base, words) =>
    let k := (off - base) / 4
    let now : W128 := BitVec.ofNat 128 (mgValue s base)
    let s1 := if k = 0 ∧ 1 < words then { s with mg := { s.mg with capture := some (.mgmt, base, now) } } else s
    let x := match s.mg.capture with
      | some (p, b, y) => if 0 < k ∧ p = .mgmt ∧ b = base then y else now
      | none => now
    answerRead (field x (32 * k + 31) (32 * k)) s1

/-- A register read; what is turned away reads zero. -/
def registerReadRow (port : RegPort) (off : Nat) (s : State) : State :=
  match port with
  | .mgmt => if mgmtAnswers s ∧ off % 4 = 0 then mgReadWord off (wake s) else answerRead 0 s
  | _ =>
    match reachPage port s with
    | (none, s1) => answerRead 0 s1
    | (some v, s1) => answerRead (if off < 0x1000 then viPageValue s1 v off else 0) s1

/-! ## The commands -/

/-- VI_TOLERANCE (R622): the access wakes the unit from a state that is now too deep. -/
def execViTolerance (port : RegPort) (data : W64) (s : State) : Host.Outcome State Fault Refusal := register (toleranceRow port data) s
/-- VI_RINGS (R465). -/
def execViRings (data : W64) (s : State) : Host.Outcome State Fault Refusal := register (ringsRow data) s
/-- VI_DIGEST_BASE (R524). -/
def execViDigestBase (port : RegPort) (data : W64) (s : State) : Host.Outcome State Fault Refusal := register (digestBaseRow port data) s
/-- EV_SELECT (R662). -/
def execEvSelect (port : RegPort) (n : Fin 16) (data : W32) (s : State) : Host.Outcome State Fault Refusal :=
  register (evSelectRow port n.val data) s
/-- EV_COUNT (R669). -/
def execEvCount (port : RegPort) (n : Fin 16) (data : W64) (s : State) : Host.Outcome State Fault Refusal :=
  command (evCountRow port n.val data) s
/-- EV_CTRL_CLEAR (R663). -/
def execEvCtrlClear (port : RegPort) (freeze : Bool) (s : State) : Host.Outcome State Fault Refusal :=
  register (evClearRow port freeze) s
/-- MG_KEY_ERASE_VI (R643). -/
def execMgKeyEraseVi (vi : ViId) (s : State) : Host.Outcome State Fault Refusal := command (mgmtWrite (eraseKey vi)) s
/-- MG_KEY_ERASE_ALL (R643). -/
def execMgKeyEraseAll (s : State) : Host.Outcome State Fault Refusal := command (mgmtWrite eraseKeys) s
/-- MGT_KEY_WORD (R644). -/
def execMgtKeyWord (vi : ViId) (word : W32) (s : State) : Host.Outcome State Fault Refusal := command (keyWord vi word) s
/-- MG_VI_RESET (R491). -/
def execMgViReset (vi : ViId) (s : State) : Host.Outcome State Fault Refusal := register (mgmtWrite (resetVi vi)) s
/-- MG_RING_CTX_BASE (R650). -/
def execMgRingCtxBase (data : W64) (s : State) : Host.Outcome State Fault Refusal := register (mgmtWrite (setCtxBase data)) s
/-- REGISTER_WRITE (R637). -/
def execRegisterWrite (port : RegPort) (offset : BitVec 16) (data : W64) (s : State) : Host.Outcome State Fault Refusal :=
  register (registerWriteRow port offset.toNat data) s
/-- REGISTER_READ (R634). -/
def execRegisterRead (port : RegPort) (offset : BitVec 16) (s : State) : Host.Outcome State Fault Refusal :=
  command (registerReadRow port offset.toNat) s

end Sys2Proof.Machine
end

