-- ==== Sys2Proof/Machine/Dispatch.lean ====
section
/-! DEFINITION. What each command does: one arm per constructor, each one call of its meaning. -/

namespace Sys2Proof.Machine

def exec (i : Instr) (s : State) : Host.Outcome State Fault Refusal :=
  match i with
  | .nop => Sys2Proof.Machine.execNop s
  | .chain run => Sys2Proof.Machine.execChain run s
  | .chainAcc run => Sys2Proof.Machine.execChainAcc run s
  | .norm run => Sys2Proof.Machine.execNorm run s
  | .softmaxStep run => Sys2Proof.Machine.execSoftmaxStep run s
  | .softmaxFinal run => Sys2Proof.Machine.execSoftmaxFinal run s
  | .select run => Sys2Proof.Machine.execSelect run s
  | .sample => Sys2Proof.Machine.execSample s
  | .compress run => Sys2Proof.Machine.execCompress run s
  | .expand run => Sys2Proof.Machine.execExpand run s
  | .scatterBuckets run => Sys2Proof.Machine.execScatterBuckets run s
  | .quantiseMx run => Sys2Proof.Machine.execQuantise run s
  | .rowstatOpen => Sys2Proof.Machine.execRowstatOpen s
  | .rowstatClose => Sys2Proof.Machine.execRowstatClose s
  | .rowstatSpill => Sys2Proof.Machine.execRowstatSpill s
  | .rowstatFill => Sys2Proof.Machine.execRowstatFill s
  | .hingeSend => Sys2Proof.Machine.execHingeSend s
  | .hingeSendLoad => Sys2Proof.Machine.execHingeSendLoad s
  | .hingeWait => Sys2Proof.Machine.execHingeWait s
  | .tableLoad => Sys2Proof.Machine.execTableLoad s
  | .tableSwap => Sys2Proof.Machine.execTableSwap s
  | .fence => Sys2Proof.Machine.execFence s
  | .eventSignal => Sys2Proof.Machine.execEventSignal s
  | .eventWait => Sys2Proof.Machine.execEventWait s
  | .digestSeal => Sys2Proof.Machine.execDigestSeal s
  | .counterSnap => Sys2Proof.Machine.execCounterSnap s
  | .accPeek => Sys2Proof.Machine.execAccPeek s
  | .viDoorbell port data => Sys2Proof.Machine.execViDoorbell port data s
  | .create port ring => Sys2Proof.Machine.execCreate port ring s
  | .resume port ring => Sys2Proof.Machine.execResume port ring s
  | .pause port ring => Sys2Proof.Machine.execPause port ring s
  | .destroy port ring => Sys2Proof.Machine.execDestroy port ring s
  | .viTumblerInval port data => Sys2Proof.Machine.execViTumblerInval port data s
  | .viTolerance port data => Sys2Proof.Machine.execViTolerance port data s
  | .viRings data => Sys2Proof.Machine.execViRings data s
  | .viDigestBase port data => Sys2Proof.Machine.execViDigestBase port data s
  | .evSelect port n data => Sys2Proof.Machine.execEvSelect port n data s
  | .evCount port n data => Sys2Proof.Machine.execEvCount port n data s
  | .evCtrlClear port freeze => Sys2Proof.Machine.execEvCtrlClear port freeze s
  | .mgFenceSet handover => Sys2Proof.Machine.execMgFenceSet handover s
  | .mgFenceClear handover => Sys2Proof.Machine.execMgFenceClear handover s
  | .mgFenceReset fence handover => Sys2Proof.Machine.execMgFenceReset fence handover s
  | .unitStop flushEnds => Sys2Proof.Machine.execUnitStop flushEnds s
  | .stopAbortTimeout => Sys2Proof.Machine.execStopAbortTimeout s
  | .flushTimeout => Sys2Proof.Machine.execFlushTimeout s
  | .rstN lowMclk => Sys2Proof.Machine.execRstN lowMclk s
  | .resetSequenceEnd => Sys2Proof.Machine.execResetSequenceEnd s
  | .mgTwinModeLockstep primary clean => Sys2Proof.Machine.execMgTwinModeLockstep primary clean s
  | .mgTwinModeCover clean => Sys2Proof.Machine.execMgTwinModeCover clean s
  | .mgTwinModeIndependent => Sys2Proof.Machine.execMgTwinModeIndependent s
  | .twinAliveTimeout => Sys2Proof.Machine.execTwinAliveTimeout s
  | .twinSignature signature => Sys2Proof.Machine.execTwinSignature signature s
  | .mgPowerReqOff autoOff floor ceil => Sys2Proof.Machine.execMgPowerReqOff autoOff floor ceil s
  | .mgPowerReqOn autoOff floor ceil => Sys2Proof.Machine.execMgPowerReqOn autoOff floor ceil s
  | .pwrRailAck level => Sys2Proof.Machine.execPwrRailAck level s
  | .powerUpDone => Sys2Proof.Machine.execPowerUpDone s
  | .mgKeyEraseVi vi => Sys2Proof.Machine.execMgKeyEraseVi vi s
  | .mgKeyEraseAll => Sys2Proof.Machine.execMgKeyEraseAll s
  | .mgtKeyWord vi word => Sys2Proof.Machine.execMgtKeyWord vi word s
  | .mgViReset vi => Sys2Proof.Machine.execMgViReset vi s
  | .mgDetCtrl data => Sys2Proof.Machine.execMgDetCtrl data s
  | .quiescentPoint => Sys2Proof.Machine.execQuiescentPoint s
  | .mgTraceRptr data => Sys2Proof.Machine.execMgTraceRptr data s
  | .replayDivergeTimeout => Sys2Proof.Machine.execReplayDivergeTimeout s
  | .mgDbgTumbler stage data => Sys2Proof.Machine.execMgDbgTumbler stage data s
  | .debugHalt chipDebug halt => Sys2Proof.Machine.execDebugHalt chipDebug halt s
  | .mgRingCtxBase data => Sys2Proof.Machine.execMgRingCtxBase data s
  | .registerWrite port offset data => Sys2Proof.Machine.execRegisterWrite port offset data s
  | .arbitrate error => Sys2Proof.Machine.execArbitrate error s
  | .quantumExpiry => Sys2Proof.Machine.execQuantumExpiry s
  | .contextReadReturn ring error => Sys2Proof.Machine.execContextReadReturn ring error s
  | .commandFetchReturn read => Sys2Proof.Machine.execCommandFetchReturn read s
  | .tumblerFetchReturn vi read => Sys2Proof.Machine.execTumblerFetchReturn vi read s
  | .blockedWaitEnd ring => Sys2Proof.Machine.execBlockedWaitEnd ring s
  | .eventWaitTimeout ring => Sys2Proof.Machine.execEventWaitTimeout ring s
  | .tableLoadDone => Sys2Proof.Machine.execTableLoadDone s
  | .tableSwapApply => Sys2Proof.Machine.execTableSwapApply s
  | .drnBeat beat => Sys2Proof.Machine.execDrnBeat beat s
  | .shfAck status => Sys2Proof.Machine.execShfAck status s
  | .shiftAckTimeout => Sys2Proof.Machine.execShiftAckTimeout s
  | .shiftQueueSpace => Sys2Proof.Machine.execShiftQueueSpace s
  | .hingePartial packet => Sys2Proof.Machine.execHingePartial packet s
  | .hingeFinal packet => Sys2Proof.Machine.execHingeFinal packet s
  | .finalCommit chain => Sys2Proof.Machine.execFinalCommit chain s
  | .hingeRetract packet => Sys2Proof.Machine.execHingeRetract packet s
  | .hingeNack packet => Sys2Proof.Machine.execHingeNack packet s
  | .hingeProbe packet => Sys2Proof.Machine.execHingeProbe packet s
  | .epochAheadResend chain => Sys2Proof.Machine.execEpochAheadResend chain s
  | .probeRetryTimer chain => Sys2Proof.Machine.execProbeRetryTimer chain s
  | .chainTimeout chain => Sys2Proof.Machine.execChainTimeout chain s
  | .hngTxCredit credits => Sys2Proof.Machine.execHngTxCredit credits s
  | .watchdogExpiry => Sys2Proof.Machine.execWatchdogExpiry s
  | .scrub word found => Sys2Proof.Machine.execScrub word found s
  | .pwrDroop level => Sys2Proof.Machine.execPwrDroop level s
  | .droopWindowEnd => Sys2Proof.Machine.execDroopWindowEnd s
  | .powerWindow measured stepUp => Sys2Proof.Machine.execPowerWindow measured stepUp s
  | .pwrOpAck => Sys2Proof.Machine.execPwrOpAck s
  | .mgtGrant grant => Sys2Proof.Machine.execMgtGrant grant s
  | .grantZeroGate => Sys2Proof.Machine.execGrantZeroGate s
  | .pwrThrottle level => Sys2Proof.Machine.execPwrThrottle level s
  | .throttleStep => Sys2Proof.Machine.execThrottleStep s
  | .thmSenseUpdate s0 s1 s2 s3 => Sys2Proof.Machine.execThmSenseUpdate s0 s1 s2 s3 s
  | .idleTimer => Sys2Proof.Machine.execIdleTimer s
  | .powerStateExitDone => Sys2Proof.Machine.execPowerStateExitDone s
  | .pwrHoldup => Sys2Proof.Machine.execPwrHoldup s
  | .holdupCheckpointDone => Sys2Proof.Machine.execHoldupCheckpointDone s
  | .pwrRestored => Sys2Proof.Machine.execPwrRestored s
  | .tstModeReq => Sys2Proof.Machine.execTstModeReq s
  | .testWipeDone => Sys2Proof.Machine.execTestWipeDone s
  | .powerLoss => Sys2Proof.Machine.execPowerLoss s
  | .powerStateEntryDone => Sys2Proof.Machine.execPowerStateEntryDone s
  | .registerRead port offset => Sys2Proof.Machine.execRegisterRead port offset s

end Sys2Proof.Machine
end

