-- ==== Sys2Proof/Machine/Step.lean ====
section
/-! DEFINITION. One step of the block: the command at the front of the queue; an empty queue idles (log entry 10). -/

namespace Sys2Proof.Machine

/-- The state with only the queue exchanged. -/
def State.withPending (s : State) (q : List Instr) : State := { s with pending := q }

/-- The front command runs with the queue's rest; the commands' order is the order of their arrival. -/
def step (s : State) : Host.Outcome State Fault Refusal :=
  match s.pending with
  | [] => .next s
  | c :: rest => exec c (s.withPending rest)

/-- The state with the command that a word spells at the front of its queue; no word spells one. -/
def State.withFetchWord (s : State) (nbits w : Nat) : State :=
  match decodeTableWord nbits w with
  | some c => s.withPending (c :: s.pending)
  | none => s

end Sys2Proof.Machine
end

