-- ==== Sys2Proof/Safety.lean ====
section
/-! DEFINITION. What counts as a safe run, in the terms that claims use: a step that goes on, and the register fields that
never hold a reserved encoding (R637), and what a completed command leaves. -/

namespace Sys2Proof.Machine

/-- A step that neither faults nor is refused. -/
def StepsTo (s t : State) : Prop := step s = .next t

/-- States that a run of steps reaches. -/
inductive Reaches (s : State) : State → Prop where
  | start : Reaches s s
  | more (t u : State) (before : Reaches s t) (last : StepsTo t u) : Reaches s u

/-- VI_MODE holds no reserved encoding of RND or REFPOL (R655). -/
def modeLegal (m : ViMode) : Bool := decide (m.rnd.toNat < 5) && decide (m.refpol.toNat < 3)

/-- EV_SELECTn holds an event of R665. -/
def selectLegal (e : EvSelect) : Bool := eventKnown e.event.toNat

/-- No field that software sets holds a reserved encoding: TRM_POINT (R516), the trace ring's size (R651), VI_MODE
(R655), the event selections (R660). -/
def cfgLegal (c : Cfg) : Bool :=
  decide (2 ≤ c.trmPoint.toNat) && decide (16 ≤ c.traceLog2.toNat) && decide (c.traceLog2.toNat ≤ 32)
    && c.vi.all (fun x => modeLegal x.2.mode) && c.select.all (fun x => selectLegal x.2)

/-- What a ring command leaves as it is that reaches neither the drain, the shift port nor the tables: the queue, all that
software sets, the unit's control state, power, the error log, the drain, the shift port, the tables, the twin mode. -/
structure Frame (s t : State) : Prop where
  pending  : t.pending = s.pending
  cfg      : t.cfg = s.cfg
  readData : t.readData = s.readData
  ctl      : t.ctl = s.ctl
  pwr      : t.pwr = s.pwr
  log      : t.log = s.log
  drain    : t.drain = s.drain
  shift    : t.shift = s.shift
  tabs     : t.tabs = s.tabs
  mode     : t.twin.mode = s.twin.mode
  primary  : t.twin.primary = s.twin.primary

/-! ## Passes -/

/-- The command once its checks have passed. -/
def passed (rc : RunCmd) : RunCmd := { rc with prog := { rc.prog with checked := true } }

/-- The command and the state when the vectors of its pass have all run, from memory and registers, and what was held back has
been written (R120, R175). -/
def passEnd (k : PassKind) (rc : RunCmd) (s : State) : RunCmd × State :=
  let b := beginPass k rc s
  let r := runVectors k (psVectors b.1) b.1 b.2
  endPass r.1 r.2

/-- A byte of the runs that a command notes as it writes: descriptor, space, address, length (R529). -/
def inRuns (l : List (Nat × Space × Nat × Nat)) (sp : Space) (a : Nat) : Prop :=
  ∃ r ∈ l, r.2.1 = sp ∧ ∃ i < r.2.2.2, spaceAddr sp a = spaceAddr sp (r.2.2.1 + i)

/-- A handle of a packet's range. -/
def inRange (p : BitVec 512) (h : Nat) : Prop := pkRow0 p ≤ h ∧ h < pkRow0 p + pkRows p

/-- A pass that takes its vectors from memory and registers alone, traps no NaN, holds back no beat and has not ended. -/
structure RunsOn (rc : RunCmd) : Prop where
  drains : psDrains rc = false
  trap   : rc.latched.nanTrap = false
  held   : rc.prog.heldBeats = []
  ended  : rc.prog.ended = none

/-- No other ring can come between the vectors of a pass: its ring has no registers to be saved, or no segment boundary falls
inside it (R482). -/
def oneSegment (s : State) (rc : RunCmd) : Prop :=
  hasRegs (ctxOfRing s rc.ring) = false ∨ ∀ v < psVectors rc, isBoundary rc v = false

/-! ## Completions -/

/-- A byte of the notification word of a command (R470). -/
def notifyHolds (c : RingCtx) (rc : RunCmd) (a : Nat) : Prop :=
  pkNotify rc.packet = true ∧ c.notify ≠ 0 ∧ ∃ i < 8, spaceAddr .device a = spaceAddr .device (c.notify.toNat + i)

/-- A byte of device memory that a command's completion writes: of its record (R456) or of its notification word. -/
def cplHolds (c : RingCtx) (rc : RunCmd) (sp : Space) (a : Nat) : Prop :=
  sp = .device ∧ ((∃ i < 32, spaceAddr .device a = spaceAddr .device (cplAddr c c.cpli.toNat + i)) ∨ notifyHolds c rc a)

/-- A packet that names no chain, or whose opcode's completion does nothing to the chain that it names (R341, R352, R383). -/
def chainless (p : BitVec 512) : Prop := pkChv p = false ∨ pkOpcode p ∉ [0x01, 0x02, 0x03, 0x05, 0x06, 0x07, 0x19]

/-- Nothing else is asked of the ring when its command completes with a status: no action waits for it, and HALT does not
name the status (R469). -/
def plainEnd (s : State) (rc : RunCmd) (st : Status) : Prop :=
  ringDeferred s rc.ring = none ∧ bit (ctxOfRing s rc.ring).halt (statusCode st) = false

/-- From `s` to `t` the command `rc` has completed with the completion `x`: it is gone and no longer holds the chain; and, where
nothing else is asked of its ring, its record stands at index CPLI with the time of writing and its PHASE (R456, R463), its
notification word holds its index (R470), CPLI has moved by one, and its ring is READY or IDLE (R469). The secondary of a
LOCKSTEP pair writes neither (R565). -/
structure Completed (s t : State) (rc : RunCmd) (x : Cpl) : Prop where
  gone   : cmdOf t rc.ring = none
  free   : t.rings.holder = if s.rings.holder = some rc.ring then none else s.rings.holder
  record : plainEnd s rc x.status → isSecondary s = false → ∀ i < 32,
    ¬ notifyHolds (ctxOfRing s rc.ring) rc (cplAddr (ctxOfRing s rc.ring) (ctxOfRing s rc.ring).cpli.toNat + i) →
    readByte t .device (cplAddr (ctxOfRing s rc.ring) (ctxOfRing s rc.ring).cpli.toNat + i)
      = (cplBytes x (cplPhase (ctxOfRing s rc.ring) (ctxOfRing s rc.ring).cpli.toNat) t.tclk.toNat).getD i 0
  word   : plainEnd s rc x.status → isSecondary s = false → pkNotify rc.packet = true →
    (ctxOfRing s rc.ring).notify ≠ 0 → ∀ i < 8,
    readByte t .device ((ctxOfRing s rc.ring).notify.toNat + i) = (natBytes 8 rc.seq.toNat).getD i 0
  ring   : plainEnd s rc x.status →
    ctxOfRing t rc.ring = { ctxOfRing s rc.ring with
      cpli := (ctxOfRing s rc.ring).cpli + 1
      state := if (ctxOfRing s rc.ring).head = (ctxOfRing s rc.ring).tail then .idle else .ready }

/-- From `s` to `t` the command `rc` has come to wait for `w`: its ring is BLOCKED and the chain is free (R469); nothing else
changes. -/
structure Blocked (s t : State) (rc : RunCmd) (w : Wait) : Prop where
  state : (ctxOfRing t rc.ring).state = .blocked
  cmd   : ∃ rc', cmdOf t rc.ring = some rc' ∧ rc'.phase = .blocked false ∧ rc'.wait = w ∧ rc'.packet = rc.packet ∧ rc'.seq = rc.seq
  free  : t.rings.holder = none
  frame : Frame s t
  slots : t.slots = s.slots
  bytes : ∀ sp a, readByte t sp a = readByte s sp a

end Sys2Proof.Machine
end

