-- ==== Sys2Proof/WellFormed.lean ====
section
/-! DEFINITION. Which operands a command can carry: the bounds that the spec gives the pins, packets and registers that a
command stands for. A command of another form stands for nothing that happens at the boundary. -/

namespace Sys2Proof

/-- Rings of this unit, then those of the covered twin (R462, R570). -/
def wfRing (ring : Nat) : Bool := decide (ring < 2 * Config.ringCount)

/-- Whether a port reaches VI pages at all: MGT_REG does so only through the window (R646). -/
def wfPagePort : RegPort → Bool
  | .mgmt => false
  | _ => true

/-- A hardware error names a place that its structure has (R537, R540). -/
def wfError : HwError → Bool
  | .corrected _ _ => true
  | .staging first n => decide (0 < n) && decide (first + n ≤ 2 * Config.lanes)
  | .hingeInput c m _ => decide (c < 1024) && decide (m < 65536)
  | .vectorContext reg lane => decide (reg < 32) && decide (lane < Config.lanes)
  | .contextCache r => wfRing r
  | .tumblerCache _ a => decide (a.toNat % 64 = 0)
  | .chainDescriptor c => decide (c < 1024)
  | .traceBuffer => true
  | .digestState => true
  | .trapRecord _ => true
  | .curveMultiplier _ => true
  | .exactAdder h => decide (h < Config.rowSlots)
  | .stageRegister _ => true
  | .sequencer => true
  | .laneFailed _ => true
  | .memoryResponse => true

def wfErrorOpt : Option HwError → Bool
  | none => true
  | some e => wfError e

def wfRun (run : Run) : Bool := wfErrorOpt run.error

/-- A beat carries at most one value for each lane (R28). -/
def wfBeat (b : Beat) : Bool := decide (b.lanes.length ≤ Config.lanes)

/-- A packet carries at most 512 payload bytes (R331), of the type of its row or a reserved type (R334). -/
def wfPacket (type : Nat) (p : HingePacket) : Bool :=
  decide (p.payload.length ≤ 512) && (decide (p.header.toNat % 8 = type) || decide (5 ≤ p.header.toNat % 8))

/-- The word that the scrubber reads exists (R539). -/
def wfScrub : ScrubWord → Bool
  | .rowStore h _ => decide (h < Config.rowSlots)
  | .tableStore _ e => decide (e < 12288)

/-- The commands that can happen. -/
def Instr.wellFormed : Instr → Bool
  | .nop => true
  | .chain run => wfRun run
  | .chainAcc run => wfRun run
  | .norm run => wfRun run
  | .softmaxStep run => wfRun run
  | .softmaxFinal run => wfRun run
  | .select run => wfRun run
  | .sample => true
  | .compress run => wfRun run
  | .expand run => wfRun run
  | .scatterBuckets run => wfRun run
  | .quantiseMx run => wfRun run
  | .rowstatOpen => true
  | .rowstatClose => true
  | .rowstatSpill => true
  | .rowstatFill => true
  | .hingeSend => true
  | .hingeSendLoad => true
  | .hingeWait => true
  | .tableLoad => true
  | .tableSwap => true
  | .fence => true
  | .eventSignal => true
  | .eventWait => true
  | .digestSeal => true
  | .counterSnap => true
  | .accPeek => true
  | .viDoorbell port _ => wfPagePort port
  | .create port _ => wfPagePort port
  | .resume port _ => wfPagePort port
  | .pause port _ => wfPagePort port
  | .destroy port _ => wfPagePort port
  | .viTumblerInval port _ => wfPagePort port
  | .viTolerance port _ => wfPagePort port
  | .viRings _ => true
  | .viDigestBase port _ => wfPagePort port
  | .evSelect _ _ _ => true
  | .evCount _ _ _ => true
  | .evCtrlClear _ _ => true
  | .mgFenceSet _ => true
  | .mgFenceClear _ => true
  | .mgFenceReset _ _ => true
  | .unitStop _ => true
  | .stopAbortTimeout => true
  | .flushTimeout => true
  | .rstN _ => true
  | .resetSequenceEnd => true
  | .mgTwinModeLockstep _ _ => true
  | .mgTwinModeCover _ => true
  | .mgTwinModeIndependent => true
  | .twinAliveTimeout => true
  | .twinSignature _ => true
  | .mgPowerReqOff _ _ _ => true
  | .mgPowerReqOn _ _ _ => true
  | .pwrRailAck _ => true
  | .powerUpDone => true
  | .mgKeyEraseVi _ => true
  | .mgKeyEraseAll => true
  | .mgtKeyWord _ _ => true
  | .mgViReset _ => true
  | .mgDetCtrl _ => true
  | .quiescentPoint => true
  | .mgTraceRptr _ => true
  | .replayDivergeTimeout => true
  | .mgDbgTumbler _ _ => true
  | .debugHalt _ _ => true
  | .mgRingCtxBase _ => true
  | .registerWrite _ _ _ => true
  | .arbitrate error => wfErrorOpt error
  | .quantumExpiry => true
  | .contextReadReturn ring error => wfRing ring && wfErrorOpt error
  | .commandFetchReturn read => wfRing read.ring && wfErrorOpt read.error
  | .tumblerFetchReturn _ read => decide (read.address.toNat % 64 = 0) && wfErrorOpt read.error
  | .blockedWaitEnd ring => wfRing ring
  | .eventWaitTimeout ring => wfRing ring
  | .tableLoadDone => true
  | .tableSwapApply => true
  | .drnBeat beat => wfBeat beat
  | .shfAck _ => true
  | .shiftAckTimeout => true
  | .shiftQueueSpace => true
  | .hingePartial packet => wfPacket 0 packet
  | .hingeFinal packet => wfPacket 1 packet
  | .finalCommit _ => true
  | .hingeRetract packet => wfPacket 2 packet
  | .hingeNack packet => wfPacket 3 packet
  | .hingeProbe packet => wfPacket 4 packet
  | .epochAheadResend _ => true
  | .probeRetryTimer _ => true
  | .chainTimeout _ => true
  | .hngTxCredit _ => true
  | .watchdogExpiry => true
  | .scrub word _ => wfScrub word
  | .pwrDroop _ => true
  | .droopWindowEnd => true
  | .powerWindow _ _ => true
  | .pwrOpAck => true
  | .mgtGrant _ => true
  | .grantZeroGate => true
  | .pwrThrottle _ => true
  | .throttleStep => true
  | .thmSenseUpdate _ _ _ _ => true
  | .idleTimer => true
  | .powerStateExitDone => true
  | .pwrHoldup => true
  | .holdupCheckpointDone => true
  | .pwrRestored => true
  | .tstModeReq => true
  | .testWipeDone => true
  | .powerLoss => true
  | .powerStateEntryDone => true
  | .registerRead _ _ => true

end Sys2Proof
end

