-- ==== Sys2Proof/Certificates/Slice0/Obligations.lean ====
section
/-! DEFINITION. The statements for the provers, and the notions that they share. -/

namespace Sys2Proof.Claims

open Sys2Proof Sys2Proof.Machine

/-! ## Ring commands -/

/-- The started command `rc` of opcode `op` holds the chain, which issues, and the context of its ring is in the cache
(R469, R476). -/
structure Issues (s : State) (rc : RunCmd) (op : Nat) : Prop where
  issues  : mayIssue s = true
  held    : holderCmd s = some rc
  running : rc.phase = .running
  opcode  : pkOpcode rc.packet = op
  cached  : (cacheEntry s rc.ring).isSome

/-- The command has not been checked yet, and every check of R454 passes. -/
structure Passes (s : State) (rc : RunCmd) : Prop where
  unchecked : rc.prog.checked = false
  good      : verdict s rc = .good

/-- The command's checks have passed, now or when it started. -/
def Cleared (s : State) (rc : RunCmd) : Prop := rc.prog.checked = true ∨ verdict s rc = .good

/-- The completion of a command that ends without a failure of its own. -/
def okCpl (rc : RunCmd) (result count : Nat) : Cpl :=
  { seq := rc.seq.toNat, status := finalStatus rc .ok, flags := rc.prog.flags, detail := 0, result := result, count := count }

/-- The completion of a command turned away by a check. -/
def refusedCpl (rc : RunCmd) (st : Status) (detail : Nat) : Cpl :=
  { seq := rc.seq.toNat, status := st, flags := rc.prog.flags, detail := detail, result := 0, count := 0 }

/-- The opcode of a ring command's row; HINGE_SEND and its load form share one. -/
def ringOpcode : Instr → Option Nat
  | .nop => some 0x00 | .chain _ => some 0x01 | .chainAcc _ => some 0x02 | .norm _ => some 0x03 | .softmaxStep _ => some 0x04
  | .softmaxFinal _ => some 0x05 | .select _ => some 0x06 | .sample => some 0x07 | .compress _ => some 0x08
  | .expand _ => some 0x09 | .scatterBuckets _ => some 0x0A | .quantiseMx _ => some 0x0B | .rowstatOpen => some 0x10
  | .rowstatClose => some 0x11 | .rowstatSpill => some 0x12 | .rowstatFill => some 0x13 | .hingeSend => some 0x18
  | .hingeSendLoad => some 0x18 | .hingeWait => some 0x19 | .tableLoad => some 0x20 | .tableSwap => some 0x21
  | .fence => some 0x28 | .eventSignal => some 0x29 | .eventWait => some 0x2A | .digestSeal => some 0x30
  | .counterSnap => some 0x31 | .accPeek => some 0x38 | _ => none

/-- Whether a packet is of the form that a row stands for: F0 tells HINGE_SEND from its load form (R321). -/
def ofForm : Instr → BitVec 512 → Bool
  | .hingeSend, p => !pkF0 p
  | .hingeSendLoad, p => pkF0 p
  | _, _ => true

/-- The command completes: the step goes on to `t`, in which `rc` has completed with `x` and the rest of the unit stands. -/
def Ends (c : Instr) (s t : State) (rc : RunCmd) (x : Cpl) : Prop := exec c s = .next t ∧ Completed s t rc x ∧ Frame s t

/-- No byte changes but those of the command's own completion. -/
def OnlyCompletion (s t : State) (rc : RunCmd) (st : Status) : Prop :=
  plainEnd s rc st → chainless rc.packet → pkRecord rc.packet = false →
    ∀ sp a, ¬ cplHolds (ctxOfRing s rc.ring) rc sp a → readByte t sp a = readByte s sp a

/-- The step goes on to `t`, in which the command waits for `w` and its ring is BLOCKED. -/
def Waits (c : Instr) (s t : State) (rc : RunCmd) (w : Wait) : Prop := exec c s = .next t ∧ Blocked s t rc w

/-- A command that has just started: nothing done, nothing noted. -/
def Fresh (rc : RunCmd) : Prop := rc.prog = Progress.zero ∧ rc.failed = none ∧ rc.tainted = false

/-- The completion of a command from what it has come to: its status (R458), its flags, DETAIL where the status has one. -/
def endCpl (rc : RunCmd) (base : Status) (detail result count : Nat) : Cpl :=
  { seq := rc.seq.toNat, status := finalStatus rc base, flags := rc.prog.flags,
    detail := match finalStatus rc base with
      | .badCommand => detail
      | .errorContained => detail
      | _ => 0
    result := result, count := count }

/-- Where descriptor `d` of a command points: its space and its base. -/
def descAt (rc : RunCmd) (d : Nat) : Space × Nat := (descSpace rc (descOf rc d), dBase (descOf rc d))

/-- The bytes stand at descriptor `d` but where the completion lies over them. -/
def Stands (s t : State) (rc : RunCmd) (st : Status) (d : Nat) (bs : List Byte) : Prop :=
  plainEnd s rc st → chainless rc.packet → pkRecord rc.packet = false → isSecondary s = false →
    ∀ i < bs.length, ¬ cplHolds (ctxOfRing s rc.ring) rc (descAt rc d).1 ((descAt rc d).2 + i) →
      readByte t (descAt rc d).1 ((descAt rc d).2 + i) = bs.getD i 0

/-- A slot holds `y`; where the command's digest record is linked, DLINK holds the link (R533). -/
def Holds (rc : RunCmd) (x y : Slot) : Prop :=
  x = { y with dlink := x.dlink } ∧ (pkRecord rc.packet = false ∨ pkLink rc.packet = false → x.dlink = y.dlink)

/-- The rows of the command's range hold `f`, and every other slot stands. -/
def RowsHold (s t : State) (rc : RunCmd) (f : Nat → Slot) : Prop :=
  (∀ r < pkRows rc.packet, Holds rc (slotAt t (pkRow0 rc.packet + r)) (f r))
    ∧ ∀ h, ¬ inRange rc.packet h → slotAt t h = slotAt s h

/-! ## Passes -/

/-- A command just started whose pass can run from memory and registers to its end in one step: its checks pass, nothing bars it
(R537, R574), and no other ring can come between its vectors (R482). -/
structure PassReady (s : State) (rc : RunCmd) (op : Nat) : Prop extends Issues s rc op, Passes s rc where
  fresh    : Fresh rc
  unbarred : barred s (passed rc) = false
  drains   : psDrains rc = false
  whole    : oneSegment s rc

/-- The same for a pass from the drain whose beats are all in the queue. -/
structure DrainReady (s : State) (rc : RunCmd) (op : Nat) : Prop extends Issues s rc op, Passes s rc where
  fresh    : Fresh rc
  unbarred : barred s (passed rc) = false
  drains   : psDrains rc = true
  beats    : psVectors rc ≤ s.drain.queue.length
  whole    : oneSegment s rc

/-- The whole pass in one step, with no hardware error. -/
def wholeRun : Run := ⟨none, none⟩

/-- The result word of a command that the trap ends: of one that places records in buckets, those that overflowed (R405). -/
def trapWord (e : RunCmd × State) : Nat := if psBuckets e.1 then e.1.prog.overflowed else trapResult e.1 e.2

/-- A pass ends as `x` says of what its vectors leave, or TRAP_NAN with the result word and the count so far when the trap ends it
(R456, R551); without the trap it does not end early. -/
def PassEnds (c : Instr) (k : PassKind) (s t : State) (rc : RunCmd) (x : RunCmd × State → Cpl) : Prop :=
  ((passEnd k (passed rc) s).1.prog.ended = none → Ends c s t rc (x (passEnd k (passed rc) s)))
    ∧ ((passEnd k (passed rc) s).1.prog.ended = some .trapNan →
        Ends c s t rc (endCpl (passEnd k (passed rc) s).1 .trapNan 0 (trapWord (passEnd k (passed rc) s))
          (trapCount (passEnd k (passed rc) s).1)))
    ∧ ((passEnd k (passed rc) s).1.prog.ended = none ∨ (passEnd k (passed rc) s).1.prog.ended = some .trapNan)
    ∧ (rc.latched.nanTrap = false → (passEnd k (passed rc) s).1.prog.ended = none)

/-- The rows whose command is one pass: opcode and pass. -/
def passOf : Instr → Option (Nat × PassKind)
  | .chain _ => some (0x01, plainPass) | .chainAcc _ => some (0x02, plainPass) | .softmaxStep _ => some (0x04, softPass)
  | .select _ => some (0x06, selectPass) | .compress _ => some (0x08, plainPass) | .expand _ => some (0x09, plainPass)
  | .quantiseMx _ => some (0x0B, plainPass) | _ => none

/-- The step that a row's command takes of its pass. -/
def runOf : Instr → Run
  | .chain r | .chainAcc r | .softmaxStep r | .select r | .compress r | .expand r | .quantiseMx r => r
  | _ => wholeRun

/-- Bytes that COMPRESS (counts of rows) and QUANTISE_MX (summary, when it has a place for it) write at descriptor 5. -/
def summaryBytes (c : Instr) (e : RunCmd) : List Byte :=
  match c with
  | .compress _ => (List.range (psR e)).flatMap (fun r => natBytes 4 (spGet 0 e.prog.kept r))
  | .quantiseMx _ => if (pkDmask e.packet).testBit 5 then quantiseSummary e else []
  | _ => []

/-! ## Rows finalised, records, chains -/

/-- The flags of some rows together. -/
def flagsOf (n : Nat) (f : Nat → Byte) : Byte := (List.range n).foldl (fun a r => a ||| f r) 0

/-- The status of a command that meets flags and poison alone (R458, R459). -/
def metStatus (flags : Byte) (poison : Bool) : Status := if poison then .poisonInput else if flags = 0 then .ok else .okFlags

/-- What is left of the apply pass of NORM or SOFTMAX_FINAL, whose rows have been finalised as `f` says. -/
def applyEnd (f : RunCmd × State) : RunCmd × State :=
  let rc := { f.1 with prog := { f.1.prog with finalised := true, count := pkRows f.1.packet } }
  let l := writeLse { rc with wait := .nothing } (setCmd f.2 rc)
  passEnd plainPass l.1 l.2

/-- A command that waits for FINAL. -/
def consumers : Instr → Option Nat
  | .norm _ => some 0x03 | .softmaxFinal _ => some 0x05 | .sample => some 0x07 | .hingeWait => some 0x19 | _ => none

/-- HINGE_WAIT where it takes no FINAL: at the keystone of a chain of KIND 3, where SAMPLE does (R385). -/
def noFinalHere (c : Instr) (d : ChainDesc) : Prop := c = .hingeWait ∧ d.valid = true ∧ cdKind d.image = 3 ∧ cdIsKeystone d.image = true

/-- SCATTER_BUCKETS: its records, and what placing them one after another comes to (R400 to R404). -/
def scattered (s : State) (rc : RunCmd) : List GateRecord × Placing :=
  let n := pkOpb rc.packet * pkOpc rc.packet
  let gs := (List.range n).map (denseRecord s rc)
  (gs, gs.foldl (placeRecord s) ⟨{ readFills s rc with prog := { (readFills s rc).prog with vector := n } }, VecWrites.empty, false⟩)

/-- A chain that the loader may set up (R327). -/
def chainLoads (s : State) (rc : RunCmd) : Prop :=
  (chainAt s (pkChainId rc.packet)).valid = false
    ∨ (chainAt s (pkChainId rc.packet)).owner = rc.vi ∧ chainBusy s rc (pkChainId rc.packet) = false

/-! ## Registers -/

/-- A VI-page access that reaches the page of `v`, with every byte enabled (R40, R41, R636). -/
def Reached (port : RegPort) (s : State) (v : ViId) : Prop := (reachPage port s).1 = some v ∧ partBytes port = false

/-- From `s` to `t` the fields of one VI that software sets have become `c`; nothing else has changed but that the access wakes the
unit (R598). -/
def SetsVi (s t : State) (v : ViId) (c : ViCfg) : Prop :=
  t = { wake s with cfg := { s.cfg with vi := t.cfg.vi } } ∧ cfgVi t v = c ∧ ∀ u, u ≠ v → cfgVi t u = cfgVi s u

/-- The VI-page rows, by the port of their access. -/
def pageRow : Instr → Option RegPort
  | .viDoorbell p _ | .create p _ | .resume p _ | .pause p _ | .destroy p _ | .viTumblerInval p _ | .viTolerance p _
  | .viDigestBase p _ | .evSelect p _ _ | .evCount p _ _ | .evCtrlClear p _ => some p
  | .registerWrite p _ _ => some p
  | _ => none

/-- A register write lies within a VI page. -/
def withinPage : Instr → Prop
  | .registerWrite _ off _ => off.toNat < 0x1000
  | _ => True

/-- The access of a management page or window that may set every field of a counter that its page shows (R660, R661). -/
def CounterPort (port : RegPort) (s : State) (n : Nat) : Prop :=
  mgmtAnswers s = true ∧ (port = .mgmt ∨ port = .window ∧ shownTo s s.cfg.viSel n = true)

/-- EV_SELECT as a write's 32 bits say it (R660). -/
def selectOf (x : W32) : EvSelect := ⟨bit x 26, BitVec.ofNat 10 (field x 25 16), bit x 8, BitVec.ofNat 8 (field x 7 0)⟩

/-- A doorbell or ring action from the page of `v` reaches the unit itself: it is ACTIVE and no secondary (R556, R564). -/
structure Steers (port : RegPort) (s : State) (v : ViId) : Prop where
  page    : ∃ covered requester be, port = .page covered v requester be
  reached : Reached port s v
  active  : s.ctl.state = .active
  first   : isSecondary s = false

/-- A doorbell or ring action on ring `ring` is applied at once: its context is cached and no earlier one of its VI waits (R473,
R475). -/
structure AtOnce (port : RegPort) (s : State) (v : ViId) (index ring : Nat) : Prop extends Steers port s v where
  names  : ringByIndex s (portCovered port) v index = some ring
  cached : (cacheEntry s ring).isSome
  noneWaits : s.rings.actions.any (fun k => decide (k.vi = v)) = false

/-- The ring's context with every index from HEAD to TAIL skipped (R469, R474). -/
def skipped (c : RingCtx) : RingCtx := { c with head := c.tail, cpli := c.cpli + (c.tail - c.head) }

/-- The state of a ring by whether commands are left (R469). -/
def readyIdle (c : RingCtx) : RingCtx := { c with state := if c.head = c.tail then .idle else .ready }

/-- RESULT of VI_RING_CTRL (R468). -/
def resultOf (s : State) (v : ViId) : Nat := (viOf s v).ctrlResult.toNat

/-! ## Recovery, power -/

/-- What a unit reset leaves (R268, R275, R330, R559, R560, R561). -/
structure ResetLeaves (s t : State) (handover : Bool) : Prop where
  state       : t.ctl.state = .resetting
  fence       : t.ctl.fence = true
  handover    : t.ctl.handover = handover
  lost        : t.ctl.ringsLost = !s.ctl.flushed
  incarnation : t.ctl.incarnation = s.ctl.incarnation + 1
  slots       : t.slots = []
  chains      : t.chains = []
  vis         : t.vis = []
  cache       : t.rings.cache = []
  cmds        : t.rings.cmds = []
  free        : t.rings.holder = none
  tables      : t.tabs = Tables.reset
  hinge       : t.hinge = HingePort.reset
  counters    : t.ev = Counters.reset
  log         : t.log = s.log
  dev         : t.dev = s.dev
  tile        : t.tile = s.tile
  twin        : t.twinTile = s.twinTile
  power       : t.cfg.floor = s.cfg.floor ∧ t.cfg.ceil = s.cfg.ceil ∧ t.cfg.autoOff = s.cfg.autoOff ∧ t.pwr.point = s.cfg.ceil
  regions     : t.cfg.ctxBase = s.cfg.ctxBase ∧ t.cfg.coverBase = s.cfg.coverBase ∧ t.cfg.traceBase = s.cfg.traceBase
  pending     : t.pending = s.pending

/-- The unit has lost everything but MG_INCARNATION, its pins and what memories hold (R48, R578, R596). -/
structure Wiped (s t : State) : Prop where
  off         : t.ctl.state = .off ∧ t.pwr.state = .off
  incarnation : t.ctl.incarnation = s.ctl.incarnation
  cfg         : t.cfg = Cfg.reset
  vis         : t.vis = []
  slots       : t.slots = []
  chains      : t.chains = []
  rings       : t.rings.cache = [] ∧ t.rings.cmds = [] ∧ t.rings.regs = []
  log         : t.log = ⟨[], [], []⟩
  dev         : t.dev = s.dev
  tile        : t.tile = s.tile
  twin        : t.twinTile = s.twinTile

/-- The trace ring has room for every record of the buffer, or there is none. -/
def noTrace (s : State) : Prop := s.det.buffer = [] ∧ s.det.dropped = 0

/-! ## The drain, the hinge port, power -/

/-- The shift requests without an answer are `l`. -/
def setRequests (s : State) (l : List ShiftReq) : State :=
  { s with
    shift := { s.shift with
      requests := l } }

/-- The record is the maximum of lanes `first` to `first + n - 1` of a beat, and the lowest lane that holds it (R32). -/
def Tops (b : Beat) (first n : Nat) (m : LaneMax) : Prop :=
  first ≤ m.lane ∧ m.lane < first + n ∧ m.value = b.lanes.getD m.lane 0
    ∧ ∀ l, first ≤ l → l < first + n → (b.lanes.getD l 0).toInt ≤ m.value.toInt
        ∧ (l < m.lane → (b.lanes.getD l 0).toInt < m.value.toInt)

/-- The packet rows, with the packet type that each stands for. -/
def packetRow : Instr → Option (Nat × HingePacket)
  | .hingePartial p => some (0, p) | .hingeFinal p => some (1, p) | .hingeRetract p => some (2, p) | .hingeNack p => some (3, p)
  | .hingeProbe p => some (4, p) | _ => none

/-- The packet carries the incarnation that the chain has on record for its sender (R356). -/
def sameIncarnation (d : ChainDesc) (p : HingePacket) : Prop := incOf d (hdSrc p.header) = some (hdInc p.header)

/-- An epoch closed for a reason, with all that it held discarded (R353). -/
def Closed (x : Epoch) (reason : Status) : Prop :=
  x.phase = .closed ∧ x.reason = reason ∧ x.inputs = [] ∧ x.final = [] ∧ x.sent = [] ∧ x.timer = false

/-- One step down: the next point is asked for, or at point 7 the slot rate falls by one, to 1 at least (R590). -/
def StepsDown (s t : State) : Prop :=
  t.pwr.point = s.pwr.point
    ∧ (s.pwr.point.toNat < 7 → t.pwr.opReq = some (s.pwr.point + 1) ∧ t.pwr.slots = s.pwr.slots)
    ∧ (s.pwr.point = 7 → t.pwr.opReq = none ∧ t.pwr.slots = if s.pwr.slots.toNat ≤ 1 then s.pwr.slots else s.pwr.slots - 1)

/-- An idle unit that nothing asks to move (R599, R600). -/
def idleNow (s : State) : Prop :=
  unitIdle s = true ∧ powerSteady s = true ∧ s.ctl.stop = none ∧ s.ctl.flushing = false ∧ s.pwr.holdupReq = false

/-- AUTO_OFF, no created ring and no open slot (R600). -/
def mayTurnOff (s : State) : Prop := s.cfg.autoOff = true ∧ createdRings s = [] ∧ ∀ x ∈ s.slots, x.2.isOpen = false

/-- A move from one power state to another begins. -/
def setMove (s : State) (m : PowerMove) : State :=
  { s with
    pwr := { s.pwr with
      move := m } }

end Sys2Proof.Claims

open Sys2Proof Sys2Proof.Machine Sys2Proof.Claims

/-! ## The queue -/

/-- The command at the front of the queue runs, on the state with the queue's rest. -/
def Obligations.StepRunsTheFrontCommand : Prop :=
  ∀ (c : Instr) (rest : List Instr) (s : State), s.pending = c :: rest → step s = exec c (s.withPending rest)

/-- A step takes one command off the queue and adds none; an empty queue idles (the model's choice, log entry 10). -/
def Obligations.StepTakesOneCommand : Prop :=
  ∀ s : State, (s.pending = [] → step s = .next s)
    ∧ ∀ (c : Instr) (rest : List Instr) (t : State), s.pending = c :: rest → step s = .next t → t.pending = rest

/-- Every command answers a next state, but for a beat that the matrix array may not send: one that comes without a credit
while the unit takes beats (R30). -/
def Obligations.OnlyABeatWithoutCreditStops : Prop :=
  ∀ (c : Instr) (s : State),
    ((∀ b, c ≠ .drnBeat b) ∨ s.ctl.refuse = true ∨ s.drain.credits ≠ 0 → ∃ t, exec c s = .next t)
      ∧ ∀ b, c = .drnBeat b → s.ctl.refuse = false → s.drain.credits = 0 → exec c s = .fault .beatWithoutCredit

/-! ## What every ring command shares -/

/-- A ring command acts only while the chain issues and a running command of its own opcode and form holds it; else its step
changes nothing (the model's choice: a step that is not enabled). -/
def Obligations.RingCommandsAwaitTheirTurn : Prop :=
  ∀ (c : Instr) (op : Nat) (s : State), ringOpcode c = some op →
    (mayIssue s = false ∨ holderCmd s = none
      ∨ ∃ rc, holderCmd s = some rc ∧ ¬ (pkOpcode rc.packet = op ∧ ofForm c rc.packet = true ∧ rc.phase = .running)) →
    exec c s = .next s

/-- R454: a command that fails a check completes BAD_COMMAND with the byte where it failed, or QUOTA, TABLE_MISMATCH or, on a covered
ring, HINGE_PEER_LOST, and has no other effect. A pass of a covered ring from the drain (R574), or one whose table bank has been
found bad (R537), completes ERROR_CONTAINED with nothing done. -/
def Obligations.FailedCheckEndsTheCommand : Prop :=
  ∀ (c : Instr) (op : Nat) (s : State) (rc : RunCmd), ringOpcode c = some op → Issues s rc op → ofForm c rc.packet = true → Fresh rc →
    (∀ d, verdict s rc = .bad d → ∃ t, Ends c s t rc (refusedCpl rc .badCommand d) ∧ t.slots = s.slots
        ∧ OnlyCompletion s t rc .badCommand)
      ∧ (∀ st, verdict s rc = .refused st → (st = .quota ∨ st = .tableMismatch ∨ st = .hingePeerLost)
        ∧ ∃ t, Ends c s t rc (refusedCpl rc st 0) ∧ t.slots = s.slots ∧ OnlyCompletion s t rc st)
      ∧ (op ∈ [0x01, 0x02, 0x03, 0x04, 0x05, 0x06, 0x08, 0x09, 0x0B] → Passes s rc → barred s (passed rc) = true →
        ∃ t, Ends c s t rc ⟨rc.seq.toNat, .errorContained, 0, 0xFFFF, 0, 0⟩ ∧ t.slots = s.slots
          ∧ OnlyCompletion s t rc .errorContained)

/-- R469: a status that HALT names stops the ring, and every command behind completes SKIPPED: HEAD and CPLI reach TAIL. -/
def Obligations.HaltStopsTheRing : Prop :=
  ∀ (s : State) (rc : RunCmd), Issues s rc 0x00 → Passes s rc → ringDeferred s rc.ring = none →
    bit (ctxOfRing s rc.ring).halt (statusCode (finalStatus rc .ok)) = true → ringStopped s rc.ring = false →
    (ctxOfRing s rc.ring).cpli + 1 = (ctxOfRing s rc.ring).head →
    ∃ t, exec .nop s = .next t ∧ cmdOf t rc.ring = none ∧ t.rings.holder = none
      ∧ (ctxOfRing t rc.ring).state = .halted ∧ (ctxOfRing t rc.ring).tail = (ctxOfRing s rc.ring).tail
      ∧ (ctxOfRing t rc.ring).head = (ctxOfRing s rc.ring).tail ∧ (ctxOfRing t rc.ring).cpli = (ctxOfRing s rc.ring).tail

/-! ## Commands that order others -/

/-- NOP completes with result and count 0 (R449), and changes nothing else. -/
def Obligations.NopCompletes : Prop :=
  ∀ (s : State) (rc : RunCmd), Issues s rc 0x00 → Cleared s rc →
    ∃ t, Ends .nop s t rc (okCpl rc 0 0) ∧ (Fresh rc → t.slots = s.slots ∧ OnlyCompletion s t rc .ok)

/-- FENCE completes at once without F0, or when every ring that it waits for has come as far as it asks: the other rings of its
VI, as they stood when it started. Else it waits for them (R493). -/
def Obligations.FenceCompletesOrWaits : Prop :=
  ∀ (s : State) (rc : RunCmd) (ts : List (Nat × W32)), Issues s rc 0x28 → Cleared s rc →
    (rc.wait = .rings ts ∨ rc.wait = .nothing ∧ ts = fenceTargets s rc) →
    (pkF0 rc.packet = false ∨ (∀ x ∈ ts, fenceReached s x = true) → ∃ t, Ends .fence s t rc (okCpl rc 0 0))
      ∧ (pkF0 rc.packet = true → (∃ x ∈ ts, fenceReached s x = false) → ∃ t, Waits .fence s t rc (.rings ts))

/-- R495: EVENT_SIGNAL sets its event (F0) or adds to it, leaves the other events, ends the waits that the new value satisfies,
and completes with the new value. -/
def Obligations.EventSignalMovesItsEvent : Prop :=
  ∀ (s : State) (rc : RunCmd), Issues s rc 0x29 → Cleared s rc →
    ∃ t, Ends .eventSignal s t rc (okCpl rc (eventOf t rc.vi (pkOpa rc.packet % 256)).toNat 0)
      ∧ eventOf t rc.vi (pkOpa rc.packet % 256) = (if pkF0 rc.packet then BitVec.ofNat 32 (pkOpb rc.packet)
          else eventOf s rc.vi (pkOpa rc.packet % 256) + BitVec.ofNat 32 (pkOpb rc.packet))
      ∧ (∀ n, n ≠ pkOpa rc.packet % 256 → eventOf t rc.vi n = eventOf s rc.vi n)
      ∧ (∀ v n, v ≠ rc.vi → eventOf t v n = eventOf s v n)
      ∧ ∀ x ∈ t.rings.cmds, ∀ n target, x.vi = rc.vi → x.phase = .blocked false → x.wait = .event n target →
          eventReached (eventOf t rc.vi n) target = false

/-- R496: EVENT_WAIT completes with the event's value once the event has reached the target, and else waits for that. Once it has been
reached the BLOCKED command may take the chain again, and nothing else changes (R469); one with a time limit that still waits when it
runs out completes ERROR_CONTAINED (R497). -/
def Obligations.EventWaitCompletesOrWaits : Prop :=
  ∀ (s : State) (rc : RunCmd) (n : Nat) (target : W32),
    (Issues s rc 0x2A → Cleared s rc → n = pkOpa rc.packet % 256 → target = BitVec.ofNat 32 (pkOpb rc.packet) →
        (rc.wait = .event n target ∨ eventReached (eventOf s rc.vi n) target = true →
            ∃ t, Ends .eventWait s t rc (okCpl rc (eventOf s rc.vi n).toNat 0))
          ∧ (rc.wait ≠ .event n target → eventReached (eventOf s rc.vi n) target = false →
              ∃ t, Waits .eventWait s t rc (.event n target)))
      ∧ (cmdOf s rc.ring = some rc → rc.phase = .blocked false → rc.wait = .event n target →
        exec (.blockedWaitEnd rc.ring) s = .next (if eventReached (eventOf s rc.vi n) target
            then setCmd s { rc with phase := .blocked true } else s)
          ∧ ((cacheEntry s rc.ring).isSome → pkOpc rc.packet ≠ 0 → rc.failed = none →
            ∃ t x, Ends (.eventWaitTimeout rc.ring) s t rc x ∧ x.seq = rc.seq.toNat ∧ x.status = .errorContained ∧ x.detail = 0xFFFF))

/-! ## Row state -/

/-- R269, R270, R271: ROWSTAT_OPEN sets every slot of its range, one already open as well: its owner, OPEN, MODE, empty extrema, REF from
the key field, SW from its source or 0, everything else 0. A poisoned source word sets POISON and the status. ROWSTAT_CLOSE writes
zero to every slot of its range; a linked digest record then ties them (R532). -/
def Obligations.RowstatOpenAndCloseSetTheirSlots : Prop :=
  ∀ (s : State) (rc : RunCmd) (src : Bool) (sw : Nat → W128) (bad : Nat → Bool), Passes s rc → Fresh rc →
    src = (pkDmask rc.packet).testBit 0 →
    (∀ r, sw r = if src then BitVec.ofNat 128 (readNat s (descAt rc 0).1 ((descAt rc 0).2 + 16 * r) 16) else 0) →
    (∀ r, bad r = (src && rangePoison s (descAt rc 0).1 ((descAt rc 0).2 + 16 * r) 16)) →
    (Issues s rc 0x10 → ∃ t st, st = (if (List.range (pkRows rc.packet)).any bad then .poisonInput else .ok)
        ∧ Ends .rowstatOpen s t rc ⟨rc.seq.toNat, st, 0, 0, 0, pkRows rc.packet⟩ ∧ OnlyCompletion s t rc st
        ∧ RowsHold s t rc (fun r => { Slot.zero with
            owner := rc.vi, isOpen := true, exact := rc.latched.exact, maxv := ⟨w38NegInf, 0xFFFFFFFFFF⟩,
            minv := ⟨w38PosInf, 0xFFFFFFFFFF⟩, ref := BitVec.ofNat 16 (pkKey rc.packet), sw := sw r, poison := bad r }))
      ∧ (Issues s rc 0x11 → ∃ t, Ends .rowstatClose s t rc (okCpl rc 0 (pkRows rc.packet)) ∧ OnlyCompletion s t rc .ok
        ∧ RowsHold s t rc (fun _ => Slot.zero))

/-- R272: ROWSTAT_SPILL writes the 256-byte image of row r at its destination + 256 r, with the binary64 views of an exact slot
(R243), its sectors poisoned as the slot is; F0 closes the slots afterwards. -/
def Obligations.RowstatSpillWritesImages : Prop :=
  ∀ (s : State) (rc : RunCmd), Issues s rc 0x12 → Passes s rc → Fresh rc →
    ∃ t, Ends .rowstatSpill s t rc (okCpl rc 0 (pkRows rc.packet))
      ∧ Stands s t rc .ok 4 ((List.range (pkRows rc.packet)).flatMap (fun r =>
          slotBytes (slotViews (slotAt s (pkRow0 rc.packet + r)))))
      ∧ (plainEnd s rc .ok → chainless rc.packet → pkRecord rc.packet = false → isSecondary s = false →
          ∀ r < pkRows rc.packet, ∀ k < 4, (slotAt s (pkRow0 rc.packet + r)).poison = true →
            sectorPoison t (descAt rc 4).1 ((descAt rc 4).2 + 256 * r + 64 * k) = true)
      ∧ RowsHold s t rc (fun r => if pkF0 rc.packet then Slot.zero else slotViews (slotAt s (pkRow0 rc.packet + r)))

/-- R273: ROWSTAT_FILL takes each slot of its range from its image, with the owner, OPEN, and POISON of the image or of its
sectors; a poisoned sector gives POISON_INPUT. -/
def Obligations.RowstatFillTakesImages : Prop :=
  ∀ (s : State) (rc : RunCmd), Issues s rc 0x13 → Passes s rc → Fresh rc →
    ∃ t st, st = (if rangePoison s (descAt rc 0).1 (descAt rc 0).2 (256 * pkRows rc.packet) then .poisonInput else .ok)
      ∧ Ends .rowstatFill s t rc ⟨rc.seq.toNat, st, 0, 0, 0, pkRows rc.packet⟩ ∧ OnlyCompletion s t rc st
      ∧ RowsHold s t rc (fun r =>
          { slotOf (readBytes s (descAt rc 0).1 ((descAt rc 0).2 + 256 * r) 256) with
            owner := rc.vi, isOpen := true
            poison := (slotOf (readBytes s (descAt rc 0).1 ((descAt rc 0).2 + 256 * r) 256)).poison
              || rangePoison s (descAt rc 0).1 ((descAt rc 0).2 + 256 * r) 256 })

/-- A slot that is spilled and filled again is the slot that it was (R258, R259): its image says all of it. -/
def Obligations.SlotImagesLoseNothing : Prop :=
  ∀ x : Slot, x.fin ≠ 3 → (slotBytes x).length = 256 ∧ slotOf (slotBytes x) = x

/-! ## Passes -/

/-- CHAIN, CHAIN_ACC and SOFTMAX_STEP complete with the active positions as count (R449); the first two with the index of the extremum
reduced, where one row reduces one, else 0 (R248). CHAIN_ACC, whose vectors are all beats of the drain (R451), takes one for each and
returns their credits (R31). -/
def Obligations.ChainPassesComplete : Prop :=
  ∀ (s : State) (rc : RunCmd),
    (PassReady s rc 0x01 → ∃ t, PassEnds (.chain wholeRun) plainPass s t rc (fun e => okCpl e.1 (chainResult e.1 e.2) e.1.prog.positions))
      ∧ (∀ e : RunCmd × State, DrainReady s rc 0x02 → rc.latched.nanTrap = false → e = passEnd plainPass (passed rc) s →
          e.1.prog.ended = none →
          ∃ t, exec (.chainAcc wholeRun) s = .next t ∧ Completed s t rc (okCpl e.1 (chainResult e.1 e.2) e.1.prog.positions)
            ∧ t.drain.queue = s.drain.queue.drop (psVectors rc)
            ∧ (s.ctl.refuse = false → t.drain.credits = s.drain.credits + psVectors rc))
      ∧ (PassReady s rc 0x04 →
          ∃ t, PassEnds (.softmaxStep wholeRun) softPass s t rc (fun e => okCpl e.1 0 e.1.prog.positions))

/-- COMPRESS completes with the elements written and puts the count of each row at its second destination (R408), EXPAND with the
elements read (R409), QUANTISE_MX with the blocks promoted and written and puts its summary there (R429). -/
def Obligations.StreamPassesComplete : Prop :=
  ∀ (s : State) (rc : RunCmd),
    (PassReady s rc 0x08 → ∃ t, PassEnds (.compress wholeRun) plainPass s t rc (fun e => okCpl e.1 0 e.1.prog.elements)
        ∧ ((passEnd plainPass (passed rc) s).1.prog.ended = none →
            Stands s t rc (finalStatus (passEnd plainPass (passed rc) s).1 .ok) 5
              (summaryBytes (.compress wholeRun) (passEnd plainPass (passed rc) s).1)))
      ∧ (PassReady s rc 0x09 → ∃ t, PassEnds (.expand wholeRun) plainPass s t rc (fun e => okCpl e.1 0 e.1.prog.elements))
      ∧ (PassReady s rc 0x0B → ∃ t, PassEnds (.quantiseMx wholeRun) plainPass s t rc
            (fun e => okCpl e.1 e.1.prog.promoted e.1.prog.blocks)
        ∧ ((passEnd plainPass (passed rc) s).1.prog.ended = none →
            Stands s t rc (finalStatus (passEnd plainPass (passed rc) s).1 .ok) 5
              (summaryBytes (.quantiseMx wholeRun) (passEnd plainPass (passed rc) s).1)))

/-- SELECT completes: with lists, with the first index of row 0 and the entries of all lists, which stand in its registers
(R370, R449); in the gating form with the records written, or with those that overflowed and those placed (R405). -/
def Obligations.SelectCompletes : Prop :=
  ∀ (s : State) (rc e : RunCmd) (lists : List (Nat × CandList)), PassReady s rc 0x06 → e = (passEnd selectPass (passed rc) s).1 →
    e.failed = none → lists = (List.range (psR rc)).map (fun r => (r, spGet ⟨[], false⟩ e.prog.lists r)) →
    ∃ t, PassEnds (.select wholeRun) selectPass s t rc (fun _ =>
        if tDest rc.tumbler ≠ 0 then
          okCpl e (((spGet ⟨[], false⟩ e.prog.lists 0).entries.head?.map (fun c => c.index)).getD emptyCandIndex)
            ((lists.map (fun l => l.2.entries.length)).foldl (· + ·) 0)
        else if tWMode rc.tumbler = 2 then okCpl e e.prog.overflowed e.prog.placed
        else okCpl e 0 e.prog.elements)
      ∧ (e.prog.ended = none → tDest rc.tumbler ≠ 0 → plainEnd s rc (finalStatus e .ok) →
          regsOf t rc.ring = lists.foldl (fun f l => putList (tEmitReg rc.tumbler + 4 * l.1) l.2 f)
            (regsOf (passEnd selectPass (passed rc) s).2 rc.ring))

/-- A pass changes no byte outside the runs that it notes as it writes, the summary and the completion, and, but for
SOFTMAX_STEP, no slot outside its range. -/
def Obligations.PassesKeepTheRest : Prop :=
  ∀ (c : Instr) (op : Nat) (k : PassKind) (s t : State) (rc e : RunCmd), passOf c = some (op, k) → runOf c = wholeRun →
    PassReady s rc op → rc.latched.nanTrap = false → e = (passEnd k (passed rc) s).1 → e.failed = none →
    pkChv rc.packet = false → pkRecord rc.packet = false → (∀ r, c = .select r → tDest rc.tumbler ≠ 3) → exec c s = .next t →
    (k.soft = false → ∀ h, ¬ inRange rc.packet h → slotAt t h = slotAt s h)
      ∧ (plainEnd s rc (finalStatus e .ok) → ∀ sp a,
          ¬ inRuns ((5, (descAt rc 5).1, (descAt rc 5).2, (summaryBytes c e).length) :: e.prog.wrote) sp a →
          ¬ cplHolds (ctxOfRing s rc.ring) rc sp a → readByte t sp a = readByte s sp a)

/-- R482, R486: a pass of a ring with registers takes no more of its vectors than to the first segment boundary, which falls at 64 or
128 vectors (that of SELECT's bucket records aside), and none past it until arbitration has decided there; a pass from the drain
waits for its beats (R278). Where no beat waits for another, it takes the oldest beat and returns its credit (R31); a beat that is
none of its rows' is discarded, and the command is to end ERROR_CONTAINED (R279, R280). -/
def Obligations.PassesStopAtBoundariesAndTakeBeats : Prop :=
  ∀ (c : Instr) (op : Nat) (k : PassKind) (s : State) (rc : RunCmd), passOf c = some (op, k) → Issues s rc op →
    (∀ n, Passes s rc → Fresh rc → barred s (passed rc) = false → psDrains rc = false → rc.latched.nanTrap = false →
        runOf c = wholeRun → hasRegs (ctxOfRing s rc.ring) = true → pkTaddr rc.packet ≠ 0 →
        isBoundary rc n = true → (∀ v < n, isBoundary rc v = false) → n < psVectors rc →
        (placesRecords rc = false → n = if tPack rc.tumbler = true ∧ rc.latched.strict = false then 64 else 128)
          ∧ ∃ t rc', exec c s = .next t ∧ holderCmd t = some rc' ∧ rc'.phase = .running ∧ rc'.packet = rc.packet
            ∧ rc'.prog.vector = n ∧ atSegment t rc' = true ∧ Frame s t)
      ∧ (rc.prog.checked = true → (runOf c).error = none → psVectors rc > rc.prog.vector → rc.prog.ended = none →
          (rc.prog.heldBeats = [] ∨ ∃ x l, rc.prog.heldBeats = x :: l ∧ x.raising = true) →
          (atSegment s rc = true
            ∨ psDrains rc = true ∧ s.drain.queue = [] ∧ rc.prog.ready = [] ∧ runnable rc = []) →
          ∃ t, exec c s = .next t ∧ holderCmd t = some rc ∧ Frame s t ∧ t.slots = s.slots ∧ ∀ sp a, readByte t sp a = readByte s sp a)
      ∧ ∀ (b : DrainEntry) (rest : List DrainEntry), k.soft = false → runOf c = ⟨some 1, none⟩ → rc.prog.checked = true →
          psDrains rc = true → beatsWait rc = false → atSegment s rc = false → rc.prog.vector + 1 < psVectors rc →
          rc.prog.ended = none → rc.latched.nanTrap = false → s.drain.queue = b :: rest → s.ctl.refuse = false →
          ∃ t rc', exec c s = .next t ∧ holderCmd t = some rc' ∧ rc'.prog.vector = rc.prog.vector + 1 ∧ t.drain.queue = rest
            ∧ t.drain.credits = s.drain.credits + 1 ∧ OutEvent.drnCredit 1 ∈ t.out
            ∧ rc'.prog.ended = (if beatRow rc b.beat = none then some .errorContained else none)

/-! ## The drain and the shift port -/

/-- R30, R32, R298, R299, R627: a refused beat changes nothing; a beat with a credit takes it, joins the queue's end, with the maximum
of its lanes and of each group of 32 and the lowest lane that holds it, and wakes the unit. An acknowledgement answers the oldest
request. One that discards, or none in time, discards what the command that waits for it held and ends that command; one that applies
lets the writes go, up to the next beat that waits for its own, or, of a suspended command, lets them go when it resumes (R483); an
earlier command's changes nothing else. A request that leaves its queue makes room there. -/
def Obligations.BeatsAndShiftsMove : Prop :=
  ∀ (s : State) (b : Beat) (a : Bool),
    (s.ctl.refuse = true → exec (.drnBeat b) s = .next s)
      ∧ (s.ctl.refuse = false → s.drain.credits ≠ 0 → exec (.drnBeat b) s = .next { wake s with
          drain := { s.drain with
            queue := s.drain.queue ++ [prescan b], credits := s.drain.credits - 1 } })
      ∧ ((prescan b).beat = b ∧ Tops b 0 512 (prescan b).top
          ∧ ∀ g < 16, ∃ m, (prescan b).groups[g]? = some m ∧ Tops b (32 * g) 32 m)
      ∧ (s.shift.requests = [] → exec (.shfAck a) s = .next s ∧ exec .shiftAckTimeout s = .next s)
      ∧ (∀ q rest, s.shift.requests = q :: rest → ∀ c, c ∈ [Instr.shfAck false, .shfAck true, .shiftAckTimeout] →
          (shiftCmd s = none ∨ (∃ rc, shiftCmd s = some rc ∧ raisingHeld rc < s.shift.requests.length) →
              exec c s = .next (setRequests s rest))
            ∧ ∀ rc, shiftCmd s = some rc → s.shift.requests.length ≤ raisingHeld rc →
              (c ≠ .shfAck false → exec c s = .next (setCmd (setRequests s rest) { rc with
                  prog := { rc.prog with
                    heldBeats := [], ended := some .errorContained } }))
                ∧ (c = .shfAck false → rc.phase ≠ .running → exec c s = .next (setCmd (setRequests s rest) { rc with
                    prog := { rc.prog with
                      heldBeats := ackOldest rc.prog.heldBeats } }))
                ∧ (c = .shfAck false → rc.phase = .running → ∃ t rc', exec c s = .next t ∧ t.shift.requests = rest
                    ∧ cmdOf t rc.ring = some rc' ∧ rc'.prog.ended = rc.prog.ended
                    ∧ rc'.prog.heldBeats = (ackOldest rc.prog.heldBeats).dropWhile (fun x => !x.raising) ∧ t.slots = s.slots))
      ∧ (s.shift.beatHeld = false ∨ holderCmd s = none → exec .shiftQueueSpace s = .next (setRequests s (shiftPlace s.shift.requests)))

/-! ## Rows finalised -/

/-- NORM without a chain finalises every row of its range: FIN0, FIN1 and FIN 1 in its slot (R260, R312 to R315). It then
completes, or runs its apply pass and completes, with the rows as count. -/
def Obligations.NormFinalisesItsRows : Prop :=
  ∀ (s : State) (rc : RunCmd) (run : Run) (n : Nat → NormResult) (st : Status), Issues s rc 0x03 → Passes s rc → Fresh rc →
    pkChv rc.packet = false →
    (∀ r, n r = normFinal (slotAt s (pkRow0 rc.packet + r)).exact (pkF0 rc.packet) (normEps rc.packet)
      (statOfSlot (slotAt s (pkRow0 rc.packet + r)))) →
    st = metStatus (flagsOf (pkRows rc.packet) (fun r => (n r).flags)) ((List.range (pkRows rc.packet)).any (fun r => (n r).poison)) →
    (hasPass rc.packet = false →
        ∃ t, Ends (.norm run) s t rc
            ⟨rc.seq.toNat, st, flagsOf (pkRows rc.packet) (fun r => (n r).flags), 0, 0, pkRows rc.packet⟩
          ∧ RowsHold s t rc (fun r => slotFinal 1 (n r).fin0 (n r).fin1 (slotAt s (pkRow0 rc.packet + r)))
          ∧ OnlyCompletion s t rc st)
      ∧ (hasPass rc.packet = true → barred s (passed rc) = false → psDrains rc = false → oneSegment s rc → rc.latched.nanTrap = false →
        ∃ t e, e = applyEnd (normLocal (addLinks s (passed rc)) s)
          ∧ Ends (.norm wholeRun) s t rc (okCpl e.1 0 e.1.prog.count))

/-- SOFTMAX_FINAL without a chain finalises every row of its range: FIN0, FIN1 and FIN 2 in its slot (R260, R303); with F0 the
FIN1 of each row stands at its second destination, NaN for a poisoned slot (R306). -/
def Obligations.SoftmaxFinalFinalisesItsRows : Prop :=
  ∀ (s : State) (rc : RunCmd) (run : Run) (n : Nat → SoftResult) (x : Nat → Slot) (st : Status), Issues s rc 0x05 → Passes s rc →
    Fresh rc → pkChv rc.packet = false → (∀ r, x r = slotAt s (pkRow0 rc.packet + r)) →
    (∀ r, n r = softRow (x r).exact (statOfSlot (x r)) (x r).ref) →
    st = metStatus (flagsOf (pkRows rc.packet) (fun r => (n r).flags)) ((List.range (pkRows rc.packet)).any (fun r => (x r).poison)) →
    (hasPass rc.packet = false →
        ∃ t, Ends (.softmaxFinal run) s t rc
            ⟨rc.seq.toNat, st, flagsOf (pkRows rc.packet) (fun r => (n r).flags), 0, 0, pkRows rc.packet⟩
          ∧ RowsHold s t rc (fun r => slotFinal 2 (n r).fin0 (n r).fin1 (x r))
          ∧ (pkF0 rc.packet = true → Stands s t rc st 5 ((List.range (pkRows rc.packet)).flatMap (fun r =>
              natBytes 8 (if (x r).poison then canonicalF64 else (n r).fin1).toNat)))
          ∧ (pkF0 rc.packet = false → OnlyCompletion s t rc st))
      ∧ (hasPass rc.packet = true → barred s (passed rc) = false → psDrains rc = false → oneSegment s rc → rc.latched.nanTrap = false →
        ∃ t e, e = applyEnd (softLocal (addLinks s (passed rc)) s)
          ∧ Ends (.softmaxFinal wholeRun) s t rc (okCpl e.1 0 e.1.prog.count))

/-- A command that consumes a chain's epoch completes RETRACTED when the chain is not valid or is another VI's (R330), and with the
epoch's reason when the epoch is over (R353, R361). While its FINAL is not there it waits for it (R348), as it does while another
waits for that epoch. -/
def Obligations.ConsumersWaitForFinal : Prop :=
  ∀ (c : Instr) (op : Nat) (s : State) (rc : RunCmd) (k : Nat) (d : ChainDesc), consumers c = some op → Issues s rc op →
    (op = 0x19 ∨ pkChv rc.packet = true) → k = pkChainId rc.packet → d = chainAt s k → ¬ noFinalHere c d → rc.prog.finalised = false →
    rc.prog.checked = true →
    (d.valid = false ∨ d.owner ≠ rc.vi → ∃ t, Ends c s t rc (endCpl rc .retracted 0 0 0))
      ∧ (d.valid = true → d.owner = rc.vi → rc.prog.contributed = true →
        ((epochAt d d.epoch).isOver = true → (epochAt d d.epoch).consumer = some rc.ring →
            ∃ t, Ends c s t rc (endCpl rc (epochAt d d.epoch).reason 0 0 0))
          ∧ ((∃ r, (epochAt d d.epoch).consumer = some r ∧ r ≠ rc.ring ∧ (cmdOf s r).isSome)
              ∨ (epochAt d d.epoch).consumer = some rc.ring ∧ (epochAt d d.epoch).isOver = false ∧ cdIsKeystone d.image = false
                ∧ finalComplete d (epochAt d d.epoch) = false →
            ∃ t, Waits c s t rc (.final k) ∧ ∀ j, j ≠ k → chainAt t j = chainAt s j))

/-- HINGE_WAIT and the keystone's SAMPLE complete once FINAL has been committed for them, with the rows, and the tokens of all
rows, as count (R375, R393); HINGE_WAIT where SAMPLE consumes completes when the epoch is closed (log entry 22). -/
def Obligations.CommittedWaitsComplete : Prop :=
  ∀ (s : State) (rc : RunCmd) (d : ChainDesc), d = chainAt s (pkChainId rc.packet) → rc.prog.checked = true →
    (Issues s rc 0x19 → ¬ noFinalHere .hingeWait d → rc.prog.finalised = true →
        ∃ t, Ends .hingeWait s t rc (okCpl rc rc.prog.result.toNat rc.prog.count))
      ∧ (Issues s rc 0x07 → pkChv rc.packet = true → rc.prog.finalised = true →
        ∃ t, Ends .sample s t rc (okCpl rc rc.prog.result.toNat (rc.prog.count * pkDraws rc.packet)))
      ∧ (Issues s rc 0x19 → noFinalHere .hingeWait d → (epochAt d d.epoch).phase = .closed →
        ∃ t, Ends .hingeWait s t rc (endCpl rc (epochAt d d.epoch).reason 0 0 0))

/-! ## Selection -/

/-- R365, R368: one more admitted candidate leaves a list in candidate order, no longer than K, of candidates offered, and drops
none that precedes one kept. -/
def Obligations.CandidateListsStayOrdered : Prop :=
  ∀ (k : Nat) (l : List Cand) (c : Cand), (∀ x ∈ c :: l, admits (ofW38 x.value) = true) → candOrdered l = true →
    candOrdered (candAdmit k l c) = true ∧ (candAdmit k l c).length = min k (l.length + 1)
      ∧ (∀ x ∈ candAdmit k l c, x = c ∨ x ∈ l)
      ∧ ∀ x ∈ c :: l, x ∉ candAdmit k l c → ∀ y ∈ candAdmit k l c, candBefore x y = false

/-- SAMPLE without a chain completes with its draws as count and the first token as result (R391, R393). Where its registers hold
lists, the tokens of every row are drawn from them and stand at its destination, and an empty list raises the invalid flag
(R392). -/
def Obligations.SampleDrawsItsTokens : Prop :=
  ∀ (s : State) (rc : RunCmd) (es : Nat → List (Cand × Bool)) (ds : Nat → Drawn) (flags : Byte) (st : Status), Issues s rc 0x07 →
    Passes s rc → Fresh rc → pkChv rc.packet = false →
    (∀ r, es r = regEntries (regsOf s rc.ring) (pkOpc rc.packet % 32 + 4 * r) 1024) →
    (∀ r, ds r = drawRow s rc (pkRow0 rc.packet + r)
      ⟨((es r).map (fun e => e.1)).filter (fun c => admits (ofW38 c.value)), (es r).any (fun e => e.2)⟩) →
    flags = (if (List.range (pkRows rc.packet)).any (fun r => (ds r).empty) then flInvalid else 0) →
    st = metStatus flags ((List.range (pkRows rc.packet)).any (fun r => (ds r).poison)) →
    (∃ t x, Ends .sample s t rc x ∧ x.seq = rc.seq.toNat ∧ x.detail = 0 ∧ x.count = pkRows rc.packet * pkDraws rc.packet
        ∧ t.slots = s.slots)
      ∧ ((∀ r < pkRows rc.packet, isList ((es r).map (fun e => e.1)) = true) →
        ∃ t, Ends .sample s t rc ⟨rc.seq.toNat, st, flags, 0, ((ds 0).tokens.headD emptyIndex).toNat, pkRows rc.packet * pkDraws rc.packet⟩
          ∧ ((pkDmask rc.packet).testBit 4 = true → Stands s t rc st 4 ((List.range (pkRows rc.packet)).flatMap (fun r =>
              (ds r).tokens.flatMap (fun w => natBytes 8 w.toNat))))
          ∧ ((pkDmask rc.packet).testBit 4 = false → OnlyCompletion s t rc st))

/-- SCATTER_BUCKETS of at most one segment places its records in order (R400 to R404) and completes with those that overflowed
and those placed (R405); FILL of each bucket counts those in it (R401). Every record has one end: skipped, placed, in the
overflow list, dropped, or of a bad expert (R400, R403, R404). -/
def Obligations.ScatterPlacesItsRecords : Prop :=
  ∀ (s : State) (rc : RunCmd) (a : Placing), Issues s rc 0x0A → Passes s rc → Fresh rc →
    (hasRegs (ctxOfRing s rc.ring) = false ∨ pkOpb rc.packet * pkOpc rc.packet ≤ 65536) →
    a = (scattered s (addLinks s (passed rc))).2 → a.fault = false →
    ∃ t, Ends (.scatterBuckets wholeRun) s t rc (okCpl a.rc a.rc.prog.overflowed a.rc.prog.placed)
      ∧ (pkRecord rc.packet = false → ∀ e < pkRows rc.packet,
          slotAt t (pkRow0 rc.packet + e) = setFill (fillNow a.rc e) (slotAt s (pkRow0 rc.packet + e)))
      ∧ (∀ h, ¬ inRange rc.packet h → slotAt t h = slotAt s h)
      ∧ (plainEnd s rc (finalStatus a.rc .ok) → chainless rc.packet → pkRecord rc.packet = false → ∀ sp b,
          ¬ inRuns a.writes.runs sp b → ¬ cplHolds (ctxOfRing s rc.ring) rc sp b → readByte t sp b = readByte s sp b)
      ∧ ((scattered s (addLinks s (passed rc))).1.filter (fun g => decide (g.expert = -1))).length + a.rc.prog.placed
          + a.rc.prog.overflowed + a.rc.prog.dropped + a.rc.prog.special = pkOpb rc.packet * pkOpc rc.packet

/-! ## Chains -/

/-- HINGE_SEND completes with the rows of its range that its chain has not had yet for the epoch (R341), which the current epoch then
holds as the command's own, settled (R350); it changes no other chain, and none at all when there are no such rows. -/
def Obligations.HingeSendSendsItsRows : Prop :=
  ∀ (s : State) (rc : RunCmd) (k : Nat) (d : ChainDesc) (rows : List (Nat × ChainRow)), Issues s rc 0x18 → pkF0 rc.packet = false →
    Passes s rc → Fresh rc → k = pkChainId rc.packet → d = chainAt s k →
    rows = (chainRowsOf s rc (rangeHandles rc)).filter (fun r => (spFind (epochAt d d.epoch).own r.1).isNone) →
    ∃ t, Ends .hingeSend s t rc (okCpl rc 0 rows.length) ∧ t.slots = s.slots ∧ (∀ j, j ≠ k → chainAt t j = chainAt s j)
      ∧ (d.valid = true → (epochAt d d.epoch).isOver = false → ∀ r ∈ rows,
          spFind (epochAt (chainAt t k) d.epoch).own r.1 = some ⟨r.2, rc.ring, rc.seq, true⟩)
      ∧ (rows = [] → t.chains = s.chains ∧ OnlyCompletion s t rc .ok)

/-- R321, R326 to R328: the load form sets up its chain from a good image and member table, at EPOCH0, owned by its VI, and changes
no other; a bad image is refused where it is bad, and the chain stays. -/
def Obligations.HingeLoadSetsUpItsChain : Prop :=
  ∀ (s : State) (rc : RunCmd) (k : Nat) (x : BitVec 512), Issues s rc 0x18 → pkF0 rc.packet = true → Passes s rc → Fresh rc →
    k = pkChainId rc.packet → chainLoads s rc → x = BitVec.ofNat 512 (readNat s (descAt rc 0).1 (descAt rc 0).2 64) →
    rangePoison s (descAt rc 0).1 (descAt rc 0).2 64 = false →
    (checkImage x = none → rangePoison s .device (cdTable x) (4 * cdMembers x) = false →
        checkEntries ((List.range (cdMembers x)).map (fun m => (m, BitVec.ofNat 32 (readNat s .device (cdTable x + 4 * m) 4)))) = none →
        ∃ t, Ends .hingeSendLoad s t rc (okCpl rc 0 0) ∧ OnlyCompletion s t rc .ok ∧ t.slots = s.slots
          ∧ chainAt t k = loadedChain s rc x ∧ ∀ j, j ≠ k → chainAt t j = chainAt s j)
      ∧ ∀ n, checkImage x = some n →
        ∃ t, Ends .hingeSendLoad s t rc (refusedCpl rc .badCommand n) ∧ t.slots = s.slots ∧ t.chains = s.chains

/-! ## Hinge packets -/

/-- R331 to R334, R556: a unit that is not ACTIVE takes no packet. One of a reserved type is counted and its credit returned. A PARTIAL or
FINAL for a chain that is not valid is answered NACK with reason 3; one for an epoch that is over or past is dropped. The first
packet of a sender tells its incarnation; an older one's packets are dropped, and with a newer one the unsettled inputs of that
sender are (R356). -/
def Obligations.PacketsForNothingAreDropped : Prop :=
  ∀ (c : Instr) (s : State) (p : HingePacket) (type : Nat) (d : ChainDesc), packetRow c = some (type, p) →
    d = chainAt s (hdChain p.header) →
    (s.ctl.state ≠ .active → exec c s = .next s)
      ∧ (s.ctl.state = .active → 5 ≤ hdType p.header → ∃ t, exec c s = .next t ∧ t.chains = s.chains ∧ t.slots = s.slots
          ∧ OutEvent.hngRxCredit (packetChannel p) (packetFlits p) ∈ t.out)
      ∧ (s.ctl.state = .active → hdType p.header = type → type = 0 ∨ type = 1 →
          (d.valid = false → headReserved p.header = false → isSecondary s = false →
              s.hinge.waiting.any (fun q => decide (packetChannel q = 2)) = false → spGet 0 s.hinge.credits 2 ≠ 0 →
              ∃ t, exec c s = .next t ∧ t.chains = s.chains ∧ t.slots = s.slots
                ∧ OutEvent.hngTx false (onWire ⟨headBits { HingeHead.blank 3 (hdChain p.header) (hdEpoch p.header) 0
                    (hdSrc p.header).toNat with reason := 3 } s.ctl.incarnation s.mg.unitAddress, []⟩) ∈ t.out)
            ∧ (d.valid = true → sameIncarnation d p → epochStale d (hdEpoch p.header) = true →
                ∃ t, exec c s = .next t ∧ t.chains = s.chains ∧ t.slots = s.slots)
            ∧ (d.valid = true → incOf d (hdSrc p.header) = none → epochStale d (hdEpoch p.header) = true →
                ∃ t, exec c s = .next t ∧ t.slots = s.slots ∧ chainAt t (hdChain p.header) = { d with
                  incs := (hdSrc p.header, hdInc p.header) :: d.incs })
            ∧ ∀ old, d.valid = true → incOf d (hdSrc p.header) = some old → hdInc p.header ≠ old →
                (incOlder (hdInc p.header) old = true → ∃ t, exec c s = .next t ∧ t.chains = s.chains ∧ t.slots = s.slots)
                  ∧ (incOlder (hdInc p.header) old = false → epochStale d (hdEpoch p.header) = true → ∃ t, exec c s = .next t
                    ∧ t.slots = s.slots ∧ incOf (chainAt t (hdChain p.header)) (hdSrc p.header) = some (hdInc p.header)
                    ∧ (chainAt t (hdChain p.header)).epochs = d.epochs.map (dropUnsettled (hdSrc p.header))))

/-- R339, R340, R342, R350: a good PARTIAL of an epoch that a member takes inputs for is held there: each of its rows that the member did not have,
beside the inputs that it had; a settle notice settles those of its sender. A malformed one closes its epoch RETRACTED (R334). -/
def Obligations.PartialsEnterTheirEpoch : Prop :=
  ∀ (s : State) (p : HingePacket) (k : Nat) (e : W32) (d : ChainDesc), k = hdChain p.header → e = hdEpoch p.header → d = chainAt s k →
    s.ctl.state = .active → hdType p.header = 0 → d.valid = true → sameIncarnation d p → epochStale d e = false →
    e = d.epoch ∨ e = d.epoch + 1 →
    (partialBad d p = false → cdIsKeystone d.image = false → s.det.replayActive = false → ∃ t, exec (.hingePartial p) s = .next t
        ∧ (∀ j, j ≠ k → chainAt t j = chainAt s j) ∧ t.slots = s.slots
        ∧ (isNotice p.header = true →
            (epochAt (chainAt t k) e).inputs = (epochAt d e).inputs.map (fun i =>
                if i.member = hdMember p.header ∧ i.level = hdLevel p.header then { i with settled := true } else i)
              ∧ (⟨hdLevel p.header, hdMember p.header, hdSrc p.header⟩ : Notice) ∈ (epochAt (chainAt t k) e).settledNotices)
        ∧ (isNotice p.header = false →
            (∀ i ∈ packetInputs (epochAt d e) p, (epochAt d e).inputs.find? (sameInput i) = none → i ∈ (epochAt (chainAt t k) e).inputs)
              ∧ ∀ i ∈ (epochAt d e).inputs, (∀ x ∈ packetInputs (epochAt d e) p, sameInput x i = false) →
                i ∈ (epochAt (chainAt t k) e).inputs))
      ∧ (partialBad d p = true → (epochAt d e).finalSent = false → ∃ t, exec (.hingePartial p) s = .next t
        ∧ (∀ j, j ≠ k → chainAt t j = chainAt s j) ∧ t.slots = s.slots ∧ Closed (epochAt (chainAt t k) e) .retracted)

/-- R348: a good FINAL is held with its epoch, and a bad one changes no chain. A FINAL that is whole is committed for the command that
waits for it: the epoch is done and that command's rows are finalised and its wait over; with no such command nothing happens. -/
def Obligations.FinalsAreHeldAndCommitted : Prop :=
  ∀ (s : State) (p : HingePacket) (k : BitVec 10) (e : W32) (d : ChainDesc) (x : Epoch), s.ctl.state = .active → x = epochAt d e →
    d = chainAt s k.toNat →
    (k.toNat = hdChain p.header → e = hdEpoch p.header → hdType p.header = 1 → d.valid = true → sameIncarnation d p →
        epochStale d e = false →
        (finalBad d p = false → ∃ t, exec (.hingeFinal p) s = .next t ∧ t.slots = s.slots
            ∧ (∀ j, j ≠ k.toNat → chainAt t j = chainAt s j)
            ∧ chainAt t k.toNat = setEpoch d { x with
                final := (packetFinal x p).foldl (fun f r => spPut f r.1 r.2) x.final
                finalSettled := hdSettled p.header })
          ∧ (finalBad d p = true → ∃ t, exec (.hingeFinal p) s = .next t ∧ t.chains = s.chains ∧ t.slots = s.slots))
      ∧ (e = d.epoch → x.consumer = none → exec (.finalCommit k) s = .next s)
      ∧ ∀ ring rc, e = d.epoch → x.consumer = some ring → cmdOf s ring = some rc → rc.phase = .blocked false →
          rc.wait = .final k.toNat → rc.prog.finalised = false → x.isOver = false → cdIsKeystone d.image = false →
          finalComplete d x = true →
          ∃ t rc', exec (.finalCommit k) s = .next t ∧ cmdOf t ring = some rc' ∧ rc'.prog.finalised = true
            ∧ rc'.prog.count = cdRows d.image ∧ rc'.phase = .blocked true ∧ (epochAt (chainAt t k.toNat) e).phase = .done
            ∧ (epochAt (chainAt t k.toNat) e).committed = true ∧ t.rings.holder = s.rings.holder

/-- R352, R353, R357 to R360: RETRACT closes an epoch that is not over and whose FINAL has not gone. A NACK of the proxy closes the epoch that it
refuses, or under RETRY marks what was sent to be sent again; EPOCH_AHEAD puts the first PARTIAL by for later. A PROBE is answered
with the current epoch, and the answer lets what its sender refused go out again. -/
def Obligations.RetractsNacksAndProbesAct : Prop :=
  ∀ (s : State) (p : HingePacket) (k : Nat) (e : W32) (d : ChainDesc) (x : Epoch), k = hdChain p.header → e = hdEpoch p.header →
    d = chainAt s k → x = epochAt d e → s.ctl.state = .active → plainBad p.header = false → d.valid = true → sameIncarnation d p →
    (hdType p.header = 2 → epochStale d e = false → x.finalSent = false →
        ∃ t, exec (.hingeRetract p) s = .next t ∧ Closed (epochAt (chainAt t k) e) .retracted
          ∧ (∀ j, j ≠ k → chainAt t j = chainAt s j) ∧ t.slots = s.slots)
      ∧ (hdType p.header = 2 → epochStale d e = true ∨ x.finalSent = true →
        ∃ t, exec (.hingeRetract p) s = .next t ∧ t.chains = s.chains ∧ t.slots = s.slots)
      ∧ (hdType p.header = 3 → hdReason p.header ≤ 4 → cdIsKeystone d.image = true ∨ epochStale d e = true ∨ x.sent = [] →
        ∃ t, exec (.hingeNack p) s = .next t ∧ t.chains = s.chains ∧ t.slots = s.slots)
      ∧ (hdType p.header = 3 → hdReason p.header ≤ 3 → cdIsKeystone d.image = false → epochStale d e = false → x.sent ≠ [] →
        (cdRetry d.image = true → ∃ t, exec (.hingeNack p) s = .next t ∧ chainAt t k = setEpoch d (refuseSent x)
            ∧ (∀ j, j ≠ k → chainAt t j = chainAt s j) ∧ t.slots = s.slots)
          ∧ (cdRetry d.image = false → x.finalSent = false →
            ∃ t, exec (.hingeNack p) s = .next t ∧ Closed (epochAt (chainAt t k) e) .hingePeerLost
              ∧ (∀ j, j ≠ k → chainAt t j = chainAt s j) ∧ t.slots = s.slots))
      ∧ (∀ q, hdType p.header = 3 → hdReason p.header = 4 → cdIsKeystone d.image = false → epochStale d e = false → nextAhead s k x = some q →
        ∃ t, exec (.hingeNack p) s = .next t ∧ t.hinge.resend = s.hinge.resend ++ [(k, q)] ∧ t.chains = s.chains ∧ t.slots = s.slots)
      ∧ (hdType p.header = 4 → hdReply p.header = false → isSecondary s = false → entryTwin s (tableEntry s d (hdMember p.header)) = false →
          s.hinge.waiting.any (fun q => decide (packetChannel q = 3)) = false → spGet 0 s.hinge.credits 3 ≠ 0 →
          ∃ t, exec (.hingeProbe p) s = .next t ∧ t.chains = s.chains ∧ t.slots = s.slots
            ∧ OutEvent.hngTx false (onWire ⟨headBits { HingeHead.blank 4 k d.epoch (cdSelf d.image) (hdSrc p.header).toNat with
                reply := true } s.ctl.incarnation s.mg.unitAddress, []⟩) ∈ t.out)
      ∧ (hdType p.header = 4 → hdReply p.header = true → epochLater e d.epoch = false →
          ∃ t, exec (.hingeProbe p) s = .next t ∧ (∀ j, j ≠ k → chainAt t j = chainAt s j) ∧ t.slots = s.slots
            ∧ ∀ y ∈ (chainAt t k).epochs, y.isOver = false → ∀ q ∈ y.sent, q.member = hdMember p.header → q.refused = false)

/-- R337, R339, R359, R361: what EPOCH_AHEAD put by goes out again; under RETRY the refused member's entry is read again; a chain timer that runs
out closes the current epoch, HINGE_PEER_LOST after a NACK and else HINGE_TIMEOUT; a transmit credit returns, and a packet that waited
for it leaves. -/
def Obligations.HingeTimersAndCreditsAct : Prop :=
  ∀ (s : State) (k : BitVec 10) (d : ChainDesc) (x : Epoch) (bits : BitVec 4), d = chainAt s k.toNat → x = epochAt d d.epoch →
    (s.ctl.state ≠ .active → exec (.epochAheadResend k) s = .next s ∧ exec (.probeRetryTimer k) s = .next s
        ∧ exec (.chainTimeout k) s = .next s)
      ∧ (s.ctl.state = .active → ∃ t, exec (.epochAheadResend k) s = .next t ∧ t.chains = s.chains ∧ t.slots = s.slots
          ∧ t.hinge.resend = s.hinge.resend.filter (fun q => decide (q.1 ≠ k.toNat)))
      ∧ (d.valid = false ∨ refusedMember d = none → exec (.probeRetryTimer k) s = .next s)
      ∧ (∀ e m, s.ctl.state = .active → d.valid = true → refusedMember d = some (e, m) → ∃ t, exec (.probeRetryTimer k) s = .next t
          ∧ chainAt t k.toNat = { d with hops := spPut d.hops m (tableEntry s d m) } ∧ (∀ j, j ≠ k.toNat → chainAt t j = chainAt s j)
          ∧ t.slots = s.slots)
      ∧ (d.valid = false ∨ x.timer = false ∨ x.isOver = true → exec (.chainTimeout k) s = .next s)
      ∧ (s.ctl.state = .active → d.valid = true → x.timer = true → x.isOver = false → x.finalSent = false →
          ∃ t, exec (.chainTimeout k) s = .next t ∧ (∀ j, j ≠ k.toNat → chainAt t j = chainAt s j) ∧ t.slots = s.slots
            ∧ Closed (epochAt (chainAt t k.toNat) d.epoch) (if x.nacked then .hingePeerLost else .hingeTimeout))
      ∧ (s.hinge.waiting = [] → ∃ t, exec (.hngTxCredit bits) s = .next t ∧ t = { s with
            hinge := t.hinge } ∧ ∀ ch < 4, spGet 0 t.hinge.credits ch = spGet 0 s.hinge.credits ch + boolNat (bit bits ch))
      ∧ ∀ p, s.hinge.waiting = [p] → bit bits (packetChannel p) = true → packetFlits p = spGet 0 s.hinge.credits (packetChannel p) + 1 →
          ∃ t, exec (.hngTxCredit bits) s = .next t ∧ t.hinge.waiting = [] ∧ spGet 0 t.hinge.credits (packetChannel p) = 0
            ∧ OutEvent.hngTx false (onWire p) ∈ t.out ∧ t.chains = s.chains ∧ t.slots = s.slots

/-! ## Tables -/

/-- TABLE_LOAD and TABLE_SWAP wait in the loader's queue, and are taken up at once by an idle loader (R210, R213); they complete
with what it gave them. -/
def Obligations.TableCommandsWaitForTheLoader : Prop :=
  ∀ (c : Instr) (op : Nat) (s : State) (rc : RunCmd), (c = .tableLoad ∧ op = 0x20 ∨ c = .tableSwap ∧ op = 0x21) → Issues s rc op →
    (Passes s rc →
        ∃ t rc', exec c s = .next t ∧ t.rings.holder = none ∧ (ctxOfRing t rc.ring).state = .blocked
          ∧ cmdOf t rc.ring = some rc' ∧ rc'.packet = rc.packet ∧ rc'.seq = rc.seq
          ∧ t.slots = s.slots ∧ (∀ sp a, readByte t sp a = readByte s sp a)
          ∧ ((s.tabs.job.isSome ∨ s.tabs.swap.isSome) → rc'.wait = .loader ∧ rc'.phase = .blocked false
              ∧ t.tabs = { s.tabs with queue := s.tabs.queue ++ [rc.ring] })
          ∧ (s.tabs.job = none → s.tabs.swap = none → s.tabs.queue = [] → c = .tableLoad →
              t.tabs = { s.tabs with queue := [rc.ring], job := some ⟨rc.ring, BitVec.ofNat 2 (pkOpc rc.packet),
                BitVec.ofNat 3 (pkOpc rc.packet / 4), (descAt rc 0).1, (descAt rc 0).2⟩ })
          ∧ (s.tabs.job = none → s.tabs.swap = none → s.tabs.queue = [] → c = .tableSwap →
              (s.tabs.shadowValid = false → rc'.prog.ended = some .badCommand ∧ rc'.phase = .blocked true ∧ t.tabs = s.tabs)
                ∧ (s.tabs.shadowValid = true → freeSpares t ≠ [] →
                    t.tabs = { s.tabs with queue := [rc.ring], swap := some rc.ring })))
      ∧ ∀ st, rc.prog.checked = true → rc.prog.ended = some st →
        ∃ t, Ends c s t rc (endCpl rc st 0xFFFF rc.prog.result.toNat rc.prog.count)

/-- A load ends (R208, R209): the shadow bank holds what was read, valid if R202 holds of it, nothing was poisoned and its base is
not bad; the command that asked for it waits no longer. R211, R212: between commands a swap makes the shadow bank the active one;
the old active bank, or a spare while commands hold that one, becomes the shadow. -/
def Obligations.TableLoadsAndSwapsEnd : Prop :=
  (∀ (s : State) (j : LoadJob) (l : Loaded) (good : Bool), s.tabs.job = some j → s.tabs.queue = [j.ring] → s.tabs.swap = none →
      l = loadBank s j → good = (l.good && !l.poison && bankGood l.bank) →
      ∃ t, exec .tableLoadDone s = .next t ∧ bankAt t s.tabs.shadow = l.bank ∧ t.tabs.shadow = s.tabs.shadow
        ∧ t.tabs.shadowValid = good ∧ t.tabs.shadowId = bankId l.bank ∧ t.tabs.active = s.tabs.active ∧ t.tabs.id = s.tabs.id
        ∧ t.tabs.job = none ∧ t.tabs.queue = [] ∧ (∀ b, b ≠ s.tabs.shadow → bankAt t b = bankAt s b)
        ∧ ∀ c, cmdOf s j.ring = some c → ∃ c', cmdOf t j.ring = some c' ∧ c'.phase = .blocked true
            ∧ c'.prog.ended = some (if l.poison then .poisonInput else if good then .ok else .badCommand)
            ∧ c'.prog.result = (if good then bankId l.bank else 0) ∧ c'.prog.count = (if good then l.bytes else 0))
    ∧ ∀ (s : State) (ring : Nat), s.tabs.swap = some ring → s.tabs.queue = [ring] → s.tabs.job = none →
    (s.rings.holder.isSome → exec .tableSwapApply s = .next s)
      ∧ (s.rings.holder = none →
        ∃ t, exec .tableSwapApply s = .next t ∧ t.tabs.active = s.tabs.shadow ∧ t.tabs.id = s.tabs.shadowId ∧ t.tabs.swap = none
          ∧ t.tabs.banks = s.tabs.banks ∧ (bankHeld s s.tabs.active = false → t.tabs.shadow = s.tabs.active ∧ t.tabs.shadowId = s.tabs.id)
          ∧ (∀ n rest, bankHeld s s.tabs.active = true → freeSpares s = n :: rest → t.tabs.shadow = n ∧ t.tabs.shadowValid = false)
          ∧ ∀ c, cmdOf s ring = some c → ∃ c', cmdOf t ring = some c' ∧ c'.phase = .blocked true ∧ c'.prog.ended = some .ok
              ∧ c'.prog.result = s.tabs.shadowId)

/-! ## Records -/

/-- DIGEST_SEAL writes the 128-byte seal of its ring's chain and completes with the number of its records (R534, R535);
COUNTER_SNAP writes the 192-byte record of the counters that its mask names and completes with how many (R672 to R675); ACC_PEEK
writes an accumulator row, only in the chip's debug state and for a VI with debug enabled (R20), and taints itself (R452). -/
def Obligations.RecordCommandsWriteTheirRecords : Prop :=
  ∀ (s : State) (rc : RunCmd), Passes s rc → Fresh rc →
    (Issues s rc 0x30 →
        ∃ t a, a = digestEntry s rc.vi ((viRange s (isCovered rc.ring) rc.vi).base + pkOpa rc.packet)
          ∧ Ends .digestSeal s t rc (okCpl rc (readNat s .device (a + 32) 8) 128) ∧ t.slots = s.slots
          ∧ (pkF0 rc.packet = false → Stands s t rc .ok 4 (sealRecord s rc a (pkOpa rc.packet)))
          ∧ (pkF0 rc.packet = true → plainEnd s rc .ok → chainless rc.packet → pkRecord rc.packet = false →
              isSecondary s = false → ∀ i < 40, ¬ cplHolds (ctxOfRing s rc.ring) rc .device (a + i) → readByte t .device (a + i) = 0))
      ∧ (Issues s rc 0x31 →
        ∃ t, Ends .counterSnap s t rc (okCpl rc 0 ((List.range 20).filter (fun n => (pkOpa rc.packet).testBit n)).length)
          ∧ t.slots = s.slots ∧ Stands s t rc .ok 4 (snapRecord (tick s) rc (pkOpa rc.packet % 2 ^ 20)))
      ∧ (Issues s rc 0x38 →
        (mayPeek s rc = true → ∃ t, Ends .accPeek s t rc ⟨rc.seq.toNat, .tainted, 0, 0, 0, 512⟩ ∧ t.slots = s.slots
            ∧ Stands s t rc .tainted 4 ((List.range 512).flatMap (fun l =>
                natBytes 8 (wrapNat 64 (Config.accLane s.free (BitVec.ofNat 32 (pkOpa rc.packet)) l).toInt))
              ++ natBytes 8 (wrapNat 64 (Config.accExp s.free (BitVec.ofNat 32 (pkOpa rc.packet))).toInt)))
          ∧ (mayPeek s rc = false → ∃ t, Ends .accPeek s t rc (refusedCpl rc .badCommand 0) ∧ t.slots = s.slots))

/-! ## Registers -/

/-- R40, R41, R636: a VI page that the unit does not answer takes no access; one from another VI's master is discarded and counted
for the page's VI; one of CMD_TGT to no page is counted for none; and a write with some byte enables 0 is ignored and counted. -/
def Obligations.PagesAnswerTheirVi : Prop :=
  ∀ (c : Instr) (s : State), withinPage c →
    (∀ port, pageRow c = some port → ((∃ r, port = .foreign r) ∨ ∃ cov v r be, port = .page cov v r be) → pageAnswers s = false →
        exec c s = .next s)
      ∧ (∀ r, pageRow c = some (.foreign r) → pageAnswers s = true → exec c s = .next (countEvent 0x62 1 none (wake s)))
      ∧ ∀ cov v r be, pageRow c = some (.page cov v r be) → pageAnswers s = true → (cov = true → s.twin.covering = true) →
          (r ≠ v → exec c s = .next (countEvent 0x62 1 (some v) (wake s)))
            ∧ (r = v → be ≠ 0xFF → exec c s = .next (regIgnored v (wake s)))

/-- VI_TOLERANCE, VI_DIGEST_BASE, VI_RINGS and VI_TUMBLER_INVAL set what they name and nothing else; VI_DIGEST_BASE is ignored while
the VI has rings (R524), VI_RINGS where its range meets another's or leaves the region (R465). -/
def Obligations.ViRegistersTakeTheirFields : Prop :=
  ∀ (port : RegPort) (s : State) (v : ViId) (x : W64), Reached port s v →
    (∃ t, exec (.viTolerance port x) s = .next t ∧ SetsVi s t v { cfgVi s v with tolerance := BitVec.ofNat 32 (field x 31 0) })
      ∧ (viHasRings s v = false → ∃ t, exec (.viDigestBase port x) s = .next t
          ∧ SetsVi s t v { cfgVi s v with digestBase := BitVec.ofNat 58 (field x 63 6) })
      ∧ (viHasRings s v = true → exec (.viDigestBase port x) s = .next (portIgnored port (wake s)))
      ∧ (port = .window → ringsFit s v (field x 17 0) (field x 36 18) = true → ∃ t, exec (.viRings x) s = .next t
          ∧ SetsVi s t v { cfgVi s v with
              ringBase := BitVec.ofNat 18 (field x 17 0), ringCount := BitVec.ofNat 19 (field x 36 18),
              minClass := BitVec.ofNat 2 (field x 38 37) })
      ∧ (port = .window → ringsFit s v (field x 17 0) (field x 36 18) = false → exec (.viRings x) s = .next (mgIgnored (wake s)))
      ∧ (∃ t, exec (.viTumblerInval port x) s = .next t ∧ t = { wake s with rings := t.rings }
          ∧ t.rings = { s.rings with tumblers := t.rings.tumblers }
          ∧ (bit x 0 = false → t.rings.tumblers = s.rings.tumblers)
          ∧ (bit x 0 = true → ∀ e, e ∈ t.rings.tumblers ↔ e ∈ s.rings.tumblers ∧ e.vi ≠ v))

/-- EV_SELECT sets its selection, and where ALLVI or VI changes zeroes the counter and the selection (R662); a page sets EN and EVENT
of a counter that it shows; a reserved event, or a counter not shown, is ignored (R660, R661). EV_COUNT sets the counter to the low
48 bits written (R669), from a page only one that it shows. EV_CTRL with CLEAR on the management page makes every counter zero in
every view; on a VI page, those that it shows (R663). -/
def Obligations.SelectionsAndCountersAreSet : Prop :=
  ∀ (port : RegPort) (n : Fin 16) (s : State) (x : W32),
    (CounterPort port s n → eventKnown (field x 7 0) = true → ∃ t, exec (.evSelect port n x) s = .next t
        ∧ (∀ m, m ≠ n.val → evSelectOf t m = evSelectOf s m) ∧ (∀ v, cfgVi t v = cfgVi s v) ∧ t.rings = s.rings
        ∧ ((selectOf x).allVi = (evSelectOf s n).allVi → (selectOf x).vi = (evSelectOf s n).vi →
            evSelectOf t n = selectOf x ∧ t.ev = s.ev)
        ∧ ((selectOf x).allVi ≠ (evSelectOf s n).allVi ∨ (selectOf x).vi ≠ (evSelectOf s n).vi →
            evSelectOf t n = { selectOf x with en := false, event := 0 } ∧ unitCounter t n = 0 ∧ bit t.ev.ovf n = false))
      ∧ (CounterPort port s n → eventKnown (field x 7 0) = false → exec (.evSelect port n x) s = .next (mgIgnored (wake s)))
      ∧ (∀ v, port ≠ .window → Reached port s v →
          (eventKnown (field x 7 0) = true → shownTo s v n = true → ∃ t, exec (.evSelect port n x) s = .next t ∧ t.ev = s.ev
              ∧ evSelectOf t n = { evSelectOf s n with en := bit x 8, event := BitVec.ofNat 8 (field x 7 0) }
              ∧ ∀ m, m ≠ n.val → evSelectOf t m = evSelectOf s m)
            ∧ (eventKnown (field x 7 0) = false ∨ shownTo s v n = false →
              exec (.evSelect port n x) s = .next (portIgnored port (wake s))))
      ∧ (∀ (x : W64), (CounterPort port s n ∨ ∃ v, Reached port s v ∧ shownTo s v n = true) →
        ∃ t, exec (.evCount port n x) s = .next t ∧ t = { wake s with ev := { s.ev with count := t.ev.count } }
          ∧ unitCounter t n = field x 47 0 ∧ ∀ m < 16, m ≠ n.val → unitCounter t m = unitCounter s m)
      ∧ (∀ (x : W64) v, Reached port s v → shownTo s v n = false →
          exec (.evCount port n x) s = .next (portIgnored port (wake s)))
      ∧ (∀ freeze, port = .mgmt → mgmtAnswers s = true → ∃ t, exec (.evCtrlClear port freeze) s = .next t
          ∧ t.cfg = { s.cfg with freeze := freeze } ∧ (∀ n < 20, unitCounter t n = 0 ∧ bit t.ev.ovf n = false)
          ∧ ∀ v, ∀ n < 20, viCounter t v n = 0 ∧ viOverflow t v n = false)
      ∧ ∀ freeze v, Reached port s v → ∃ t, exec (.evCtrlClear port freeze) s = .next t
          ∧ t.cfg = { s.cfg with freeze := if port = .window then freeze else s.cfg.freeze }
          ∧ ∀ n < 20, viCounter t v n = 0 ∧ viOverflow t v n = false

/-! ## Rings -/

/-- R471, R472: a doorbell moves TAIL, makes an IDLE ring with commands READY, and lets a HALTED ring skip them; one that is
out of order, beyond the ring's size, to a DISABLED ring or to no ring of the VI is discarded and counted. One to a ring whose
context is not cached waits for it (R475). -/
def Obligations.DoorbellsMoveTheTail : Prop :=
  ∀ (port : RegPort) (s : State) (v : ViId) (x : W64) (index : Nat) (tail : W32), index = field x 17 0 →
    tail = BitVec.ofNat 32 (field x 63 32) → s.det.replayActive = false →
    (Steers port s v → ringByIndex s (portCovered port) v index = none →
        exec (.viDoorbell port x) s = .next (countEvent 0x61 1 (some v) (wake s)))
      ∧ (∀ ring c, AtOnce port s v index ring → c = ctxOfRing s ring →
          (c.state = .disabled ∨ ctxSize c < (tail - c.head).toNat ∨ 2 ^ 31 ≤ (tail - c.tail).toNat ∨ underLost s ring = true →
              exec (.viDoorbell port x) s = .next (countEvent 0x61 1 (some v) (countEvent 0x2A 1 (some v) (wake s))))
            ∧ (c.state ≠ .disabled → (tail - c.head).toNat ≤ ctxSize c → (tail - c.tail).toNat < 2 ^ 31 → underLost s ring = false →
              ∃ t, exec (.viDoorbell port x) s = .next t ∧ t.slots = s.slots ∧ t.rings.cmds = s.rings.cmds
                ∧ (∀ r, r ≠ ring → cacheEntry t r = cacheEntry s r)
                ∧ (c.state = .idle → ctxOfRing t ring = { c with tail := tail, state := if tail = c.head then .idle else .ready })
                ∧ (c.state = .halted → ringStopped s ring = false → ctxOfRing t ring = skipped { c with tail := tail })
                ∧ (c.state ≠ .idle → c.state ≠ .halted → ctxOfRing t ring = { c with tail := tail })))
      ∧ ∀ ring, Steers port s v → ringByIndex s (portCovered port) v index = some ring → cacheEntry s ring = none →
          ∃ t, exec (.viDoorbell port x) s = .next t ∧ t.rings.cache = s.rings.cache
            ∧ t.rings.actions = s.rings.actions ++ [⟨v, ring, .doorbell tail⟩] ∧ (ring ∈ t.rings.reads ∨ ring ∈ t.rings.wanted)

/-- R465 to R469, R474: CREATE makes a DISABLED ring from a good image; RESUME lets a PAUSED or HALTED ring go on, the latter with its
commands skipped; PAUSE pauses a ring, at once or after its command, which includes one whose tumbler word stands in the shadow
(R163); DESTROY disables one without a command. RESULT is 0 when done, 1 when it is to come, 2 when refused, as it is for an index
outside the VI's rings. -/
def Obligations.RingActionsMoveTheRing : Prop :=
  ∀ (port : RegPort) (s : State) (v : ViId) (index : BitVec 18),
    (∀ a, a ∈ [Instr.create port index, .resume port index, .pause port index, .destroy port index] →
        Steers port s v → ringByIndex s (portCovered port) v index.toNat = none →
        ∃ t, exec a s = .next t ∧ resultOf t v = 2 ∧ t.rings = s.rings ∧ cfgVi t v = { cfgVi s v with ctrlRing := index })
      ∧ ∀ ring c, AtOnce port s v index.toNat ring → c = ctxOfRing s ring →
        (c.state = .disabled → imageGood (cfgVi s v).ringCfg = true → ∃ t, exec (.create port index) s = .next t
            ∧ resultOf t v = 0 ∧ regsOf t ring = []
            ∧ ∃ sched, field sched 7 2 = field (ctxOf (cfgVi s v).ringCfg).sched 7 2
              ∧ field sched 1 0 = max (ctxClass (ctxOf (cfgVi s v).ringCfg)) (viRange s (isCovered ring) v).minClass % 4
              ∧ ctxOfRing t ring = { ctxOf (cfgVi s v).ringCfg with
                  head := 0, tail := 0, cpli := 0, owner := BitVec.ofNat 16 v.toNat, state := .idle, prog := 0, sched := sched
                  halt := forcedHalt (ctxOf (cfgVi s v).ringCfg).halt })
          ∧ (c.state ≠ .disabled ∨ imageGood (cfgVi s v).ringCfg = false → ∃ t, exec (.create port index) s = .next t
            ∧ resultOf t v = 2 ∧ ctxOfRing t ring = c)
          ∧ (c.state = .paused → underLost s ring = false → ∃ t, exec (.resume port index) s = .next t
            ∧ resultOf t v = 0 ∧ ctxOfRing t ring = readyIdle c)
          ∧ (c.state = .halted → underLost s ring = false → ∃ t, exec (.resume port index) s = .next t
            ∧ resultOf t v = 0 ∧ ctxOfRing t ring = readyIdle (skipped c))
          ∧ (c.state ≠ .paused ∧ c.state ≠ .halted ∨ underLost s ring = true → ∃ t, exec (.resume port index) s = .next t
            ∧ resultOf t v = 2 ∧ ctxOfRing t ring = c)
          ∧ (c.state = .idle ∨ c.state = .ready ∧ choiceStands s ring = false → ∃ t, exec (.pause port index) s = .next t
            ∧ resultOf t v = 0 ∧ ctxOfRing t ring = { c with state := .paused })
          ∧ (c.state = .running ∨ c.state = .blocked ∨ c.state = .suspended ∨ c.state = .ready ∧ choiceStands s ring = true →
            ∃ t, exec (.pause port index) s = .next t ∧ ctxOfRing t ring = c ∧ resultOf t v = 1
              ∧ ringDeferred t ring = some ((ringDeferred s ring).getD .pause))
          ∧ (c.state = .disabled ∨ c.state = .paused ∨ c.state = .halted → ∃ t, exec (.pause port index) s = .next t
            ∧ resultOf t v = 2 ∧ ctxOfRing t ring = c)
          ∧ (c.state = .idle ∨ c.state = .paused ∨ c.state = .halted → ∃ t, exec (.destroy port index) s = .next t
            ∧ resultOf t v = 0 ∧ ctxOfRing t ring = { c with state := .disabled } ∧ regsOf t ring = [])
          ∧ (c.state ≠ .idle → c.state ≠ .paused → c.state ≠ .halted → ∃ t, exec (.destroy port index) s = .next t
            ∧ resultOf t v = 2 ∧ ctxOfRing t ring = c)

/-! ## Recovery -/

/-- R553, R554, R557: a fence of an ACTIVE unit refuses beats and asks it to stop; another write of FENCE 1 sets the field alone. FENCE
0 brings a unit that is flushed, or reset since, back to ACTIVE with its held credits returned, reads the contexts that hold work,
and is otherwise ignored and counted. -/
def Obligations.FencesStopAndStartTheUnit : Prop :=
  ∀ (s : State) (h : Bool), mgmtAnswers s = true →
    (s.ctl.state = .active → s.ctl.fence = false → exec (.mgFenceSet h) s = .next { wake s with
        ctl := { s.ctl with
          handover := h, fence := true, refuse := true, flushed := false, resetSinceFence := false
          stop := if s.ctl.stop = some .powerDown then s.ctl.stop else some .fence } })
      ∧ (s.ctl.state ≠ .active ∨ s.ctl.fence = true → exec (.mgFenceSet h) s = .next { wake s with
          ctl := { s.ctl with
            handover := h, fence := true } })
      ∧ (s.ctl.fence = false → exec (.mgFenceClear h) s = .next { wake s with
          ctl := { s.ctl with
            handover := h } })
      ∧ (s.ctl.fence = true → s.ctl.wedged = true ∨ s.ctl.state ≠ .fenced ∨ s.ctl.flushed = false ∧ s.ctl.resetSinceFence = false →
          exec (.mgFenceClear h) s = .next (mgIgnored (wake s)))
      ∧ (s.ctl.fence = true → s.ctl.wedged = false → s.ctl.state = .fenced → s.ctl.flushed = true ∨ s.ctl.resetSinceFence = true →
          ∃ t, exec (.mgFenceClear h) s = .next t ∧ t.slots = s.slots ∧ t.rings.cache = s.rings.cache
            ∧ t.ctl = { s.ctl with
                handover := h, fence := false, state := .active, flushed := false
                refuse := if s.pwr.state = .active then false else s.ctl.refuse }
            ∧ (s.pwr.state = .active → t.drain = { s.drain with credits := s.drain.credits + s.drain.withheld, withheld := 0 })
            ∧ ∀ r ∈ ringsInMemory s false, (memCtx s r).state.carriesWork = true → cacheEntry s r = none →
                r ∈ t.rings.reads ∨ r ∈ t.rings.wanted)

/-- R559, R560, R561, R617: a reset through MG_FENCE, or RST_N low for 4 mclk, leaves the unit in RESETTING, FENCED from then on; one of a
unit that is off, in reset or under test does nothing. At its end the unit is FENCED, grants 64 flit credits on each receive channel
(R336), TCLK counts from 0 (R511), and a pending OFF request begins a power-down. -/
def Obligations.ResetsLeaveTheUnitFenced : Prop :=
  ∀ (s : State) (f h : Bool) (n : Nat),
    (mayReset s = true → (∃ t, exec (.mgFenceReset f h) s = .next t ∧ ResetLeaves s t h)
        ∧ (4 ≤ n → ∃ t, exec (.rstN n) s = .next t ∧ ResetLeaves s t s.ctl.handover))
      ∧ (mayReset s = false ∨ n < 4 → exec (.rstN n) s = .next s)
      ∧ (mgmtAnswers s = false → exec (.mgFenceReset f h) s = .next s)
      ∧ (s.ctl.state ≠ .resetting → exec .resetSequenceEnd s = .next s)
      ∧ (s.ctl.state = .resetting → s.pwr.pending ≠ 2 → exec .resetSequenceEnd s = .next { s with
          ctl := { s.ctl with
            state := .fenced }
          tclk := 0
          pwr := { s.pwr with
            pending := 0 }
          hinge := { s.hinge with
            granted := [(0, 64), (1, 64), (2, 64), (3, 64)] }
          out := s.out ++ [.hngRxCredit 0 64, .hngRxCredit 1 64, .hngRxCredit 2 64, .hngRxCredit 3 64] })
      ∧ (s.ctl.state = .resetting → s.pwr.pending = 2 → ∃ t, exec .resetSequenceEnd s = .next t ∧ t.ctl.state = .fenced
          ∧ t.ctl.stop = some .powerDown ∧ t.ctl.refuse = true ∧ t.pwr.state = .quiesce ∧ t.pwr.slots = 16 ∧ t.tclk = 0)

/-- R553, R554, R555, R604: the unit stops where no command runs or at a segment boundary. A fence whose flush ends leaves it FENCED and
FLUSHED, its rings, contexts and beats gone; a power-down whose flush ends leaves it OFF. A flush that does not end goes on until it
is given up as WEDGED; a command that still runs 1 µs after the stop was asked for no longer holds the chain. -/
def Obligations.StopsFlushTheUnit : Prop :=
  ∀ (s : State) (r : StopReason) (ends : Bool),
    (s.ctl.stop = none → exec (.unitStop ends) s = .next s ∧ exec .stopAbortTimeout s = .next s)
      ∧ (s.ctl.stop = some r → s.ctl.flushing = false → stopReady r s = false →
          exec (.unitStop ends) s = .next s
            ∧ exec .stopAbortTimeout s = .next { s with
                rings := { s.rings with
                  holder := none } })
      ∧ (s.ctl.stop = some .fence → s.ctl.flushing = false → stopReady .fence s = true → ∃ t, exec (.unitStop ends) s = .next t
          ∧ t.ctl.state = .fenced ∧ t.drain.queue = [] ∧ t.drain.withheld = s.drain.withheld + s.drain.queue.length
          ∧ t.drain.credits = s.drain.credits
          ∧ (ends = true → t.ctl.flushed = true ∧ t.ctl.flushing = false ∧ t.ctl.stop = none ∧ t.rings.cache = [] ∧ t.rings.cmds = []
              ∧ t.rings.regs = [])
          ∧ (ends = false → t.ctl.flushing = true ∧ t.ctl.flushed = s.ctl.flushed))
      ∧ (s.ctl.stop = some .powerDown → s.ctl.flushing = false → stopReady .powerDown s = true → s.pwr.pending ≠ 1 →
          ∃ t, exec (.unitStop ends) s = .next t ∧ t.drain.queue = []
            ∧ (ends = true → t.ctl.state = .off ∧ t.pwr.state = .railOff ∧ t.pwr.railReq = false ∧ t.ctl.flushed = true
                ∧ t.rings.cmds = [] ∧ OutEvent.railRequest false ∈ t.out)
            ∧ (ends = false → t.ctl.flushing = true ∧ t.pwr.state = .checkpoint))
      ∧ (s.ctl.flushing = false → exec .flushTimeout s = .next s)
      ∧ (s.ctl.flushing = true → s.ctl.stop ≠ some .powerDown → exec .flushTimeout s = .next { s with
          ctl := { s.ctl with
            flushing := false, wedged := true, stop := none } })
      ∧ (s.ctl.flushing = true → s.ctl.stop = some .powerDown → s.pwr.pending ≠ 1 → ∃ t, exec .flushTimeout s = .next t
          ∧ t.ctl.wedged = true ∧ t.ctl.state = .off ∧ t.pwr.state = .railOff ∧ t.pwr.railReq = false)

/-! ## The twin -/

/-- R562, R564, R571, R575: MG_TWIN_MODE sets the mode. COVER reads the cover record of every VI and the covered contexts that hold work;
leaving it releases the covered rings at the next boundary. -/
def Obligations.TwinModesAreSet : Prop :=
  ∀ (s : State) (primary clean : Bool), mgmtAnswers s = true →
    (∃ t, exec (.mgTwinModeLockstep primary clean) s = .next t ∧ t.twin.mode = .lockstep ∧ t.twin.primary = primary
        ∧ t.twin.clean = clean ∧ t.twin.signature = 0 ∧ t.twin.lost = s.twin.lost ∧ t.rings = s.rings
        ∧ (s.twin.covering = true → s.twin.releasing = false →
            t.twin.releasing = true ∧ t.ctl.stop = (if s.ctl.stop = none then some .coverRelease else s.ctl.stop)))
      ∧ (s.twin.covering = false → ∃ t, exec (.mgTwinModeCover clean) s = .next t ∧ t.twin.mode = .cover ∧ t.twin.covering = true
        ∧ t.twin.clean = clean ∧ t.twin.releasing = false ∧ t.rings.cache = s.rings.cache
        ∧ (∀ v : ViId, coverOf t v = readCoverEntry s v.toNat)
        ∧ ∀ r ∈ ringsInMemory s true, (memCtx s r).state.carriesWork = true → cacheEntry s r = none →
            r ∈ t.rings.reads ∨ r ∈ t.rings.wanted)
      ∧ (s.twin.covering = true → exec (.mgTwinModeCover clean) s = .next { wake s with
          twin := { s.twin with
            mode := .cover, clean := clean } })
      ∧ (s.twin.covering = false → exec .mgTwinModeIndependent s = .next { wake s with
          twin := { s.twin with
            mode := .independent } })
      ∧ (s.twin.covering = true → s.twin.releasing = false → ∃ t, exec .mgTwinModeIndependent s = .next t
          ∧ t.twin = { s.twin with
              mode := .independent, releasing := true }
          ∧ t.ctl = { s.ctl with
              stop := if s.ctl.stop = none then some .coverRelease else s.ctl.stop })

/-- R47, R563, R568, R569: the twin's heartbeat lost sets TWIN_LOST; in LOCKSTEP a lost heartbeat ends the primary's running command
ERROR_CONTAINED, and a signature that differs that of either twin. A signature that agrees does nothing. -/
def Obligations.TwinFailuresEndTheCommand : Prop :=
  ∀ (s : State) (rc : RunCmd) (x : W64), rc.failed = none →
    (s.ctl.state = .off ∨ s.twin.lost = true → exec .twinAliveTimeout s = .next s)
      ∧ (s.ctl.state ≠ .off → s.twin.lost = false → ¬ (s.twin.mode = .lockstep ∧ s.twin.primary = true) →
          ∃ t, exec .twinAliveTimeout s = .next t ∧ t.twin = { s.twin with
              lost := true } ∧ t.rings = s.rings ∧ OutEvent.mgtIrq 1 ∈ t.out)
      ∧ (s.ctl.state ≠ .off → s.twin.lost = false → s.twin.mode = .lockstep → s.twin.primary = true → holderCmd s = some rc →
          (cacheEntry s rc.ring).isSome → ∃ t y, exec .twinAliveTimeout s = .next t ∧ t.twin.lost = true ∧ Completed s t rc y
            ∧ y.seq = rc.seq.toNat ∧ y.status = .errorContained)
      ∧ (s.twin.mode ≠ .lockstep ∨ x = s.twin.signature → exec (.twinSignature x) s = .next s)
      ∧ (s.twin.mode = .lockstep → x ≠ s.twin.signature → holderCmd s = some rc →
          (cacheEntry s rc.ring).isSome → ∃ t y, exec (.twinSignature x) s = .next t ∧ Completed s t rc y
            ∧ y.seq = rc.seq.toNat ∧ y.status = .errorContained)
      ∧ (s.twin.mode = .lockstep → x ≠ s.twin.signature → holderCmd s = none →
          ∃ t, exec (.twinSignature x) s = .next t ∧ t.rings = s.rings ∧ t.twin = s.twin ∧ OutEvent.mgtIrq 1 ∈ t.out)

/-! ## Power requests -/

/-- R604 to R609, R619: a request of MG_POWER_CTRL sets AUTO_OFF, CEIL and FLOOR, which is at least CEIL. OFF begins QUIESCE in ACTIVE, at
point 7 with every slot (R610), lets a gated unit come up for it, and waits while the unit moves; ON begins a power-up in OFF, waits
while the unit moves, and else ends a power-down that has not begun. -/
def Obligations.PowerRequestsMoveTheUnit : Prop :=
  ∀ (s : State) (a : Bool) (floor ceil : BitVec 3), mgmtAnswers s = true →
    ∃ t u, exec (.mgPowerReqOff a floor ceil) s = .next t ∧ exec (.mgPowerReqOn a floor ceil) s = .next u
      ∧ (∀ w ∈ [t, u], w.cfg = { s.cfg with autoOff := a, ceil := ceil, floor := if floor.toNat < ceil.toNat then ceil else floor })
      ∧ (s.ctl.state = .resetting → t.pwr.pending = 2 ∧ u.pwr.pending = 1)
      ∧ (s.ctl.state ≠ .resetting →
        (s.pwr.state = .active → s.pwr.move = .none → t.pwr.state = .quiesce ∧ t.ctl.stop = some .powerDown ∧ t.ctl.refuse = true
            ∧ t.pwr.slots = 16 ∧ (t.pwr.point = 7 ∨ t.pwr.opReq = some 7))
          ∧ (s.pwr.state = .gated → t.pwr.move = .leaving .gated ∧ t.pwr.downAfterExit = true)
          ∧ (s.pwr.state = .off → t.pwr.state = .off ∧ u.pwr.state = .powerUp ∧ u.pwr.railReq = true
              ∧ OutEvent.railRequest true ∈ u.out)
          ∧ (s.pwr.state ∈ [.powerUp, .quiesce, .checkpoint, .railOff, .holdup] → t.pwr.pending = 2 ∧ u.pwr.pending = 1
              ∧ t.pwr.state = s.pwr.state ∧ u.pwr.state = s.pwr.state)
          ∧ (s.pwr.state ∈ [.active, .gated, .retain] → u.pwr.pending = 0 ∧ u.pwr.downAfterExit = false))

/-- R605, R606, R608: with the rail up MG_INCARNATION rises and the point that the grant and CEIL allow is asked for; with the rail down
the unit is OFF, or powers up again when ON waits. Power-up ends with the unit FENCED, every register at its default but those of
MG_POWER_CTRL and MG_LANE_REPAIR, which the fuses give (R22), the SRAMs and the tables initialised (R11, R561). -/
def Obligations.PowerUpStartsTheUnitFenced : Prop :=
  ∀ (s : State) (level : Bool),
    (s.pwr.state = .powerUp → level = true → s.pwr.railAck = false → ∃ t, exec (.pwrRailAck level) s = .next t
        ∧ t.ctl.incarnation = s.ctl.incarnation + 1 ∧ t.pwr.railAck = true ∧ t.pwr.state = .powerUp
        ∧ OutEvent.opRequest (allowedPoint s) ∈ t.out)
      ∧ (s.pwr.state = .railOff → level = false → ∃ t, exec (.pwrRailAck level) s = .next t ∧ t.pwr.railAck = false ∧ t.pwr.pending = 0
        ∧ t.pwr.state = if s.pwr.pending = 1 then .powerUp else .off)
      ∧ (s.pwr.state ∉ [.powerUp, .railOff] → exec (.pwrRailAck level) s = .next { s with
          pwr := { s.pwr with
            railAck := level } })
      ∧ (s.pwr.state ≠ .powerUp ∨ s.pwr.railAck = false → exec .powerUpDone s = .next s)
      ∧ (s.pwr.state = .powerUp → s.pwr.railAck = true → ∃ t, exec .powerUpDone s = .next t ∧ t.ctl.state = .fenced
          ∧ t.ctl.fence = true ∧ t.ctl.ringsLost = !s.ctl.flushed ∧ t.ctl.incarnation = s.ctl.incarnation ∧ t.ctl.refuse = true
          ∧ t.cfg = { Cfg.reset with autoOff := s.cfg.autoOff, floor := s.cfg.floor, ceil := s.cfg.ceil }
          ∧ t.slots = [] ∧ t.chains = [] ∧ t.vis = [] ∧ t.tabs = Tables.reset ∧ t.rings.cache = [] ∧ t.rings.cmds = []
          ∧ t.pwr.grant = s.pwr.grant ∧ t.dev = s.dev ∧ t.tile = s.tile ∧ t.mg.laneRepair = s.mg.fuses
          ∧ (s.pwr.holdupReq = false → s.pwr.pending ≠ 2 → t.pwr.state = .active ∧ t.pwr.point = allowedPoint s ∧ t.pwr.pending = 0)
          ∧ (s.pwr.holdupReq = true → t.pwr.state = .holdup ∧ t.rings.fetchStopped = true)
          ∧ (s.pwr.holdupReq = false → s.pwr.pending = 2 → t.pwr.state = .quiesce))

/-! ## Power -/

/-- R581, R583, R586 to R596: droop stretches cycles until a window without it. A window over the grant takes one step down, the point first and then the
slot rate; one with room counts, and the tenth in a row takes one step up, the slot rate first; any other starts that count
again. A zero grant stops the issue, gates an empty chain, and another grant starts it again at point 7 with one slot.
PWR_THROTTLE takes a step down at a time. A change of point ends with its acknowledgement; one below the limit that has moved
meanwhile is followed by another. -/
def Obligations.PowerFollowsTheGrant : Prop :=
  ∀ (s : State) (level : Bool) (m h : Nat) (g : Byte) (a b c d : BitVec 10),
    (exec (.pwrDroop level) s = .next { s with
        pwr := { s.pwr with
          droop := level, droopSeen := s.pwr.droopSeen || level, stretch := s.pwr.stretch || (level && !s.det.trmActive) } })
      ∧ (∃ t, exec .droopWindowEnd s = .next t ∧ t.rings = s.rings ∧ t.pwr = { s.pwr with
          stretch := s.pwr.stretch && s.pwr.droopSeen, droopSeen := s.pwr.droop })
      ∧ (powerSteady s = false → exec (.powerWindow m h) s = .next s ∧ exec .throttleStep s = .next s)
      ∧ (powerSteady s = true → 125 * g.toNat < m → s.pwr.grant = g → ∃ t, exec (.powerWindow m h) s = .next t ∧ t.pwr.roomWindows = 0
          ∧ StepsDown s t)
      ∧ (powerSteady s = true → m ≤ 125 * g.toNat → s.pwr.grant = g → ∃ t, exec (.powerWindow m h) s = .next t
          ∧ (125 * g.toNat < h + 250 → t.pwr.roomWindows = 0 ∧ t.pwr.point = s.pwr.point ∧ t.pwr.slots = s.pwr.slots ∧ t.pwr.opReq = none)
          ∧ (h + 250 ≤ 125 * g.toNat → s.pwr.roomWindows + 1 < 10 → t.pwr.roomWindows = s.pwr.roomWindows + 1
              ∧ t.pwr.point = s.pwr.point ∧ t.pwr.slots = s.pwr.slots ∧ t.pwr.opReq = none)
          ∧ (h + 250 ≤ 125 * g.toNat → 9 ≤ s.pwr.roomWindows → s.pwr.risePace = 0 → s.pwr.throttle = false →
              t.pwr.point = s.pwr.point
                ∧ (s.pwr.slots.toNat < 16 → t.pwr.slots = s.pwr.slots + 1 ∧ t.pwr.opReq = none)
                ∧ (16 ≤ s.pwr.slots.toNat → (topPoint s).toNat < s.pwr.point.toNat →
                    t.pwr.slots = s.pwr.slots ∧ t.pwr.opReq = some (s.pwr.point - 1))
                ∧ (16 ≤ s.pwr.slots.toNat → s.pwr.point.toNat ≤ (topPoint s).toNat → t.pwr.slots = s.pwr.slots ∧ t.pwr.opReq = none)))
      ∧ (s.pwr.opReq = none → exec .pwrOpAck s = .next s)
      ∧ (∀ q, s.pwr.opReq = some q → ∃ t, exec .pwrOpAck s = .next t ∧ t.pwr.point = q ∧ t.rings = s.rings ∧ t.slots = s.slots
          ∧ ((topPoint s).toNat ≤ q.toNat → t.pwr = { s.pwr with
              opReq := none, point := q })
          ∧ (q.toNat < (topPoint s).toNat → t.pwr.opReq = none ∨ t.pwr.opReq = some (topPoint s)))
      ∧ (s.pwr.grantStop = false → ∃ t, exec (.mgtGrant g) s = .next t ∧ t.pwr.grant = g ∧ t.rings = s.rings
          ∧ (t.pwr.grantStop = true ↔ g = 0) ∧ t.pwr.point = s.pwr.point ∧ t.pwr.slots = s.pwr.slots)
      ∧ (s.pwr.grantStop = true → g ≠ 0 → s.pwr.state = .active → ∃ t, exec (.mgtGrant g) s = .next t ∧ t.pwr.grant = g
          ∧ t.pwr.grantStop = false ∧ t.pwr.slots = 1 ∧ (t.pwr.point = 7 ∨ t.pwr.opReq = some 7) ∧ t.rings = s.rings)
      ∧ (s.pwr.grantStop = false ∨ s.pwr.state ≠ .active ∨ s.pwr.move ≠ .none → exec .grantZeroGate s = .next s)
      ∧ (s.pwr.grantStop = true → s.pwr.state = .active → s.pwr.move = .none → s.ctl.state = .active ∨ s.ctl.state = .fenced →
          exec .grantZeroGate s = .next { s with
            pwr := { s.pwr with
              move := .entering .gated } })
      ∧ (∃ t, exec (.pwrThrottle level) s = .next t ∧ t.pwr = { s.pwr with
          throttle := level, risePace := t.pwr.risePace } ∧ t.rings = s.rings
          ∧ (level = true → t.pwr.risePace = s.pwr.risePace) ∧ (level = false → s.pwr.throttle = true → t.pwr.risePace = 1))
      ∧ (s.pwr.throttle = false → exec .throttleStep s = .next s)
      ∧ (s.pwr.throttle = true → powerSteady s = true → ∃ t, exec .throttleStep s = .next t ∧ StepsDown s t ∧ t.rings = s.rings)
      ∧ (s.ctl.state = .off → exec (.thmSenseUpdate a b c d) s = .next s)
      ∧ (s.ctl.state ≠ .off → exec (.thmSenseUpdate a b c d) s = .next { s with
          pwr := { s.pwr with
            thm := [a, b, c, d] } })

/-- R597 to R603, R609, R612 to R616: an idle unit goes to OFF when it may, else to the deepest state that the tolerances of its rings' VIs allow. An
entry or an exit ends in its state, with a power-down that waited; a unit unfenced meanwhile takes beats again (R33). A supply that fails stops fetching, and where no command holds the
chain the unit enters HOLDUP, whose checkpoint writes back every context; the restored supply lets it go on. -/
def Obligations.PowerStatesFollowActivity : Prop :=
  ∀ (s : State),
    (¬ idleNow s → exec .idleTimer s = .next s)
      ∧ (idleNow s → mayTurnOff s → ∃ t, exec .idleTimer s = .next t ∧ t.pwr.state = .quiesce ∧ t.ctl.stop = some .powerDown)
      ∧ (idleNow s → ¬ mayTurnOff s → exec .idleTimer s = .next (if boundAllows 3000 s then setMove s (.entering .retain)
          else if boundAllows 40 s then setMove s (.entering .gated) else s))
      ∧ ((∀ x, s.pwr.move ≠ .entering x) → exec .powerStateEntryDone s = .next s)
      ∧ (∀ x, s.pwr.move = .entering x → exec .powerStateEntryDone s = .next { s with
          pwr := { s.pwr with
            state := x
            move := if x = .retain ∧ s.pwr.holdupReq = true ∧ s.pwr.restored = true then .leaving .retain else .none } })
      ∧ ((∀ x, s.pwr.move ≠ .leaving x) → exec .powerStateExitDone s = .next s)
      ∧ (∀ x, s.pwr.move = .leaving x →
          (s.pwr.holdupReq = false → s.pwr.downAfterExit = false → s.pwr.pending ≠ 2 →
            ((s.ctl.refuse = false ∨ s.ctl.state ≠ .active ∨ s.ctl.fence = true ∨ s.ctl.stop ≠ none) →
                exec .powerStateExitDone s = .next { s with
                  pwr := { s.pwr with
                    state := .active, move := .none, pending := 0 } })
              ∧ (s.ctl.refuse = true → s.ctl.state = .active → s.ctl.fence = false → s.ctl.stop = none →
                ∃ t, exec .powerStateExitDone s = .next t ∧ t.pwr.state = .active ∧ t.pwr.move = .none
                  ∧ t.ctl = { s.ctl with refuse := false }
                  ∧ t.drain = { s.drain with credits := s.drain.credits + s.drain.withheld, withheld := 0 }))
            ∧ (s.pwr.holdupReq = false → s.pwr.downAfterExit = true → ∃ t, exec .powerStateExitDone s = .next t
              ∧ t.pwr.state = .quiesce ∧ t.ctl.stop = some .powerDown ∧ t.pwr.downAfterExit = false)
            ∧ (s.pwr.holdupReq = true → s.pwr.restored = true → s.pwr.downAfterExit = false → s.pwr.pending ≠ 2 →
              ∃ t, exec .powerStateExitDone s = .next t ∧ t.pwr.state = .active ∧ t.pwr.holdupReq = false
                ∧ t.rings = { s.rings with
                    fetchStopped := s.ctl.fatal }
                ∧ t.ctl.refuse = (decide (s.ctl.state ≠ .active) || s.ctl.fence)))
      ∧ (s.pwr.state ∈ [.quiesce, .checkpoint, .railOff, .off, .holdup] → exec .pwrHoldup s = .next s)
      ∧ (s.pwr.state = .active → s.pwr.move = .none → s.ctl.state ≠ .resetting → ∃ t, exec .pwrHoldup s = .next t ∧ t.pwr.holdupReq = true
          ∧ t.pwr.restored = false ∧ t.rings = { s.rings with
              fetchStopped := true, chosen := t.rings.chosen }
          ∧ (s.rings.holder = none → t.pwr.state = .holdup ∧ t.ctl.refuse = true ∧ t.pwr.slots = 16
              ∧ (t.pwr.point = 7 ∨ t.pwr.opReq = some 7))
          ∧ (s.rings.holder ≠ none → t.pwr.state = .active ∧ t.ctl = s.ctl))
      ∧ (s.pwr.state ≠ .holdup ∨ s.pwr.move ≠ .none → exec .holdupCheckpointDone s = .next s)
      ∧ (s.pwr.state = .holdup → s.pwr.move = .none → ∃ t, exec .holdupCheckpointDone s = .next t ∧ t.pwr.move = .entering .retain
          ∧ t.slots = s.slots ∧ t.rings.cache.map (fun x => (x.ring, x.ctx)) = s.rings.cache.map (fun x => (x.ring, x.ctx))
          ∧ ∀ x ∈ t.rings.cache, x.dirty = false)
      ∧ (s.pwr.holdupReq = false → exec .pwrRestored s = .next s)
      ∧ (s.pwr.holdupReq = true → exec .pwrRestored s = .next { s with
          pwr := { s.pwr with
            restored := true
            move := if s.pwr.state = .retain ∧ s.pwr.move = .none then .leaving .retain else s.pwr.move } })

/-! ## Keys, VI reset -/

/-- R643, R644, R645: keys are erased for one VI or for all; the eighth word for one VI installs its key, and a word for another VI
discards what has been loaded. R268, R330, R491, R647, R671: a VI reset closes every slot and chain of the VI, erases its key, its
events and its counters, and disables its rings, those with a command after it. A write while one goes on is ignored and
counted. -/
def Obligations.KeysLoadAndViResetsErase : Prop :=
  ∀ (s : State) (v : ViId) (w : W32),
    (mgmtAnswers s = true → ∃ t, exec (.mgKeyEraseVi v) s = .next t ∧ (viOf t v).key = none ∧ (∀ u, u ≠ v → viOf t u = viOf s u)
        ∧ t.mg.keyLast = 3 ∧ t.mg.keyLastVi = v)
      ∧ (mgmtAnswers s = true → ∃ t, exec .mgKeyEraseAll s = .next t ∧ (∀ u, (viOf t u).key = none) ∧ t.mg.keyLast = 3)
      ∧ (s.ctl.state = .off → exec (.mgtKeyWord v w) s = .next s)
      ∧ (s.ctl.state ≠ .off → s.mg.keyPartial = none → exec (.mgtKeyWord v w) s = .next { s with
          mg := { s.mg with
            keyPartial := some (v, [w]) } })
      ∧ (∀ u ws, s.ctl.state ≠ .off → s.mg.keyPartial = some (u, ws) → u ≠ v → ∃ t, exec (.mgtKeyWord v w) s = .next t
          ∧ t.vis = s.vis ∧ t.mg = { s.mg with
              keyLast := 2, keyLastVi := u, keyPartial := some (v, [w]) })
      ∧ (∀ ws, s.ctl.state ≠ .off → s.mg.keyPartial = some (v, ws) → ws.length + 1 < 8 → exec (.mgtKeyWord v w) s = .next { s with
          mg := { s.mg with
            keyPartial := some (v, ws ++ [w]) } })
      ∧ (∀ a b c d e f g, s.ctl.state ≠ .off → s.mg.keyPartial = some (v, [a, b, c, d, e, f, g]) →
          ∃ t key, exec (.mgtKeyWord v w) s = .next t ∧ (viOf t v).key = some key ∧ (∀ u, u ≠ v → viOf t u = viOf s u)
            ∧ t.mg.keyPartial = none ∧ t.mg.keyLast = 1 ∧ t.mg.keyLastVi = v
            ∧ ∀ i < 8, field key (32 * i + 31) (32 * i) = (([a, b, c, d, e, f, g, w] : List W32).getD i 0).toNat)
      ∧ (mgmtAnswers s = true → s.mg.viReset.isSome → exec (.mgViReset v) s = .next (mgIgnored (wake s)))
      ∧ (mgmtAnswers s = true → s.mg.viReset = none → ∃ t, exec (.mgViReset v) s = .next t
        ∧ (∀ h, (slotAt t h).isOpen = true → (slotAt t h).owner ≠ v) ∧ (∀ c, (chainAt t c).valid = true → (chainAt t c).owner ≠ v)
        ∧ (viOf t v).key = none ∧ (∀ n, eventOf t v n = 0) ∧ (∀ n < 20, viCounter t v n = 0)
        ∧ (∀ a ∈ t.rings.actions, a.vi ≠ v) ∧ (∀ e ∈ t.rings.tumblers, e.vi ≠ v)
        ∧ ∀ r, isCovered r = false → (viRange s false v).base ≤ r → r < (viRange s false v).base + (viRange s false v).count →
            (cacheEntry s r).isSome → (ctxOfRing s r).state ≠ .disabled →
            (cmdOf s r = none → (ctxOfRing s r).state ≠ .suspended → (ctxOfRing t r).state = .disabled)
              ∧ ((cmdOf s r).isSome ∨ (ctxOfRing s r).state = .suspended → ringDeferred t r = some .disable))

/-! ## Errors found -/

/-- R537 to R539, R558: WDOG_MS without progress of a ring that has work, its context cached or in memory, sets SUSPECT and pulses its line (its entry's class is the model's reading,
log entry 24). The scrubber corrects a single bit; a word that it cannot correct zeroes or poisons the slot that it lies in, or makes its
table bank bad, and a bad shadow bank is not valid. -/
def Obligations.WatchdogAndScrubberReport : Prop :=
  ∀ (s : State) (w : ScrubWord) (found : ScrubResult) (h e : Nat) (k : Fin 32) (b : Fin 4),
    (s.cfg.wdogMs = 0 ∨ s.ctl.state ≠ .active ∨ s.ctl.dbgHalt = true
        ∨ (∀ r ∈ flushRings false s, standingState s r ∉ [.ready, .running, .suspended]) → exec .watchdogExpiry s = .next s)
      ∧ (s.cfg.wdogMs ≠ 0 → s.ctl.state = .active → s.ctl.dbgHalt = false →
          (∃ r ∈ flushRings false s, standingState s r ∈ [.ready, .running, .suspended]) →
          ∃ t, exec .watchdogExpiry s = .next t ∧ t.ctl = { s.ctl with
            suspect := true } ∧ OutEvent.mgtIrq 3 ∈ t.out ∧ t.rings = s.rings ∧ t.slots = s.slots)
      ∧ (s.ctl.state = .off ∨ wordExists w = false ∨ found = .clean → exec (.scrub w found) s = .next s)
      ∧ (s.ctl.state ≠ .off → wordExists w = true → found = .single → ∃ t, exec (.scrub w found) s = .next t
          ∧ OutEvent.mgtIrq 0 ∈ t.out ∧ t.slots = s.slots ∧ t.tabs = s.tabs ∧ t.rings = s.rings)
      ∧ (s.ctl.state ≠ .off → w = .rowStore h k → wordExists w = true → found = .double → ∃ t, exec (.scrub w found) s = .next t
          ∧ OutEvent.mgtIrq 1 ∈ t.out ∧ slotAt t h = (if k.val < 2 then Slot.zero else { slotAt s h with
              poison := true }) ∧ (∀ j, j ≠ h → slotAt t j = slotAt s j) ∧ t.tabs = s.tabs ∧ t.rings = s.rings)
      ∧ (s.ctl.state ≠ .off → w = .tableStore b e → wordExists w = true → found = .double → ∃ t, exec (.scrub w found) s = .next t
          ∧ OutEvent.mgtIrq 1 ∈ t.out ∧ t.slots = s.slots ∧ t.rings = s.rings ∧ t.tabs = { s.tabs with
              bad := setInsert s.tabs.bad b.val, shadowValid := s.tabs.shadowValid && decide (b.val ≠ s.tabs.shadow) })

/-! ## Determinism and debug -/

/-- R516, R518: MG_DET_CTRL is ignored where it asks for trace and replay together or for a point below 2; a change waits for a
quiescent point, where the boundary and cycle counts start at 0 and a MARK is written; a unit in timing-repeatable mode moves to a
new point (R509). R521, R523: MG_TRACE_RPTR moves the read pointer, and with room again the unit stalls no longer. A replay whose
forced choice cannot be made ends with DIVERGED, the doorbells that it held applied. -/
def Obligations.DeterminismTraceAndReplayAct : Prop :=
  ∀ (s : State) (x : W32), mgmtAnswers s = true →
    (bit x 1 = true ∧ bit x 2 = true ∨ field x 6 4 < 2 → exec (.mgDetCtrl x) s = .next (mgIgnored (wake s)))
      ∧ (¬ (bit x 1 = true ∧ bit x 2 = true) → 2 ≤ field x 6 4 → s.det.trmActive = true → powerSteady s = true →
          s.pwr.point = trmTarget s → ∃ t, exec (.mgDetCtrl x) s = .next t ∧ t.cfg.trmPoint = BitVec.ofNat 3 (field x 6 4)
            ∧ (t.pwr.point = trmTarget t ∧ t.pwr.opReq = none ∨ t.pwr.opReq = some (trmTarget t)))
      ∧ (¬ (bit x 1 = true ∧ bit x 2 = true) → 2 ≤ field x 6 4 → s.det.trmActive = false ∨ powerSteady s = false →
          exec (.mgDetCtrl x) s = .next { wake s with
          cfg := { s.cfg with
            trmPoint := BitVec.ofNat 3 (field x 6 4), traceStall := bit x 3 }
          det := { s.det with
            trm := bit x 0, trace := bit x 1, replay := bit x 2
            changePending := decide (bit x 0 ≠ s.det.trmActive) || decide (bit x 1 ≠ s.det.traceActive)
              || decide (bit x 2 ≠ s.det.replayActive) } })
      ∧ (s.det.changePending = false ∨ quiescent s = false ∨ pageAnswers s = false → exec .quiescentPoint s = .next s)
      ∧ (s.det.changePending = true → quiescent s = true → pageAnswers s = true → s.det.heldDoorbells = [] →
          ∃ t, exec .quiescentPoint s = .next t ∧ t.det.changePending = false ∧ t.det.bseq = 0 ∧ t.fcyc = 0 ∧ t.det.trmActive = s.det.trm
            ∧ t.det.traceActive = s.det.trace ∧ t.det.replayActive = s.det.replay
            ∧ t.det.replayPos = BitVec.ofNat 32 (s.cfg.traceRptr.toNat * 32 % traceSize s) ∧ t.rings = s.rings
            ∧ (noTrace s → traceFull s = false → t.det.wptr = BitVec.ofNat 32 ((s.det.wptr.toNat + 32) % traceSize s)))
      ∧ (∃ t, exec (.mgTraceRptr x) s = .next t
        ∧ t.cfg = { s.cfg with traceRptr := BitVec.ofNat 27 (field x 31 5) } ∧ t.rings = s.rings ∧ t.slots = s.slots
        ∧ (noTrace s → t.det = { s.det with stalled := false }))
      ∧ (s.det.replayActive = false ∨ replayStuck s = false → exec .replayDivergeTimeout s = .next s)
      ∧ (s.det.replayActive = true → replayStuck s = true → ∃ t, exec .replayDivergeTimeout s = .next t ∧ t.det.diverged = true
          ∧ t.det.replayActive = false ∧ t.det.heldDoorbells = [] ∧ (s.det.heldDoorbells = [] → t.rings = s.rings))

/-- R168, R576, R653: debug halt is entered only in the chip's debug state, at once when no command has started its work; there a write to
the active tumbler replaces one stage and taints the command. R650: MG_RING_CTX_BASE moves the context region, its changed contexts
written back, only while every ring is DISABLED. R48, R578, R596: test entry wipes the unit before its test access opens; a removed
rail loses the same. R49: what TST_SCAN shows while the access is open is left open, and it reads 0 once it is closed. -/
def Obligations.DebugTestAndPowerLossAct : Prop :=
  ∀ (s : State) (rc : RunCmd) (k : Fin 8) (x : W64) (chip halt : Bool),
    (∃ t, exec (.debugHalt chip halt) s = .next t ∧ t = { s with ctl := t.ctl } ∧ t.ctl.chipDebug = chip
        ∧ (chip = false ∨ halt = false → t.ctl.dbgHalt = false ∧ t.ctl.dbgHaltReq = false)
        ∧ (chip = true → halt = true → s.rings.holder = none → t.ctl.dbgHalt = true)
        ∧ (chip = true → halt = true → s.ctl.dbgHalt = false → holderCmd s = some rc → rc.prog.checked = true →
            t.ctl.dbgHalt = false ∧ t.ctl.dbgHaltReq = true))
      ∧ (mgmtAnswers s = true → s.ctl.dbgHalt = false → exec (.mgDbgTumbler k x) s = .next (mgIgnored (wake s)))
      ∧ (mgmtAnswers s = true → s.ctl.dbgHalt = true → holderCmd s = some rc → ∃ t rc', exec (.mgDbgTumbler k x) s = .next t
          ∧ holderCmd t = some rc' ∧ rc'.tainted = true ∧ rc' = { rc with tumbler := rc'.tumbler, tainted := true }
          ∧ ∀ j < 8, field rc'.tumbler (64 * j + 63) (64 * j)
              = if j = k.val then x.toNat else field rc.tumbler (64 * j + 63) (64 * j))
      ∧ (mgmtAnswers s = true → (createdRings s).any (fun r => !isCovered r) = true → exec (.mgRingCtxBase x) s = .next (mgIgnored (wake s)))
      ∧ (mgmtAnswers s = true → (createdRings s).any (fun r => !isCovered r) = false → ∃ t, exec (.mgRingCtxBase x) s = .next t
        ∧ t.cfg = { s.cfg with ctxBase := BitVec.ofNat 40 (field x 63 24) } ∧ (∀ e ∈ t.rings.cache, isCovered e.ring = true)
        ∧ t.slots = s.slots)
      ∧ (s.ctl.test ≠ .closed → exec .tstModeReq s = .next s)
      ∧ (s.ctl.test = .closed → ∃ t, exec .tstModeReq s = .next t ∧ Wiped s t ∧ t.ctl.test = .wiping)
      ∧ (s.ctl.test ≠ .wiping → exec .testWipeDone s = .next s)
      ∧ (s.ctl.test = .wiping → ∃ scan, exec .testWipeDone s = .next { s with
          free := s.free + 1
          ctl := { s.ctl with
            test := .opened }
          pins := { s.pins with
            tstScan := scan }
          out := s.out ++ [.testOpen true, .testScan scan] })
      ∧ (s.ctl.test = .opened → ∃ t, exec (.mgPowerReqOn chip 7 0) s = .next t ∧ t.ctl.test = .closed ∧ t.pins.tstScan = 0)
      ∧ ∃ t, exec .powerLoss s = .next t ∧ Wiped s t ∧ t.ctl.test = .closed ∧ t.pwr.railReq = false ∧ t.pwr.railAck = false
        ∧ t.pins.tstScan = 0

/-! ## Registers, read and written -/

/-- R634, R635, R637, R655: VI_MODE keeps its fields, a reserved encoding is ignored and counted, and it reads back as it was written; a read
changes no state but what it answers; a 64-bit management register is captured whole by a read of its low word, and written whole
by a write of its high word. -/
def Obligations.RegistersReadBack : Prop :=
  ∀ (s : State) (port : RegPort) (v : ViId) (x y : W64) (off : BitVec 16),
    (Reached port s v → viModeGood x = true → ∃ t, exec (.registerWrite port 0x010 x) s = .next t
        ∧ SetsVi s t v { cfgVi s v with mode := viModeOf x })
      ∧ (Reached port s v → viModeGood x = false → exec (.registerWrite port 0x010 x) s = .next (portIgnored port (wake s)))
      ∧ viModeBits (viModeOf x) = x &&& 0xFFFFF
      ∧ (Reached port s v → off.toNat < 0x1000 → exec (.registerRead port off) s = .next { wake s with
          readData := BitVec.ofNat 64 (viPageValue s v off.toNat) })
      ∧ ((reachPage port s).1 = none → port ≠ .mgmt → ∃ t, exec (.registerRead port off) s = .next t ∧ t.readData = 0)
      ∧ (mgmtAnswers s = true → ∃ t u, exec (.registerRead .mgmt 0x0048) s = .next t ∧ exec (.registerRead .mgmt 0x004C) t = .next u
          ∧ t.readData.toNat + 2 ^ 32 * u.readData.toNat = s.cfg.coverBase.toNat * 2 ^ 24)
      ∧ (mgmtAnswers s = true → ∃ t u, exec (.registerWrite .mgmt 0x0048 x) s = .next t ∧ exec (.registerWrite .mgmt 0x004C y) t = .next u
          ∧ t.cfg = s.cfg ∧ u.cfg = { s.cfg with coverBase := BitVec.ofNat 40 ((field x 31 0 + 2 ^ 32 * field y 31 0) / 2 ^ 24) })
      ∧ (mgmtAnswers s = true → off.toNat % 4 ≠ 0 → exec (.registerWrite .mgmt off x) s = .next (mgIgnored (wake s)))

/-! ## The command processor -/

/-- R163, R469, R477, R478: away from a boundary arbitration does nothing; at one, a ring whose next packet has been read and has no tumbler
starts it: HEAD moves, the ring is RUNNING and holds the chain, with its packet, its descriptors and the values in effect. Of
the rings that may take the chain, one of the lowest class does. -/
def Obligations.ArbitrationStartsCommands : Prop :=
  ∀ (s : State),
    (atBoundary s = false → exec (.arbitrate none) s = .next s)
      ∧ (∀ r, chooseRing s = some r → ∃ e ∈ eligibleRings s, e.ring = r ∧ ∀ f ∈ eligibleRings s, ctxClass e.ctx ≤ ctxClass f.ctx)
      ∧ ∀ (r : Nat) (f : Fetched), s.rings.holder = none → mayArbitrate s = true → s.pwr.holdupReq = false → s.ctl.dbgHaltReq = false →
          s.rings.wanted = [] → s.rings.chosen = none → s.throttled = 0 → s.det.replayActive = false → (eligibleRings s).length = 1 → chooseRing s = some r →
          (cacheEntry s r).isSome → (ctxOfRing s r).state = .ready →
          s.rings.fetched.find? (fun x => decide (x.ring = r) && decide (x.index = (ctxOfRing s r).head)) = some f →
          f.poison = false → f.failed = false → pkTaddr f.bytes = 0 → opcodeKnown (pkOpcode f.bytes) = true → descsPoisoned s f.bytes = false →
          ∃ t rc, exec (.arbitrate none) s = .next t ∧ t.rings.holder = some r ∧ holderCmd t = some rc ∧ rc.ring = r
            ∧ rc.vi = ctxOwner (ctxOfRing s r) ∧ rc.seq = f.index ∧ rc.packet = f.bytes ∧ rc.descs = readDescs s f.bytes
            ∧ rc.phase = .running ∧ rc.prog = Progress.zero ∧ rc.bank = some s.tabs.active
            ∧ rc.latched = latch s (isCovered r) (ctxOwner (ctxOfRing s r)) f.bytes
            ∧ ctxOfRing t r = { ctxOfRing s r with head := (ctxOfRing s r).head + 1, state := .running }
            ∧ t.det.bseq = s.det.bseq + 1

/-- R475, R477, R479, R537, R548: a quantum that has passed ends a turn only against a ring of its class; a context that returns enters the
cache, DISABLED when it is poisoned; up to 8 packets from HEAD, never past TAIL, are held, each with the poison and the error of its
read; a tumbler word that returns whole enters the cache, and one with poison or an error does not. What has not been asked for
changes nothing. -/
def Obligations.ReadsReturn : Prop :=
  ∀ (s : State) (ring : Nat) (v : ViId) (a : W64) (error : Option HwError),
    (s.rings.turn = none → exec .quantumExpiry s = .next s)
      ∧ (∀ t0, s.rings.turn = some t0 → s.rings.holder ≠ some t0.ring → exec .quantumExpiry s = .next s)
      ∧ (∀ t0, s.rings.turn = some t0 → s.rings.holder = some t0.ring → exec .quantumExpiry s = .next { s with
          rings := { s.rings with
            turn := some { t0 with expired := true } } })
      ∧ (∀ t0 e, s.rings.turn = some t0 → t0.expired = true → e ∈ eligibleRings s → e.ring = t0.ring → e.ctx.state = .running →
          ((∀ f ∈ eligibleRings s, f ≠ e → ctxClass e.ctx < ctxClass f.ctx) → chooseRing s = some t0.ring)
            ∧ ((∀ f ∈ eligibleRings s, ctxClass e.ctx ≤ ctxClass f.ctx) → spFind s.rings.lastHolder (ctxClass e.ctx) = some t0.ring →
              (∃ f ∈ eligibleRings s, f.ring ≠ t0.ring ∧ ctxClass f.ctx = ctxClass e.ctx) → chooseRing s ≠ some t0.ring))
      ∧ (s.rings.reads.contains ring = false → exec (.contextReadReturn ring none) s = .next s)
      ∧ (s.rings.reads.contains ring = true → s.rings.wanted = [] → s.rings.actions = [] → s.rings.cache.length < Config.ctxEntries →
          (sectorPoison s .device (ctxAddr s ring) = false → (memCtx s ring).state.carriesWork = false →
            ∃ t, exec (.contextReadReturn ring none) s = .next t ∧ t.rings.reads = s.rings.reads.filter (fun r => decide (r ≠ ring))
              ∧ cacheEntry t ring = some ⟨ring, memCtx s ring, false⟩ ∧ t.slots = s.slots)
          ∧ (sectorPoison s .device (ctxAddr s ring) = true ∨ error = some .memoryResponse →
            ∃ t, exec (.contextReadReturn ring (if sectorPoison s .device (ctxAddr s ring) = true then none else error)) s = .next t
              ∧ cacheEntry t ring = some ⟨ring, { memCtx s ring with state := .disabled }, false⟩ ∧ OutEvent.mgtIrq 1 ∈ t.out))
      ∧ (s.rings.fetches.contains ring = false → exec (.commandFetchReturn ⟨ring, none⟩) s = .next s)
      ∧ (s.rings.fetches.contains ring = true → (cacheEntry s ring).isSome → (ctxOfRing s ring).state = .ready →
          error = none ∨ error = some .memoryResponse → ∃ t, exec (.commandFetchReturn ⟨ring, error⟩) s = .next t ∧ ring ∉ t.rings.fetches
            ∧ ∀ f, f.ring = ring → (f ∈ t.rings.fetched ↔
                ∃ k, k < min 8 ((ctxOfRing s ring).tail - (ctxOfRing s ring).head).toNat
                  ∧ f = ⟨ring, (ctxOfRing s ring).head + BitVec.ofNat 32 k,
                      BitVec.ofNat 512 (readNat s .device
                        (packetAddr (ctxOfRing s ring) ((ctxOfRing s ring).head + BitVec.ofNat 32 k).toNat) 64),
                      sectorPoison s .device (packetAddr (ctxOfRing s ring) ((ctxOfRing s ring).head + BitVec.ofNat 32 k).toNat),
                      decide (error = some .memoryResponse)⟩))
      ∧ (s.rings.tumblerReads.contains (v, a) = false → exec (.tumblerFetchReturn v ⟨a, none⟩) s = .next s)
      ∧ (s.rings.tumblerReads.contains (v, a) = true → error = none ∨ error = some .memoryResponse →
          ∃ t, exec (.tumblerFetchReturn v ⟨a, error⟩) s = .next t ∧ (v, a) ∉ t.rings.tumblerReads
            ∧ tumblerHit t v a = if sectorPoison s .device a.toNat = false ∧ error = none
                then some (BitVec.ofNat 512 (readNat s .device a.toNat 64)) else tumblerHit s v a)

/-! ## The whole machine -/

/-- R637: no step brings a reserved encoding into a field that software sets: VI_MODE's RND and REFPOL, the point of timing-repeatable
mode, the size of the trace ring, the event selections. -/
def Obligations.NoReservedEncodingIsKept : Prop :=
  ∀ s t : State, cfgLegal s.cfg = true → StepsTo s t → cfgLegal t.cfg = true

/-- After reset nothing waits, no slot is open, no chain is valid, no ring has work, no event or counter has moved, and no field
that software sets holds a reserved encoding. -/
def Obligations.ResetStateIsEmpty : Prop :=
  State.reset.pending = [] ∧ (∀ h, slotAt State.reset h = Slot.zero) ∧ (∀ k, (chainAt State.reset k).valid = false)
    ∧ State.reset.rings.cache = [] ∧ State.reset.rings.cmds = [] ∧ State.reset.rings.holder = none
    ∧ (∀ v n, eventOf State.reset v n = 0) ∧ (∀ n < 20, unitCounter State.reset n = 0)
    ∧ cfgLegal State.reset.cfg = true
end

