-- ==== Sys2Proof/Laws/State.lean ====
section
/-! SUPPORT. What each named update of the state leaves in each field: one lemma per field and update, true by unfolding, so that
no later proof unfolds a record update. -/

namespace Sys2Proof.Machine

set_option Elab.async false

/-! ## State.withPending -/

@[simp] theorem withPending_pending (s : State) (q : List Instr) : (s.withPending q).pending = q := rfl
@[simp] theorem withPending_cfg (s : State) (q : List Instr) : (s.withPending q).cfg = s.cfg := rfl
@[simp] theorem withPending_free (s : State) (q : List Instr) : (s.withPending q).free = s.free := rfl
@[simp] theorem withPending_out (s : State) (q : List Instr) : (s.withPending q).out = s.out := rfl
@[simp] theorem withPending_readData (s : State) (q : List Instr) : (s.withPending q).readData = s.readData := rfl
@[simp] theorem withPending_tclk (s : State) (q : List Instr) : (s.withPending q).tclk = s.tclk := rfl
@[simp] theorem withPending_fcyc (s : State) (q : List Instr) : (s.withPending q).fcyc = s.fcyc := rfl
@[simp] theorem withPending_throttled (s : State) (q : List Instr) : (s.withPending q).throttled = s.throttled := rfl
@[simp] theorem withPending_pins (s : State) (q : List Instr) : (s.withPending q).pins = s.pins := rfl
@[simp] theorem withPending_shown (s : State) (q : List Instr) : (s.withPending q).shown = s.shown := rfl
@[simp] theorem withPending_ctl (s : State) (q : List Instr) : (s.withPending q).ctl = s.ctl := rfl
@[simp] theorem withPending_twin (s : State) (q : List Instr) : (s.withPending q).twin = s.twin := rfl
@[simp] theorem withPending_pwr (s : State) (q : List Instr) : (s.withPending q).pwr = s.pwr := rfl
@[simp] theorem withPending_det (s : State) (q : List Instr) : (s.withPending q).det = s.det := rfl
@[simp] theorem withPending_mg (s : State) (q : List Instr) : (s.withPending q).mg = s.mg := rfl
@[simp] theorem withPending_log (s : State) (q : List Instr) : (s.withPending q).log = s.log := rfl
@[simp] theorem withPending_drain (s : State) (q : List Instr) : (s.withPending q).drain = s.drain := rfl
@[simp] theorem withPending_shift (s : State) (q : List Instr) : (s.withPending q).shift = s.shift := rfl
@[simp] theorem withPending_rings (s : State) (q : List Instr) : (s.withPending q).rings = s.rings := rfl
@[simp] theorem withPending_slots (s : State) (q : List Instr) : (s.withPending q).slots = s.slots := rfl
@[simp] theorem withPending_tabs (s : State) (q : List Instr) : (s.withPending q).tabs = s.tabs := rfl
@[simp] theorem withPending_chains (s : State) (q : List Instr) : (s.withPending q).chains = s.chains := rfl
@[simp] theorem withPending_hinge (s : State) (q : List Instr) : (s.withPending q).hinge = s.hinge := rfl
@[simp] theorem withPending_vis (s : State) (q : List Instr) : (s.withPending q).vis = s.vis := rfl
@[simp] theorem withPending_ev (s : State) (q : List Instr) : (s.withPending q).ev = s.ev := rfl
@[simp] theorem withPending_dev (s : State) (q : List Instr) : (s.withPending q).dev = s.dev := rfl
@[simp] theorem withPending_tile (s : State) (q : List Instr) : (s.withPending q).tile = s.tile := rfl
@[simp] theorem withPending_twinTile (s : State) (q : List Instr) : (s.withPending q).twinTile = s.twinTile := rfl

/-! ## emit -/

@[simp] theorem emit_pending (s : State) (e : OutEvent) : (emit s e).pending = s.pending := rfl
@[simp] theorem emit_cfg (s : State) (e : OutEvent) : (emit s e).cfg = s.cfg := rfl
@[simp] theorem emit_free (s : State) (e : OutEvent) : (emit s e).free = s.free := rfl
@[simp] theorem emit_out (s : State) (e : OutEvent) : (emit s e).out = s.out ++ [e] := rfl
@[simp] theorem emit_readData (s : State) (e : OutEvent) : (emit s e).readData = s.readData := rfl
@[simp] theorem emit_tclk (s : State) (e : OutEvent) : (emit s e).tclk = s.tclk := rfl
@[simp] theorem emit_fcyc (s : State) (e : OutEvent) : (emit s e).fcyc = s.fcyc := rfl
@[simp] theorem emit_throttled (s : State) (e : OutEvent) : (emit s e).throttled = s.throttled := rfl
@[simp] theorem emit_pins (s : State) (e : OutEvent) : (emit s e).pins = s.pins := rfl
@[simp] theorem emit_shown (s : State) (e : OutEvent) : (emit s e).shown = s.shown := rfl
@[simp] theorem emit_ctl (s : State) (e : OutEvent) : (emit s e).ctl = s.ctl := rfl
@[simp] theorem emit_twin (s : State) (e : OutEvent) : (emit s e).twin = s.twin := rfl
@[simp] theorem emit_pwr (s : State) (e : OutEvent) : (emit s e).pwr = s.pwr := rfl
@[simp] theorem emit_det (s : State) (e : OutEvent) : (emit s e).det = s.det := rfl
@[simp] theorem emit_mg (s : State) (e : OutEvent) : (emit s e).mg = s.mg := rfl
@[simp] theorem emit_log (s : State) (e : OutEvent) : (emit s e).log = s.log := rfl
@[simp] theorem emit_drain (s : State) (e : OutEvent) : (emit s e).drain = s.drain := rfl
@[simp] theorem emit_shift (s : State) (e : OutEvent) : (emit s e).shift = s.shift := rfl
@[simp] theorem emit_rings (s : State) (e : OutEvent) : (emit s e).rings = s.rings := rfl
@[simp] theorem emit_slots (s : State) (e : OutEvent) : (emit s e).slots = s.slots := rfl
@[simp] theorem emit_tabs (s : State) (e : OutEvent) : (emit s e).tabs = s.tabs := rfl
@[simp] theorem emit_chains (s : State) (e : OutEvent) : (emit s e).chains = s.chains := rfl
@[simp] theorem emit_hinge (s : State) (e : OutEvent) : (emit s e).hinge = s.hinge := rfl
@[simp] theorem emit_vis (s : State) (e : OutEvent) : (emit s e).vis = s.vis := rfl
@[simp] theorem emit_ev (s : State) (e : OutEvent) : (emit s e).ev = s.ev := rfl
@[simp] theorem emit_dev (s : State) (e : OutEvent) : (emit s e).dev = s.dev := rfl
@[simp] theorem emit_tile (s : State) (e : OutEvent) : (emit s e).tile = s.tile := rfl
@[simp] theorem emit_twinTile (s : State) (e : OutEvent) : (emit s e).twinTile = s.twinTile := rfl

/-! ## takeFree -/

@[simp] theorem takeFree_pending (s : State) : (takeFree s).2.pending = s.pending := rfl
@[simp] theorem takeFree_cfg (s : State) : (takeFree s).2.cfg = s.cfg := rfl
@[simp] theorem takeFree_free (s : State) : (takeFree s).2.free = s.free + 1 := rfl
@[simp] theorem takeFree_out (s : State) : (takeFree s).2.out = s.out := rfl
@[simp] theorem takeFree_readData (s : State) : (takeFree s).2.readData = s.readData := rfl
@[simp] theorem takeFree_tclk (s : State) : (takeFree s).2.tclk = s.tclk := rfl
@[simp] theorem takeFree_fcyc (s : State) : (takeFree s).2.fcyc = s.fcyc := rfl
@[simp] theorem takeFree_throttled (s : State) : (takeFree s).2.throttled = s.throttled := rfl
@[simp] theorem takeFree_pins (s : State) : (takeFree s).2.pins = s.pins := rfl
@[simp] theorem takeFree_shown (s : State) : (takeFree s).2.shown = s.shown := rfl
@[simp] theorem takeFree_ctl (s : State) : (takeFree s).2.ctl = s.ctl := rfl
@[simp] theorem takeFree_twin (s : State) : (takeFree s).2.twin = s.twin := rfl
@[simp] theorem takeFree_pwr (s : State) : (takeFree s).2.pwr = s.pwr := rfl
@[simp] theorem takeFree_det (s : State) : (takeFree s).2.det = s.det := rfl
@[simp] theorem takeFree_mg (s : State) : (takeFree s).2.mg = s.mg := rfl
@[simp] theorem takeFree_log (s : State) : (takeFree s).2.log = s.log := rfl
@[simp] theorem takeFree_drain (s : State) : (takeFree s).2.drain = s.drain := rfl
@[simp] theorem takeFree_shift (s : State) : (takeFree s).2.shift = s.shift := rfl
@[simp] theorem takeFree_rings (s : State) : (takeFree s).2.rings = s.rings := rfl
@[simp] theorem takeFree_slots (s : State) : (takeFree s).2.slots = s.slots := rfl
@[simp] theorem takeFree_tabs (s : State) : (takeFree s).2.tabs = s.tabs := rfl
@[simp] theorem takeFree_chains (s : State) : (takeFree s).2.chains = s.chains := rfl
@[simp] theorem takeFree_hinge (s : State) : (takeFree s).2.hinge = s.hinge := rfl
@[simp] theorem takeFree_vis (s : State) : (takeFree s).2.vis = s.vis := rfl
@[simp] theorem takeFree_ev (s : State) : (takeFree s).2.ev = s.ev := rfl
@[simp] theorem takeFree_dev (s : State) : (takeFree s).2.dev = s.dev := rfl
@[simp] theorem takeFree_tile (s : State) : (takeFree s).2.tile = s.tile := rfl
@[simp] theorem takeFree_twinTile (s : State) : (takeFree s).2.twinTile = s.twinTile := rfl

/-! ## setVi -/

@[simp] theorem setVi_pending (s : State) (v : ViId) (x : ViState) : (setVi s v x).pending = s.pending := rfl
@[simp] theorem setVi_cfg (s : State) (v : ViId) (x : ViState) : (setVi s v x).cfg = s.cfg := rfl
@[simp] theorem setVi_free (s : State) (v : ViId) (x : ViState) : (setVi s v x).free = s.free := rfl
@[simp] theorem setVi_out (s : State) (v : ViId) (x : ViState) : (setVi s v x).out = s.out := rfl
@[simp] theorem setVi_readData (s : State) (v : ViId) (x : ViState) : (setVi s v x).readData = s.readData := rfl
@[simp] theorem setVi_tclk (s : State) (v : ViId) (x : ViState) : (setVi s v x).tclk = s.tclk := rfl
@[simp] theorem setVi_fcyc (s : State) (v : ViId) (x : ViState) : (setVi s v x).fcyc = s.fcyc := rfl
@[simp] theorem setVi_throttled (s : State) (v : ViId) (x : ViState) : (setVi s v x).throttled = s.throttled := rfl
@[simp] theorem setVi_pins (s : State) (v : ViId) (x : ViState) : (setVi s v x).pins = s.pins := rfl
@[simp] theorem setVi_shown (s : State) (v : ViId) (x : ViState) : (setVi s v x).shown = s.shown := rfl
@[simp] theorem setVi_ctl (s : State) (v : ViId) (x : ViState) : (setVi s v x).ctl = s.ctl := rfl
@[simp] theorem setVi_twin (s : State) (v : ViId) (x : ViState) : (setVi s v x).twin = s.twin := rfl
@[simp] theorem setVi_pwr (s : State) (v : ViId) (x : ViState) : (setVi s v x).pwr = s.pwr := rfl
@[simp] theorem setVi_det (s : State) (v : ViId) (x : ViState) : (setVi s v x).det = s.det := rfl
@[simp] theorem setVi_mg (s : State) (v : ViId) (x : ViState) : (setVi s v x).mg = s.mg := rfl
@[simp] theorem setVi_log (s : State) (v : ViId) (x : ViState) : (setVi s v x).log = s.log := rfl
@[simp] theorem setVi_drain (s : State) (v : ViId) (x : ViState) : (setVi s v x).drain = s.drain := rfl
@[simp] theorem setVi_shift (s : State) (v : ViId) (x : ViState) : (setVi s v x).shift = s.shift := rfl
@[simp] theorem setVi_rings (s : State) (v : ViId) (x : ViState) : (setVi s v x).rings = s.rings := rfl
@[simp] theorem setVi_slots (s : State) (v : ViId) (x : ViState) : (setVi s v x).slots = s.slots := rfl
@[simp] theorem setVi_tabs (s : State) (v : ViId) (x : ViState) : (setVi s v x).tabs = s.tabs := rfl
@[simp] theorem setVi_chains (s : State) (v : ViId) (x : ViState) : (setVi s v x).chains = s.chains := rfl
@[simp] theorem setVi_hinge (s : State) (v : ViId) (x : ViState) : (setVi s v x).hinge = s.hinge := rfl
@[simp] theorem setVi_vis (s : State) (v : ViId) (x : ViState) : (setVi s v x).vis = spSet ViState.reset s.vis v.toNat x := rfl
@[simp] theorem setVi_ev (s : State) (v : ViId) (x : ViState) : (setVi s v x).ev = s.ev := rfl
@[simp] theorem setVi_dev (s : State) (v : ViId) (x : ViState) : (setVi s v x).dev = s.dev := rfl
@[simp] theorem setVi_tile (s : State) (v : ViId) (x : ViState) : (setVi s v x).tile = s.tile := rfl
@[simp] theorem setVi_twinTile (s : State) (v : ViId) (x : ViState) : (setVi s v x).twinTile = s.twinTile := rfl

/-! ## modVi -/

@[simp] theorem modVi_pending (s : State) (v : ViId) (f : ViState → ViState) : (modVi s v f).pending = s.pending := rfl
@[simp] theorem modVi_cfg (s : State) (v : ViId) (f : ViState → ViState) : (modVi s v f).cfg = s.cfg := rfl
@[simp] theorem modVi_free (s : State) (v : ViId) (f : ViState → ViState) : (modVi s v f).free = s.free := rfl
@[simp] theorem modVi_out (s : State) (v : ViId) (f : ViState → ViState) : (modVi s v f).out = s.out := rfl
@[simp] theorem modVi_readData (s : State) (v : ViId) (f : ViState → ViState) : (modVi s v f).readData = s.readData := rfl
@[simp] theorem modVi_tclk (s : State) (v : ViId) (f : ViState → ViState) : (modVi s v f).tclk = s.tclk := rfl
@[simp] theorem modVi_fcyc (s : State) (v : ViId) (f : ViState → ViState) : (modVi s v f).fcyc = s.fcyc := rfl
@[simp] theorem modVi_throttled (s : State) (v : ViId) (f : ViState → ViState) : (modVi s v f).throttled = s.throttled := rfl
@[simp] theorem modVi_pins (s : State) (v : ViId) (f : ViState → ViState) : (modVi s v f).pins = s.pins := rfl
@[simp] theorem modVi_shown (s : State) (v : ViId) (f : ViState → ViState) : (modVi s v f).shown = s.shown := rfl
@[simp] theorem modVi_ctl (s : State) (v : ViId) (f : ViState → ViState) : (modVi s v f).ctl = s.ctl := rfl
@[simp] theorem modVi_twin (s : State) (v : ViId) (f : ViState → ViState) : (modVi s v f).twin = s.twin := rfl
@[simp] theorem modVi_pwr (s : State) (v : ViId) (f : ViState → ViState) : (modVi s v f).pwr = s.pwr := rfl
@[simp] theorem modVi_det (s : State) (v : ViId) (f : ViState → ViState) : (modVi s v f).det = s.det := rfl
@[simp] theorem modVi_mg (s : State) (v : ViId) (f : ViState → ViState) : (modVi s v f).mg = s.mg := rfl
@[simp] theorem modVi_log (s : State) (v : ViId) (f : ViState → ViState) : (modVi s v f).log = s.log := rfl
@[simp] theorem modVi_drain (s : State) (v : ViId) (f : ViState → ViState) : (modVi s v f).drain = s.drain := rfl
@[simp] theorem modVi_shift (s : State) (v : ViId) (f : ViState → ViState) : (modVi s v f).shift = s.shift := rfl
@[simp] theorem modVi_rings (s : State) (v : ViId) (f : ViState → ViState) : (modVi s v f).rings = s.rings := rfl
@[simp] theorem modVi_slots (s : State) (v : ViId) (f : ViState → ViState) : (modVi s v f).slots = s.slots := rfl
@[simp] theorem modVi_tabs (s : State) (v : ViId) (f : ViState → ViState) : (modVi s v f).tabs = s.tabs := rfl
@[simp] theorem modVi_chains (s : State) (v : ViId) (f : ViState → ViState) : (modVi s v f).chains = s.chains := rfl
@[simp] theorem modVi_hinge (s : State) (v : ViId) (f : ViState → ViState) : (modVi s v f).hinge = s.hinge := rfl
@[simp] theorem modVi_vis (s : State) (v : ViId) (f : ViState → ViState) : (modVi s v f).vis = spSet ViState.reset s.vis v.toNat (f (viOf s v)) := rfl
@[simp] theorem modVi_ev (s : State) (v : ViId) (f : ViState → ViState) : (modVi s v f).ev = s.ev := rfl
@[simp] theorem modVi_dev (s : State) (v : ViId) (f : ViState → ViState) : (modVi s v f).dev = s.dev := rfl
@[simp] theorem modVi_tile (s : State) (v : ViId) (f : ViState → ViState) : (modVi s v f).tile = s.tile := rfl
@[simp] theorem modVi_twinTile (s : State) (v : ViId) (f : ViState → ViState) : (modVi s v f).twinTile = s.twinTile := rfl

/-! ## setCfgVi -/

@[simp] theorem setCfgVi_pending (s : State) (v : ViId) (x : ViCfg) : (setCfgVi s v x).pending = s.pending := rfl
@[simp] theorem setCfgVi_cfg (s : State) (v : ViId) (x : ViCfg) : (setCfgVi s v x).cfg = { s.cfg with vi := spSet ViCfg.reset s.cfg.vi v.toNat x } := rfl
@[simp] theorem setCfgVi_free (s : State) (v : ViId) (x : ViCfg) : (setCfgVi s v x).free = s.free := rfl
@[simp] theorem setCfgVi_out (s : State) (v : ViId) (x : ViCfg) : (setCfgVi s v x).out = s.out := rfl
@[simp] theorem setCfgVi_readData (s : State) (v : ViId) (x : ViCfg) : (setCfgVi s v x).readData = s.readData := rfl
@[simp] theorem setCfgVi_tclk (s : State) (v : ViId) (x : ViCfg) : (setCfgVi s v x).tclk = s.tclk := rfl
@[simp] theorem setCfgVi_fcyc (s : State) (v : ViId) (x : ViCfg) : (setCfgVi s v x).fcyc = s.fcyc := rfl
@[simp] theorem setCfgVi_throttled (s : State) (v : ViId) (x : ViCfg) : (setCfgVi s v x).throttled = s.throttled := rfl
@[simp] theorem setCfgVi_pins (s : State) (v : ViId) (x : ViCfg) : (setCfgVi s v x).pins = s.pins := rfl
@[simp] theorem setCfgVi_shown (s : State) (v : ViId) (x : ViCfg) : (setCfgVi s v x).shown = s.shown := rfl
@[simp] theorem setCfgVi_ctl (s : State) (v : ViId) (x : ViCfg) : (setCfgVi s v x).ctl = s.ctl := rfl
@[simp] theorem setCfgVi_twin (s : State) (v : ViId) (x : ViCfg) : (setCfgVi s v x).twin = s.twin := rfl
@[simp] theorem setCfgVi_pwr (s : State) (v : ViId) (x : ViCfg) : (setCfgVi s v x).pwr = s.pwr := rfl
@[simp] theorem setCfgVi_det (s : State) (v : ViId) (x : ViCfg) : (setCfgVi s v x).det = s.det := rfl
@[simp] theorem setCfgVi_mg (s : State) (v : ViId) (x : ViCfg) : (setCfgVi s v x).mg = s.mg := rfl
@[simp] theorem setCfgVi_log (s : State) (v : ViId) (x : ViCfg) : (setCfgVi s v x).log = s.log := rfl
@[simp] theorem setCfgVi_drain (s : State) (v : ViId) (x : ViCfg) : (setCfgVi s v x).drain = s.drain := rfl
@[simp] theorem setCfgVi_shift (s : State) (v : ViId) (x : ViCfg) : (setCfgVi s v x).shift = s.shift := rfl
@[simp] theorem setCfgVi_rings (s : State) (v : ViId) (x : ViCfg) : (setCfgVi s v x).rings = s.rings := rfl
@[simp] theorem setCfgVi_slots (s : State) (v : ViId) (x : ViCfg) : (setCfgVi s v x).slots = s.slots := rfl
@[simp] theorem setCfgVi_tabs (s : State) (v : ViId) (x : ViCfg) : (setCfgVi s v x).tabs = s.tabs := rfl
@[simp] theorem setCfgVi_chains (s : State) (v : ViId) (x : ViCfg) : (setCfgVi s v x).chains = s.chains := rfl
@[simp] theorem setCfgVi_hinge (s : State) (v : ViId) (x : ViCfg) : (setCfgVi s v x).hinge = s.hinge := rfl
@[simp] theorem setCfgVi_vis (s : State) (v : ViId) (x : ViCfg) : (setCfgVi s v x).vis = s.vis := rfl
@[simp] theorem setCfgVi_ev (s : State) (v : ViId) (x : ViCfg) : (setCfgVi s v x).ev = s.ev := rfl
@[simp] theorem setCfgVi_dev (s : State) (v : ViId) (x : ViCfg) : (setCfgVi s v x).dev = s.dev := rfl
@[simp] theorem setCfgVi_tile (s : State) (v : ViId) (x : ViCfg) : (setCfgVi s v x).tile = s.tile := rfl
@[simp] theorem setCfgVi_twinTile (s : State) (v : ViId) (x : ViCfg) : (setCfgVi s v x).twinTile = s.twinTile := rfl

/-! ## setCmd -/

@[simp] theorem setCmd_pending (s : State) (c : RunCmd) : (setCmd s c).pending = s.pending := rfl
@[simp] theorem setCmd_cfg (s : State) (c : RunCmd) : (setCmd s c).cfg = s.cfg := rfl
@[simp] theorem setCmd_free (s : State) (c : RunCmd) : (setCmd s c).free = s.free := rfl
@[simp] theorem setCmd_out (s : State) (c : RunCmd) : (setCmd s c).out = s.out := rfl
@[simp] theorem setCmd_readData (s : State) (c : RunCmd) : (setCmd s c).readData = s.readData := rfl
@[simp] theorem setCmd_tclk (s : State) (c : RunCmd) : (setCmd s c).tclk = s.tclk := rfl
@[simp] theorem setCmd_fcyc (s : State) (c : RunCmd) : (setCmd s c).fcyc = s.fcyc := rfl
@[simp] theorem setCmd_throttled (s : State) (c : RunCmd) : (setCmd s c).throttled = s.throttled := rfl
@[simp] theorem setCmd_pins (s : State) (c : RunCmd) : (setCmd s c).pins = s.pins := rfl
@[simp] theorem setCmd_shown (s : State) (c : RunCmd) : (setCmd s c).shown = s.shown := rfl
@[simp] theorem setCmd_ctl (s : State) (c : RunCmd) : (setCmd s c).ctl = s.ctl := rfl
@[simp] theorem setCmd_twin (s : State) (c : RunCmd) : (setCmd s c).twin = s.twin := rfl
@[simp] theorem setCmd_pwr (s : State) (c : RunCmd) : (setCmd s c).pwr = s.pwr := rfl
@[simp] theorem setCmd_det (s : State) (c : RunCmd) : (setCmd s c).det = s.det := rfl
@[simp] theorem setCmd_mg (s : State) (c : RunCmd) : (setCmd s c).mg = s.mg := rfl
@[simp] theorem setCmd_log (s : State) (c : RunCmd) : (setCmd s c).log = s.log := rfl
@[simp] theorem setCmd_drain (s : State) (c : RunCmd) : (setCmd s c).drain = s.drain := rfl
@[simp] theorem setCmd_shift (s : State) (c : RunCmd) : (setCmd s c).shift = s.shift := rfl
@[simp] theorem setCmd_rings (s : State) (c : RunCmd) : (setCmd s c).rings = { s.rings with cmds := c :: s.rings.cmds.filter (fun x => decide (x.ring ≠ c.ring)) } := rfl
@[simp] theorem setCmd_slots (s : State) (c : RunCmd) : (setCmd s c).slots = s.slots := rfl
@[simp] theorem setCmd_tabs (s : State) (c : RunCmd) : (setCmd s c).tabs = s.tabs := rfl
@[simp] theorem setCmd_chains (s : State) (c : RunCmd) : (setCmd s c).chains = s.chains := rfl
@[simp] theorem setCmd_hinge (s : State) (c : RunCmd) : (setCmd s c).hinge = s.hinge := rfl
@[simp] theorem setCmd_vis (s : State) (c : RunCmd) : (setCmd s c).vis = s.vis := rfl
@[simp] theorem setCmd_ev (s : State) (c : RunCmd) : (setCmd s c).ev = s.ev := rfl
@[simp] theorem setCmd_dev (s : State) (c : RunCmd) : (setCmd s c).dev = s.dev := rfl
@[simp] theorem setCmd_tile (s : State) (c : RunCmd) : (setCmd s c).tile = s.tile := rfl
@[simp] theorem setCmd_twinTile (s : State) (c : RunCmd) : (setCmd s c).twinTile = s.twinTile := rfl

/-! ## dropCmd -/

@[simp] theorem dropCmd_pending (s : State) (r : Nat) : (dropCmd s r).pending = s.pending := rfl
@[simp] theorem dropCmd_cfg (s : State) (r : Nat) : (dropCmd s r).cfg = s.cfg := rfl
@[simp] theorem dropCmd_free (s : State) (r : Nat) : (dropCmd s r).free = s.free := rfl
@[simp] theorem dropCmd_out (s : State) (r : Nat) : (dropCmd s r).out = s.out := rfl
@[simp] theorem dropCmd_readData (s : State) (r : Nat) : (dropCmd s r).readData = s.readData := rfl
@[simp] theorem dropCmd_tclk (s : State) (r : Nat) : (dropCmd s r).tclk = s.tclk := rfl
@[simp] theorem dropCmd_fcyc (s : State) (r : Nat) : (dropCmd s r).fcyc = s.fcyc := rfl
@[simp] theorem dropCmd_throttled (s : State) (r : Nat) : (dropCmd s r).throttled = s.throttled := rfl
@[simp] theorem dropCmd_pins (s : State) (r : Nat) : (dropCmd s r).pins = s.pins := rfl
@[simp] theorem dropCmd_shown (s : State) (r : Nat) : (dropCmd s r).shown = s.shown := rfl
@[simp] theorem dropCmd_ctl (s : State) (r : Nat) : (dropCmd s r).ctl = s.ctl := rfl
@[simp] theorem dropCmd_twin (s : State) (r : Nat) : (dropCmd s r).twin = s.twin := rfl
@[simp] theorem dropCmd_pwr (s : State) (r : Nat) : (dropCmd s r).pwr = s.pwr := rfl
@[simp] theorem dropCmd_det (s : State) (r : Nat) : (dropCmd s r).det = s.det := rfl
@[simp] theorem dropCmd_mg (s : State) (r : Nat) : (dropCmd s r).mg = s.mg := rfl
@[simp] theorem dropCmd_log (s : State) (r : Nat) : (dropCmd s r).log = s.log := rfl
@[simp] theorem dropCmd_drain (s : State) (r : Nat) : (dropCmd s r).drain = s.drain := rfl
@[simp] theorem dropCmd_shift (s : State) (r : Nat) : (dropCmd s r).shift = s.shift := rfl
@[simp] theorem dropCmd_rings (s : State) (r : Nat) : (dropCmd s r).rings = { s.rings with cmds := s.rings.cmds.filter (fun x => decide (x.ring ≠ r)) } := rfl
@[simp] theorem dropCmd_slots (s : State) (r : Nat) : (dropCmd s r).slots = s.slots := rfl
@[simp] theorem dropCmd_tabs (s : State) (r : Nat) : (dropCmd s r).tabs = s.tabs := rfl
@[simp] theorem dropCmd_chains (s : State) (r : Nat) : (dropCmd s r).chains = s.chains := rfl
@[simp] theorem dropCmd_hinge (s : State) (r : Nat) : (dropCmd s r).hinge = s.hinge := rfl
@[simp] theorem dropCmd_vis (s : State) (r : Nat) : (dropCmd s r).vis = s.vis := rfl
@[simp] theorem dropCmd_ev (s : State) (r : Nat) : (dropCmd s r).ev = s.ev := rfl
@[simp] theorem dropCmd_dev (s : State) (r : Nat) : (dropCmd s r).dev = s.dev := rfl
@[simp] theorem dropCmd_tile (s : State) (r : Nat) : (dropCmd s r).tile = s.tile := rfl
@[simp] theorem dropCmd_twinTile (s : State) (r : Nat) : (dropCmd s r).twinTile = s.twinTile := rfl

/-! ## nextBoundary -/

@[simp] theorem nextBoundary_pending (s : State) : (nextBoundary s).pending = s.pending := rfl
@[simp] theorem nextBoundary_cfg (s : State) : (nextBoundary s).cfg = s.cfg := rfl
@[simp] theorem nextBoundary_free (s : State) : (nextBoundary s).free = s.free := rfl
@[simp] theorem nextBoundary_out (s : State) : (nextBoundary s).out = s.out := rfl
@[simp] theorem nextBoundary_readData (s : State) : (nextBoundary s).readData = s.readData := rfl
@[simp] theorem nextBoundary_tclk (s : State) : (nextBoundary s).tclk = s.tclk := rfl
@[simp] theorem nextBoundary_fcyc (s : State) : (nextBoundary s).fcyc = s.fcyc := rfl
@[simp] theorem nextBoundary_throttled (s : State) : (nextBoundary s).throttled = s.throttled := rfl
@[simp] theorem nextBoundary_pins (s : State) : (nextBoundary s).pins = s.pins := rfl
@[simp] theorem nextBoundary_shown (s : State) : (nextBoundary s).shown = s.shown := rfl
@[simp] theorem nextBoundary_ctl (s : State) : (nextBoundary s).ctl = s.ctl := rfl
@[simp] theorem nextBoundary_twin (s : State) : (nextBoundary s).twin = s.twin := rfl
@[simp] theorem nextBoundary_pwr (s : State) : (nextBoundary s).pwr = s.pwr := rfl
@[simp] theorem nextBoundary_det (s : State) : (nextBoundary s).det = { s.det with bseq := s.det.bseq + 1 } := rfl
@[simp] theorem nextBoundary_mg (s : State) : (nextBoundary s).mg = s.mg := rfl
@[simp] theorem nextBoundary_log (s : State) : (nextBoundary s).log = s.log := rfl
@[simp] theorem nextBoundary_drain (s : State) : (nextBoundary s).drain = s.drain := rfl
@[simp] theorem nextBoundary_shift (s : State) : (nextBoundary s).shift = s.shift := rfl
@[simp] theorem nextBoundary_rings (s : State) : (nextBoundary s).rings = s.rings := rfl
@[simp] theorem nextBoundary_slots (s : State) : (nextBoundary s).slots = s.slots := rfl
@[simp] theorem nextBoundary_tabs (s : State) : (nextBoundary s).tabs = s.tabs := rfl
@[simp] theorem nextBoundary_chains (s : State) : (nextBoundary s).chains = s.chains := rfl
@[simp] theorem nextBoundary_hinge (s : State) : (nextBoundary s).hinge = s.hinge := rfl
@[simp] theorem nextBoundary_vis (s : State) : (nextBoundary s).vis = s.vis := rfl
@[simp] theorem nextBoundary_ev (s : State) : (nextBoundary s).ev = s.ev := rfl
@[simp] theorem nextBoundary_dev (s : State) : (nextBoundary s).dev = s.dev := rfl
@[simp] theorem nextBoundary_tile (s : State) : (nextBoundary s).tile = s.tile := rfl
@[simp] theorem nextBoundary_twinTile (s : State) : (nextBoundary s).twinTile = s.twinTile := rfl

/-! ## setMem -/

@[simp] theorem setMem_pending (s : State) (sp : Space) (m : Memory) : (setMem s sp m).pending = s.pending := by cases sp <;> rfl
@[simp] theorem setMem_cfg (s : State) (sp : Space) (m : Memory) : (setMem s sp m).cfg = s.cfg := by cases sp <;> rfl
@[simp] theorem setMem_free (s : State) (sp : Space) (m : Memory) : (setMem s sp m).free = s.free := by cases sp <;> rfl
@[simp] theorem setMem_out (s : State) (sp : Space) (m : Memory) : (setMem s sp m).out = s.out := by cases sp <;> rfl
@[simp] theorem setMem_readData (s : State) (sp : Space) (m : Memory) : (setMem s sp m).readData = s.readData := by cases sp <;> rfl
@[simp] theorem setMem_tclk (s : State) (sp : Space) (m : Memory) : (setMem s sp m).tclk = s.tclk := by cases sp <;> rfl
@[simp] theorem setMem_fcyc (s : State) (sp : Space) (m : Memory) : (setMem s sp m).fcyc = s.fcyc := by cases sp <;> rfl
@[simp] theorem setMem_throttled (s : State) (sp : Space) (m : Memory) : (setMem s sp m).throttled = s.throttled := by cases sp <;> rfl
@[simp] theorem setMem_pins (s : State) (sp : Space) (m : Memory) : (setMem s sp m).pins = s.pins := by cases sp <;> rfl
@[simp] theorem setMem_shown (s : State) (sp : Space) (m : Memory) : (setMem s sp m).shown = s.shown := by cases sp <;> rfl
@[simp] theorem setMem_ctl (s : State) (sp : Space) (m : Memory) : (setMem s sp m).ctl = s.ctl := by cases sp <;> rfl
@[simp] theorem setMem_twin (s : State) (sp : Space) (m : Memory) : (setMem s sp m).twin = s.twin := by cases sp <;> rfl
@[simp] theorem setMem_pwr (s : State) (sp : Space) (m : Memory) : (setMem s sp m).pwr = s.pwr := by cases sp <;> rfl
@[simp] theorem setMem_det (s : State) (sp : Space) (m : Memory) : (setMem s sp m).det = s.det := by cases sp <;> rfl
@[simp] theorem setMem_mg (s : State) (sp : Space) (m : Memory) : (setMem s sp m).mg = s.mg := by cases sp <;> rfl
@[simp] theorem setMem_log (s : State) (sp : Space) (m : Memory) : (setMem s sp m).log = s.log := by cases sp <;> rfl
@[simp] theorem setMem_drain (s : State) (sp : Space) (m : Memory) : (setMem s sp m).drain = s.drain := by cases sp <;> rfl
@[simp] theorem setMem_shift (s : State) (sp : Space) (m : Memory) : (setMem s sp m).shift = s.shift := by cases sp <;> rfl
@[simp] theorem setMem_rings (s : State) (sp : Space) (m : Memory) : (setMem s sp m).rings = s.rings := by cases sp <;> rfl
@[simp] theorem setMem_slots (s : State) (sp : Space) (m : Memory) : (setMem s sp m).slots = s.slots := by cases sp <;> rfl
@[simp] theorem setMem_tabs (s : State) (sp : Space) (m : Memory) : (setMem s sp m).tabs = s.tabs := by cases sp <;> rfl
@[simp] theorem setMem_chains (s : State) (sp : Space) (m : Memory) : (setMem s sp m).chains = s.chains := by cases sp <;> rfl
@[simp] theorem setMem_hinge (s : State) (sp : Space) (m : Memory) : (setMem s sp m).hinge = s.hinge := by cases sp <;> rfl
@[simp] theorem setMem_vis (s : State) (sp : Space) (m : Memory) : (setMem s sp m).vis = s.vis := by cases sp <;> rfl
@[simp] theorem setMem_ev (s : State) (sp : Space) (m : Memory) : (setMem s sp m).ev = s.ev := by cases sp <;> rfl
@[simp] theorem setMem_dev (s : State) (m : Memory) : (setMem s .device m).dev = m := rfl
@[simp] theorem setMem_tile_dev (s : State) (m : Memory) : (setMem s .tile m).dev = s.dev := rfl
@[simp] theorem setMem_twin_dev (s : State) (m : Memory) : (setMem s .twin m).dev = s.dev := rfl
@[simp] theorem setMem_tile (s : State) (m : Memory) : (setMem s .tile m).tile = m := rfl
@[simp] theorem setMem_device_tile (s : State) (m : Memory) : (setMem s .device m).tile = s.tile := rfl
@[simp] theorem setMem_twin_tile (s : State) (m : Memory) : (setMem s .twin m).tile = s.tile := rfl
@[simp] theorem setMem_twinTile (s : State) (m : Memory) : (setMem s .twin m).twinTile = m := rfl
@[simp] theorem setMem_device_twinTile (s : State) (m : Memory) : (setMem s .device m).twinTile = s.twinTile := rfl
@[simp] theorem setMem_tile_twinTile (s : State) (m : Memory) : (setMem s .tile m).twinTile = s.twinTile := rfl

end Sys2Proof.Machine
end

