-- ==== Sys2Proof/Laws/Frames.lean ====
section
/-! SUPPORT. Frames of the shared operations: which fields counters, time, device writes, context writes, slot writes and a wake
leave as they are. -/

namespace Sys2Proof.Machine

set_option Elab.async false

/-- A field that every step of a fold keeps is kept by the fold. -/
theorem foldl_keeps {β γ : Type} (g : State → γ) (f : State → β → State) (hf : ∀ s x, g (f s x) = g s) (l : List β) (s : State) :
    g (l.foldl f s) = g s := by
  induction l generalizing s with
  | nil => rfl
  | cons x rest ih => rw [List.foldl_cons, ih, hf]

/-! ## countEvent -/

@[simp] theorem countEvent_pending (s : State) (c n : Nat) (v : Option ViId) : (countEvent c n v s).pending = s.pending := by unfold countEvent; split <;> rfl
@[simp] theorem countEvent_cfg (s : State) (c n : Nat) (v : Option ViId) : (countEvent c n v s).cfg = s.cfg := by unfold countEvent; split <;> rfl
@[simp] theorem countEvent_free (s : State) (c n : Nat) (v : Option ViId) : (countEvent c n v s).free = s.free := by unfold countEvent; split <;> rfl
@[simp] theorem countEvent_out (s : State) (c n : Nat) (v : Option ViId) : (countEvent c n v s).out = s.out := by unfold countEvent; split <;> rfl
@[simp] theorem countEvent_readData (s : State) (c n : Nat) (v : Option ViId) : (countEvent c n v s).readData = s.readData := by unfold countEvent; split <;> rfl
@[simp] theorem countEvent_tclk (s : State) (c n : Nat) (v : Option ViId) : (countEvent c n v s).tclk = s.tclk := by unfold countEvent; split <;> rfl
@[simp] theorem countEvent_fcyc (s : State) (c n : Nat) (v : Option ViId) : (countEvent c n v s).fcyc = s.fcyc := by unfold countEvent; split <;> rfl
@[simp] theorem countEvent_throttled (s : State) (c n : Nat) (v : Option ViId) : (countEvent c n v s).throttled = s.throttled := by unfold countEvent; split <;> rfl
@[simp] theorem countEvent_pins (s : State) (c n : Nat) (v : Option ViId) : (countEvent c n v s).pins = s.pins := by unfold countEvent; split <;> rfl
@[simp] theorem countEvent_shown (s : State) (c n : Nat) (v : Option ViId) : (countEvent c n v s).shown = s.shown := by unfold countEvent; split <;> rfl
@[simp] theorem countEvent_ctl (s : State) (c n : Nat) (v : Option ViId) : (countEvent c n v s).ctl = s.ctl := by unfold countEvent; split <;> rfl
@[simp] theorem countEvent_twin (s : State) (c n : Nat) (v : Option ViId) : (countEvent c n v s).twin = s.twin := by unfold countEvent; split <;> rfl
@[simp] theorem countEvent_pwr (s : State) (c n : Nat) (v : Option ViId) : (countEvent c n v s).pwr = s.pwr := by unfold countEvent; split <;> rfl
@[simp] theorem countEvent_det (s : State) (c n : Nat) (v : Option ViId) : (countEvent c n v s).det = s.det := by unfold countEvent; split <;> rfl
@[simp] theorem countEvent_mg (s : State) (c n : Nat) (v : Option ViId) : (countEvent c n v s).mg = s.mg := by unfold countEvent; split <;> rfl
@[simp] theorem countEvent_log (s : State) (c n : Nat) (v : Option ViId) : (countEvent c n v s).log = s.log := by unfold countEvent; split <;> rfl
@[simp] theorem countEvent_drain (s : State) (c n : Nat) (v : Option ViId) : (countEvent c n v s).drain = s.drain := by unfold countEvent; split <;> rfl
@[simp] theorem countEvent_shift (s : State) (c n : Nat) (v : Option ViId) : (countEvent c n v s).shift = s.shift := by unfold countEvent; split <;> rfl
@[simp] theorem countEvent_rings (s : State) (c n : Nat) (v : Option ViId) : (countEvent c n v s).rings = s.rings := by unfold countEvent; split <;> rfl
@[simp] theorem countEvent_slots (s : State) (c n : Nat) (v : Option ViId) : (countEvent c n v s).slots = s.slots := by unfold countEvent; split <;> rfl
@[simp] theorem countEvent_tabs (s : State) (c n : Nat) (v : Option ViId) : (countEvent c n v s).tabs = s.tabs := by unfold countEvent; split <;> rfl
@[simp] theorem countEvent_chains (s : State) (c n : Nat) (v : Option ViId) : (countEvent c n v s).chains = s.chains := by unfold countEvent; split <;> rfl
@[simp] theorem countEvent_hinge (s : State) (c n : Nat) (v : Option ViId) : (countEvent c n v s).hinge = s.hinge := by unfold countEvent; split <;> rfl
@[simp] theorem countEvent_vis (s : State) (c n : Nat) (v : Option ViId) : (countEvent c n v s).vis = s.vis := by unfold countEvent; split <;> rfl
@[simp] theorem countEvent_dev (s : State) (c n : Nat) (v : Option ViId) : (countEvent c n v s).dev = s.dev := by unfold countEvent; split <;> rfl
@[simp] theorem countEvent_tile (s : State) (c n : Nat) (v : Option ViId) : (countEvent c n v s).tile = s.tile := by unfold countEvent; split <;> rfl
@[simp] theorem countEvent_twinTile (s : State) (c n : Nat) (v : Option ViId) : (countEvent c n v s).twinTile = s.twinTile := by unfold countEvent; split <;> rfl

/-! ## countFree -/

@[simp] theorem countFree_pending (s : State) (c n : Nat) (v : Option ViId) : (countFree c n v s).pending = s.pending := by unfold countFree; split <;> rfl
@[simp] theorem countFree_cfg (s : State) (c n : Nat) (v : Option ViId) : (countFree c n v s).cfg = s.cfg := by unfold countFree; split <;> rfl
@[simp] theorem countFree_free (s : State) (c n : Nat) (v : Option ViId) : (countFree c n v s).free = s.free := by unfold countFree; split <;> rfl
@[simp] theorem countFree_out (s : State) (c n : Nat) (v : Option ViId) : (countFree c n v s).out = s.out := by unfold countFree; split <;> rfl
@[simp] theorem countFree_readData (s : State) (c n : Nat) (v : Option ViId) : (countFree c n v s).readData = s.readData := by unfold countFree; split <;> rfl
@[simp] theorem countFree_tclk (s : State) (c n : Nat) (v : Option ViId) : (countFree c n v s).tclk = s.tclk := by unfold countFree; split <;> rfl
@[simp] theorem countFree_fcyc (s : State) (c n : Nat) (v : Option ViId) : (countFree c n v s).fcyc = s.fcyc := by unfold countFree; split <;> rfl
@[simp] theorem countFree_throttled (s : State) (c n : Nat) (v : Option ViId) : (countFree c n v s).throttled = s.throttled := by unfold countFree; split <;> rfl
@[simp] theorem countFree_pins (s : State) (c n : Nat) (v : Option ViId) : (countFree c n v s).pins = s.pins := by unfold countFree; split <;> rfl
@[simp] theorem countFree_shown (s : State) (c n : Nat) (v : Option ViId) : (countFree c n v s).shown = s.shown := by unfold countFree; split <;> rfl
@[simp] theorem countFree_ctl (s : State) (c n : Nat) (v : Option ViId) : (countFree c n v s).ctl = s.ctl := by unfold countFree; split <;> rfl
@[simp] theorem countFree_twin (s : State) (c n : Nat) (v : Option ViId) : (countFree c n v s).twin = s.twin := by unfold countFree; split <;> rfl
@[simp] theorem countFree_pwr (s : State) (c n : Nat) (v : Option ViId) : (countFree c n v s).pwr = s.pwr := by unfold countFree; split <;> rfl
@[simp] theorem countFree_det (s : State) (c n : Nat) (v : Option ViId) : (countFree c n v s).det = s.det := by unfold countFree; split <;> rfl
@[simp] theorem countFree_mg (s : State) (c n : Nat) (v : Option ViId) : (countFree c n v s).mg = s.mg := by unfold countFree; split <;> rfl
@[simp] theorem countFree_log (s : State) (c n : Nat) (v : Option ViId) : (countFree c n v s).log = s.log := by unfold countFree; split <;> rfl
@[simp] theorem countFree_drain (s : State) (c n : Nat) (v : Option ViId) : (countFree c n v s).drain = s.drain := by unfold countFree; split <;> rfl
@[simp] theorem countFree_shift (s : State) (c n : Nat) (v : Option ViId) : (countFree c n v s).shift = s.shift := by unfold countFree; split <;> rfl
@[simp] theorem countFree_rings (s : State) (c n : Nat) (v : Option ViId) : (countFree c n v s).rings = s.rings := by unfold countFree; split <;> rfl
@[simp] theorem countFree_slots (s : State) (c n : Nat) (v : Option ViId) : (countFree c n v s).slots = s.slots := by unfold countFree; split <;> rfl
@[simp] theorem countFree_tabs (s : State) (c n : Nat) (v : Option ViId) : (countFree c n v s).tabs = s.tabs := by unfold countFree; split <;> rfl
@[simp] theorem countFree_chains (s : State) (c n : Nat) (v : Option ViId) : (countFree c n v s).chains = s.chains := by unfold countFree; split <;> rfl
@[simp] theorem countFree_hinge (s : State) (c n : Nat) (v : Option ViId) : (countFree c n v s).hinge = s.hinge := by unfold countFree; split <;> rfl
@[simp] theorem countFree_vis (s : State) (c n : Nat) (v : Option ViId) : (countFree c n v s).vis = s.vis := by unfold countFree; split <;> rfl
@[simp] theorem countFree_dev (s : State) (c n : Nat) (v : Option ViId) : (countFree c n v s).dev = s.dev := by unfold countFree; split <;> rfl
@[simp] theorem countFree_tile (s : State) (c n : Nat) (v : Option ViId) : (countFree c n v s).tile = s.tile := by unfold countFree; split <;> rfl
@[simp] theorem countFree_twinTile (s : State) (c n : Nat) (v : Option ViId) : (countFree c n v s).twinTile = s.twinTile := by unfold countFree; split <;> rfl

/-! ## mgIgnored -/

@[simp] theorem mgIgnored_pending (s : State) : (mgIgnored s).pending = s.pending := by simp [mgIgnored]
@[simp] theorem mgIgnored_cfg (s : State) : (mgIgnored s).cfg = s.cfg := by simp [mgIgnored]
@[simp] theorem mgIgnored_free (s : State) : (mgIgnored s).free = s.free := by simp [mgIgnored]
@[simp] theorem mgIgnored_out (s : State) : (mgIgnored s).out = s.out := by simp [mgIgnored]
@[simp] theorem mgIgnored_readData (s : State) : (mgIgnored s).readData = s.readData := by simp [mgIgnored]
@[simp] theorem mgIgnored_tclk (s : State) : (mgIgnored s).tclk = s.tclk := by simp [mgIgnored]
@[simp] theorem mgIgnored_fcyc (s : State) : (mgIgnored s).fcyc = s.fcyc := by simp [mgIgnored]
@[simp] theorem mgIgnored_throttled (s : State) : (mgIgnored s).throttled = s.throttled := by simp [mgIgnored]
@[simp] theorem mgIgnored_pins (s : State) : (mgIgnored s).pins = s.pins := by simp [mgIgnored]
@[simp] theorem mgIgnored_shown (s : State) : (mgIgnored s).shown = s.shown := by simp [mgIgnored]
@[simp] theorem mgIgnored_ctl (s : State) : (mgIgnored s).ctl = s.ctl := by simp [mgIgnored]
@[simp] theorem mgIgnored_twin (s : State) : (mgIgnored s).twin = s.twin := by simp [mgIgnored]
@[simp] theorem mgIgnored_pwr (s : State) : (mgIgnored s).pwr = s.pwr := by simp [mgIgnored]
@[simp] theorem mgIgnored_det (s : State) : (mgIgnored s).det = s.det := by simp [mgIgnored]
@[simp] theorem mgIgnored_mg (s : State) : (mgIgnored s).mg = s.mg := by simp [mgIgnored]
@[simp] theorem mgIgnored_log (s : State) : (mgIgnored s).log = s.log := by simp [mgIgnored]
@[simp] theorem mgIgnored_drain (s : State) : (mgIgnored s).drain = s.drain := by simp [mgIgnored]
@[simp] theorem mgIgnored_shift (s : State) : (mgIgnored s).shift = s.shift := by simp [mgIgnored]
@[simp] theorem mgIgnored_rings (s : State) : (mgIgnored s).rings = s.rings := by simp [mgIgnored]
@[simp] theorem mgIgnored_slots (s : State) : (mgIgnored s).slots = s.slots := by simp [mgIgnored]
@[simp] theorem mgIgnored_tabs (s : State) : (mgIgnored s).tabs = s.tabs := by simp [mgIgnored]
@[simp] theorem mgIgnored_chains (s : State) : (mgIgnored s).chains = s.chains := by simp [mgIgnored]
@[simp] theorem mgIgnored_hinge (s : State) : (mgIgnored s).hinge = s.hinge := by simp [mgIgnored]
@[simp] theorem mgIgnored_vis (s : State) : (mgIgnored s).vis = s.vis := by simp [mgIgnored]
@[simp] theorem mgIgnored_dev (s : State) : (mgIgnored s).dev = s.dev := by simp [mgIgnored]
@[simp] theorem mgIgnored_tile (s : State) : (mgIgnored s).tile = s.tile := by simp [mgIgnored]
@[simp] theorem mgIgnored_twinTile (s : State) : (mgIgnored s).twinTile = s.twinTile := by simp [mgIgnored]

/-! ## regIgnored -/

@[simp] theorem regIgnored_pending (s : State) (v : ViId) : (regIgnored v s).pending = s.pending := by simp [regIgnored]
@[simp] theorem regIgnored_cfg (s : State) (v : ViId) : (regIgnored v s).cfg = s.cfg := by simp [regIgnored]
@[simp] theorem regIgnored_free (s : State) (v : ViId) : (regIgnored v s).free = s.free := by simp [regIgnored]
@[simp] theorem regIgnored_out (s : State) (v : ViId) : (regIgnored v s).out = s.out := by simp [regIgnored]
@[simp] theorem regIgnored_readData (s : State) (v : ViId) : (regIgnored v s).readData = s.readData := by simp [regIgnored]
@[simp] theorem regIgnored_tclk (s : State) (v : ViId) : (regIgnored v s).tclk = s.tclk := by simp [regIgnored]
@[simp] theorem regIgnored_fcyc (s : State) (v : ViId) : (regIgnored v s).fcyc = s.fcyc := by simp [regIgnored]
@[simp] theorem regIgnored_throttled (s : State) (v : ViId) : (regIgnored v s).throttled = s.throttled := by simp [regIgnored]
@[simp] theorem regIgnored_pins (s : State) (v : ViId) : (regIgnored v s).pins = s.pins := by simp [regIgnored]
@[simp] theorem regIgnored_shown (s : State) (v : ViId) : (regIgnored v s).shown = s.shown := by simp [regIgnored]
@[simp] theorem regIgnored_ctl (s : State) (v : ViId) : (regIgnored v s).ctl = s.ctl := by simp [regIgnored]
@[simp] theorem regIgnored_twin (s : State) (v : ViId) : (regIgnored v s).twin = s.twin := by simp [regIgnored]
@[simp] theorem regIgnored_pwr (s : State) (v : ViId) : (regIgnored v s).pwr = s.pwr := by simp [regIgnored]
@[simp] theorem regIgnored_det (s : State) (v : ViId) : (regIgnored v s).det = s.det := by simp [regIgnored]
@[simp] theorem regIgnored_mg (s : State) (v : ViId) : (regIgnored v s).mg = s.mg := by simp [regIgnored]
@[simp] theorem regIgnored_log (s : State) (v : ViId) : (regIgnored v s).log = s.log := by simp [regIgnored]
@[simp] theorem regIgnored_drain (s : State) (v : ViId) : (regIgnored v s).drain = s.drain := by simp [regIgnored]
@[simp] theorem regIgnored_shift (s : State) (v : ViId) : (regIgnored v s).shift = s.shift := by simp [regIgnored]
@[simp] theorem regIgnored_rings (s : State) (v : ViId) : (regIgnored v s).rings = s.rings := by simp [regIgnored]
@[simp] theorem regIgnored_slots (s : State) (v : ViId) : (regIgnored v s).slots = s.slots := by simp [regIgnored]
@[simp] theorem regIgnored_tabs (s : State) (v : ViId) : (regIgnored v s).tabs = s.tabs := by simp [regIgnored]
@[simp] theorem regIgnored_chains (s : State) (v : ViId) : (regIgnored v s).chains = s.chains := by simp [regIgnored]
@[simp] theorem regIgnored_hinge (s : State) (v : ViId) : (regIgnored v s).hinge = s.hinge := by simp [regIgnored]
@[simp] theorem regIgnored_vis (s : State) (v : ViId) : (regIgnored v s).vis = s.vis := by simp [regIgnored]
@[simp] theorem regIgnored_dev (s : State) (v : ViId) : (regIgnored v s).dev = s.dev := by simp [regIgnored]
@[simp] theorem regIgnored_tile (s : State) (v : ViId) : (regIgnored v s).tile = s.tile := by simp [regIgnored]
@[simp] theorem regIgnored_twinTile (s : State) (v : ViId) : (regIgnored v s).twinTile = s.twinTile := by simp [regIgnored]

/-! ## wake -/

@[simp] theorem wake_pending (s : State) : (wake s).pending = s.pending := by unfold wake; split <;> (try split) <;> (try split) <;> rfl
@[simp] theorem wake_cfg (s : State) : (wake s).cfg = s.cfg := by unfold wake; split <;> (try split) <;> (try split) <;> rfl
@[simp] theorem wake_free (s : State) : (wake s).free = s.free := by unfold wake; split <;> (try split) <;> (try split) <;> rfl
@[simp] theorem wake_out (s : State) : (wake s).out = s.out := by unfold wake; split <;> (try split) <;> (try split) <;> rfl
@[simp] theorem wake_readData (s : State) : (wake s).readData = s.readData := by unfold wake; split <;> (try split) <;> (try split) <;> rfl
@[simp] theorem wake_tclk (s : State) : (wake s).tclk = s.tclk := by unfold wake; split <;> (try split) <;> (try split) <;> rfl
@[simp] theorem wake_fcyc (s : State) : (wake s).fcyc = s.fcyc := by unfold wake; split <;> (try split) <;> (try split) <;> rfl
@[simp] theorem wake_throttled (s : State) : (wake s).throttled = s.throttled := by unfold wake; split <;> (try split) <;> (try split) <;> rfl
@[simp] theorem wake_pins (s : State) : (wake s).pins = s.pins := by unfold wake; split <;> (try split) <;> (try split) <;> rfl
@[simp] theorem wake_shown (s : State) : (wake s).shown = s.shown := by unfold wake; split <;> (try split) <;> (try split) <;> rfl
@[simp] theorem wake_ctl (s : State) : (wake s).ctl = s.ctl := by unfold wake; split <;> (try split) <;> (try split) <;> rfl
@[simp] theorem wake_twin (s : State) : (wake s).twin = s.twin := by unfold wake; split <;> (try split) <;> (try split) <;> rfl
@[simp] theorem wake_det (s : State) : (wake s).det = s.det := by unfold wake; split <;> (try split) <;> (try split) <;> rfl
@[simp] theorem wake_mg (s : State) : (wake s).mg = s.mg := by unfold wake; split <;> (try split) <;> (try split) <;> rfl
@[simp] theorem wake_log (s : State) : (wake s).log = s.log := by unfold wake; split <;> (try split) <;> (try split) <;> rfl
@[simp] theorem wake_drain (s : State) : (wake s).drain = s.drain := by unfold wake; split <;> (try split) <;> (try split) <;> rfl
@[simp] theorem wake_shift (s : State) : (wake s).shift = s.shift := by unfold wake; split <;> (try split) <;> (try split) <;> rfl
@[simp] theorem wake_rings (s : State) : (wake s).rings = s.rings := by unfold wake; split <;> (try split) <;> (try split) <;> rfl
@[simp] theorem wake_slots (s : State) : (wake s).slots = s.slots := by unfold wake; split <;> (try split) <;> (try split) <;> rfl
@[simp] theorem wake_tabs (s : State) : (wake s).tabs = s.tabs := by unfold wake; split <;> (try split) <;> (try split) <;> rfl
@[simp] theorem wake_chains (s : State) : (wake s).chains = s.chains := by unfold wake; split <;> (try split) <;> (try split) <;> rfl
@[simp] theorem wake_hinge (s : State) : (wake s).hinge = s.hinge := by unfold wake; split <;> (try split) <;> (try split) <;> rfl
@[simp] theorem wake_vis (s : State) : (wake s).vis = s.vis := by unfold wake; split <;> (try split) <;> (try split) <;> rfl
@[simp] theorem wake_ev (s : State) : (wake s).ev = s.ev := by unfold wake; split <;> (try split) <;> (try split) <;> rfl
@[simp] theorem wake_dev (s : State) : (wake s).dev = s.dev := by unfold wake; split <;> (try split) <;> (try split) <;> rfl
@[simp] theorem wake_tile (s : State) : (wake s).tile = s.tile := by unfold wake; split <;> (try split) <;> (try split) <;> rfl
@[simp] theorem wake_twinTile (s : State) : (wake s).twinTile = s.twinTile := by unfold wake; split <;> (try split) <;> (try split) <;> rfl

/-! ## countRetired -/

@[simp] theorem countRetired_pending (s : State) (v : ViId) : (countRetired v s).pending = s.pending := by unfold countRetired; split <;> rfl
@[simp] theorem countRetired_cfg (s : State) (v : ViId) : (countRetired v s).cfg = s.cfg := by unfold countRetired; split <;> rfl
@[simp] theorem countRetired_free (s : State) (v : ViId) : (countRetired v s).free = s.free := by unfold countRetired; split <;> rfl
@[simp] theorem countRetired_out (s : State) (v : ViId) : (countRetired v s).out = s.out := by unfold countRetired; split <;> rfl
@[simp] theorem countRetired_readData (s : State) (v : ViId) : (countRetired v s).readData = s.readData := by unfold countRetired; split <;> rfl
@[simp] theorem countRetired_tclk (s : State) (v : ViId) : (countRetired v s).tclk = s.tclk := by unfold countRetired; split <;> rfl
@[simp] theorem countRetired_fcyc (s : State) (v : ViId) : (countRetired v s).fcyc = s.fcyc := by unfold countRetired; split <;> rfl
@[simp] theorem countRetired_throttled (s : State) (v : ViId) : (countRetired v s).throttled = s.throttled := by unfold countRetired; split <;> rfl
@[simp] theorem countRetired_pins (s : State) (v : ViId) : (countRetired v s).pins = s.pins := by unfold countRetired; split <;> rfl
@[simp] theorem countRetired_shown (s : State) (v : ViId) : (countRetired v s).shown = s.shown := by unfold countRetired; split <;> rfl
@[simp] theorem countRetired_ctl (s : State) (v : ViId) : (countRetired v s).ctl = s.ctl := by unfold countRetired; split <;> rfl
@[simp] theorem countRetired_twin (s : State) (v : ViId) : (countRetired v s).twin = s.twin := by unfold countRetired; split <;> rfl
@[simp] theorem countRetired_pwr (s : State) (v : ViId) : (countRetired v s).pwr = s.pwr := by unfold countRetired; split <;> rfl
@[simp] theorem countRetired_det (s : State) (v : ViId) : (countRetired v s).det = s.det := by unfold countRetired; split <;> rfl
@[simp] theorem countRetired_mg (s : State) (v : ViId) : (countRetired v s).mg = s.mg := by unfold countRetired; split <;> rfl
@[simp] theorem countRetired_log (s : State) (v : ViId) : (countRetired v s).log = s.log := by unfold countRetired; split <;> rfl
@[simp] theorem countRetired_drain (s : State) (v : ViId) : (countRetired v s).drain = s.drain := by unfold countRetired; split <;> rfl
@[simp] theorem countRetired_shift (s : State) (v : ViId) : (countRetired v s).shift = s.shift := by unfold countRetired; split <;> rfl
@[simp] theorem countRetired_rings (s : State) (v : ViId) : (countRetired v s).rings = s.rings := by unfold countRetired; split <;> rfl
@[simp] theorem countRetired_slots (s : State) (v : ViId) : (countRetired v s).slots = s.slots := by unfold countRetired; split <;> rfl
@[simp] theorem countRetired_tabs (s : State) (v : ViId) : (countRetired v s).tabs = s.tabs := by unfold countRetired; split <;> rfl
@[simp] theorem countRetired_chains (s : State) (v : ViId) : (countRetired v s).chains = s.chains := by unfold countRetired; split <;> rfl
@[simp] theorem countRetired_hinge (s : State) (v : ViId) : (countRetired v s).hinge = s.hinge := by unfold countRetired; split <;> rfl
@[simp] theorem countRetired_dev (s : State) (v : ViId) : (countRetired v s).dev = s.dev := by unfold countRetired; split <;> rfl
@[simp] theorem countRetired_tile (s : State) (v : ViId) : (countRetired v s).tile = s.tile := by unfold countRetired; split <;> rfl
@[simp] theorem countRetired_twinTile (s : State) (v : ViId) : (countRetired v s).twinTile = s.twinTile := by unfold countRetired; split <;> rfl

/-! ## countThrottle -/

@[simp] theorem countThrottle_pending (s : State) (n : Nat) (v : Option ViId) : (countThrottle n v s).pending = s.pending := by unfold countThrottle; dsimp only; split <;> (try split) <;> simp
@[simp] theorem countThrottle_cfg (s : State) (n : Nat) (v : Option ViId) : (countThrottle n v s).cfg = s.cfg := by unfold countThrottle; dsimp only; split <;> (try split) <;> simp
@[simp] theorem countThrottle_free (s : State) (n : Nat) (v : Option ViId) : (countThrottle n v s).free = s.free := by unfold countThrottle; dsimp only; split <;> (try split) <;> simp
@[simp] theorem countThrottle_out (s : State) (n : Nat) (v : Option ViId) : (countThrottle n v s).out = s.out := by unfold countThrottle; dsimp only; split <;> (try split) <;> simp
@[simp] theorem countThrottle_readData (s : State) (n : Nat) (v : Option ViId) : (countThrottle n v s).readData = s.readData := by unfold countThrottle; dsimp only; split <;> (try split) <;> simp
@[simp] theorem countThrottle_tclk (s : State) (n : Nat) (v : Option ViId) : (countThrottle n v s).tclk = s.tclk := by unfold countThrottle; dsimp only; split <;> (try split) <;> simp
@[simp] theorem countThrottle_fcyc (s : State) (n : Nat) (v : Option ViId) : (countThrottle n v s).fcyc = s.fcyc := by unfold countThrottle; dsimp only; split <;> (try split) <;> simp
@[simp] theorem countThrottle_throttled (s : State) (n : Nat) (v : Option ViId) : (countThrottle n v s).throttled = s.throttled := by unfold countThrottle; dsimp only; split <;> (try split) <;> simp
@[simp] theorem countThrottle_pins (s : State) (n : Nat) (v : Option ViId) : (countThrottle n v s).pins = s.pins := by unfold countThrottle; dsimp only; split <;> (try split) <;> simp
@[simp] theorem countThrottle_shown (s : State) (n : Nat) (v : Option ViId) : (countThrottle n v s).shown = s.shown := by unfold countThrottle; dsimp only; split <;> (try split) <;> simp
@[simp] theorem countThrottle_ctl (s : State) (n : Nat) (v : Option ViId) : (countThrottle n v s).ctl = s.ctl := by unfold countThrottle; dsimp only; split <;> (try split) <;> simp
@[simp] theorem countThrottle_twin (s : State) (n : Nat) (v : Option ViId) : (countThrottle n v s).twin = s.twin := by unfold countThrottle; dsimp only; split <;> (try split) <;> simp
@[simp] theorem countThrottle_pwr (s : State) (n : Nat) (v : Option ViId) : (countThrottle n v s).pwr = s.pwr := by unfold countThrottle; dsimp only; split <;> (try split) <;> simp
@[simp] theorem countThrottle_det (s : State) (n : Nat) (v : Option ViId) : (countThrottle n v s).det = s.det := by unfold countThrottle; dsimp only; split <;> (try split) <;> simp
@[simp] theorem countThrottle_mg (s : State) (n : Nat) (v : Option ViId) : (countThrottle n v s).mg = s.mg := by unfold countThrottle; dsimp only; split <;> (try split) <;> simp
@[simp] theorem countThrottle_log (s : State) (n : Nat) (v : Option ViId) : (countThrottle n v s).log = s.log := by unfold countThrottle; dsimp only; split <;> (try split) <;> simp
@[simp] theorem countThrottle_drain (s : State) (n : Nat) (v : Option ViId) : (countThrottle n v s).drain = s.drain := by unfold countThrottle; dsimp only; split <;> (try split) <;> simp
@[simp] theorem countThrottle_shift (s : State) (n : Nat) (v : Option ViId) : (countThrottle n v s).shift = s.shift := by unfold countThrottle; dsimp only; split <;> (try split) <;> simp
@[simp] theorem countThrottle_rings (s : State) (n : Nat) (v : Option ViId) : (countThrottle n v s).rings = s.rings := by unfold countThrottle; dsimp only; split <;> (try split) <;> simp
@[simp] theorem countThrottle_slots (s : State) (n : Nat) (v : Option ViId) : (countThrottle n v s).slots = s.slots := by unfold countThrottle; dsimp only; split <;> (try split) <;> simp
@[simp] theorem countThrottle_tabs (s : State) (n : Nat) (v : Option ViId) : (countThrottle n v s).tabs = s.tabs := by unfold countThrottle; dsimp only; split <;> (try split) <;> simp
@[simp] theorem countThrottle_chains (s : State) (n : Nat) (v : Option ViId) : (countThrottle n v s).chains = s.chains := by unfold countThrottle; dsimp only; split <;> (try split) <;> simp
@[simp] theorem countThrottle_hinge (s : State) (n : Nat) (v : Option ViId) : (countThrottle n v s).hinge = s.hinge := by unfold countThrottle; dsimp only; split <;> (try split) <;> simp
@[simp] theorem countThrottle_dev (s : State) (n : Nat) (v : Option ViId) : (countThrottle n v s).dev = s.dev := by unfold countThrottle; dsimp only; split <;> (try split) <;> simp
@[simp] theorem countThrottle_tile (s : State) (n : Nat) (v : Option ViId) : (countThrottle n v s).tile = s.tile := by unfold countThrottle; dsimp only; split <;> (try split) <;> simp
@[simp] theorem countThrottle_twinTile (s : State) (n : Nat) (v : Option ViId) : (countThrottle n v s).twinTile = s.twinTile := by unfold countThrottle; dsimp only; split <;> (try split) <;> simp

/-! ## countTimings -/

@[simp] theorem countTimings_pending (s : State) (n : Nat) (v : Option ViId) : (countTimings n v s).pending = s.pending := by unfold countTimings; dsimp only; split <;> (try split) <;> simp
@[simp] theorem countTimings_cfg (s : State) (n : Nat) (v : Option ViId) : (countTimings n v s).cfg = s.cfg := by unfold countTimings; dsimp only; split <;> (try split) <;> simp
@[simp] theorem countTimings_free (s : State) (n : Nat) (v : Option ViId) : (countTimings n v s).free = s.free := by unfold countTimings; dsimp only; split <;> (try split) <;> simp
@[simp] theorem countTimings_out (s : State) (n : Nat) (v : Option ViId) : (countTimings n v s).out = s.out := by unfold countTimings; dsimp only; split <;> (try split) <;> simp
@[simp] theorem countTimings_readData (s : State) (n : Nat) (v : Option ViId) : (countTimings n v s).readData = s.readData := by unfold countTimings; dsimp only; split <;> (try split) <;> simp
@[simp] theorem countTimings_tclk (s : State) (n : Nat) (v : Option ViId) : (countTimings n v s).tclk = s.tclk := by unfold countTimings; dsimp only; split <;> (try split) <;> simp
@[simp] theorem countTimings_fcyc (s : State) (n : Nat) (v : Option ViId) : (countTimings n v s).fcyc = s.fcyc := by unfold countTimings; dsimp only; split <;> (try split) <;> simp
@[simp] theorem countTimings_throttled (s : State) (n : Nat) (v : Option ViId) : (countTimings n v s).throttled = s.throttled := by unfold countTimings; dsimp only; split <;> (try split) <;> simp
@[simp] theorem countTimings_pins (s : State) (n : Nat) (v : Option ViId) : (countTimings n v s).pins = s.pins := by unfold countTimings; dsimp only; split <;> (try split) <;> simp
@[simp] theorem countTimings_shown (s : State) (n : Nat) (v : Option ViId) : (countTimings n v s).shown = s.shown := by unfold countTimings; dsimp only; split <;> (try split) <;> simp
@[simp] theorem countTimings_ctl (s : State) (n : Nat) (v : Option ViId) : (countTimings n v s).ctl = s.ctl := by unfold countTimings; dsimp only; split <;> (try split) <;> simp
@[simp] theorem countTimings_twin (s : State) (n : Nat) (v : Option ViId) : (countTimings n v s).twin = s.twin := by unfold countTimings; dsimp only; split <;> (try split) <;> simp
@[simp] theorem countTimings_pwr (s : State) (n : Nat) (v : Option ViId) : (countTimings n v s).pwr = s.pwr := by unfold countTimings; dsimp only; split <;> (try split) <;> simp
@[simp] theorem countTimings_det (s : State) (n : Nat) (v : Option ViId) : (countTimings n v s).det = s.det := by unfold countTimings; dsimp only; split <;> (try split) <;> simp
@[simp] theorem countTimings_mg (s : State) (n : Nat) (v : Option ViId) : (countTimings n v s).mg = s.mg := by unfold countTimings; dsimp only; split <;> (try split) <;> simp
@[simp] theorem countTimings_log (s : State) (n : Nat) (v : Option ViId) : (countTimings n v s).log = s.log := by unfold countTimings; dsimp only; split <;> (try split) <;> simp
@[simp] theorem countTimings_drain (s : State) (n : Nat) (v : Option ViId) : (countTimings n v s).drain = s.drain := by unfold countTimings; dsimp only; split <;> (try split) <;> simp
@[simp] theorem countTimings_shift (s : State) (n : Nat) (v : Option ViId) : (countTimings n v s).shift = s.shift := by unfold countTimings; dsimp only; split <;> (try split) <;> simp
@[simp] theorem countTimings_rings (s : State) (n : Nat) (v : Option ViId) : (countTimings n v s).rings = s.rings := by unfold countTimings; dsimp only; split <;> (try split) <;> simp
@[simp] theorem countTimings_slots (s : State) (n : Nat) (v : Option ViId) : (countTimings n v s).slots = s.slots := by unfold countTimings; dsimp only; split <;> (try split) <;> simp
@[simp] theorem countTimings_tabs (s : State) (n : Nat) (v : Option ViId) : (countTimings n v s).tabs = s.tabs := by unfold countTimings; dsimp only; split <;> (try split) <;> simp
@[simp] theorem countTimings_chains (s : State) (n : Nat) (v : Option ViId) : (countTimings n v s).chains = s.chains := by unfold countTimings; dsimp only; split <;> (try split) <;> simp
@[simp] theorem countTimings_hinge (s : State) (n : Nat) (v : Option ViId) : (countTimings n v s).hinge = s.hinge := by unfold countTimings; dsimp only; split <;> (try split) <;> simp
@[simp] theorem countTimings_dev (s : State) (n : Nat) (v : Option ViId) : (countTimings n v s).dev = s.dev := by unfold countTimings; dsimp only; split <;> (try split) <;> simp
@[simp] theorem countTimings_tile (s : State) (n : Nat) (v : Option ViId) : (countTimings n v s).tile = s.tile := by unfold countTimings; dsimp only; split <;> (try split) <;> simp
@[simp] theorem countTimings_twinTile (s : State) (n : Nat) (v : Option ViId) : (countTimings n v s).twinTile = s.twinTile := by unfold countTimings; dsimp only; split <;> (try split) <;> simp

/-! ## countTiming -/

@[simp] theorem countTiming_pending (s : State) (v : Option ViId) : (countTiming v s).pending = s.pending := by simp [countTiming]
@[simp] theorem countTiming_cfg (s : State) (v : Option ViId) : (countTiming v s).cfg = s.cfg := by simp [countTiming]
@[simp] theorem countTiming_free (s : State) (v : Option ViId) : (countTiming v s).free = s.free := by simp [countTiming]
@[simp] theorem countTiming_out (s : State) (v : Option ViId) : (countTiming v s).out = s.out := by simp [countTiming]
@[simp] theorem countTiming_readData (s : State) (v : Option ViId) : (countTiming v s).readData = s.readData := by simp [countTiming]
@[simp] theorem countTiming_tclk (s : State) (v : Option ViId) : (countTiming v s).tclk = s.tclk := by simp [countTiming]
@[simp] theorem countTiming_fcyc (s : State) (v : Option ViId) : (countTiming v s).fcyc = s.fcyc := by simp [countTiming]
@[simp] theorem countTiming_throttled (s : State) (v : Option ViId) : (countTiming v s).throttled = s.throttled := by simp [countTiming]
@[simp] theorem countTiming_pins (s : State) (v : Option ViId) : (countTiming v s).pins = s.pins := by simp [countTiming]
@[simp] theorem countTiming_shown (s : State) (v : Option ViId) : (countTiming v s).shown = s.shown := by simp [countTiming]
@[simp] theorem countTiming_ctl (s : State) (v : Option ViId) : (countTiming v s).ctl = s.ctl := by simp [countTiming]
@[simp] theorem countTiming_twin (s : State) (v : Option ViId) : (countTiming v s).twin = s.twin := by simp [countTiming]
@[simp] theorem countTiming_pwr (s : State) (v : Option ViId) : (countTiming v s).pwr = s.pwr := by simp [countTiming]
@[simp] theorem countTiming_det (s : State) (v : Option ViId) : (countTiming v s).det = s.det := by simp [countTiming]
@[simp] theorem countTiming_mg (s : State) (v : Option ViId) : (countTiming v s).mg = s.mg := by simp [countTiming]
@[simp] theorem countTiming_log (s : State) (v : Option ViId) : (countTiming v s).log = s.log := by simp [countTiming]
@[simp] theorem countTiming_drain (s : State) (v : Option ViId) : (countTiming v s).drain = s.drain := by simp [countTiming]
@[simp] theorem countTiming_shift (s : State) (v : Option ViId) : (countTiming v s).shift = s.shift := by simp [countTiming]
@[simp] theorem countTiming_rings (s : State) (v : Option ViId) : (countTiming v s).rings = s.rings := by simp [countTiming]
@[simp] theorem countTiming_slots (s : State) (v : Option ViId) : (countTiming v s).slots = s.slots := by simp [countTiming]
@[simp] theorem countTiming_tabs (s : State) (v : Option ViId) : (countTiming v s).tabs = s.tabs := by simp [countTiming]
@[simp] theorem countTiming_chains (s : State) (v : Option ViId) : (countTiming v s).chains = s.chains := by simp [countTiming]
@[simp] theorem countTiming_hinge (s : State) (v : Option ViId) : (countTiming v s).hinge = s.hinge := by simp [countTiming]
@[simp] theorem countTiming_dev (s : State) (v : Option ViId) : (countTiming v s).dev = s.dev := by simp [countTiming]
@[simp] theorem countTiming_tile (s : State) (v : Option ViId) : (countTiming v s).tile = s.tile := by simp [countTiming]
@[simp] theorem countTiming_twinTile (s : State) (v : Option ViId) : (countTiming v s).twinTile = s.twinTile := by simp [countTiming]

/-! ## countBits -/

@[simp] theorem countBits_pending (s : State) (n : Nat) (v : ViId) : (countBits n v s).pending = s.pending := by unfold countBits; dsimp only; split <;> simp
@[simp] theorem countBits_cfg (s : State) (n : Nat) (v : ViId) : (countBits n v s).cfg = s.cfg := by unfold countBits; dsimp only; split <;> simp
@[simp] theorem countBits_free (s : State) (n : Nat) (v : ViId) : (countBits n v s).free = s.free := by unfold countBits; dsimp only; split <;> simp
@[simp] theorem countBits_out (s : State) (n : Nat) (v : ViId) : (countBits n v s).out = s.out := by unfold countBits; dsimp only; split <;> simp
@[simp] theorem countBits_readData (s : State) (n : Nat) (v : ViId) : (countBits n v s).readData = s.readData := by unfold countBits; dsimp only; split <;> simp
@[simp] theorem countBits_tclk (s : State) (n : Nat) (v : ViId) : (countBits n v s).tclk = s.tclk := by unfold countBits; dsimp only; split <;> simp
@[simp] theorem countBits_fcyc (s : State) (n : Nat) (v : ViId) : (countBits n v s).fcyc = s.fcyc := by unfold countBits; dsimp only; split <;> simp
@[simp] theorem countBits_throttled (s : State) (n : Nat) (v : ViId) : (countBits n v s).throttled = s.throttled := by unfold countBits; dsimp only; split <;> simp
@[simp] theorem countBits_pins (s : State) (n : Nat) (v : ViId) : (countBits n v s).pins = s.pins := by unfold countBits; dsimp only; split <;> simp
@[simp] theorem countBits_shown (s : State) (n : Nat) (v : ViId) : (countBits n v s).shown = s.shown := by unfold countBits; dsimp only; split <;> simp
@[simp] theorem countBits_ctl (s : State) (n : Nat) (v : ViId) : (countBits n v s).ctl = s.ctl := by unfold countBits; dsimp only; split <;> simp
@[simp] theorem countBits_twin (s : State) (n : Nat) (v : ViId) : (countBits n v s).twin = s.twin := by unfold countBits; dsimp only; split <;> simp
@[simp] theorem countBits_pwr (s : State) (n : Nat) (v : ViId) : (countBits n v s).pwr = s.pwr := by unfold countBits; dsimp only; split <;> simp
@[simp] theorem countBits_det (s : State) (n : Nat) (v : ViId) : (countBits n v s).det = s.det := by unfold countBits; dsimp only; split <;> simp
@[simp] theorem countBits_mg (s : State) (n : Nat) (v : ViId) : (countBits n v s).mg = s.mg := by unfold countBits; dsimp only; split <;> simp
@[simp] theorem countBits_log (s : State) (n : Nat) (v : ViId) : (countBits n v s).log = s.log := by unfold countBits; dsimp only; split <;> simp
@[simp] theorem countBits_drain (s : State) (n : Nat) (v : ViId) : (countBits n v s).drain = s.drain := by unfold countBits; dsimp only; split <;> simp
@[simp] theorem countBits_shift (s : State) (n : Nat) (v : ViId) : (countBits n v s).shift = s.shift := by unfold countBits; dsimp only; split <;> simp
@[simp] theorem countBits_rings (s : State) (n : Nat) (v : ViId) : (countBits n v s).rings = s.rings := by unfold countBits; dsimp only; split <;> simp
@[simp] theorem countBits_slots (s : State) (n : Nat) (v : ViId) : (countBits n v s).slots = s.slots := by unfold countBits; dsimp only; split <;> simp
@[simp] theorem countBits_tabs (s : State) (n : Nat) (v : ViId) : (countBits n v s).tabs = s.tabs := by unfold countBits; dsimp only; split <;> simp
@[simp] theorem countBits_chains (s : State) (n : Nat) (v : ViId) : (countBits n v s).chains = s.chains := by unfold countBits; dsimp only; split <;> simp
@[simp] theorem countBits_hinge (s : State) (n : Nat) (v : ViId) : (countBits n v s).hinge = s.hinge := by unfold countBits; dsimp only; split <;> simp
@[simp] theorem countBits_dev (s : State) (n : Nat) (v : ViId) : (countBits n v s).dev = s.dev := by unfold countBits; dsimp only; split <;> simp
@[simp] theorem countBits_tile (s : State) (n : Nat) (v : ViId) : (countBits n v s).tile = s.tile := by unfold countBits; dsimp only; split <;> simp
@[simp] theorem countBits_twinTile (s : State) (n : Nat) (v : ViId) : (countBits n v s).twinTile = s.twinTile := by unfold countBits; dsimp only; split <;> simp

/-! ## countStalls -/

@[simp] theorem countStalls_pending (s : State) (n : Nat) : (countStalls n s).pending = s.pending := by
  unfold countStalls; split
  · exact foldl_keeps (fun s => s.pending) _ (fun s i => by simp) _ s
  · split <;> simp
@[simp] theorem countStalls_cfg (s : State) (n : Nat) : (countStalls n s).cfg = s.cfg := by
  unfold countStalls; split
  · exact foldl_keeps (fun s => s.cfg) _ (fun s i => by simp) _ s
  · split <;> simp
@[simp] theorem countStalls_free (s : State) (n : Nat) : (countStalls n s).free = s.free := by
  unfold countStalls; split
  · exact foldl_keeps (fun s => s.free) _ (fun s i => by simp) _ s
  · split <;> simp
@[simp] theorem countStalls_out (s : State) (n : Nat) : (countStalls n s).out = s.out := by
  unfold countStalls; split
  · exact foldl_keeps (fun s => s.out) _ (fun s i => by simp) _ s
  · split <;> simp
@[simp] theorem countStalls_readData (s : State) (n : Nat) : (countStalls n s).readData = s.readData := by
  unfold countStalls; split
  · exact foldl_keeps (fun s => s.readData) _ (fun s i => by simp) _ s
  · split <;> simp
@[simp] theorem countStalls_tclk (s : State) (n : Nat) : (countStalls n s).tclk = s.tclk := by
  unfold countStalls; split
  · exact foldl_keeps (fun s => s.tclk) _ (fun s i => by simp) _ s
  · split <;> simp
@[simp] theorem countStalls_fcyc (s : State) (n : Nat) : (countStalls n s).fcyc = s.fcyc := by
  unfold countStalls; split
  · exact foldl_keeps (fun s => s.fcyc) _ (fun s i => by simp) _ s
  · split <;> simp
@[simp] theorem countStalls_throttled (s : State) (n : Nat) : (countStalls n s).throttled = s.throttled := by
  unfold countStalls; split
  · exact foldl_keeps (fun s => s.throttled) _ (fun s i => by simp) _ s
  · split <;> simp
@[simp] theorem countStalls_pins (s : State) (n : Nat) : (countStalls n s).pins = s.pins := by
  unfold countStalls; split
  · exact foldl_keeps (fun s => s.pins) _ (fun s i => by simp) _ s
  · split <;> simp
@[simp] theorem countStalls_shown (s : State) (n : Nat) : (countStalls n s).shown = s.shown := by
  unfold countStalls; split
  · exact foldl_keeps (fun s => s.shown) _ (fun s i => by simp) _ s
  · split <;> simp
@[simp] theorem countStalls_ctl (s : State) (n : Nat) : (countStalls n s).ctl = s.ctl := by
  unfold countStalls; split
  · exact foldl_keeps (fun s => s.ctl) _ (fun s i => by simp) _ s
  · split <;> simp
@[simp] theorem countStalls_twin (s : State) (n : Nat) : (countStalls n s).twin = s.twin := by
  unfold countStalls; split
  · exact foldl_keeps (fun s => s.twin) _ (fun s i => by simp) _ s
  · split <;> simp
@[simp] theorem countStalls_pwr (s : State) (n : Nat) : (countStalls n s).pwr = s.pwr := by
  unfold countStalls; split
  · exact foldl_keeps (fun s => s.pwr) _ (fun s i => by simp) _ s
  · split <;> simp
@[simp] theorem countStalls_det (s : State) (n : Nat) : (countStalls n s).det = s.det := by
  unfold countStalls; split
  · exact foldl_keeps (fun s => s.det) _ (fun s i => by simp) _ s
  · split <;> simp
@[simp] theorem countStalls_mg (s : State) (n : Nat) : (countStalls n s).mg = s.mg := by
  unfold countStalls; split
  · exact foldl_keeps (fun s => s.mg) _ (fun s i => by simp) _ s
  · split <;> simp
@[simp] theorem countStalls_log (s : State) (n : Nat) : (countStalls n s).log = s.log := by
  unfold countStalls; split
  · exact foldl_keeps (fun s => s.log) _ (fun s i => by simp) _ s
  · split <;> simp
@[simp] theorem countStalls_drain (s : State) (n : Nat) : (countStalls n s).drain = s.drain := by
  unfold countStalls; split
  · exact foldl_keeps (fun s => s.drain) _ (fun s i => by simp) _ s
  · split <;> simp
@[simp] theorem countStalls_shift (s : State) (n : Nat) : (countStalls n s).shift = s.shift := by
  unfold countStalls; split
  · exact foldl_keeps (fun s => s.shift) _ (fun s i => by simp) _ s
  · split <;> simp
@[simp] theorem countStalls_rings (s : State) (n : Nat) : (countStalls n s).rings = s.rings := by
  unfold countStalls; split
  · exact foldl_keeps (fun s => s.rings) _ (fun s i => by simp) _ s
  · split <;> simp
@[simp] theorem countStalls_slots (s : State) (n : Nat) : (countStalls n s).slots = s.slots := by
  unfold countStalls; split
  · exact foldl_keeps (fun s => s.slots) _ (fun s i => by simp) _ s
  · split <;> simp
@[simp] theorem countStalls_tabs (s : State) (n : Nat) : (countStalls n s).tabs = s.tabs := by
  unfold countStalls; split
  · exact foldl_keeps (fun s => s.tabs) _ (fun s i => by simp) _ s
  · split <;> simp
@[simp] theorem countStalls_chains (s : State) (n : Nat) : (countStalls n s).chains = s.chains := by
  unfold countStalls; split
  · exact foldl_keeps (fun s => s.chains) _ (fun s i => by simp) _ s
  · split <;> simp
@[simp] theorem countStalls_hinge (s : State) (n : Nat) : (countStalls n s).hinge = s.hinge := by
  unfold countStalls; split
  · exact foldl_keeps (fun s => s.hinge) _ (fun s i => by simp) _ s
  · split <;> simp
@[simp] theorem countStalls_vis (s : State) (n : Nat) : (countStalls n s).vis = s.vis := by
  unfold countStalls; split
  · exact foldl_keeps (fun s => s.vis) _ (fun s i => by simp) _ s
  · split <;> simp
@[simp] theorem countStalls_dev (s : State) (n : Nat) : (countStalls n s).dev = s.dev := by
  unfold countStalls; split
  · exact foldl_keeps (fun s => s.dev) _ (fun s i => by simp) _ s
  · split <;> simp
@[simp] theorem countStalls_tile (s : State) (n : Nat) : (countStalls n s).tile = s.tile := by
  unfold countStalls; split
  · exact foldl_keeps (fun s => s.tile) _ (fun s i => by simp) _ s
  · split <;> simp
@[simp] theorem countStalls_twinTile (s : State) (n : Nat) : (countStalls n s).twinTile = s.twinTile := by
  unfold countStalls; split
  · exact foldl_keeps (fun s => s.twinTile) _ (fun s i => by simp) _ s
  · split <;> simp

/-! ## countWithheld -/

@[simp] theorem countWithheld_pending (s : State) (n : Nat) : (countWithheld n s).pending = s.pending := by unfold countWithheld; split <;> (try dsimp only) <;> (try split) <;> simp
@[simp] theorem countWithheld_cfg (s : State) (n : Nat) : (countWithheld n s).cfg = s.cfg := by unfold countWithheld; split <;> (try dsimp only) <;> (try split) <;> simp
@[simp] theorem countWithheld_free (s : State) (n : Nat) : (countWithheld n s).free = s.free := by unfold countWithheld; split <;> (try dsimp only) <;> (try split) <;> simp
@[simp] theorem countWithheld_out (s : State) (n : Nat) : (countWithheld n s).out = s.out := by unfold countWithheld; split <;> (try dsimp only) <;> (try split) <;> simp
@[simp] theorem countWithheld_readData (s : State) (n : Nat) : (countWithheld n s).readData = s.readData := by unfold countWithheld; split <;> (try dsimp only) <;> (try split) <;> simp
@[simp] theorem countWithheld_tclk (s : State) (n : Nat) : (countWithheld n s).tclk = s.tclk := by unfold countWithheld; split <;> (try dsimp only) <;> (try split) <;> simp
@[simp] theorem countWithheld_fcyc (s : State) (n : Nat) : (countWithheld n s).fcyc = s.fcyc := by unfold countWithheld; split <;> (try dsimp only) <;> (try split) <;> simp
@[simp] theorem countWithheld_pins (s : State) (n : Nat) : (countWithheld n s).pins = s.pins := by unfold countWithheld; split <;> (try dsimp only) <;> (try split) <;> simp
@[simp] theorem countWithheld_shown (s : State) (n : Nat) : (countWithheld n s).shown = s.shown := by unfold countWithheld; split <;> (try dsimp only) <;> (try split) <;> simp
@[simp] theorem countWithheld_ctl (s : State) (n : Nat) : (countWithheld n s).ctl = s.ctl := by unfold countWithheld; split <;> (try dsimp only) <;> (try split) <;> simp
@[simp] theorem countWithheld_twin (s : State) (n : Nat) : (countWithheld n s).twin = s.twin := by unfold countWithheld; split <;> (try dsimp only) <;> (try split) <;> simp
@[simp] theorem countWithheld_pwr (s : State) (n : Nat) : (countWithheld n s).pwr = s.pwr := by unfold countWithheld; split <;> (try dsimp only) <;> (try split) <;> simp
@[simp] theorem countWithheld_det (s : State) (n : Nat) : (countWithheld n s).det = s.det := by unfold countWithheld; split <;> (try dsimp only) <;> (try split) <;> simp
@[simp] theorem countWithheld_mg (s : State) (n : Nat) : (countWithheld n s).mg = s.mg := by unfold countWithheld; split <;> (try dsimp only) <;> (try split) <;> simp
@[simp] theorem countWithheld_log (s : State) (n : Nat) : (countWithheld n s).log = s.log := by unfold countWithheld; split <;> (try dsimp only) <;> (try split) <;> simp
@[simp] theorem countWithheld_drain (s : State) (n : Nat) : (countWithheld n s).drain = s.drain := by unfold countWithheld; split <;> (try dsimp only) <;> (try split) <;> simp
@[simp] theorem countWithheld_shift (s : State) (n : Nat) : (countWithheld n s).shift = s.shift := by unfold countWithheld; split <;> (try dsimp only) <;> (try split) <;> simp
@[simp] theorem countWithheld_rings (s : State) (n : Nat) : (countWithheld n s).rings = s.rings := by unfold countWithheld; split <;> (try dsimp only) <;> (try split) <;> simp
@[simp] theorem countWithheld_slots (s : State) (n : Nat) : (countWithheld n s).slots = s.slots := by unfold countWithheld; split <;> (try dsimp only) <;> (try split) <;> simp
@[simp] theorem countWithheld_tabs (s : State) (n : Nat) : (countWithheld n s).tabs = s.tabs := by unfold countWithheld; split <;> (try dsimp only) <;> (try split) <;> simp
@[simp] theorem countWithheld_chains (s : State) (n : Nat) : (countWithheld n s).chains = s.chains := by unfold countWithheld; split <;> (try dsimp only) <;> (try split) <;> simp
@[simp] theorem countWithheld_hinge (s : State) (n : Nat) : (countWithheld n s).hinge = s.hinge := by unfold countWithheld; split <;> (try dsimp only) <;> (try split) <;> simp
@[simp] theorem countWithheld_dev (s : State) (n : Nat) : (countWithheld n s).dev = s.dev := by unfold countWithheld; split <;> (try dsimp only) <;> (try split) <;> simp
@[simp] theorem countWithheld_tile (s : State) (n : Nat) : (countWithheld n s).tile = s.tile := by unfold countWithheld; split <;> (try dsimp only) <;> (try split) <;> simp
@[simp] theorem countWithheld_twinTile (s : State) (n : Nat) : (countWithheld n s).twinTile = s.twinTile := by unfold countWithheld; split <;> (try dsimp only) <;> (try split) <;> simp

/-! ## advanceClock -/

@[simp] theorem advanceClock_pending (s : State) : (advanceClock s).pending = s.pending := by unfold advanceClock; dsimp only; repeat (first | split | rfl | simp)
@[simp] theorem advanceClock_cfg (s : State) : (advanceClock s).cfg = s.cfg := by unfold advanceClock; dsimp only; repeat (first | split | rfl | simp)
@[simp] theorem advanceClock_out (s : State) : (advanceClock s).out = s.out := by unfold advanceClock; dsimp only; repeat (first | split | rfl | simp)
@[simp] theorem advanceClock_readData (s : State) : (advanceClock s).readData = s.readData := by unfold advanceClock; dsimp only; repeat (first | split | rfl | simp)
@[simp] theorem advanceClock_ctl (s : State) : (advanceClock s).ctl = s.ctl := by unfold advanceClock; dsimp only; repeat (first | split | rfl | simp)
@[simp] theorem advanceClock_twin (s : State) : (advanceClock s).twin = s.twin := by unfold advanceClock; dsimp only; repeat (first | split | rfl | simp)
@[simp] theorem advanceClock_pwr (s : State) : (advanceClock s).pwr = s.pwr := by unfold advanceClock; dsimp only; repeat (first | split | rfl | simp)
@[simp] theorem advanceClock_det (s : State) : (advanceClock s).det = s.det := by unfold advanceClock; dsimp only; repeat (first | split | rfl | simp)
@[simp] theorem advanceClock_mg (s : State) : (advanceClock s).mg = s.mg := by unfold advanceClock; dsimp only; repeat (first | split | rfl | simp)
@[simp] theorem advanceClock_log (s : State) : (advanceClock s).log = s.log := by unfold advanceClock; dsimp only; repeat (first | split | rfl | simp)
@[simp] theorem advanceClock_drain (s : State) : (advanceClock s).drain = s.drain := by unfold advanceClock; dsimp only; repeat (first | split | rfl | simp)
@[simp] theorem advanceClock_shift (s : State) : (advanceClock s).shift = s.shift := by unfold advanceClock; dsimp only; repeat (first | split | rfl | simp)
@[simp] theorem advanceClock_rings (s : State) : (advanceClock s).rings = s.rings := by unfold advanceClock; dsimp only; repeat (first | split | rfl | simp)
@[simp] theorem advanceClock_slots (s : State) : (advanceClock s).slots = s.slots := by unfold advanceClock; dsimp only; repeat (first | split | rfl | simp)
@[simp] theorem advanceClock_tabs (s : State) : (advanceClock s).tabs = s.tabs := by unfold advanceClock; dsimp only; repeat (first | split | rfl | simp)
@[simp] theorem advanceClock_chains (s : State) : (advanceClock s).chains = s.chains := by unfold advanceClock; dsimp only; repeat (first | split | rfl | simp)
@[simp] theorem advanceClock_hinge (s : State) : (advanceClock s).hinge = s.hinge := by unfold advanceClock; dsimp only; repeat (first | split | rfl | simp)
@[simp] theorem advanceClock_dev (s : State) : (advanceClock s).dev = s.dev := by unfold advanceClock; dsimp only; repeat (first | split | rfl | simp)
@[simp] theorem advanceClock_tile (s : State) : (advanceClock s).tile = s.tile := by unfold advanceClock; dsimp only; repeat (first | split | rfl | simp)
@[simp] theorem advanceClock_twinTile (s : State) : (advanceClock s).twinTile = s.twinTile := by unfold advanceClock; dsimp only; repeat (first | split | rfl | simp)
@[simp] theorem advanceClock_throttled (s : State) : (advanceClock s).throttled = s.throttled := by unfold advanceClock; dsimp only; repeat (first | split | rfl | simp)
@[simp] theorem advanceClock_shown (s : State) : (advanceClock s).shown = s.shown := by unfold advanceClock; dsimp only; repeat (first | split | rfl | simp)

/-! ## tick -/

@[simp] theorem tick_pending (s : State) : (tick s).pending = s.pending := by simp [tick]
@[simp] theorem tick_cfg (s : State) : (tick s).cfg = s.cfg := by simp [tick]
@[simp] theorem tick_out (s : State) : (tick s).out = s.out := by simp [tick]
@[simp] theorem tick_readData (s : State) : (tick s).readData = s.readData := by simp [tick]
@[simp] theorem tick_ctl (s : State) : (tick s).ctl = s.ctl := by simp [tick]
@[simp] theorem tick_twin (s : State) : (tick s).twin = s.twin := by simp [tick]
@[simp] theorem tick_pwr (s : State) : (tick s).pwr = s.pwr := by simp [tick]
@[simp] theorem tick_det (s : State) : (tick s).det = s.det := by simp [tick]
@[simp] theorem tick_mg (s : State) : (tick s).mg = s.mg := by simp [tick]
@[simp] theorem tick_log (s : State) : (tick s).log = s.log := by simp [tick]
@[simp] theorem tick_drain (s : State) : (tick s).drain = s.drain := by simp [tick]
@[simp] theorem tick_shift (s : State) : (tick s).shift = s.shift := by simp [tick]
@[simp] theorem tick_rings (s : State) : (tick s).rings = s.rings := by simp [tick]
@[simp] theorem tick_slots (s : State) : (tick s).slots = s.slots := by simp [tick]
@[simp] theorem tick_tabs (s : State) : (tick s).tabs = s.tabs := by simp [tick]
@[simp] theorem tick_chains (s : State) : (tick s).chains = s.chains := by simp [tick]
@[simp] theorem tick_hinge (s : State) : (tick s).hinge = s.hinge := by simp [tick]
@[simp] theorem tick_dev (s : State) : (tick s).dev = s.dev := by simp [tick]
@[simp] theorem tick_tile (s : State) : (tick s).tile = s.tile := by simp [tick]
@[simp] theorem tick_twinTile (s : State) : (tick s).twinTile = s.twinTile := by simp [tick]
@[simp] theorem tick_shown (s : State) : (tick s).shown = s.shown := by simp [tick]

/-! ## showTwin -/

@[simp] theorem showTwin_pending (l : List Nat) (s : State) : (showTwin l s).pending = s.pending := by unfold showTwin; split <;> rfl
@[simp] theorem showTwin_cfg (l : List Nat) (s : State) : (showTwin l s).cfg = s.cfg := by unfold showTwin; split <;> rfl
@[simp] theorem showTwin_free (l : List Nat) (s : State) : (showTwin l s).free = s.free := by unfold showTwin; split <;> rfl
@[simp] theorem showTwin_readData (l : List Nat) (s : State) : (showTwin l s).readData = s.readData := by unfold showTwin; split <;> rfl
@[simp] theorem showTwin_tclk (l : List Nat) (s : State) : (showTwin l s).tclk = s.tclk := by unfold showTwin; split <;> rfl
@[simp] theorem showTwin_fcyc (l : List Nat) (s : State) : (showTwin l s).fcyc = s.fcyc := by unfold showTwin; split <;> rfl
@[simp] theorem showTwin_throttled (l : List Nat) (s : State) : (showTwin l s).throttled = s.throttled := by unfold showTwin; split <;> rfl
@[simp] theorem showTwin_pins (l : List Nat) (s : State) : (showTwin l s).pins = s.pins := by unfold showTwin; split <;> rfl
@[simp] theorem showTwin_ctl (l : List Nat) (s : State) : (showTwin l s).ctl = s.ctl := by unfold showTwin; split <;> rfl
@[simp] theorem showTwin_pwr (l : List Nat) (s : State) : (showTwin l s).pwr = s.pwr := by unfold showTwin; split <;> rfl
@[simp] theorem showTwin_det (l : List Nat) (s : State) : (showTwin l s).det = s.det := by unfold showTwin; split <;> rfl
@[simp] theorem showTwin_mg (l : List Nat) (s : State) : (showTwin l s).mg = s.mg := by unfold showTwin; split <;> rfl
@[simp] theorem showTwin_log (l : List Nat) (s : State) : (showTwin l s).log = s.log := by unfold showTwin; split <;> rfl
@[simp] theorem showTwin_drain (l : List Nat) (s : State) : (showTwin l s).drain = s.drain := by unfold showTwin; split <;> rfl
@[simp] theorem showTwin_shift (l : List Nat) (s : State) : (showTwin l s).shift = s.shift := by unfold showTwin; split <;> rfl
@[simp] theorem showTwin_rings (l : List Nat) (s : State) : (showTwin l s).rings = s.rings := by unfold showTwin; split <;> rfl
@[simp] theorem showTwin_slots (l : List Nat) (s : State) : (showTwin l s).slots = s.slots := by unfold showTwin; split <;> rfl
@[simp] theorem showTwin_tabs (l : List Nat) (s : State) : (showTwin l s).tabs = s.tabs := by unfold showTwin; split <;> rfl
@[simp] theorem showTwin_chains (l : List Nat) (s : State) : (showTwin l s).chains = s.chains := by unfold showTwin; split <;> rfl
@[simp] theorem showTwin_hinge (l : List Nat) (s : State) : (showTwin l s).hinge = s.hinge := by unfold showTwin; split <;> rfl
@[simp] theorem showTwin_vis (l : List Nat) (s : State) : (showTwin l s).vis = s.vis := by unfold showTwin; split <;> rfl
@[simp] theorem showTwin_ev (l : List Nat) (s : State) : (showTwin l s).ev = s.ev := by unfold showTwin; split <;> rfl
@[simp] theorem showTwin_dev (l : List Nat) (s : State) : (showTwin l s).dev = s.dev := by unfold showTwin; split <;> rfl
@[simp] theorem showTwin_tile (l : List Nat) (s : State) : (showTwin l s).tile = s.tile := by unfold showTwin; split <;> rfl
@[simp] theorem showTwin_twinTile (l : List Nat) (s : State) : (showTwin l s).twinTile = s.twinTile := by unfold showTwin; split <;> rfl
@[simp] theorem showTwin_twin (l : List Nat) (s : State) : (showTwin l s).twin = s.twin := by unfold showTwin; split <;> rfl
@[simp] theorem showTwin_out (l : List Nat) (s : State) : (showTwin l s).out = s.out := by unfold showTwin; split <;> rfl

/-! ## lockstepFold -/

@[simp] theorem lockstepFold_pending (s : State) (l : List Nat) : (lockstepFold l s).pending = s.pending := by unfold lockstepFold; split <;> simp
@[simp] theorem lockstepFold_cfg (s : State) (l : List Nat) : (lockstepFold l s).cfg = s.cfg := by unfold lockstepFold; split <;> simp
@[simp] theorem lockstepFold_free (s : State) (l : List Nat) : (lockstepFold l s).free = s.free := by unfold lockstepFold; split <;> simp
@[simp] theorem lockstepFold_readData (s : State) (l : List Nat) : (lockstepFold l s).readData = s.readData := by unfold lockstepFold; split <;> simp
@[simp] theorem lockstepFold_tclk (s : State) (l : List Nat) : (lockstepFold l s).tclk = s.tclk := by unfold lockstepFold; split <;> simp
@[simp] theorem lockstepFold_fcyc (s : State) (l : List Nat) : (lockstepFold l s).fcyc = s.fcyc := by unfold lockstepFold; split <;> simp
@[simp] theorem lockstepFold_throttled (s : State) (l : List Nat) : (lockstepFold l s).throttled = s.throttled := by unfold lockstepFold; split <;> simp
@[simp] theorem lockstepFold_pins (s : State) (l : List Nat) : (lockstepFold l s).pins = s.pins := by unfold lockstepFold; split <;> simp
@[simp] theorem lockstepFold_ctl (s : State) (l : List Nat) : (lockstepFold l s).ctl = s.ctl := by unfold lockstepFold; split <;> simp
@[simp] theorem lockstepFold_pwr (s : State) (l : List Nat) : (lockstepFold l s).pwr = s.pwr := by unfold lockstepFold; split <;> simp
@[simp] theorem lockstepFold_det (s : State) (l : List Nat) : (lockstepFold l s).det = s.det := by unfold lockstepFold; split <;> simp
@[simp] theorem lockstepFold_mg (s : State) (l : List Nat) : (lockstepFold l s).mg = s.mg := by unfold lockstepFold; split <;> simp
@[simp] theorem lockstepFold_log (s : State) (l : List Nat) : (lockstepFold l s).log = s.log := by unfold lockstepFold; split <;> simp
@[simp] theorem lockstepFold_drain (s : State) (l : List Nat) : (lockstepFold l s).drain = s.drain := by unfold lockstepFold; split <;> simp
@[simp] theorem lockstepFold_shift (s : State) (l : List Nat) : (lockstepFold l s).shift = s.shift := by unfold lockstepFold; split <;> simp
@[simp] theorem lockstepFold_rings (s : State) (l : List Nat) : (lockstepFold l s).rings = s.rings := by unfold lockstepFold; split <;> simp
@[simp] theorem lockstepFold_slots (s : State) (l : List Nat) : (lockstepFold l s).slots = s.slots := by unfold lockstepFold; split <;> simp
@[simp] theorem lockstepFold_tabs (s : State) (l : List Nat) : (lockstepFold l s).tabs = s.tabs := by unfold lockstepFold; split <;> simp
@[simp] theorem lockstepFold_chains (s : State) (l : List Nat) : (lockstepFold l s).chains = s.chains := by unfold lockstepFold; split <;> simp
@[simp] theorem lockstepFold_hinge (s : State) (l : List Nat) : (lockstepFold l s).hinge = s.hinge := by unfold lockstepFold; split <;> simp
@[simp] theorem lockstepFold_vis (s : State) (l : List Nat) : (lockstepFold l s).vis = s.vis := by unfold lockstepFold; split <;> simp
@[simp] theorem lockstepFold_ev (s : State) (l : List Nat) : (lockstepFold l s).ev = s.ev := by unfold lockstepFold; split <;> simp
@[simp] theorem lockstepFold_dev (s : State) (l : List Nat) : (lockstepFold l s).dev = s.dev := by unfold lockstepFold; split <;> simp
@[simp] theorem lockstepFold_tile (s : State) (l : List Nat) : (lockstepFold l s).tile = s.tile := by unfold lockstepFold; split <;> simp
@[simp] theorem lockstepFold_twinTile (s : State) (l : List Nat) : (lockstepFold l s).twinTile = s.twinTile := by unfold lockstepFold; split <;> simp

/-! ## writeByte -/

@[simp] theorem writeByte_pending (s : State) (sp : Space) (a : Nat) (b : Byte) : (writeByte s sp a b).pending = s.pending := by simp [writeByte]
@[simp] theorem writeByte_cfg (s : State) (sp : Space) (a : Nat) (b : Byte) : (writeByte s sp a b).cfg = s.cfg := by simp [writeByte]
@[simp] theorem writeByte_free (s : State) (sp : Space) (a : Nat) (b : Byte) : (writeByte s sp a b).free = s.free := by simp [writeByte]
@[simp] theorem writeByte_out (s : State) (sp : Space) (a : Nat) (b : Byte) : (writeByte s sp a b).out = s.out := by simp [writeByte]
@[simp] theorem writeByte_readData (s : State) (sp : Space) (a : Nat) (b : Byte) : (writeByte s sp a b).readData = s.readData := by simp [writeByte]
@[simp] theorem writeByte_tclk (s : State) (sp : Space) (a : Nat) (b : Byte) : (writeByte s sp a b).tclk = s.tclk := by simp [writeByte]
@[simp] theorem writeByte_fcyc (s : State) (sp : Space) (a : Nat) (b : Byte) : (writeByte s sp a b).fcyc = s.fcyc := by simp [writeByte]
@[simp] theorem writeByte_throttled (s : State) (sp : Space) (a : Nat) (b : Byte) : (writeByte s sp a b).throttled = s.throttled := by simp [writeByte]
@[simp] theorem writeByte_pins (s : State) (sp : Space) (a : Nat) (b : Byte) : (writeByte s sp a b).pins = s.pins := by simp [writeByte]
@[simp] theorem writeByte_shown (s : State) (sp : Space) (a : Nat) (b : Byte) : (writeByte s sp a b).shown = s.shown := by simp [writeByte]
@[simp] theorem writeByte_ctl (s : State) (sp : Space) (a : Nat) (b : Byte) : (writeByte s sp a b).ctl = s.ctl := by simp [writeByte]
@[simp] theorem writeByte_twin (s : State) (sp : Space) (a : Nat) (b : Byte) : (writeByte s sp a b).twin = s.twin := by simp [writeByte]
@[simp] theorem writeByte_pwr (s : State) (sp : Space) (a : Nat) (b : Byte) : (writeByte s sp a b).pwr = s.pwr := by simp [writeByte]
@[simp] theorem writeByte_det (s : State) (sp : Space) (a : Nat) (b : Byte) : (writeByte s sp a b).det = s.det := by simp [writeByte]
@[simp] theorem writeByte_mg (s : State) (sp : Space) (a : Nat) (b : Byte) : (writeByte s sp a b).mg = s.mg := by simp [writeByte]
@[simp] theorem writeByte_log (s : State) (sp : Space) (a : Nat) (b : Byte) : (writeByte s sp a b).log = s.log := by simp [writeByte]
@[simp] theorem writeByte_drain (s : State) (sp : Space) (a : Nat) (b : Byte) : (writeByte s sp a b).drain = s.drain := by simp [writeByte]
@[simp] theorem writeByte_shift (s : State) (sp : Space) (a : Nat) (b : Byte) : (writeByte s sp a b).shift = s.shift := by simp [writeByte]
@[simp] theorem writeByte_rings (s : State) (sp : Space) (a : Nat) (b : Byte) : (writeByte s sp a b).rings = s.rings := by simp [writeByte]
@[simp] theorem writeByte_slots (s : State) (sp : Space) (a : Nat) (b : Byte) : (writeByte s sp a b).slots = s.slots := by simp [writeByte]
@[simp] theorem writeByte_tabs (s : State) (sp : Space) (a : Nat) (b : Byte) : (writeByte s sp a b).tabs = s.tabs := by simp [writeByte]
@[simp] theorem writeByte_chains (s : State) (sp : Space) (a : Nat) (b : Byte) : (writeByte s sp a b).chains = s.chains := by simp [writeByte]
@[simp] theorem writeByte_hinge (s : State) (sp : Space) (a : Nat) (b : Byte) : (writeByte s sp a b).hinge = s.hinge := by simp [writeByte]
@[simp] theorem writeByte_vis (s : State) (sp : Space) (a : Nat) (b : Byte) : (writeByte s sp a b).vis = s.vis := by simp [writeByte]
@[simp] theorem writeByte_ev (s : State) (sp : Space) (a : Nat) (b : Byte) : (writeByte s sp a b).ev = s.ev := by simp [writeByte]

/-! ## writeBytes -/

@[simp] theorem writeBytes_pending (s : State) (sp : Space) (a : Nat) (bs : List Byte) : (writeBytes s sp a bs).pending = s.pending := by
  induction bs generalizing s a with
  | nil => rfl
  | cons b rest ih => simp [writeBytes, ih]
@[simp] theorem writeBytes_cfg (s : State) (sp : Space) (a : Nat) (bs : List Byte) : (writeBytes s sp a bs).cfg = s.cfg := by
  induction bs generalizing s a with
  | nil => rfl
  | cons b rest ih => simp [writeBytes, ih]
@[simp] theorem writeBytes_free (s : State) (sp : Space) (a : Nat) (bs : List Byte) : (writeBytes s sp a bs).free = s.free := by
  induction bs generalizing s a with
  | nil => rfl
  | cons b rest ih => simp [writeBytes, ih]
@[simp] theorem writeBytes_out (s : State) (sp : Space) (a : Nat) (bs : List Byte) : (writeBytes s sp a bs).out = s.out := by
  induction bs generalizing s a with
  | nil => rfl
  | cons b rest ih => simp [writeBytes, ih]
@[simp] theorem writeBytes_readData (s : State) (sp : Space) (a : Nat) (bs : List Byte) : (writeBytes s sp a bs).readData = s.readData := by
  induction bs generalizing s a with
  | nil => rfl
  | cons b rest ih => simp [writeBytes, ih]
@[simp] theorem writeBytes_tclk (s : State) (sp : Space) (a : Nat) (bs : List Byte) : (writeBytes s sp a bs).tclk = s.tclk := by
  induction bs generalizing s a with
  | nil => rfl
  | cons b rest ih => simp [writeBytes, ih]
@[simp] theorem writeBytes_fcyc (s : State) (sp : Space) (a : Nat) (bs : List Byte) : (writeBytes s sp a bs).fcyc = s.fcyc := by
  induction bs generalizing s a with
  | nil => rfl
  | cons b rest ih => simp [writeBytes, ih]
@[simp] theorem writeBytes_throttled (s : State) (sp : Space) (a : Nat) (bs : List Byte) : (writeBytes s sp a bs).throttled = s.throttled := by
  induction bs generalizing s a with
  | nil => rfl
  | cons b rest ih => simp [writeBytes, ih]
@[simp] theorem writeBytes_pins (s : State) (sp : Space) (a : Nat) (bs : List Byte) : (writeBytes s sp a bs).pins = s.pins := by
  induction bs generalizing s a with
  | nil => rfl
  | cons b rest ih => simp [writeBytes, ih]
@[simp] theorem writeBytes_shown (s : State) (sp : Space) (a : Nat) (bs : List Byte) : (writeBytes s sp a bs).shown = s.shown := by
  induction bs generalizing s a with
  | nil => rfl
  | cons b rest ih => simp [writeBytes, ih]
@[simp] theorem writeBytes_ctl (s : State) (sp : Space) (a : Nat) (bs : List Byte) : (writeBytes s sp a bs).ctl = s.ctl := by
  induction bs generalizing s a with
  | nil => rfl
  | cons b rest ih => simp [writeBytes, ih]
@[simp] theorem writeBytes_twin (s : State) (sp : Space) (a : Nat) (bs : List Byte) : (writeBytes s sp a bs).twin = s.twin := by
  induction bs generalizing s a with
  | nil => rfl
  | cons b rest ih => simp [writeBytes, ih]
@[simp] theorem writeBytes_pwr (s : State) (sp : Space) (a : Nat) (bs : List Byte) : (writeBytes s sp a bs).pwr = s.pwr := by
  induction bs generalizing s a with
  | nil => rfl
  | cons b rest ih => simp [writeBytes, ih]
@[simp] theorem writeBytes_det (s : State) (sp : Space) (a : Nat) (bs : List Byte) : (writeBytes s sp a bs).det = s.det := by
  induction bs generalizing s a with
  | nil => rfl
  | cons b rest ih => simp [writeBytes, ih]
@[simp] theorem writeBytes_mg (s : State) (sp : Space) (a : Nat) (bs : List Byte) : (writeBytes s sp a bs).mg = s.mg := by
  induction bs generalizing s a with
  | nil => rfl
  | cons b rest ih => simp [writeBytes, ih]
@[simp] theorem writeBytes_log (s : State) (sp : Space) (a : Nat) (bs : List Byte) : (writeBytes s sp a bs).log = s.log := by
  induction bs generalizing s a with
  | nil => rfl
  | cons b rest ih => simp [writeBytes, ih]
@[simp] theorem writeBytes_drain (s : State) (sp : Space) (a : Nat) (bs : List Byte) : (writeBytes s sp a bs).drain = s.drain := by
  induction bs generalizing s a with
  | nil => rfl
  | cons b rest ih => simp [writeBytes, ih]
@[simp] theorem writeBytes_shift (s : State) (sp : Space) (a : Nat) (bs : List Byte) : (writeBytes s sp a bs).shift = s.shift := by
  induction bs generalizing s a with
  | nil => rfl
  | cons b rest ih => simp [writeBytes, ih]
@[simp] theorem writeBytes_rings (s : State) (sp : Space) (a : Nat) (bs : List Byte) : (writeBytes s sp a bs).rings = s.rings := by
  induction bs generalizing s a with
  | nil => rfl
  | cons b rest ih => simp [writeBytes, ih]
@[simp] theorem writeBytes_slots (s : State) (sp : Space) (a : Nat) (bs : List Byte) : (writeBytes s sp a bs).slots = s.slots := by
  induction bs generalizing s a with
  | nil => rfl
  | cons b rest ih => simp [writeBytes, ih]
@[simp] theorem writeBytes_tabs (s : State) (sp : Space) (a : Nat) (bs : List Byte) : (writeBytes s sp a bs).tabs = s.tabs := by
  induction bs generalizing s a with
  | nil => rfl
  | cons b rest ih => simp [writeBytes, ih]
@[simp] theorem writeBytes_chains (s : State) (sp : Space) (a : Nat) (bs : List Byte) : (writeBytes s sp a bs).chains = s.chains := by
  induction bs generalizing s a with
  | nil => rfl
  | cons b rest ih => simp [writeBytes, ih]
@[simp] theorem writeBytes_hinge (s : State) (sp : Space) (a : Nat) (bs : List Byte) : (writeBytes s sp a bs).hinge = s.hinge := by
  induction bs generalizing s a with
  | nil => rfl
  | cons b rest ih => simp [writeBytes, ih]
@[simp] theorem writeBytes_vis (s : State) (sp : Space) (a : Nat) (bs : List Byte) : (writeBytes s sp a bs).vis = s.vis := by
  induction bs generalizing s a with
  | nil => rfl
  | cons b rest ih => simp [writeBytes, ih]
@[simp] theorem writeBytes_ev (s : State) (sp : Space) (a : Nat) (bs : List Byte) : (writeBytes s sp a bs).ev = s.ev := by
  induction bs generalizing s a with
  | nil => rfl
  | cons b rest ih => simp [writeBytes, ih]

/-! ## setSectorPoison -/

@[simp] theorem setSectorPoison_pending (s : State) (sp : Space) (a : Nat) (p : Bool) : (setSectorPoison s sp a p).pending = s.pending := by simp [setSectorPoison]
@[simp] theorem setSectorPoison_cfg (s : State) (sp : Space) (a : Nat) (p : Bool) : (setSectorPoison s sp a p).cfg = s.cfg := by simp [setSectorPoison]
@[simp] theorem setSectorPoison_free (s : State) (sp : Space) (a : Nat) (p : Bool) : (setSectorPoison s sp a p).free = s.free := by simp [setSectorPoison]
@[simp] theorem setSectorPoison_out (s : State) (sp : Space) (a : Nat) (p : Bool) : (setSectorPoison s sp a p).out = s.out := by simp [setSectorPoison]
@[simp] theorem setSectorPoison_readData (s : State) (sp : Space) (a : Nat) (p : Bool) : (setSectorPoison s sp a p).readData = s.readData := by simp [setSectorPoison]
@[simp] theorem setSectorPoison_tclk (s : State) (sp : Space) (a : Nat) (p : Bool) : (setSectorPoison s sp a p).tclk = s.tclk := by simp [setSectorPoison]
@[simp] theorem setSectorPoison_fcyc (s : State) (sp : Space) (a : Nat) (p : Bool) : (setSectorPoison s sp a p).fcyc = s.fcyc := by simp [setSectorPoison]
@[simp] theorem setSectorPoison_throttled (s : State) (sp : Space) (a : Nat) (p : Bool) : (setSectorPoison s sp a p).throttled = s.throttled := by simp [setSectorPoison]
@[simp] theorem setSectorPoison_pins (s : State) (sp : Space) (a : Nat) (p : Bool) : (setSectorPoison s sp a p).pins = s.pins := by simp [setSectorPoison]
@[simp] theorem setSectorPoison_shown (s : State) (sp : Space) (a : Nat) (p : Bool) : (setSectorPoison s sp a p).shown = s.shown := by simp [setSectorPoison]
@[simp] theorem setSectorPoison_ctl (s : State) (sp : Space) (a : Nat) (p : Bool) : (setSectorPoison s sp a p).ctl = s.ctl := by simp [setSectorPoison]
@[simp] theorem setSectorPoison_twin (s : State) (sp : Space) (a : Nat) (p : Bool) : (setSectorPoison s sp a p).twin = s.twin := by simp [setSectorPoison]
@[simp] theorem setSectorPoison_pwr (s : State) (sp : Space) (a : Nat) (p : Bool) : (setSectorPoison s sp a p).pwr = s.pwr := by simp [setSectorPoison]
@[simp] theorem setSectorPoison_det (s : State) (sp : Space) (a : Nat) (p : Bool) : (setSectorPoison s sp a p).det = s.det := by simp [setSectorPoison]
@[simp] theorem setSectorPoison_mg (s : State) (sp : Space) (a : Nat) (p : Bool) : (setSectorPoison s sp a p).mg = s.mg := by simp [setSectorPoison]
@[simp] theorem setSectorPoison_log (s : State) (sp : Space) (a : Nat) (p : Bool) : (setSectorPoison s sp a p).log = s.log := by simp [setSectorPoison]
@[simp] theorem setSectorPoison_drain (s : State) (sp : Space) (a : Nat) (p : Bool) : (setSectorPoison s sp a p).drain = s.drain := by simp [setSectorPoison]
@[simp] theorem setSectorPoison_shift (s : State) (sp : Space) (a : Nat) (p : Bool) : (setSectorPoison s sp a p).shift = s.shift := by simp [setSectorPoison]
@[simp] theorem setSectorPoison_rings (s : State) (sp : Space) (a : Nat) (p : Bool) : (setSectorPoison s sp a p).rings = s.rings := by simp [setSectorPoison]
@[simp] theorem setSectorPoison_slots (s : State) (sp : Space) (a : Nat) (p : Bool) : (setSectorPoison s sp a p).slots = s.slots := by simp [setSectorPoison]
@[simp] theorem setSectorPoison_tabs (s : State) (sp : Space) (a : Nat) (p : Bool) : (setSectorPoison s sp a p).tabs = s.tabs := by simp [setSectorPoison]
@[simp] theorem setSectorPoison_chains (s : State) (sp : Space) (a : Nat) (p : Bool) : (setSectorPoison s sp a p).chains = s.chains := by simp [setSectorPoison]
@[simp] theorem setSectorPoison_hinge (s : State) (sp : Space) (a : Nat) (p : Bool) : (setSectorPoison s sp a p).hinge = s.hinge := by simp [setSectorPoison]
@[simp] theorem setSectorPoison_vis (s : State) (sp : Space) (a : Nat) (p : Bool) : (setSectorPoison s sp a p).vis = s.vis := by simp [setSectorPoison]
@[simp] theorem setSectorPoison_ev (s : State) (sp : Space) (a : Nat) (p : Bool) : (setSectorPoison s sp a p).ev = s.ev := by simp [setSectorPoison]

theorem writeBytes_device_tile (s : State) (a : Nat) (bs : List Byte) : (writeBytes s .device a bs).tile = s.tile := by
  induction bs generalizing s a with
  | nil => rfl
  | cons b rest ih => simp [writeBytes, writeByte, ih]
theorem writeBytes_device_twinTile (s : State) (a : Nat) (bs : List Byte) : (writeBytes s .device a bs).twinTile = s.twinTile := by
  induction bs generalizing s a with
  | nil => rfl
  | cons b rest ih => simp [writeBytes, writeByte, ih]

/-! ## devWrite -/

@[simp] theorem devWrite_pending (s : State) (a : Nat) (bs : List Byte) : (devWrite s a bs).pending = s.pending := by
  unfold devWrite; split
  · rfl
  · dsimp only
    rw [foldl_keeps (fun s => s.pending) _ (fun s k => by simp [setSectorPoison]) _ _]
    simp
@[simp] theorem devWrite_cfg (s : State) (a : Nat) (bs : List Byte) : (devWrite s a bs).cfg = s.cfg := by
  unfold devWrite; split
  · rfl
  · dsimp only
    rw [foldl_keeps (fun s => s.cfg) _ (fun s k => by simp [setSectorPoison]) _ _]
    simp
@[simp] theorem devWrite_free (s : State) (a : Nat) (bs : List Byte) : (devWrite s a bs).free = s.free := by
  unfold devWrite; split
  · rfl
  · dsimp only
    rw [foldl_keeps (fun s => s.free) _ (fun s k => by simp [setSectorPoison]) _ _]
    simp
@[simp] theorem devWrite_out (s : State) (a : Nat) (bs : List Byte) : (devWrite s a bs).out = s.out := by
  unfold devWrite; split
  · rfl
  · dsimp only
    rw [foldl_keeps (fun s => s.out) _ (fun s k => by simp [setSectorPoison]) _ _]
    simp
@[simp] theorem devWrite_readData (s : State) (a : Nat) (bs : List Byte) : (devWrite s a bs).readData = s.readData := by
  unfold devWrite; split
  · rfl
  · dsimp only
    rw [foldl_keeps (fun s => s.readData) _ (fun s k => by simp [setSectorPoison]) _ _]
    simp
@[simp] theorem devWrite_tclk (s : State) (a : Nat) (bs : List Byte) : (devWrite s a bs).tclk = s.tclk := by
  unfold devWrite; split
  · rfl
  · dsimp only
    rw [foldl_keeps (fun s => s.tclk) _ (fun s k => by simp [setSectorPoison]) _ _]
    simp
@[simp] theorem devWrite_fcyc (s : State) (a : Nat) (bs : List Byte) : (devWrite s a bs).fcyc = s.fcyc := by
  unfold devWrite; split
  · rfl
  · dsimp only
    rw [foldl_keeps (fun s => s.fcyc) _ (fun s k => by simp [setSectorPoison]) _ _]
    simp
@[simp] theorem devWrite_throttled (s : State) (a : Nat) (bs : List Byte) : (devWrite s a bs).throttled = s.throttled := by
  unfold devWrite; split
  · rfl
  · dsimp only
    rw [foldl_keeps (fun s => s.throttled) _ (fun s k => by simp [setSectorPoison]) _ _]
    simp
@[simp] theorem devWrite_pins (s : State) (a : Nat) (bs : List Byte) : (devWrite s a bs).pins = s.pins := by
  unfold devWrite; split
  · rfl
  · dsimp only
    rw [foldl_keeps (fun s => s.pins) _ (fun s k => by simp [setSectorPoison]) _ _]
    simp
@[simp] theorem devWrite_shown (s : State) (a : Nat) (bs : List Byte) : (devWrite s a bs).shown = s.shown := by
  unfold devWrite; split
  · rfl
  · dsimp only
    rw [foldl_keeps (fun s => s.shown) _ (fun s k => by simp [setSectorPoison]) _ _]
    simp
@[simp] theorem devWrite_ctl (s : State) (a : Nat) (bs : List Byte) : (devWrite s a bs).ctl = s.ctl := by
  unfold devWrite; split
  · rfl
  · dsimp only
    rw [foldl_keeps (fun s => s.ctl) _ (fun s k => by simp [setSectorPoison]) _ _]
    simp
@[simp] theorem devWrite_twin (s : State) (a : Nat) (bs : List Byte) : (devWrite s a bs).twin = s.twin := by
  unfold devWrite; split
  · rfl
  · dsimp only
    rw [foldl_keeps (fun s => s.twin) _ (fun s k => by simp [setSectorPoison]) _ _]
    simp
@[simp] theorem devWrite_pwr (s : State) (a : Nat) (bs : List Byte) : (devWrite s a bs).pwr = s.pwr := by
  unfold devWrite; split
  · rfl
  · dsimp only
    rw [foldl_keeps (fun s => s.pwr) _ (fun s k => by simp [setSectorPoison]) _ _]
    simp
@[simp] theorem devWrite_det (s : State) (a : Nat) (bs : List Byte) : (devWrite s a bs).det = s.det := by
  unfold devWrite; split
  · rfl
  · dsimp only
    rw [foldl_keeps (fun s => s.det) _ (fun s k => by simp [setSectorPoison]) _ _]
    simp
@[simp] theorem devWrite_mg (s : State) (a : Nat) (bs : List Byte) : (devWrite s a bs).mg = s.mg := by
  unfold devWrite; split
  · rfl
  · dsimp only
    rw [foldl_keeps (fun s => s.mg) _ (fun s k => by simp [setSectorPoison]) _ _]
    simp
@[simp] theorem devWrite_log (s : State) (a : Nat) (bs : List Byte) : (devWrite s a bs).log = s.log := by
  unfold devWrite; split
  · rfl
  · dsimp only
    rw [foldl_keeps (fun s => s.log) _ (fun s k => by simp [setSectorPoison]) _ _]
    simp
@[simp] theorem devWrite_drain (s : State) (a : Nat) (bs : List Byte) : (devWrite s a bs).drain = s.drain := by
  unfold devWrite; split
  · rfl
  · dsimp only
    rw [foldl_keeps (fun s => s.drain) _ (fun s k => by simp [setSectorPoison]) _ _]
    simp
@[simp] theorem devWrite_shift (s : State) (a : Nat) (bs : List Byte) : (devWrite s a bs).shift = s.shift := by
  unfold devWrite; split
  · rfl
  · dsimp only
    rw [foldl_keeps (fun s => s.shift) _ (fun s k => by simp [setSectorPoison]) _ _]
    simp
@[simp] theorem devWrite_rings (s : State) (a : Nat) (bs : List Byte) : (devWrite s a bs).rings = s.rings := by
  unfold devWrite; split
  · rfl
  · dsimp only
    rw [foldl_keeps (fun s => s.rings) _ (fun s k => by simp [setSectorPoison]) _ _]
    simp
@[simp] theorem devWrite_slots (s : State) (a : Nat) (bs : List Byte) : (devWrite s a bs).slots = s.slots := by
  unfold devWrite; split
  · rfl
  · dsimp only
    rw [foldl_keeps (fun s => s.slots) _ (fun s k => by simp [setSectorPoison]) _ _]
    simp
@[simp] theorem devWrite_tabs (s : State) (a : Nat) (bs : List Byte) : (devWrite s a bs).tabs = s.tabs := by
  unfold devWrite; split
  · rfl
  · dsimp only
    rw [foldl_keeps (fun s => s.tabs) _ (fun s k => by simp [setSectorPoison]) _ _]
    simp
@[simp] theorem devWrite_chains (s : State) (a : Nat) (bs : List Byte) : (devWrite s a bs).chains = s.chains := by
  unfold devWrite; split
  · rfl
  · dsimp only
    rw [foldl_keeps (fun s => s.chains) _ (fun s k => by simp [setSectorPoison]) _ _]
    simp
@[simp] theorem devWrite_hinge (s : State) (a : Nat) (bs : List Byte) : (devWrite s a bs).hinge = s.hinge := by
  unfold devWrite; split
  · rfl
  · dsimp only
    rw [foldl_keeps (fun s => s.hinge) _ (fun s k => by simp [setSectorPoison]) _ _]
    simp
@[simp] theorem devWrite_vis (s : State) (a : Nat) (bs : List Byte) : (devWrite s a bs).vis = s.vis := by
  unfold devWrite; split
  · rfl
  · dsimp only
    rw [foldl_keeps (fun s => s.vis) _ (fun s k => by simp [setSectorPoison]) _ _]
    simp
@[simp] theorem devWrite_ev (s : State) (a : Nat) (bs : List Byte) : (devWrite s a bs).ev = s.ev := by
  unfold devWrite; split
  · rfl
  · dsimp only
    rw [foldl_keeps (fun s => s.ev) _ (fun s k => by simp [setSectorPoison]) _ _]
    simp
@[simp] theorem devWrite_tile (s : State) (a : Nat) (bs : List Byte) : (devWrite s a bs).tile = s.tile := by
  unfold devWrite; split
  · rfl
  · dsimp only
    rw [foldl_keeps (fun s => s.tile) _ (fun s k => by simp [setSectorPoison]) _ _]
    simp [writeBytes_device_tile]
@[simp] theorem devWrite_twinTile (s : State) (a : Nat) (bs : List Byte) : (devWrite s a bs).twinTile = s.twinTile := by
  unfold devWrite; split
  · rfl
  · dsimp only
    rw [foldl_keeps (fun s => s.twinTile) _ (fun s k => by simp [setSectorPoison]) _ _]
    simp [writeBytes_device_twinTile]

/-! ## devWriteFor -/

@[simp] theorem devWriteFor_pending (s : State) (v : ViId) (a : Nat) (bs : List Byte) : (devWriteFor v s a bs).pending = s.pending := by simp [devWriteFor]
@[simp] theorem devWriteFor_cfg (s : State) (v : ViId) (a : Nat) (bs : List Byte) : (devWriteFor v s a bs).cfg = s.cfg := by simp [devWriteFor]
@[simp] theorem devWriteFor_free (s : State) (v : ViId) (a : Nat) (bs : List Byte) : (devWriteFor v s a bs).free = s.free := by simp [devWriteFor]
@[simp] theorem devWriteFor_out (s : State) (v : ViId) (a : Nat) (bs : List Byte) : (devWriteFor v s a bs).out = s.out := by simp [devWriteFor]
@[simp] theorem devWriteFor_readData (s : State) (v : ViId) (a : Nat) (bs : List Byte) : (devWriteFor v s a bs).readData = s.readData := by simp [devWriteFor]
@[simp] theorem devWriteFor_tclk (s : State) (v : ViId) (a : Nat) (bs : List Byte) : (devWriteFor v s a bs).tclk = s.tclk := by simp [devWriteFor]
@[simp] theorem devWriteFor_fcyc (s : State) (v : ViId) (a : Nat) (bs : List Byte) : (devWriteFor v s a bs).fcyc = s.fcyc := by simp [devWriteFor]
@[simp] theorem devWriteFor_throttled (s : State) (v : ViId) (a : Nat) (bs : List Byte) : (devWriteFor v s a bs).throttled = s.throttled := by simp [devWriteFor]
@[simp] theorem devWriteFor_pins (s : State) (v : ViId) (a : Nat) (bs : List Byte) : (devWriteFor v s a bs).pins = s.pins := by simp [devWriteFor]
@[simp] theorem devWriteFor_shown (s : State) (v : ViId) (a : Nat) (bs : List Byte) : (devWriteFor v s a bs).shown = s.shown := by simp [devWriteFor]
@[simp] theorem devWriteFor_ctl (s : State) (v : ViId) (a : Nat) (bs : List Byte) : (devWriteFor v s a bs).ctl = s.ctl := by simp [devWriteFor]
@[simp] theorem devWriteFor_twin (s : State) (v : ViId) (a : Nat) (bs : List Byte) : (devWriteFor v s a bs).twin = s.twin := by simp [devWriteFor]
@[simp] theorem devWriteFor_pwr (s : State) (v : ViId) (a : Nat) (bs : List Byte) : (devWriteFor v s a bs).pwr = s.pwr := by simp [devWriteFor]
@[simp] theorem devWriteFor_det (s : State) (v : ViId) (a : Nat) (bs : List Byte) : (devWriteFor v s a bs).det = s.det := by simp [devWriteFor]
@[simp] theorem devWriteFor_mg (s : State) (v : ViId) (a : Nat) (bs : List Byte) : (devWriteFor v s a bs).mg = s.mg := by simp [devWriteFor]
@[simp] theorem devWriteFor_log (s : State) (v : ViId) (a : Nat) (bs : List Byte) : (devWriteFor v s a bs).log = s.log := by simp [devWriteFor]
@[simp] theorem devWriteFor_drain (s : State) (v : ViId) (a : Nat) (bs : List Byte) : (devWriteFor v s a bs).drain = s.drain := by simp [devWriteFor]
@[simp] theorem devWriteFor_shift (s : State) (v : ViId) (a : Nat) (bs : List Byte) : (devWriteFor v s a bs).shift = s.shift := by simp [devWriteFor]
@[simp] theorem devWriteFor_rings (s : State) (v : ViId) (a : Nat) (bs : List Byte) : (devWriteFor v s a bs).rings = s.rings := by simp [devWriteFor]
@[simp] theorem devWriteFor_slots (s : State) (v : ViId) (a : Nat) (bs : List Byte) : (devWriteFor v s a bs).slots = s.slots := by simp [devWriteFor]
@[simp] theorem devWriteFor_tabs (s : State) (v : ViId) (a : Nat) (bs : List Byte) : (devWriteFor v s a bs).tabs = s.tabs := by simp [devWriteFor]
@[simp] theorem devWriteFor_chains (s : State) (v : ViId) (a : Nat) (bs : List Byte) : (devWriteFor v s a bs).chains = s.chains := by simp [devWriteFor]
@[simp] theorem devWriteFor_hinge (s : State) (v : ViId) (a : Nat) (bs : List Byte) : (devWriteFor v s a bs).hinge = s.hinge := by simp [devWriteFor]
@[simp] theorem devWriteFor_vis (s : State) (v : ViId) (a : Nat) (bs : List Byte) : (devWriteFor v s a bs).vis = s.vis := by simp [devWriteFor]
@[simp] theorem devWriteFor_tile (s : State) (v : ViId) (a : Nat) (bs : List Byte) : (devWriteFor v s a bs).tile = s.tile := by simp [devWriteFor]
@[simp] theorem devWriteFor_twinTile (s : State) (v : ViId) (a : Nat) (bs : List Byte) : (devWriteFor v s a bs).twinTile = s.twinTile := by simp [devWriteFor]

/-! ## setCtx -/

@[simp] theorem setCtx_pending (s : State) (r : Nat) (c : RingCtx) : (setCtx s r c).pending = s.pending := by unfold setCtx; split <;> simp
@[simp] theorem setCtx_cfg (s : State) (r : Nat) (c : RingCtx) : (setCtx s r c).cfg = s.cfg := by unfold setCtx; split <;> simp
@[simp] theorem setCtx_free (s : State) (r : Nat) (c : RingCtx) : (setCtx s r c).free = s.free := by unfold setCtx; split <;> simp
@[simp] theorem setCtx_out (s : State) (r : Nat) (c : RingCtx) : (setCtx s r c).out = s.out := by unfold setCtx; split <;> simp
@[simp] theorem setCtx_readData (s : State) (r : Nat) (c : RingCtx) : (setCtx s r c).readData = s.readData := by unfold setCtx; split <;> simp
@[simp] theorem setCtx_tclk (s : State) (r : Nat) (c : RingCtx) : (setCtx s r c).tclk = s.tclk := by unfold setCtx; split <;> simp
@[simp] theorem setCtx_fcyc (s : State) (r : Nat) (c : RingCtx) : (setCtx s r c).fcyc = s.fcyc := by unfold setCtx; split <;> simp
@[simp] theorem setCtx_throttled (s : State) (r : Nat) (c : RingCtx) : (setCtx s r c).throttled = s.throttled := by unfold setCtx; split <;> simp
@[simp] theorem setCtx_pins (s : State) (r : Nat) (c : RingCtx) : (setCtx s r c).pins = s.pins := by unfold setCtx; split <;> simp
@[simp] theorem setCtx_shown (s : State) (r : Nat) (c : RingCtx) : (setCtx s r c).shown = s.shown := by unfold setCtx; split <;> simp
@[simp] theorem setCtx_ctl (s : State) (r : Nat) (c : RingCtx) : (setCtx s r c).ctl = s.ctl := by unfold setCtx; split <;> simp
@[simp] theorem setCtx_twin (s : State) (r : Nat) (c : RingCtx) : (setCtx s r c).twin = s.twin := by unfold setCtx; split <;> simp
@[simp] theorem setCtx_pwr (s : State) (r : Nat) (c : RingCtx) : (setCtx s r c).pwr = s.pwr := by unfold setCtx; split <;> simp
@[simp] theorem setCtx_det (s : State) (r : Nat) (c : RingCtx) : (setCtx s r c).det = s.det := by unfold setCtx; split <;> simp
@[simp] theorem setCtx_mg (s : State) (r : Nat) (c : RingCtx) : (setCtx s r c).mg = s.mg := by unfold setCtx; split <;> simp
@[simp] theorem setCtx_log (s : State) (r : Nat) (c : RingCtx) : (setCtx s r c).log = s.log := by unfold setCtx; split <;> simp
@[simp] theorem setCtx_drain (s : State) (r : Nat) (c : RingCtx) : (setCtx s r c).drain = s.drain := by unfold setCtx; split <;> simp
@[simp] theorem setCtx_shift (s : State) (r : Nat) (c : RingCtx) : (setCtx s r c).shift = s.shift := by unfold setCtx; split <;> simp
@[simp] theorem setCtx_slots (s : State) (r : Nat) (c : RingCtx) : (setCtx s r c).slots = s.slots := by unfold setCtx; split <;> simp
@[simp] theorem setCtx_tabs (s : State) (r : Nat) (c : RingCtx) : (setCtx s r c).tabs = s.tabs := by unfold setCtx; split <;> simp
@[simp] theorem setCtx_chains (s : State) (r : Nat) (c : RingCtx) : (setCtx s r c).chains = s.chains := by unfold setCtx; split <;> simp
@[simp] theorem setCtx_hinge (s : State) (r : Nat) (c : RingCtx) : (setCtx s r c).hinge = s.hinge := by unfold setCtx; split <;> simp
@[simp] theorem setCtx_vis (s : State) (r : Nat) (c : RingCtx) : (setCtx s r c).vis = s.vis := by unfold setCtx; split <;> simp
@[simp] theorem setCtx_ev (s : State) (r : Nat) (c : RingCtx) : (setCtx s r c).ev = s.ev := by unfold setCtx; split <;> simp
@[simp] theorem setCtx_tile (s : State) (r : Nat) (c : RingCtx) : (setCtx s r c).tile = s.tile := by unfold setCtx; split <;> simp
@[simp] theorem setCtx_twinTile (s : State) (r : Nat) (c : RingCtx) : (setCtx s r c).twinTile = s.twinTile := by unfold setCtx; split <;> simp

/-! ## modCtx -/

@[simp] theorem modCtx_pending (s : State) (r : Nat) (g : RingCtx → RingCtx) : (modCtx s r g).pending = s.pending := by simp [modCtx]
@[simp] theorem modCtx_cfg (s : State) (r : Nat) (g : RingCtx → RingCtx) : (modCtx s r g).cfg = s.cfg := by simp [modCtx]
@[simp] theorem modCtx_free (s : State) (r : Nat) (g : RingCtx → RingCtx) : (modCtx s r g).free = s.free := by simp [modCtx]
@[simp] theorem modCtx_out (s : State) (r : Nat) (g : RingCtx → RingCtx) : (modCtx s r g).out = s.out := by simp [modCtx]
@[simp] theorem modCtx_readData (s : State) (r : Nat) (g : RingCtx → RingCtx) : (modCtx s r g).readData = s.readData := by simp [modCtx]
@[simp] theorem modCtx_tclk (s : State) (r : Nat) (g : RingCtx → RingCtx) : (modCtx s r g).tclk = s.tclk := by simp [modCtx]
@[simp] theorem modCtx_fcyc (s : State) (r : Nat) (g : RingCtx → RingCtx) : (modCtx s r g).fcyc = s.fcyc := by simp [modCtx]
@[simp] theorem modCtx_throttled (s : State) (r : Nat) (g : RingCtx → RingCtx) : (modCtx s r g).throttled = s.throttled := by simp [modCtx]
@[simp] theorem modCtx_pins (s : State) (r : Nat) (g : RingCtx → RingCtx) : (modCtx s r g).pins = s.pins := by simp [modCtx]
@[simp] theorem modCtx_shown (s : State) (r : Nat) (g : RingCtx → RingCtx) : (modCtx s r g).shown = s.shown := by simp [modCtx]
@[simp] theorem modCtx_ctl (s : State) (r : Nat) (g : RingCtx → RingCtx) : (modCtx s r g).ctl = s.ctl := by simp [modCtx]
@[simp] theorem modCtx_twin (s : State) (r : Nat) (g : RingCtx → RingCtx) : (modCtx s r g).twin = s.twin := by simp [modCtx]
@[simp] theorem modCtx_pwr (s : State) (r : Nat) (g : RingCtx → RingCtx) : (modCtx s r g).pwr = s.pwr := by simp [modCtx]
@[simp] theorem modCtx_det (s : State) (r : Nat) (g : RingCtx → RingCtx) : (modCtx s r g).det = s.det := by simp [modCtx]
@[simp] theorem modCtx_mg (s : State) (r : Nat) (g : RingCtx → RingCtx) : (modCtx s r g).mg = s.mg := by simp [modCtx]
@[simp] theorem modCtx_log (s : State) (r : Nat) (g : RingCtx → RingCtx) : (modCtx s r g).log = s.log := by simp [modCtx]
@[simp] theorem modCtx_drain (s : State) (r : Nat) (g : RingCtx → RingCtx) : (modCtx s r g).drain = s.drain := by simp [modCtx]
@[simp] theorem modCtx_shift (s : State) (r : Nat) (g : RingCtx → RingCtx) : (modCtx s r g).shift = s.shift := by simp [modCtx]
@[simp] theorem modCtx_slots (s : State) (r : Nat) (g : RingCtx → RingCtx) : (modCtx s r g).slots = s.slots := by simp [modCtx]
@[simp] theorem modCtx_tabs (s : State) (r : Nat) (g : RingCtx → RingCtx) : (modCtx s r g).tabs = s.tabs := by simp [modCtx]
@[simp] theorem modCtx_chains (s : State) (r : Nat) (g : RingCtx → RingCtx) : (modCtx s r g).chains = s.chains := by simp [modCtx]
@[simp] theorem modCtx_hinge (s : State) (r : Nat) (g : RingCtx → RingCtx) : (modCtx s r g).hinge = s.hinge := by simp [modCtx]
@[simp] theorem modCtx_vis (s : State) (r : Nat) (g : RingCtx → RingCtx) : (modCtx s r g).vis = s.vis := by simp [modCtx]
@[simp] theorem modCtx_ev (s : State) (r : Nat) (g : RingCtx → RingCtx) : (modCtx s r g).ev = s.ev := by simp [modCtx]
@[simp] theorem modCtx_tile (s : State) (r : Nat) (g : RingCtx → RingCtx) : (modCtx s r g).tile = s.tile := by simp [modCtx]
@[simp] theorem modCtx_twinTile (s : State) (r : Nat) (g : RingCtx → RingCtx) : (modCtx s r g).twinTile = s.twinTile := by simp [modCtx]

/-! ## setRingState -/

@[simp] theorem setRingState_pending (s : State) (r : Nat) (st : RingState) : (setRingState s r st).pending = s.pending := by simp [setRingState]
@[simp] theorem setRingState_cfg (s : State) (r : Nat) (st : RingState) : (setRingState s r st).cfg = s.cfg := by simp [setRingState]
@[simp] theorem setRingState_free (s : State) (r : Nat) (st : RingState) : (setRingState s r st).free = s.free := by simp [setRingState]
@[simp] theorem setRingState_out (s : State) (r : Nat) (st : RingState) : (setRingState s r st).out = s.out := by simp [setRingState]
@[simp] theorem setRingState_readData (s : State) (r : Nat) (st : RingState) : (setRingState s r st).readData = s.readData := by simp [setRingState]
@[simp] theorem setRingState_tclk (s : State) (r : Nat) (st : RingState) : (setRingState s r st).tclk = s.tclk := by simp [setRingState]
@[simp] theorem setRingState_fcyc (s : State) (r : Nat) (st : RingState) : (setRingState s r st).fcyc = s.fcyc := by simp [setRingState]
@[simp] theorem setRingState_throttled (s : State) (r : Nat) (st : RingState) : (setRingState s r st).throttled = s.throttled := by simp [setRingState]
@[simp] theorem setRingState_pins (s : State) (r : Nat) (st : RingState) : (setRingState s r st).pins = s.pins := by simp [setRingState]
@[simp] theorem setRingState_shown (s : State) (r : Nat) (st : RingState) : (setRingState s r st).shown = s.shown := by simp [setRingState]
@[simp] theorem setRingState_ctl (s : State) (r : Nat) (st : RingState) : (setRingState s r st).ctl = s.ctl := by simp [setRingState]
@[simp] theorem setRingState_twin (s : State) (r : Nat) (st : RingState) : (setRingState s r st).twin = s.twin := by simp [setRingState]
@[simp] theorem setRingState_pwr (s : State) (r : Nat) (st : RingState) : (setRingState s r st).pwr = s.pwr := by simp [setRingState]
@[simp] theorem setRingState_det (s : State) (r : Nat) (st : RingState) : (setRingState s r st).det = s.det := by simp [setRingState]
@[simp] theorem setRingState_mg (s : State) (r : Nat) (st : RingState) : (setRingState s r st).mg = s.mg := by simp [setRingState]
@[simp] theorem setRingState_log (s : State) (r : Nat) (st : RingState) : (setRingState s r st).log = s.log := by simp [setRingState]
@[simp] theorem setRingState_drain (s : State) (r : Nat) (st : RingState) : (setRingState s r st).drain = s.drain := by simp [setRingState]
@[simp] theorem setRingState_shift (s : State) (r : Nat) (st : RingState) : (setRingState s r st).shift = s.shift := by simp [setRingState]
@[simp] theorem setRingState_slots (s : State) (r : Nat) (st : RingState) : (setRingState s r st).slots = s.slots := by simp [setRingState]
@[simp] theorem setRingState_tabs (s : State) (r : Nat) (st : RingState) : (setRingState s r st).tabs = s.tabs := by simp [setRingState]
@[simp] theorem setRingState_chains (s : State) (r : Nat) (st : RingState) : (setRingState s r st).chains = s.chains := by simp [setRingState]
@[simp] theorem setRingState_hinge (s : State) (r : Nat) (st : RingState) : (setRingState s r st).hinge = s.hinge := by simp [setRingState]
@[simp] theorem setRingState_vis (s : State) (r : Nat) (st : RingState) : (setRingState s r st).vis = s.vis := by simp [setRingState]
@[simp] theorem setRingState_ev (s : State) (r : Nat) (st : RingState) : (setRingState s r st).ev = s.ev := by simp [setRingState]
@[simp] theorem setRingState_tile (s : State) (r : Nat) (st : RingState) : (setRingState s r st).tile = s.tile := by simp [setRingState]
@[simp] theorem setRingState_twinTile (s : State) (r : Nat) (st : RingState) : (setRingState s r st).twinTile = s.twinTile := by simp [setRingState]

/-! ## setRegs -/

@[simp] theorem setRegs_pending (s : State) (r : Nat) (g : RegFile) : (setRegs s r g).pending = s.pending := rfl
@[simp] theorem setRegs_cfg (s : State) (r : Nat) (g : RegFile) : (setRegs s r g).cfg = s.cfg := rfl
@[simp] theorem setRegs_free (s : State) (r : Nat) (g : RegFile) : (setRegs s r g).free = s.free := rfl
@[simp] theorem setRegs_out (s : State) (r : Nat) (g : RegFile) : (setRegs s r g).out = s.out := rfl
@[simp] theorem setRegs_readData (s : State) (r : Nat) (g : RegFile) : (setRegs s r g).readData = s.readData := rfl
@[simp] theorem setRegs_tclk (s : State) (r : Nat) (g : RegFile) : (setRegs s r g).tclk = s.tclk := rfl
@[simp] theorem setRegs_fcyc (s : State) (r : Nat) (g : RegFile) : (setRegs s r g).fcyc = s.fcyc := rfl
@[simp] theorem setRegs_throttled (s : State) (r : Nat) (g : RegFile) : (setRegs s r g).throttled = s.throttled := rfl
@[simp] theorem setRegs_pins (s : State) (r : Nat) (g : RegFile) : (setRegs s r g).pins = s.pins := rfl
@[simp] theorem setRegs_shown (s : State) (r : Nat) (g : RegFile) : (setRegs s r g).shown = s.shown := rfl
@[simp] theorem setRegs_ctl (s : State) (r : Nat) (g : RegFile) : (setRegs s r g).ctl = s.ctl := rfl
@[simp] theorem setRegs_twin (s : State) (r : Nat) (g : RegFile) : (setRegs s r g).twin = s.twin := rfl
@[simp] theorem setRegs_pwr (s : State) (r : Nat) (g : RegFile) : (setRegs s r g).pwr = s.pwr := rfl
@[simp] theorem setRegs_det (s : State) (r : Nat) (g : RegFile) : (setRegs s r g).det = s.det := rfl
@[simp] theorem setRegs_mg (s : State) (r : Nat) (g : RegFile) : (setRegs s r g).mg = s.mg := rfl
@[simp] theorem setRegs_log (s : State) (r : Nat) (g : RegFile) : (setRegs s r g).log = s.log := rfl
@[simp] theorem setRegs_drain (s : State) (r : Nat) (g : RegFile) : (setRegs s r g).drain = s.drain := rfl
@[simp] theorem setRegs_shift (s : State) (r : Nat) (g : RegFile) : (setRegs s r g).shift = s.shift := rfl
@[simp] theorem setRegs_slots (s : State) (r : Nat) (g : RegFile) : (setRegs s r g).slots = s.slots := rfl
@[simp] theorem setRegs_tabs (s : State) (r : Nat) (g : RegFile) : (setRegs s r g).tabs = s.tabs := rfl
@[simp] theorem setRegs_chains (s : State) (r : Nat) (g : RegFile) : (setRegs s r g).chains = s.chains := rfl
@[simp] theorem setRegs_hinge (s : State) (r : Nat) (g : RegFile) : (setRegs s r g).hinge = s.hinge := rfl
@[simp] theorem setRegs_vis (s : State) (r : Nat) (g : RegFile) : (setRegs s r g).vis = s.vis := rfl
@[simp] theorem setRegs_ev (s : State) (r : Nat) (g : RegFile) : (setRegs s r g).ev = s.ev := rfl
@[simp] theorem setRegs_dev (s : State) (r : Nat) (g : RegFile) : (setRegs s r g).dev = s.dev := rfl
@[simp] theorem setRegs_tile (s : State) (r : Nat) (g : RegFile) : (setRegs s r g).tile = s.tile := rfl
@[simp] theorem setRegs_twinTile (s : State) (r : Nat) (g : RegFile) : (setRegs s r g).twinTile = s.twinTile := rfl

/-! ## putSlot -/

@[simp] theorem putSlot_pending (s : State) (h : Nat) (x : Slot) : (putSlot s h x).pending = s.pending := by unfold putSlot; dsimp only; split <;> split <;> rfl
@[simp] theorem putSlot_cfg (s : State) (h : Nat) (x : Slot) : (putSlot s h x).cfg = s.cfg := by unfold putSlot; dsimp only; split <;> split <;> rfl
@[simp] theorem putSlot_free (s : State) (h : Nat) (x : Slot) : (putSlot s h x).free = s.free := by unfold putSlot; dsimp only; split <;> split <;> rfl
@[simp] theorem putSlot_out (s : State) (h : Nat) (x : Slot) : (putSlot s h x).out = s.out := by unfold putSlot; dsimp only; split <;> split <;> rfl
@[simp] theorem putSlot_readData (s : State) (h : Nat) (x : Slot) : (putSlot s h x).readData = s.readData := by unfold putSlot; dsimp only; split <;> split <;> rfl
@[simp] theorem putSlot_tclk (s : State) (h : Nat) (x : Slot) : (putSlot s h x).tclk = s.tclk := by unfold putSlot; dsimp only; split <;> split <;> rfl
@[simp] theorem putSlot_fcyc (s : State) (h : Nat) (x : Slot) : (putSlot s h x).fcyc = s.fcyc := by unfold putSlot; dsimp only; split <;> split <;> rfl
@[simp] theorem putSlot_throttled (s : State) (h : Nat) (x : Slot) : (putSlot s h x).throttled = s.throttled := by unfold putSlot; dsimp only; split <;> split <;> rfl
@[simp] theorem putSlot_pins (s : State) (h : Nat) (x : Slot) : (putSlot s h x).pins = s.pins := by unfold putSlot; dsimp only; split <;> split <;> rfl
@[simp] theorem putSlot_shown (s : State) (h : Nat) (x : Slot) : (putSlot s h x).shown = s.shown := by unfold putSlot; dsimp only; split <;> split <;> rfl
@[simp] theorem putSlot_ctl (s : State) (h : Nat) (x : Slot) : (putSlot s h x).ctl = s.ctl := by unfold putSlot; dsimp only; split <;> split <;> rfl
@[simp] theorem putSlot_twin (s : State) (h : Nat) (x : Slot) : (putSlot s h x).twin = s.twin := by unfold putSlot; dsimp only; split <;> split <;> rfl
@[simp] theorem putSlot_pwr (s : State) (h : Nat) (x : Slot) : (putSlot s h x).pwr = s.pwr := by unfold putSlot; dsimp only; split <;> split <;> rfl
@[simp] theorem putSlot_det (s : State) (h : Nat) (x : Slot) : (putSlot s h x).det = s.det := by unfold putSlot; dsimp only; split <;> split <;> rfl
@[simp] theorem putSlot_mg (s : State) (h : Nat) (x : Slot) : (putSlot s h x).mg = s.mg := by unfold putSlot; dsimp only; split <;> split <;> rfl
@[simp] theorem putSlot_log (s : State) (h : Nat) (x : Slot) : (putSlot s h x).log = s.log := by unfold putSlot; dsimp only; split <;> split <;> rfl
@[simp] theorem putSlot_drain (s : State) (h : Nat) (x : Slot) : (putSlot s h x).drain = s.drain := by unfold putSlot; dsimp only; split <;> split <;> rfl
@[simp] theorem putSlot_shift (s : State) (h : Nat) (x : Slot) : (putSlot s h x).shift = s.shift := by unfold putSlot; dsimp only; split <;> split <;> rfl
@[simp] theorem putSlot_rings (s : State) (h : Nat) (x : Slot) : (putSlot s h x).rings = s.rings := by unfold putSlot; dsimp only; split <;> split <;> rfl
@[simp] theorem putSlot_tabs (s : State) (h : Nat) (x : Slot) : (putSlot s h x).tabs = s.tabs := by unfold putSlot; dsimp only; split <;> split <;> rfl
@[simp] theorem putSlot_chains (s : State) (h : Nat) (x : Slot) : (putSlot s h x).chains = s.chains := by unfold putSlot; dsimp only; split <;> split <;> rfl
@[simp] theorem putSlot_hinge (s : State) (h : Nat) (x : Slot) : (putSlot s h x).hinge = s.hinge := by unfold putSlot; dsimp only; split <;> split <;> rfl
@[simp] theorem putSlot_ev (s : State) (h : Nat) (x : Slot) : (putSlot s h x).ev = s.ev := by unfold putSlot; dsimp only; split <;> split <;> rfl
@[simp] theorem putSlot_dev (s : State) (h : Nat) (x : Slot) : (putSlot s h x).dev = s.dev := by unfold putSlot; dsimp only; split <;> split <;> rfl
@[simp] theorem putSlot_tile (s : State) (h : Nat) (x : Slot) : (putSlot s h x).tile = s.tile := by unfold putSlot; dsimp only; split <;> split <;> rfl
@[simp] theorem putSlot_twinTile (s : State) (h : Nat) (x : Slot) : (putSlot s h x).twinTile = s.twinTile := by unfold putSlot; dsimp only; split <;> split <;> rfl

/-! ## modSlot -/

@[simp] theorem modSlot_pending (s : State) (h : Nat) (g : Slot → Slot) : (modSlot s h g).pending = s.pending := by simp [modSlot]
@[simp] theorem modSlot_cfg (s : State) (h : Nat) (g : Slot → Slot) : (modSlot s h g).cfg = s.cfg := by simp [modSlot]
@[simp] theorem modSlot_free (s : State) (h : Nat) (g : Slot → Slot) : (modSlot s h g).free = s.free := by simp [modSlot]
@[simp] theorem modSlot_out (s : State) (h : Nat) (g : Slot → Slot) : (modSlot s h g).out = s.out := by simp [modSlot]
@[simp] theorem modSlot_readData (s : State) (h : Nat) (g : Slot → Slot) : (modSlot s h g).readData = s.readData := by simp [modSlot]
@[simp] theorem modSlot_tclk (s : State) (h : Nat) (g : Slot → Slot) : (modSlot s h g).tclk = s.tclk := by simp [modSlot]
@[simp] theorem modSlot_fcyc (s : State) (h : Nat) (g : Slot → Slot) : (modSlot s h g).fcyc = s.fcyc := by simp [modSlot]
@[simp] theorem modSlot_throttled (s : State) (h : Nat) (g : Slot → Slot) : (modSlot s h g).throttled = s.throttled := by simp [modSlot]
@[simp] theorem modSlot_pins (s : State) (h : Nat) (g : Slot → Slot) : (modSlot s h g).pins = s.pins := by simp [modSlot]
@[simp] theorem modSlot_shown (s : State) (h : Nat) (g : Slot → Slot) : (modSlot s h g).shown = s.shown := by simp [modSlot]
@[simp] theorem modSlot_ctl (s : State) (h : Nat) (g : Slot → Slot) : (modSlot s h g).ctl = s.ctl := by simp [modSlot]
@[simp] theorem modSlot_twin (s : State) (h : Nat) (g : Slot → Slot) : (modSlot s h g).twin = s.twin := by simp [modSlot]
@[simp] theorem modSlot_pwr (s : State) (h : Nat) (g : Slot → Slot) : (modSlot s h g).pwr = s.pwr := by simp [modSlot]
@[simp] theorem modSlot_det (s : State) (h : Nat) (g : Slot → Slot) : (modSlot s h g).det = s.det := by simp [modSlot]
@[simp] theorem modSlot_mg (s : State) (h : Nat) (g : Slot → Slot) : (modSlot s h g).mg = s.mg := by simp [modSlot]
@[simp] theorem modSlot_log (s : State) (h : Nat) (g : Slot → Slot) : (modSlot s h g).log = s.log := by simp [modSlot]
@[simp] theorem modSlot_drain (s : State) (h : Nat) (g : Slot → Slot) : (modSlot s h g).drain = s.drain := by simp [modSlot]
@[simp] theorem modSlot_shift (s : State) (h : Nat) (g : Slot → Slot) : (modSlot s h g).shift = s.shift := by simp [modSlot]
@[simp] theorem modSlot_rings (s : State) (h : Nat) (g : Slot → Slot) : (modSlot s h g).rings = s.rings := by simp [modSlot]
@[simp] theorem modSlot_tabs (s : State) (h : Nat) (g : Slot → Slot) : (modSlot s h g).tabs = s.tabs := by simp [modSlot]
@[simp] theorem modSlot_chains (s : State) (h : Nat) (g : Slot → Slot) : (modSlot s h g).chains = s.chains := by simp [modSlot]
@[simp] theorem modSlot_hinge (s : State) (h : Nat) (g : Slot → Slot) : (modSlot s h g).hinge = s.hinge := by simp [modSlot]
@[simp] theorem modSlot_ev (s : State) (h : Nat) (g : Slot → Slot) : (modSlot s h g).ev = s.ev := by simp [modSlot]
@[simp] theorem modSlot_dev (s : State) (h : Nat) (g : Slot → Slot) : (modSlot s h g).dev = s.dev := by simp [modSlot]
@[simp] theorem modSlot_tile (s : State) (h : Nat) (g : Slot → Slot) : (modSlot s h g).tile = s.tile := by simp [modSlot]
@[simp] theorem modSlot_twinTile (s : State) (h : Nat) (g : Slot → Slot) : (modSlot s h g).twinTile = s.twinTile := by simp [modSlot]

end Sys2Proof.Machine
end

