-- ==== Sys2Proof/Laws/Sparse.lean ====
section
/-! SUPPORT. Sparse maps and sets: what a read gives after a write, and that every write keeps the canonical form. -/

namespace Sys2Proof.Machine

set_option Elab.async false

variable {α : Type}

theorem spGet_spErase_same (d : α) (m : Sparse α) (n : Nat) : spGet d (spErase m n) n = d := by
  induction m with
  | nil => rfl
  | cons e rest ih =>
    obtain ⟨k, v⟩ := e
    by_cases h : k = n <;> simp [spErase, spGet, h, ih]

theorem spGet_spErase_other (d : α) (m : Sparse α) {n k : Nat} (h : k ≠ n) :
    spGet d (spErase m n) k = spGet d m k := by
  induction m with
  | nil => rfl
  | cons e rest ih =>
    obtain ⟨j, v⟩ := e
    by_cases hj : j = n
    · have hk : j ≠ k := fun hh => h (hh ▸ hj)
      simp [spErase, spGet, hj, ih]
      intro hnk; exact absurd (hj.trans hnk) hk
    · have hn : spErase ((j, v) :: rest) n = (j, v) :: spErase rest n := by simp [spErase, hj]
      rw [hn]
      simp only [spGet]
      rw [ih]

theorem spGet_spPut_same (d : α) (m : Sparse α) (n : Nat) (x : α) : spGet d (spPut m n x) n = x := by
  induction m with
  | nil => simp [spPut, spGet]
  | cons e rest ih =>
    obtain ⟨k, v⟩ := e
    simp only [spPut]
    by_cases h1 : n < k
    · simp [h1, spGet]
    · by_cases h2 : n = k
      · simp [h2, spGet]
      · have : k ≠ n := fun h => h2 h.symm
        simp [h1, h2, spGet, this, ih]

theorem spGet_spPut_other (d : α) (m : Sparse α) {n k : Nat} (x : α) (h : k ≠ n) :
    spGet d (spPut m n x) k = spGet d m k := by
  induction m with
  | nil => simp [spPut, spGet, Ne.symm h]
  | cons e rest ih =>
    obtain ⟨j, v⟩ := e
    simp only [spPut]
    by_cases h1 : n < j
    · simp [h1, spGet, Ne.symm h]
    · by_cases h2 : n = j
      · subst h2; simp [spGet, Ne.symm h]
      · simp only [h1, h2, if_false, spGet]
        rw [ih]

variable [DecidableEq α]

/-- A map that is written at a key gives the value back. -/
@[simp] theorem spGet_spSet_same (d : α) (m : Sparse α) (n : Nat) (x : α) : spGet d (spSet d m n x) n = x := by
  unfold spSet
  split
  · next h => rw [spGet_spErase_same, h]
  · exact spGet_spPut_same d m n x

/-- Every other key reads as before. -/
theorem spGet_spSet_other (d : α) (m : Sparse α) {n k : Nat} (x : α) (h : k ≠ n) :
    spGet d (spSet d m n x) k = spGet d m k := by
  unfold spSet
  split
  · exact spGet_spErase_other d m h
  · exact spGet_spPut_other d m x h

/-! ## The canonical form -/

theorem spWfFrom_weaken (d : α) {lo lo' : Option Nat} {m : Sparse α} (h : spWfFrom d lo m = true)
    (hl : ∀ a, lo' = some a → ∃ b, lo = some b ∧ a ≤ b) : spWfFrom d lo' m = true := by
  cases m with
  | nil => rfl
  | cons e rest =>
    obtain ⟨k, v⟩ := e
    cases lo' with
    | none => simp_all [spWfFrom]
    | some a =>
      obtain ⟨b, rfl, hab⟩ := hl a rfl
      simp [spWfFrom] at h ⊢
      exact ⟨⟨by omega, h.1.2⟩, h.2⟩

theorem spErase_wf (d : α) (m : Sparse α) (n : Nat) (lo : Option Nat) (h : spWfFrom d lo m = true) :
    spWfFrom d lo (spErase m n) = true := by
  induction m generalizing lo with
  | nil => rfl
  | cons e rest ih =>
    obtain ⟨k, v⟩ := e
    have hr : spWfFrom d (some k) rest = true := by
      cases lo <;> simp [spWfFrom] at h <;> tauto
    by_cases hk : k = n
    · simp only [spErase, hk, if_true]
      refine ih lo (spWfFrom_weaken d hr ?_)
      intro a ha
      subst ha
      simp [spWfFrom] at h
      exact ⟨k, rfl, by omega⟩
    · simp only [spErase, hk, if_false]
      cases lo <;> simp [spWfFrom] at h ⊢ <;> exact ⟨by tauto, ih _ hr⟩

theorem spPut_wf (d : α) (m : Sparse α) (n : Nat) (x : α) (lo : Option Nat) (hx : x ≠ d) (hn : ∀ l, lo = some l → l < n)
    (h : spWfFrom d lo m = true) : spWfFrom d lo (spPut m n x) = true := by
  induction m generalizing lo with
  | nil =>
    cases lo with
    | none => simp [spPut, spWfFrom, hx]
    | some l => simp [spPut, spWfFrom, hx, hn l rfl]
  | cons e rest ih =>
    obtain ⟨k, v⟩ := e
    simp only [spPut]
    by_cases h1 : n < k
    · simp only [h1, if_true]
      cases lo with
      | none => simp [spWfFrom] at h ⊢; exact ⟨hx, ⟨h1, h.1⟩, h.2⟩
      | some l => simp [spWfFrom] at h ⊢; exact ⟨⟨hn l rfl, hx⟩, ⟨h1, h.1.2⟩, h.2⟩
    · by_cases h2 : n = k
      · subst h2
        simp only [h1, if_false, if_true]
        cases lo with
        | none => simp [spWfFrom] at h ⊢; exact ⟨hx, h.2⟩
        | some l => simp [spWfFrom] at h ⊢; exact ⟨⟨h.1.1, hx⟩, h.2⟩
      · simp only [h1, h2, if_false]
        have hkn : k < n := by omega
        cases lo with
        | none =>
          simp [spWfFrom] at h ⊢
          exact ⟨h.1, ih (some k) (fun l hl => by simp at hl; omega) h.2⟩
        | some l =>
          simp [spWfFrom] at h ⊢
          exact ⟨h.1, ih (some k) (fun l hl => by simp at hl; omega) h.2⟩

/-- Writing a map keeps its canonical form. -/
theorem spSet_wf (d : α) (m : Sparse α) (n : Nat) (x : α) (h : spWf d m = true) : spWf d (spSet d m n x) = true := by
  unfold spSet
  split
  · exact spErase_wf d m n none h
  · next hx => exact spPut_wf d m n x none hx (by simp) h

/-! ## Rising sets -/

theorem mem_setInsert (l : List Nat) (n k : Nat) : k ∈ setInsert l n ↔ k = n ∨ k ∈ l := by
  induction l with
  | nil => simp [setInsert]
  | cons a rest ih =>
    simp only [setInsert]
    split
    · simp
    · split
      · next h => subst h; simp
      · simp [ih]; tauto

theorem mem_setErase (l : List Nat) (n k : Nat) : k ∈ setErase l n ↔ k ∈ l ∧ k ≠ n := by simp [setErase]

end Sys2Proof.Machine
end

