-- ==== Sys2Proof/Laws/Memory.lean ====
section
/-! SUPPORT. Memory: a byte written is read back, every other byte reads as before, and every memory operation keeps the
canonical form. -/

namespace Sys2Proof.Machine

set_option Elab.async false

/-! ## Cells -/

theorem cellGet_cellErase_same (m : List Host.Cell) (a : Nat) : cellGet (cellErase m a) a = 0 := by
  induction m with
  | nil => rfl
  | cons e rest ih =>
    obtain ⟨k, v⟩ := e
    by_cases hk : k = a
    · have : cellErase ((k, v) :: rest) a = cellErase rest a := by simp [cellErase, hk]
      rw [this, ih]
    · have : cellErase ((k, v) :: rest) a = (k, v) :: cellErase rest a := by simp [cellErase, hk]
      rw [this]
      simpa [cellGet, hk] using ih

theorem cellGet_cellErase_other (m : List Host.Cell) {a c : Nat} (h : c ≠ a) : cellGet (cellErase m a) c = cellGet m c := by
  induction m with
  | nil => rfl
  | cons e rest ih =>
    obtain ⟨k, v⟩ := e
    by_cases hk : k = a
    · have : cellErase ((k, v) :: rest) a = cellErase rest a := by simp [cellErase, hk]
      have hkc : k ≠ c := fun hh => h (hh.symm.trans hk)
      rw [this, ih]
      simp [cellGet, hkc]
    · have : cellErase ((k, v) :: rest) a = (k, v) :: cellErase rest a := by simp [cellErase, hk]
      rw [this]
      simp only [cellGet]
      rw [ih]

theorem cellGet_cellInsert (m : List Host.Cell) (a c : Nat) (b : Byte) (h : cellGet m a = 0 ∧ ∀ e ∈ m, e.1 ≠ a) :
    cellGet (cellInsert m a b) c = if a = c then b else cellGet m c := by
  induction m with
  | nil => simp [cellInsert, cellGet]
  | cons e rest ih =>
    obtain ⟨k, v⟩ := e
    have hk : k ≠ a := h.2 (k, v) (by simp)
    have hr : cellGet rest a = 0 := by have := h.1; simpa [cellGet, hk] using this
    have ih' := ih ⟨hr, fun e he => h.2 e (by simp [he])⟩
    simp only [cellInsert]
    split
    · rfl
    · simp only [cellGet, ih']
      by_cases hkc : k = c
      · have : a ≠ c := fun hh => hk (hkc.trans hh.symm)
        simp [hkc, this]
      · simp [hkc]

theorem cellErase_clean (m : List Host.Cell) (a : Nat) : ∀ e ∈ cellErase m a, e.1 ≠ a := by
  intro e he
  simpa using (List.mem_filter.mp he).2

theorem cellGet_cellSet (m : List Host.Cell) (a c : Nat) (b : Byte) :
    cellGet (cellSet m a b) c = if a = c then b else cellGet m c := by
  unfold cellSet
  split
  · next hb =>
    split
    · next hc => rw [← hc, cellGet_cellErase_same, hb]
    · next hc => exact cellGet_cellErase_other m (fun hh => hc hh.symm)
  · rw [cellGet_cellInsert _ _ _ _ ⟨cellGet_cellErase_same m a, cellErase_clean m a⟩]
    split
    · rfl
    · next hc => exact cellGet_cellErase_other m (fun hh => hc hh.symm)

theorem cellGet_cellSet_same (m : List Host.Cell) (a : Nat) (b : Byte) : cellGet (cellSet m a b) a = b := by
  simp [cellGet_cellSet]

theorem cellGet_cellSet_other (m : List Host.Cell) {a c : Nat} (b : Byte) (h : c ≠ a) :
    cellGet (cellSet m a b) c = cellGet m c := by
  simp [cellGet_cellSet, Ne.symm h]

theorem cellsWf_weaken {lo lo' : Option Nat} {m : List Host.Cell} (h : cellsWfFrom lo m = true)
    (hl : ∀ a, lo' = some a → ∃ b, lo = some b ∧ a ≤ b) : cellsWfFrom lo' m = true := by
  cases m with
  | nil => rfl
  | cons e rest =>
    obtain ⟨k, v⟩ := e
    cases lo' with
    | none => cases lo <;> simp_all [cellsWfFrom]
    | some a =>
      obtain ⟨b, rfl, hab⟩ := hl a rfl
      simp [cellsWfFrom] at h ⊢
      exact ⟨⟨by omega, h.1.2⟩, h.2⟩

theorem cells_filter_wf (p : Host.Cell → Bool) (m : List Host.Cell) (lo : Option Nat) (h : cellsWfFrom lo m = true) :
    cellsWfFrom lo (m.filter p) = true := by
  induction m generalizing lo with
  | nil => rfl
  | cons e rest ih =>
    obtain ⟨k, v⟩ := e
    have hr : cellsWfFrom (some k) rest = true := by cases lo <;> simp [cellsWfFrom] at h <;> tauto
    by_cases hp : p (k, v)
    · rw [List.filter_cons_of_pos hp]
      cases lo <;> simp [cellsWfFrom] at h ⊢ <;> exact ⟨by tauto, ih _ hr⟩
    · rw [List.filter_cons_of_neg hp]
      refine ih lo (cellsWf_weaken hr ?_)
      intro a ha
      subst ha
      simp [cellsWfFrom] at h
      exact ⟨k, rfl, by omega⟩

theorem cellInsert_wf (m : List Host.Cell) (a : Nat) (b : Byte) (lo : Option Nat) (hb : b ≠ 0) (hn : ∀ l, lo = some l → l < a)
    (hm : ∀ e ∈ m, e.1 ≠ a) (h : cellsWfFrom lo m = true) : cellsWfFrom lo (cellInsert m a b) = true := by
  have hb' : ¬ b = 0#8 := hb
  induction m generalizing lo with
  | nil => cases lo with
    | none => simp [cellInsert, cellsWfFrom, hb']
    | some l => simp [cellInsert, cellsWfFrom, hb', hn l rfl]
  | cons e rest ih =>
    obtain ⟨k, v⟩ := e
    have hk : k ≠ a := hm (k, v) (by simp)
    simp only [cellInsert]
    by_cases h1 : a < k
    · rw [if_pos h1]
      cases lo with
      | none => simp [cellsWfFrom] at h ⊢; exact ⟨hb', ⟨h1, h.1⟩, h.2⟩
      | some l => simp [cellsWfFrom] at h ⊢; exact ⟨⟨hn l rfl, hb'⟩, ⟨h1, h.1.2⟩, h.2⟩
    · rw [if_neg h1]
      have hka : k < a := by omega
      have hr : ∀ e ∈ rest, e.1 ≠ a := fun e he => hm e (by simp [he])
      cases lo with
      | none => simp [cellsWfFrom] at h ⊢; exact ⟨h.1, ih (some k) (fun l hl => by simp at hl; omega) hr h.2⟩
      | some l => simp [cellsWfFrom] at h ⊢; exact ⟨h.1, ih (some k) (fun l hl => by simp at hl; omega) hr h.2⟩

theorem cellSet_wf (m : List Host.Cell) (a : Nat) (b : Byte) (h : cellsWfFrom none m = true) :
    cellsWfFrom none (cellSet m a b) = true := by
  unfold cellSet
  split
  · exact cells_filter_wf _ _ none h
  · next hb => exact cellInsert_wf _ _ _ none hb (by simp) (cellErase_clean m a) (cells_filter_wf _ _ none h)

/-! ## Sets of sectors -/

theorem rising_weaken {lo lo' : Option Nat} {l : List Nat} (h : risingFrom lo l = true)
    (hl : ∀ a, lo' = some a → ∃ b, lo = some b ∧ a ≤ b) : risingFrom lo' l = true := by
  cases l with
  | nil => rfl
  | cons k rest =>
    cases lo' with
    | none => cases lo <;> simp_all [risingFrom]
    | some a =>
      obtain ⟨b, rfl, hab⟩ := hl a rfl
      simp [risingFrom] at h ⊢
      exact ⟨by omega, h.2⟩

theorem setInsert_rising (l : List Nat) (n : Nat) (lo : Option Nat) (hn : ∀ k, lo = some k → k < n)
    (h : risingFrom lo l = true) : risingFrom lo (setInsert l n) = true := by
  induction l generalizing lo with
  | nil => cases lo with
    | none => rfl
    | some k => simp [setInsert, risingFrom, hn k rfl]
  | cons a rest ih =>
    simp only [setInsert]
    by_cases h1 : n < a
    · simp only [h1, if_true]
      cases lo with
      | none => simp [risingFrom] at h ⊢; exact ⟨h1, h⟩
      | some k => simp [risingFrom] at h ⊢; exact ⟨hn k rfl, h1, h.2⟩
    · by_cases h2 : n = a
      · subst h2; simpa [lt_irrefl] using h
      · simp only [h1, h2, if_false]
        have : a < n := by omega
        cases lo with
        | none => simp [risingFrom] at h ⊢; exact ih (some a) (fun k hk => by simp at hk; omega) h
        | some k => simp [risingFrom] at h ⊢; exact ⟨h.1, ih (some a) (fun k hk => by simp at hk; omega) h.2⟩

theorem setErase_rising (l : List Nat) (n : Nat) (lo : Option Nat) (h : risingFrom lo l = true) :
    risingFrom lo (setErase l n) = true := by
  induction l generalizing lo with
  | nil => rfl
  | cons a rest ih =>
    have hr : risingFrom (some a) rest = true := by cases lo <;> simp [risingFrom] at h <;> tauto
    by_cases ha : a ≠ n
    · have : setErase (a :: rest) n = a :: setErase rest n := by simp [setErase, ha]
      rw [this]
      cases lo <;> simp [risingFrom] at h ⊢
      · exact ih _ hr
      · exact ⟨h.1, ih _ hr⟩
    · have : setErase (a :: rest) n = setErase rest n := by simp [setErase] at *; simp [ha]
      rw [this]
      refine ih lo (rising_weaken hr ?_)
      intro x hx
      subst hx
      simp [risingFrom] at h
      exact ⟨a, rfl, by omega⟩

/-! ## Every memory operation keeps the canonical form -/

theorem Memory.empty_wf : Memory.empty.wf = true := rfl

theorem Memory.setByte_wf (m : Memory) (a : Nat) (b : Byte) (h : m.wf = true) : (m.setByte a b).wf = true := by
  simp [Memory.wf] at h
  simp [Memory.wf, Memory.setByte, h.2, cellSet_wf _ _ _ h.1]

theorem Memory.undefine_wf (m : Memory) (a n stamp : Nat) (h : m.wf = true) : (m.undefine a n stamp).wf = true := by
  unfold Memory.undefine
  split
  · exact h
  · simp [Memory.wf] at h
    simp only [Memory.wf, Bool.and_eq_true]
    exact ⟨cells_filter_wf _ _ none h.1, h.2⟩

theorem Memory.setPoison_wf (m : Memory) (k : Nat) (p : Bool) (h : m.wf = true) : (m.setPoison k p).wf = true := by
  simp [Memory.wf] at h
  cases p <;> simp [Memory.wf, Memory.setPoison, h.1, setErase_rising _ _ none h.2, setInsert_rising _ _ none (by simp) h.2]

/-- All three memories are in canonical form. -/
def memoriesWf (s : State) : Prop := s.dev.wf = true ∧ s.tile.wf = true ∧ s.twinTile.wf = true

theorem reset_memoriesWf : memoriesWf State.reset := ⟨rfl, rfl, rfl⟩

theorem setMem_memoriesWf (s : State) (sp : Space) (m : Memory) (h : memoriesWf s) (hm : m.wf = true) :
    memoriesWf (setMem s sp m) := by
  cases sp
  · exact ⟨hm, h.2⟩
  · exact ⟨h.1, hm, h.2.2⟩
  · exact ⟨h.1, h.2.1, hm⟩

theorem getMem_wf (s : State) (sp : Space) (h : memoriesWf s) : (getMem s sp).wf = true := by
  cases sp
  · exact h.1
  · exact h.2.1
  · exact h.2.2

theorem writeByte_memoriesWf (s : State) (sp : Space) (a : Nat) (b : Byte) (h : memoriesWf s) : memoriesWf (writeByte s sp a b) :=
  setMem_memoriesWf s sp _ h (Memory.setByte_wf _ _ _ (getMem_wf s sp h))

theorem writeBytes_memoriesWf (s : State) (sp : Space) (a : Nat) (bs : List Byte) (h : memoriesWf s) :
    memoriesWf (writeBytes s sp a bs) := by
  induction bs generalizing s a with
  | nil => exact h
  | cons b rest ih => exact ih _ _ (writeByte_memoriesWf s sp a b h)

theorem setSectorPoison_memoriesWf (s : State) (sp : Space) (a : Nat) (p : Bool) (h : memoriesWf s) :
    memoriesWf (setSectorPoison s sp a p) :=
  setMem_memoriesWf s sp _ h (Memory.setPoison_wf _ _ _ (getMem_wf s sp h))

theorem foldl_memoriesWf {β : Type} (f : State → β → State) (hf : ∀ s x, memoriesWf s → memoriesWf (f s x)) (l : List β) (s : State)
    (h : memoriesWf s) : memoriesWf (l.foldl f s) := by
  induction l generalizing s with
  | nil => exact h
  | cons x rest ih => exact ih _ (hf s x h)

theorem devWrite_memoriesWf (s : State) (a : Nat) (bs : List Byte) (h : memoriesWf s) : memoriesWf (devWrite s a bs) := by
  unfold devWrite
  split
  · exact h
  · exact foldl_memoriesWf _ (fun s k hs => setSectorPoison_memoriesWf s .device (64 * k) false hs) _ _
      (writeBytes_memoriesWf s .device a bs h)

/-! ## What is read after a write -/

theorem carve_holds (r : UndefRange) (a n c : Nat) :
    (r.carve a n).any (fun x => x.holds c) = (r.holds c && !(decide (a ≤ c) && decide (c < a + n))) := by
  unfold UndefRange.carve UndefRange.holds
  simp only [List.any_append]
  rw [Bool.eq_iff_iff]
  split <;> split <;> simp <;> omega

theorem find_none_iff_any {β : Type} (p : β → Bool) (l : List β) : l.find? p = none ↔ l.any p = false := by
  simp [List.find?_eq_none, List.any_eq_false]

theorem any_flatMap_carve (l : List UndefRange) (a n c : Nat) :
    (l.flatMap (fun r => r.carve a n)).any (fun x => x.holds c)
      = (l.any (fun r => r.holds c) && !(decide (a ≤ c) && decide (c < a + n))) := by
  induction l with
  | nil => rfl
  | cons r rest ih =>
    rw [List.flatMap_cons, List.any_append, carve_holds, ih, List.any_cons, Bool.and_or_distrib_right]

/-- The byte written is the byte read. -/
theorem Memory.byte_setByte_same (m : Memory) (a : Nat) (b : Byte) : (m.setByte a b).byte a = b := by
  have hu : ((m.setByte a b).undef).find? (fun r => r.holds a) = none := by
    rw [find_none_iff_any]
    unfold Memory.setByte
    by_cases hh : m.undef.any (fun r => r.holds a) = true
    · simp only [hh, if_true]
      rw [any_flatMap_carve]; simp
    · simpa [hh] using hh
  unfold Memory.byte
  rw [hu]
  exact cellGet_cellSet_same _ _ _

/-- The pieces of a carved range all carry its stamp. -/
theorem carve_stamp {r x : UndefRange} {a n : Nat} (h : x ∈ r.carve a n) : x.stamp = r.stamp := by
  simp only [UndefRange.carve, List.mem_append] at h
  rcases h with h | h <;> split at h <;> simp at h <;> rw [h]

theorem find_carve_other (r : UndefRange) (a c : Nat) (h : c ≠ a) :
    ((r.carve a 1).find? (fun x => x.holds c)).map (fun x => x.stamp) = if r.holds c then some r.stamp else none := by
  have hany := carve_holds r a 1 c
  have hx : (!(decide (a ≤ c) && decide (c < a + 1))) = true := by simp; omega
  rw [hx, Bool.and_true] at hany
  cases hf : (r.carve a 1).find? (fun x => x.holds c) with
  | none =>
    rw [find_none_iff_any] at hf
    simp [← hany, hf]
  | some x =>
    have h1 := List.find?_some hf
    have h2 := carve_stamp (List.mem_of_find?_eq_some hf)
    have h3 : (r.carve a 1).any (fun x => x.holds c) = true := List.any_eq_true.mpr ⟨x, List.mem_of_find?_eq_some hf, h1⟩
    simp [← hany, h3, h2]

/-- Every other byte reads as before. -/
theorem Memory.byte_setByte_other (m : Memory) {a c : Nat} (b : Byte) (h : c ≠ a) : (m.setByte a b).byte c = m.byte c := by
  have key : (((m.setByte a b).undef).find? (fun r => r.holds c)).map (fun r => r.stamp)
      = (m.undef.find? (fun r => r.holds c)).map (fun r => r.stamp) := by
    unfold Memory.setByte
    by_cases hh : m.undef.any (fun r => r.holds a) = true
    · simp only [hh, if_true]
      generalize m.undef = l
      induction l with
      | nil => rfl
      | cons r rest ih =>
        rw [List.flatMap_cons, List.find?_append]
        have hc := find_carve_other r a c h
        have hcons : List.find? (fun r => UndefRange.holds r c) (r :: rest)
            = if r.holds c = true then some r else rest.find? (fun r => r.holds c) := by
          cases hq : r.holds c <;> simp [List.find?, hq]
        rw [hcons]
        by_cases hr : r.holds c = true
        · simp only [hr, if_true] at hc ⊢
          cases hx : (r.carve a 1).find? (fun x => x.holds c) with
          | none => simp [hx] at hc
          | some x => simpa [hx] using hc
        · simp only [hr] at hc ⊢
          cases hx : (r.carve a 1).find? (fun x => x.holds c) with
          | none => simpa [hx] using ih
          | some x => simp [hx] at hc
    · simp [hh]
  unfold Memory.byte
  revert key
  cases hx : ((m.setByte a b).undef).find? (fun r => r.holds c) <;> cases hy : m.undef.find? (fun r => r.holds c) <;> simp
  · exact cellGet_cellSet_other m.cells b h
  · intro hs; rw [hs]

theorem getMem_setMem_same (s : State) (sp : Space) (m : Memory) : getMem (setMem s sp m) sp = m := by cases sp <;> rfl

theorem getMem_setMem_other (s : State) {sp sq : Space} (m : Memory) (h : sq ≠ sp) : getMem (setMem s sp m) sq = getMem s sq := by
  cases sp <;> cases sq <;> first | rfl | contradiction

/-- One byte written, and any byte read. -/
theorem readByte_writeByte (s : State) (sp : Space) (a c : Nat) (b : Byte) :
    readByte (writeByte s sp a b) sp c = if spaceAddr sp c = spaceAddr sp a then b else readByte s sp c := by
  unfold readByte writeByte
  rw [getMem_setMem_same]
  split
  · next hc => rw [hc]; exact Memory.byte_setByte_same _ _ _
  · next hc => exact Memory.byte_setByte_other _ _ hc

/-- Another memory reads as before. -/
theorem readByte_writeByte_space (s : State) {sp sq : Space} (a c : Nat) (b : Byte) (h : sq ≠ sp) :
    readByte (writeByte s sp a b) sq c = readByte s sq c := by
  unfold readByte writeByte
  rw [getMem_setMem_other s _ h]

theorem readByte_writeBytes_space (s : State) {sp sq : Space} (a c : Nat) (bs : List Byte) (h : sq ≠ sp) :
    readByte (writeBytes s sp a bs) sq c = readByte s sq c := by
  induction bs generalizing s a with
  | nil => rfl
  | cons b rest ih => rw [writeBytes, ih, readByte_writeByte_space s a c b h]

/-- A byte outside the bytes written reads as before. -/
theorem readByte_writeBytes_other (s : State) (sp : Space) (a c : Nat) (bs : List Byte)
    (hc : ∀ i < bs.length, spaceAddr sp c ≠ spaceAddr sp (a + i)) : readByte (writeBytes s sp a bs) sp c = readByte s sp c := by
  induction bs generalizing s a with
  | nil => rfl
  | cons b rest ih =>
    rw [writeBytes, ih, readByte_writeByte s sp a c b, if_neg (by simpa using hc 0 (by simp))]
    intro i hi
    have := hc (i + 1) (by simpa using hi)
    rwa [show a + 1 + i = a + (i + 1) by omega]

theorem spaceAddr_add_ne (sp : Space) (a i j : Nat) (hi : i < 2 ^ 64) (hj : j < 2 ^ 64) (h : i ≠ j) :
    spaceAddr sp (a + i) ≠ spaceAddr sp (a + j) := by
  cases sp <;> simp only [spaceAddr] <;> omega

/-- Bytes written are read back. -/
theorem readByte_writeBytes_same (s : State) (sp : Space) (a i : Nat) (bs : List Byte) (hi : i < bs.length)
    (hl : bs.length ≤ 2 ^ 64) : readByte (writeBytes s sp a bs) sp (a + i) = bs[i] := by
  induction bs generalizing s a i with
  | nil => simp at hi
  | cons b rest ih =>
    simp only [List.length_cons] at hi hl
    cases i with
    | zero =>
      rw [writeBytes, readByte_writeBytes_other, readByte_writeByte s sp a _ b]
      · simp
      · intro j hj
        rw [show a + 1 + j = a + (1 + j) by omega]
        exact spaceAddr_add_ne sp a 0 (1 + j) (by omega) (by omega) (by omega)
    | succ i =>
      have := ih (writeByte s sp a b) (a + 1) i (by omega) (by omega)
      rw [writeBytes, show a + (i + 1) = a + 1 + i by omega, this]
      simp

/-- A sector's poison does not change what is read. -/
theorem readByte_setSectorPoison (s : State) (sp sq : Space) (a c : Nat) (p : Bool) :
    readByte (setSectorPoison s sp a p) sq c = readByte s sq c := by
  unfold readByte setSectorPoison
  cases sp <;> cases sq <;> rfl

theorem readByte_devWrite_same (s : State) (a i : Nat) (bs : List Byte) (hp : isSecondary s = false)
    (hi : i < bs.length) (hl : bs.length ≤ 2 ^ 64) : readByte (devWrite s a bs) .device (a + i) = bs[i] := by
  unfold devWrite
  simp only [hp, Bool.false_eq_true, if_false]
  rw [← readByte_writeBytes_same s .device a i bs hi hl]
  generalize writeBytes s .device a bs = t
  generalize List.filter _ _ = l
  induction l generalizing t with
  | nil => rfl
  | cons k rest ih => rw [List.foldl_cons, ih, readByte_setSectorPoison]

theorem readByte_devWrite_other (s : State) (a c : Nat) (bs : List Byte)
    (hc : ∀ i < bs.length, spaceAddr .device c ≠ spaceAddr .device (a + i)) :
    readByte (devWrite s a bs) .device c = readByte s .device c := by
  unfold devWrite
  split
  · rfl
  · rw [← readByte_writeBytes_other s .device a c bs hc]
    dsimp only
    generalize writeBytes s .device a bs = t
    generalize List.filter _ _ = l
    induction l generalizing t with
    | nil => rfl
    | cons k rest ih => rw [List.foldl_cons, ih, readByte_setSectorPoison]

end Sys2Proof.Machine
end

