-- ==== Sys2Proof/Laws/Complete.lean ====
section
/-! SUPPORT. What sending on the hinge and completing a command leave as they are, said once for each operation; and that a
completed command is gone and the chain free. -/

namespace Sys2Proof.Machine

set_option Elab.async false

/-- What neither a hinge packet nor a completion touches. `slots` and `mg` are left out: a digest link and the end of a VI
reset change them. -/
structure Stays (s t : State) : Prop where
  pending  : t.pending = s.pending
  cfg      : t.cfg = s.cfg
  readData : t.readData = s.readData
  ctl      : t.ctl = s.ctl
  pwr      : t.pwr = s.pwr
  log      : t.log = s.log
  drain    : t.drain = s.drain
  shift    : t.shift = s.shift
  tabs     : t.tabs = s.tabs
  tile     : t.tile = s.tile
  twinTile : t.twinTile = s.twinTile
  mode     : t.twin.mode = s.twin.mode
  primary  : t.twin.primary = s.twin.primary

theorem Stays.refl (s : State) : Stays s s := by constructor <;> rfl

theorem Stays.trans {s t u : State} (h : Stays s t) (k : Stays t u) : Stays s u :=
  ⟨k.pending.trans h.pending, k.cfg.trans h.cfg, k.readData.trans h.readData, k.ctl.trans h.ctl,
    k.pwr.trans h.pwr, k.log.trans h.log, k.drain.trans h.drain, k.shift.trans h.shift,
    k.tabs.trans h.tabs, k.tile.trans h.tile, k.twinTile.trans h.twinTile, k.mode.trans h.mode,
    k.primary.trans h.primary⟩

theorem Stays.foldl {β : Type} (f : State → β → State) (hf : ∀ s x, Stays s (f s x)) (l : List β) (s : State) :
    Stays s (l.foldl f s) := by
  induction l generalizing s with
  | nil => exact Stays.refl s
  | cons x rest ih => exact (hf s x).trans (ih _)

/-- What a record of the unit's own leaves as it is: of the rings, only waits that end change. -/
structure Near (s t : State) : Prop extends Stays s t where
  cache    : t.rings.cache = s.rings.cache
  deferred : t.rings.deferred = s.rings.deferred
  holder   : t.rings.holder = s.rings.holder
  live     : t.rings.live = s.rings.live

theorem Near.refl (s : State) : Near s s := by constructor <;> first | exact Stays.refl s | rfl

theorem Near.trans {s t u : State} (h : Near s t) (k : Near t u) : Near s u :=
  ⟨h.toStays.trans k.toStays, k.cache.trans h.cache, k.deferred.trans h.deferred, k.holder.trans h.holder, k.live.trans h.live⟩

theorem Near.foldl {β : Type} (f : State → β → State) (hf : ∀ s x, Near s (f s x)) (l : List β) (s : State) :
    Near s (l.foldl f s) := by
  induction l generalizing s with
  | nil => exact Near.refl s
  | cons x rest ih => exact (hf s x).trans (ih _)

/-- What a hinge packet does not touch either: the row slots. -/
structure Aside (s t : State) : Prop extends Near s t where
  slots    : t.slots = s.slots

/-- The fields one by one. -/
theorem Near.of {s t : State} (pending : t.pending = s.pending) (cfg : t.cfg = s.cfg) (readData : t.readData = s.readData)
    (ctl : t.ctl = s.ctl) (pwr : t.pwr = s.pwr) (log : t.log = s.log) (drain : t.drain = s.drain)
    (shift : t.shift = s.shift) (tabs : t.tabs = s.tabs) (tile : t.tile = s.tile)
    (twinTile : t.twinTile = s.twinTile) (mode : t.twin.mode = s.twin.mode)
    (primary : t.twin.primary = s.twin.primary) (cache : t.rings.cache = s.rings.cache)
    (deferred : t.rings.deferred = s.rings.deferred) (holder : t.rings.holder = s.rings.holder)
    (live : t.rings.live = s.rings.live) : Near s t :=
  ⟨⟨pending, cfg, readData, ctl, pwr, log, drain, shift, tabs, tile, twinTile, mode, primary⟩,
    cache, deferred, holder, live⟩

theorem Aside.of {s t : State} (pending : t.pending = s.pending) (cfg : t.cfg = s.cfg) (readData : t.readData = s.readData)
    (ctl : t.ctl = s.ctl) (pwr : t.pwr = s.pwr) (log : t.log = s.log) (drain : t.drain = s.drain)
    (shift : t.shift = s.shift) (tabs : t.tabs = s.tabs) (tile : t.tile = s.tile)
    (twinTile : t.twinTile = s.twinTile) (mode : t.twin.mode = s.twin.mode)
    (primary : t.twin.primary = s.twin.primary) (cache : t.rings.cache = s.rings.cache)
    (deferred : t.rings.deferred = s.rings.deferred) (holder : t.rings.holder = s.rings.holder)
    (live : t.rings.live = s.rings.live) (slots : t.slots = s.slots) : Aside s t :=
  ⟨⟨⟨pending, cfg, readData, ctl, pwr, log, drain, shift, tabs, tile, twinTile, mode, primary⟩,
    cache, deferred, holder, live⟩, slots⟩

theorem Aside.refl (s : State) : Aside s s := ⟨Near.refl s, rfl⟩

theorem Aside.trans {s t u : State} (h : Aside s t) (k : Aside t u) : Aside s u :=
  ⟨h.toNear.trans k.toNear, k.slots.trans h.slots⟩

theorem Aside.foldl {β : Type} (f : State → β → State) (hf : ∀ s x, Aside s (f s x)) (l : List β) (s : State) :
    Aside s (l.foldl f s) := by
  induction l generalizing s with
  | nil => exact Aside.refl s
  | cons x rest ih => exact (hf s x).trans (ih _)

/-! ## Shared operations -/

theorem countEvent_aside (s : State) (c n : Nat) (v : Option ViId) : Aside s (countEvent c n v s) := by apply Aside.of <;> simp
theorem countTiming_aside (s : State) (v : Option ViId) : Aside s (countTiming v s) := by apply Aside.of <;> simp
theorem countBits_aside (s : State) (n : Nat) (v : ViId) : Aside s (countBits n v s) := by apply Aside.of <;> simp
theorem countRetired_aside (s : State) (v : ViId) : Aside s (countRetired v s) := by apply Aside.of <;> simp
theorem advanceClock_aside (s : State) : Aside s (advanceClock s) := by apply Aside.of <;> simp
theorem tick_aside (s : State) : Aside s (tick s) := by apply Aside.of <;> simp
theorem modVi_aside (s : State) (v : ViId) (f : ViState → ViState) : Aside s (modVi s v f) := by apply Aside.of <;> rfl
theorem emit_aside (s : State) (e : OutEvent) : Aside s (emit s e) := by apply Aside.of <;> rfl
theorem takeFree_aside (s : State) : Aside s (takeFree s).2 := by apply Aside.of <;> rfl
theorem showTwin_aside (l : List Nat) (s : State) : Aside s (showTwin l s) := by apply Aside.of <;> simp
theorem lockstepFold_aside (s : State) (l : List Nat) : Aside s (lockstepFold l s) := by
  unfold lockstepFold
  split <;> apply Aside.of <;> rfl
theorem devWrite_aside (s : State) (a : Nat) (bs : List Byte) : Aside s (devWrite s a bs) := by apply Aside.of <;> simp
theorem devWriteFor_aside (s : State) (v : ViId) (a : Nat) (bs : List Byte) : Aside s (devWriteFor v s a bs) := by
  apply Aside.of <;> simp
theorem putSlot_near (s : State) (h : Nat) (x : Slot) : Near s (putSlot s h x) := by apply Near.of <;> simp
theorem modSlot_near (s : State) (h : Nat) (f : Slot → Slot) : Near s (modSlot s h f) := by apply Near.of <;> simp
theorem setChain_aside (s : State) (c : Nat) (d : ChainDesc) : Aside s (setChain s c d) := by apply Aside.of <;> rfl
theorem modChain_aside (s : State) (c : Nat) (f : ChainDesc → ChainDesc) : Aside s (modChain s c f) := setChain_aside s c _
theorem modEpoch_aside (s : State) (c : Nat) (e : W32) (f : Epoch → Epoch) : Aside s (modEpoch s c e f) := modChain_aside s c _

theorem traceDrain_aside (rs : List TraceRecord) (s : State) : Aside s (traceDrain rs s) := by
  induction rs generalizing s with
  | nil => apply Aside.of <;> rfl
  | cons r rest ih =>
    unfold traceDrain
    split
    · apply Aside.of <;> rfl
    · dsimp only
      refine Aside.trans ?_ (ih _)
      apply Aside.of <;> simp

theorem traceFlush_aside (s : State) : Aside s (traceFlush s) := traceDrain_aside _ s

theorem tracePut_aside (v : Option ViId) (r : TraceRecord) (s : State) : Aside s (tracePut v r s) := by
  have hd : ∀ (u : State) (f : Det → Det), Aside u { u with det := f u.det } := fun u f => by apply Aside.of <;> rfl
  unfold tracePut
  split
  · have h1 : Aside s (traceFlush { s with det := { s.det with buffer := s.det.buffer ++ [r] } }) :=
      (hd s (fun d => { d with buffer := d.buffer ++ [r] })).trans (traceFlush_aside _)
    dsimp only
    split
    · exact h1
    · exact ((h1.trans (countTiming_aside _ v)).trans (countEvent_aside _ 0xC8 1 none)).trans
        (hd _ (fun d => { d with stalled := true }))
  · exact (hd s (fun d => { d with dropped := d.dropped + 1 })).trans (countEvent_aside _ 0xC9 1 none)

theorem traceNow_aside (type : Nat) (charge vi : Option ViId) (a b c : Nat) (s : State) :
    Aside s (traceNow type charge vi a b c s) :=
  (advanceClock_aside s).trans (tracePut_aside _ _ _)

theorem traceChoice_aside (type : Nat) (vi : Option ViId) (a b c : Nat) (s : State) : Aside s (traceChoice type vi a b c s) := by
  unfold traceChoice
  split
  · exact traceNow_aside _ _ _ _ _ _ s
  · exact Aside.refl s

/-! ## The hinge -/

theorem hingeOut_aside (twin : Bool) (o : ViId) (p : HingePacket) (s : State) : Aside s (hingeOut twin o p s) := by
  unfold hingeOut
  refine (showTwin_aside (shownPacket p) s).trans ?_
  generalize showTwin (shownPacket p) s = s
  dsimp only
  split
  · exact Aside.refl s
  · split
    · exact (emit_aside _ _).trans (countEvent_aside _ _ _ _)
    · split
      · apply Aside.of <;> rfl
      · apply Aside.of <;> simp

theorem sendHead_aside (h : HingeHead) (twin : Bool) (o : ViId) (bs : List Byte) (s : State) : Aside s (sendHead h twin o bs s) :=
  hingeOut_aside _ _ _ s

theorem sendRetract_aside (c : Nat) (e : W32) (entry : BitVec 32) (s : State) : Aside s (sendRetract c e entry s) :=
  (hingeOut_aside _ _ _ s).trans (countEvent_aside _ _ _ _)

theorem retractAll_aside (c : Nat) (e : W32) (s : State) : Aside s (retractAll c e s) :=
  Aside.foldl _ (fun s _ => sendRetract_aside c e _ s) _ s

theorem storeRelease_aside (s : State) : Aside s (storeRelease s) := by
  unfold storeRelease
  split
  · apply Aside.of <;> simp [returnFlits]
  · exact Aside.refl s

theorem wakeConsumer_aside (c : Nat) (s : State) : Aside s (wakeConsumer c s) := by apply Aside.of <;> rfl

theorem closeEpoch_aside (c : Nat) (e : W32) (r : Status) (s : State) : Aside s (closeEpoch c e r s) :=
  ((modEpoch_aside s c e _).trans (wakeConsumer_aside c _)).trans (storeRelease_aside _)

theorem failEpoch_aside (c : Nat) (e : W32) (r : Status) (s : State) : Aside s (failEpoch c e r s) := by
  unfold failEpoch
  dsimp only
  split
  · exact Aside.refl s
  · refine Aside.trans ?_ (closeEpoch_aside c e r _)
    split
    · exact retractAll_aside c e s
    · exact sendRetract_aside c e _ s

theorem sendPartial_aside (c : Nat) (e : W32) (b : Bool) (pt r0 n : Nat) (bs : List Byte) (s : State) :
    Aside s (sendPartial c e b pt r0 n bs s) := by
  unfold sendPartial
  dsimp only
  split
  · exact Aside.refl s
  · exact (modEpoch_aside s c e _).trans (hingeOut_aside _ _ _ _)

theorem sendList_aside (c : Nat) (e : W32) (b : Bool) (row : Nat) (r : ChainRow) (s : State) : Aside s (sendList c e b row r s) :=
  Aside.foldl _ (fun s _ => sendPartial_aside c e b _ _ _ _ s) _ s

theorem starCounts_aside (d : ChainDesc) (x : Epoch) (c : Nat) (e : W32) (rows : List Nat) (s : State) :
    Aside s (rows.foldl (fun s r =>
      let ins := orderedInputs d x r
      let s' := countBits ins.length d.owner s
      traceOrder c e r d.owner ins s') s) :=
  Aside.foldl _ (fun s _ => (countBits_aside s _ _).trans (Aside.foldl _ (fun s _ => traceChoice_aside _ _ _ _ _ s) _ _)) _ s

theorem forwardRows_aside (c : Nat) (e : W32) (s : State) : Aside s (forwardRows c e s) := by
  unfold forwardRows
  dsimp only
  split
  · exact Aside.refl s
  · split
    · exact Aside.refl s
    · split
      · refine Aside.trans ?_ (starCounts_aside _ _ _ _ _ _)
        split
        · exact (modEpoch_aside s c e _).trans (Aside.foldl _ (fun s _ => sendList_aside c e _ _ _ s) _ _)
        · refine Aside.trans ?_ (Aside.foldl _ (fun s _ => sendPartial_aside c e _ _ _ _ _ s) _ _)
          refine Aside.trans ?_ (Aside.foldl _ (fun s _ => sendPartial_aside c e _ _ _ _ _ s) _ _)
          exact modEpoch_aside s c e _
      · split
        · exact (modEpoch_aside s c e _).trans (Aside.foldl _ (fun s _ => sendList_aside c e _ _ _ s) _ _)
        · refine Aside.trans ?_ (Aside.foldl _ (fun s _ => sendPartial_aside c e _ _ _ _ _ s) _ _)
          refine Aside.trans ?_ (Aside.foldl _ (fun s _ => sendPartial_aside c e _ _ _ _ _ s) _ _)
          exact modEpoch_aside s c e _

theorem settleNotice_aside (c : Nat) (e : W32) (s : State) : Aside s (settleNotice c e s) := by
  unfold settleNotice
  dsimp only
  split
  · exact (modEpoch_aside s c e _).trans (sendPartial_aside _ _ _ _ _ _ _ _)
  · exact Aside.refl s

theorem settleOwn_aside (c : Nat) (rc : RunCmd) (s : State) : Aside s (settleOwn c rc s) :=
  Aside.foldl _ (fun s _ => (modEpoch_aside s c _ _).trans (settleNotice_aside c _ _)) _ s

theorem retractOwn_aside (c : Nat) (rc : RunCmd) (s : State) : Aside s (retractOwn c rc s) :=
  Aside.foldl _ (fun s _ => failEpoch_aside c _ _ s) _ s

theorem advanceEpoch_aside (c : Nat) (s : State) : Aside s (advanceEpoch c s) :=
  ((modChain_aside s c _).trans (wakeConsumer_aside c _)).trans (storeRelease_aside _)

theorem contributeRows_aside (c : Nat) (rows : List (Nat × ChainRow)) (rc : RunCmd) (b : Bool) (s : State) :
    Aside s (contributeRows c rows rc b s) := by
  unfold contributeRows
  dsimp only
  split
  · exact Aside.refl s
  · split
    · exact ((modEpoch_aside s c _ _).trans (countEvent_aside _ _ _ _)).trans (failEpoch_aside _ _ _ _)
    · exact ((modEpoch_aside s c _ _).trans (forwardRows_aside _ _ _)).trans (settleNotice_aside _ _ _)

/-! ## Completing -/

theorem settleChain_aside (rc : RunCmd) (st : Status) (s : State) : Aside s (settleChain rc st s) := by
  unfold settleChain
  dsimp only
  split
  · exact Aside.refl s
  · split
    · exact Aside.refl s
    · have h1 : Aside s (if st.succeeded then settleOwn (pkChainId rc.packet) rc s
          else if (decide (pkOpcode rc.packet = 0x06) && decide (tDest rc.tumbler = 3)) = true then
            failEpoch (pkChainId rc.packet) (chainAt s (pkChainId rc.packet)).epoch .retracted s
          else retractOwn (pkChainId rc.packet) rc s) := by
        split
        · exact settleOwn_aside _ _ _
        · split
          · exact failEpoch_aside _ _ _ _
          · exact retractOwn_aside _ _ _
      split
      · exact h1.trans (advanceEpoch_aside _ _)
      · exact h1

theorem linkSlots_near (rc : RunCmd) (x : W128) (s : State) : Near s (linkSlots rc x s) := by
  refine Near.foldl _ (fun s h => ?_) _ s
  dsimp only
  split
  · exact Near.refl s
  · exact modSlot_near _ _ _

theorem writeViews_near (hs : List Nat) (s : State) : Near s (writeViews hs s) := by
  refine Near.foldl _ (fun s h => ?_) _ s
  split
  · exact modSlot_near _ _ _
  · exact Near.refl s

theorem appendRecord_near (rc : RunCmd) (x : Cpl) (t : Bool) (s : State) : Near s (appendRecord rc x t s) := by
  unfold appendRecord
  split
  · exact Near.refl s
  · dsimp only
    have hd : ∀ (bs : List Byte) (u : State) (a : Nat), Near u (devWriteFor rc.vi u a bs) := fun bs u a => (devWriteFor_aside u _ a bs).toNear
    split
    · refine Near.trans ?_ (linkSlots_near _ _ _)
      refine Near.trans ?_ (hd _ _ _)
      split
      · exact (countEvent_aside _ _ _ _).toNear
      · exact hd _ _ _
    · refine Near.trans ?_ (hd _ _ _)
      split
      · exact (countEvent_aside _ _ _ _).toNear
      · exact hd _ _ _

theorem setCtx_stays (s : State) (r : Nat) (c : RingCtx) : Stays s (setCtx s r c) := by constructor <;> simp
theorem modCtx_stays (s : State) (r : Nat) (f : RingCtx → RingCtx) : Stays s (modCtx s r f) := setCtx_stays s r _
theorem setRingState_stays (s : State) (r : Nat) (st : RingState) : Stays s (setRingState s r st) := modCtx_stays s r _

theorem writeCpl_stays (ring : Nat) (x : Cpl) (s : State) : Stays s (writeCpl ring x s) := by
  unfold writeCpl
  dsimp only
  refine Stays.trans ?_ (modCtx_stays _ _ _)
  split
  · exact ((((tick_aside s).toStays.trans (devWriteFor_aside _ _ _ _).toStays).trans (countEvent_aside _ _ _ _).toStays).trans (countRetired_aside _ _).toStays).trans
      (lockstepFold_aside _ _).toStays
  · exact (((((tick_aside s).toStays.trans (devWriteFor_aside _ _ _ _).toStays).trans (countEvent_aside _ _ _ _).toStays).trans (countRetired_aside _ _).toStays).trans
      (lockstepFold_aside _ _).toStays).trans (modVi_aside _ _ _).toStays

theorem writeNotify_stays (ring i : Nat) (s : State) : Stays s (writeNotify ring i s) := by
  unfold writeNotify
  dsimp only
  split
  · exact Stays.refl s
  · exact (devWriteFor_aside _ _ _ _).toStays

theorem skipGo_stays (ring n : Nat) (s : State) : Stays s (skipGo ring n s) := by
  induction n generalizing s with
  | zero => exact Stays.refl s
  | succ n ih =>
    unfold skipGo
    dsimp only
    refine Stays.trans ?_ (ih _)
    refine Stays.trans ?_ (modCtx_stays _ _ _)
    split
    · exact (writeCpl_stays _ _ _).trans (writeNotify_stays _ _ _)
    · exact writeCpl_stays _ _ _

theorem skipAll_stays (ring : Nat) (s : State) : Stays s (skipAll ring s) := by
  unfold skipAll
  refine Stays.trans ?_ (skipGo_stays _ _ _)
  constructor <;> rfl

theorem clearDeferred_stays (ring : Nat) (s : State) : Stays s (clearDeferred ring s) := by constructor <;> rfl
theorem actionDone_stays (v : ViId) (ring : Nat) (s : State) : Stays s (actionDone v ring s) := by
  unfold actionDone
  split
  · exact (modVi_aside s v _).toStays
  · exact Stays.refl s
theorem endTurn_stays (ring : Nat) (s : State) : Stays s (endTurn ring s) := by
  unfold endTurn
  split
  · split
    · constructor <;> rfl
    · exact Stays.refl s
  · exact Stays.refl s
theorem dropCmd_stays (s : State) (r : Nat) : Stays s (dropCmd s r) := by constructor <;> rfl

theorem disableRing_stays (ring : Nat) (s : State) : Stays s (disableRing ring s) := by
  unfold disableRing
  refine Stays.trans ((setRingState_stays s ring .disabled).trans (clearDeferred_stays ring _)) ?_
  constructor <;> rfl

theorem viResetCheck_stays (s : State) : Stays s (viResetCheck s) := by
  unfold viResetCheck
  split
  · exact Stays.refl s
  · split
    · exact Stays.refl s
    · constructor <;> rfl

theorem ringAfter_stays (ring : Nat) (st : Status) (s : State) : Stays s (ringAfter ring st s) := by
  have h0 : Stays s (dropCmd { s with rings := { s.rings with holder := if s.rings.holder = some ring then none else s.rings.holder } } ring) := by
    constructor <;> rfl
  have h1 : ∀ (d : Option Deferred) (c : ViId) (u : State), Stays u (if d = none then u else actionDone c ring (clearDeferred ring u)) := by
    intro d c u
    split
    · exact Stays.refl u
    · exact (clearDeferred_stays ring u).trans (actionDone_stays _ _ _)
  have h2 : ∀ (u : State) (x : RingState), Stays u (setRingState (endTurn ring u) ring x) := fun u x =>
    (endTurn_stays ring u).trans (setRingState_stays _ _ _)
  unfold ringAfter
  dsimp only
  split
  · exact (((h0.trans (actionDone_stays _ _ _)).trans (disableRing_stays _ _)).trans (endTurn_stays _ _)).trans
      (viResetCheck_stays _)
  · refine h0.trans ?_
    refine (h1 (ringDeferred s ring) (ctxOwner (ctxOfRing s ring)) _).trans ?_
    generalize (if ringDeferred s ring = none then _ else _ : State) = u
    split
    · split
      · exact h2 _ _
      · exact (h2 _ _).trans (skipAll_stays _ _)
    · split
      · exact h2 _ _
      · split
        · exact h2 _ _
        · exact setRingState_stays _ _ _

/-- Completing a command leaves everything else of the unit as it is, but for memory that a failed command wrote. -/
theorem completeCmd_stays (rc : RunCmd) (base : Status) (d r n : Nat) (s : State)
    (h1 : finalStatus rc base ≠ .errorContained) (h2 : finalStatus rc base ≠ .retracted) :
    Stays s (completeCmd rc base d r n s) := by
  unfold completeCmd
  dsimp only
  refine (writeViews_near rc.prog.reduced s).toStays.trans ?_
  generalize writeViews rc.prog.reduced s = s
  refine Stays.trans ?_ (ringAfter_stays _ _ _)
  have hs : Stays s (match finalStatus rc base with
      | .errorContained => poisonSlots rc (undefineRegs rc (undefineWrites rc s))
      | .retracted => undefineWrites rc s
      | _ => s) := by
    split
    · contradiction
    · contradiction
    · exact Stays.refl s
  have hc : ∀ u, Stays s u → ∀ l x t, Stays s (writeCpl rc.ring x (appendRecord rc x t (showTwin l
      (settleChain rc (finalStatus rc base) u)))) := fun u hu l x t =>
    (((hu.trans (settleChain_aside rc _ _).toStays).trans (showTwin_aside l _).toStays).trans
      (appendRecord_near rc x t _).toStays).trans (writeCpl_stays rc.ring x _)
  split
  · exact (hc _ hs _ _ _).trans (writeNotify_stays _ _ _)
  · exact hc _ hs _ _ _

theorem Frame.refl (s : State) : Frame s s := by constructor <;> rfl
theorem Frame.trans {s t u : State} (h : Frame s t) (k : Frame t u) : Frame s u :=
  ⟨k.pending.trans h.pending, k.cfg.trans h.cfg, k.readData.trans h.readData, k.ctl.trans h.ctl, k.pwr.trans h.pwr,
    k.log.trans h.log, k.drain.trans h.drain, k.shift.trans h.shift, k.tabs.trans h.tabs, k.mode.trans h.mode,
    k.primary.trans h.primary⟩
theorem Frame.foldl {β : Type} (f : State → β → State) (hf : ∀ s x, Frame s (f s x)) (l : List β) (s : State) :
    Frame s (l.foldl f s) := by
  induction l generalizing s with
  | nil => exact Frame.refl s
  | cons x rest ih => exact (hf s x).trans (ih _)
theorem Stays.frame {s t : State} (h : Stays s t) : Frame s t :=
  ⟨h.pending, h.cfg, h.readData, h.ctl, h.pwr, h.log, h.drain, h.shift, h.tabs, h.mode, h.primary⟩

theorem setMem_frame (s : State) (sp : Space) (m : Memory) : Frame s (setMem s sp m) := by
  cases sp <;> constructor <;> rfl

theorem undefineWrites_frame (rc : RunCmd) (s : State) : Frame s (undefineWrites rc s) := by
  refine Frame.foldl _ (fun s x => ?_) _ s
  dsimp only
  cases x.2.1 <;> constructor <;> rfl

theorem undefineRegs_frame (rc : RunCmd) (s : State) : Frame s (undefineRegs rc s) := by
  refine Frame.foldl _ (fun s x => ?_) _ s
  constructor <;> rfl

theorem poisonSlots_frame (rc : RunCmd) (s : State) : Frame s (poisonSlots rc s) := by
  refine Frame.foldl _ (fun s h => ?_) _ s
  split
  · exact (modSlot_near _ _ _).toStays.frame
  · exact Frame.refl s

/-- Completing a command, with any status. -/
theorem completeCmd_frame (rc : RunCmd) (base : Status) (d r n : Nat) (s : State) : Frame s (completeCmd rc base d r n s) := by
  unfold completeCmd
  dsimp only
  refine (writeViews_near rc.prog.reduced s).toStays.frame.trans ?_
  generalize writeViews rc.prog.reduced s = s
  refine Frame.trans ?_ (ringAfter_stays _ _ _).frame
  have hs : Frame s (match finalStatus rc base with
      | .errorContained => poisonSlots rc (undefineRegs rc (undefineWrites rc s))
      | .retracted => undefineWrites rc s
      | _ => s) := by
    split
    · exact ((undefineWrites_frame _ _).trans (undefineRegs_frame _ _)).trans (poisonSlots_frame _ _)
    · exact undefineWrites_frame _ _
    · exact Frame.refl s
  have hc : ∀ u, Frame s u → ∀ l x t, Frame s (writeCpl rc.ring x (appendRecord rc x t (showTwin l
      (settleChain rc (finalStatus rc base) u)))) := fun u hu l x t =>
    (((hu.trans (settleChain_aside rc _ _).toStays.frame).trans (showTwin_aside l _).toStays.frame).trans
      (appendRecord_near rc x t _).toStays.frame).trans (writeCpl_stays rc.ring x _).frame
  split
  · exact (hc _ hs _ _ _).trans (writeNotify_stays _ _ _).frame
  · exact hc _ hs _ _ _

/-! ## The command is gone and the chain free -/

/-- What a completion does to the holder and the started commands after it has dropped its own. -/
structure KeepsCmds (s t : State) : Prop where
  holder : t.rings.holder = s.rings.holder
  cmds   : t.rings.cmds = s.rings.cmds

theorem KeepsCmds.refl (s : State) : KeepsCmds s s := ⟨rfl, rfl⟩
theorem KeepsCmds.trans {s t u : State} (h : KeepsCmds s t) (k : KeepsCmds t u) : KeepsCmds s u :=
  ⟨k.holder.trans h.holder, k.cmds.trans h.cmds⟩
theorem KeepsCmds.of_rings {s t : State} (h : t.rings = s.rings) : KeepsCmds s t := by constructor <;> rw [h]

theorem setCtx_keepsCmds (s : State) (r : Nat) (c : RingCtx) : KeepsCmds s (setCtx s r c) := by
  unfold setCtx
  split
  · exact ⟨rfl, rfl⟩
  · exact KeepsCmds.of_rings (by simp)

theorem modCtx_keepsCmds (s : State) (r : Nat) (f : RingCtx → RingCtx) : KeepsCmds s (modCtx s r f) := setCtx_keepsCmds s r _
theorem setRingState_keepsCmds (s : State) (r : Nat) (st : RingState) : KeepsCmds s (setRingState s r st) := modCtx_keepsCmds s r _

theorem writeCpl_keepsCmds (ring : Nat) (x : Cpl) (s : State) : KeepsCmds s (writeCpl ring x s) := by
  unfold writeCpl
  dsimp only
  refine KeepsCmds.trans ?_ (modCtx_keepsCmds _ _ _)
  split <;> exact KeepsCmds.of_rings (by simp)

theorem writeNotify_keepsCmds (ring i : Nat) (s : State) : KeepsCmds s (writeNotify ring i s) := by
  unfold writeNotify
  dsimp only
  split
  · exact KeepsCmds.refl s
  · exact KeepsCmds.of_rings (by simp)

theorem skipGo_keepsCmds (ring n : Nat) (s : State) : KeepsCmds s (skipGo ring n s) := by
  induction n generalizing s with
  | zero => exact KeepsCmds.refl s
  | succ n ih =>
    unfold skipGo
    dsimp only
    refine KeepsCmds.trans ?_ (ih _)
    refine KeepsCmds.trans ?_ (modCtx_keepsCmds _ _ _)
    split
    · exact (writeCpl_keepsCmds _ _ _).trans (writeNotify_keepsCmds _ _ _)
    · exact writeCpl_keepsCmds _ _ _

theorem skipAll_keepsCmds (ring : Nat) (s : State) : KeepsCmds s (skipAll ring s) := by
  unfold skipAll
  refine KeepsCmds.trans ?_ (skipGo_keepsCmds _ _ _)
  exact ⟨rfl, rfl⟩

theorem actionDone_keepsCmds (v : ViId) (ring : Nat) (s : State) : KeepsCmds s (actionDone v ring s) := by
  unfold actionDone
  split <;> exact ⟨rfl, rfl⟩

theorem endTurn_keepsCmds (ring : Nat) (s : State) : KeepsCmds s (endTurn ring s) := by
  unfold endTurn
  split
  · split <;> exact ⟨rfl, rfl⟩
  · exact KeepsCmds.refl s

theorem disableRing_keepsCmds (ring : Nat) (s : State) : KeepsCmds s (disableRing ring s) := by
  unfold disableRing
  exact KeepsCmds.trans (setRingState_keepsCmds s ring .disabled) ⟨rfl, rfl⟩

theorem viResetCheck_keepsCmds (s : State) : KeepsCmds s (viResetCheck s) := by
  unfold viResetCheck
  split
  · exact KeepsCmds.refl s
  · split <;> exact ⟨rfl, rfl⟩

theorem ringAfter_cmds (ring : Nat) (st : Status) (s : State) :
    (ringAfter ring st s).rings.holder = (if s.rings.holder = some ring then none else s.rings.holder)
      ∧ (ringAfter ring st s).rings.cmds = s.rings.cmds.filter (fun x => decide (x.ring ≠ ring)) := by
  have key : ∀ t, KeepsCmds (dropCmd { s with rings := { s.rings with holder := if s.rings.holder = some ring then none else s.rings.holder } } ring) t →
      t.rings.holder = (if s.rings.holder = some ring then none else s.rings.holder)
        ∧ t.rings.cmds = s.rings.cmds.filter (fun x => decide (x.ring ≠ ring)) := fun t h => ⟨h.holder, h.cmds⟩
  have h1 : ∀ (d : Option Deferred) (c : ViId) (u : State), KeepsCmds u (if d = none then u else actionDone c ring (clearDeferred ring u)) := by
    intro d c u
    split
    · exact KeepsCmds.refl u
    · exact KeepsCmds.trans (t := clearDeferred ring u) ⟨rfl, rfl⟩ (actionDone_keepsCmds _ _ _)
  have h2 : ∀ (u : State) (x : RingState), KeepsCmds u (setRingState (endTurn ring u) ring x) := fun u x =>
    (endTurn_keepsCmds ring u).trans (setRingState_keepsCmds _ _ _)
  unfold ringAfter
  dsimp only
  split
  · exact key _ ((((actionDone_keepsCmds _ _ _).trans (disableRing_keepsCmds _ _)).trans (endTurn_keepsCmds _ _)).trans
      (viResetCheck_keepsCmds _))
  · apply key
    refine (h1 (ringDeferred s ring) (ctxOwner (ctxOfRing s ring)) _).trans ?_
    generalize (if ringDeferred s ring = none then _ else _ : State) = u
    split
    · split
      · exact h2 _ _
      · exact (h2 _ _).trans (skipAll_keepsCmds _ _)
    · split
      · exact h2 _ _
      · split
        · exact h2 _ _
        · exact setRingState_keepsCmds _ _ _

theorem completeCmd_gone (rc : RunCmd) (base : Status) (d r n : Nat) (s : State) :
    cmdOf (completeCmd rc base d r n s) rc.ring = none := by
  unfold completeCmd cmdOf
  dsimp only
  rw [(ringAfter_cmds _ _ _).2, List.find?_eq_none]
  intro x hx
  simpa using (List.mem_filter.mp hx).2

theorem completeCmd_released (rc : RunCmd) (base : Status) (d r n : Nat) (s : State) :
    (completeCmd rc base d r n s).rings.holder ≠ some rc.ring := by
  unfold completeCmd
  dsimp only
  rw [(ringAfter_cmds _ _ _).1]
  split <;> simp_all

end Sys2Proof.Machine
end

