-- ==== Sys2Proof/Laws/Done.lean ====
section
/-! SUPPORT. What the completion of a command does, said once: its record, its notification word, its ring. -/

namespace Sys2Proof.Machine

set_option Elab.async false

/-! ## Cached contexts -/

theorem cacheEntry_eq {s t : State} (h : t.rings.cache = s.rings.cache) (r : Nat) : cacheEntry t r = cacheEntry s r := by
  unfold cacheEntry; rw [h]

theorem ctxOfRing_cached {s : State} {r : Nat} {e : CtxEntry} (h : cacheEntry s r = some e) : ctxOfRing s r = e.ctx := by
  unfold ctxOfRing; rw [h]

theorem ctxOfRing_eq {s t : State} {r : Nat} (h : t.rings.cache = s.rings.cache) (hc : (cacheEntry s r).isSome) :
    ctxOfRing t r = ctxOfRing s r := by
  obtain ⟨e, he⟩ := Option.isSome_iff_exists.mp hc
  rw [ctxOfRing_cached he, ctxOfRing_cached ((cacheEntry_eq h r).trans he)]

theorem find_updateWhere (l : List CtxEntry) (r : Nat) (f : CtxEntry → CtxEntry) (hf : ∀ e, (f e).ring = e.ring) :
    (updateWhere (fun e => decide (e.ring = r)) f l).find? (fun e => decide (e.ring = r))
      = (l.find? (fun e => decide (e.ring = r))).map f := by
  unfold updateWhere
  induction l with
  | nil => rfl
  | cons x rest ih =>
    rw [List.map_cons, List.find?_cons, List.find?_cons]
    by_cases h : x.ring = r
    · simp [h, hf]
    · have hx : (if (fun e : CtxEntry => decide (e.ring = r)) x = true then f x else x) = x := by simp [h]
      rw [hx]
      simpa [h] using ih

theorem setCtx_cached {s : State} {r : Nat} {e : CtxEntry} (c : RingCtx) (h : cacheEntry s r = some e) :
    cacheEntry (setCtx s r c) r = some { e with ctx := c, dirty := true } := by
  unfold setCtx
  rw [h]
  unfold cacheEntry at h ⊢
  dsimp only
  rw [find_updateWhere _ _ (fun e => { e with ctx := c, dirty := true }) (fun _ => rfl), h]
  rfl

theorem ctxOfRing_modCtx {s : State} {r : Nat} (f : RingCtx → RingCtx) (h : (cacheEntry s r).isSome) :
    ctxOfRing (modCtx s r f) r = f (ctxOfRing s r) := by
  obtain ⟨e, he⟩ := Option.isSome_iff_exists.mp h
  exact ctxOfRing_cached (setCtx_cached _ he)

theorem cacheEntry_modCtx {s : State} {r : Nat} (f : RingCtx → RingCtx) (h : (cacheEntry s r).isSome) :
    (cacheEntry (modCtx s r f) r).isSome := by
  obtain ⟨e, he⟩ := Option.isSome_iff_exists.mp h
  rw [modCtx, setCtx_cached _ he]
  rfl

/-- A cached context's change leaves memories and time. -/
theorem modCtx_rest {s : State} {r : Nat} (f : RingCtx → RingCtx) (h : (cacheEntry s r).isSome) :
    (modCtx s r f).tclk = s.tclk ∧ (modCtx s r f).twin = s.twin
      ∧ (∀ sp a, readByte (modCtx s r f) sp a = readByte s sp a) ∧ (modCtx s r f).rings.deferred = s.rings.deferred
      ∧ (modCtx s r f).ctl = s.ctl := by
  obtain ⟨e, he⟩ := Option.isSome_iff_exists.mp h
  unfold modCtx setCtx
  rw [he]
  refine ⟨rfl, rfl, ?_, rfl, rfl⟩
  intro sp a
  cases sp <;> rfl

/-! ## Reading after the unit's own writes -/

theorem readByte_mem {s t : State} (h1 : t.dev = s.dev) (h2 : t.tile = s.tile) (h3 : t.twinTile = s.twinTile) (sp : Space) (a : Nat) :
    readByte t sp a = readByte s sp a := by
  unfold readByte getMem
  cases sp <;> simp [h1, h2, h3]

theorem isSecondary_eq {s t : State} (h1 : t.twin.mode = s.twin.mode) (h2 : t.twin.primary = s.twin.primary) :
    isSecondary t = isSecondary s := by
  unfold isSecondary; rw [h1, h2]

theorem readByte_devWriteFor_same (v : ViId) (s : State) (a i : Nat) (bs : List Byte) (hp : isSecondary s = false)
    (hi : i < bs.length) (hl : bs.length ≤ 2 ^ 64) : readByte (devWriteFor v s a bs) .device (a + i) = bs[i] := by
  rw [← readByte_devWrite_same s a i bs hp hi hl]
  unfold devWriteFor
  exact readByte_mem (by simp) (by simp) (by simp) _ _

theorem readByte_devWriteFor_other (v : ViId) (s : State) (sp : Space) (a c : Nat) (bs : List Byte)
    (hc : sp = .device → ∀ i < bs.length, spaceAddr .device c ≠ spaceAddr .device (a + i)) :
    readByte (devWriteFor v s a bs) sp c = readByte s sp c := by
  have h : readByte (devWriteFor v s a bs) sp c = readByte (devWrite s a bs) sp c := by
    unfold devWriteFor
    exact readByte_mem (by simp) (by simp) (by simp) _ _
  rw [h]
  cases sp with
  | device => exact readByte_devWrite_other s a c bs (hc rfl)
  | tile => simp [readByte, getMem]
  | twin => simp [readByte, getMem]

theorem natBytes_length (n x : Nat) : (natBytes n x).length = n := by
  induction n generalizing x with
  | zero => rfl
  | succ n ih => simp [natBytes, ih]

theorem cplBytes_length (x : Cpl) (p : Bool) (t : Nat) : (cplBytes x p t).length = 32 := by
  simp [cplBytes, natBytes_length]

/-! ## The record and the notification word -/

/-- What a completion's two writes show, from the state before them. -/
structure Written (s t : State) (ring : Nat) (x : Cpl) : Prop where
  stamp  : ∀ i < 32, isSecondary s = false →
    readByte t .device (cplAddr (ctxOfRing s ring) (ctxOfRing s ring).cpli.toNat + i)
      = (cplBytes x (cplPhase (ctxOfRing s ring) (ctxOfRing s ring).cpli.toNat) t.tclk.toNat).getD i 0
  other  : ∀ sp a, ¬ (sp = .device ∧ ∃ i < 32, spaceAddr .device a
      = spaceAddr .device (cplAddr (ctxOfRing s ring) (ctxOfRing s ring).cpli.toNat + i)) → readByte t sp a = readByte s sp a
  ctx    : ctxOfRing t ring = { ctxOfRing s ring with cpli := (ctxOfRing s ring).cpli + 1 }
  cached : (cacheEntry t ring).isSome
  deferred : t.rings.deferred = s.rings.deferred
  second : isSecondary t = isSecondary s

theorem writeCpl_written (ring : Nat) (x : Cpl) (s : State) (hc : (cacheEntry s ring).isSome) :
    Written s (writeCpl ring x s) ring x := by
  have ht : (tick s).rings.cache = s.rings.cache := by simp
  have hx : ctxOfRing (tick s) ring = ctxOfRing s ring := ctxOfRing_eq ht hc
  unfold writeCpl
  dsimp only
  rw [hx]
  generalize hu : devWriteFor (ctxOwner (ctxOfRing s ring)) (tick s) (cplAddr (ctxOfRing s ring) (ctxOfRing s ring).cpli.toNat)
    (cplBytes x (cplPhase (ctxOfRing s ring) (ctxOfRing s ring).cpli.toNat) (tick s).tclk.toNat) = u
  generalize hw : (if x.flags = 0 then _ else _ : State) = w
  have key : w.dev = u.dev ∧ w.tile = u.tile ∧ w.twinTile = u.twinTile ∧ w.rings = u.rings ∧ w.tclk = u.tclk
      ∧ w.twin.mode = u.twin.mode ∧ w.twin.primary = u.twin.primary := by
    have hl : ∀ (y : State) (l : List Nat), (lockstepFold l y).twin.mode = y.twin.mode ∧ (lockstepFold l y).twin.primary = y.twin.primary := by
      intro y l
      unfold lockstepFold
      split <;> exact ⟨rfl, rfl⟩
    rw [← hw]
    split <;> refine ⟨?_, ?_, ?_, ?_, ?_, ?_, ?_⟩ <;> first | (simp; done) | (simp [modVi, setVi, hl])
  obtain ⟨k1, k2, k3, k4, k5, k6, k7⟩ := key
  have hru : u.rings = s.rings := by rw [← hu]; simp
  have hcw : (cacheEntry w ring).isSome := by rw [cacheEntry_eq (t := w) (s := s) (by rw [k4, hru])]; exact hc
  have hr := modCtx_rest (r := ring) (fun c => { c with cpli := c.cpli + 1 }) hcw
  have hcx : ctxOfRing w ring = ctxOfRing s ring := ctxOfRing_eq (by rw [k4, hru]) hc
  have hut : u.tclk = (tick s).tclk := by rw [← hu]; simp
  have htick : ∀ sp a, readByte (tick s) sp a = readByte s sp a := fun sp a => readByte_mem (by simp) (by simp) (by simp) sp a
  refine ⟨?_, ?_, ?_, cacheEntry_modCtx _ hcw, ?_, ?_⟩
  · intro i hi hs
    rw [hr.2.2.1, readByte_mem k1 k2 k3, hr.1, k5, hut, ← hu]
    have hl := cplBytes_length x (cplPhase (ctxOfRing s ring) (ctxOfRing s ring).cpli.toNat) (tick s).tclk.toNat
    rw [readByte_devWriteFor_same _ _ _ i _ (by rw [← hs]; exact isSecondary_eq (by simp) (by simp)) (by omega) (by omega)]
    rw [List.getD_eq_getElem _ _ (by omega)]
  · intro sp a ha
    rw [hr.2.2.1, readByte_mem k1 k2 k3, ← hu, readByte_devWriteFor_other, htick]
    intro hsp i hi he
    rw [cplBytes_length] at hi
    exact ha ⟨hsp, i, hi, he⟩
  · rw [ctxOfRing_modCtx _ hcw, hcx]
  · rw [hr.2.2.2.1, k4, hru]
  · refine isSecondary_eq ?_ ?_
    · rw [hr.2.1, k6, ← hu]; simp
    · rw [hr.2.1, k7, ← hu]; simp

/-- The notification word: where it stands, and that nothing else changes. -/
theorem writeNotify_word (ring n : Nat) (s : State) (hs : isSecondary s = false) (h0 : (ctxOfRing s ring).notify ≠ 0) (i : Nat) (hi : i < 8) :
    readByte (writeNotify ring n s) .device ((ctxOfRing s ring).notify.toNat + i) = (natBytes 8 n).getD i 0 := by
  unfold writeNotify
  simp only [h0, if_false]
  rw [readByte_devWriteFor_same _ _ _ i _ hs (by simpa [natBytes_length] using hi) (by simp [natBytes_length]),
    List.getD_eq_getElem _ _ (by simpa [natBytes_length] using hi)]

theorem writeNotify_other (ring n : Nat) (s : State) (sp : Space) (a : Nat)
    (h : ¬ (sp = .device ∧ (ctxOfRing s ring).notify ≠ 0 ∧ ∃ i < 8, spaceAddr .device a = spaceAddr .device ((ctxOfRing s ring).notify.toNat + i))) :
    readByte (writeNotify ring n s) sp a = readByte s sp a := by
  unfold writeNotify
  dsimp only
  split
  · rfl
  · rename_i h0
    refine readByte_devWriteFor_other _ _ _ _ _ _ ?_
    intro hsp i hi he
    rw [natBytes_length] at hi
    exact h ⟨hsp, h0, i, hi, he⟩

theorem writeNotify_rest (ring n : Nat) (s : State) :
    (writeNotify ring n s).rings = s.rings ∧ (writeNotify ring n s).tclk = s.tclk ∧ (writeNotify ring n s).twin = s.twin := by
  unfold writeNotify
  dsimp only
  split <;> simp

/-! ## The ring -/

/-- A ring on which nothing waits, after a completion whose status HALT does not name. -/
theorem ringAfter_plain (ring : Nat) (st : Status) (s : State) (hc : (cacheEntry s ring).isSome) (hd : ringDeferred s ring = none)
    (hh : bit (ctxOfRing s ring).halt (statusCode st) = false) :
    ctxOfRing (ringAfter ring st s) ring = { ctxOfRing s ring with
        state := if (ctxOfRing s ring).head = (ctxOfRing s ring).tail then .idle else .ready }
      ∧ (ringAfter ring st s).tclk = s.tclk ∧ ∀ sp a, readByte (ringAfter ring st s) sp a = readByte s sp a := by
  unfold ringAfter
  dsimp only
  rw [hd]
  simp only [hh, Bool.false_eq_true, if_false, if_true]
  generalize hu : dropCmd { s with rings := { s.rings with holder := if s.rings.holder = some ring then none else s.rings.holder } } ring = u
  have hcu : (cacheEntry u ring).isSome := by rw [← hu]; exact hc
  have hcx : ctxOfRing u ring = ctxOfRing s ring := by rw [← hu]; exact ctxOfRing_eq rfl hc
  have hm : ∀ sp a, readByte u sp a = readByte s sp a := by
    intro sp a
    rw [← hu]
    exact readByte_mem rfl rfl rfl sp a
  have hx : (none : Option Deferred) = some .pause ↔ False := by simp
  simp only [hx, if_false]
  have key : ∀ (w : State) (x : RingState), w.rings.cache = u.rings.cache → w.tclk = u.tclk → (∀ sp a, readByte w sp a = readByte u sp a) →
      ctxOfRing (setRingState w ring x) ring = { ctxOfRing s ring with state := x }
        ∧ (setRingState w ring x).tclk = s.tclk ∧ ∀ sp a, readByte (setRingState w ring x) sp a = readByte s sp a := by
    intro w x h1 h2 h3
    have hcw : (cacheEntry w ring).isSome := by rw [cacheEntry_eq h1]; exact hcu
    have hr := modCtx_rest (r := ring) (fun c => { c with state := x }) hcw
    unfold setRingState
    refine ⟨by rw [ctxOfRing_modCtx _ hcw, ctxOfRing_eq h1 hcu, hcx], by rw [hr.1, h2, ← hu]; rfl, fun sp a => ?_⟩
    rw [hr.2.2.1, h3, hm]
  have he : (endTurn ring u).rings.cache = u.rings.cache ∧ (endTurn ring u).tclk = u.tclk
      ∧ ∀ sp a, readByte (endTurn ring u) sp a = readByte u sp a := by
    unfold endTurn
    split
    · split
      · exact ⟨rfl, rfl, fun sp a => readByte_mem rfl rfl rfl sp a⟩
      · exact ⟨rfl, rfl, fun _ _ => rfl⟩
    · exact ⟨rfl, rfl, fun _ _ => rfl⟩
  split
  · exact key _ _ he.1 he.2.1 he.2.2
  · exact key _ _ rfl rfl (fun _ _ => rfl)

/-! ## The whole completion -/

/-- The state of a completion before its record is written. -/
def beforeRecord (rc : RunCmd) (base : Status) (detail result count : Nat) (s0 : State) : State :=
  let st := finalStatus rc base
  let s := writeViews rc.prog.reduced s0
  let s1 := match st with
    | .errorContained => poisonSlots rc (undefineRegs rc (undefineWrites rc s))
    | .retracted => undefineWrites rc s
    | _ => s
  let s2 := settleChain rc st s1
  appendRecord rc { seq := rc.seq.toNat, status := st, flags := rc.prog.flags,
                    detail := match st with | .badCommand => detail | .errorContained => detail | _ => 0,
                    result := result, count := count } (decide (st = .tainted)) (showTwin (cmdResults rc st s2) s2)

/-- The completion that a command gets. -/
def cplOf (rc : RunCmd) (base : Status) (detail result count : Nat) : Cpl :=
  { seq := rc.seq.toNat, status := finalStatus rc base, flags := rc.prog.flags,
    detail := match finalStatus rc base with | .badCommand => detail | .errorContained => detail | _ => 0,
    result := result, count := count }

theorem completeCmd_eq (rc : RunCmd) (base : Status) (d r n : Nat) (s : State) :
    completeCmd rc base d r n s = ringAfter rc.ring (finalStatus rc base)
      (if pkNotify rc.packet then writeNotify rc.ring rc.seq.toNat (writeCpl rc.ring (cplOf rc base d r n) (beforeRecord rc base d r n s))
       else writeCpl rc.ring (cplOf rc base d r n) (beforeRecord rc base d r n s)) := rfl

/-- What matters to a completion of the state that it is written in. -/
structure KeepsCtx (s t : State) : Prop where
  cache    : t.rings.cache = s.rings.cache
  deferred : t.rings.deferred = s.rings.deferred
  holder   : t.rings.holder = s.rings.holder
  mode     : t.twin.mode = s.twin.mode
  primary  : t.twin.primary = s.twin.primary

theorem KeepsCtx.refl (s : State) : KeepsCtx s s := ⟨rfl, rfl, rfl, rfl, rfl⟩
theorem KeepsCtx.trans {s t u : State} (h : KeepsCtx s t) (k : KeepsCtx t u) : KeepsCtx s u :=
  ⟨k.cache.trans h.cache, k.deferred.trans h.deferred, k.holder.trans h.holder, k.mode.trans h.mode, k.primary.trans h.primary⟩
theorem Near.keepsCtx {s t : State} (h : Near s t) : KeepsCtx s t := ⟨h.cache, h.deferred, h.holder, h.mode, h.primary⟩

theorem KeepsCtx.foldl {β : Type} (f : State → β → State) (hf : ∀ s x, KeepsCtx s (f s x)) (l : List β) (s : State) :
    KeepsCtx s (l.foldl f s) := by
  induction l generalizing s with
  | nil => exact KeepsCtx.refl s
  | cons x rest ih => exact (hf s x).trans (ih _)

theorem undefineWrites_keepsCtx (rc : RunCmd) (s : State) : KeepsCtx s (undefineWrites rc s) := by
  refine KeepsCtx.foldl _ (fun s x => ?_) _ s
  dsimp only
  cases x.2.1 <;> exact ⟨rfl, rfl, rfl, rfl, rfl⟩

theorem undefineRegs_keepsCtx (rc : RunCmd) (s : State) : KeepsCtx s (undefineRegs rc s) := by
  refine KeepsCtx.foldl _ (fun s x => ?_) _ s
  exact ⟨rfl, rfl, rfl, rfl, rfl⟩

theorem poisonSlots_keepsCtx (rc : RunCmd) (s : State) : KeepsCtx s (poisonSlots rc s) := by
  refine KeepsCtx.foldl _ (fun s h => ?_) _ s
  split
  · exact (modSlot_near _ _ _).keepsCtx
  · exact KeepsCtx.refl s

theorem beforeRecord_keepsCtx (rc : RunCmd) (base : Status) (d r n : Nat) (s : State) : KeepsCtx s (beforeRecord rc base d r n s) := by
  unfold beforeRecord
  refine (writeViews_near rc.prog.reduced s).keepsCtx.trans ?_
  generalize writeViews rc.prog.reduced s = s
  dsimp only
  refine KeepsCtx.trans ?_ (((settleChain_aside _ _ _).trans (showTwin_aside _ _)).toNear.trans (appendRecord_near _ _ _ _)).keepsCtx
  split
  · exact ((undefineWrites_keepsCtx _ _).trans (undefineRegs_keepsCtx _ _)).trans (poisonSlots_keepsCtx _ _)
  · exact undefineWrites_keepsCtx _ _
  · exact KeepsCtx.refl s

/-- A completion: the command is gone, the chain no longer its own, the record and the notification word written, the ring moved on. -/
theorem completeCmd_completed (rc : RunCmd) (base : Status) (d r n : Nat) (s : State)
    (hc : (cacheEntry s rc.ring).isSome) :
    Completed s (completeCmd rc base d r n s) rc (cplOf rc base d r n) := by
  have hk := beforeRecord_keepsCtx rc base d r n s
  have hb : (cacheEntry (beforeRecord rc base d r n s) rc.ring).isSome := by rw [cacheEntry_eq hk.cache]; exact hc
  have hx : ctxOfRing (beforeRecord rc base d r n s) rc.ring = ctxOfRing s rc.ring := ctxOfRing_eq hk.cache hc
  have hw := writeCpl_written rc.ring (cplOf rc base d r n) _ hb
  have hs1 : isSecondary (beforeRecord rc base d r n s) = isSecondary s := isSecondary_eq hk.mode hk.primary
  have hst : (cplOf rc base d r n).status = finalStatus rc base := rfl
  generalize hv : writeCpl rc.ring (cplOf rc base d r n) (beforeRecord rc base d r n s) = v at hw
  have hvd : ringDeferred v rc.ring = ringDeferred s rc.ring := by
    unfold ringDeferred
    rw [hw.deferred, hk.deferred]
  have hvx : ctxOfRing v rc.ring = { ctxOfRing s rc.ring with cpli := (ctxOfRing s rc.ring).cpli + 1 } := by rw [hw.ctx, hx]
  have hvs : isSecondary v = isSecondary s := by rw [hw.second, hs1]
  generalize hz : (if pkNotify rc.packet then writeNotify rc.ring rc.seq.toNat v else v) = z
  have hzr : z.rings = v.rings := by rw [← hz]; split <;> simp [writeNotify_rest]
  have hzt : z.tclk = v.tclk := by rw [← hz]; split <;> simp [writeNotify_rest]
  have hzc : (cacheEntry z rc.ring).isSome := by rw [cacheEntry_eq (t := z) (s := v) (by rw [hzr])]; exact hw.cached
  have hzd : ringDeferred z rc.ring = ringDeferred s rc.ring := by unfold ringDeferred at hvd ⊢; rw [hzr]; exact hvd
  have hzx : ctxOfRing z rc.ring = { ctxOfRing s rc.ring with cpli := (ctxOfRing s rc.ring).cpli + 1 } := by
    rw [ctxOfRing_eq (t := z) (s := v) (by rw [hzr]) hw.cached, hvx]
  have he : completeCmd rc base d r n s = ringAfter rc.ring (finalStatus rc base) z := by
    rw [completeCmd_eq, hv, hz]
  have hzo : ∀ sp a, ¬ (sp = .device ∧ notifyHolds (ctxOfRing s rc.ring) rc a) → readByte z sp a = readByte v sp a := by
    intro sp a ha
    rw [← hz]
    split
    · rename_i hn
      refine writeNotify_other _ _ _ _ _ ?_
      rw [hvx]
      rintro ⟨h1, h2, h3⟩
      exact ha ⟨h1, hn, h2, h3⟩
    · rfl
  refine ⟨completeCmd_gone _ _ _ _ _ _, ?_, ?_, ?_, ?_⟩
  · rw [he, (ringAfter_cmds _ _ _).1]
    rw [hzr, ← hv, (writeCpl_keepsCmds _ _ _).holder, hk.holder]
  · intro hp hs i hi hn
    have ha := ringAfter_plain rc.ring (finalStatus rc base) z hzc (hzd.trans hp.1) (by rw [hzx]; exact hp.2)
    have hst2 := hw.stamp i hi (hs1.trans hs)
    rw [hx] at hst2
    rw [he, ha.2.2, ha.2.1, hzt, hzo _ _ (fun h => hn h.2), hst2]
  · intro hp hs hn h0 i hi
    have ha := ringAfter_plain rc.ring (finalStatus rc base) z hzc (hzd.trans hp.1) (by rw [hzx]; exact hp.2)
    rw [he, ha.2.2, ← hz, if_pos hn]
    have hv0 : (ctxOfRing v rc.ring).notify = (ctxOfRing s rc.ring).notify := by rw [hvx]
    rw [← hv0]
    exact writeNotify_word _ _ _ (hvs.trans hs) (by rw [hv0]; exact h0) i hi
  · intro hp
    have ha := ringAfter_plain rc.ring (finalStatus rc base) z hzc (hzd.trans hp.1) (by rw [hzx]; exact hp.2)
    rw [he, ha.1, hzx]

theorem settleChain_chainless {rc : RunCmd} (h : chainless rc.packet) (st : Status) (s : State) : settleChain rc st s = s := by
  unfold settleChain
  rcases h with h | h
  · simp [h]
  · simp [chainOpcodes, h]

/-- A completion of a command that names no chain and keeps no digest record leaves every other byte as it is. -/
theorem completeCmd_readByte (rc : RunCmd) (base : Status) (d r n : Nat) (s : State)
    (hc : (cacheEntry s rc.ring).isSome) (hd : ringDeferred s rc.ring = none)
    (hp : bit (ctxOfRing s rc.ring).halt (statusCode (finalStatus rc base)) = false)
    (h1 : finalStatus rc base ≠ .errorContained) (h2 : finalStatus rc base ≠ .retracted)
    (h3 : chainless rc.packet) (h4 : pkRecord rc.packet = false) (sp : Space) (a : Nat)
    (ha : ¬ cplHolds (ctxOfRing s rc.ring) rc sp a) : readByte (completeCmd rc base d r n s) sp a = readByte s sp a := by
  have hk := beforeRecord_keepsCtx rc base d r n s
  have hb0 : ∀ sp a, readByte (beforeRecord rc base d r n s) sp a = readByte s sp a := by
    intro sp a
    have hv : (writeViews rc.prog.reduced s).dev = s.dev := by
      refine foldl_keeps (fun u => u.dev) _ (fun u x => ?_) _ s
      split
      · exact modSlot_dev _ _ _
      · rfl
    have hn := writeViews_near rc.prog.reduced s
    rw [← readByte_mem hv hn.tile hn.twinTile sp a]
    unfold beforeRecord
    generalize writeViews rc.prog.reduced s = s
    dsimp only
    have hs : (match finalStatus rc base with
        | .errorContained => poisonSlots rc (undefineRegs rc (undefineWrites rc s))
        | .retracted => undefineWrites rc s
        | _ => s) = s := by
      split
      · contradiction
      · contradiction
      · rfl
    rw [hs, settleChain_chainless h3]
    unfold appendRecord
    simp only [h4, Bool.not_false, if_true]
    exact readByte_mem (by simp) (by simp) (by simp) sp a
  have hbx : ctxOfRing (beforeRecord rc base d r n s) rc.ring = ctxOfRing s rc.ring := ctxOfRing_eq hk.cache hc
  rw [← hb0 sp a]
  rw [← hbx] at ha hp
  have hd : ringDeferred (beforeRecord rc base d r n s) rc.ring = none := by unfold ringDeferred at hd ⊢; rw [hk.deferred]; exact hd
  have hc : (cacheEntry (beforeRecord rc base d r n s) rc.ring).isSome := by rw [cacheEntry_eq hk.cache]; exact hc
  rw [completeCmd_eq]
  generalize beforeRecord rc base d r n s = s at hd hc hp ha ⊢
  have hw := writeCpl_written rc.ring (cplOf rc base d r n) s hc
  generalize hv : writeCpl rc.ring (cplOf rc base d r n) s = v at hw ⊢
  generalize hz : (if pkNotify rc.packet then writeNotify rc.ring rc.seq.toNat v else v) = z
  have hzr : z.rings = v.rings := by rw [← hz]; split <;> simp [writeNotify_rest]
  have hzc : (cacheEntry z rc.ring).isSome := by rw [cacheEntry_eq (t := z) (s := v) (by rw [hzr])]; exact hw.cached
  have hzd : ringDeferred z rc.ring = none := by
    unfold ringDeferred at hd ⊢
    rw [hzr, hw.deferred]
    exact hd
  have hzx : ctxOfRing z rc.ring = { ctxOfRing s rc.ring with cpli := (ctxOfRing s rc.ring).cpli + 1 } := by
    rw [ctxOfRing_eq (t := z) (s := v) (by rw [hzr]) hw.cached, hw.ctx]
  rw [(ringAfter_plain rc.ring (finalStatus rc base) z hzc hzd (by rw [hzx]; exact hp)).2.2, ← hz]
  have hvr : readByte v sp a = readByte s sp a := hw.other sp a (fun h => ha ⟨h.1, Or.inl h.2⟩)
  split
  · rename_i hn
    rw [writeNotify_other, hvr]
    rw [hw.ctx]
    rintro ⟨h5, h6, h7⟩
    exact ha ⟨h5, Or.inr ⟨hn, h6, h7⟩⟩
  · exact hvr

/-- A completion after work that keeps the ring's context. -/
theorem Completed.after {s u t : State} {rc rc' : RunCmd} {x : Cpl} (k : KeepsCtx s u) (hr : rc'.ring = rc.ring)
    (hp : rc'.packet = rc.packet) (hq : rc'.seq = rc.seq) (hc : (cacheEntry s rc.ring).isSome) (h : Completed u t rc' x) :
    Completed s t rc x := by
  have hx : ctxOfRing u rc.ring = ctxOfRing s rc.ring := ctxOfRing_eq k.cache hc
  have hd : ringDeferred u rc.ring = ringDeferred s rc.ring := by unfold ringDeferred; rw [k.deferred]
  have hs : isSecondary u = isSecondary s := isSecondary_eq k.mode k.primary
  have hn : ∀ c a, notifyHolds c rc' a = notifyHolds c rc a := fun c a => by unfold notifyHolds; rw [hp]
  have he : ∀ st, plainEnd u rc' st = plainEnd s rc st := fun st => by unfold plainEnd; rw [hr, hd, hx]
  refine ⟨hr ▸ h.gone, ?_, ?_, ?_, ?_⟩
  · rw [h.free, k.holder, hr]
  · have := h.record
    simp only [hr, hx, hs, hn, he] at this
    exact this
  · have := h.word
    simp only [hr, hx, hs, he, hp, hq] at this
    exact this
  · have := h.ring
    simp only [hr, hx, he] at this
    exact this

/-- A ring command whose meaning keeps the queue and the configuration. -/
theorem command_next {f : State → State} {s : State} (h : Frame s (f s)) : command f s = .next (f s) := by
  unfold command
  rw [← h.pending, ← h.cfg]

end Sys2Proof.Machine
end

