-- ==== Sys2Proof/Laws/Writes.lean ====
section
/-! SUPPORT. The write buffer: a record written through it is read back byte by byte, and every other byte reads as before. -/

namespace Sys2Proof.Machine

set_option Elab.async false

/-! ## Sectors of a list of writes -/

/-- The byte that sorted writes hold for an offset of a sector. -/
def groupGet (sp : Space) (k o : Nat) (x : SectorBytes) : Option Byte :=
  if x.space = sp ∧ x.sector = k then (x.bytes.find? (fun y => decide (y.1 = o))).map (fun y => y.2) else none

def groupsGet (l : List SectorBytes) (sp : Space) (k o : Nat) : Option Byte := l.findSome? (groupGet sp k o)

theorem find_filter_ne (l : List (Nat × Byte)) {o p : Nat} (h : p ≠ o) :
    (l.filter (fun y => decide (y.1 ≠ o))).find? (fun y => decide (y.1 = p)) = l.find? (fun y => decide (y.1 = p)) := by
  induction l with
  | nil => rfl
  | cons y rest ih =>
    by_cases hy : y.1 = o
    · have : y.1 ≠ p := fun hh => h (hh.symm.trans hy)
      simp [hy, ih, List.find?_cons]
      simp [Ne.symm h]
      simpa using ih
    · have : decide (y.1 ≠ o) = true := by simpa using hy
      have hf : (y :: rest).filter (fun y => decide (y.1 ≠ o)) = y :: rest.filter (fun y => decide (y.1 ≠ o)) := by
        rw [List.filter_cons, if_pos this]
      rw [hf, List.find?_cons, List.find?_cons, ih]

theorem groupsGet_sectorAdd (acc : List SectorBytes) (sp sq : Space) (a k o : Nat) (b : Byte) :
    groupsGet (sectorAdd sp a b acc) sq k o
      = if sq = sp ∧ k = a / 64 ∧ o = a % 64 then some b else groupsGet acc sq k o := by
  induction acc with
  | nil =>
    simp only [sectorAdd, groupsGet, List.findSome?_cons, List.findSome?_nil, groupGet]
    by_cases h1 : sp = sq ∧ a / 64 = k
    · by_cases h2 : a % 64 = o
      · simp [h1, h2]
      · simp [h1, h2, Ne.symm h2]
    · have : ¬ (sq = sp ∧ k = a / 64 ∧ o = a % 64) := fun h => h1 ⟨h.1.symm, h.2.1.symm⟩
      simp [h1, this]
  | cons x rest ih =>
    by_cases hx : x.space = sp ∧ x.sector = a / 64
    · have hs : sectorAdd sp a b (x :: rest)
          = { x with bytes := (a % 64, b) :: x.bytes.filter (fun y => decide (y.1 ≠ a % 64)) } :: rest := by simp [sectorAdd, hx]
      rw [hs]
      simp only [groupsGet, List.findSome?_cons, groupGet]
      by_cases h1 : x.space = sq ∧ x.sector = k
      · by_cases h2 : o = a % 64
        · have : sq = sp ∧ k = a / 64 ∧ o = a % 64 := ⟨h1.1.symm.trans hx.1, h1.2.symm.trans hx.2, h2⟩
          simp [h1, h2, this]
        · have hne : ¬ (sq = sp ∧ k = a / 64 ∧ o = a % 64) := fun h => h2 h.2.2
          have h2' : (decide (a % 64 = o)) = false := by simpa using fun h => h2 h.symm
          rw [if_pos h1, if_neg hne, if_pos h1, List.find?_cons, h2', find_filter_ne _ h2]
      · have hne : ¬ (sq = sp ∧ k = a / 64 ∧ o = a % 64) := fun h => h1 ⟨hx.1.trans h.1.symm, hx.2.trans h.2.1.symm⟩
        simp [h1, hne]
    · have hs : sectorAdd sp a b (x :: rest) = x :: sectorAdd sp a b rest := by simp [sectorAdd, hx]
      rw [hs]
      simp only [groupsGet, List.findSome?_cons] at ih ⊢
      rw [ih]
      by_cases h1 : x.space = sq ∧ x.sector = k
      · have hne : ¬ (sq = sp ∧ k = a / 64 ∧ o = a % 64) := fun h => hx ⟨h1.1.trans h.1, h1.2.trans h.2.1⟩
        simp [hne]
      · simp [groupGet, h1]

/-! ## Distinct sectors, distinct offsets -/

/-- Every sector is listed once, and each of its offsets once. -/
def GroupsOk (l : List SectorBytes) : Prop :=
  l.Pairwise (fun x y => ¬ (x.space = y.space ∧ x.sector = y.sector)) ∧ ∀ x ∈ l, x.bytes.Pairwise (fun y z => y.1 ≠ z.1)

theorem sectorAdd_mem {acc : List SectorBytes} {sp : Space} {a : Nat} {b : Byte} {x : SectorBytes} (h : x ∈ sectorAdd sp a b acc) :
    (x.space = sp ∧ x.sector = a / 64) ∨ x ∈ acc := by
  induction acc with
  | nil => simp [sectorAdd] at h; left; rw [h]; exact ⟨rfl, rfl⟩
  | cons y rest ih =>
    by_cases hy : y.space = sp ∧ y.sector = a / 64
    · simp only [sectorAdd, hy, and_self, if_true, List.mem_cons] at h
      rcases h with h | h
      · left; rw [h]; exact ⟨rfl, rfl⟩
      · right; simp [h]
    · simp only [sectorAdd, hy, if_false, List.mem_cons] at h
      rcases h with h | h
      · right; simp [h]
      · rcases ih h with h | h
        · exact Or.inl h
        · right; simp [h]

theorem sectorAdd_ok (acc : List SectorBytes) (sp : Space) (a : Nat) (b : Byte) (h : GroupsOk acc) : GroupsOk (sectorAdd sp a b acc) := by
  induction acc with
  | nil => simp [sectorAdd, GroupsOk]
  | cons y rest ih =>
    obtain ⟨h1, h2⟩ := h
    rw [List.pairwise_cons] at h1
    have hrest : GroupsOk rest := ⟨h1.2, fun x hx => h2 x (by simp [hx])⟩
    by_cases hy : y.space = sp ∧ y.sector = a / 64
    · have hs : sectorAdd sp a b (y :: rest)
          = { y with bytes := (a % 64, b) :: y.bytes.filter (fun z => decide (z.1 ≠ a % 64)) } :: rest := by simp [sectorAdd, hy]
      rw [hs]
      refine ⟨List.pairwise_cons.mpr ⟨h1.1, h1.2⟩, ?_⟩
      intro x hx
      rcases List.mem_cons.mp hx with hx | hx
      · rw [hx]
        refine List.pairwise_cons.mpr ⟨?_, (h2 y (by simp)).filter _⟩
        intro z hz
        simpa using Ne.symm (by simpa using (List.mem_filter.mp hz).2)
      · exact h2 x (by simp [hx])
    · have hs : sectorAdd sp a b (y :: rest) = y :: sectorAdd sp a b rest := by simp [sectorAdd, hy]
      rw [hs]
      have ih' := ih hrest
      refine ⟨List.pairwise_cons.mpr ⟨?_, ih'.1⟩, ?_⟩
      · intro x hx hxy
        rcases sectorAdd_mem hx with h | h
        · exact hy ⟨hxy.1.trans h.1, hxy.2.trans h.2⟩
        · exact h1.1 x h hxy
      · intro x hx
        rcases List.mem_cons.mp hx with hx | hx
        · rw [hx]; exact h2 y (by simp)
        · exact ih'.2 x hx

theorem bySector_ok (l : List (Space × Nat × Byte)) : GroupsOk (bySector l) := by
  unfold bySector
  have : ∀ (l : List (Space × Nat × Byte)) acc, GroupsOk acc →
      GroupsOk (l.foldl (fun acc x => sectorAdd x.1 (spaceAddr x.1 x.2.1) x.2.2 acc) acc) := by
    intro l
    induction l with
    | nil => intro acc h; exact h
    | cons x rest ih => intro acc h; exact ih _ (sectorAdd_ok acc _ _ _ h)
  exact this l [] ⟨List.Pairwise.nil, by simp⟩

/-- The byte that a list of writes leaves at an address: its last. -/
def lastWrite (l : List (Space × Nat × Byte)) (sp : Space) (c : Nat) : Option Byte :=
  (l.reverse.find? (fun x => decide (x.1 = sp) && decide (spaceAddr x.1 x.2.1 = c))).map (fun x => x.2.2)

theorem groupsGet_bySector (l : List (Space × Nat × Byte)) (sp : Space) (c : Nat) :
    groupsGet (bySector l) sp (c / 64) (c % 64) = lastWrite l sp c := by
  unfold bySector lastWrite
  have key : ∀ (l : List (Space × Nat × Byte)) acc,
      groupsGet (l.foldl (fun acc x => sectorAdd x.1 (spaceAddr x.1 x.2.1) x.2.2 acc) acc) sp (c / 64) (c % 64)
        = ((l.reverse.find? (fun x => decide (x.1 = sp) && decide (spaceAddr x.1 x.2.1 = c))).map (fun x => x.2.2)).or
            (groupsGet acc sp (c / 64) (c % 64)) := by
    intro l
    induction l with
    | nil => intro acc; simp
    | cons x rest ih =>
      intro acc
      rw [List.foldl_cons, ih, groupsGet_sectorAdd, List.reverse_cons, List.find?_append]
      cases hr : rest.reverse.find? (fun x => decide (x.1 = sp) && decide (spaceAddr x.1 x.2.1 = c)) with
      | some y => simp
      | none =>
        by_cases hx : x.1 = sp ∧ spaceAddr x.1 x.2.1 = c
        · have h2 : sp = x.1 ∧ c / 64 = spaceAddr x.1 x.2.1 / 64 ∧ c % 64 = spaceAddr x.1 x.2.1 % 64 := by
            rw [hx.2]; exact ⟨hx.1.symm, rfl, rfl⟩
          rw [if_pos h2]
          have h3 : (decide (x.1 = sp) && decide (spaceAddr x.1 x.2.1 = c)) = true := by simpa using hx
          simp only [List.find?_cons, h3]
          rfl
        · have h2 : ¬ (sp = x.1 ∧ c / 64 = spaceAddr x.1 x.2.1 / 64 ∧ c % 64 = spaceAddr x.1 x.2.1 % 64) := by
            rintro ⟨h3, h4, h5⟩
            exact hx ⟨h3.symm, by omega⟩
          rw [if_neg h2]
          have h3 : (decide (x.1 = sp) && decide (spaceAddr x.1 x.2.1 = c)) = false := by
            rw [Bool.eq_false_iff]; simpa using hx
          simp [List.find?_cons, h3]
  have := key l []
  rw [this]
  simp [groupsGet]

/-! ## Writing one sector -/

theorem readByte_countEvent (s : State) (c n : Nat) (v : Option ViId) (sp : Space) (a : Nat) :
    readByte (countEvent c n v s) sp a = readByte s sp a := by
  unfold readByte
  congr 1
  cases sp <;> simp [getMem]

theorem readByte_putSector (sp sq : Space) (k c : Nat) (bs : List (Nat × Byte)) (s : State)
    (hn : bs.Pairwise (fun y z => y.1 ≠ z.1)) (ho : ∀ y ∈ bs, spaceAddr sp (64 * k + y.1) = 64 * k + y.1) :
    readByte (putSector sp k bs s) sq c
      = match (if sq = sp then bs.find? (fun y => decide (64 * k + y.1 = spaceAddr sq c)) else none) with
        | some y => y.2
        | none => readByte s sq c := by
  unfold putSector
  induction bs generalizing s with
  | nil => split <;> simp_all
  | cons y rest ih =>
    rw [List.pairwise_cons] at hn
    rw [List.foldl_cons, ih _ hn.2 (fun z hz => ho z (by simp [hz]))]
    by_cases hs : sq = sp
    · subst hs
      simp only [if_true]
      by_cases hy : 64 * k + y.1 = spaceAddr sq c
      · have hno : rest.find? (fun y => decide (64 * k + y.1 = spaceAddr sq c)) = none := by
          rw [List.find?_eq_none]
          intro z hz
          have := hn.1 z hz
          simp; omega
        rw [hno, List.find?_cons]
        simp only [hy, decide_true]
        rw [readByte_writeByte, if_pos (by rw [← hy, ho y (by simp)])]
      · rw [List.find?_cons]
        have : decide (64 * k + y.1 = spaceAddr sq c) = false := by simpa using hy
        rw [this]
        dsimp only
        cases rest.find? (fun y => decide (64 * k + y.1 = spaceAddr sq c)) with
        | some z => rfl
        | none => 
          dsimp only
          rw [readByte_writeByte, if_neg (by rw [ho y (by simp)]; exact fun h => hy h.symm)]
    · simp only [hs, if_false]
      exact readByte_writeByte_space s _ _ _ hs

/-- Whether a group's offsets are below 64 and its sector exists in its memory. -/
def groupFits (x : SectorBytes) : Prop := ∀ y ∈ x.bytes, y.1 < 64 ∧ spaceAddr x.space (64 * x.sector + y.1) = 64 * x.sector + y.1

theorem sectorAdd_fits (acc : List SectorBytes) (sp : Space) (a : Nat) (b : Byte) (ha : spaceAddr sp a = a)
    (h : ∀ x ∈ acc, groupFits x) : ∀ x ∈ sectorAdd sp a b acc, groupFits x := by
  have hb : a % 64 < 64 ∧ spaceAddr sp (64 * (a / 64) + a % 64) = 64 * (a / 64) + a % 64 := by
    constructor
    · omega
    · rw [show 64 * (a / 64) + a % 64 = a by omega, ha]
  induction acc with
  | nil =>
    intro x hx
    simp [sectorAdd] at hx
    subst hx
    intro y hy
    simp at hy
    subst hy
    exact hb
  | cons z rest ih =>
    intro x hx
    by_cases hz : z.space = sp ∧ z.sector = a / 64
    · simp only [sectorAdd, hz, and_self, if_true, List.mem_cons] at hx
      rcases hx with hx | hx
      · subst hx
        intro y hy
        simp at hy
        rcases hy with hy | hy
        · subst hy; exact hb
        · have := h z (by simp) y hy.1
          rwa [hz.1, hz.2] at this
      · exact h x (by simp [hx])
    · simp only [sectorAdd, hz, if_false, List.mem_cons] at hx
      rcases hx with hx | hx
      · rw [hx]; exact h z (by simp)
      · exact ih (fun w hw => h w (by simp [hw])) x hx

theorem bySector_fits (l : List (Space × Nat × Byte)) : ∀ x ∈ bySector l, groupFits x := by
  have hi : ∀ sp a, spaceAddr sp (spaceAddr sp a) = spaceAddr sp a := by intro sp a; cases sp <;> simp [spaceAddr]
  unfold bySector
  have : ∀ (l : List (Space × Nat × Byte)) acc, (∀ x ∈ acc, groupFits x) →
      ∀ x ∈ l.foldl (fun acc x => sectorAdd x.1 (spaceAddr x.1 x.2.1) x.2.2 acc) acc, groupFits x := by
    intro l
    induction l with
    | nil => intro acc h; exact h
    | cons x rest ih => intro acc h; exact ih _ (sectorAdd_fits acc _ _ _ (hi _ _) h)
  exact this l [] (by simp)

/-- What one group's write does, whole or merged. -/
def WritesGroup (f : State → State) (x : SectorBytes) : Prop :=
  ∀ s sq c, (x.space = .device → isSecondary s = false) →
    readByte (f s) sq c = (groupGet sq (spaceAddr sq c / 64) (spaceAddr sq c % 64) x).getD (readByte s sq c)

theorem writeWhole_writes (v : ViId) (x : SectorBytes) (p : Bool) (hn : x.bytes.Pairwise (fun y z => y.1 ≠ z.1)) (hf : groupFits x) :
    WritesGroup (writeWhole v x.space x.sector x.bytes p) x := by
  intro s sq c hs
  unfold writeWhole
  have : (decide (x.space = .device) && isSecondary s) = false := by
    by_cases h : x.space = .device
    · simp [hs h]
    · simp [h]
  rw [this]
  simp only [Bool.false_eq_true, if_false]
  rw [readByte_setSectorPoison, readByte_putSector _ _ _ _ _ _ hn (fun y hy => (hf y hy).2)]
  unfold groupGet countSectorWrite
  rw [readByte_countEvent]
  by_cases hsp : sq = x.space
  · subst hsp
    simp only [if_true, true_and]
    by_cases hk : x.sector = spaceAddr x.space c / 64
    · have hfind : x.bytes.find? (fun y => decide (64 * x.sector + y.1 = spaceAddr x.space c))
          = x.bytes.find? (fun y => decide (y.1 = spaceAddr x.space c % 64)) := by
        congr 1
        funext y
        congr 1
        rw [hk]
        apply propext
        omega
      rw [if_pos hk, hfind]
      cases x.bytes.find? (fun y => decide (y.1 = spaceAddr x.space c % 64)) <;> rfl
    · have hfind : x.bytes.find? (fun y => decide (64 * x.sector + y.1 = spaceAddr x.space c)) = none := by
        rw [List.find?_eq_none]
        intro y hy
        have := (hf y hy).1
        simp; omega
      rw [if_neg hk, hfind]
      rfl
  · have h2 : ¬ (x.space = sq ∧ x.sector = spaceAddr sq c / 64) := fun h => hsp h.1.symm
    rw [if_neg hsp, if_neg h2]
    rfl

theorem countEvent_isSecondary (s : State) (c n : Nat) (v : Option ViId) : isSecondary (countEvent c n v s) = isSecondary s := by
  simp [isSecondary]

theorem mergeSector_writes (v : ViId) (x : SectorBytes) (p : Bool) (hn : x.bytes.Pairwise (fun y z => y.1 ≠ z.1)) (hf : groupFits x) :
    WritesGroup (mergeSector v ⟨x.space, x.sector, x.bytes, p⟩) x := by
  intro s sq c hs
  unfold mergeSector
  dsimp only
  split
  · rw [writeWhole_writes v x _ hn hf _ sq c (fun h => by simpa [isSecondary] using hs h)]
    simp only [readByte_countEvent]
  · rw [writeWhole_writes v x _ hn hf _ sq c (fun h => by simpa [isSecondary] using hs h)]
    simp only [readByte_countEvent]

/-! ## Writing all of them -/

theorem twin_putSector (sp : Space) (k : Nat) (bs : List (Nat × Byte)) (s : State) : (putSector sp k bs s).twin = s.twin := by
  unfold putSector
  exact foldl_keeps (fun s => s.twin) _ (fun s x => by simp) bs s

theorem twin_writeWhole (v : ViId) (sp : Space) (k : Nat) (bs : List (Nat × Byte)) (p : Bool) (s : State) :
    (writeWhole v sp k bs p s).twin = s.twin := by
  unfold writeWhole
  split
  · rfl
  · simp [twin_putSector, countSectorWrite]

theorem twin_mergeSector (v : ViId) (h : HeldSector) (s : State) : (mergeSector v h s).twin = s.twin := by
  unfold mergeSector
  dsimp only
  split <;> simp [twin_writeWhole]

theorem readByte_foldGroups (f : SectorBytes → State → State) (l : List SectorBytes) (s : State) (sq : Space) (c : Nat)
    (hw : ∀ x ∈ l, WritesGroup (f x) x) (ht : ∀ x s, (f x s).twin = s.twin)
    (hd : l.Pairwise (fun x y => ¬ (x.space = y.space ∧ x.sector = y.sector)))
    (hs : ∀ x ∈ l, x.space = .device → isSecondary s = false) :
    readByte (l.foldl (fun s x => f x s) s) sq c
      = (groupsGet l sq (spaceAddr sq c / 64) (spaceAddr sq c % 64)).getD (readByte s sq c) := by
  induction l generalizing s with
  | nil => rfl
  | cons x rest ih =>
    rw [List.pairwise_cons] at hd
    have hsec : isSecondary (f x s) = isSecondary s := by simp [isSecondary, ht]
    rw [List.foldl_cons, ih _ (fun y hy => hw y (by simp [hy])) hd.2 (fun y hy h => by rw [hsec]; exact hs y (by simp [hy]) h),
      hw x (by simp) s sq c (hs x (by simp))]
    unfold groupsGet
    rw [List.findSome?_cons]
    cases hx : groupGet sq (spaceAddr sq c / 64) (spaceAddr sq c % 64) x with
    | none => rfl
    | some b =>
      have hno : rest.findSome? (groupGet sq (spaceAddr sq c / 64) (spaceAddr sq c % 64)) = none := by
        rw [List.findSome?_eq_none_iff]
        intro y hy
        unfold groupGet at hx ⊢
        split at hx
        · next hk =>
          rw [if_neg]
          intro hy2
          exact hd.1 y hy ⟨hk.1.trans hy2.1.symm, hk.2.trans hy2.2.symm⟩
        · simp at hx
      rw [hno]
      rfl

/-- Writes with an empty buffer before and after them: each byte written reads as the last write to it, every other byte as
before. -/
theorem readByte_flushed (rc : RunCmd) (w : VecWrites) (s : State) (sq : Space) (c : Nat) (hh : rc.prog.held = [])
    (hs : isSecondary s = false) :
    readByte (flushSectors (bufferWrites rc w s).1 (bufferWrites rc w s).2).2 sq c
      = (lastWrite w.bytes sq (spaceAddr sq c)).getD (readByte s sq c) := by
  have hok := bySector_ok w.bytes
  have hfit := bySector_fits w.bytes
  rw [← groupsGet_bySector]
  unfold bufferWrites flushSectors
  simp only [hh, List.find?_nil, List.filter_nil, List.foldl_nil]
  generalize bySector w.bytes = l at hok hfit
  let pois (x : SectorBytes) := w.poisoned.any (fun q => decide (q.1 = x.space) && decide (q.2 = x.sector))
  have hsplit : ∀ (l : List SectorBytes) (acc : List HeldSector) (s : State),
      (l.foldl (fun (a : List HeldSector × State) x =>
        if x.bytes.length = 64 then (a.1, writeWhole rc.vi x.space x.sector x.bytes (pois x) a.2)
        else (a.1 ++ [⟨x.space, x.sector, x.bytes, pois x⟩], a.2)) (acc, s))
      = (acc ++ (l.filter (fun x => decide (x.bytes.length ≠ 64))).map (fun x => ⟨x.space, x.sector, x.bytes, pois x⟩),
         (l.filter (fun x => decide (x.bytes.length = 64))).foldl (fun s x => writeWhole rc.vi x.space x.sector x.bytes (pois x) s) s) := by
    intro l
    induction l with
    | nil => intro acc s; simp
    | cons x rest ih =>
      intro acc s
      rw [List.foldl_cons]
      by_cases hx : x.bytes.length = 64
      · simp only [hx, if_true]
        rw [ih]
        simp [hx]
      · simp only [hx, if_false]
        rw [ih]
        simp [hx]
  rw [hsplit]
  simp only [List.nil_append, List.foldl_map]
  have hsec : ∀ (m : List SectorBytes), isSecondary (m.foldl (fun s x => writeWhole rc.vi x.space x.sector x.bytes (pois x) s) s) = false := by
    intro m
    have : (m.foldl (fun s x => writeWhole rc.vi x.space x.sector x.bytes (pois x) s) s).twin = s.twin :=
      foldl_keeps (fun s => s.twin) _ (fun s x => twin_writeWhole _ _ _ _ _ s) m s
    simpa [isSecondary, this] using hs
  rw [readByte_foldGroups (fun x s => mergeSector rc.vi ⟨x.space, x.sector, x.bytes, pois x⟩ s) _ _ sq c
      (fun x hx => mergeSector_writes rc.vi x _ (hok.2 x (List.mem_filter.mp hx).1) (hfit x (List.mem_filter.mp hx).1))
      (fun x s => twin_mergeSector _ _ s) (hok.1.filter _) (fun x _ _ => hsec _),
    readByte_foldGroups (fun x s => writeWhole rc.vi x.space x.sector x.bytes (pois x) s) _ _ sq c
      (fun x hx => writeWhole_writes rc.vi x _ (hok.2 x (List.mem_filter.mp hx).1) (hfit x (List.mem_filter.mp hx).1))
      (fun x s => twin_writeWhole _ _ _ _ _ s) (hok.1.filter _) (fun x _ _ => hs)]
  -- a byte lies in one sector only
  clear hsplit hfit hsec
  have hpw := hok.1
  clear hok
  unfold groupsGet
  induction l with
  | nil => rfl
  | cons x rest ih =>
    rw [List.pairwise_cons] at hpw
    have ih := ih hpw.2
    have hno : ∀ b, groupGet sq (spaceAddr sq c / 64) (spaceAddr sq c % 64) x = some b →
        ∀ p : SectorBytes → Bool, (rest.filter p).findSome? (groupGet sq (spaceAddr sq c / 64) (spaceAddr sq c % 64)) = none := by
      intro b hb p
      rw [List.findSome?_eq_none_iff]
      intro y hy
      unfold groupGet at hb ⊢
      split at hb
      · next hk =>
        rw [if_neg]
        intro hy2
        exact hpw.1 y (List.mem_filter.mp hy).1 ⟨hk.1.trans hy2.1.symm, hk.2.trans hy2.2.symm⟩
      · simp at hb
    by_cases hx : x.bytes.length = 64
    · cases hg : groupGet sq (spaceAddr sq c / 64) (spaceAddr sq c % 64) x with
      | none => simp only [hx, ne_eq, not_true_eq_false, decide_false, decide_true, List.filter_cons, Bool.false_eq_true, if_false,
          if_true, List.findSome?_cons, hg] ; exact ih
      | some b =>
        have h1 := hno b hg
        simp only [hx, ne_eq, not_true_eq_false, decide_false, decide_true, List.filter_cons, Bool.false_eq_true, if_false,
          if_true, List.findSome?_cons, hg, h1]
        rfl
    · cases hg : groupGet sq (spaceAddr sq c / 64) (spaceAddr sq c % 64) x with
      | none => simp only [hx, ne_eq, not_false_eq_true, decide_false, decide_true, List.filter_cons, Bool.false_eq_true, if_false,
          if_true, List.findSome?_cons, hg] ; exact ih
      | some b =>
        have h1 := hno b hg
        simp only [hx, ne_eq, not_false_eq_true, decide_false, decide_true, List.filter_cons, Bool.false_eq_true, if_false,
          if_true, List.findSome?_cons, hg, h1]
        rfl

/-! ## Records -/

theorem find_zipIdx (bs : List Byte) (n i : Nat) (p : Byte × Nat → Bool) (hi : i < bs.length)
    (hp : ∀ j (hj : j < bs.length), p (bs[j], n + j) = decide (j = i)) : (bs.zipIdx n).find? p = some (bs[i], n + i) := by
  induction bs generalizing n i with
  | nil => simp at hi
  | cons b rest ih =>
    rw [List.zipIdx_cons, List.find?_cons]
    cases i with
    | zero =>
      have := hp 0 (by simp)
      simp at this
      simp [this]
    | succ i =>
      have h0 := hp 0 (by simp)
      simp at h0
      rw [h0]
      have := ih (n + 1) i (by simpa using hi) (fun j hj => by
        have := hp (j + 1) (by simpa using hj)
        rw [show n + (j + 1) = n + 1 + j by omega] at this
        simpa using this)
      simp [this]
      omega

theorem lastWrite_place (sp : Space) (a : Nat) (bs : List Byte) (hl : bs.length ≤ 2 ^ 64) (i : Nat) (hi : i < bs.length) :
    lastWrite (bs.zipIdx.map (fun x => (sp, a + x.2, x.1))) sp (spaceAddr sp (a + i)) = some bs[i] := by
  unfold lastWrite
  have key : ∀ (l : List (Space × Nat × Byte)) (p : Space × Nat × Byte → Bool) (x : Space × Nat × Byte),
      x ∈ l → p x = true → (∀ y ∈ l, p y = true → y = x) → l.reverse.find? p = some x := by
    intro l p x hx hp hu
    cases hf : l.reverse.find? p with
    | none =>
      rw [List.find?_eq_none] at hf
      exact absurd hp (hf x (by simpa using hx))
    | some y =>
      have h1 := List.find?_some hf
      have h2 := List.mem_of_find?_eq_some hf
      rw [hu y (by simpa using h2) h1]
  rw [key _ _ (sp, a + i, bs[i])]
  · rfl
  · rw [List.mem_map]
    exact ⟨(bs[i], i), by rw [List.mem_zipIdx_iff_getElem?]; simp [hi], rfl⟩
  · simp
  · intro y hy hpy
    rw [List.mem_map] at hy
    obtain ⟨⟨b, j⟩, hm, rfl⟩ := hy
    rw [List.mem_zipIdx_iff_getElem?] at hm
    simp at hm
    obtain ⟨hj, rfl⟩ := List.getElem?_eq_some_iff.mp hm
    simp at hpy
    have : j = i := by
      by_contra hne
      exact spaceAddr_add_ne sp a j i (by omega) (by omega) hne hpy
    subst this
    rfl

theorem lastWrite_place_none (sp sq : Space) (a c : Nat) (bs : List Byte)
    (h : ∀ i < bs.length, ¬ (sp = sq ∧ spaceAddr sp (a + i) = c)) :
    lastWrite (bs.zipIdx.map (fun x => (sp, a + x.2, x.1))) sq c = none := by
  unfold lastWrite
  rw [Option.map_eq_none_iff, List.find?_eq_none]
  intro y hy
  rw [List.mem_reverse, List.mem_map] at hy
  obtain ⟨⟨b, j⟩, hm, rfl⟩ := hy
  rw [List.mem_zipIdx_iff_getElem?] at hm
  obtain ⟨hj, _⟩ := List.getElem?_eq_some_iff.mp hm
  simpa using h j hj

/-- A record is read back. -/
theorem readByte_writeRecord_same (rc : RunCmd) (d : Nat) (sp : Space) (a i : Nat) (bs : List Byte) (p : Bool) (s : State)
    (hh : rc.prog.held = []) (hs : isSecondary s = false) (hi : i < bs.length) (hl : bs.length ≤ 2 ^ 64) :
    readByte (writeRecord rc d sp a bs p s).2 sp (a + i) = bs[i] := by
  unfold writeRecord
  dsimp only
  rw [readByte_flushed rc _ s sp (a + i) hh hs]
  have : (VecWrites.place d sp a bs p).bytes = bs.zipIdx.map (fun x => (sp, a + x.2, x.1)) := rfl
  rw [this, lastWrite_place sp a bs hl i hi]
  rfl

/-- Every byte outside a record reads as before. -/
theorem readByte_writeRecord_other (rc : RunCmd) (d : Nat) (sp sq : Space) (a c : Nat) (bs : List Byte) (p : Bool) (s : State)
    (hh : rc.prog.held = []) (hs : isSecondary s = false)
    (hc : ∀ i < bs.length, ¬ (sp = sq ∧ spaceAddr sp (a + i) = spaceAddr sq c)) :
    readByte (writeRecord rc d sp a bs p s).2 sq c = readByte s sq c := by
  unfold writeRecord
  dsimp only
  rw [readByte_flushed rc _ s sq c hh hs]
  have : (VecWrites.place d sp a bs p).bytes = bs.zipIdx.map (fun x => (sp, a + x.2, x.1)) := rfl
  rw [this, lastWrite_place_none sp sq a _ bs hc]
  rfl

end Sys2Proof.Machine
end

