-- ==== Sys2Proof/Laws/Pass.lean ====
section
/-! SUPPORT. What running a pass leaves as it is: of the unit, everything but row slots, registers, memories, chains, the drain
and the shift port; of its command, everything but its progress. -/

namespace Sys2Proof.Machine

set_option Elab.async false

/-- What a command's work leaves as it is. -/
structure Works (s t : State) : Prop extends Frame s t where
  cache    : t.rings.cache = s.rings.cache
  deferred : t.rings.deferred = s.rings.deferred
  holder   : t.rings.holder = s.rings.holder
  live     : t.rings.live = s.rings.live

theorem Works.of {s t : State} (pending : t.pending = s.pending) (cfg : t.cfg = s.cfg) (readData : t.readData = s.readData)
    (ctl : t.ctl = s.ctl) (pwr : t.pwr = s.pwr) (log : t.log = s.log) (drain : t.drain = s.drain)
    (shift : t.shift = s.shift) (tabs : t.tabs = s.tabs) (mode : t.twin.mode = s.twin.mode)
    (primary : t.twin.primary = s.twin.primary) (cache : t.rings.cache = s.rings.cache)
    (deferred : t.rings.deferred = s.rings.deferred) (holder : t.rings.holder = s.rings.holder)
    (live : t.rings.live = s.rings.live) : Works s t :=
  ⟨⟨pending, cfg, readData, ctl, pwr, log, drain, shift, tabs, mode, primary⟩, cache, deferred, holder, live⟩

theorem Works.refl (s : State) : Works s s := by apply Works.of <;> rfl
theorem Works.trans {s t u : State} (h : Works s t) (k : Works t u) : Works s u :=
  ⟨h.toFrame.trans k.toFrame, k.cache.trans h.cache, k.deferred.trans h.deferred, k.holder.trans h.holder, k.live.trans h.live⟩
theorem Works.keepsCtx {s t : State} (h : Works s t) : KeepsCtx s t := ⟨h.cache, h.deferred, h.holder, h.mode, h.primary⟩
theorem Near.works {s t : State} (h : Near s t) : Works s t := ⟨h.toStays.frame, h.cache, h.deferred, h.holder, h.live⟩

theorem Works.foldl {β : Type} (f : State → β → State) (hf : ∀ s x, Works s (f s x)) (l : List β) (s : State) :
    Works s (l.foldl f s) := by
  induction l generalizing s with
  | nil => exact Works.refl s
  | cons x rest ih => exact (hf s x).trans (ih _)

/-- What a command's work leaves of the command: all but its progress and the failure that SELECT notes; and of its progress
the number of vectors run, how it ended, and the beats held. -/
def SameCmd (a b : RunCmd) : Prop := b = { a with
  prog := { b.prog with
    vector := a.prog.vector
    ended := a.prog.ended
    heldBeats := a.prog.heldBeats }
  failed := b.failed }

theorem SameCmd.refl (a : RunCmd) : SameCmd a a := rfl
theorem SameCmd.trans {a b c : RunCmd} (h : SameCmd a b) (k : SameCmd b c) : SameCmd a c := by
  unfold SameCmd at *
  rw [k, h]
theorem SameCmd.vector {a b : RunCmd} (h : SameCmd a b) : b.prog.vector = a.prog.vector := by rw [h]
theorem SameCmd.ended {a b : RunCmd} (h : SameCmd a b) : b.prog.ended = a.prog.ended := by rw [h]
theorem SameCmd.heldBeats {a b : RunCmd} (h : SameCmd a b) : b.prog.heldBeats = a.prog.heldBeats := by rw [h]
theorem SameCmd.latched {a b : RunCmd} (h : SameCmd a b) : b.latched = a.latched := by rw [h]
theorem SameCmd.ring {a b : RunCmd} (h : SameCmd a b) : b.ring = a.ring := by rw [h]
theorem SameCmd.packet {a b : RunCmd} (h : SameCmd a b) : b.packet = a.packet := by rw [h]
theorem SameCmd.seq {a b : RunCmd} (h : SameCmd a b) : b.seq = a.seq := by rw [h]
theorem SameCmd.vi {a b : RunCmd} (h : SameCmd a b) : b.vi = a.vi := by rw [h]
theorem SameCmd.tumbler {a b : RunCmd} (h : SameCmd a b) : b.tumbler = a.tumbler := by rw [h]
theorem SameCmd.tainted {a b : RunCmd} (h : SameCmd a b) : b.tainted = a.tainted := by rw [h]

/-- A command and the state, worked on. -/
structure Does (a b : RunCmd × State) : Prop where
  cmd   : SameCmd a.1 b.1
  works : Works a.2 b.2

theorem Does.refl (a : RunCmd × State) : Does a a := ⟨rfl, Works.refl _⟩
theorem Does.trans {a b c : RunCmd × State} (h : Does a b) (k : Does b c) : Does a c := ⟨h.cmd.trans k.cmd, h.works.trans k.works⟩

theorem Does.foldl {β : Type} (f : RunCmd × State → β → RunCmd × State) (hf : ∀ a x, Does a (f a x)) (l : List β) (a : RunCmd × State) :
    Does a (l.foldl f a) := by
  induction l generalizing a with
  | nil => exact Does.refl a
  | cons x rest ih => exact (hf a x).trans (ih _)

theorem sameCmd_foldl {β : Type} (f : RunCmd → β → RunCmd) (hf : ∀ a x, SameCmd a (f a x)) (l : List β) (a : RunCmd) :
    SameCmd a (l.foldl f a) := by
  induction l generalizing a with
  | nil => exact SameCmd.refl a
  | cons x rest ih => exact (hf a x).trans (ih _)

/-! ## Memory -/

theorem countEvent_works (s : State) (c n : Nat) (v : Option ViId) : Works s (countEvent c n v s) := (countEvent_aside s c n v).toNear.works
theorem putSlot_works (s : State) (h : Nat) (x : Slot) : Works s (putSlot s h x) := (putSlot_near s h x).works
theorem modSlot_works (s : State) (h : Nat) (f : Slot → Slot) : Works s (modSlot s h f) := (modSlot_near s h f).works
theorem setRegs_works (s : State) (r : Nat) (f : RegFile) : Works s (setRegs s r f) := by apply Works.of <;> rfl
theorem setCmd_works (s : State) (c : RunCmd) : Works s (setCmd s c) := by apply Works.of <;> rfl
theorem modVi_works (s : State) (v : ViId) (f : ViState → ViState) : Works s (modVi s v f) := (modVi_aside s v f).toNear.works
theorem takeFree_works (s : State) : Works s (takeFree s).2 := (takeFree_aside s).toNear.works

theorem setMem_works (s : State) (sp : Space) (m : Memory) : Works s (setMem s sp m) := by
  cases sp <;> apply Works.of <;> rfl

theorem writeByte_works (s : State) (sp : Space) (a : Nat) (b : Byte) : Works s (writeByte s sp a b) := setMem_works _ _ _
theorem setSectorPoison_works (s : State) (sp : Space) (a : Nat) (p : Bool) : Works s (setSectorPoison s sp a p) := setMem_works _ _ _

theorem putSector_works (sp : Space) (k : Nat) (bs : List (Nat × Byte)) (s : State) : Works s (putSector sp k bs s) :=
  Works.foldl _ (fun s _ => writeByte_works s _ _ _) bs s

theorem writeWhole_works (v : ViId) (sp : Space) (k : Nat) (bs : List (Nat × Byte)) (p : Bool) (s : State) :
    Works s (writeWhole v sp k bs p s) := by
  unfold writeWhole
  split
  · exact Works.refl s
  · exact ((countEvent_works _ _ _ _).trans (putSector_works _ _ _ _)).trans (setSectorPoison_works _ _ _ _)

theorem mergeSector_works (v : ViId) (h : HeldSector) (s : State) : Works s (mergeSector v h s) := by
  unfold mergeSector
  dsimp only
  refine Works.trans ?_ (writeWhole_works _ _ _ _ _ _)
  split
  · exact ((countEvent_works _ _ _ _).trans (countEvent_works _ _ _ _)).trans (countEvent_works _ _ _ _)
  · exact (countEvent_works _ _ _ _).trans (countEvent_works _ _ _ _)

theorem foldSnd_works {α β : Type} (f : α × State → β → α × State) (hf : ∀ a x, Works a.2 (f a x).2) (l : List β) (a : α × State) :
    Works a.2 (l.foldl f a).2 := by
  induction l generalizing a with
  | nil => exact Works.refl _
  | cons x rest ih => exact (hf a x).trans (ih _)

theorem bufferWrites_does (rc : RunCmd) (w : VecWrites) (s : State) : Does (rc, s) (bufferWrites rc w s) := by
  unfold bufferWrites
  refine ⟨rfl, ?_⟩
  dsimp only
  refine Works.trans ?h1 (foldSnd_works _ ?h2 _ ([], _))
  · exact Works.foldl _ (fun s _ => mergeSector_works _ _ s) _ s
  · intro a x
    split <;> (try dsimp only) <;> split <;>
      first | exact writeWhole_works _ _ _ _ _ _ | exact mergeSector_works _ _ _ | exact Works.refl _

theorem flushSectors_does (rc : RunCmd) (s : State) : Does (rc, s) (flushSectors rc s) :=
  ⟨rfl, Works.foldl _ (fun s _ => mergeSector_works _ _ s) _ s⟩

theorem flushSectors_held (rc : RunCmd) (s : State) : (flushSectors rc s).1.prog.held = [] := rfl

theorem writeRecord_does (rc : RunCmd) (d : Nat) (sp : Space) (a : Nat) (bs : List Byte) (p : Bool) (s : State) :
    Does (rc, s) (writeRecord rc d sp a bs p s) :=
  (bufferWrites_does _ _ _).trans (flushSectors_does _ _)

theorem countReads_works (rc : RunCmd) (l : List (Space × Nat)) (s : State) : Works s (countReads rc l s) :=
  ((countEvent_works _ _ _ _).trans (countEvent_works _ _ _ _)).trans (countEvent_works _ _ _ _)

/-! ## EMIT -/

/-- The records of a fold that carries the command with its output. -/
theorem sameFst_foldl {α β : Type} (f : RunCmd × α → β → RunCmd × α) (hf : ∀ a x, SameCmd a.1 (f a x).1) (l : List β) (a : RunCmd × α) :
    SameCmd a.1 (l.foldl f a).1 := by
  induction l generalizing a with
  | nil => exact SameCmd.refl _
  | cons x rest ih => exact (hf a x).trans (ih _)

theorem emitOut_same {β : Type} (f : EmitOut → β → EmitOut) (hf : ∀ a x, SameCmd a.rc (f a x).rc) (l : List β) (a : EmitOut) :
    SameCmd a.rc (l.foldl f a).rc := by
  induction l generalizing a with
  | nil => exact SameCmd.refl _
  | cons x rest ih => exact (hf a x).trans (ih _)

theorem countKept_same (rc : RunCmd) (e : Elem) : SameCmd rc (countKept rc e) := rfl

theorem placeScalars_same (rc : RunCmd) (es : List Elem) : SameCmd rc (placeScalars rc es).1 :=
  sameFst_foldl _ (fun a e => countKept_same a.1 e) _ (rc, VecWrites.empty)

theorem emitScalars_same (rc : RunCmd) (v : Nat) (es : List Elem) : SameCmd rc (emitScalars rc v es).rc := by
  unfold emitScalars
  dsimp only
  split
  · rfl
  · exact placeScalars_same _ _

theorem finishPacked_same (rc : RunCmd) : SameCmd rc (finishPacked rc).rc := by
  unfold finishPacked
  refine SameCmd.trans (b := { rc with prog := { rc.prog with packPend := [] } }) rfl ?_
  exact sameFst_foldl (fun (o : RunCmd × VecWrites) (x : Nat × List Elem) =>
    ((placeScalars o.1 x.2).1, o.2.append (placeScalars o.1 x.2).2)) (fun a x => placeScalars_same a.1 x.2) _ (_, VecWrites.empty)

theorem emitMx_same (rc : RunCmd) (l : List BlockItem) : SameCmd rc (emitMx rc l).rc := rfl

theorem enterGroup_same (rc : RunCmd) (b : Nat) : SameCmd rc (enterGroup rc b).1 := by
  unfold enterGroup
  split <;> rfl

theorem emitTagged_same (rc : RunCmd) (p : Bool) (l : List BlockItem) : SameCmd rc (emitTagged rc p l).rc := by
  cases p with
  | false =>
    unfold emitTagged
    simp only [Bool.false_and, Bool.false_eq_true, if_false]
    rfl
  | true =>
    unfold emitTagged
    dsimp only
    simp only [if_true]
    have h := enterGroup_same rc ((l.map (fun x => x.block)).headD 0)
    split
    · exact h.trans rfl
    · exact h.trans rfl

theorem addSqnr_same (rc : RunCmd) (v : Nat) (l : List (Nat × W64 × W64)) : SameCmd rc (addSqnr rc v l) := by
  unfold addSqnr
  split <;> rfl

theorem sumSqnr_same (rc : RunCmd) : SameCmd rc (sumSqnr rc) := rfl

theorem emitBlocks_same (rc : RunCmd) (v : Nat) (one : RunCmd → List BlockItem → BlockOut) (h1 : ∀ r g, SameCmd r (one r g).rc) (l : List BlockItem) :
    SameCmd rc (emitBlocks rc v one l).rc := by
  unfold emitBlocks
  dsimp only
  refine SameCmd.trans ?_ (addSqnr_same _ _ _)
  have key : ∀ (gs : List (List BlockItem)) (a : EmitOut × List (Nat × W64 × W64)), SameCmd a.1.rc (gs.foldl (fun a g =>
      let o := one a.1.rc g
      (⟨o.rc, a.1.writes.append o.writes, a.1.flags ++ o.flags⟩, a.2 ++ o.terms)) a).1.rc := by
    intro gs
    induction gs with
    | nil => exact fun a => SameCmd.refl _
    | cons g rest ih =>
      intro a
      rw [List.foldl_cons]
      exact (h1 _ _).trans (ih _)
  exact key _ _

theorem emitPending_same (n : Nat) (o : EmitOut) : SameCmd o.rc (emitPending n o).rc := by
  induction n generalizing o with
  | zero => exact SameCmd.refl _
  | succ n ih =>
    unfold emitPending
    split
    · exact SameCmd.refl _
    · dsimp only
      refine SameCmd.trans ?_ (ih _)
      refine SameCmd.trans ?_ (emitBlocks_same _ _ _ (fun r g => emitTagged_same r true g) _)
      rfl

theorem emitTaggedVector_same (rc : RunCmd) (v : Nat) (l : List BlockItem) : SameCmd rc (emitTaggedVector rc v l).rc := by
  unfold emitTaggedVector
  split
  · exact emitBlocks_same _ _ _ (fun r g => emitTagged_same r false g) _
  · exact SameCmd.trans (b := { rc with prog := { rc.prog with tagPend := spPut rc.prog.tagPend v l } }) rfl (emitPending_same _ _)

theorem finishEmit_same (rc : RunCmd) : SameCmd rc (finishEmit rc).rc := by
  unfold finishEmit
  split
  · exact finishPacked_same _
  · refine emitOut_same _ (fun o x => ?_) _ (⟨rc, VecWrites.empty, []⟩ : EmitOut)
    exact SameCmd.trans (b := { o.rc with prog := { o.rc.prog with tagPend := spErase o.rc.prog.tagPend x.1 } }) rfl
      (emitBlocks_same _ _ _ (fun r g => emitTagged_same r true g) _)

theorem emitVector_same (rc : RunCmd) (v : Nat) (es : List Elem) (f : RegFile) : SameCmd rc (emitVector rc v es f).1.rc := by
  unfold emitVector
  dsimp only
  split
  · exact SameCmd.refl _
  · generalize ho : (if (!(decide (tDest rc.tumbler = 0) || decide (tDest rc.tumbler = 2))) = true then _ else _ : EmitOut) = o
    have h : SameCmd rc o.rc := by
      rw [← ho]
      split
      · exact sameCmd_foldl _ countKept_same _ rc
      · split
        · exact emitTaggedVector_same _ _ _
        · split
          · exact emitBlocks_same _ _ _ (fun r g => emitMx_same r g) _
          · exact emitScalars_same _ _ _
    split
    · exact h.trans rfl
    · exact h

/-! ## INTAKE -/

theorem addInput_same (rc : RunCmd) (k : Nat) (bs : List Byte) : SameCmd rc (addInput rc k bs) := by
  unfold addInput
  split <;> rfl

theorem takeIn_does (s : State) (rc : RunCmd) (v : VecIn) : Does (rc, s) ((takeIn s rc v).1, (takeIn s rc v).2.1) := by
  unfold takeIn
  dsimp only
  refine ⟨?_, countReads_works _ _ _⟩
  exact SameCmd.trans (b := { rc with prog := { rc.prog with taken := (intake s rc v).taken } }) rfl
    (sameCmd_foldl _ (fun (r : RunCmd) (b : Nat × List Byte) => addInput_same r b.1 b.2) _ _)

theorem formRow_does (s : State) (rc : RunCmd) (stamp : Nat) (vs : List VecIn) : Does (rc, s) (formRow s rc stamp vs) := by
  unfold formRow
  dsimp only
  have key : ∀ (l : List VecIn) (a : RunCmd × State × List ReadyVec), Does (a.1, a.2.1)
      ((l.foldl (fun (a : RunCmd × State × List ReadyVec) v =>
        let x := takeIn a.2.1 a.1 v
        (x.1, x.2.1, a.2.2 ++ [⟨v.number, x.2.2.fired, x.2.2.elems.map (throughJoin a.2.1 rc 0)⟩])) a).1,
       (l.foldl (fun (a : RunCmd × State × List ReadyVec) v =>
        let x := takeIn a.2.1 a.1 v
        (x.1, x.2.1, a.2.2 ++ [⟨v.number, x.2.2.fired, x.2.2.elems.map (throughJoin a.2.1 rc 0)⟩])) a).2.1) := by
    intro l
    induction l with
    | nil => exact fun a => Does.refl _
    | cons k rest ih =>
      intro a
      rw [List.foldl_cons]
      exact (takeIn_does _ _ _).trans (ih (_, _, _))
  have h := key vs (rc, s, [])
  exact ⟨h.cmd.trans rfl, h.works⟩

theorem formVector_does (s : State) (rc : RunCmd) (v : VecIn) : Does (rc, s) ((formVector s rc v).rc, (formVector s rc v).state) := by
  unfold formVector
  split
  · have h : Does (rc, s) (if rc.prog.ready.isEmpty then formRow s rc 0 (rowVectors rc v) else (rc, s)) := by
      split
      · exact formRow_does _ _ _ _
      · exact Does.refl _
    dsimp only
    generalize (if rc.prog.ready.isEmpty then formRow s rc 0 (rowVectors rc v) else (rc, s)) = a at h ⊢
    split
    · exact h
    · exact ⟨h.cmd.trans rfl, h.works⟩
  · exact takeIn_does _ _ _

/-! ## Finishing a vector -/

theorem recordTrap_works (rc : RunCmd) (x : Trap) (s : State) : Works s (recordTrap rc x s) := by
  unfold recordTrap
  exact modVi_works _ _ _

/-- A writer that leaves the unit and the command as EMIT does. -/
def Writer.tame (w : Writer) : Prop := ∀ s rc v es, SameCmd rc (w.write s rc v es).1.rc ∧ Works s (w.write s rc v es).2

theorem emitWriter_tame : emitWriter.tame := by
  intro s rc v es
  unfold emitWriter
  dsimp only
  refine ⟨emitVector_same _ _ _ _, ?_⟩
  split
  · exact Works.refl s
  · exact setRegs_works _ _ _

theorem combineRecord_same (key : Nat) (sp : Space) (a : Nat) (bs : List Byte) (b : Bool) (p : Placing) :
    SameCmd p.rc (combineRecord key sp a bs b p).rc := by
  have h1 : ∀ (l : List SectorBytes) (q : Placing), SameCmd q.rc (l.foldl (combineSector key b) q).rc := by
    intro l
    induction l with
    | nil => exact fun q => SameCmd.refl _
    | cons x rest ih =>
      intro q
      refine SameCmd.trans ?_ (ih _)
      unfold combineSector
      dsimp only
      split <;> rfl
  exact h1 _ _

theorem placeRecord_same (s : State) (a : Placing) (g : GateRecord) : SameCmd a.rc (placeRecord s a g).rc := by
  unfold placeRecord
  dsimp only
  split
  · rfl
  · split
    · rfl
    · split
      · split
        · rfl
        · refine SameCmd.trans ?_ (combineRecord_same _ _ _ _ _ _)
          rfl
      · split
        · refine SameCmd.trans ?_ (combineRecord_same _ _ _ _ _ _)
          rfl
        · rfl

theorem placeRecords_same (s : State) (gs : List GateRecord) (a : Placing) : SameCmd a.rc (gs.foldl (placeRecord s) a).rc := by
  induction gs generalizing a with
  | nil => exact SameCmd.refl _
  | cons g rest ih => exact (placeRecord_same s a g).trans (ih _)

theorem countBuckets_works (o n : Progress) (v : ViId) (s : State) : Works s (countBuckets o n v s) :=
  (((countEvent_works _ _ _ _).trans (countEvent_works _ _ _ _)).trans (countEvent_works _ _ _ _)).trans (countEvent_works _ _ _ _)

theorem selectWriter_tame : selectWriter.tame := by
  intro s rc v es
  unfold selectWriter
  dsimp only
  have key : ∀ (f : EmitOut × State → Nat → EmitOut × State) (hf : ∀ a r, SameCmd a.1.rc (f a r).1.rc ∧ Works a.2 (f a r).2)
      (l : List Nat) (a : EmitOut × State), SameCmd a.1.rc (l.foldl f a).1.rc ∧ Works a.2 (l.foldl f a).2 := by
    intro f hf l
    induction l with
    | nil => exact fun a => ⟨SameCmd.refl _, Works.refl _⟩
    | cons x rest ih => exact fun a => ⟨(hf a x).1.trans (ih _).1, (hf a x).2.trans (ih _).2⟩
  refine key _ (fun a row => ?_) _ (⟨rc, VecWrites.empty, []⟩, s)
  split
  · exact ⟨rfl, countEvent_works _ _ _ _⟩
  · split
    · refine ⟨?_, ((countEvent_works _ _ _ _).trans (countEvent_works _ _ _ _)).trans (countBuckets_works _ _ _ _)⟩
      dsimp only
      generalize hb : List.foldl (placeRecord _) _ _ = b
      have h : SameCmd a.1.rc b.rc := by
        rw [← hb]
        refine SameCmd.trans ?_ (placeRecords_same _ _ _)
        rfl
      split
      · exact h.trans rfl
      · exact h
    · exact ⟨rfl, (countEvent_works _ _ _ _).trans (countEvent_works _ _ _ _)⟩

theorem applyReduction_does (rc : RunCmd) (h : Nat) (r : Reduction) (s : State) : Does (rc, s) (applyReduction rc h r s) := by
  unfold applyReduction
  split
  · exact ⟨rfl, countEvent_works _ _ _ _⟩
  · exact ⟨rfl, (countEvent_works _ _ _ _).trans (putSlot_works _ _ _)⟩

theorem outWrites_does (rc : RunCmd) (w : VecWrites) (s : State) (h : rc.prog.heldBeats = []) :
    Does (rc, s) (outWrites rc false w s) := by
  unfold outWrites
  simp only [h, List.isEmpty_nil, Bool.not_true, Bool.or_false, Bool.false_eq_true, if_false]
  exact bufferWrites_does _ _ _

theorem forwardEarly_works (rc : RunCmd) (es : List Elem) (s : State) : Works s (forwardEarly rc es s) := by
  unfold forwardEarly
  split
  · dsimp only
    split
    · exact Works.refl s
    · exact (contributeRows_aside _ _ _ _ _).toNear.works
  · exact Works.refl s

theorem countBlocks_works (o n : Progress) (v : ViId) (s : State) : Works s (countBlocks o n v s) :=
  ((countEvent_works _ _ _ _).trans (countEvent_works _ _ _ _)).trans (countEvent_works _ _ _ _)

/-- A command with one more vector run. -/
def oneMore (rc : RunCmd) : RunCmd := { rc with prog := { rc.prog with vector := rc.prog.vector + 1 } }

theorem SameCmd.oneMore {a b : RunCmd} (h : SameCmd a b) : SameCmd (oneMore a) (oneMore b) := by
  unfold SameCmd Machine.oneMore at *
  rw [h]

theorem applyDecision_does (d : SoftStep) (rc : RunCmd) (s : State) : Does (rc, s) (applyDecision d rc s) := by
  unfold applyDecision
  split
  · exact Does.refl _
  · split
    · exact Does.refl _
    · refine ⟨rfl, ?_⟩
      dsimp only
      exact modSlot_works _ _ _

/-- A vector without a trap that raises nothing: the command has run one more. -/
theorem finishVector_does (w : Writer) (hw : w.tame) (v : Nat) (d : SoftStep) (n : Nat) (es : List Elem) (rc : RunCmd) (s : State)
    (ht : rc.latched.nanTrap = false) (hb : rc.prog.heldBeats = []) :
    Does (oneMore rc, s) (finishVector w v d false n es rc s) := by
  unfold finishVector
  have hv : ∀ rs, vectorTrap rc es rs = none := fun rs => by unfold vectorTrap; simp [ht]
  simp only [hv]
  generalize vectorReductions (applyDecision d rc s).2 rc es = rs
  generalize hm : ({ rc.prog with flags := _, poisonIn := _, vector := _ } : Progress) = met
  have h0 : SameCmd (oneMore rc) { rc with prog := met } := by rw [← hm]; rfl
  have ha := applyDecision_does d { rc with prog := met } s
  generalize applyDecision d { rc with prog := met } s = a at ha ⊢
  have h := hw a.2 a.1 v es
  generalize w.write a.2 a.1 v es = o at h ⊢
  have h1 : SameCmd (oneMore rc) o.1.rc := h0.trans (ha.cmd.trans h.1)
  have h2 : Works s o.2 := ha.works.trans h.2
  have last : ∀ (x : RunCmd × State) (l : List Nat), Does x (x.1, forwardEarly x.1 es (lockstepFold l x.2)) :=
    fun x l => ⟨SameCmd.refl _, Works.trans (lockstepFold_aside _ _).toNear.works (forwardEarly_works _ _ _)⟩
  refine Does.trans ?_ (last _ _)
  have out : ∀ (a x : RunCmd × State) (w : VecWrites), a.1.prog.heldBeats = [] → Does a x → Does a (outWrites x.1 false w x.2) :=
    fun a x w h1 h2 => h2.trans (outWrites_does _ _ _ (h2.cmd.heldBeats.trans h1))
  refine out (oneMore rc, s) _ _ hb ?_
  refine Does.trans ?_ (Does.foldl _ (fun a x => applyReduction_does _ _ _ _) _ _)
  exact ⟨h1.trans rfl, h2.trans ((countBlocks_works _ _ _ _).trans (countEvent_works _ _ _ _))⟩

/-! ## Running vectors -/

theorem SameCmd.drains {a b : RunCmd} (h : SameCmd a b) : psDrains b = psDrains a := by unfold psDrains; rw [h.tumbler]
theorem SameCmd.runsOn {a b : RunCmd} (h : SameCmd a b) (k : RunsOn a) : RunsOn b :=
  ⟨h.drains.trans k.drains, by rw [h.latched]; exact k.trap, h.heldBeats.trans k.held, h.ended.trans k.ended⟩
theorem RunsOn.oneMore {a : RunCmd} (k : RunsOn a) : RunsOn (oneMore a) := ⟨k.drains, k.trap, k.held, k.ended⟩

theorem runVector_does (k : PassKind) (hk : k.writer.tame) (v : VecIn) (hb : v.beat = none) (rc : RunCmd) (s : State)
    (hr : RunsOn rc) : ∃ r, runVector k v rc s = some r ∧ Does (oneMore rc, s) r := by
  unfold runVector
  have hf := formVector_does s rc v
  generalize formVector s rc v = f at hf
  simp only [hb, Option.isSome_none, Bool.and_false, Bool.false_and, Bool.false_eq_true, if_false]
  refine ⟨_, rfl, ?_⟩
  have hr2 : RunsOn f.rc := hf.cmd.runsOn hr
  refine Does.trans ?_ (finishVector_does _ hk _ _ _ _ _ _ hr2.trap hr2.held)
  refine ⟨hf.cmd.oneMore, hf.works.trans ?_⟩
  exact ((countEvent_works _ _ _ _).trans (countEvent_works _ _ _ _)).trans
    ((countEvent_works _ _ _ _).trans (countEvent_works _ _ _ _))

theorem rowStarts_same (s : State) (rc : RunCmd) (row : Nat) : SameCmd rc (rowStarts s rc row) := by
  unfold rowStarts
  dsimp only
  have h1 : SameCmd rc (if psHasSlot rc row then
      { rc with prog := { rc.prog with snap := spPut rc.prog.snap row (slotAt s (psSlot rc row)) } } else rc) := by
    split <;> rfl
  generalize (if psHasSlot rc row then
      { rc with prog := { rc.prog with snap := spPut rc.prog.snap row (slotAt s (psSlot rc row)) } } else rc : RunCmd) = r1 at h1 ⊢
  have h2 : SameCmd rc (if tSrcA rc.tumbler = 0 ∧ (tRdMode rc.tumbler ≠ 1 ∨ isBlock (tFmtA rc.tumbler)) then
      addInput r1 (inputKey 0 row) (rowSource s rc (descOf rc 0) (tFmtA rc.tumbler) row) else r1) := by
    split
    · exact h1.trans (addInput_same _ _ _)
    · exact h1
  split
  · exact h2.trans (addInput_same _ _ _)
  · exact h2

theorem nextVector_does (k : PassKind) (hk : k.writer.tame) (staged : Option BadWord) (rc : RunCmd) (s : State)
    (hr : RunsOn rc) : (nextVector k staged rc s).1 = true ∧ Does (oneMore rc, s) (nextVector k staged rc s).2 := by
  unfold nextVector beatsWait
  simp only [hr.drains, Bool.false_and, Bool.false_eq_true, if_false]
  have h1 : ∀ l : List Nat, SameCmd rc (l.foldl (rowStarts s) rc) := fun l => sameCmd_foldl _ (fun r x => rowStarts_same s r x) l rc
  generalize ((vectorSpots rc rc.prog.vector).filter (fun x => decide (x.j = 0))).map (fun x => x.row) = l
  obtain ⟨r, h2, h3⟩ := runVector_does k hk ⟨rc.prog.vector, vectorSpots rc rc.prog.vector, none, staged⟩ rfl
    (l.foldl (rowStarts s) rc) s ((h1 l).runsOn hr)
  rw [h2]
  exact ⟨rfl, Does.trans ⟨(h1 l).oneMore, Works.refl s⟩ h3⟩

theorem SameCmd.vectors {a b : RunCmd} (h : SameCmd a b) : psVectors b = psVectors a := by
  unfold SameCmd at h
  rw [h]
  rfl

/-- A command with `n` more vectors run. -/
def manyMore (n : Nat) (rc : RunCmd) : RunCmd := { rc with prog := { rc.prog with vector := rc.prog.vector + n } }

theorem SameCmd.manyMore {a b : RunCmd} (n : Nat) (h : SameCmd a b) : SameCmd (manyMore n a) (manyMore n b) := by
  unfold SameCmd Machine.manyMore at *
  rw [h]

/-- As many vectors run as are asked for, up to the end of the pass. -/
theorem runVectors_does (k : PassKind) (hk : k.writer.tame) (n : Nat) (rc : RunCmd) (s : State) (hr : RunsOn rc)
    (hn : rc.prog.vector + n ≤ psVectors rc) : Does (manyMore n rc, s) (runVectors k n rc s) := by
  induction n generalizing rc s with
  | zero => exact ⟨by rfl, Works.refl s⟩
  | succ n ih =>
    unfold runVectors
    have ho : passOver rc = false := by
      unfold passOver
      simp only [hr.drains, hr.ended, Bool.not_false, Option.isSome_none, Bool.and_false, Bool.or_false, decide_eq_false_iff_not]
      omega
    have h := nextVector_does k hk none rc s hr
    simp only [ho, Bool.false_eq_true, if_false, h.1, if_true]
    have h4 : (nextVector k none rc s).2.1.prog.vector = rc.prog.vector + 1 := h.2.cmd.vector
    have h5 : psVectors (nextVector k none rc s).2.1 = psVectors rc := h.2.cmd.vectors
    have h2 := ih (nextVector k none rc s).2.1 (nextVector k none rc s).2.2 (h.2.cmd.runsOn hr.oneMore) (by omega)
    refine Does.trans (b := (manyMore n (nextVector k none rc s).2.1, (nextVector k none rc s).2.2)) ⟨?_, h.2.works⟩ h2
    have h3 : manyMore (n + 1) rc = manyMore n (oneMore rc) := by
      unfold manyMore Machine.oneMore
      simp only [Nat.add_assoc, Nat.add_comm n 1]
    show SameCmd (manyMore (n + 1) rc) (manyMore n (nextVector k none rc s).2.1)
    rw [h3]
    exact h.2.cmd.manyMore n

/-! ## The ends of a pass -/

theorem drainSource_same (rc : RunCmd) : SameCmd rc (drainSource rc) := addInput_same _ _ _

theorem endPass_does (rc : RunCmd) (s : State) : Does (rc, s) (endPass rc s) := by
  unfold endPass
  dsimp only
  have h1 : SameCmd rc (drainSource (sumSqnr (finishEmit rc).rc)) :=
    ((finishEmit_same rc).trans (sumSqnr_same _)).trans (drainSource_same _)
  have h2 : Does (rc, s) _ := Does.trans
    (b := (drainSource (sumSqnr (finishEmit rc).rc), countBlocks rc.prog (finishEmit rc).rc.prog rc.vi s))
    ⟨h1, countBlocks_works _ _ _ _⟩ ((bufferWrites_does _ (finishEmit rc).writes _).trans (flushSectors_does _ _))
  refine ⟨h2.cmd.trans rfl, h2.works.trans ?_⟩
  split
  · exact countEvent_works _ _ _ _
  · exact Works.refl _

theorem addLinks_same (s : State) (rc : RunCmd) : SameCmd rc (addLinks s rc) := by
  unfold addLinks
  split
  · exact SameCmd.refl _
  · exact addInput_same _ _ _

/-! ## A pass as a whole -/

theorem loadColumns_does (rc : RunCmd) (s : State) : Does (rc, s) (loadColumns rc s) :=
  ⟨rfl, countReads_works _ _ _⟩

theorem setGlobalRefs_does (rc : RunCmd) (s : State) : Does (rc, s) (setGlobalRefs rc s) := by
  refine Does.foldl _ (fun a h => ?_) _ _
  dsimp only
  split
  · exact Does.refl _
  · exact ⟨rfl, putSlot_works _ _ _⟩

theorem resumedGroup_same (rc : RunCmd) : SameCmd rc (resumedGroup rc) := by
  unfold resumedGroup
  split
  · rfl
  · split <;> rfl

theorem readFills_same (s : State) (rc : RunCmd) : SameCmd rc (readFills s rc) := rfl

theorem beginPass_does (k : PassKind) (rc : RunCmd) (s : State) : Does (rc, s) (beginPass k rc s) := by
  unfold beginPass
  dsimp only
  have h0 : Does (rc, s) (loadColumns (resumedGroup rc) s) :=
    Does.trans (b := (resumedGroup rc, s)) ⟨resumedGroup_same rc, Works.refl s⟩ (loadColumns_does _ _)
  generalize loadColumns (resumedGroup rc) s = r1 at h0 ⊢
  have h1 : ∀ l : List Nat, SameCmd rc (l.foldl (fun r c => addInput r (inputKey (2 + c) 0) (columnSource s rc c)) r1.1) :=
    fun l => h0.cmd.trans (sameCmd_foldl _ (fun r c => addInput_same r _ _) l _)
  generalize hx : (List.foldl _ r1.1 _ : RunCmd) = x
  have h2 : SameCmd rc x := by rw [← hx]; exact h1 _
  generalize hy : (if (linksIn x && _) = true then addLinks s x else x : RunCmd) = y
  have h3 : SameCmd rc y := by
    rw [← hy]
    split
    · exact h2.trans (addLinks_same _ _)
    · exact h2
  generalize hz : (if psBuckets y = true then readFills s y else y : RunCmd) = z
  have h4 : SameCmd rc z := by
    rw [← hz]
    split
    · exact h3.trans (readFills_same _ _)
    · exact h3
  split
  · exact Does.trans (b := (z, r1.2)) ⟨h4, h0.works⟩ (setGlobalRefs_does _ _)
  · exact ⟨h4, h0.works⟩

theorem passEnd_does (k : PassKind) (hk : k.writer.tame) (rc : RunCmd) (s : State) (hr : RunsOn rc) (h0 : rc.prog.vector = 0) :
    Does (manyMore (psVectors rc) rc, s) (passEnd k rc s) := by
  unfold passEnd
  have h1 := beginPass_does k rc s
  have hv : psVectors (beginPass k rc s).1 = psVectors rc := h1.cmd.vectors
  have h2 := runVectors_does k hk (psVectors (beginPass k rc s).1) (beginPass k rc s).1 (beginPass k rc s).2 (h1.cmd.runsOn hr)
    (by rw [h1.cmd.vector]; simp [h0])
  dsimp only
  refine Does.trans (Does.trans (b := (manyMore (psVectors (beginPass k rc s).1) (beginPass k rc s).1, (beginPass k rc s).2))
    ⟨?_, h1.works⟩ h2) (endPass_does _ _)
  rw [hv]
  exact h1.cmd.manyMore _

theorem SameCmd.passed {a b : RunCmd} (h : SameCmd (Machine.passed a) b) : RunsOn a → RunsOn b := fun k =>
  h.runsOn ⟨k.drains, k.trap, k.held, k.ended⟩

theorem segmentLength_pos (rc : RunCmd) : 0 < segmentLength rc := by
  unfold segmentLength segmentVectors
  split
  · omega
  · split <;> omega

/-- From the start of a pass without boundaries before its end, all of it may be taken. -/
theorem toBoundary_all (rc : RunCmd) (n : Nat) (h0 : rc.prog.vector = 0) (h : ∀ v < n, isBoundary rc v = false) : toBoundary rc n = n := by
  have hl := segmentLength_pos rc
  have hm : min n (segmentLength rc - rc.prog.vector % segmentLength rc) = n := by
    rw [h0, Nat.zero_mod, Nat.sub_zero]
    rcases Nat.lt_or_ge (segmentLength rc) n with h1 | h1
    · have := h _ h1
      unfold isBoundary at this
      simp at this
      omega
    · omega
  unfold toBoundary
  dsimp only
  rw [hm]
  split
  · cases hf : (List.range n).find? (fun k => isBoundary rc (rc.prog.vector + k + 1)) with
    | none => rfl
    | some k =>
      have h1 := List.find?_some hf
      have h2 := List.mem_range.mp (List.mem_of_find?_eq_some hf)
      show k + 1 = n
      rcases Nat.lt_or_ge (k + 1) n with h3 | h3
      · have h4 := h _ h3
        rw [h0] at h1
        simp only [Nat.zero_add] at h1
        rw [h4] at h1
        cases h1
      · omega
  · rfl

/-- A pass that no other ring can interrupt runs to its end in one step. -/
theorem passCommand_runs (k : PassKind) (hk : k.writer.tame) (finish : RunCmd → State → State) (rc : RunCmd) (s : State)
    (hu : rc.prog.checked = false) (hg : verdict s rc = .good) (hb : barred s (passed rc) = false) (hr : RunsOn rc)
    (h0 : rc.prog.vector = 0) (hc : (cacheEntry s rc.ring).isSome) (ho : oneSegment s rc) :
    passCommand k ⟨none, none⟩ finish rc s
      = finish (passEnd k (passed rc) s).1 (setCmd (passEnd k (passed rc) s).2 (passEnd k (passed rc) s).1) := by
  have hr' : RunsOn (passed rc) := ⟨hr.drains, hr.trap, hr.held, hr.ended⟩
  have hbg := beginPass_does k (passed rc) s
  have hrun := hbg.cmd.runsOn hr'
  have hv : psVectors (beginPass k (passed rc) s).1 = psVectors (passed rc) := hbg.cmd.vectors
  have hv0 : (beginPass k (passed rc) s).1.prog.vector = 0 := hbg.cmd.vector.trans h0
  have hp := passEnd_does k hk (passed rc) s hr' h0
  have hctx : ctxOfRing (beginPass k (passed rc) s).2 (beginPass k (passed rc) s).1.ring = ctxOfRing s rc.ring := by
    rw [hbg.cmd.ring]
    exact ctxOfRing_eq hbg.works.cache hc
  have hbound : isBoundary (beginPass k (passed rc) s).1 = isBoundary rc := by
    funext v
    unfold isBoundary segmentLength segmentVectors placesRecords recordsAt cmdDrains
    rw [hbg.cmd.packet, hbg.cmd.tumbler, hbg.cmd.latched]
    rfl
  have hlim : stepLimit (beginPass k (passed rc) s).2 (beginPass k (passed rc) s).1
      (psVectors (beginPass k (passed rc) s).1 - (beginPass k (passed rc) s).1.prog.vector) none
      = psVectors (beginPass k (passed rc) s).1 := by
    have hat : atSegment (beginPass k (passed rc) s).2 (beginPass k (passed rc) s).1 = false := by
      unfold atSegment isBoundary
      simp [hv0]
    unfold stepLimit
    simp only [hat, Bool.false_eq_true, if_false, hctx, hv0, Nat.sub_zero, Option.getD_none, Nat.min_self]
    split
    · rename_i h
      rcases ho with h1 | h1
      · rw [h1] at h
        cases h
      · refine toBoundary_all _ _ hv0 (fun v hlt => ?_)
        rw [hbound]
        exact h1 v (by rw [hv] at hlt; exact hlt)
    · rfl
  have hrv := runVectors_does k hk (psVectors (beginPass k (passed rc) s).1) (beginPass k (passed rc) s).1
    (beginPass k (passed rc) s).2 hrun (by omega)
  have hend : passOver (runVectors k (psVectors (beginPass k (passed rc) s).1) (beginPass k (passed rc) s).1 (beginPass k (passed rc) s).2).1 = true := by
    unfold passOver
    rw [hrv.cmd.vectors, hrv.cmd.vector]
    show (decide (psVectors (beginPass k (passed rc) s).1 ≤ (beginPass k (passed rc) s).1.prog.vector + psVectors (beginPass k (passed rc) s).1) || _) = true
    simp
  have hheld : (runVectors k (psVectors (beginPass k (passed rc) s).1) (beginPass k (passed rc) s).1 (beginPass k (passed rc) s).2).1.prog.heldBeats = [] :=
    hrv.cmd.heldBeats.trans hrun.held
  have hended : (passEnd k (passed rc) s).1.prog.ended = none := hp.cmd.ended.trans hr.ended
  unfold passCommand checkedThen
  simp only [hu, hg, Bool.false_eq_true, if_false]
  change (if barred s (passed rc) = true then _ else _) = _
  simp only [hb, Bool.false_eq_true, if_false]
  change continuePass k ⟨none, none⟩ finish (beginPass k (passed rc) s).1 (beginPass k (passed rc) s).2 = _
  unfold continuePass meetError stagedVector
  have hrel : releaseHeld (beginPass k (passed rc) s).1.prog.heldBeats (beginPass k (passed rc) s).1 (beginPass k (passed rc) s).2
      = beginPass k (passed rc) s := by
    have hh := hrun.held
    rw [hh]
    generalize beginPass k (passed rc) s = b at hh ⊢
    obtain ⟨⟨_, _, _, _, _, _, _, _, _, _, _, _, _, _, _, _, p⟩, u⟩ := b
    unfold releaseHeld
    dsimp only at hh ⊢
    rw [← hh]
  simp only [hrel, hlim, hend, hheld, List.isEmpty_nil, Bool.not_true, Bool.or_self, Bool.false_eq_true, if_false]
  unfold passEnd at hended ⊢
  dsimp only at hended ⊢
  rw [hended]

end Sys2Proof.Machine
end

