-- ==== Sys2Proof/Laws/PerInstr.lean ====
section
/-! SUPPORT. Statements made for each command: what a well-formed command's operands are bounded by. -/

namespace Sys2Proof.Laws.Operands

set_option Elab.async false

open Sys2Proof

/-- The ring numbers that a command names. -/
def rings : Instr → List Nat
  | .contextReadReturn ring _ => [ring]
  | .commandFetchReturn read => [read.ring]
  | .blockedWaitEnd ring => [ring]
  | .eventWaitTimeout ring => [ring]
  | _ => []

/-- How many lanes or payload bytes a command carries. -/
def carried : Instr → Nat
  | .drnBeat beat => beat.lanes.length
  | .hingePartial packet => packet.payload.length
  | .hingeFinal packet => packet.payload.length
  | .hingeRetract packet => packet.payload.length
  | .hingeNack packet => packet.payload.length
  | .hingeProbe packet => packet.payload.length
  | _ => 0

/-- A well-formed command names rings of this unit or of the covered twin (R462, R570), and carries at most 512 lanes
(R28) or payload bytes (R331). -/
def Statement (i : Instr) : Prop :=
  i.wellFormed = true → (∀ r ∈ rings i, r < 2 * Config.ringCount) ∧ carried i ≤ 512

theorem nop : Statement .nop := by
  intro _
  simp [rings, carried]

theorem chain (run : Run) : Statement (.chain run) := by
  intro _
  simp [rings, carried]

theorem chainAcc (run : Run) : Statement (.chainAcc run) := by
  intro _
  simp [rings, carried]

theorem norm (run : Run) : Statement (.norm run) := by
  intro _
  simp [rings, carried]

theorem softmaxStep (run : Run) : Statement (.softmaxStep run) := by
  intro _
  simp [rings, carried]

theorem softmaxFinal (run : Run) : Statement (.softmaxFinal run) := by
  intro _
  simp [rings, carried]

theorem select (run : Run) : Statement (.select run) := by
  intro _
  simp [rings, carried]

theorem sample : Statement .sample := by
  intro _
  simp [rings, carried]

theorem compress (run : Run) : Statement (.compress run) := by
  intro _
  simp [rings, carried]

theorem expand (run : Run) : Statement (.expand run) := by
  intro _
  simp [rings, carried]

theorem scatterBuckets (run : Run) : Statement (.scatterBuckets run) := by
  intro _
  simp [rings, carried]

theorem quantiseMx (run : Run) : Statement (.quantiseMx run) := by
  intro _
  simp [rings, carried]

theorem rowstatOpen : Statement .rowstatOpen := by
  intro _
  simp [rings, carried]

theorem rowstatClose : Statement .rowstatClose := by
  intro _
  simp [rings, carried]

theorem rowstatSpill : Statement .rowstatSpill := by
  intro _
  simp [rings, carried]

theorem rowstatFill : Statement .rowstatFill := by
  intro _
  simp [rings, carried]

theorem hingeSend : Statement .hingeSend := by
  intro _
  simp [rings, carried]

theorem hingeSendLoad : Statement .hingeSendLoad := by
  intro _
  simp [rings, carried]

theorem hingeWait : Statement .hingeWait := by
  intro _
  simp [rings, carried]

theorem tableLoad : Statement .tableLoad := by
  intro _
  simp [rings, carried]

theorem tableSwap : Statement .tableSwap := by
  intro _
  simp [rings, carried]

theorem fence : Statement .fence := by
  intro _
  simp [rings, carried]

theorem eventSignal : Statement .eventSignal := by
  intro _
  simp [rings, carried]

theorem eventWait : Statement .eventWait := by
  intro _
  simp [rings, carried]

theorem digestSeal : Statement .digestSeal := by
  intro _
  simp [rings, carried]

theorem counterSnap : Statement .counterSnap := by
  intro _
  simp [rings, carried]

theorem accPeek : Statement .accPeek := by
  intro _
  simp [rings, carried]

theorem viDoorbell (port : RegPort) (data : W64) : Statement (.viDoorbell port data) := by
  intro _
  simp [rings, carried]

theorem create (port : RegPort) (ring : BitVec 18) : Statement (.create port ring) := by
  intro _
  simp [rings, carried]

theorem resume (port : RegPort) (ring : BitVec 18) : Statement (.resume port ring) := by
  intro _
  simp [rings, carried]

theorem pause (port : RegPort) (ring : BitVec 18) : Statement (.pause port ring) := by
  intro _
  simp [rings, carried]

theorem destroy (port : RegPort) (ring : BitVec 18) : Statement (.destroy port ring) := by
  intro _
  simp [rings, carried]

theorem viTumblerInval (port : RegPort) (data : W64) : Statement (.viTumblerInval port data) := by
  intro _
  simp [rings, carried]

theorem viTolerance (port : RegPort) (data : W64) : Statement (.viTolerance port data) := by
  intro _
  simp [rings, carried]

theorem viRings (data : W64) : Statement (.viRings data) := by
  intro _
  simp [rings, carried]

theorem viDigestBase (port : RegPort) (data : W64) : Statement (.viDigestBase port data) := by
  intro _
  simp [rings, carried]

theorem evSelect (port : RegPort) (n : Fin 16) (data : W32) : Statement (.evSelect port n data) := by
  intro _
  simp [rings, carried]

theorem evCount (port : RegPort) (n : Fin 16) (data : W64) : Statement (.evCount port n data) := by
  intro _
  simp [rings, carried]

theorem evCtrlClear (port : RegPort) (freeze : Bool) : Statement (.evCtrlClear port freeze) := by
  intro _
  simp [rings, carried]

theorem mgFenceSet (handover : Bool) : Statement (.mgFenceSet handover) := by
  intro _
  simp [rings, carried]

theorem mgFenceClear (handover : Bool) : Statement (.mgFenceClear handover) := by
  intro _
  simp [rings, carried]

theorem mgFenceReset (fence handover : Bool) : Statement (.mgFenceReset fence handover) := by
  intro _
  simp [rings, carried]

theorem unitStop (flushEnds : Bool) : Statement (.unitStop flushEnds) := by
  intro _
  simp [rings, carried]

theorem stopAbortTimeout : Statement .stopAbortTimeout := by
  intro _
  simp [rings, carried]

theorem flushTimeout : Statement .flushTimeout := by
  intro _
  simp [rings, carried]

theorem rstN (lowMclk : Nat) : Statement (.rstN lowMclk) := by
  intro _
  simp [rings, carried]

theorem resetSequenceEnd : Statement .resetSequenceEnd := by
  intro _
  simp [rings, carried]

theorem mgTwinModeLockstep (primary clean : Bool) : Statement (.mgTwinModeLockstep primary clean) := by
  intro _
  simp [rings, carried]

theorem mgTwinModeCover (clean : Bool) : Statement (.mgTwinModeCover clean) := by
  intro _
  simp [rings, carried]

theorem mgTwinModeIndependent : Statement .mgTwinModeIndependent := by
  intro _
  simp [rings, carried]

theorem twinAliveTimeout : Statement .twinAliveTimeout := by
  intro _
  simp [rings, carried]

theorem twinSignature (signature : W64) : Statement (.twinSignature signature) := by
  intro _
  simp [rings, carried]

theorem mgPowerReqOff (autoOff : Bool) (floor ceil : BitVec 3) : Statement (.mgPowerReqOff autoOff floor ceil) := by
  intro _
  simp [rings, carried]

theorem mgPowerReqOn (autoOff : Bool) (floor ceil : BitVec 3) : Statement (.mgPowerReqOn autoOff floor ceil) := by
  intro _
  simp [rings, carried]

theorem pwrRailAck (level : Bool) : Statement (.pwrRailAck level) := by
  intro _
  simp [rings, carried]

theorem powerUpDone : Statement .powerUpDone := by
  intro _
  simp [rings, carried]

theorem mgKeyEraseVi (vi : ViId) : Statement (.mgKeyEraseVi vi) := by
  intro _
  simp [rings, carried]

theorem mgKeyEraseAll : Statement .mgKeyEraseAll := by
  intro _
  simp [rings, carried]

theorem mgtKeyWord (vi : ViId) (word : W32) : Statement (.mgtKeyWord vi word) := by
  intro _
  simp [rings, carried]

theorem mgViReset (vi : ViId) : Statement (.mgViReset vi) := by
  intro _
  simp [rings, carried]

theorem mgDetCtrl (data : W32) : Statement (.mgDetCtrl data) := by
  intro _
  simp [rings, carried]

theorem quiescentPoint : Statement .quiescentPoint := by
  intro _
  simp [rings, carried]

theorem mgTraceRptr (data : W32) : Statement (.mgTraceRptr data) := by
  intro _
  simp [rings, carried]

theorem replayDivergeTimeout : Statement .replayDivergeTimeout := by
  intro _
  simp [rings, carried]

theorem mgDbgTumbler (stage : Fin 8) (data : W64) : Statement (.mgDbgTumbler stage data) := by
  intro _
  simp [rings, carried]

theorem debugHalt (chipDebug halt : Bool) : Statement (.debugHalt chipDebug halt) := by
  intro _
  simp [rings, carried]

theorem mgRingCtxBase (data : W64) : Statement (.mgRingCtxBase data) := by
  intro _
  simp [rings, carried]

theorem registerWrite (port : RegPort) (offset : BitVec 16) (data : W64) : Statement (.registerWrite port offset data) := by
  intro _
  simp [rings, carried]

theorem arbitrate (error : Option HwError) : Statement (.arbitrate error) := by
  intro _
  simp [rings, carried]

theorem quantumExpiry : Statement .quantumExpiry := by
  intro _
  simp [rings, carried]

theorem contextReadReturn (ring : Nat) (error : Option HwError) : Statement (.contextReadReturn ring error) := by
  intro h
  simp [Instr.wellFormed, wfRing] at h
  simp [rings, carried, h.1]

theorem commandFetchReturn (read : RingRead) : Statement (.commandFetchReturn read) := by
  intro h
  simp [Instr.wellFormed, wfRing] at h
  simp [rings, carried, h.1]

theorem tumblerFetchReturn (vi : ViId) (read : WordRead) : Statement (.tumblerFetchReturn vi read) := by
  intro _
  simp [rings, carried]

theorem blockedWaitEnd (ring : Nat) : Statement (.blockedWaitEnd ring) := by
  intro h
  simp [Instr.wellFormed, wfRing] at h
  simp [rings, carried, h]

theorem eventWaitTimeout (ring : Nat) : Statement (.eventWaitTimeout ring) := by
  intro h
  simp [Instr.wellFormed, wfRing] at h
  simp [rings, carried, h]

theorem tableLoadDone : Statement .tableLoadDone := by
  intro _
  simp [rings, carried]

theorem tableSwapApply : Statement .tableSwapApply := by
  intro _
  simp [rings, carried]

theorem drnBeat (beat : Beat) : Statement (.drnBeat beat) := by
  intro h
  have h2 : beat.lanes.length ≤ 512 := of_decide_eq_true (show decide (beat.lanes.length ≤ 512) = true from h)
  simp [rings, carried, h2]

theorem shfAck (status : Bool) : Statement (.shfAck status) := by
  intro _
  simp [rings, carried]

theorem shiftAckTimeout : Statement .shiftAckTimeout := by
  intro _
  simp [rings, carried]

theorem shiftQueueSpace : Statement .shiftQueueSpace := by
  intro _
  simp [rings, carried]

theorem hingePartial (packet : HingePacket) : Statement (.hingePartial packet) := by
  intro h
  simp [Instr.wellFormed, wfPacket] at h
  simp [rings, carried, h.1]

theorem hingeFinal (packet : HingePacket) : Statement (.hingeFinal packet) := by
  intro h
  simp [Instr.wellFormed, wfPacket] at h
  simp [rings, carried, h.1]

theorem finalCommit (chain : BitVec 10) : Statement (.finalCommit chain) := by
  intro _
  simp [rings, carried]

theorem hingeRetract (packet : HingePacket) : Statement (.hingeRetract packet) := by
  intro h
  simp [Instr.wellFormed, wfPacket] at h
  simp [rings, carried, h.1]

theorem hingeNack (packet : HingePacket) : Statement (.hingeNack packet) := by
  intro h
  simp [Instr.wellFormed, wfPacket] at h
  simp [rings, carried, h.1]

theorem hingeProbe (packet : HingePacket) : Statement (.hingeProbe packet) := by
  intro h
  simp [Instr.wellFormed, wfPacket] at h
  simp [rings, carried, h.1]

theorem epochAheadResend (chain : BitVec 10) : Statement (.epochAheadResend chain) := by
  intro _
  simp [rings, carried]

theorem probeRetryTimer (chain : BitVec 10) : Statement (.probeRetryTimer chain) := by
  intro _
  simp [rings, carried]

theorem chainTimeout (chain : BitVec 10) : Statement (.chainTimeout chain) := by
  intro _
  simp [rings, carried]

theorem hngTxCredit (credits : BitVec 4) : Statement (.hngTxCredit credits) := by
  intro _
  simp [rings, carried]

theorem watchdogExpiry : Statement .watchdogExpiry := by
  intro _
  simp [rings, carried]

theorem scrub (word : ScrubWord) (found : ScrubResult) : Statement (.scrub word found) := by
  intro _
  simp [rings, carried]

theorem pwrDroop (level : Bool) : Statement (.pwrDroop level) := by
  intro _
  simp [rings, carried]

theorem droopWindowEnd : Statement .droopWindowEnd := by
  intro _
  simp [rings, carried]

theorem powerWindow (measured stepUp : Nat) : Statement (.powerWindow measured stepUp) := by
  intro _
  simp [rings, carried]

theorem pwrOpAck : Statement .pwrOpAck := by
  intro _
  simp [rings, carried]

theorem mgtGrant (grant : Byte) : Statement (.mgtGrant grant) := by
  intro _
  simp [rings, carried]

theorem grantZeroGate : Statement .grantZeroGate := by
  intro _
  simp [rings, carried]

theorem pwrThrottle (level : Bool) : Statement (.pwrThrottle level) := by
  intro _
  simp [rings, carried]

theorem throttleStep : Statement .throttleStep := by
  intro _
  simp [rings, carried]

theorem thmSenseUpdate (s0 s1 s2 s3 : BitVec 10) : Statement (.thmSenseUpdate s0 s1 s2 s3) := by
  intro _
  simp [rings, carried]

theorem idleTimer : Statement .idleTimer := by
  intro _
  simp [rings, carried]

theorem powerStateExitDone : Statement .powerStateExitDone := by
  intro _
  simp [rings, carried]

theorem pwrHoldup : Statement .pwrHoldup := by
  intro _
  simp [rings, carried]

theorem holdupCheckpointDone : Statement .holdupCheckpointDone := by
  intro _
  simp [rings, carried]

theorem pwrRestored : Statement .pwrRestored := by
  intro _
  simp [rings, carried]

theorem tstModeReq : Statement .tstModeReq := by
  intro _
  simp [rings, carried]

theorem testWipeDone : Statement .testWipeDone := by
  intro _
  simp [rings, carried]

theorem powerLoss : Statement .powerLoss := by
  intro _
  simp [rings, carried]

theorem powerStateEntryDone : Statement .powerStateEntryDone := by
  intro _
  simp [rings, carried]

theorem registerRead (port : RegPort) (offset : BitVec 16) : Statement (.registerRead port offset) := by
  intro _
  simp [rings, carried]

end Sys2Proof.Laws.Operands
end

