-- ==== Sys2Proof/Laws/Stores.lean ====
section
/-! SUPPORT. Where a pass stores: every byte outside the runs that the command notes as written reads as before. -/

namespace Sys2Proof.Machine

set_option Elab.async false

theorem spaceAddr_idem (sp : Space) (a : Nat) : spaceAddr sp (spaceAddr sp a) = spaceAddr sp a := by
  cases sp <;> simp [spaceAddr]

theorem inRuns_congr {l : List (Nat × Space × Nat × Nat)} {sp : Space} {a c : Nat} (h : spaceAddr sp a = spaceAddr sp c) :
    inRuns l sp a → inRuns l sp c := by
  rintro ⟨r, h1, h2, i, h3, h4⟩
  exact ⟨r, h1, h2, i, h3, h.symm.trans h4⟩

theorem inRuns_mono {l m : List (Nat × Space × Nat × Nat)} (h : ∀ r ∈ l, r ∈ m) {sp : Space} {a : Nat} : inRuns l sp a → inRuns m sp a := by
  rintro ⟨r, h1, h2⟩
  exact ⟨r, h r h1, h2⟩

/-- Every byte of some writes lies in their runs. -/
def VecWrites.ok (w : VecWrites) : Prop := ∀ x ∈ w.bytes, inRuns w.runs x.1 x.2.1

theorem VecWrites.empty_ok : VecWrites.empty.ok := by
  intro x hx
  simp [VecWrites.empty] at hx

theorem VecWrites.append_ok {a b : VecWrites} (ha : a.ok) (hb : b.ok) : (a.append b).ok := by
  intro x hx
  rcases List.mem_append.mp hx with h | h
  · exact inRuns_mono (fun r hr => List.mem_append.mpr (Or.inl hr)) (ha x h)
  · exact inRuns_mono (fun r hr => List.mem_append.mpr (Or.inr hr)) (hb x h)

theorem VecWrites.place_ok (d : Nat) (sp : Space) (a : Nat) (bs : List Byte) (p : Bool) : (VecWrites.place d sp a bs p).ok := by
  intro x hx
  obtain ⟨y, hy, rfl⟩ := List.mem_map.mp hx
  have hl : y.2 < bs.length := by
    have := List.snd_lt_of_mem_zipIdx hy
    simpa using this
  have he : bs.isEmpty = false := by
    cases bs with
    | nil => simp at hl
    | cons b l => rfl
  refine ⟨(d, sp, a, bs.length), ?_, rfl, y.2, hl, rfl⟩
  unfold VecWrites.place
  simp [he]

/-! ## Sectors -/

theorem sectorAdd_from (acc : List SectorBytes) (sp : Space) (a : Nat) (b : Byte) :
    ∀ x ∈ sectorAdd sp a b acc, ∀ y ∈ x.bytes, (x.space = sp ∧ 64 * x.sector + y.1 = a) ∨ ∃ z ∈ acc, z.space = x.space ∧ z.sector = x.sector ∧ y ∈ z.bytes := by
  induction acc with
  | nil =>
    intro x hx y hy
    simp only [sectorAdd, List.mem_singleton] at hx
    subst hx
    simp only [List.mem_singleton] at hy
    subst hy
    exact Or.inl ⟨rfl, by dsimp only; omega⟩
  | cons z rest ih =>
    intro x hx y hy
    unfold sectorAdd at hx
    split at hx
    · next hk =>
      rcases List.mem_cons.mp hx with rfl | hx
      · rcases List.mem_cons.mp hy with rfl | hy
        · refine Or.inl ⟨hk.1, ?_⟩
          dsimp only
          rw [hk.2]
          omega
        · exact Or.inr ⟨z, List.mem_cons_self, rfl, rfl, (List.mem_filter.mp hy).1⟩
      · exact Or.inr ⟨x, List.mem_cons_of_mem _ hx, rfl, rfl, hy⟩
    · rcases List.mem_cons.mp hx with rfl | hx
      · exact Or.inr ⟨x, List.mem_cons_self, rfl, rfl, hy⟩
      · rcases ih x hx y hy with h | ⟨w, h1, h2⟩
        · exact Or.inl h
        · exact Or.inr ⟨w, List.mem_cons_of_mem _ h1, h2⟩

theorem bySector_from (l : List (Space × Nat × Byte)) :
    ∀ x ∈ bySector l, ∀ y ∈ x.bytes, ∃ e ∈ l, x.space = e.1 ∧ 64 * x.sector + y.1 = spaceAddr e.1 e.2.1 := by
  have key : ∀ (l : List (Space × Nat × Byte)) (acc : List SectorBytes), ∀ x ∈ l.foldl (fun acc x => sectorAdd x.1 (spaceAddr x.1 x.2.1) x.2.2 acc) acc,
      ∀ y ∈ x.bytes, (∃ e ∈ l, x.space = e.1 ∧ 64 * x.sector + y.1 = spaceAddr e.1 e.2.1)
        ∨ ∃ z ∈ acc, z.space = x.space ∧ z.sector = x.sector ∧ y ∈ z.bytes := by
    intro l
    induction l with
    | nil => exact fun acc x hx y hy => Or.inr ⟨x, hx, rfl, rfl, hy⟩
    | cons e rest ih =>
      intro acc x hx y hy
      rw [List.foldl_cons] at hx
      rcases ih _ x hx y hy with ⟨f, h1, h2⟩ | ⟨z, h1, h2, h3, h4⟩
      · exact Or.inl ⟨f, List.mem_cons_of_mem _ h1, h2⟩
      · rcases sectorAdd_from _ _ _ _ z h1 y h4 with h5 | ⟨w, h5, h6, h7, h8⟩
        · exact Or.inl ⟨e, List.mem_cons_self, h2 ▸ h5.1, h3 ▸ h5.2⟩
        · exact Or.inr ⟨w, h5, h6.trans h2, h7.trans h3, h8⟩
  intro x hx y hy
  rcases key l [] x hx y hy with h | ⟨z, h, _⟩
  · exact h
  · simp at h

/-- Every byte of a group of sector bytes lies in some runs. -/
def bytesIn (l : List (Nat × Space × Nat × Nat)) (sp : Space) (k : Nat) (bs : List (Nat × Byte)) : Prop :=
  ∀ y ∈ bs, inRuns l sp (64 * k + y.1)

theorem bySector_in {b : List (Space × Nat × Byte)} {l : List (Nat × Space × Nat × Nat)} (h : ∀ x ∈ b, inRuns l x.1 x.2.1) :
    ∀ x ∈ bySector b, bytesIn l x.space x.sector x.bytes := by
  intro x hx y hy
  obtain ⟨e, h1, h2, h3⟩ := bySector_from _ x hx y hy
  rw [h2, h3]
  exact inRuns_congr (spaceAddr_idem _ _).symm (h e h1)

/-- Bytes outside some runs read as before. -/
def Outside (l : List (Nat × Space × Nat × Nat)) (s t : State) : Prop := ∀ sp c, ¬ inRuns l sp c → readByte t sp c = readByte s sp c

theorem Outside.refl (l : List (Nat × Space × Nat × Nat)) (s : State) : Outside l s s := fun _ _ _ => rfl
theorem Outside.trans {l : List (Nat × Space × Nat × Nat)} {s t u : State} (h : Outside l s t) (k : Outside l t u) : Outside l s u :=
  fun sp c hc => (k sp c hc).trans (h sp c hc)
theorem Outside.mono {l m : List (Nat × Space × Nat × Nat)} (hm : ∀ r ∈ l, r ∈ m) {s t : State} (h : Outside l s t) : Outside m s t :=
  fun sp c hc => h sp c (fun k => hc (inRuns_mono hm k))
theorem Outside.foldl {β : Type} {m : List (Nat × Space × Nat × Nat)} (f : State → β → State) (l : List β)
    (hf : ∀ s, ∀ x ∈ l, Outside m s (f s x)) (s : State) : Outside m s (l.foldl f s) := by
  induction l generalizing s with
  | nil => exact Outside.refl m s
  | cons x rest ih => exact (hf s x List.mem_cons_self).trans (ih (fun s y hy => hf s y (List.mem_cons_of_mem _ hy)) _)
theorem Outside.of_mem {l : List (Nat × Space × Nat × Nat)} {s t : State} (h1 : t.dev = s.dev) (h2 : t.tile = s.tile) (h3 : t.twinTile = s.twinTile) :
    Outside l s t := fun sp a _ => readByte_mem h1 h2 h3 sp a

theorem countEvent_outside (l : List (Nat × Space × Nat × Nat)) (s : State) (c n : Nat) (v : Option ViId) : Outside l s (countEvent c n v s) :=
  fun sp a _ => readByte_countEvent s c n v sp a

theorem putSector_outside (l : List (Nat × Space × Nat × Nat)) (sp : Space) (k : Nat) (bs : List (Nat × Byte)) (s : State)
    (h : bytesIn l sp k bs) : Outside l s (putSector sp k bs s) := by
  refine Outside.foldl _ bs (fun s y hy sq c hc => ?_) s
  by_cases hs : sq = sp
  · subst hs
    rw [readByte_writeByte, if_neg]
    intro he
    exact hc (inRuns_congr (by first | exact he | exact he.symm) (h y hy))
  · exact readByte_writeByte_space _ _ _ _ hs

theorem writeWhole_outside (l : List (Nat × Space × Nat × Nat)) (v : ViId) (sp : Space) (k : Nat) (bs : List (Nat × Byte)) (p : Bool) (s : State)
    (h : bytesIn l sp k bs) : Outside l s (writeWhole v sp k bs p s) := by
  unfold writeWhole
  split
  · exact Outside.refl _ _
  · intro sq c hc
    rw [readByte_setSectorPoison]
    exact ((countEvent_outside l s _ _ _).trans (putSector_outside l sp k bs _ h)) sq c hc

theorem mergeSector_outside (l : List (Nat × Space × Nat × Nat)) (v : ViId) (x : HeldSector) (s : State)
    (h : bytesIn l x.space x.sector x.bytes) : Outside l s (mergeSector v x s) := by
  unfold mergeSector
  dsimp only
  refine Outside.trans ?_ (writeWhole_outside _ _ _ _ _ _ _ h)
  split
  · exact ((countEvent_outside _ _ _ _ _).trans (countEvent_outside _ _ _ _ _)).trans (countEvent_outside _ _ _ _ _)
  · exact (countEvent_outside _ _ _ _ _).trans (countEvent_outside _ _ _ _ _)

/-! ## The write buffer -/

/-- What the combining buffers of a bucket command hold lies in some runs. -/
def combineIn (l : List (Nat × Space × Nat × Nat)) (rc : RunCmd) : Prop :=
  ∀ x ∈ rc.prog.combine, bytesIn l x.2.space x.2.sector x.2.bytes

/-- What is held of a command's writes lies in its runs. -/
structure heldIn (rc : RunCmd) : Prop where
  held    : ∀ h ∈ rc.prog.held, bytesIn rc.prog.wrote h.space h.sector h.bytes
  combine : combineIn rc.prog.wrote rc

/-- Work that stores in its runs alone. -/
structure Stores (a b : RunCmd × State) : Prop where
  more    : ∀ r ∈ a.1.prog.wrote, r ∈ b.1.prog.wrote
  held    : heldIn b.1
  outside : Outside b.1.prog.wrote a.2 b.2

theorem Stores.refl {a : RunCmd × State} (h : heldIn a.1) : Stores a a := ⟨fun _ h => h, h, Outside.refl _ _⟩
theorem Stores.trans {a b c : RunCmd × State} (h : Stores a b) (k : Stores b c) : Stores a c :=
  ⟨fun r hr => k.more r (h.more r hr), k.held, (h.outside.mono k.more).trans k.outside⟩

theorem bytesIn_mono {l m : List (Nat × Space × Nat × Nat)} (h : ∀ r ∈ l, r ∈ m) {sp : Space} {k : Nat} {bs : List (Nat × Byte)}
    (hb : bytesIn l sp k bs) : bytesIn m sp k bs := fun y hy => inRuns_mono h (hb y hy)

/-- Writes whose bytes lie in runs noted before or in their own, for a command that holds nothing outside these. -/
theorem bufferWrites_stores (rc : RunCmd) (w : VecWrites) (s : State)
    (hw : ∀ x ∈ w.bytes, inRuns (rc.prog.wrote ++ w.runs) x.1 x.2.1)
    (hh : ∀ h ∈ rc.prog.held, bytesIn rc.prog.wrote h.space h.sector h.bytes)
    (hc : combineIn (rc.prog.wrote ++ w.runs) rc) : Stores (rc, s) (bufferWrites rc w s) := by
  have hin := bySector_in hw
  have hl : ∀ r ∈ rc.prog.wrote, r ∈ rc.prog.wrote ++ w.runs := fun r hr => List.mem_append.mpr (Or.inl hr)
  unfold bufferWrites
  dsimp only
  generalize bySector w.bytes = new at hin
  have h1 : Outside (rc.prog.wrote ++ w.runs) s
      ((rc.prog.held.filter (fun h => !new.any (fun x => decide (h.space = x.space) && decide (h.sector = x.sector)))).foldl
        (fun s h => mergeSector rc.vi h s) s) := by
    refine Outside.foldl _ _ (fun s x hx => mergeSector_outside _ _ _ _ ?_) s
    exact bytesIn_mono hl (hh x (List.mem_filter.mp hx).1)
  generalize (rc.prog.held.filter (fun h => !new.any (fun x => decide (h.space = x.space) && decide (h.sector = x.sector)))).foldl
    (fun s h => mergeSector rc.vi h s) s = s1 at h1
  have key : ∀ (f : List HeldSector × State → SectorBytes → List HeldSector × State)
      (hf : ∀ a, ∀ x ∈ new, (∀ h ∈ a.1, bytesIn (rc.prog.wrote ++ w.runs) h.space h.sector h.bytes) →
        (∀ h ∈ (f a x).1, bytesIn (rc.prog.wrote ++ w.runs) h.space h.sector h.bytes) ∧ Outside (rc.prog.wrote ++ w.runs) a.2 (f a x).2)
      (l : List SectorBytes) (_ : ∀ x ∈ l, x ∈ new) (a : List HeldSector × State)
      (_ : ∀ h ∈ a.1, bytesIn (rc.prog.wrote ++ w.runs) h.space h.sector h.bytes),
      (∀ h ∈ (l.foldl f a).1, bytesIn (rc.prog.wrote ++ w.runs) h.space h.sector h.bytes)
        ∧ Outside (rc.prog.wrote ++ w.runs) a.2 (l.foldl f a).2 := by
    intro f hf l
    induction l with
    | nil => exact fun _ a ha => ⟨ha, Outside.refl _ _⟩
    | cons x rest ih =>
      intro hl a ha
      have h2 := hf a x (hl x List.mem_cons_self) ha
      have h3 := ih (fun y hy => hl y (List.mem_cons_of_mem _ hy)) (f a x) h2.1
      exact ⟨h3.1, h2.2.trans h3.2⟩
  have h2 := key (fun (a : List HeldSector × State) x =>
    match rc.prog.held.find? (fun h => decide (h.space = x.space) && decide (h.sector = x.sector)) with
    | some h =>
      if (x.bytes ++ h.bytes.filter (fun y => !x.bytes.any (fun z => decide (z.1 = y.1)))).length = 64 then
        (a.1, writeWhole rc.vi x.space x.sector (x.bytes ++ h.bytes.filter (fun y => !x.bytes.any (fun z => decide (z.1 = y.1))))
          (h.poison || w.poisoned.any (fun q => decide (q.1 = x.space) && decide (q.2 = x.sector))) a.2)
      else (a.1, mergeSector rc.vi ⟨x.space, x.sector, x.bytes ++ h.bytes.filter (fun y => !x.bytes.any (fun z => decide (z.1 = y.1))),
          h.poison || w.poisoned.any (fun q => decide (q.1 = x.space) && decide (q.2 = x.sector))⟩ a.2)
    | none =>
      if x.bytes.length = 64 then
        (a.1, writeWhole rc.vi x.space x.sector x.bytes (w.poisoned.any (fun q => decide (q.1 = x.space) && decide (q.2 = x.sector))) a.2)
      else (a.1 ++ [⟨x.space, x.sector, x.bytes, w.poisoned.any (fun q => decide (q.1 = x.space) && decide (q.2 = x.sector))⟩], a.2))
    (fun a x hx ha => by
      have hx1 := hin x hx
      split
      · rename_i h hf
        have hp := List.find?_some hf
        simp only [Bool.and_eq_true, decide_eq_true_eq] at hp
        have hh1 := bytesIn_mono hl (hh h (List.mem_of_find?_eq_some hf))
        have hb : bytesIn (rc.prog.wrote ++ w.runs) x.space x.sector
            (x.bytes ++ h.bytes.filter (fun y => !x.bytes.any (fun z => decide (z.1 = y.1)))) := by
          intro y hy
          rcases List.mem_append.mp hy with hy | hy
          · exact hx1 y hy
          · have := hh1 y (List.mem_filter.mp hy).1
            rw [hp.1, hp.2] at this
            exact this
        split
        · exact ⟨ha, writeWhole_outside _ _ _ _ _ _ _ hb⟩
        · exact ⟨ha, mergeSector_outside _ _ _ _ hb⟩
      · split
        · exact ⟨ha, writeWhole_outside _ _ _ _ _ _ _ hx1⟩
        · refine ⟨fun h hh => ?_, Outside.refl _ _⟩
          rcases List.mem_append.mp hh with hh | hh
          · exact ha h hh
          · rw [List.mem_singleton.mp hh]
            exact hx1)
    new (fun x hx => hx) ([], s1) (fun h hh => by simp at hh)
  exact ⟨hl, ⟨h2.1, hc⟩, h1.trans h2.2⟩

theorem flushSectors_stores (rc : RunCmd) (s : State) (hh : heldIn rc) : Stores (rc, s) (flushSectors rc s) :=
  ⟨fun _ h => h, ⟨fun h hh => by simp [flushSectors] at hh, hh.combine⟩,
   Outside.foldl _ _ (fun s x hx => mergeSector_outside _ _ _ _ (hh.held x hx)) s⟩

/-! ## EMIT -/

/-- Work on a command that leaves its write buffer and its runs as they are. -/
structure SameBuf (a b : RunCmd) : Prop where
  held    : b.prog.held = a.prog.held
  wrote   : b.prog.wrote = a.prog.wrote
  combine : b.prog.combine = a.prog.combine

theorem SameBuf.refl (a : RunCmd) : SameBuf a a := ⟨rfl, rfl, rfl⟩
theorem SameBuf.trans {a b c : RunCmd} (h : SameBuf a b) (k : SameBuf b c) : SameBuf a c :=
  ⟨k.held.trans h.held, k.wrote.trans h.wrote, k.combine.trans h.combine⟩
theorem SameBuf.combineIn {a b : RunCmd} (h : SameBuf a b) {l : List (Nat × Space × Nat × Nat)} (k : combineIn l a) :
    combineIn l b := by
  unfold Machine.combineIn
  rw [h.combine]
  exact k
theorem SameBuf.keepsHeld {a b : RunCmd} (h : SameBuf a b) (k : heldIn a) : heldIn b :=
  ⟨by rw [h.held, h.wrote]; exact k.held, by rw [h.wrote]; exact h.combineIn k.combine⟩
theorem SameBuf.stores {a b : RunCmd} {s t : State} (h : SameBuf a b) (k : heldIn a) (ho : Outside b.prog.wrote s t) : Stores (a, s) (b, t) :=
  ⟨fun r hr => by show r ∈ b.prog.wrote; rw [h.wrote]; exact hr, h.keepsHeld k, ho⟩

theorem sameBuf_foldl {β : Type} (f : RunCmd → β → RunCmd) (hf : ∀ a x, SameBuf a (f a x)) (l : List β) (a : RunCmd) :
    SameBuf a (l.foldl f a) := by
  induction l generalizing a with
  | nil => exact SameBuf.refl a
  | cons x rest ih => exact (hf a x).trans (ih _)

/-- What EMIT gives: the buffer as it was, writes within their runs. -/
structure Emits (rc : RunCmd) (o : EmitOut) : Prop where
  buf : SameBuf rc o.rc
  ok  : o.writes.ok

theorem emits_foldl {β : Type} (f : EmitOut → β → EmitOut) (hf : ∀ o x, o.writes.ok → Emits o.rc (f o x)) (l : List β) (o : EmitOut)
    (ho : o.writes.ok) : Emits o.rc (l.foldl f o) := by
  induction l generalizing o with
  | nil => exact ⟨SameBuf.refl _, ho⟩
  | cons x rest ih =>
    have h := hf o x ho
    have k := ih (f o x) h.ok
    exact ⟨h.buf.trans k.buf, k.ok⟩

/-- Writes into whose runs their bytes fall, after runs noted before. -/
theorem VecWrites.ok.after {w : VecWrites} (h : w.ok) (l : List (Nat × Space × Nat × Nat)) :
    ∀ x ∈ w.bytes, inRuns (l ++ w.runs) x.1 x.2.1 :=
  fun x hx => inRuns_mono (fun _ hr => List.mem_append.mpr (Or.inr hr)) (h x hx)

/-- The same for work that carries the command with its writes. -/
theorem pairs_foldl {β : Type} (f : RunCmd × VecWrites → β → RunCmd × VecWrites)
    (hf : ∀ o x, o.2.ok → SameBuf o.1 (f o x).1 ∧ (f o x).2.ok) (l : List β) (o : RunCmd × VecWrites) (ho : o.2.ok) :
    SameBuf o.1 (l.foldl f o).1 ∧ (l.foldl f o).2.ok := by
  induction l generalizing o with
  | nil => exact ⟨SameBuf.refl _, ho⟩
  | cons x rest ih =>
    have h := hf o x ho
    have k := ih (f o x) h.2
    exact ⟨h.1.trans k.1, k.2⟩

theorem placeScalars_emits (rc : RunCmd) (es : List Elem) : SameBuf rc (placeScalars rc es).1 ∧ (placeScalars rc es).2.ok :=
  pairs_foldl (fun (o : RunCmd × VecWrites) e => (countKept o.1 e, o.2.append (VecWrites.place 4 (descSpace rc (descOf rc 4))
      (scalarAddr o.1 e (spGet 0 o.1.prog.kept e.row)) (natBytes (elemBytes (tFmt rc.tumbler)) (emitOne rc e).raw) e.y.poison)))
    (fun _ _ ho => ⟨⟨rfl, rfl, rfl⟩, VecWrites.append_ok ho (VecWrites.place_ok _ _ _ _ _)⟩) _ (rc, VecWrites.empty) VecWrites.empty_ok

theorem emitScalars_emits (rc : RunCmd) (v : Nat) (es : List Elem) : Emits rc (emitScalars rc v es) := by
  unfold emitScalars
  dsimp only
  split
  · exact ⟨⟨rfl, rfl, rfl⟩, VecWrites.empty_ok⟩
  · exact ⟨(placeScalars_emits _ _).1, (placeScalars_emits _ _).2⟩

theorem finishPacked_emits (rc : RunCmd) : Emits rc (finishPacked rc) := by
  have h := pairs_foldl (fun (o : RunCmd × VecWrites) (x : Nat × List Elem) =>
      ((placeScalars o.1 x.2).1, o.2.append (placeScalars o.1 x.2).2))
    (fun o x ho => ⟨(placeScalars_emits o.1 x.2).1, VecWrites.append_ok ho (placeScalars_emits o.1 x.2).2⟩)
    rc.prog.packPend ({ rc with prog := { rc.prog with packPend := [] } }, VecWrites.empty) VecWrites.empty_ok
  exact ⟨SameBuf.trans (b := { rc with prog := { rc.prog with packPend := [] } }) ⟨rfl, rfl, rfl⟩ h.1, h.2⟩

/-- What the encoding of a block gives. -/
structure EmitsBlock (rc : RunCmd) (o : BlockOut) : Prop where
  buf : SameBuf rc o.rc
  ok  : o.writes.ok

theorem emitMx_emits (rc : RunCmd) (l : List BlockItem) : EmitsBlock rc (emitMx rc l) :=
  ⟨⟨rfl, rfl, rfl⟩, VecWrites.append_ok (VecWrites.place_ok _ _ _ _ _) (VecWrites.place_ok _ _ _ _ _)⟩

theorem enterGroup_emits (rc : RunCmd) (b : Nat) : SameBuf rc (enterGroup rc b).1 ∧ (enterGroup rc b).2.ok := by
  unfold enterGroup
  split
  · exact ⟨SameBuf.refl _, VecWrites.empty_ok⟩
  · exact ⟨⟨rfl, rfl, rfl⟩, VecWrites.place_ok _ _ _ _ _⟩

theorem emitTagged_emits (rc : RunCmd) (p : Bool) (l : List BlockItem) : EmitsBlock rc (emitTagged rc p l) := by
  have hg : SameBuf rc (if p then enterGroup rc ((l.map (fun x => x.block)).headD 0) else (rc, VecWrites.empty)).1
      ∧ (if p then enterGroup rc ((l.map (fun x => x.block)).headD 0) else (rc, VecWrites.empty)).2.ok := by
    split
    · exact enterGroup_emits _ _
    · exact ⟨SameBuf.refl _, VecWrites.empty_ok⟩
  unfold emitTagged
  dsimp only
  generalize (if p then enterGroup rc ((l.map (fun x => x.block)).headD 0) else (rc, VecWrites.empty)) = g at hg
  split
  · exact ⟨hg.1.trans ⟨rfl, rfl, rfl⟩, VecWrites.append_ok (VecWrites.append_ok hg.2 (VecWrites.place_ok _ _ _ _ false))
      (VecWrites.append_ok (VecWrites.place_ok _ _ _ _ _) (VecWrites.place_ok _ _ _ _ _))⟩
  · exact ⟨hg.1.trans ⟨rfl, rfl, rfl⟩, VecWrites.append_ok hg.2 (VecWrites.append_ok (VecWrites.place_ok _ _ _ _ _) (VecWrites.place_ok _ _ _ _ _))⟩

theorem addSqnr_buf (rc : RunCmd) (v : Nat) (l : List (Nat × W64 × W64)) : SameBuf rc (addSqnr rc v l) := by
  unfold addSqnr
  split <;> exact ⟨rfl, rfl, rfl⟩

theorem emitBlocks_emits (rc : RunCmd) (v : Nat) (one : RunCmd → List BlockItem → BlockOut) (h1 : ∀ r g, EmitsBlock r (one r g)) (l : List BlockItem) :
    Emits rc (emitBlocks rc v one l) := by
  unfold emitBlocks
  dsimp only
  have key : ∀ (gs : List (List BlockItem)) (a : EmitOut × List (Nat × W64 × W64)), a.1.writes.ok → Emits a.1.rc (gs.foldl (fun a g =>
      let o := one a.1.rc g
      (⟨o.rc, a.1.writes.append o.writes, a.1.flags ++ o.flags⟩, a.2 ++ o.terms)) a).1 := by
    intro gs
    induction gs with
    | nil => exact fun a ha => ⟨SameBuf.refl _, ha⟩
    | cons g rest ih =>
      intro a ha
      rw [List.foldl_cons]
      have h := h1 a.1.rc g
      have k := ih (⟨(one a.1.rc g).rc, a.1.writes.append (one a.1.rc g).writes, a.1.flags ++ (one a.1.rc g).flags⟩, a.2 ++ (one a.1.rc g).terms)
        (VecWrites.append_ok ha h.ok)
      exact ⟨h.buf.trans k.buf, k.ok⟩
  have k := key (groupBlocks l) (⟨rc, VecWrites.empty, []⟩, []) VecWrites.empty_ok
  exact ⟨k.buf.trans (addSqnr_buf _ _ _), k.ok⟩

theorem emitPending_emits (n : Nat) (o : EmitOut) (ho : o.writes.ok) : Emits o.rc (emitPending n o) := by
  induction n generalizing o with
  | zero => exact ⟨SameBuf.refl _, ho⟩
  | succ n ih =>
    unfold emitPending
    split
    · exact ⟨SameBuf.refl _, ho⟩
    · rename_i items _
      dsimp only
      have h := emitBlocks_emits { o.rc with prog := { o.rc.prog with
        tagPend := spErase o.rc.prog.tagPend o.rc.prog.tagNext, tagNext := o.rc.prog.tagNext + 1 } } o.rc.prog.tagNext _ (fun r g => emitTagged_emits r true g) items
      have h0 : SameBuf o.rc { o.rc with prog := { o.rc.prog with
        tagPend := spErase o.rc.prog.tagPend o.rc.prog.tagNext, tagNext := o.rc.prog.tagNext + 1 } } := ⟨rfl, rfl, rfl⟩
      generalize emitBlocks _ o.rc.prog.tagNext _ items = x at h ⊢
      have k := ih ⟨x.rc, o.writes.append x.writes, o.flags ++ x.flags⟩ (VecWrites.append_ok ho h.ok)
      exact ⟨(h0.trans h.buf).trans k.buf, k.ok⟩

theorem emitTaggedVector_emits (rc : RunCmd) (v : Nat) (l : List BlockItem) : Emits rc (emitTaggedVector rc v l) := by
  unfold emitTaggedVector
  split
  · exact emitBlocks_emits _ _ _ (fun r g => emitTagged_emits r false g) _
  · have h := emitPending_emits (({ rc with prog := { rc.prog with tagPend := spPut rc.prog.tagPend v l } } : RunCmd).prog.tagPend.length)
      ⟨{ rc with prog := { rc.prog with tagPend := spPut rc.prog.tagPend v l } }, VecWrites.empty, []⟩ VecWrites.empty_ok
    exact ⟨SameBuf.trans (b := { rc with prog := { rc.prog with tagPend := spPut rc.prog.tagPend v l } }) ⟨rfl, rfl, rfl⟩ h.buf, h.ok⟩

theorem finishEmit_emits (rc : RunCmd) : Emits rc (finishEmit rc) := by
  unfold finishEmit
  split
  · exact finishPacked_emits _
  · dsimp only
    have h := emits_foldl (fun (o : EmitOut) (x : Nat × List BlockItem) =>
        let y := emitBlocks { o.rc with prog := { o.rc.prog with tagPend := spErase o.rc.prog.tagPend x.1 } } x.1
          (fun rc g => emitTagged rc true g) x.2
        ⟨y.rc, o.writes.append y.writes, o.flags ++ y.flags⟩)
      (fun o x ho => by
        have k := emitBlocks_emits { o.rc with prog := { o.rc.prog with tagPend := spErase o.rc.prog.tagPend x.1 } } x.1 _
          (fun r g => emitTagged_emits r true g) x.2
        have h0 : SameBuf o.rc { o.rc with prog := { o.rc.prog with tagPend := spErase o.rc.prog.tagPend x.1 } } := ⟨rfl, rfl, rfl⟩
        exact ⟨h0.trans k.buf, VecWrites.append_ok ho k.ok⟩) rc.prog.tagPend ⟨rc, VecWrites.empty, []⟩ VecWrites.empty_ok
    exact ⟨h.buf, VecWrites.append_ok h.ok (VecWrites.place_ok _ _ _ _ _)⟩

theorem emitVector_emits (rc : RunCmd) (v : Nat) (es : List Elem) (f : RegFile) : Emits rc (emitVector rc v es f).1 := by
  unfold emitVector
  dsimp only
  split
  · exact ⟨SameBuf.refl _, VecWrites.empty_ok⟩
  · have h : ∀ mem : Bool, Emits rc (if !mem then
          ⟨(es.filter (emitsElem rc)).foldl countKept rc, VecWrites.empty, []⟩
        else if tFmt rc.tumbler = codeTagged then withUses rc es (emitTaggedVector rc v (blockItems rc es))
        else if isMx (tFmt rc.tumbler) then withUses rc es (emitBlocks rc v emitMx (blockItems rc es))
        else emitScalars rc v es : EmitOut) := by
      intro mem
      split
      · exact ⟨sameBuf_foldl countKept (fun _ _ => ⟨rfl, rfl, rfl⟩) _ rc, VecWrites.empty_ok⟩
      · split
        · exact ⟨(emitTaggedVector_emits _ _ _).buf, (emitTaggedVector_emits _ _ _).ok⟩
        · split
          · exact ⟨(emitBlocks_emits _ v _ (fun r g => emitMx_emits r g) _).buf, (emitBlocks_emits _ v _ (fun r g => emitMx_emits r g) _).ok⟩
          · exact emitScalars_emits _ _ _
    split
    · exact ⟨(h _).buf.trans ⟨rfl, rfl, rfl⟩, (h _).ok⟩
    · exact h _

/-! ## A vector -/

/-- What a writer gives: bytes that lie in runs noted before or in its own, those that it keeps to combine among them. -/
structure Gives (l : List (Nat × Space × Nat × Nat)) (rc : RunCmd) (o : EmitOut) : Prop where
  held    : o.rc.prog.held = rc.prog.held
  wrote   : o.rc.prog.wrote = rc.prog.wrote
  bytes   : ∀ x ∈ o.writes.bytes, inRuns (l ++ o.writes.runs) x.1 x.2.1
  combine : combineIn (l ++ o.writes.runs) o.rc

theorem combineIn_mono {l m : List (Nat × Space × Nat × Nat)} (h : ∀ r ∈ l, r ∈ m) {rc : RunCmd} (hc : combineIn l rc) : combineIn m rc :=
  fun x hx => bytesIn_mono h (hc x hx)

theorem Emits.gives {rc : RunCmd} {o : EmitOut} (h : Emits rc o) {l : List (Nat × Space × Nat × Nat)} (hc : combineIn l rc) :
    Gives l rc o :=
  ⟨h.buf.held, h.buf.wrote, h.ok.after l, combineIn_mono (fun _ hr => List.mem_append.mpr (Or.inl hr)) (h.buf.combineIn hc)⟩

/-- A writer that stores within its runs. -/
def Writer.within (w : Writer) : Prop := ∀ s rc v es, combineIn rc.prog.wrote rc →
  Gives rc.prog.wrote rc (w.write s rc v es).1 ∧ ∀ l, Outside l s (w.write s rc v es).2

theorem emitWriter_within : emitWriter.within := by
  intro s rc v es hc
  unfold emitWriter
  dsimp only
  refine ⟨(emitVector_emits _ _ _ _).gives hc, fun l => ?_⟩
  split
  · exact Outside.refl _ _
  · exact Outside.of_mem rfl rfl rfl

/-- What placing records gives, after runs noted before. -/
def Placing.within (l : List (Nat × Space × Nat × Nat)) (rc : RunCmd) (a : Placing) : Prop := Gives l rc ⟨a.rc, a.writes, []⟩

theorem combineSector_within (l : List (Nat × Space × Nat × Nat)) (rc : RunCmd) (key : Nat) (b : Bool) (p : Placing) (x : SectorBytes)
    (hp : p.within l rc) (hx : bytesIn (l ++ p.writes.runs) x.space x.sector x.bytes) :
    (combineSector key b p x).within l rc ∧ (combineSector key b p x).writes.runs = p.writes.runs := by
  have hbs : bytesIn (l ++ p.writes.runs) x.space x.sector (x.bytes
      ++ (((p.rc.prog.combine.filter (fun h => decide (h.1 = key) && decide (h.2.space = x.space) && decide (h.2.sector = x.sector))).flatMap
        (fun h => h.2.bytes)).filter (fun y => !x.bytes.any (fun z => decide (z.1 = y.1))))) := by
    intro y hy
    rcases List.mem_append.mp hy with hy | hy
    · exact hx y hy
    · obtain ⟨h, h1, h2⟩ := List.mem_flatMap.mp (List.mem_filter.mp hy).1
      obtain ⟨h3, h4⟩ := List.mem_filter.mp h1
      simp only [Bool.and_eq_true, decide_eq_true_eq] at h4
      have := hp.combine h h3 y h2
      rwa [h4.1.2, h4.2] at this
  have hrest : ∀ y ∈ p.rc.prog.combine.filter (fun h => !(decide (h.1 = key) && decide (h.2.space = x.space) && decide (h.2.sector = x.sector))),
      bytesIn (l ++ p.writes.runs) y.2.space y.2.sector y.2.bytes := fun y hy => hp.combine y (List.mem_filter.mp hy).1
  unfold combineSector
  dsimp only
  split
  · refine ⟨⟨hp.held, hp.wrote, ?_, ?_⟩, by simp [VecWrites.append]⟩
    · intro y hy
      simp only [VecWrites.append, List.append_nil] at hy ⊢
      rcases List.mem_append.mp hy with hy | hy
      · exact hp.bytes y hy
      · obtain ⟨z, hz, rfl⟩ := List.mem_map.mp hy
        exact hbs z hz
    · simp only [VecWrites.append, List.append_nil]
      exact hrest
  · refine ⟨⟨hp.held, hp.wrote, hp.bytes, ?_⟩, rfl⟩
    intro y hy
    rcases List.mem_append.mp hy with hy | hy
    · exact hrest y hy
    · rw [List.mem_singleton.mp hy]
      exact hbs

theorem combineRecord_within (l : List (Nat × Space × Nat × Nat)) (rc : RunCmd) (key : Nat) (sp : Space) (a : Nat) (bs : List Byte) (b : Bool)
    (p : Placing) (hp : p.within l rc) : (combineRecord key sp a bs b p).within l rc := by
  have key2 : ∀ (xs : List SectorBytes) (q : Placing), q.within l rc →
      (∀ x ∈ xs, bytesIn (l ++ q.writes.runs) x.space x.sector x.bytes) → (xs.foldl (combineSector key b) q).within l rc := by
    intro xs
    induction xs with
    | nil => exact fun q hq _ => hq
    | cons x rest ih =>
      intro q hq hx
      have h := combineSector_within l rc key b q x hq (hx x List.mem_cons_self)
      refine ih _ h.1 (fun y hy => ?_)
      rw [h.2]
      exact hx y (List.mem_cons_of_mem _ hy)
  have hm : ∀ r ∈ l ++ p.writes.runs, r ∈ l ++ (p.writes.runs ++ (VecWrites.place key sp a bs b).runs) := fun r hr => by
    simp only [List.mem_append] at hr ⊢
    tauto
  refine key2 _ _ ⟨hp.held, hp.wrote, fun y hy => ?_, combineIn_mono hm hp.combine⟩ (fun x hx => ?_)
  · simp only [VecWrites.append, List.append_nil] at hy ⊢
    exact inRuns_mono hm (hp.bytes y hy)
  · refine bytesIn_mono (fun r hr => ?_) (bySector_in (VecWrites.place_ok key sp a bs b) x hx)
    simp only [VecWrites.append, List.mem_append]
    exact Or.inr (Or.inr hr)

theorem placeRecord_within (l : List (Nat × Space × Nat × Nat)) (rc : RunCmd) (s : State) (a : Placing) (g : GateRecord)
    (ha : a.within l rc) : (placeRecord s a g).within l rc := by
  have hq : ∀ q : Progress, q.held = a.rc.prog.held → q.wrote = a.rc.prog.wrote → q.combine = a.rc.prog.combine →
      Placing.within l rc { a with rc := { a.rc with prog := q } } := fun q h1 h2 h3 =>
    ⟨h1.trans ha.held, h2.trans ha.wrote, ha.bytes, fun x hx => ha.combine x (by rw [← h3]; exact hx)⟩
  unfold placeRecord
  dsimp only
  split
  · exact hq _ rfl rfl rfl
  · split
    · exact hq _ rfl rfl rfl
    · split
      · split
        · have h := hq { a.rc.prog with poisonIn := a.rc.prog.poisonIn || g.poison } rfl rfl rfl
          exact ⟨h.held, h.wrote, h.bytes, h.combine⟩
        · exact combineRecord_within l rc _ _ _ _ _ _ (hq _ rfl rfl rfl)
      · split
        · exact combineRecord_within l rc _ _ _ _ _ _ (hq _ rfl rfl rfl)
        · exact hq _ rfl rfl rfl

theorem placeRecords_within (l : List (Nat × Space × Nat × Nat)) (rc : RunCmd) (s : State) (gs : List GateRecord) (a : Placing)
    (ha : a.within l rc) : (gs.foldl (placeRecord s) a).within l rc := by
  induction gs generalizing a with
  | nil => exact ha
  | cons g rest ih => exact ih _ (placeRecord_within l rc s a g ha)

theorem addInput_buf (rc : RunCmd) (k : Nat) (bs : List Byte) : SameBuf rc (addInput rc k bs) := by
  unfold addInput
  split <;> exact ⟨rfl, rfl, rfl⟩

theorem countBlocks_outside (l : List (Nat × Space × Nat × Nat)) (o n : Progress) (v : ViId) (s : State) : Outside l s (countBlocks o n v s) :=
  ((countEvent_outside _ _ _ _ _).trans (countEvent_outside _ _ _ _ _)).trans (countEvent_outside _ _ _ _ _)

theorem countBuckets_outside (l : List (Nat × Space × Nat × Nat)) (o n : Progress) (v : ViId) (s : State) : Outside l s (countBuckets o n v s) :=
  (((countEvent_outside _ _ _ _ _).trans (countEvent_outside _ _ _ _ _)).trans (countEvent_outside _ _ _ _ _)).trans
    (countEvent_outside _ _ _ _ _)

theorem selectWriter_within : selectWriter.within := by
  intro s rc v es hc
  unfold selectWriter
  dsimp only
  have key : ∀ (f : EmitOut × State → Nat → EmitOut × State)
      (hf : ∀ a r, Gives rc.prog.wrote rc a.1 → Gives rc.prog.wrote rc (f a r).1 ∧ ∀ l, Outside l a.2 (f a r).2)
      (l : List Nat) (a : EmitOut × State), Gives rc.prog.wrote rc a.1 →
        Gives rc.prog.wrote rc (l.foldl f a).1 ∧ ∀ m, Outside m a.2 (l.foldl f a).2 := by
    intro f hf l
    induction l with
    | nil => exact fun a ha => ⟨ha, fun m => Outside.refl m _⟩
    | cons x rest ih =>
      intro a ha
      have h := hf a x ha
      have k := ih _ h.1
      exact ⟨k.1, fun m => (h.2 m).trans (k.2 m)⟩
  refine key _ (fun a row ha => ?_) _ (⟨rc, VecWrites.empty, []⟩, s)
    ⟨rfl, rfl, VecWrites.empty_ok.after _, combineIn_mono (fun _ hr => List.mem_append.mpr (Or.inl hr)) hc⟩
  split
  · exact ⟨⟨ha.held, ha.wrote, ha.bytes, ha.combine⟩, fun l => countEvent_outside l _ _ _ _⟩
  · split
    · dsimp only
      generalize hb : List.foldl (placeRecord _) _ _ = b
      have h : Placing.within (rc.prog.wrote ++ a.1.writes.runs) rc b := by
        rw [← hb]
        refine placeRecords_within _ _ _ _ _ ⟨ha.held, ha.wrote, VecWrites.empty_ok.after _, ?_⟩
        exact combineIn_mono (fun _ hr => List.mem_append.mpr (Or.inl hr)) ha.combine
      have hruns : rc.prog.wrote ++ (a.1.writes.append b.writes).runs = rc.prog.wrote ++ a.1.writes.runs ++ b.writes.runs := by
        simp [VecWrites.append, List.append_assoc]
      have hbytes : ∀ x ∈ (a.1.writes.append b.writes).bytes, inRuns (rc.prog.wrote ++ (a.1.writes.append b.writes).runs) x.1 x.2.1 := by
        intro x hx
        rw [hruns]
        rcases List.mem_append.mp hx with hx | hx
        · exact inRuns_mono (fun _ hr => List.mem_append.mpr (Or.inl hr)) (ha.bytes x hx)
        · exact h.bytes x hx
      have hcomb : combineIn (rc.prog.wrote ++ (a.1.writes.append b.writes).runs) b.rc := by rw [hruns]; exact h.combine
      refine ⟨?_, fun l => ((countEvent_outside l _ _ _ _).trans (countEvent_outside l _ _ _ _)).trans (countBuckets_outside l _ _ _ _)⟩
      split
      · exact ⟨h.held, h.wrote, hbytes, hcomb⟩
      · exact ⟨h.held, h.wrote, hbytes, hcomb⟩
    · refine ⟨⟨ha.held, ha.wrote, fun x hx => ?_, ?_⟩,
        fun l => (countEvent_outside l _ _ _ _).trans (countEvent_outside l _ _ _ _)⟩
      · rcases List.mem_append.mp hx with hx | hx
        · exact inRuns_mono (fun r hr => by simp only [VecWrites.append, List.mem_append] at hr ⊢; tauto) (ha.bytes x hx)
        · exact inRuns_mono (fun r hr => by simp only [VecWrites.append, List.mem_append] at hr ⊢; tauto)
            (VecWrites.place_ok _ _ _ _ _ x hx)
      · exact combineIn_mono (fun r hr => by simp only [VecWrites.append, List.mem_append] at hr ⊢; tauto) ha.combine

/-- Work on a command and the state that stores nothing. -/
structure NoStore (a b : RunCmd × State) : Prop where
  buf     : SameBuf a.1 b.1
  outside : ∀ l, Outside l a.2 b.2

theorem NoStore.refl (a : RunCmd × State) : NoStore a a := ⟨SameBuf.refl _, fun l => Outside.refl l _⟩
theorem NoStore.trans {a b c : RunCmd × State} (h : NoStore a b) (k : NoStore b c) : NoStore a c :=
  ⟨h.buf.trans k.buf, fun l => (h.outside l).trans (k.outside l)⟩
theorem NoStore.stores {a b : RunCmd × State} (h : NoStore a b) (k : heldIn a.1) : Stores a b :=
  SameBuf.stores h.buf k (h.outside _)
theorem NoStore.foldl {β : Type} (f : RunCmd × State → β → RunCmd × State) (hf : ∀ a x, NoStore a (f a x)) (l : List β) (a : RunCmd × State) :
    NoStore a (l.foldl f a) := by
  induction l generalizing a with
  | nil => exact NoStore.refl a
  | cons x rest ih => exact (hf a x).trans (ih _)

theorem putSlot_outside (l : List (Nat × Space × Nat × Nat)) (s : State) (h : Nat) (x : Slot) : Outside l s (putSlot s h x) :=
  Outside.of_mem (by simp) (by simp) (by simp)
theorem modSlot_outside (l : List (Nat × Space × Nat × Nat)) (s : State) (h : Nat) (f : Slot → Slot) : Outside l s (modSlot s h f) :=
  putSlot_outside l s h _
theorem lockstepFold_outside (l : List (Nat × Space × Nat × Nat)) (xs : List Nat) (s : State) : Outside l s (lockstepFold xs s) := by
  unfold lockstepFold
  split
  · exact Outside.of_mem rfl rfl rfl
  · exact Outside.refl _ _

theorem applyReduction_noStore (rc : RunCmd) (h : Nat) (r : Reduction) (s : State) : NoStore (rc, s) (applyReduction rc h r s) := by
  unfold applyReduction
  split
  · exact ⟨⟨rfl, rfl, rfl⟩, fun l => countEvent_outside l _ _ _ _⟩
  · exact ⟨⟨rfl, rfl, rfl⟩, fun l => (countEvent_outside l _ _ _ _).trans (putSlot_outside l _ _ _)⟩

theorem outWrites_stores (rc : RunCmd) (w : VecWrites) (s : State) (h : rc.prog.heldBeats = [])
    (hw : ∀ x ∈ w.bytes, inRuns (rc.prog.wrote ++ w.runs) x.1 x.2.1)
    (hh : ∀ h ∈ rc.prog.held, bytesIn rc.prog.wrote h.space h.sector h.bytes) (hc : combineIn (rc.prog.wrote ++ w.runs) rc) :
    Stores (rc, s) (outWrites rc false w s) := by
  unfold outWrites
  simp only [h, List.isEmpty_nil, Bool.not_true, Bool.or_false, Bool.false_eq_true, if_false]
  exact bufferWrites_stores _ _ _ hw hh hc

/-- A command that forwards nothing before its end: only CHAIN and CHAIN_ACC with F0 and a chain do (R349). -/
def keepsToItself (rc : RunCmd) : Prop := pkChv rc.packet = false

theorem forwardEarly_off (rc : RunCmd) (es : List Elem) (s : State) (h : keepsToItself rc) : forwardEarly rc es s = s := by
  unfold forwardEarly
  simp [show pkChv rc.packet = false from h]

theorem applyDecision_noStore (d : SoftStep) (rc : RunCmd) (s : State) : NoStore (rc, s) (applyDecision d rc s) := by
  unfold applyDecision
  split
  · exact NoStore.refl _
  · split
    · exact NoStore.refl _
    · exact ⟨⟨rfl, rfl, rfl⟩, fun l => modSlot_outside l _ _ _⟩

theorem finishVector_stores (w : Writer) (hw : w.within) (ht : w.tame) (v : Nat) (d : SoftStep) (n : Nat) (es : List Elem) (rc : RunCmd)
    (s : State) (hn : rc.latched.nanTrap = false) (hb : rc.prog.heldBeats = []) (hc : keepsToItself rc) (hh : heldIn rc) :
    Stores (rc, s) (finishVector w v d false n es rc s) := by
  unfold finishVector
  have hv : ∀ rs, vectorTrap rc es rs = none := fun rs => by unfold vectorTrap; simp [hn]
  simp only [hv]
  generalize vectorReductions (applyDecision d rc s).2 rc es = rs
  generalize hm : ({ rc.prog with flags := _, poisonIn := _, vector := _ } : Progress) = met
  have h0 : SameCmd (oneMore rc) { rc with prog := met } := by rw [← hm]; rfl
  have b0 : SameBuf rc { rc with prog := met } := by rw [← hm]; exact ⟨rfl, rfl, rfl⟩
  have ha := applyDecision_does d { rc with prog := met } s
  have hn2 := applyDecision_noStore d { rc with prog := met } s
  generalize applyDecision d { rc with prog := met } s = a at ha hn2 ⊢
  have b1 : SameBuf rc a.1 := b0.trans hn2.buf
  have hh1 := b1.keepsHeld hh
  have h := hw a.2 a.1 v es hh1.combine
  have hs := (ht a.2 a.1 v es).1
  generalize w.write a.2 a.1 v es = o at h hs ⊢
  have hso : SameCmd (oneMore rc) o.1.rc := h0.trans (ha.cmd.trans hs)
  have hout : ∀ l, Outside l s o.2 := fun l => (hn2.outside l).trans (h.2 l)
  have last : ∀ (x : RunCmd × State) (l : List Nat), heldIn x.1 → keepsToItself x.1 → Stores x (x.1, forwardEarly x.1 es (lockstepFold l x.2)) := by
    intro x l h1 h2
    rw [forwardEarly_off _ _ _ h2]
    exact SameBuf.stores (SameBuf.refl _) h1 (lockstepFold_outside _ _ _)
  have two : ∀ x : RunCmd × State, SameBuf o.1.rc x.1 → (∀ l, Outside l s x.2) → SameCmd (oneMore rc) x.1 → ∀ l,
      Stores (rc, s) ((outWrites x.1 false o.1.writes x.2).1,
        forwardEarly (outWrites x.1 false o.1.writes x.2).1 es (lockstepFold l (outWrites x.1 false o.1.writes x.2).2)) := by
    intro x h1 h2 h3 l
    have hwx : x.1.prog.wrote = a.1.prog.wrote := h1.wrote.trans h.1.wrote
    have hbx : x.1.prog.heldBeats = [] := h3.heldBeats.trans hb
    have h4 : Stores x (outWrites x.1 false o.1.writes x.2) := by
      refine outWrites_stores _ _ _ hbx (by rw [hwx]; exact h.1.bytes) ?_ (by rw [hwx]; exact h1.combineIn h.1.combine)
      rw [h1.held, h.1.held, hwx]
      exact hh1.held
    have h5 := h3.trans (outWrites_does _ o.1.writes x.2 hbx).cmd
    have h6 := last (outWrites x.1 false o.1.writes x.2) l h4.held (by unfold keepsToItself; rw [h5.packet]; exact hc)
    refine ⟨fun r hr => h6.more r (h4.more r ?_), h6.held, ?_⟩
    · show r ∈ x.1.prog.wrote
      rw [hwx, b1.wrote]
      exact hr
    · exact ((h2 _).trans (h4.outside.mono h6.more)).trans h6.outside
  have red : ∀ x : RunCmd × State, NoStore x (rs.foldl (fun (a : RunCmd × State) r => applyReduction a.1 r.1 r.2 a.2) x) :=
    fun x => NoStore.foldl _ (fun a r => applyReduction_noStore _ _ _ _) rs x
  refine two _ (SameBuf.trans ?_ (red _).buf)
    (fun l => (((hout l).trans (countBlocks_outside l _ _ _ _)).trans (countEvent_outside l _ _ _ _)).trans ((red _).outside l)) ?_ _
  · exact ⟨rfl, rfl, rfl⟩
  refine SameCmd.trans ?_ (Does.foldl _ (fun a x => applyReduction_does _ _ _ _) _ _).cmd
  exact hso.trans rfl

/-! ## INTAKE -/

theorem countReads_outside (l : List (Nat × Space × Nat × Nat)) (rc : RunCmd) (xs : List (Space × Nat)) (s : State) : Outside l s (countReads rc xs s) :=
  ((countEvent_outside _ _ _ _ _).trans (countEvent_outside _ _ _ _ _)).trans (countEvent_outside _ _ _ _ _)

theorem takeIn_noStore (s : State) (rc : RunCmd) (v : VecIn) : NoStore (rc, s) ((takeIn s rc v).1, (takeIn s rc v).2.1) := by
  unfold takeIn
  dsimp only
  refine ⟨?_, fun l => countReads_outside l _ _ _⟩
  exact SameBuf.trans (b := { rc with prog := { rc.prog with taken := (intake s rc v).taken } }) ⟨rfl, rfl, rfl⟩
    (sameBuf_foldl _ (fun (r : RunCmd) (b : Nat × List Byte) => addInput_buf r b.1 b.2) _ _)

theorem formRow_noStore (s : State) (rc : RunCmd) (stamp : Nat) (vs : List VecIn) : NoStore (rc, s) (formRow s rc stamp vs) := by
  unfold formRow
  dsimp only
  have key : ∀ (l : List VecIn) (a : RunCmd × State × List ReadyVec), NoStore (a.1, a.2.1)
      ((l.foldl (fun (a : RunCmd × State × List ReadyVec) v =>
        let x := takeIn a.2.1 a.1 v
        (x.1, x.2.1, a.2.2 ++ [⟨v.number, x.2.2.fired, x.2.2.elems.map (throughJoin a.2.1 rc 0)⟩])) a).1,
       (l.foldl (fun (a : RunCmd × State × List ReadyVec) v =>
        let x := takeIn a.2.1 a.1 v
        (x.1, x.2.1, a.2.2 ++ [⟨v.number, x.2.2.fired, x.2.2.elems.map (throughJoin a.2.1 rc 0)⟩])) a).2.1) := by
    intro l
    induction l with
    | nil => exact fun a => NoStore.refl _
    | cons k rest ih =>
      intro a
      rw [List.foldl_cons]
      exact (takeIn_noStore _ _ _).trans (ih (_, _, _))
  have h := key vs (rc, s, [])
  exact ⟨h.buf.trans ⟨rfl, rfl, rfl⟩, h.outside⟩

theorem formVector_noStore (s : State) (rc : RunCmd) (v : VecIn) : NoStore (rc, s) ((formVector s rc v).rc, (formVector s rc v).state) := by
  unfold formVector
  split
  · have h : NoStore (rc, s) (if rc.prog.ready.isEmpty then formRow s rc 0 (rowVectors rc v) else (rc, s)) := by
      split
      · exact formRow_noStore _ _ _ _
      · exact NoStore.refl _
    dsimp only
    generalize (if rc.prog.ready.isEmpty then formRow s rc 0 (rowVectors rc v) else (rc, s)) = a at h ⊢
    split
    · exact h
    · exact ⟨h.buf.trans ⟨rfl, rfl, rfl⟩, h.outside⟩
  · exact takeIn_noStore _ _ _

theorem runVector_stores (k : PassKind) (hw : k.writer.within) (ht : k.writer.tame) (v : VecIn) (hb : v.beat = none) (rc : RunCmd) (s : State)
    (hr : RunsOn rc) (hc : keepsToItself rc) (hh : heldIn rc) (r : RunCmd × State) (h : runVector k v rc s = some r) : Stores (rc, s) r := by
  unfold runVector at h
  have hf := formVector_noStore s rc v
  have hf2 := formVector_does s rc v
  generalize formVector s rc v = f at h hf hf2
  simp only [hb, Option.isSome_none, Bool.and_false, Bool.false_and, Bool.false_eq_true, if_false] at h
  cases h
  have hr2 : RunsOn f.rc := hf2.cmd.runsOn hr
  refine Stores.trans ?_ (finishVector_stores _ hw ht _ _ _ _ _ _ hr2.trap hr2.held (by unfold keepsToItself; rw [hf2.cmd.packet]; exact hc)
    (hf.buf.keepsHeld hh))
  exact SameBuf.stores hf.buf hh ((hf.outside _).trans (((countEvent_outside _ _ _ _ _).trans (countEvent_outside _ _ _ _ _)).trans
    ((countEvent_outside _ _ _ _ _).trans (countEvent_outside _ _ _ _ _))))

theorem rowStarts_buf (s : State) (rc : RunCmd) (row : Nat) : SameBuf rc (rowStarts s rc row) := by
  unfold rowStarts
  dsimp only
  have h1 : SameBuf rc (if psHasSlot rc row then
      { rc with prog := { rc.prog with snap := spPut rc.prog.snap row (slotAt s (psSlot rc row)) } } else rc) := by
    split <;> exact ⟨rfl, rfl, rfl⟩
  generalize (if psHasSlot rc row then
      { rc with prog := { rc.prog with snap := spPut rc.prog.snap row (slotAt s (psSlot rc row)) } } else rc : RunCmd) = r1 at h1 ⊢
  have h2 : SameBuf rc (if tSrcA rc.tumbler = 0 ∧ (tRdMode rc.tumbler ≠ 1 ∨ isBlock (tFmtA rc.tumbler)) then
      addInput r1 (inputKey 0 row) (rowSource s rc (descOf rc 0) (tFmtA rc.tumbler) row) else r1) := by
    split
    · exact h1.trans (addInput_buf _ _ _)
    · exact h1
  split
  · exact h2.trans (addInput_buf _ _ _)
  · exact h2

theorem nextVector_stores (k : PassKind) (hw : k.writer.within) (ht : k.writer.tame) (staged : Option BadWord) (rc : RunCmd) (s : State)
    (hr : RunsOn rc) (hc : keepsToItself rc) (hh : heldIn rc) : Stores (rc, s) (nextVector k staged rc s).2 := by
  unfold nextVector beatsWait
  simp only [hr.drains, Bool.false_and, Bool.false_eq_true, if_false]
  have h1 : ∀ l : List Nat, SameBuf rc (l.foldl (rowStarts s) rc) := fun l => sameBuf_foldl _ (fun r x => rowStarts_buf s r x) l rc
  have h2 : ∀ l : List Nat, SameCmd rc (l.foldl (rowStarts s) rc) := fun l => sameCmd_foldl _ (fun r x => rowStarts_same s r x) l rc
  generalize ((vectorSpots rc rc.prog.vector).filter (fun x => decide (x.j = 0))).map (fun x => x.row) = l
  split
  · rename_i r hr3
    exact Stores.trans (SameBuf.stores (h1 l) hh (Outside.refl _ s))
      (runVector_stores k hw ht _ rfl _ _ ((h2 l).runsOn hr) (by unfold keepsToItself; rw [(h2 l).packet]; exact hc) ((h1 l).keepsHeld hh) r hr3)
  · exact Stores.refl hh

theorem runVectors_stores (k : PassKind) (hw : k.writer.within) (ht : k.writer.tame) (n : Nat) (rc : RunCmd) (s : State)
    (hr : RunsOn rc) (hc : keepsToItself rc) (hh : heldIn rc) : Stores (rc, s) (runVectors k n rc s) := by
  induction n generalizing rc s with
  | zero => exact Stores.refl hh
  | succ n ih =>
    unfold runVectors
    split
    · exact Stores.refl hh
    · dsimp only
      have h := nextVector_stores k hw ht none rc s hr hc hh
      have hd := (nextVector_does k ht none rc s hr).2.cmd
      split
      · exact h.trans (ih _ _ (hd.runsOn hr.oneMore) (by unfold keepsToItself; rw [hd.packet]; exact hc) h.held)
      · exact h

/-! ## The pass -/

theorem endPass_stores (rc : RunCmd) (s : State) (hh : heldIn rc) : Stores (rc, s) (endPass rc s) := by
  unfold endPass
  dsimp only
  have h := finishEmit_emits rc
  have h1 : SameBuf rc (drainSource (sumSqnr (finishEmit rc).rc)) :=
    (h.buf.trans (c := sumSqnr (finishEmit rc).rc) ⟨rfl, rfl, rfl⟩).trans (addInput_buf _ _ _)
  have h2 : Stores (rc, s) (drainSource (sumSqnr (finishEmit rc).rc), countBlocks rc.prog (finishEmit rc).rc.prog rc.vi s) :=
    SameBuf.stores h1 hh (countBlocks_outside _ _ _ _ _)
  have h3 := h2.trans (bufferWrites_stores _ (finishEmit rc).writes _ (h.ok.after _) h2.held.held
    (combineIn_mono (fun _ hr => List.mem_append.mpr (Or.inl hr)) h2.held.combine))
  have h4 := h3.trans (flushSectors_stores _ _ h3.held)
  refine ⟨h4.more, ⟨h4.held.held, h4.held.combine⟩, h4.outside.trans ?_⟩
  split
  · exact countEvent_outside _ _ _ _ _
  · exact Outside.refl _ _

theorem addLinks_buf (s : State) (rc : RunCmd) : SameBuf rc (addLinks s rc) := by
  unfold addLinks
  split
  · exact SameBuf.refl _
  · exact addInput_buf _ _ _

theorem beginPass_noStore (k : PassKind) (rc : RunCmd) (s : State) : NoStore (rc, s) (beginPass k rc s) := by
  unfold beginPass
  dsimp only
  have h0 : NoStore (rc, s) (loadColumns (resumedGroup rc) s) := by
    refine NoStore.trans (b := (resumedGroup rc, s)) ⟨?_, fun l => Outside.refl l _⟩ ⟨⟨rfl, rfl, rfl⟩, fun l => countReads_outside l _ _ _⟩
    unfold resumedGroup
    split
    · exact SameBuf.refl _
    · split <;> exact ⟨rfl, rfl, rfl⟩
  generalize loadColumns (resumedGroup rc) s = r1 at h0 ⊢
  have hg : ∀ (x : RunCmd) (t : State), NoStore (x, t) (setGlobalRefs x t) := by
    intro x t
    refine NoStore.foldl _ (fun a h => ?_) _ _
    dsimp only
    split
    · exact NoStore.refl _
    · exact ⟨⟨rfl, rfl, rfl⟩, fun l => putSlot_outside l _ _ _⟩
  have h1 : ∀ l : List Nat, SameBuf rc (l.foldl (fun r c => addInput r (inputKey (2 + c) 0) (columnSource s rc c)) r1.1) :=
    fun l => h0.buf.trans (sameBuf_foldl _ (fun r c => addInput_buf r _ _) l _)
  generalize hx : (List.foldl _ r1.1 _ : RunCmd) = x
  have h2 : SameBuf rc x := by rw [← hx]; exact h1 _
  generalize hy : (if (linksIn x && _) = true then addLinks s x else x : RunCmd) = y
  have h3 : SameBuf rc y := by
    rw [← hy]
    split
    · exact h2.trans (addLinks_buf _ _)
    · exact h2
  generalize hz : (if psBuckets y = true then readFills s y else y : RunCmd) = z
  have h4 : SameBuf rc z := by
    rw [← hz]
    split
    · exact h3.trans ⟨rfl, rfl, rfl⟩
    · exact h3
  split
  · exact NoStore.trans (b := (z, r1.2)) ⟨h4, h0.outside⟩ (hg _ _)
  · exact ⟨h4, h0.outside⟩

/-- A pass stores where its command notes that it wrote, and nowhere else. -/
theorem passEnd_stores (k : PassKind) (hw : k.writer.within) (ht : k.writer.tame) (rc : RunCmd) (s : State) (hr : RunsOn rc)
    (hc : keepsToItself rc) (hh : heldIn rc) : Stores (rc, s) (passEnd k rc s) := by
  unfold passEnd
  have h1 := beginPass_noStore k rc s
  have h2 := beginPass_does k rc s
  have hc2 : keepsToItself (beginPass k rc s).1 := by
    unfold keepsToItself
    rw [show (beginPass k rc s).1.packet = rc.packet from h2.cmd.packet]
    exact hc
  have h3 := (h1.stores hh).trans (runVectors_stores k hw ht (psVectors (beginPass k rc s).1) _ _ (h2.cmd.runsOn hr) hc2
    (h1.buf.keepsHeld hh))
  exact h3.trans (endPass_stores _ _ h3.held)

end Sys2Proof.Machine
end

