-- ==== Sys2Proof/Laws/Slots.lean ====
section
/-! SUPPORT. Row slots: what writing one leaves of the others, and what completing a command leaves of them. -/

namespace Sys2Proof.Machine

set_option Elab.async false

@[simp] theorem slotAt_putSlot_same (s : State) (h : Nat) (x : Slot) : slotAt (putSlot s h x) h = x := by
  unfold slotAt putSlot
  simp

theorem slotAt_putSlot_other (s : State) {h k : Nat} (x : Slot) (hk : k ≠ h) : slotAt (putSlot s h x) k = slotAt s k := by
  unfold slotAt putSlot
  simp only
  rw [spGet_spSet_other _ _ _ hk]
  split <;> split <;> rfl

theorem slotAt_modSlot_other (s : State) {h k : Nat} (f : Slot → Slot) (hk : k ≠ h) : slotAt (modSlot s h f) k = slotAt s k :=
  slotAt_putSlot_other s _ hk

theorem slotAt_slots {s t : State} (h : t.slots = s.slots) (k : Nat) : slotAt t k = slotAt s k := by
  unfold slotAt
  rw [h]

/-! ## Completions -/

theorem writeCpl_slots (ring : Nat) (x : Cpl) (s : State) : (writeCpl ring x s).slots = s.slots := by
  unfold writeCpl
  dsimp only
  have h : (modCtx (lockstepFold (shownCpl x (cplPhase (ctxOfRing (tick s) ring) (ctxOfRing (tick s) ring).cpli.toNat))
      (countRetired (ctxOwner (ctxOfRing (tick s) ring)) (countEvent (statusEvent x.status) 1 (some (ctxOwner (ctxOfRing (tick s) ring)))
        (devWriteFor (ctxOwner (ctxOfRing (tick s) ring)) (tick s) (cplAddr (ctxOfRing (tick s) ring) (ctxOfRing (tick s) ring).cpli.toNat)
          (cplBytes x (cplPhase (ctxOfRing (tick s) ring) (ctxOfRing (tick s) ring).cpli.toNat) (tick s).tclk.toNat)))))
      ring (fun c => { c with cpli := c.cpli + 1 })).slots = s.slots := by
    simp [modCtx, (lockstepFold_aside _ _).slots, (countRetired_aside _ _).slots]
  split
  · exact h
  · simp [modCtx, (modVi_aside _ _ _).slots, (lockstepFold_aside _ _).slots, (countRetired_aside _ _).slots]

theorem writeNotify_slots (ring n : Nat) (s : State) : (writeNotify ring n s).slots = s.slots := by
  unfold writeNotify
  dsimp only
  split <;> simp

theorem skipGo_slots (ring n : Nat) (s : State) : (skipGo ring n s).slots = s.slots := by
  induction n generalizing s with
  | zero => rfl
  | succ n ih =>
    unfold skipGo
    dsimp only
    rw [ih]
    simp only [modCtx, setCtx_slots]
    split
    · rw [writeNotify_slots, writeCpl_slots]
    · rw [writeCpl_slots]

theorem ringAfter_slots (ring : Nat) (st : Status) (s : State) : (ringAfter ring st s).slots = s.slots := by
  have h0 : ∀ (c : ViId) (u : State), (actionDone c ring u).slots = u.slots := by
    intro c u
    unfold actionDone
    split <;> rfl
  have h1 : ∀ (d : Option Deferred) (c : ViId) (u : State), (if d = none then u else actionDone c ring (clearDeferred ring u)).slots = u.slots := by
    intro d c u
    split
    · rfl
    · rw [h0]
      rfl
  have ht : ∀ u : State, (endTurn ring u).slots = u.slots := by
    intro u
    unfold endTurn
    split
    · split <;> rfl
    · rfl
  unfold ringAfter
  dsimp only
  split
  · have h2 : ∀ u : State, (disableRing ring u).slots = u.slots := fun u => by simp [disableRing, clearDeferred, setRingState, modCtx]
    have h3 : ∀ u : State, (viResetCheck u).slots = u.slots := fun u => by
      unfold viResetCheck
      split
      · rfl
      · split <;> rfl
    rw [h3, ht, h2, h0]
    rfl
  · generalize hu : (if ringDeferred s ring = none then _ else _ : State) = u
    have hu2 : u.slots = s.slots := by rw [← hu, h1]; rfl
    split
    · split
      · simp [setRingState, modCtx, ht, hu2]
      · unfold skipAll
        rw [skipGo_slots]
        simp [setRingState, modCtx, ht, hu2]
    · split
      · simp [setRingState, modCtx, ht, hu2]
      · split <;> simp [setRingState, modCtx, ht, hu2]

theorem writeViews_slot (hs : List Nat) (s : State) (h : Nat) (hh : h ∉ hs) : slotAt (writeViews hs s) h = slotAt s h := by
  unfold writeViews
  induction hs generalizing s with
  | nil => rfl
  | cons k rest ih =>
    rw [List.foldl_cons, ih _ (fun hm => hh (List.mem_cons_of_mem _ hm))]
    split
    · exact slotAt_modSlot_other s _ (fun he => hh (he ▸ List.mem_cons_self))
    · rfl

theorem linkSlots_slot (rc : RunCmd) (x : W128) (s : State) (h : Nat) (hh : h ∉ rc.prog.changed) : slotAt (linkSlots rc x s) h = slotAt s h := by
  unfold linkSlots
  generalize rc.prog.changed = l at hh
  induction l generalizing s with
  | nil => rfl
  | cons k rest ih =>
    rw [List.foldl_cons, ih _ (fun hm => hh (List.mem_cons_of_mem _ hm))]
    dsimp only
    split
    · rfl
    · exact slotAt_modSlot_other s _ (fun he => hh (he ▸ List.mem_cons_self))

theorem appendRecord_slot (rc : RunCmd) (x : Cpl) (t : Bool) (s : State) (h : Nat) (hr : pkRecord rc.packet = false ∨ h ∉ rc.prog.changed) :
    slotAt (appendRecord rc x t s) h = slotAt s h := by
  unfold appendRecord
  split
  · rfl
  · next hn =>
    have hc : h ∉ rc.prog.changed := by
      rcases hr with hr | hr
      · simp [hr] at hn
      · exact hr
    have hd : ∀ (bs : List Byte) (u : State) (a : Nat), slotAt (devWriteFor rc.vi u a bs) h = slotAt u h := fun bs u a =>
      slotAt_slots (devWriteFor_aside u _ a bs).slots h
    dsimp only
    have h2 : ∀ b : Bool, ∀ (ptr : Nat) (bs : List Byte), slotAt (if b then countEvent 0x65 1 (some rc.vi) s else devWriteFor rc.vi s ptr bs) h = slotAt s h := by
      intro b ptr bs
      split
      · exact slotAt_slots (countEvent_aside s _ _ _).slots h
      · exact hd _ _ _
    split
    · rw [linkSlots_slot _ _ _ _ hc, hd, h2]
    · rw [hd, h2]

/-- Completing a command leaves a slot as it is, unless a contained error poisons it, its binary64 views are written or its digest
link follows the record. -/
theorem completeCmd_slot (rc : RunCmd) (base : Status) (d r n : Nat) (s : State) (h : Nat)
    (h1 : finalStatus rc base ≠ .errorContained) (hv : h ∉ rc.prog.reduced) (hr : pkRecord rc.packet = false ∨ h ∉ rc.prog.changed) :
    slotAt (completeCmd rc base d r n s) h = slotAt s h := by
  rw [← writeViews_slot _ s h hv]
  unfold completeCmd
  generalize writeViews rc.prog.reduced s = s
  dsimp only
  rw [slotAt_slots (ringAfter_slots _ _ _) h]
  have hs : slotAt (match finalStatus rc base with
      | .errorContained => poisonSlots rc (undefineRegs rc (undefineWrites rc s))
      | .retracted => undefineWrites rc s
      | _ => s) h = slotAt s h := by
    split
    · contradiction
    · refine slotAt_slots ?_ h
      exact foldl_keeps (fun s => s.slots) _ (fun s x => by cases x.2.1 <;> rfl) _ s
    · rfl
  have hn : ∀ (b : Bool) (u : State), slotAt (if b then writeNotify rc.ring rc.seq.toNat u else u) h = slotAt u h := by
    intro b u
    split
    · exact slotAt_slots (writeNotify_slots _ _ _) h
    · rfl
  rw [hn, slotAt_slots (writeCpl_slots _ _ _) h, appendRecord_slot _ _ _ _ _ hr, slotAt_slots (showTwin_aside _ _).slots h,
    slotAt_slots (settleChain_aside _ _ _).slots h]
  exact hs

/-- Without a contained error, and with no slot changed, every slot stays. -/
theorem completeCmd_slots_none (rc : RunCmd) (base : Status) (d r n : Nat) (s : State)
    (h1 : finalStatus rc base ≠ .errorContained) (hv : rc.prog.reduced = []) (hr : rc.prog.changed = []) :
    (completeCmd rc base d r n s).slots = s.slots := by
  unfold completeCmd
  rw [show writeViews rc.prog.reduced s = s by rw [hv]; rfl]
  dsimp only
  rw [ringAfter_slots]
  have hs : (match finalStatus rc base with
      | .errorContained => poisonSlots rc (undefineRegs rc (undefineWrites rc s))
      | .retracted => undefineWrites rc s
      | _ => s).slots = s.slots := by
    split
    · contradiction
    · exact foldl_keeps (fun s => s.slots) _ (fun s x => by cases x.2.1 <;> rfl) _ s
    · rfl
  have hn : ∀ (b : Bool) (u : State), (if b then writeNotify rc.ring rc.seq.toNat u else u).slots = u.slots := by
    intro b u
    split
    · exact writeNotify_slots _ _ _
    · rfl
  have ha : ∀ (x : Cpl) (t : Bool) (u : State), (appendRecord rc x t u).slots = u.slots := by
    intro x t u
    unfold appendRecord
    split
    · rfl
    · dsimp only
      have hd : ∀ (bs : List Byte) (u : State) (a : Nat), (devWriteFor rc.vi u a bs).slots = u.slots := fun bs u a =>
        (devWriteFor_aside u _ a bs).slots
      have h2 : ∀ b : Bool, ∀ (ptr : Nat) (bs : List Byte), (if b then countEvent 0x65 1 (some rc.vi) u else devWriteFor rc.vi u ptr bs).slots = u.slots := by
        intro b ptr bs
        split
        · exact (countEvent_aside u _ _ _).slots
        · exact hd _ _ _
      split
      · unfold linkSlots
        rw [hr, List.foldl_nil, hd, h2]
      · rw [hd, h2]
  rw [hn, writeCpl_slots, ha, (showTwin_aside _ _).slots, (settleChain_aside _ _ _).slots]
  exact hs

end Sys2Proof.Machine
end

