-- ==== Sys2Proof/Laws/Rings.lean ====
section
/-! SUPPORT. Ring commands: when a row's meaning runs, that its checks are passed or refused, and that what it ends with is its
completion. -/

namespace Sys2Proof.Machine

set_option Elab.async false

theorem holderCmd_ring {s : State} {rc : RunCmd} (h : holderCmd s = some rc) : s.rings.holder = some rc.ring ∧ cmdOf s rc.ring = some rc := by
  unfold holderCmd at h
  cases hh : s.rings.holder with
  | none => simp [hh] at h
  | some r =>
    simp only [hh, Option.bind_some] at h
    have : rc.ring = r := by
      unfold cmdOf at h
      simpa using List.find?_some h
    rw [this]
    exact ⟨rfl, h⟩

theorem issueIf_runs {p : RunCmd → Bool} {body : RunCmd → State → State} {s : State} {rc : RunCmd} (h1 : mayIssue s = true)
    (h2 : holderCmd s = some rc) (h3 : rc.phase = .running) (h4 : p rc = true) : issueIf p body s = body rc s := by
  unfold issueIf
  simp [h1, h2, h3, h4]

theorem issue_runs {op : Nat} {body : RunCmd → State → State} {s : State} {rc : RunCmd} (h1 : mayIssue s = true)
    (h2 : holderCmd s = some rc) (h3 : rc.phase = .running) (h4 : pkOpcode rc.packet = op) : issue op body s = body rc s :=
  issueIf_runs h1 h2 h3 (by simpa using h4)

theorem checkedThen_good {rc : RunCmd} {s : State} (start go : RunCmd → State → State) (h1 : rc.prog.checked = false)
    (h2 : verdict s rc = .good) : checkedThen rc start go s = start (passed rc) s := by
  unfold checkedThen
  simp only [h1, h2, Bool.false_eq_true, if_false]
  rfl

/-- A command completes after work of its own. -/
theorem completed_after (rc rc' : RunCmd) (base : Status) (d r n : Nat) (s u : State) (hc : (cacheEntry s rc.ring).isSome)
    (w : Works s u) (h1 : rc'.ring = rc.ring) (h2 : rc'.packet = rc.packet) (h3 : rc'.seq = rc.seq) :
    Completed s (completeCmd rc' base d r n u) rc (cplOf rc' base d r n) ∧ Frame s (completeCmd rc' base d r n u) := by
  have hcu : (cacheEntry u rc'.ring).isSome := by rw [h1, cacheEntry_eq w.cache]; exact hc
  exact ⟨Completed.after w.keepsCtx h1 h2 h3 hc (completeCmd_completed rc' base d r n u hcu), w.toFrame.trans (completeCmd_frame _ _ _ _ _ _)⟩

/-- The same, of the step as a whole. -/
theorem command_completes {f : State → State} {s u : State} (rc rc' : RunCmd) (base : Status) (d r n : Nat)
    (hf : f s = completeCmd rc' base d r n u) (hc : (cacheEntry s rc.ring).isSome)
    (w : Works s u) (h1 : rc'.ring = rc.ring) (h2 : rc'.packet = rc.packet) (h3 : rc'.seq = rc.seq) :
    command f s = .next (completeCmd rc' base d r n u) ∧ Completed s (completeCmd rc' base d r n u) rc (cplOf rc' base d r n)
      ∧ Frame s (completeCmd rc' base d r n u) := by
  have h := completed_after rc rc' base d r n s u hc w h1 h2 h3
  refine ⟨?_, h⟩
  rw [← hf]
  exact command_next (hf ▸ h.2)

/-- A command that comes to wait. -/
theorem blockCmd_blocked (s : State) (rc rc' : RunCmd) (w : Wait) (hc : (cacheEntry s rc.ring).isSome)
    (h1 : rc'.ring = rc.ring) (h2 : rc'.packet = rc.packet) (h3 : rc'.seq = rc.seq) : Blocked s (blockCmd rc' w s) rc w := by
  have hst : Stays s (setRingState s rc'.ring .blocked) := setRingState_stays _ _ _
  have hfr : Frame s (blockCmd rc' w s) := ⟨hst.pending, hst.cfg, hst.readData, hst.ctl, hst.pwr, hst.log, hst.drain, hst.shift,
    hst.tabs, hst.mode, hst.primary⟩
  refine ⟨?_, ⟨{ rc' with phase := .blocked false, wait := w }, ?_, rfl, rfl, h2, h3⟩, rfl, hfr, ?_, ?_⟩
  · obtain ⟨e, h⟩ := Option.isSome_iff_exists.mp hc
    have : ctxOfRing (blockCmd rc' w s) rc.ring = ctxOfRing (setRingState s rc'.ring .blocked) rc.ring := by
      refine ctxOfRing_eq rfl ?_
      rw [h1]
      exact (Option.isSome_iff_exists.mpr ⟨_, setCtx_cached _ h⟩)
    rw [this, h1]
    unfold ctxOfRing setRingState modCtx
    rw [setCtx_cached _ h]
  · unfold blockCmd cmdOf setCmd
    simp [h1]
  · show (setRingState s rc'.ring .blocked).slots = s.slots
    simp [setRingState, modCtx]
  · intro sp a
    have h4 : readByte (blockCmd rc' w s) sp a = readByte (setRingState s rc'.ring .blocked) sp a := readByte_mem rfl rfl rfl sp a
    rw [h4]
    obtain ⟨e, h⟩ := Option.isSome_iff_exists.mp hc
    unfold setRingState modCtx setCtx
    rw [h1, h]
    exact readByte_mem rfl rfl rfl sp a

end Sys2Proof.Machine
end

