-- ==== Sys2Proof/Laws/Rows.lean ====
section
/-! SUPPORT. Which row slots a pass without a soft-maximum decision changes: those of its range. -/

namespace Sys2Proof.Machine

set_option Elab.async false

/-- Work that leaves every slot and the note of what was reduced as they are. -/
structure NoSlot (a b : RunCmd × State) : Prop where
  reduced : b.1.prog.reduced = a.1.prog.reduced
  slots   : b.2.slots = a.2.slots

theorem NoSlot.refl (a : RunCmd × State) : NoSlot a a := ⟨rfl, rfl⟩
theorem NoSlot.trans {a b c : RunCmd × State} (h : NoSlot a b) (k : NoSlot b c) : NoSlot a c :=
  ⟨k.reduced.trans h.reduced, k.slots.trans h.slots⟩
theorem NoSlot.foldl {β : Type} (f : RunCmd × State → β → RunCmd × State) (hf : ∀ a x, NoSlot a (f a x)) (l : List β) (a : RunCmd × State) :
    NoSlot a (l.foldl f a) := by
  induction l generalizing a with
  | nil => exact NoSlot.refl a
  | cons x rest ih => exact (hf a x).trans (ih _)

/-- Work on a command that leaves the note of what was reduced as it is. -/
def SameRed (a b : RunCmd) : Prop := b.prog.reduced = a.prog.reduced
theorem SameRed.refl (a : RunCmd) : SameRed a a := rfl
theorem SameRed.trans {a b c : RunCmd} (h : SameRed a b) (k : SameRed b c) : SameRed a c := Eq.trans k h
theorem sameRed_foldl {β : Type} (f : RunCmd → β → RunCmd) (hf : ∀ a x, SameRed a (f a x)) (l : List β) (a : RunCmd) :
    SameRed a (l.foldl f a) := by
  induction l generalizing a with
  | nil => exact SameRed.refl a
  | cons x rest ih => exact (hf a x).trans (ih _)

theorem addInput_red (rc : RunCmd) (k : Nat) (bs : List Byte) : SameRed rc (addInput rc k bs) := by
  unfold addInput
  split <;> rfl

/-- A fold whose state component keeps its slots. -/
theorem foldSnd_slots {α β : Type} (f : α × State → β → α × State) (hf : ∀ a x, (f a x).2.slots = a.2.slots) (l : List β) (a : α × State) :
    (l.foldl f a).2.slots = a.2.slots := by
  induction l generalizing a with
  | nil => rfl
  | cons x rest ih => exact (ih _).trans (hf a x)

theorem writeWhole_slots (v : ViId) (sp : Space) (k : Nat) (bs : List (Nat × Byte)) (p : Bool) (s : State) :
    (writeWhole v sp k bs p s).slots = s.slots := by
  unfold writeWhole
  split
  · rfl
  · have h1 : (putSector sp k bs (countSectorWrite v sp s)).slots = (countSectorWrite v sp s).slots :=
      foldl_keeps (fun s => s.slots) _ (fun s x => by simp) bs _
    have h2 : ∀ u : State, (setSectorPoison u sp (64 * k) p).slots = u.slots := by
      intro u
      unfold setSectorPoison
      cases sp <;> rfl
    rw [h2, h1]
    exact (countEvent_aside s _ _ _).slots

theorem mergeSector_slots (v : ViId) (h : HeldSector) (s : State) : (mergeSector v h s).slots = s.slots := by
  unfold mergeSector
  dsimp only
  rw [writeWhole_slots]
  split <;> simp

theorem bufferWrites_noSlot (rc : RunCmd) (w : VecWrites) (s : State) : NoSlot (rc, s) (bufferWrites rc w s) := by
  unfold bufferWrites
  refine ⟨rfl, ?_⟩
  dsimp only
  refine (foldSnd_slots _ ?_ _ _).trans (foldl_keeps (fun s => s.slots) _ (fun s x => mergeSector_slots _ _ s) _ s)
  intro a x
  split <;> split <;> first | exact writeWhole_slots _ _ _ _ _ _ | exact mergeSector_slots _ _ _ | rfl

theorem flushSectors_noSlot (rc : RunCmd) (s : State) : NoSlot (rc, s) (flushSectors rc s) :=
  ⟨rfl, foldl_keeps (fun s => s.slots) _ (fun s x => mergeSector_slots _ _ s) _ s⟩

theorem writeRecord_noSlot (rc : RunCmd) (d : Nat) (sp : Space) (a : Nat) (bs : List Byte) (p : Bool) (s : State) :
    NoSlot (rc, s) (writeRecord rc d sp a bs p s) := (bufferWrites_noSlot _ _ _).trans (flushSectors_noSlot _ _)

/-! ## EMIT -/

theorem emitOut_foldl {β : Type} (f : EmitOut → β → EmitOut) (hf : ∀ o x, SameRed o.rc (f o x).rc) (l : List β) (o : EmitOut) :
    SameRed o.rc (l.foldl f o).rc := by
  induction l generalizing o with
  | nil => exact SameRed.refl _
  | cons x rest ih => exact (hf o x).trans (ih _)

/-- A fold that carries the command with its output. -/
theorem sameRedFst_foldl {α β : Type} (f : RunCmd × α → β → RunCmd × α) (hf : ∀ a x, SameRed a.1 (f a x).1) (l : List β) (a : RunCmd × α) :
    SameRed a.1 (l.foldl f a).1 := by
  induction l generalizing a with
  | nil => exact SameRed.refl _
  | cons x rest ih => exact (hf a x).trans (ih _)

theorem countKept_red (rc : RunCmd) (e : Elem) : SameRed rc (countKept rc e) := rfl

theorem placeScalars_red (rc : RunCmd) (es : List Elem) : SameRed rc (placeScalars rc es).1 := by
  unfold placeScalars
  refine sameRedFst_foldl _ ?_ _ (rc, VecWrites.empty)
  exact fun a e => countKept_red a.1 e

theorem emitScalars_red (rc : RunCmd) (v : Nat) (es : List Elem) : SameRed rc (emitScalars rc v es).rc := by
  unfold emitScalars
  dsimp only
  split
  · rfl
  · exact placeScalars_red _ _

theorem finishPacked_red (rc : RunCmd) : SameRed rc (finishPacked rc).rc := by
  unfold finishPacked
  refine SameRed.trans (b := { rc with prog := { rc.prog with packPend := [] } }) rfl ?_
  exact sameRedFst_foldl (fun (o : RunCmd × VecWrites) (x : Nat × List Elem) =>
    ((placeScalars o.1 x.2).1, o.2.append (placeScalars o.1 x.2).2)) (fun a x => placeScalars_red a.1 x.2) _ (_, VecWrites.empty)

theorem emitTagged_red (rc : RunCmd) (p : Bool) (l : List BlockItem) : SameRed rc (emitTagged rc p l).rc := by
  have hg : SameRed rc (if p then enterGroup rc ((l.map (fun x => x.block)).headD 0) else (rc, VecWrites.empty)).1 := by
    split
    · unfold enterGroup
      split <;> rfl
    · rfl
  unfold emitTagged
  dsimp only
  generalize (if p then enterGroup rc ((l.map (fun x => x.block)).headD 0) else (rc, VecWrites.empty)) = g at hg
  split
  · exact hg.trans rfl
  · exact hg.trans rfl

theorem emitBlocks_red (rc : RunCmd) (v : Nat) (one : RunCmd → List BlockItem → BlockOut) (h1 : ∀ r g, SameRed r (one r g).rc) (l : List BlockItem) :
    SameRed rc (emitBlocks rc v one l).rc := by
  unfold emitBlocks
  dsimp only
  have key : ∀ (gs : List (List BlockItem)) (a : EmitOut × List (Nat × W64 × W64)), SameRed a.1.rc (gs.foldl (fun a g =>
      let o := one a.1.rc g
      (⟨o.rc, a.1.writes.append o.writes, a.1.flags ++ o.flags⟩, a.2 ++ o.terms)) a).1.rc := by
    intro gs
    induction gs with
    | nil => exact fun a => SameRed.refl _
    | cons g rest ih =>
      intro a
      rw [List.foldl_cons]
      exact (h1 _ _).trans (ih _)
  have h2 : ∀ (r : RunCmd) (l : List (Nat × W64 × W64)), SameRed r (addSqnr r v l) := by
    intro r l
    unfold addSqnr
    split <;> rfl
  exact SameRed.trans (key (groupBlocks l) (⟨rc, VecWrites.empty, []⟩, [])) (h2 _ _)

theorem emitPending_red (n : Nat) (o : EmitOut) : SameRed o.rc (emitPending n o).rc := by
  induction n generalizing o with
  | zero => exact SameRed.refl _
  | succ n ih =>
    unfold emitPending
    split
    · exact SameRed.refl _
    · dsimp only
      refine SameRed.trans ?_ (ih _)
      refine SameRed.trans ?_ (emitBlocks_red _ _ _ (fun r g => emitTagged_red r true g) _)
      rfl

theorem emitVector_red (rc : RunCmd) (v : Nat) (es : List Elem) (f : RegFile) : SameRed rc (emitVector rc v es f).1.rc := by
  have ht : SameRed rc (emitTaggedVector rc v (blockItems rc es)).rc := by
    unfold emitTaggedVector
    split
    · exact emitBlocks_red _ _ _ (fun r g => emitTagged_red r false g) _
    · exact SameRed.trans (b := { rc with prog := { rc.prog with tagPend := spPut rc.prog.tagPend v (blockItems rc es) } }) rfl (emitPending_red _ _)
  unfold emitVector
  dsimp only
  split
  · exact SameRed.refl _
  · have h : ∀ mem : Bool, SameRed rc (if !mem then
          ⟨(es.filter (emitsElem rc)).foldl countKept rc, VecWrites.empty, []⟩
        else if tFmt rc.tumbler = codeTagged then withUses rc es (emitTaggedVector rc v (blockItems rc es))
        else if isMx (tFmt rc.tumbler) then withUses rc es (emitBlocks rc v emitMx (blockItems rc es))
        else emitScalars rc v es : EmitOut).rc := by
      intro mem
      split
      · exact sameRed_foldl _ countKept_red _ rc
      · split
        · exact ht
        · split
          · exact emitBlocks_red _ _ emitMx (fun r g => rfl) _
          · exact emitScalars_red _ _ _
    split
    · exact (h _).trans rfl
    · exact h _

theorem finishEmit_red (rc : RunCmd) : SameRed rc (finishEmit rc).rc := by
  unfold finishEmit
  split
  · exact finishPacked_red _
  · exact emitOut_foldl (fun (o : EmitOut) (x : Nat × List BlockItem) =>
        let y := emitBlocks { o.rc with prog := { o.rc.prog with tagPend := spErase o.rc.prog.tagPend x.1 } } x.1
          (fun rc g => emitTagged rc true g) x.2
        ⟨y.rc, o.writes.append y.writes, o.flags ++ y.flags⟩)
      (fun o x => SameRed.trans (b := { o.rc with prog := { o.rc.prog with tagPend := spErase o.rc.prog.tagPend x.1 } }) rfl
        (emitBlocks_red _ _ _ (fun r g => emitTagged_red r true g) x.2)) rc.prog.tagPend ⟨rc, VecWrites.empty, []⟩

/-- A writer that changes no slot. -/
def Writer.leavesSlots (w : Writer) : Prop := ∀ s rc v es, SameRed rc (w.write s rc v es).1.rc ∧ (w.write s rc v es).2.slots = s.slots

theorem emitWriter_leavesSlots : emitWriter.leavesSlots := by
  intro s rc v es
  unfold emitWriter
  dsimp only
  refine ⟨emitVector_red _ _ _ _, ?_⟩
  split <;> rfl

theorem combineRecord_red (key : Nat) (sp : Space) (a : Nat) (bs : List Byte) (b : Bool) (p : Placing) :
    SameRed p.rc (combineRecord key sp a bs b p).rc := by
  have h1 : ∀ (l : List SectorBytes) (q : Placing), SameRed q.rc (l.foldl (combineSector key b) q).rc := by
    intro l
    induction l with
    | nil => exact fun q => SameRed.refl _
    | cons x rest ih =>
      intro q
      refine SameRed.trans ?_ (ih _)
      unfold combineSector
      dsimp only
      split <;> rfl
  exact h1 _ _

theorem placeRecord_red (s : State) (a : Placing) (g : GateRecord) : SameRed a.rc (placeRecord s a g).rc := by
  unfold placeRecord
  dsimp only
  split
  · rfl
  · split
    · rfl
    · split
      · split
        · rfl
        · refine SameRed.trans ?_ (combineRecord_red _ _ _ _ _ _)
          rfl
      · split
        · refine SameRed.trans ?_ (combineRecord_red _ _ _ _ _ _)
          rfl
        · rfl

theorem placeRecords_red (s : State) (gs : List GateRecord) (a : Placing) : SameRed a.rc (gs.foldl (placeRecord s) a).rc := by
  induction gs generalizing a with
  | nil => exact SameRed.refl _
  | cons g rest ih => exact (placeRecord_red s a g).trans (ih _)

theorem selectWriter_leavesSlots : selectWriter.leavesSlots := by
  intro s rc v es
  unfold selectWriter
  dsimp only
  have key : ∀ (f : EmitOut × State → Nat → EmitOut × State)
      (hf : ∀ a r, SameRed a.1.rc (f a r).1.rc ∧ (f a r).2.slots = a.2.slots)
      (l : List Nat) (a : EmitOut × State), SameRed a.1.rc (l.foldl f a).1.rc ∧ (l.foldl f a).2.slots = a.2.slots := by
    intro f hf l
    induction l with
    | nil => exact fun a => ⟨SameRed.refl _, rfl⟩
    | cons x rest ih => exact fun a => ⟨(hf a x).1.trans (ih _).1, (ih _).2.trans (hf a x).2⟩
  refine key _ (fun a row => ?_) _ (⟨rc, VecWrites.empty, []⟩, s)
  split
  · exact ⟨rfl, by simp⟩
  · split
    · dsimp only
      generalize hb : List.foldl (placeRecord _) _ _ = b
      have h : SameRed a.1.rc b.rc := by
        rw [← hb]
        refine SameRed.trans ?_ (placeRecords_red _ _ _)
        rfl
      refine ⟨?_, by simp [countBuckets]⟩
      split
      · exact h.trans rfl
      · exact h
    · exact ⟨rfl, by simp⟩

/-! ## A vector -/

/-- Work that changes slots of a range alone, and notes no others as reduced. -/
structure InRange (p : BitVec 512) (a b : RunCmd × State) : Prop where
  reduced : (∀ h ∈ a.1.prog.reduced, inRange p h) → ∀ h ∈ b.1.prog.reduced, inRange p h
  slots   : ∀ h, ¬ inRange p h → slotAt b.2 h = slotAt a.2 h

theorem InRange.refl (p : BitVec 512) (a : RunCmd × State) : InRange p a a := ⟨fun h => h, fun _ _ => rfl⟩
theorem InRange.trans {p : BitVec 512} {a b c : RunCmd × State} (h : InRange p a b) (k : InRange p b c) : InRange p a c :=
  ⟨fun x => k.reduced (h.reduced x), fun i hi => (k.slots i hi).trans (h.slots i hi)⟩
theorem NoSlot.inRange {p : BitVec 512} {a b : RunCmd × State} (h : NoSlot a b) : InRange p a b :=
  ⟨fun x => by rw [h.reduced]; exact x, fun i _ => slotAt_slots h.slots i⟩

theorem applyReduction_inRange (p : BitVec 512) (rc : RunCmd) (h : Nat) (r : Reduction) (s : State) (hh : inRange p h) :
    InRange p (rc, s) (applyReduction rc h r s) := by
  unfold applyReduction
  split
  · exact NoSlot.inRange ⟨rfl, by simp⟩
  · refine ⟨fun x k hk => ?_, fun i hi => ?_⟩
    · rcases (mem_setInsert _ _ _).mp hk with hk | hk
      · exact hk ▸ hh
      · exact x k hk
    · show slotAt (putSlot _ h r.slot) i = slotAt s i
      rw [slotAt_putSlot_other _ _ (fun he : i = h => hi (he ▸ hh))]
      exact slotAt_slots (countEvent_aside s _ _ _).slots i

theorem vectorReductions_range (s : State) (rc : RunCmd) (es : List Elem) : ∀ r ∈ vectorReductions s rc es, inRange rc.packet r.1 := by
  intro r hr
  unfold vectorReductions at hr
  dsimp only at hr
  split at hr
  · simp at hr
  · obtain ⟨row, h1, rfl⟩ := List.mem_map.mp hr
    have h2 := (List.mem_filter.mp h1).2
    unfold psHasSlot at h2
    simp only [Bool.and_eq_true, decide_eq_true_eq] at h2
    unfold psSlot
    exact ⟨by dsimp only; omega, by dsimp only; omega⟩

theorem outWrites_noSlot (rc : RunCmd) (b : Bool) (w : VecWrites) (s : State) : NoSlot (rc, s) (outWrites rc b w s) := by
  unfold outWrites
  split
  · exact ⟨rfl, rfl⟩
  · exact bufferWrites_noSlot _ _ _

theorem forwardEarly_slots (rc : RunCmd) (es : List Elem) (s : State) : (forwardEarly rc es s).slots = s.slots := by
  unfold forwardEarly
  split
  · dsimp only
    split
    · rfl
    · exact (contributeRows_aside _ _ _ _ _).slots
  · rfl

theorem finishVector_inRange (w : Writer) (hw : w.leavesSlots) (v : Nat) (b : Bool) (n : Nat) (es : List Elem) (rc : RunCmd) (s : State) :
    InRange rc.packet (rc, s) (finishVector w v SoftStep.none b n es rc s) := by
  have hd : ∀ r u, applyDecision SoftStep.none r u = (r, u) := fun r u => rfl
  unfold finishVector
  simp only [hd]
  split
  · exact NoSlot.inRange ⟨rfl, by simp [recordTrap]⟩
  · generalize hm : ({ rc.prog with flags := _, poisonIn := _, vector := _ } : Progress) = met
    have h0 : SameRed rc { rc with prog := met } := by rw [← hm]; rfl
    have h := hw s { rc with prog := met } v es
    generalize w.write s { rc with prog := met } v es = o at h ⊢
    have last : ∀ (x : RunCmd × State) (l : List Nat), NoSlot x (x.1, forwardEarly x.1 es (lockstepFold l x.2)) :=
      fun x l => ⟨rfl, (forwardEarly_slots _ _ _).trans (lockstepFold_aside _ _).slots⟩
    have red : ∀ (l : List (Nat × Reduction)) (a : RunCmd × State), (∀ r ∈ l, inRange rc.packet r.1) →
        InRange rc.packet a (l.foldl (fun (a : RunCmd × State) r => applyReduction a.1 r.1 r.2 a.2) a) := by
      intro l
      induction l with
      | nil => exact fun a _ => InRange.refl _ _
      | cons r rest ih =>
        intro a hr
        exact (applyReduction_inRange _ _ _ _ _ (hr r List.mem_cons_self)).trans (ih _ (fun x hx => hr x (List.mem_cons_of_mem _ hx)))
    refine InRange.trans ?_ (last _ _).inRange
    refine InRange.trans ?_ (outWrites_noSlot _ _ _ _).inRange
    refine InRange.trans ?_ (red _ _ (vectorReductions_range s rc es))
    exact NoSlot.inRange ⟨h0.trans h.1, by simp [countBlocks, h.2]⟩

/-! ## INTAKE -/

theorem takeIn_noSlot (s : State) (rc : RunCmd) (v : VecIn) : NoSlot (rc, s) ((takeIn s rc v).1, (takeIn s rc v).2.1) := by
  unfold takeIn
  dsimp only
  refine ⟨?_, by simp [countReads]⟩
  exact SameRed.trans (b := { rc with prog := { rc.prog with taken := (intake s rc v).taken } }) rfl
    (sameRed_foldl _ (fun (r : RunCmd) (b : Nat × List Byte) => addInput_red r b.1 b.2) _ _)

theorem formRow_noSlot (s : State) (rc : RunCmd) (stamp : Nat) (vs : List VecIn) : NoSlot (rc, s) (formRow s rc stamp vs) := by
  unfold formRow
  dsimp only
  have key : ∀ (l : List VecIn) (a : RunCmd × State × List ReadyVec), NoSlot (a.1, a.2.1)
      ((l.foldl (fun (a : RunCmd × State × List ReadyVec) v =>
        let x := takeIn a.2.1 a.1 v
        (x.1, x.2.1, a.2.2 ++ [⟨v.number, x.2.2.fired, x.2.2.elems.map (throughJoin a.2.1 rc 0)⟩])) a).1,
       (l.foldl (fun (a : RunCmd × State × List ReadyVec) v =>
        let x := takeIn a.2.1 a.1 v
        (x.1, x.2.1, a.2.2 ++ [⟨v.number, x.2.2.fired, x.2.2.elems.map (throughJoin a.2.1 rc 0)⟩])) a).2.1) := by
    intro l
    induction l with
    | nil => exact fun a => NoSlot.refl _
    | cons k rest ih =>
      intro a
      rw [List.foldl_cons]
      exact (takeIn_noSlot _ _ _).trans (ih (_, _, _))
  have h := key vs (rc, s, [])
  exact ⟨h.reduced, h.slots⟩

theorem formVector_noSlot (s : State) (rc : RunCmd) (v : VecIn) : NoSlot (rc, s) ((formVector s rc v).rc, (formVector s rc v).state) := by
  unfold formVector
  split
  · have h : NoSlot (rc, s) (if rc.prog.ready.isEmpty then formRow s rc 0 (rowVectors rc v) else (rc, s)) := by
      split
      · exact formRow_noSlot _ _ _ _
      · exact NoSlot.refl _
    dsimp only
    generalize (if rc.prog.ready.isEmpty then formRow s rc 0 (rowVectors rc v) else (rc, s)) = a at h ⊢
    split
    · exact h
    · exact ⟨h.reduced, h.slots⟩
  · exact takeIn_noSlot _ _ _

/-- A kind of pass without the soft-maximum decision, whose writer changes no slot. -/
structure PassKind.plain (k : PassKind) : Prop where
  soft   : k.soft = false
  writer : k.writer.leavesSlots

theorem runVector_inRange (k : PassKind) (hk : k.plain) (v : VecIn) (hb : v.beat = none) (rc : RunCmd) (s : State) (r : RunCmd × State)
    (h : runVector k v rc s = some r) : InRange rc.packet (rc, s) r := by
  unfold runVector at h
  have hf := formVector_noSlot s rc v
  have hp : (formVector s rc v).rc.packet = rc.packet := (formVector_does s rc v).cmd.packet
  generalize formVector s rc v = f at h hf hp
  simp only [hb, hk.soft, Option.isSome_none, Bool.and_false, Bool.false_and, Bool.false_eq_true, if_false] at h
  cases h
  rw [← hp]
  refine InRange.trans ?_ (finishVector_inRange _ hk.writer _ _ _ _ _ _)
  exact NoSlot.inRange ⟨hf.reduced, by simpa [countVector] using hf.slots⟩

theorem rowStarts_red (s : State) (rc : RunCmd) (row : Nat) : SameRed rc (rowStarts s rc row) := by
  unfold rowStarts
  dsimp only
  have h1 : SameRed rc (if psHasSlot rc row then
      { rc with prog := { rc.prog with snap := spPut rc.prog.snap row (slotAt s (psSlot rc row)) } } else rc) := by
    split <;> rfl
  generalize (if psHasSlot rc row then
      { rc with prog := { rc.prog with snap := spPut rc.prog.snap row (slotAt s (psSlot rc row)) } } else rc : RunCmd) = r1 at h1 ⊢
  have h2 : SameRed rc (if tSrcA rc.tumbler = 0 ∧ (tRdMode rc.tumbler ≠ 1 ∨ isBlock (tFmtA rc.tumbler)) then
      addInput r1 (inputKey 0 row) (rowSource s rc (descOf rc 0) (tFmtA rc.tumbler) row) else r1) := by
    split
    · exact h1.trans (addInput_red _ _ _)
    · exact h1
  split
  · exact h2.trans (addInput_red _ _ _)
  · exact h2

theorem nextVector_inRange (k : PassKind) (hk : k.plain) (staged : Option BadWord) (rc : RunCmd) (s : State) (hd : psDrains rc = false) :
    InRange rc.packet (rc, s) (nextVector k staged rc s).2 := by
  unfold nextVector beatsWait
  simp only [hd, Bool.false_and, Bool.false_eq_true, if_false]
  have h1 : ∀ l : List Nat, SameRed rc (l.foldl (rowStarts s) rc) := fun l => sameRed_foldl _ (fun r x => rowStarts_red s r x) l rc
  have h2 : ∀ l : List Nat, SameCmd rc (l.foldl (rowStarts s) rc) := fun l => sameCmd_foldl _ (fun r x => rowStarts_same s r x) l rc
  generalize ((vectorSpots rc rc.prog.vector).filter (fun x => decide (x.j = 0))).map (fun x => x.row) = l
  split
  · rename_i r hr
    have h3 := runVector_inRange k hk _ rfl _ _ r hr
    rw [(h2 l).packet] at h3
    exact InRange.trans (b := (l.foldl (rowStarts s) rc, s)) (NoSlot.inRange ⟨h1 l, rfl⟩) h3
  · exact InRange.refl _ _

theorem runVectors_inRange (k : PassKind) (hk : k.plain) (ht : k.writer.tame) (n : Nat) (rc : RunCmd) (s : State) (hr : RunsOn rc) :
    InRange rc.packet (rc, s) (runVectors k n rc s) := by
  induction n generalizing rc s with
  | zero => exact InRange.refl _ _
  | succ n ih =>
    unfold runVectors
    split
    · exact InRange.refl _ _
    · dsimp only
      have h := nextVector_inRange k hk none rc s hr.drains
      have hd := (nextVector_does k ht none rc s hr).2.cmd
      split
      · have h2 := ih (nextVector k none rc s).2.1 (nextVector k none rc s).2.2 (hd.runsOn hr.oneMore)
        rw [show (nextVector k none rc s).2.1.packet = rc.packet from hd.packet] at h2
        exact h.trans h2
      · exact h

/-! ## The pass -/

theorem endPass_noSlot (rc : RunCmd) (s : State) : NoSlot (rc, s) (endPass rc s) := by
  unfold endPass
  dsimp only
  have h1 : NoSlot (rc, s) (drainSource (sumSqnr (finishEmit rc).rc), countBlocks rc.prog (finishEmit rc).rc.prog rc.vi s) :=
    ⟨SameRed.trans (b := sumSqnr (finishEmit rc).rc) (finishEmit_red rc) (addInput_red _ _ _), by simp [countBlocks]⟩
  have h2 := (h1.trans (bufferWrites_noSlot _ (finishEmit rc).writes _)).trans (flushSectors_noSlot _ _)
  refine ⟨h2.reduced, Eq.trans ?_ h2.slots⟩
  dsimp only
  split
  · exact (countEvent_aside _ _ _ _).slots
  · rfl

theorem addLinks_red (s : State) (rc : RunCmd) : SameRed rc (addLinks s rc) := by
  unfold addLinks
  split
  · exact SameRed.refl _
  · exact addInput_red _ _ _

theorem beginPass_noSlot (k : PassKind) (hk : k.plain) (rc : RunCmd) (s : State) : NoSlot (rc, s) (beginPass k rc s) := by
  unfold beginPass
  simp only [hk.soft, Bool.false_and, Bool.false_eq_true, if_false]
  have h0 : NoSlot (rc, s) (loadColumns (resumedGroup rc) s) := by
    refine NoSlot.trans (b := (resumedGroup rc, s)) ⟨?_, rfl⟩ ⟨rfl, by simp [loadColumns, countReads]⟩
    unfold resumedGroup
    split
    · rfl
    · split <;> rfl
  generalize loadColumns (resumedGroup rc) s = r1 at h0 ⊢
  have h1 : ∀ l : List Nat, SameRed rc (l.foldl (fun r c => addInput r (inputKey (2 + c) 0) (columnSource s rc c)) r1.1) :=
    fun l => SameRed.trans h0.reduced (sameRed_foldl _ (fun r c => addInput_red r _ _) l _)
  refine ⟨?_, h0.slots⟩
  generalize hx : (List.foldl _ r1.1 _ : RunCmd) = x
  have h2 : SameRed rc x := by rw [← hx]; exact h1 _
  generalize hy : (if (linksIn x && _) = true then addLinks s x else x : RunCmd) = y
  have h3 : SameRed rc y := by
    rw [← hy]
    split
    · exact h2.trans (addLinks_red _ _)
    · exact h2
  split
  · exact h3.trans rfl
  · exact h3

/-- A pass without a soft-maximum decision changes slots of its range alone, and notes no others as reduced. -/
theorem passEnd_inRange (k : PassKind) (hk : k.plain) (ht : k.writer.tame) (rc : RunCmd) (s : State) (hr : RunsOn rc) :
    InRange rc.packet (rc, s) (passEnd k rc s) := by
  unfold passEnd
  dsimp only
  have h1 := beginPass_noSlot k hk rc s
  have h2 := beginPass_does k rc s
  have h3 := runVectors_inRange k hk ht (psVectors (beginPass k rc s).1) (beginPass k rc s).1 (beginPass k rc s).2 (h2.cmd.runsOn hr)
  rw [show (beginPass k rc s).1.packet = rc.packet from h2.cmd.packet] at h3
  exact (h1.inRange.trans h3).trans (endPass_noSlot _ _).inRange

end Sys2Proof.Machine
end

