-- ==== Sys2Proof/Tests/Slice0.lean ====
section
/-! SUPPORT. Tests: ill-formed commands that WellFormed refuses, values taken from the spec, and for each statement states and
operands that meet its hypotheses together. -/

set_option Elab.async false

namespace Sys2Proof.Tests

open Sys2Proof Sys2Proof.Machine Sys2Proof.Claims

/-! ## Ill-formed commands -/

theorem test_wf_ring : Instr.wellFormed (.commandFetchReturn ⟨2 ^ 19, none⟩) = false ∧ Instr.wellFormed (.commandFetchReturn ⟨0, some (.chainDescriptor 1024)⟩) = false := by decide +kernel
theorem test_wf_read_ring : Instr.wellFormed (.contextReadReturn (2 ^ 19) none) = false := by decide +kernel
theorem test_wf_wait_ring : Instr.wellFormed (.blockedWaitEnd (2 ^ 19)) = false ∧ Instr.wellFormed (.eventWaitTimeout (2 ^ 19)) = false := by
  decide +kernel
theorem test_wf_page_port : Instr.wellFormed (.viDoorbell .mgmt 0) = false ∧ Instr.wellFormed (.create .mgmt 0) = false
    ∧ Instr.wellFormed (.resume .mgmt 0) = false ∧ Instr.wellFormed (.pause .mgmt 0) = false
    ∧ Instr.wellFormed (.destroy .mgmt 0) = false ∧ Instr.wellFormed (.viTumblerInval .mgmt 0) = false
    ∧ Instr.wellFormed (.viTolerance .mgmt 0) = false ∧ Instr.wellFormed (.viDigestBase .mgmt 0) = false := by decide +kernel
theorem test_wf_address : Instr.wellFormed (.tumblerFetchReturn 0 ⟨32, none⟩) = false ∧ Instr.wellFormed (.tumblerFetchReturn 0 ⟨64, some (.chainDescriptor 1024)⟩) = false := by decide +kernel
theorem test_wf_beat : Instr.wellFormed (.drnBeat ⟨List.replicate 513 0, 0, 0, 0, 0⟩) = false := by decide +kernel
theorem test_wf_packet : Instr.wellFormed (.hingePartial ⟨1, []⟩) = false ∧ Instr.wellFormed (.hingeFinal ⟨0, []⟩) = false
    ∧ Instr.wellFormed (.hingeRetract ⟨0, []⟩) = false ∧ Instr.wellFormed (.hingeNack ⟨0, []⟩) = false
    ∧ Instr.wellFormed (.hingeProbe ⟨0, []⟩) = false := by decide +kernel
theorem test_wf_payload : Instr.wellFormed (.hingePartial ⟨0, List.replicate 513 0⟩) = false := by decide +kernel
theorem test_wf_scrub : Instr.wellFormed (.scrub (.rowStore 32768 0) .clean) = false
    ∧ Instr.wellFormed (.scrub (.tableStore 0 12288) .clean) = false := by decide +kernel
theorem test_wf_error : wfError (.staging 1024 1) = false ∧ wfError (.staging 0 0) = false ∧ wfError (.hingeInput 1024 0 0) = false
    ∧ wfError (.hingeInput 0 65536 0) = false ∧ wfError (.vectorContext 32 0) = false
    ∧ wfError (.vectorContext 0 512) = false ∧ wfError (.contextCache (2 ^ 19)) = false ∧ wfError (.tumblerCache 0 1) = false
    ∧ wfError (.chainDescriptor 1024) = false ∧ wfError (.exactAdder 32768) = false := by decide +kernel
theorem test_wf_run : Instr.wellFormed (.chain ⟨none, some (.staging 1024 1)⟩) = false
    ∧ Instr.wellFormed (.chainAcc ⟨none, some (.staging 1024 1)⟩) = false ∧ Instr.wellFormed (.norm ⟨none, some (.staging 1024 1)⟩) = false
    ∧ Instr.wellFormed (.softmaxStep ⟨none, some (.staging 1024 1)⟩) = false
    ∧ Instr.wellFormed (.softmaxFinal ⟨none, some (.staging 1024 1)⟩) = false
    ∧ Instr.wellFormed (.select ⟨none, some (.staging 1024 1)⟩) = false ∧ Instr.wellFormed (.compress ⟨none, some (.staging 1024 1)⟩) = false
    ∧ Instr.wellFormed (.expand ⟨none, some (.staging 1024 1)⟩) = false
    ∧ Instr.wellFormed (.scatterBuckets ⟨none, some (.staging 1024 1)⟩) = false
    ∧ Instr.wellFormed (.quantiseMx ⟨none, some (.staging 1024 1)⟩) = false
    ∧ Instr.wellFormed (.arbitrate (some (.staging 1024 1))) = false := by decide +kernel

/-! ## States and commands to test with -/

/-- A word from its fields: lowest bit and value. -/
def bits (fs : List (Nat × Nat)) : Nat := fs.foldl (fun a f => a + f.2 * 2 ^ f.1) 0
def w512 (fs : List (Nat × Nat)) : BitVec 512 := BitVec.ofNat 512 (bits fs)
def w256 (fs : List (Nat × Nat)) : BitVec 256 := BitVec.ofNat 256 (bits fs)

/-- An ACTIVE unit with a grant that covers point 0. -/
def live : State :=
  { State.reset with
    ctl := { State.reset.ctl with
      state := .active, fence := false, refuse := false, ringsLost := false, resetSinceFence := false }
    pwr := { State.reset.pwr with grant := 88 } }

/-- A RUNNING ring of VI 5 whose one command has started; it has registers to save. -/
def ctx : RingCtx :=
  { cmdBase := 0x10000, cplBase := 0x20000, head := 1, tail := 1, cpli := 0, size := 6, sched := 1, halt := 0xEDC, key := 0,
    vsave := 0x40000, notify := 0, owner := 5, state := .running, prog := 0 }

def lat : Latched := ⟨false, false, 0, false, false, 4, 0, 112, 0, false⟩

/-- A started command of ring 3: packet fields beyond its VI, tumbler word and descriptors. -/
def cmd (op : Nat) (fs : List (Nat × Nat)) (t : BitVec 512) (ds : Sparse (BitVec 256)) : RunCmd :=
  { ring := 3, vi := 5, seq := 0, packet := w512 ([(0, op), (8, 5)] ++ fs), descs := ds, tumbler := t, poisonedFetch := false,
    latched := lat, bank := some 0, tableId := 0, key := none, phase := .running, wait := .nothing, tainted := false,
    failed := none, retained := false, prog := Progress.zero }

/-- `rc` holds the chain. -/
def holding (rc : RunCmd) (s : State) : State :=
  { s with
    rings := { s.rings with
      cache := [⟨rc.ring, ctx, true⟩], cmds := [rc], holder := some rc.ring } }

/-- A slot of VI 5, open. -/
def openSlot : Slot := { Slot.zero with owner := 5, isOpen := true, maxv := ⟨w38NegInf, 0xFFFFFFFFFF⟩, minv := ⟨w38PosInf, 0xFFFFFFFFFF⟩ }

def withSlots (ss : Sparse Slot) (s : State) : State := { s with slots := ss }
def withVi (v : ViId) (f : ViCfg → ViCfg) (s : State) : State := setCfgVi s v (f (cfgVi s v))

/-- The state after a step that goes on. -/
def after (o : Host.Outcome State Fault Refusal) : State :=
  match o with
  | .next t => t
  | _ => State.reset

theorem issues {s : State} {rc : RunCmd} {op : Nat}
    (h : mayIssue s = true ∧ holderCmd s = some rc ∧ rc.phase = .running ∧ pkOpcode rc.packet = op
      ∧ (cacheEntry s rc.ring).isSome = true) : Issues s rc op := ⟨h.1, h.2.1, h.2.2.1, h.2.2.2.1, h.2.2.2.2⟩
theorem passes {s : State} {rc : RunCmd} (h : rc.prog.checked = false ∧ verdict s rc = .good) : Passes s rc := ⟨h.1, h.2⟩
theorem passReady {s : State} {rc : RunCmd} {op : Nat} (hi : Issues s rc op) (hp : Passes s rc) (hf : Fresh rc)
    (h : barred s (passed rc) = false ∧ psDrains rc = false ∧ ∀ v < psVectors rc, isBoundary rc v = false) : PassReady s rc op :=
  { toIssues := hi, toPasses := hp, fresh := hf, unbarred := h.1, drains := h.2.1, whole := .inr h.2.2 }

/-! ## The queue and what every ring command shares -/

def nopCmd : RunCmd := cmd 0x00 [] 0 []
def nopState : State := holding nopCmd live

theorem test_queue_met : ({ live with pending := [Instr.nop] } : State).pending = [.nop] ∧ live.pending = [] := by decide +kernel
theorem test_beat_credit : live.ctl.refuse = false ∧ live.drain.credits ≠ 0
    ∧ ({ live with drain := { live.drain with credits := 0 } } : State).drain.credits = 0 := by decide +kernel
/-- R30. -/
theorem test_beat_faults : exec (.drnBeat ⟨[], 0, 0, 0, 0⟩) { live with drain := { live.drain with credits := 0 } }
    = .fault .beatWithoutCredit := rfl
theorem test_turn_met : ringOpcode .nop = some 0 ∧ holderCmd live = none ∧ mayIssue { live with pwr := { live.pwr with grantStop := true } } = false
    ∧ holderCmd nopState = some nopCmd ∧ ringOpcode .fence = some 0x28 ∧ pkOpcode nopCmd.packet ≠ 0x28 := by decide +kernel
theorem test_nop_issues : Issues nopState nopCmd 0x00 := issues (by decide +kernel)
theorem test_nop_good : Passes nopState nopCmd ∧ Fresh nopCmd := ⟨passes (by decide +kernel), by decide +kernel, by decide +kernel, by decide +kernel⟩
/-- Bit 19 of word 0 is reserved (R437): DETAIL 2. -/
theorem test_check_detail : verdict (holding (cmd 0x00 [(19, 1)] 0 []) live) (cmd 0x00 [(19, 1)] 0 []) = .bad 2 := by decide +kernel
theorem test_check_issues : Issues (holding (cmd 0x00 [(19, 1)] 0 []) live) (cmd 0x00 [(19, 1)] 0 []) 0x00 ∧ Fresh (cmd 0x00 [(19, 1)] 0 []) :=
  ⟨issues (by decide +kernel), by decide +kernel, by decide +kernel, by decide +kernel⟩

def openCmd : RunCmd := cmd 0x10 [(192, 4), (208, 1), (384, 0x8000)] 0 []
def openState : State := withVi 5 (fun c => { c with quotaLimit := 2 }) (holding openCmd live)

/-- Two slots with a limit of 1 (R267). -/
theorem test_quota_refuses : verdict (withVi 5 (fun c => { c with quotaLimit := 1 }) openState) openCmd = .refused .quota := by decide +kernel
theorem test_quota_met : Issues (withVi 5 (fun c => { c with quotaLimit := 1 }) openState) openCmd 0x10 ∧ Fresh openCmd :=
  ⟨issues (by decide +kernel), by decide +kernel, by decide +kernel, by decide +kernel⟩

def haltState : State :=
  { nopState with
    rings := { nopState.rings with
      cache := [⟨3, { ctx with halt := 1, tail := 4 }, true⟩] } }

theorem test_halt_met : Issues haltState nopCmd 0x00 ∧ Passes haltState nopCmd ∧ ringDeferred haltState nopCmd.ring = none
    ∧ bit (ctxOfRing haltState nopCmd.ring).halt (statusCode (finalStatus nopCmd .ok)) = true ∧ ringStopped haltState nopCmd.ring = false
    ∧ (ctxOfRing haltState nopCmd.ring).cpli + 1 = (ctxOfRing haltState nopCmd.ring).head :=
  ⟨issues (by decide +kernel), passes (by decide +kernel), by decide +kernel, by decide +kernel, by decide +kernel, by decide +kernel⟩

/-! ## Commands that order others -/

def fenceCmd : RunCmd := cmd 0x28 [(20, 1)] 0 []
/-- Another ring of VI 5 has a command left. -/
def fenceState : State :=
  withVi 5 (fun c => { c with ringCount := 8 })
    { holding fenceCmd live with
      rings := { (holding fenceCmd live).rings with
        cache := [⟨3, ctx, true⟩, ⟨4, { ctx with tail := 2, state := .ready }, true⟩] } }

theorem test_fence_met : Issues fenceState fenceCmd 0x28 ∧ Cleared fenceState fenceCmd ∧ fenceCmd.wait = .nothing
    ∧ pkF0 fenceCmd.packet = true ∧ (∃ x ∈ fenceTargets fenceState fenceCmd, fenceReached fenceState x = false) :=
  ⟨issues (by decide +kernel), .inr (by decide +kernel), by decide +kernel, by decide +kernel, by decide +kernel⟩
/-- Alone in its VI the FENCE has nothing to wait for. -/
theorem test_fence_alone : Issues (holding fenceCmd live) fenceCmd 0x28 ∧ Cleared (holding fenceCmd live) fenceCmd
    ∧ ∀ x ∈ fenceTargets (holding fenceCmd live) fenceCmd, fenceReached (holding fenceCmd live) x = true :=
  ⟨issues (by decide +kernel), .inr (by decide +kernel), by decide +kernel⟩

def signalCmd : RunCmd := cmd 0x29 [(352, 255), (448, 0xFFFFFFFF)] 0 []
theorem test_signal_met : Issues (holding signalCmd live) signalCmd 0x29 ∧ Cleared (holding signalCmd live) signalCmd :=
  ⟨issues (by decide +kernel), .inr (by decide +kernel)⟩
/-- R495: 0 + 0xFFFFFFFF modulo 2^32. -/
theorem test_signal_adds : eventOf (after (exec .eventSignal (holding signalCmd live))) 5 255 = 0xFFFFFFFF := by decide +kernel

def waitCmd (target limit : Nat) : RunCmd := cmd 0x2A [(352, 7), (448, target), (480, limit)] 0 []
/-- R496 at its boundary: event 0 has reached 0 and 2^31 + 1, not 1 and not 2^31. -/
theorem test_wait_reach : eventReached 0 0 = true ∧ eventReached 0 0x80000001 = true ∧ eventReached 0 1 = false
    ∧ eventReached 0 0x80000000 = false := by decide +kernel
theorem test_wait_met : Issues (holding (waitCmd 1 9) live) (waitCmd 1 9) 0x2A ∧ Cleared (holding (waitCmd 1 9) live) (waitCmd 1 9)
    ∧ eventReached (eventOf (holding (waitCmd 1 9) live) 5 7) 1 = false :=
  ⟨issues (by decide +kernel), .inr (by decide +kernel), by decide +kernel⟩
theorem test_wait_reached_met : Issues (holding (waitCmd 0 0) live) (waitCmd 0 0) 0x2A
    ∧ Cleared (holding (waitCmd 0 0) live) (waitCmd 0 0) ∧ eventReached (eventOf (holding (waitCmd 0 0) live) 5 7) 0 = true :=
  ⟨issues (by decide +kernel), .inr (by decide +kernel), by decide +kernel⟩
def waitingCmd : RunCmd := { waitCmd 1 9 with phase := .blocked false, wait := .event 7 1 }
def waitingState : State := { holding waitingCmd live with rings := { (holding waitingCmd live).rings with holder := none } }
theorem test_waiting_met : cmdOf waitingState waitingCmd.ring = some waitingCmd ∧ waitingCmd.phase = .blocked false
    ∧ waitingCmd.wait = .event 7 1 ∧ (cacheEntry waitingState waitingCmd.ring).isSome = true ∧ pkOpc waitingCmd.packet ≠ 0
    ∧ waitingCmd.failed = none := by decide +kernel

/-! ## Row state -/

theorem test_open_met : Issues openState openCmd 0x10 ∧ Passes openState openCmd ∧ Fresh openCmd :=
  ⟨issues (by decide +kernel), passes (by decide +kernel), by decide +kernel, by decide +kernel, by decide +kernel⟩
def closeCmd : RunCmd := cmd 0x11 [(192, 4), (208, 1)] 0 []
def closeState : State := withSlots [(4, openSlot), (5, openSlot)] (holding closeCmd live)
theorem test_close_met : Issues closeState closeCmd 0x11 ∧ Passes closeState closeCmd ∧ Fresh closeCmd :=
  ⟨issues (by decide +kernel), passes (by decide +kernel), by decide +kernel, by decide +kernel, by decide +kernel⟩
/-- R271. -/
theorem test_close_zero : slotAt (after (exec .rowstatClose closeState)) 5 = Slot.zero := by decide +kernel
def spillCmd (f0 : Nat) : RunCmd := cmd 0x12 [(20, f0), (128, 0x8000), (192, 4), (208, 1), (296, 16)] 0 [(4, w256 [(0, 0x1000)])]
def spillState (f0 : Nat) : State :=
  withSlots [(4, openSlot), (5, { openSlot with exact := true, poison := true })] (holding (spillCmd f0) live)
theorem test_spill_met : (Issues (spillState 1) (spillCmd 1) 0x12 ∧ Passes (spillState 1) (spillCmd 1) ∧ Fresh (spillCmd 1))
    ∧ Issues (spillState 0) (spillCmd 0) 0x12 ∧ Passes (spillState 0) (spillCmd 0) ∧ Fresh (spillCmd 0)
    ∧ (slotAt (spillState 0) (pkRow0 (spillCmd 0).packet + 1)).poison = true :=
  ⟨⟨issues (by decide +kernel), passes (by decide +kernel), by decide +kernel, by decide +kernel, by decide +kernel⟩,
    issues (by decide +kernel), passes (by decide +kernel), ⟨by decide +kernel, by decide +kernel, by decide +kernel⟩, by decide +kernel⟩
def fillCmd : RunCmd := cmd 0x13 [(128, 0x8000), (192, 4), (208, 1), (296, 1)] 0 [(0, w256 [(0, 0x1000)])]
def fillState : State := withVi 5 (fun c => { c with quotaLimit := 2 }) (holding fillCmd live)
theorem test_fill_met : Issues fillState fillCmd 0x13 ∧ Passes fillState fillCmd ∧ Fresh fillCmd :=
  ⟨issues (by decide +kernel), passes (by decide +kernel), by decide +kernel, by decide +kernel, by decide +kernel⟩
theorem test_image_met : openSlot.fin ≠ 3 := by decide +kernel
/-- A slot spilled and filled again (R258, R259). -/
theorem test_image : slotOf (slotBytes openSlot) = openSlot ∧ (slotBytes openSlot).length = 256 := by decide +kernel

/-! ## Passes -/

/-- INTAKE of port A from memory in format `fmtA`; EMIT to memory in format `fmt`. -/
def passWord (fmtA fmt : Nat) (fs : List (Nat × Nat)) : BitVec 512 := w512 ([(0, 1), (6, fmtA), (448, 1), (449, fmt)] ++ fs)
/-- One row of four FP32 elements, without a slot. -/
def passFields : List (Nat × Nat) := [(64, 0x4000), (128, 0x8000), (223, 1), (224, 4), (296, 17), (304, 4)]
def region (a : Nat) : BitVec 256 := w256 [(0, a)]
def chainCmd : RunCmd := cmd 0x01 passFields (passWord 1 1 []) [(0, region 0x1000), (4, region 0x2000)]
theorem test_chain_met : PassReady (holding chainCmd live) chainCmd 0x01 :=
  passReady (issues (by decide +kernel)) (passes (by decide +kernel)) ⟨by decide +kernel, by decide +kernel, by decide +kernel⟩
    (by decide +kernel)

/-- R450: a CHAIN may name no drain, a CHAIN_ACC must name one. -/
def accFields : List (Nat × Nat) := [(64, 0x4000), (128, 0x8000), (223, 1), (224, 4), (296, 16), (304, 4)]
def accWord : BitVec 512 := w512 [(0, 1), (4, 1), (6, 14), (448, 1), (449, 1)]
def accCmd : RunCmd := cmd 0x02 accFields accWord [(4, region 0x2000)]
def beat (row block : Nat) : Beat := ⟨[1, 2, 3, 4], 0, 0, BitVec.ofNat 32 (row + 2 ^ 15 * block), 0⟩
def withBeats (bs : List Beat) (s : State) : State := { s with drain := ⟨bs.map prescan, 60, 0⟩ }
theorem test_drain_codes : verdict (holding { accCmd with packet := w512 ([(0, 1), (8, 5)] ++ accFields) } live)
      { accCmd with packet := w512 ([(0, 1), (8, 5)] ++ accFields) } = .bad 0xFFFF
    ∧ verdict (holding { chainCmd with packet := w512 ([(0, 2), (8, 5)] ++ passFields) } live)
      { chainCmd with packet := w512 ([(0, 2), (8, 5)] ++ passFields) } = .bad 0xFFFF := by decide +kernel
theorem test_acc_met : DrainReady (withBeats [beat 0 0] (holding accCmd live)) accCmd 0x02 ∧ accCmd.latched.nanTrap = false
    ∧ (passEnd plainPass (passed accCmd) (withBeats [beat 0 0] (holding accCmd live))).1.prog.ended = none :=
  ⟨{ toIssues := issues (by decide +kernel), toPasses := passes (by decide +kernel)
     fresh := ⟨by decide +kernel, by decide +kernel, by decide +kernel⟩, unbarred := by decide +kernel, drains := by decide +kernel
     beats := by decide +kernel, whole := .inr (by decide +kernel) }, by decide +kernel, by decide +kernel⟩

/-- R292: SOFTMAX_STEP needs AFFINE without D and C, CURVE 0 with SPLIT and JOIN, and a slot. -/
def softWord : BitVec 512 := passWord 1 1 [(64, 1), (128, 1), (192, 1), (256, 1)]
def softCmd : RunCmd := cmd 0x04 [(64, 0x4000), (128, 0x8000), (192, 4), (224, 4), (296, 17), (304, 4)] softWord
  [(0, region 0x1000), (4, region 0x2000)]
def softState : State := withSlots [(4, { openSlot with ref := 0x8000 })] (holding softCmd live)
theorem test_soft_met : PassReady softState softCmd 0x04 :=
  passReady (issues (by decide +kernel)) (passes (by decide +kernel)) ⟨by decide +kernel, by decide +kernel, by decide +kernel⟩
    (by decide +kernel)

def compressCmd : RunCmd := cmd 0x08 [(64, 0x4000), (128, 0x8000), (223, 1), (224, 4), (296, 49), (304, 4)] (passWord 1 1 [(461, 1)])
  [(0, region 0x1000), (4, region 0x2000), (5, region 0x3000)]
theorem test_compress_met : PassReady (holding compressCmd live) compressCmd 0x08
    ∧ (passEnd plainPass (passed compressCmd) (holding compressCmd live)).1.prog.ended = none :=
  ⟨passReady (issues (by decide +kernel)) (passes (by decide +kernel)) ⟨by decide +kernel, by decide +kernel, by decide +kernel⟩
    (by decide +kernel), by decide +kernel⟩
def expandCmd : RunCmd := cmd 0x09 [(64, 0x4000), (128, 0x8000), (223, 1), (224, 4), (296, 19), (304, 4)]
  (passWord 1 1 [(15, 1), (17, 1), (26, 1)]) [(0, region 0x1000), (1, region 0x1800), (4, region 0x2000)]
theorem test_expand_met : PassReady (holding expandCmd live) expandCmd 0x09 :=
  passReady (issues (by decide +kernel)) (passes (by decide +kernel)) ⟨by decide +kernel, by decide +kernel, by decide +kernel⟩
    (by decide +kernel)
def quantCmd : RunCmd := cmd 0x0B [(64, 0x4000), (128, 0x8000), (223, 1), (224, 32), (296, 49), (304, 32)] (passWord 1 6 [])
  [(0, region 0x1000), (4, w256 [(0, 0x2000), (64, 0x2800)]), (5, region 0x3000)]
theorem test_quantise_met : PassReady (holding quantCmd live) quantCmd 0x0B
    ∧ (passEnd plainPass (passed quantCmd) (holding quantCmd live)).1.prog.ended = none :=
  ⟨passReady (issues (by decide +kernel)) (passes (by decide +kernel)) ⟨by decide +kernel, by decide +kernel, by decide +kernel⟩
    (by decide +kernel), by decide +kernel⟩

/-- SELECT of K = 2 into registers 0 to 3, RAW (R369). -/
def selectCmd : RunCmd := cmd 0x06 [(64, 0x4000), (128, 0x8000), (223, 1), (224, 4), (296, 1), (304, 4), (480, 2)]
  (passWord 1 0 [(453, 1), (460, 1)]) [(0, region 0x1000)]
theorem test_select_met : PassReady (holding selectCmd live) selectCmd 0x06
    ∧ (passEnd selectPass (passed selectCmd) (holding selectCmd live)).1.failed = none
    ∧ (passEnd selectPass (passed selectCmd) (holding selectCmd live)).1.prog.ended = none ∧ tDest selectCmd.tumbler ≠ 0 :=
  ⟨passReady (issues (by decide +kernel)) (passes (by decide +kernel)) ⟨by decide +kernel, by decide +kernel, by decide +kernel⟩
    (by decide +kernel), by decide +kernel, by decide +kernel, by decide +kernel⟩

theorem test_keep_met : passOf (.chain wholeRun) = some (0x01, plainPass) ∧ runOf (.chain wholeRun) = wholeRun
    ∧ PassReady (holding chainCmd live) chainCmd 0x01 ∧ chainCmd.latched.nanTrap = false
    ∧ (passEnd plainPass (passed chainCmd) (holding chainCmd live)).1.failed = none ∧ pkChv chainCmd.packet = false
    ∧ pkRecord chainCmd.packet = false ∧ plainPass.soft = false :=
  ⟨rfl, rfl, test_chain_met, by decide +kernel, by decide +kernel, by decide +kernel, by decide +kernel, rfl⟩

/-- A pass of 129 vectors, one beyond a segment (R482); packed, its segment is of 64. -/
def longCmd (pack : Nat) : RunCmd :=
  cmd 0x01 [(64, 0x4000), (128, 0x8000), (208, 128), (223, 1), (224, 1), (296, 17), (304, 1)] (passWord 3 3 [(1, pack)])
    [(0, region 0x1000), (4, region 0x2000)]
theorem test_segment_met : ∀ x ∈ [(0, 128), (1, 64)], ∃ rc, rc = longCmd x.1 ∧ Issues (holding rc live) rc 0x01
    ∧ Passes (holding rc live) rc ∧ Fresh rc ∧ barred (holding rc live) (passed rc) = false ∧ psDrains rc = false
    ∧ rc.latched.nanTrap = false ∧ hasRegs (ctxOfRing (holding rc live) 3) = true ∧ pkTaddr rc.packet ≠ 0
    ∧ isBoundary rc x.2 = true ∧ (∀ v < x.2, isBoundary rc v = false) ∧ x.2 < psVectors rc ∧ placesRecords rc = false := by
  intro x hx
  fin_cases hx <;> exact ⟨_, rfl, issues (by decide +kernel), passes (by decide +kernel),
    ⟨by decide +kernel, by decide +kernel, by decide +kernel⟩, by decide +kernel, by decide +kernel, by decide +kernel, by decide +kernel,
    by decide +kernel, by decide +kernel, by decide +kernel, by decide +kernel, by decide +kernel⟩
def pausedCmd (held : List HeldBeat) : RunCmd :=
  { longCmd 0 with prog := { Progress.zero with checked := true, vector := 128, heldBeats := held } }
theorem test_boundary_met : ∀ l ∈ [[], [⟨true, VecWrites.empty⟩]], ∃ rc, rc = pausedCmd l ∧ Issues (holding rc live) rc 0x01
    ∧ rc.prog.checked = true ∧ rc.prog.vector < psVectors rc ∧ rc.prog.ended = none ∧ atSegment (holding rc live) rc = true
    ∧ (rc.prog.heldBeats = [] ∨ ∃ x r, rc.prog.heldBeats = x :: r ∧ x.raising = true) := by
  intro l hl
  fin_cases hl
  · exact ⟨_, rfl, issues (by decide +kernel), by decide +kernel, by decide +kernel, by decide +kernel, by decide +kernel, .inl rfl⟩
  · exact ⟨_, rfl, issues (by decide +kernel), by decide +kernel, by decide +kernel, by decide +kernel, by decide +kernel,
      .inr ⟨_, _, rfl, rfl⟩⟩
/-- Three beats of row 0 wanted; the first is taken, or is of a row that the command has not. -/
def beatsCmd : RunCmd :=
  { cmd 0x02 [(64, 0x4000), (128, 0x8000), (223, 1), (224, 12), (296, 16), (304, 4)] accWord [(4, region 0x2000)] with
    prog := { Progress.zero with checked := true } }
theorem test_beats_met : ∀ b ∈ [beat 0 2, beat 1 0], ∃ s, s = withBeats [b] (holding beatsCmd live) ∧ Issues s beatsCmd 0x02
    ∧ beatsCmd.prog.checked = true ∧ psDrains beatsCmd = true ∧ beatsWait beatsCmd = false ∧ atSegment s beatsCmd = false
    ∧ beatsCmd.prog.vector + 1 < psVectors beatsCmd ∧ beatsCmd.prog.ended = none ∧ beatsCmd.latched.nanTrap = false
    ∧ s.drain.queue = [prescan b] ∧ s.ctl.refuse = false := by
  intro b hb
  fin_cases hb <;> exact ⟨_, rfl, issues (by decide +kernel), by decide +kernel, by decide +kernel, by decide +kernel, by decide +kernel,
    by decide +kernel, by decide +kernel, by decide +kernel, rfl, by decide +kernel⟩
/-- R279: row 0 is the command's only row. -/
theorem test_beat_rows : beatRow beatsCmd (beat 0 2) = some 0 ∧ beatRow beatsCmd (beat 1 0) = none ∧ beatRow beatsCmd (beat 0 3) = none := by
  decide +kernel
theorem test_empty_drain_met : Issues (withBeats [] (holding beatsCmd live)) beatsCmd 0x02 ∧ psDrains beatsCmd = true
    ∧ beatsCmd.prog.checked = true ∧ beatsCmd.prog.ended = none ∧ beatsCmd.prog.heldBeats = [] ∧ beatsCmd.prog.ready = []
    ∧ runnable beatsCmd = [] ∧ beatsCmd.prog.vector < psVectors beatsCmd :=
  ⟨issues (by decide +kernel), by decide +kernel⟩
/-- R32: of the equal maxima of a group the lowest lane. -/
theorem test_prescan : prescanGroup ⟨[1, 7, 7, 2], 0, 0, 0, 0⟩ 0 32 = ⟨7, 1⟩ := by decide +kernel
theorem test_barred_met : Passes { holding softCmd softState with tabs := { softState.tabs with bad := [0] } } softCmd
    ∧ barred { holding softCmd softState with tabs := { softState.tabs with bad := [0] } } (passed softCmd) = true :=
  ⟨passes (by decide +kernel), by decide +kernel⟩

/-! ## Rows finalised -/

def normCmd : RunCmd := cmd 0x03 [(192, 4)] 0 []
def rowState (rc : RunCmd) : State := withSlots [(4, { openSlot with count := 4, fsum := 0x4010000000000000, fsumsq := 0x4010000000000000 })] (holding rc live)
theorem test_norm_met : Issues (rowState normCmd) normCmd 0x03 ∧ Passes (rowState normCmd) normCmd ∧ Fresh normCmd
    ∧ pkChv normCmd.packet = false ∧ hasPass normCmd.packet = false :=
  ⟨issues (by decide +kernel), passes (by decide +kernel), ⟨by decide +kernel, by decide +kernel, by decide +kernel⟩, by decide +kernel,
    by decide +kernel⟩
/-- Mean 1 and variance 0 of four ones (R312 to R314): FIN0 is 1. -/
theorem test_norm_mean : (slotAt (after (exec (.norm wholeRun) (rowState normCmd))) 4).fin = 1 := by decide +kernel
def normPassCmd : RunCmd := cmd 0x03 [(64, 0x4000), (128, 0x8000), (192, 4), (224, 4), (296, 17), (304, 4)] (passWord 1 1 [])
  [(0, region 0x1000), (4, region 0x2000)]
theorem test_norm_pass_met : Issues (rowState normPassCmd) normPassCmd 0x03 ∧ Passes (rowState normPassCmd) normPassCmd
    ∧ Fresh normPassCmd ∧ pkChv normPassCmd.packet = false ∧ hasPass normPassCmd.packet = true
    ∧ barred (rowState normPassCmd) (passed normPassCmd) = false ∧ psDrains normPassCmd = false
    ∧ oneSegment (rowState normPassCmd) normPassCmd ∧ normPassCmd.latched.nanTrap = false :=
  ⟨issues (by decide +kernel), passes (by decide +kernel), ⟨by decide +kernel, by decide +kernel, by decide +kernel⟩, by decide +kernel,
    by decide +kernel, by decide +kernel, by decide +kernel, .inr (by decide +kernel), by decide +kernel⟩
def finalCmd : RunCmd := cmd 0x05 [(20, 1), (128, 0x8000), (192, 4), (296, 32)] 0 [(5, region 0x3000)]
theorem test_soft_final_met : Issues (rowState finalCmd) finalCmd 0x05 ∧ Passes (rowState finalCmd) finalCmd ∧ Fresh finalCmd
    ∧ pkChv finalCmd.packet = false ∧ hasPass finalCmd.packet = false ∧ pkF0 finalCmd.packet = true :=
  ⟨issues (by decide +kernel), passes (by decide +kernel), ⟨by decide +kernel, by decide +kernel, by decide +kernel⟩, by decide +kernel,
    by decide +kernel, by decide +kernel⟩
def finalPassCmd : RunCmd := { normPassCmd with packet := w512 ([(0, 5), (8, 5)] ++ [(64, 0x4000), (128, 0x8000), (192, 4), (224, 4), (296, 17), (304, 4)]) }
theorem test_soft_final_pass_met : Issues (rowState finalPassCmd) finalPassCmd 0x05 ∧ Passes (rowState finalPassCmd) finalPassCmd
    ∧ Fresh finalPassCmd ∧ pkChv finalPassCmd.packet = false ∧ hasPass finalPassCmd.packet = true
    ∧ barred (rowState finalPassCmd) (passed finalPassCmd) = false ∧ psDrains finalPassCmd = false
    ∧ oneSegment (rowState finalPassCmd) finalPassCmd ∧ finalPassCmd.latched.nanTrap = false :=
  ⟨issues (by decide +kernel), passes (by decide +kernel), ⟨by decide +kernel, by decide +kernel, by decide +kernel⟩, by decide +kernel,
    by decide +kernel, by decide +kernel, by decide +kernel, .inr (by decide +kernel), by decide +kernel⟩

/-! ## Chains -/

/-- A line of two members with one row at handle 4 (R322): the image of member `self`. -/
def lineImage (self : Nat) (fs : List (Nat × Nat)) : BitVec 512 :=
  w512 ([(0, 1), (8, self), (16, 1), (28, 1), (64, 0x5000), (128, 4), (144, 1)] ++ fs)
/-- Chain 9 of VI 5, whose peer is unit 2 in its incarnation 1. -/
def chain (self : Nat) (fs : List (Nat × Nat)) (es : List Epoch) : ChainDesc :=
  { valid := true, owner := 5, image := lineImage self fs, nanTrap := false, epoch := 0, hops := [(1, 2)], incs := [(2, 1)], epochs := es }
def withChain (d : ChainDesc) (s : State) : State := { s with chains := [(9, d)] }
/-- Epoch 0 at a member that has sent its contribution. -/
def sentEpoch : Epoch := { Epoch.fresh 0 with phase := .sent, own := [(0, ⟨ChainRow.ofStat RowStat.zero, 3, 0, true⟩)], timer := true }

def hwCmd : RunCmd :=
  { cmd 0x19 [(192, 4), (320, 9), (335, 1)] 0 [] with prog := { Progress.zero with checked := true, contributed := true } }
def hwState (d : ChainDesc) : State := withChain d (holding hwCmd live)
theorem test_consumer_met : consumers .hingeWait = some 0x19 ∧ pkChainId hwCmd.packet = 9 ∧ hwCmd.prog.finalised = false
    ∧ hwCmd.prog.checked = true ∧ hwCmd.prog.contributed = true := by decide +kernel
theorem test_consumer_issues : ∀ d ∈ [chain 0 [] [{ sentEpoch with phase := .closed, reason := .retracted, consumer := some 3 }],
    chain 0 [] [{ sentEpoch with consumer := some 3 }], { chain 0 [] [] with owner := 6 }],
    Issues (hwState d) hwCmd 0x19 ∧ ¬ noFinalHere .hingeWait d := by
  intro d hd
  fin_cases hd <;> exact ⟨issues (by decide +kernel), fun h => absurd h.2.2.1 (by decide +kernel)⟩
theorem test_consumer_over : let x := epochAt (chain 0 [] [{ sentEpoch with phase := .closed, consumer := some 3 }]) 0
    x.isOver = true ∧ x.consumer = some 3 := by decide +kernel
theorem test_consumer_waits : let d := chain 0 [] [{ sentEpoch with consumer := some 3 }]
    (epochAt d 0).consumer = some 3 ∧ (epochAt d 0).isOver = false ∧ cdIsKeystone d.image = false
      ∧ finalComplete d (epochAt d 0) = false := by decide +kernel
/-- Ring 4 waits for the epoch already. -/
theorem test_consumer_second : let d := chain 0 [] [{ sentEpoch with consumer := some 4 }]
    (epochAt d 0).consumer = some 4 ∧ (cmdOf { hwState d with rings := { (hwState d).rings with
      cmds := [hwCmd, { hwCmd with ring := 4 }] } } 4).isSome = true := by decide +kernel
theorem test_consumer_foreign : (chain 0 [] []).valid = true ∧ ({ chain 0 [] [] with owner := 6 } : ChainDesc).owner ≠ hwCmd.vi
    ∧ ChainDesc.invalid.valid = false := by decide +kernel
def hwDone : RunCmd := { hwCmd with prog := { hwCmd.prog with finalised := true } }
theorem test_committed_met : Issues (withChain (chain 0 [] []) (holding hwDone live)) hwDone 0x19
    ∧ ¬ noFinalHere .hingeWait (chain 0 [] []) ∧ hwDone.prog.finalised = true :=
  ⟨issues (by decide +kernel), fun h => absurd h.2.2.1 (by decide +kernel), by decide +kernel⟩
/-- At the keystone of a chain of KIND 3 SAMPLE takes the FINAL (R385). -/
theorem test_keystone_wait_met : let d := chain 1 [(35, 3)] [{ sentEpoch with phase := .closed }]
    Issues (withChain d (holding hwCmd live)) hwCmd 0x19 ∧ noFinalHere .hingeWait d ∧ (epochAt d d.epoch).phase = .closed :=
  ⟨issues (by decide +kernel), ⟨rfl, by decide +kernel, by decide +kernel, by decide +kernel⟩, by decide +kernel⟩
def sampleDone : RunCmd := { cmd 0x07 [(223, 1), (320, 9), (335, 1), (352, 0x3F800000)] 0 [] with
  prog := { Progress.zero with checked := true, finalised := true } }
theorem test_sample_committed_met : Issues (withChain (chain 1 [(35, 3)] []) (holding sampleDone live)) sampleDone 0x07
    ∧ pkChv sampleDone.packet = true ∧ sampleDone.prog.finalised = true := ⟨issues (by decide +kernel), by decide +kernel, by decide +kernel⟩

def sendCmd : RunCmd := cmd 0x18 [(192, 4), (320, 9), (335, 1)] 0 []
def sendState : State := withChain (chain 0 [] []) (withSlots [(4, openSlot)] (holding sendCmd live))
theorem test_send_met : Issues sendState sendCmd 0x18 ∧ pkF0 sendCmd.packet = false ∧ Passes sendState sendCmd ∧ Fresh sendCmd :=
  ⟨issues (by decide +kernel), by decide +kernel, passes (by decide +kernel), by decide +kernel, by decide +kernel, by decide +kernel⟩
/-- One row for a fresh epoch; none for one that has it. -/
theorem test_send_rows : ∀ x ∈ [([], 1), ([sentEpoch], 0)], ∃ s d, d = chain 0 [] x.1 ∧ s = withChain d sendState
    ∧ Issues s sendCmd 0x18 ∧ Passes s sendCmd ∧ d.valid = true ∧ (epochAt d 0).isOver = false
    ∧ ((chainRowsOf s sendCmd (rangeHandles sendCmd)).filter (fun r => (spFind (epochAt d 0).own r.1).isNone)).length = x.2 := by
  intro x hx
  fin_cases hx <;> exact ⟨_, _, rfl, rfl, issues (by decide +kernel), passes (by decide +kernel), by decide +kernel, by decide +kernel,
    by decide +kernel⟩
def loadCmd : RunCmd := cmd 0x18 [(20, 1), (128, 0x8000), (296, 1), (320, 9), (335, 1)] 0 [(0, w256 [(0, 0x6000), (192, 1)])]
def loadState : State := writeBytes (holding loadCmd live) .device 0x6000 (natBytes 64 (lineImage 0 []).toNat)
theorem test_load_met : Issues loadState loadCmd 0x18 ∧ pkF0 loadCmd.packet = true ∧ Passes loadState loadCmd ∧ Fresh loadCmd
    ∧ chainLoads loadState loadCmd :=
  ⟨issues (by decide +kernel), by decide +kernel, passes (by decide +kernel), ⟨by decide +kernel, by decide +kernel, by decide +kernel⟩,
    .inl (by decide +kernel)⟩
theorem test_load_image : let x := BitVec.ofNat 512 (readNat loadState .device 0x6000 64)
    x = lineImage 0 [] ∧ checkImage x = none ∧ rangePoison loadState .device 0x6000 64 = false
      ∧ rangePoison loadState .device (cdTable x) (4 * cdMembers x) = false
      ∧ checkEntries ((List.range (cdMembers x)).map (fun m => (m, BitVec.ofNat 32 (readNat loadState .device (cdTable x + 4 * m) 4)))) = none := by
  decide +kernel
/-- LEVELS 0 is reserved (R322): byte 3 of the image. -/
theorem test_bad_image : checkImage 0 = some (detImage 3)
    ∧ BitVec.ofNat 512 (readNat (holding loadCmd live) .device 0x6000 64) = 0 := by decide +kernel

/-! ## Selection -/

/-- 1.0 in W38 (R73): exponent 511, fraction 0. -/
def one38 : BitVec 38 := BitVec.ofNat 38 (511 * 2 ^ 27)
theorem test_candidates_met : (∀ x ∈ [(⟨one38, 2⟩ : Cand), ⟨one38, 1⟩, ⟨one38, 3⟩], admits (ofW38 x.value) = true)
    ∧ candOrdered [⟨one38, 1⟩, ⟨one38, 3⟩] = true := by decide +kernel
/-- R365: of equal values the lower index precedes. -/
theorem test_candidates_tie : candAdmit 2 [⟨one38, 1⟩, ⟨one38, 3⟩] ⟨one38, 2⟩ = [⟨one38, 1⟩, ⟨one38, 2⟩] := by decide +kernel
def sampleCmd : RunCmd := cmd 0x07 [(128, 0x8000), (223, 1), (296, 16), (352, 0x3F800000)] 0 [(4, region 0x3000)]
def sampleState : State := holding sampleCmd live
theorem test_sample_met : Issues sampleState sampleCmd 0x07 ∧ Passes sampleState sampleCmd ∧ Fresh sampleCmd
    ∧ pkChv sampleCmd.packet = false ∧ (pkDmask sampleCmd.packet).testBit 4 = true :=
  ⟨issues (by decide +kernel), passes (by decide +kernel), ⟨by decide +kernel, by decide +kernel, by decide +kernel⟩, by decide +kernel,
    by decide +kernel⟩
/-- Registers that nothing has written hold 1,024 candidates of value +0 and index 0. -/
theorem test_sample_list : isList ((regEntries (regsOf sampleState 3) 0 1024).map (fun e => e.1)) = true := by decide +kernel

def scatterCmd : RunCmd := cmd 0x0A [(128, 0x8000), (192, 4), (296, 1), (448, 2), (480, 1)] 0 [(0, region 0x1000)]
/-- A bucket with room for one of the two records. -/
def scatterState : State := withSlots [(4, { openSlot with sw := BitVec.ofNat 128 (0x3000 + 2 ^ 64) })] (holding scatterCmd live)
theorem test_scatter_met : Issues scatterState scatterCmd 0x0A ∧ Passes scatterState scatterCmd ∧ Fresh scatterCmd
    ∧ pkOpb scatterCmd.packet * pkOpc scatterCmd.packet ≤ 65536
    ∧ (scattered scatterState (addLinks scatterState (passed scatterCmd))).2.fault = false :=
  ⟨issues (by decide +kernel), passes (by decide +kernel), ⟨by decide +kernel, by decide +kernel, by decide +kernel⟩, by decide +kernel,
    by decide +kernel⟩
/-- R403, R404: the first record is placed, the second dropped, for there is no overflow region. -/
theorem test_scatter_ends : let p := (scattered scatterState scatterCmd).2.rc.prog
    p.placed = 1 ∧ p.overflowed = 0 ∧ p.dropped = 1 := by decide +kernel

/-! ## The drain and the shift port -/

def shiftReq : ShiftReq := ⟨0, 1, 1, false⟩
def withRequests (n : Nat) (s : State) : State := { s with shift := ⟨List.replicate n shiftReq, false⟩ }
def heldCmd : RunCmd :=
  { softCmd with prog := { Progress.zero with checked := true, heldBeats := [⟨true, VecWrites.empty⟩, ⟨false, VecWrites.empty⟩] } }
def heldState (phase : CmdPhase) (n : Nat) : State := withRequests n (holding { heldCmd with phase := phase } live)
theorem test_refused_met : State.reset.ctl.refuse = true ∧ live.shift.requests = [] ∧ live.shift.beatHeld = false
    ∧ holderCmd live = none ∧ shiftCmd (withRequests 1 live) = none := by decide +kernel
/-- The request is the running command's, or a suspended one's. -/
theorem test_ack_mine : ∀ p ∈ [CmdPhase.running, .suspended], shiftCmd (heldState p 1) = some { heldCmd with phase := p }
    ∧ (heldState p 1).shift.requests = [shiftReq] ∧ (heldState p 1).shift.requests.length ≤ raisingHeld { heldCmd with phase := p } := by
  decide +kernel
theorem test_ack_earlier : shiftCmd (heldState .running 2) = some heldCmd
    ∧ raisingHeld heldCmd < (heldState .running 2).shift.requests.length := by decide +kernel
/-- The oldest request alone is answered. -/
theorem test_ack_oldest : ackOldest [⟨false, VecWrites.empty⟩, ⟨true, VecWrites.empty⟩, ⟨true, VecWrites.empty⟩]
    = [⟨false, VecWrites.empty⟩, ⟨false, VecWrites.empty⟩, ⟨true, VecWrites.empty⟩] := by decide +kernel

/-! ## Hinge packets -/

/-- A packet of a type for chain 9 and epoch 0, from unit 2 in its incarnation 1 (R331). -/
def packet (type : Nat) (fs : List (Nat × Nat)) (payload : List Byte) : HingePacket := ⟨w512 ([(0, type), (16, 9), (80, 1), (96, 2)] ++ fs), payload⟩
/-- FSTAT of row 0 of member 0, settled. -/
def partialPacket (fs : List (Nat × Nat)) : HingePacket :=
  packet 0 ([(3, 1), (72, 1), (144, 32)] ++ fs) (List.replicate 32 0)
theorem test_packet_rows : packetRow (.hingePartial (packet 0 [] [])) = some (0, packet 0 [] [])
    ∧ packetRow (.hingeFinal (packet 1 [] [])) = some (1, packet 1 [] []) := ⟨rfl, rfl⟩
theorem test_not_active_met : State.reset.ctl.state ≠ .active ∧ live.ctl.state = .active := by decide +kernel
theorem test_reserved_type_met : 5 ≤ hdType (packet 5 [] []).header ∧ hdType (packet 0 [] []).header = 0 := by decide +kernel
theorem test_no_chain_met : (chainAt live (hdChain (packet 0 [] []).header)).valid = false
    ∧ headReserved (packet 0 [] []).header = false ∧ isSecondary live = false
    ∧ live.hinge.waiting.any (fun q => decide (packetChannel q = 2)) = false ∧ spGet 0 live.hinge.credits 2 ≠ 0 := by decide +kernel
/-- R339: epoch 2^32 - 1 lies before epoch 0, epoch 1 after it. -/
theorem test_stale_met : let d := chain 1 [] []
    d.valid = true ∧ sameIncarnation d (packet 0 [(32, 0xFFFFFFFF)] []) ∧ epochStale d 0xFFFFFFFF = true ∧ epochStale d 1 = false :=
  ⟨by decide +kernel, by unfold sameIncarnation; decide +kernel, by decide +kernel, by decide +kernel⟩
theorem test_incarnations_met : let d := chain 1 [] []
    incOf d 3 = none ∧ incOf d 2 = some 1 ∧ incOlder 0 1 = true ∧ incOlder 2 1 = false ∧ incOlder 0x8001 1 = false
      ∧ incOlder 0x8002 1 = true := by decide +kernel
/-- A packet of an older incarnation, of a newer one, and of a sender without a record, for an epoch that is past. -/
theorem test_incarnation_packets : let d := chain 1 [] []
    let p := fun (src inc : Nat) => (packet 0 [(32, 0xFFFFFFFF), (80, inc), (96, src)] []).header
    d.valid = true ∧ epochStale d (hdEpoch (p 0 1)) = true
      ∧ incOf d (hdSrc (p 0 0x8001)) = some 1 ∧ incOlder (hdInc (p 0 0x8001)) 1 = true ∧ hdInc (p 0 0x8001) ≠ 1
      ∧ incOf d (hdSrc (p 0 1)) = some 1 ∧ incOlder (hdInc (p 0 1)) 1 = false ∧ hdInc (p 0 1) ≠ 1
      ∧ incOf d (hdSrc (p 1 0)) = none := by decide +kernel
def packetState (d : ChainDesc) : State := withChain d live
/-- Member 1 is the keystone of two, member 1 of three takes inputs and sends on. -/
def middle (es : List Epoch) : ChainDesc :=
  { chain 1 [] es with image := w512 [(0, 2), (8, 1), (16, 2), (28, 1), (64, 0x5000), (128, 4), (144, 1)], hops := [(2, 3)] }
theorem test_partial_met : let d := middle []
    hdType (partialPacket []).header = 0 ∧ d.valid = true ∧ sameIncarnation d (partialPacket []) ∧ epochStale d 0 = false
      ∧ partialBad d (partialPacket []) = false ∧ cdIsKeystone d.image = false ∧ live.det.replayActive = false
      ∧ isNotice (partialPacket []).header = false
      ∧ (packetInputs (epochAt d 0) (partialPacket [])).length = 1 :=
  ⟨by decide +kernel, by decide +kernel, by unfold sameIncarnation; decide +kernel, by decide +kernel, by decide +kernel, by decide +kernel,
    by decide +kernel, by decide +kernel, by decide +kernel⟩
/-- The next epoch is taken as well, the one after it is not (R339). -/
theorem test_partial_next : let d := middle []
    epochStale d 1 = false ∧ (1 : W32) = d.epoch + 1 ∧ (2 : W32) ≠ d.epoch + 1 := by decide +kernel
theorem test_notice_met : let p := packet 0 [(3, 1), (4, 15)] []
    partialBad (middle []) p = false ∧ isNotice p.header = true ∧ sameIncarnation (middle []) p :=
  ⟨by decide +kernel, by decide +kernel, by unfold sameIncarnation; decide +kernel⟩
/-- Row 1 of a chain of one row (R334). -/
theorem test_bad_partial_met : partialBad (middle []) (partialPacket [(128, 1)]) = true
    ∧ (epochAt (middle []) 0).finalSent = false ∧ sameIncarnation (middle []) (partialPacket [(128, 1)]) :=
  ⟨by decide +kernel, by decide +kernel, by unfold sameIncarnation; decide +kernel⟩

def finalPacket (fs : List (Nat × Nat)) : HingePacket := packet 1 ([(3, 1), (64, 1), (72, 1), (144, 32)] ++ fs) (List.replicate 32 0)
theorem test_final_met : let d := chain 0 [] [sentEpoch]
    hdType (finalPacket []).header = 1 ∧ d.valid = true ∧ sameIncarnation d (finalPacket []) ∧ epochStale d 0 = false
      ∧ finalBad d (finalPacket []) = false ∧ finalBad d (finalPacket [(128, 1)]) = true
      ∧ sameIncarnation d (finalPacket [(128, 1)]) :=
  ⟨by decide +kernel, by decide +kernel, by unfold sameIncarnation; decide +kernel, by decide +kernel, by decide +kernel, by decide +kernel,
    by unfold sameIncarnation; decide +kernel⟩
def heldEpoch : Epoch := { sentEpoch with final := [(0, .stat RowStat.zero)], finalSettled := true, consumer := some 3 }
def commitCmd : RunCmd := { hwCmd with phase := .blocked false, wait := .final 9 }
def commitState : State :=
  withChain (chain 0 [] [heldEpoch]) { live with
    rings := { live.rings with
      cache := [⟨3, { ctx with state := .blocked }, true⟩], cmds := [commitCmd] } }
theorem test_commit_met : let d := chainAt commitState 9
    d = chain 0 [] [heldEpoch] ∧ (epochAt d 0).consumer = some 3 ∧ cmdOf commitState 3 = some commitCmd ∧ commitCmd.phase = .blocked false
      ∧ commitCmd.wait = .final 9 ∧ commitCmd.prog.finalised = false ∧ (epochAt d 0).isOver = false ∧ cdIsKeystone d.image = false
      ∧ finalComplete d (epochAt d 0) = true := by decide +kernel
theorem test_no_consumer_met : (epochAt (chain 0 [] [sentEpoch]) 0).consumer = none := by decide +kernel

def sentOne : Epoch := { sentEpoch with sent := [⟨0, 1, partialPacket [], false⟩] }
theorem test_retract_met : let d := chain 0 [] [sentOne]
    plainBad (packet 2 [(4, 15)] []).header = false ∧ hdType (packet 2 [(4, 15)] []).header = 2 ∧ sameIncarnation d (packet 2 [(4, 15)] [])
      ∧ epochStale d 0 = false ∧ (epochAt d 0).finalSent = false ∧ epochStale (chain 0 [] [{ sentOne with phase := .done }]) 0 = true :=
  ⟨by decide +kernel, by decide +kernel, by unfold sameIncarnation; decide +kernel, by decide +kernel, by decide +kernel, by decide +kernel⟩
theorem test_nack_met : ∀ r ∈ [0, 3], let p := packet 3 [(4, 15), (10, r)] []
    plainBad p.header = false ∧ hdType p.header = 3 ∧ hdReason p.header ≤ 3 ∧ sameIncarnation (chain 0 [] [sentOne]) p := by
  intro r hr
  fin_cases hr <;> exact ⟨by decide +kernel, by decide +kernel, by decide +kernel, by unfold sameIncarnation; decide +kernel⟩
theorem test_nack_chain : (epochAt (chain 0 [] [sentOne]) 0).sent ≠ [] ∧ cdIsKeystone (chain 0 [] [sentOne]).image = false
    ∧ cdRetry (chain 0 [] [sentOne]).image = false ∧ cdRetry (chain 0 [(34, 1)] [sentOne]).image = true
    ∧ (epochAt (chain 0 [] [sentEpoch]) 0).sent = [] ∧ cdIsKeystone (chain 1 [] []).image = true := by decide +kernel
theorem test_ahead_met : let p := packet 3 [(4, 15), (10, 4)] []
    plainBad p.header = false ∧ hdReason p.header = 4 ∧ sameIncarnation (chain 0 [] [sentOne]) p
      ∧ nextAhead (packetState (chain 0 [] [sentOne])) 9 (epochAt (chain 0 [] [sentOne]) 0) = some (partialPacket []) :=
  ⟨by decide +kernel, by decide +kernel, by unfold sameIncarnation; decide +kernel, by decide +kernel⟩
theorem test_probe_met : let p := packet 4 [(4, 15)] []
    plainBad p.header = false ∧ hdType p.header = 4 ∧ hdReply p.header = false ∧ sameIncarnation (chain 1 [] []) p
      ∧ entryTwin (packetState (chain 1 [] [])) (tableEntry (packetState (chain 1 [] [])) (chain 1 [] []) (hdMember p.header)) = false
      ∧ spGet 0 (packetState (chain 1 [] [])).hinge.credits 3 ≠ 0 :=
  ⟨by decide +kernel, by decide +kernel, by decide +kernel, by unfold sameIncarnation; decide +kernel, by decide +kernel, by decide +kernel⟩
theorem test_reply_met : let p := packet 4 [(4, 15), (14, 1), (64, 1)] []
    plainBad p.header = false ∧ hdReply p.header = true ∧ epochLater (hdEpoch p.header) 0 = false :=
  ⟨by decide +kernel, by decide +kernel, by decide +kernel⟩
def refusedChain : ChainDesc := chain 0 [(34, 1)] [refuseSent sentOne]
theorem test_timers_met : (chain 0 [] [sentEpoch]).valid = true ∧ (epochAt (chain 0 [] [sentEpoch]) 0).timer = true
    ∧ (epochAt (chain 0 [] [sentEpoch]) 0).isOver = false ∧ (epochAt (chain 0 [] [sentEpoch]) 0).finalSent = false
    ∧ refusedMember refusedChain = some (0, 1) ∧ refusedMember (chain 0 [] [sentOne]) = none
    ∧ (epochAt (chain 0 [] []) 0).timer = false := by decide +kernel
theorem test_credit_met : live.hinge.waiting = [] ∧ bit (1 : BitVec 4) (packetChannel (partialPacket [])) = true
    ∧ packetFlits (partialPacket []) = spGet 0 ({ live.hinge with credits := [(0, 1)], waiting := [partialPacket []] } : HingePort).credits
        (packetChannel (partialPacket [])) + 1 := by decide +kernel

/-! ## Tables, records -/

def tableCmd (op opc : Nat) : RunCmd := cmd op [(480, opc)] 0 []
/-- VI 5 owns the tables (R641). -/
def tableState (op opc : Nat) : State :=
  let s := holding (tableCmd op opc) live
  { s with cfg := { s.cfg with ownerValid := true, ownerVi := 5 } }
theorem test_table_load_met : Issues (tableState 0x20 1) (tableCmd 0x20 1) 0x20 ∧ Passes (tableState 0x20 1) (tableCmd 0x20 1)
    ∧ (tableState 0x20 1).tabs.job = none ∧ (tableState 0x20 1).tabs.swap = none ∧ (tableState 0x20 1).tabs.queue = [] :=
  ⟨issues (by decide +kernel), passes (by decide +kernel), by decide +kernel, by decide +kernel, by decide +kernel⟩
theorem test_table_swap_met : Issues (tableState 0x21 0) (tableCmd 0x21 0) 0x21 ∧ Passes (tableState 0x21 0) (tableCmd 0x21 0)
    ∧ (tableState 0x21 0).tabs.shadowValid = true ∧ freeSpares (tableState 0x21 0) = [2, 3] :=
  ⟨issues (by decide +kernel), passes (by decide +kernel), by decide +kernel, by decide +kernel⟩
def loadedCmd : RunCmd := { tableCmd 0x20 1 with prog := { Progress.zero with checked := true, finalised := true, ended := some .ok } }
theorem test_table_done_met : Issues (holding loadedCmd live) loadedCmd 0x20 ∧ loadedCmd.prog.checked = true
    ∧ loadedCmd.prog.ended = some .ok := ⟨issues (by decide +kernel), by decide +kernel, by decide +kernel⟩
def jobState : State := { live with tabs := { live.tabs with job := some ⟨3, 1, 0, .tile, 0⟩, queue := [3] } }
theorem test_job_met : jobState.tabs.job = some ⟨3, 1, 0, .tile, 0⟩ ∧ jobState.tabs.queue = [3] ∧ jobState.tabs.swap = none := by decide +kernel
def swapState : State := { live with tabs := { live.tabs with swap := some 3, queue := [3] } }
theorem test_swap_met : swapState.tabs.swap = some 3 ∧ swapState.tabs.queue = [3] ∧ swapState.tabs.job = none
    ∧ swapState.rings.holder = none ∧ bankHeld swapState 0 = false ∧ bankHeld { swapState with rings := { swapState.rings with
      cmds := [softCmd] } } 0 = true ∧ freeSpares swapState = [2, 3] := by decide +kernel

def sealCmd (f0 : Nat) : RunCmd := { cmd 0x30 [(20, f0), (128, 0x8000), (296, 16), (352, 3)] 0 [(4, w256 [(0, 0x7000), (192, 1)])] with key := some 1 }
def sealState (f0 : Nat) : State := withVi 5 (fun c => { c with ringCount := 8, digestBase := 0x400 }) (holding (sealCmd f0) live)
theorem test_seal_met : ∀ f ∈ [0, 1], Issues (sealState f) (sealCmd f) 0x30 ∧ Passes (sealState f) (sealCmd f) ∧ Fresh (sealCmd f) := by
  intro f hf
  fin_cases hf <;> exact ⟨issues (by decide +kernel), passes (by decide +kernel), by decide +kernel, by decide +kernel, by decide +kernel⟩
def snapCmd : RunCmd := cmd 0x31 [(128, 0x8000), (296, 16), (352, 0xFFFFF)] 0 [(4, w256 [(0, 0x7000), (192, 1)])]
theorem test_snap_met : Issues (holding snapCmd live) snapCmd 0x31 ∧ Passes (holding snapCmd live) snapCmd ∧ Fresh snapCmd :=
  ⟨issues (by decide +kernel), passes (by decide +kernel), by decide +kernel, by decide +kernel, by decide +kernel⟩
def peekCmd : RunCmd := cmd 0x38 [(128, 0x8000), (296, 16)] 0 [(4, w256 [(0, 0x7000), (192, 1)])]
def peekState : State :=
  let s := withVi 5 (fun c => { c with debugEnable := true }) (holding peekCmd live)
  { s with ctl := { s.ctl with chipDebug := true } }
theorem test_peek_met : Issues peekState peekCmd 0x38 ∧ Passes peekState peekCmd ∧ Fresh peekCmd ∧ mayPeek peekState peekCmd = true
    ∧ mayPeek (holding peekCmd live) peekCmd = false :=
  ⟨issues (by decide +kernel), passes (by decide +kernel), ⟨by decide +kernel, by decide +kernel, by decide +kernel⟩, by decide +kernel,
    by decide +kernel⟩

/-! ## Registers -/

/-- The page of VI 5, accessed by VI 5. -/
def page5 : RegPort := .page false 5 5 0xFF
theorem test_pages_met : pageAnswers live = true ∧ pageAnswers { live with ctl := { live.ctl with state := .off } } = false
    ∧ live.twin.covering = false ∧ (5 : ViId) ≠ 4 ∧ (0x7F : BitVec 8) ≠ 0xFF
    ∧ pageRow (.viTolerance page5 0) = some page5 ∧ pageRow (.viTolerance (.foreign 4) 0) = some (.foreign 4) :=
  ⟨by decide +kernel, by decide +kernel, by decide +kernel, by decide +kernel, by decide +kernel, rfl, rfl⟩
theorem test_page_bound : withinPage (.registerWrite page5 0x0FFF 0) ∧ ¬ withinPage (.registerWrite page5 0x1000 0) := by
  unfold withinPage; decide +kernel
theorem test_reached_met : Reached page5 live 5 ∧ Reached .window live 0 ∧ viHasRings live 5 = false := by
  unfold Reached; decide +kernel
/-- Ring 3 of VI 5 is not DISABLED. -/
def ownedState : State := withVi 5 (fun c => { c with ringCount := 8 }) nopState
theorem test_has_rings_met : Reached page5 ownedState 5 ∧ viHasRings ownedState 5 = true := by unfold Reached; decide +kernel
/-- R465: the last ring is 2^18 - 1; VI 5 has rings 0 to 7. -/
theorem test_rings_fit : ringsFit ownedState 0 8 0x3FFF8 = true ∧ ringsFit ownedState 0 8 0x3FFF9 = false
    ∧ ringsFit ownedState 0 7 1 = false := by decide +kernel
theorem test_select_set_met : CounterPort .mgmt live 15 ∧ eventKnown (field (0x101 : W32) 7 0) = true
    ∧ eventKnown (field (0xFF : W32) 7 0) = false ∧ (selectOf 0x101).allVi ≠ (evSelectOf live 15).allVi
    ∧ (selectOf 0x4000101).allVi = (evSelectOf live 15).allVi ∧ (selectOf 0x4000101).vi = (evSelectOf live 15).vi :=
  ⟨⟨by decide +kernel, .inl rfl⟩, by decide +kernel, by decide +kernel, by decide +kernel, by decide +kernel, by decide +kernel⟩
/-- Counter 0 counts for VI 5 alone, so that its page shows it (R661). -/
def shownState : State := { live with cfg := { live.cfg with select := [(0, ⟨false, 5, true, 1⟩)] } }
theorem test_shown_met : Reached page5 shownState 5 ∧ shownTo shownState 5 0 = true ∧ shownTo shownState 5 1 = false ∧ page5 ≠ .window
    ∧ mgmtAnswers live = true := by unfold Reached; decide +kernel
/-- R662: ALLVI 1 to 0 zeroes the count. -/
theorem test_select_zeroes : unitCounter (after (exec (.evSelect .mgmt 0 0x101)
    { live with ev := { live.ev with count := [(0, 7)] } })) 0 = 0 := by decide +kernel
/-- R669. -/
theorem test_count_set : unitCounter (after (exec (.evCount .mgmt 15 0xFFFFFFFFFFFFFFFF) live)) 15 = 2 ^ 48 - 1 := by decide +kernel
theorem test_registers_met : viModeGood 0x10 = true ∧ viModeGood 0x14 = false ∧ viModeGood 0x1000 = true ∧ viModeGood 0x1800 = false
    ∧ (reachPage (.foreign 4) live).1 = none ∧ (0x0FFF : BitVec 16).toNat < 0x1000 ∧ (0x0FFF : BitVec 16).toNat % 4 ≠ 0 := by decide +kernel
/-- R637, R655: RND 5 is reserved, so the write has no effect. -/
theorem test_reserved_ignored : cfgVi (after (exec (.registerWrite page5 0x010 0x14) live)) 5 = ViCfg.reset := by decide +kernel

/-! ## Rings -/

/-- Ring 3 of VI 5 in a state, with nothing of it under way. -/
def ringState (st : RingState) (c : RingCtx) : State :=
  withVi 5 (fun c => { c with ringCount := 8 }) { live with
    rings := { live.rings with
      cache := [⟨3, { c with state := st }, false⟩] } }
theorem atOnce {s : State} (h : Reached page5 s 5 ∧ s.ctl.state = .active ∧ isSecondary s = false ∧ ringByIndex s false 5 3 = some 3
    ∧ (cacheEntry s 3).isSome = true ∧ s.rings.actions.any (fun k => decide (k.vi = 5)) = false) : AtOnce page5 s 5 3 3 :=
  { page := ⟨false, 5, 0xFF, rfl⟩, reached := h.1, active := h.2.1, first := h.2.2.1, names := h.2.2.2.1, cached := h.2.2.2.2.1
    noneWaits := h.2.2.2.2.2 }
theorem test_ring_states_met : ∀ st ∈ [RingState.disabled, .idle, .ready, .running, .blocked, .suspended, .halted, .paused],
    AtOnce page5 (ringState st ctx) 5 3 3 ∧ underLost (ringState st ctx) 3 = false
      ∧ ringStopped (ringState st ctx) 3 = false ∧ choiceStands (ringState st ctx) 3 = false ∧ ringDeferred (ringState st ctx) 3 = none
      ∧ (ringState st ctx).det.replayActive = false ∧ (ctxOfRing (ringState st ctx) 3).state = st := by
  intro st h
  fin_cases h <;> exact ⟨atOnce (by unfold Reached; decide +kernel), by decide +kernel, by decide +kernel, by decide +kernel, by decide +kernel,
    by decide +kernel, by decide +kernel⟩
/-- R472: HEAD 1 of a ring of 64: TAIL 65 fills it, TAIL 66 is too far, and TAIL 0 goes back. -/
theorem test_doorbell_bounds : ((65 : W32) - ctx.head).toNat ≤ ctxSize ctx ∧ ctxSize ctx < ((66 : W32) - ctx.head).toNat
    ∧ 2 ^ 31 ≤ ((0 : W32) - ctx.tail).toNat ∧ ((65 : W32) - ctx.tail).toNat < 2 ^ 31 := by decide +kernel
theorem test_doorbell_ready : ctxOfRing (after (exec (.viDoorbell page5 (65 * 2 ^ 32 + 3)) (ringState .idle ctx))) 3
    = { ctx with tail := 65, state := .ready } := by decide +kernel
theorem test_no_ring_met : ringByIndex (ringState .idle ctx) false 5 8 = none ∧ ringByIndex (ringState .idle ctx) false 5 7 = some 7
    ∧ cacheEntry (ringState .idle ctx) 7 = none := by decide +kernel
/-- LOG2SZ 4 of a ring is the least (R462); RINGS_LOST refuses a ring not created since (R561). -/
theorem test_create_met : imageGood (w512 [(224, 4)]) = true ∧ imageGood (w512 [(224, 3)]) = false
    ∧ underLost { ringState .halted ctx with ctl := { live.ctl with ringsLost := true } } 3 = true
    ∧ ringDeferred { ringState .running ctx with rings := { (ringState .running ctx).rings with deferred := [(3, .pause)] } } 3
      = some .pause := by decide +kernel

/-- CREATE of a DISABLED ring whose VI has set an image. -/
theorem test_create_image_met : ∃ s : State, AtOnce page5 s 5 3 3 ∧ (ctxOfRing s 3).state = .disabled
    ∧ imageGood (cfgVi s 5).ringCfg = true :=
  ⟨withVi 5 (fun c => { c with ringCfg := w512 [(224, 4)] }) (ringState .disabled ctx), atOnce (by unfold Reached; decide +kernel),
    by decide +kernel, by decide +kernel⟩
/-- A READY ring whose next tumbler word stands in the shadow (R163), and one that RINGS_LOST bars. -/
theorem test_choice_met : (∃ s : State, AtOnce page5 s 5 3 3 ∧ (ctxOfRing s 3).state = .ready ∧ choiceStands s 3 = true)
    ∧ ∃ s : State, AtOnce page5 s 5 3 3 ∧ (ctxOfRing s 3).state = .paused ∧ underLost s 3 = true :=
  ⟨⟨{ ringState .ready ctx with rings := { (ringState .ready ctx).rings with chosen := some ⟨3, none, some ⟨0, false, false⟩⟩ } },
      atOnce (by unfold Reached; decide +kernel), by decide +kernel, by decide +kernel⟩,
    ⟨{ ringState .paused ctx with ctl := { live.ctl with ringsLost := true } }, atOnce (by unfold Reached; decide +kernel),
      by decide +kernel, by decide +kernel⟩⟩

/-! ## Fence, reset, stop -/

def fenced : State := { live with ctl := { live.ctl with state := .fenced, fence := true, refuse := true, flushed := true } }
def stopping (r : StopReason) : State := { live with ctl := { live.ctl with stop := some r, fence := true, refuse := true } }
def flushing (r : StopReason) : State := { stopping r with ctl := { (stopping r).ctl with flushing := true } }
def resetting : State := { live with ctl := { live.ctl with state := .resetting } }
theorem test_fence_set_met : mgmtAnswers live = true ∧ live.ctl.state = .active ∧ live.ctl.fence = false ∧ fenced.ctl.fence = true
    ∧ fenced.ctl.wedged = false ∧ fenced.ctl.state = .fenced ∧ fenced.ctl.flushed = true ∧ fenced.pwr.state = .active
    ∧ (stopping .fence).ctl.state ≠ .fenced := by decide +kernel
/-- Ring 3 stands READY in memory, uncached. -/
def savedState : State := { writeBytes { fenced with cfg := { fenced.cfg with ctxBase := 1 } } .device (2 ^ 24 + 64 * 3)
  (natBytes 64 (ctxBits { ctx with state := .ready, tail := 2 }).toNat) with tclk := 0 }
/-- The same in an ACTIVE unit. -/
def savedActive : State := { savedState with ctl := live.ctl }
theorem test_unfence_work : ringsInMemory savedState false = [3] ∧ (memCtx savedState 3).state.carriesWork = true
    ∧ cacheEntry savedState 3 = none := by decide +kernel
theorem test_reset_met : mayReset live = true ∧ mayReset resetting = false ∧ (3 : Nat) < 4
    ∧ mgmtAnswers { live with ctl := { live.ctl with test := .opened } } = false ∧ resetting.ctl.state = .resetting
    ∧ resetting.pwr.pending ≠ 2 ∧ ({ resetting.pwr with pending := 2 } : Power).pending = 2 := by decide +kernel
theorem test_stop_met : live.ctl.stop = none ∧ (stopping .fence).ctl.flushing = false ∧ stopReady .fence (stopping .fence) = true
    ∧ stopReady .powerDown (stopping .powerDown) = true ∧ (stopping .powerDown).pwr.pending ≠ 1
    ∧ (flushing .fence).ctl.flushing = true ∧ (flushing .fence).ctl.stop ≠ some .powerDown
    ∧ stopReady .fence (holding nopCmd (stopping .fence)) = false := by decide +kernel

/-! ## The twin -/

def inMode (m : TwinMode) (f : Twin → Twin) (s : State) : State := { s with twin := f { s.twin with mode := m } }
theorem test_cover_met : (inMode .cover (fun t => { t with covering := true }) live).twin.covering = true
    ∧ (inMode .cover (fun t => { t with covering := true }) live).twin.releasing = false ∧ live.twin.covering = false
    ∧ ringsInMemory live true = [] := by decide +kernel
/-- The other twin of LOCKSTEP, with a command and without. -/
theorem test_signature_met : ∀ s ∈ [inMode .lockstep id nopState, inMode .lockstep id live], s.twin.mode = .lockstep
    ∧ s.twin.primary = false ∧ (1 : W64) ≠ s.twin.signature ∧ (holderCmd s = some nopCmd ∧ (cacheEntry s 3).isSome = true ∨ holderCmd s = none) := by
  decide +kernel
def lockstep : State := inMode .lockstep (fun t => { t with primary := true }) nopState
theorem test_lockstep_met : lockstep.twin.mode = .lockstep ∧ lockstep.twin.primary = true ∧ holderCmd lockstep = some nopCmd
    ∧ (cacheEntry lockstep 3).isSome = true ∧ lockstep.twin.lost = false ∧ (1 : W64) ≠ lockstep.twin.signature
    ∧ live.ctl.state ≠ .off ∧ ¬ (live.twin.mode = .lockstep ∧ live.twin.primary = true) ∧ nopCmd.failed = none := by decide +kernel

/-! ## Power -/

def powered (f : Power → Power) : State := { live with pwr := f live.pwr }
theorem test_power_requests_met : live.pwr.state = .active ∧ live.pwr.move = .none ∧ resetting.ctl.state = .resetting
    ∧ (powered (fun p => { p with state := .gated })).ctl.state ≠ .resetting ∧ (7 : BitVec 3).toNat = 7 := by decide +kernel
theorem test_power_up_met : let s := powered (fun p => { p with state := .powerUp, railAck := false })
    s.pwr.state = .powerUp ∧ s.pwr.railAck = false ∧ (powered (fun p => { p with state := .railOff })).pwr.state = .railOff
      ∧ (powered (fun p => { p with state := .powerUp, holdupReq := true })).pwr.holdupReq = true
      ∧ (powered (fun p => { p with state := .powerUp, pending := 2 })).pwr.pending = 2 ∧ s.pwr.holdupReq = false ∧ s.pwr.pending ≠ 2
      ∧ live.pwr.state ∉ [PowerState.powerUp, .railOff] ∧ (powered (fun p => { p with state := .powerUp })).pwr.railAck = true := by
  decide +kernel
/-- R580, R605: 88 eighths of a watt allow point 0, 56 (7 W) point 4 and nothing point 7. -/
theorem test_allowed : allowedPoint live = 0 ∧ allowedPoint (powered (fun p => { p with grant := 56 })) = 4
    ∧ allowedPoint (powered (fun p => { p with grant := 0 })) = 7 := by decide +kernel
theorem test_power_window_met : powerSteady live = true ∧ powerSteady (powered (fun p => { p with opReq := some 1 })) = false
    ∧ 125 * (88 : Byte).toNat = 11000 ∧ live.pwr.grant = 88 ∧ live.pwr.risePace = 0 ∧ live.pwr.throttle = false
    ∧ (powered (fun p => { p with roomWindows := 9, slots := 15 })).pwr.roomWindows = 9
    ∧ (topPoint (powered (fun p => { p with point := 1 }))).toNat < 1 ∧ 16 ≤ live.pwr.slots.toNat := by decide +kernel
/-- An acknowledged point at the limit, and one below a limit that has risen meanwhile (R592). -/
theorem test_point_met : ∀ x ∈ [(0, true), (3, false)], ∃ s : State,
    s = { powered (fun p => { p with opReq := some 1 }) with cfg := { live.cfg with ceil := x.1 } }
    ∧ s.pwr.opReq = some 1 ∧ decide ((topPoint s).toNat ≤ (1 : BitVec 3).toNat) = x.2 := by
  intro c hc
  fin_cases hc <;> exact ⟨_, rfl, by decide +kernel, by decide +kernel⟩
/-- R589: one milliwatt over a grant of 11 W at point 0. -/
theorem test_power_step : (after (exec (.powerWindow 11001 0) live)).pwr.opReq = some 1
    ∧ (after (exec (.powerWindow 11000 0) live)).pwr.opReq = none := by decide +kernel
theorem test_grant_met : live.pwr.grantStop = false ∧ (powered (fun p => { p with grantStop := true })).pwr.grantStop = true
    ∧ (1 : Byte) ≠ 0 ∧ live.ctl.state ≠ .off ∧ (powered (fun p => { p with throttle := true })).pwr.throttle = true
    ∧ powerSteady (powered (fun p => { p with throttle := true })) = true := by decide +kernel
theorem test_idle_met : idleNow live ∧ ¬ mayTurnOff live ∧ boundAllows 3000 live = true
    ∧ mayTurnOff { live with cfg := { live.cfg with autoOff := true } } ∧ ¬ idleNow nopState := by
  unfold idleNow mayTurnOff; decide +kernel
/-- R600 at its boundary: a bound of 40 ns allows GATED, of 39 ns nothing. -/
theorem test_tolerance_bound : boundAllows 40 (ringState .idle ctx) = true ∧ boundAllows 3000 (ringState .idle ctx) = false
    ∧ boundAllows 40 (withVi 5 (fun c => { c with tolerance := 39 }) (ringState .idle ctx)) = false := by decide +kernel
theorem test_power_moves_met : let s := powered (fun p => { p with state := .retain, move := .leaving .retain, holdupReq := true, restored := true })
    s.pwr.move = .leaving .retain ∧ s.pwr.holdupReq = true ∧ s.pwr.restored = true ∧ s.pwr.downAfterExit = false ∧ s.pwr.pending ≠ 2
      ∧ (powered (fun p => { p with state := .holdup })).pwr.move = .none ∧ live.rings.holder = none ∧ nopState.rings.holder ≠ none
      ∧ live.ctl.state ≠ .resetting := by decide +kernel

def leavingState (f : Power → Power) : State := powered (fun p => f { p with state := .gated, move := .leaving .gated })
/-- An exit with nothing that waits: with the drain open, and of a unit unfenced meanwhile (R33); one for a power-down. -/
theorem test_exit_met : (let s := leavingState id
      s.pwr.holdupReq = false ∧ s.pwr.downAfterExit = false ∧ s.pwr.pending ≠ 2 ∧ s.ctl.refuse = false)
    ∧ (let s : State := { leavingState id with ctl := { live.ctl with refuse := true } }
      s.pwr.move = .leaving .gated ∧ s.ctl.refuse = true ∧ s.ctl.state = .active ∧ s.ctl.fence = false ∧ s.ctl.stop = none
        ∧ s.pwr.holdupReq = false ∧ s.pwr.downAfterExit = false ∧ s.pwr.pending ≠ 2)
    ∧ (leavingState (fun p => { p with downAfterExit := true })).pwr.downAfterExit = true := by decide +kernel

/-! ## Keys, VI reset, errors -/

theorem test_keys_met : live.mg.keyPartial = none ∧ live.mg.viReset = none ∧ live.ctl.state ≠ .off
    ∧ ({ live.mg with keyPartial := some (5, [1, 2, 3, 4, 5, 6, 7]) } : Mg).keyPartial = some (5, [1, 2, 3, 4, 5, 6, 7])
    ∧ ({ live.mg with keyPartial := some (6, [1]) } : Mg).keyPartial = some (6, [1]) ∧ (6 : ViId) ≠ 5 := by decide +kernel
/-- R644: the eighth word stands at [255:224]. -/
theorem test_key_installed : ((viOf (after (exec (.mgtKeyWord 5 8) { live with
    mg := { live.mg with keyPartial := some (5, [1, 2, 3, 4, 5, 6, 7]) } })) 5).key.map (fun k => (field k 31 0, field k 255 224)))
    = some (1, 8) := by decide +kernel
theorem test_vi_reset_met : mgmtAnswers ownedState = true ∧ isCovered 3 = false ∧ (viRange ownedState false 5).base ≤ 3
    ∧ 3 < (viRange ownedState false 5).base + (viRange ownedState false 5).count ∧ (cacheEntry ownedState 3).isSome = true
    ∧ (ctxOfRing ownedState 3).state ≠ .disabled ∧ (cmdOf ownedState 3).isSome = true
    ∧ cmdOf (ringState .idle ctx) 3 = none
    ∧ (ctxOfRing (ringState .suspended ctx) 3).state = .suspended ∧ (cacheEntry (ringState .suspended ctx) 3).isSome = true := by decide +kernel
/-- A ring that runs, one that stands READY in memory alone, and none. -/
theorem test_watchdog_met : (∀ s ∈ [nopState, savedActive], s.cfg.wdogMs ≠ 0 ∧ s.ctl.state = .active ∧ s.ctl.dbgHalt = false
      ∧ ∃ r ∈ flushRings false s, standingState s r ∈ [RingState.ready, .running, .suspended])
    ∧ live.cfg.wdogMs ≠ 0 ∧ live.ctl.dbgHalt = false
    ∧ ∀ r ∈ flushRings false live, standingState live r ∉ [RingState.ready, .running, .suspended] := by decide +kernel
/-- R537: bytes 0 to 15 of a slot are its words 0 and 1. -/
theorem test_scrub_met : wordExists (.rowStore 32767 1) = true ∧ wordExists (.rowStore 32767 2) = true
    ∧ wordExists (.rowStore 32768 0) = false ∧ wordExists (.tableStore 1 12287) = true := by decide +kernel

/-! ## Determinism, debug, test access -/

/-- A unit in timing-repeatable mode at point 2 is asked for another. -/
theorem test_trm_met : let s : State := { powered (fun p => { p with point := 2 }) with
      det := { live.det with trmActive := true }, cfg := { live.cfg with trmPoint := 2 } }
    s.det.trmActive = true ∧ powerSteady s = true ∧ s.pwr.point = trmTarget s ∧ mgmtAnswers s = true := by decide +kernel
theorem test_det_met : 2 ≤ field (0x21 : W32) 6 4 ∧ ¬ (bit (0x21 : W32) 1 = true ∧ bit (0x21 : W32) 2 = true)
    ∧ field (0x11 : W32) 6 4 < 2 ∧ bit (0x26 : W32) 1 = true ∧ bit (0x26 : W32) 2 = true := by decide +kernel
theorem test_quiescent_met : let s : State := { live with det := { live.det with changePending := true } }
    s.det.changePending = true ∧ quiescent s = true ∧ pageAnswers s = true ∧ traceFull s = false ∧ s.det.heldDoorbells = [] ∧ quiescent nopState = false
      ∧ noTrace s := by unfold noTrace; decide +kernel
/-- The next record of the replay is a doorbell that has not come (R523). -/
def stuckState : State :=
  { writeBytes live .device 0 (natBytes 32 1) with det := { live.det with replayActive := true, wptr := 32 } }
theorem test_replay_met : stuckState.det.replayActive = true ∧ replayStuck stuckState = true ∧ stuckState.det.heldDoorbells = []
    ∧ replayStuck { live with det := { live.det with replayActive := true } } = false := by decide +kernel
def haltedUnit : State := { nopState with ctl := { nopState.ctl with dbgHalt := true } }
def startedCmd : RunCmd := { nopCmd with prog := { Progress.zero with checked := true } }
theorem test_debug_met : haltedUnit.ctl.dbgHalt = true ∧ holderCmd haltedUnit = some nopCmd ∧ live.ctl.dbgHalt = false
    ∧ holderCmd (holding startedCmd live) = some startedCmd ∧ startedCmd.prog.checked = true ∧ live.rings.holder = none := by decide +kernel
theorem test_ctx_base_met : (createdRings nopState).any (fun r => !isCovered r) = true
    ∧ (createdRings live).any (fun r => !isCovered r) = false ∧ live.ctl.test = .closed
    ∧ ({ live.ctl with test := .wiping } : UnitCtl).test = .wiping ∧ ({ live.ctl with test := .opened } : UnitCtl).test = .opened := by
  decide +kernel

/-! ## The command processor -/

def nopPacket : BitVec 512 := w512 [(8, 5), (32, 1)]
/-- Ring 3 is READY at HEAD 1 with a NOP that has been read. -/
def readyState : State :=
  { ringState .ready { ctx with tail := 2 } with
    rings := { (ringState .ready { ctx with tail := 2 }).rings with
      fetched := [⟨3, 1, nopPacket, false, false⟩] } }
theorem test_arbitrate_met : readyState.rings.holder = none ∧ mayArbitrate readyState = true ∧ readyState.pwr.holdupReq = false
    ∧ readyState.ctl.dbgHaltReq = false ∧ readyState.rings.wanted = [] ∧ readyState.rings.chosen = none
    ∧ readyState.det.replayActive = false ∧ readyState.throttled = 0 ∧ (eligibleRings readyState).length = 1 ∧ chooseRing readyState = some 3
    ∧ (cacheEntry readyState 3).isSome = true ∧ (ctxOfRing readyState 3).state = .ready
    ∧ readyState.rings.fetched.find? (fun x => decide (x.ring = 3) && decide (x.index = (ctxOfRing readyState 3).head))
      = some ⟨3, 1, nopPacket, false, false⟩
    ∧ pkTaddr nopPacket = 0 ∧ opcodeKnown (pkOpcode nopPacket) = true ∧ descsPoisoned readyState nopPacket = false := by decide +kernel
theorem test_not_boundary_met : atBoundary nopState = false := by decide +kernel
/-- R478: of two ready rings the one of class 0 is chosen. -/
theorem test_lowest_class : chooseRing { readyState with rings := { readyState.rings with
    cache := [⟨3, { ctx with state := .ready, tail := 2 }, false⟩, ⟨4, { ctx with state := .ready, tail := 2, sched := 0 }, false⟩] } }
    = some 4 := by decide +kernel
/-- Ring 3 runs on an expired turn: alone in its class, and with ring 4 of the class READY (R479). -/
def expiredState (other : RingCtx) : State :=
  { nopState with
    rings := { nopState.rings with
      turn := some ⟨3, 1, 200, true⟩, lastHolder := [(1, 3)],
      cache := [⟨3, ctx, true⟩, ⟨4, { other with state := .ready, tail := 2 }, false⟩] } }
theorem test_turn_quantum_met : ∀ x ∈ [({ ctx with sched := 2 }, some 3), (ctx, some 4)], ∃ s, s = expiredState x.1
    ∧ s.rings.turn = some ⟨3, 1, 200, true⟩ ∧ s.rings.holder = some 3 ∧ ⟨3, ctx, true⟩ ∈ eligibleRings s
    ∧ (eligibleRings s).length = 2 ∧ ctxClass ctx = 1 ∧ spFind s.rings.lastHolder 1 = some 3 ∧ chooseRing s = x.2 := by
  intro x hx
  fin_cases hx <;> exact ⟨_, rfl, by decide +kernel, by decide +kernel, by decide +kernel, by decide +kernel, by decide +kernel,
    by decide +kernel, by decide +kernel⟩
def readsState : State :=
  { live with
    rings := { live.rings with
      reads := [7], fetches := [3], tumblerReads := [(5, 0x4000)], cache := [⟨3, { ctx with state := .ready, tail := 2 }, false⟩] } }
theorem test_reads_met : readsState.rings.reads.contains 7 = true ∧ readsState.rings.reads.contains 8 = false
    ∧ readsState.rings.wanted = [] ∧ readsState.rings.actions = [] ∧ readsState.rings.cache.length < Config.ctxEntries
    ∧ sectorPoison readsState .device (ctxAddr readsState 7) = false ∧ (memCtx readsState 7).state.carriesWork = false
    ∧ readsState.rings.fetches.contains 3 = true ∧ (ctxOfRing readsState 3).state = .ready
    ∧ readsState.rings.tumblerReads.contains (5, 0x4000) = true ∧ sectorPoison readsState .device 0x4000 = false
    ∧ sectorPoison (setSectorPoison readsState .device (ctxAddr readsState 7) true) .device (ctxAddr readsState 7) = true := by decide +kernel

/-! ## The whole machine -/

theorem test_legal_met : cfgLegal State.reset.cfg = true ∧ (∃ t, StepsTo State.reset t) := ⟨by decide +kernel, State.reset, rfl⟩
/-- R637: TRM_POINT 1, a trace ring of 2^15 bytes and a reserved event are not legal. -/
theorem test_not_legal : cfgLegal { Cfg.reset with trmPoint := 1 } = false ∧ cfgLegal { Cfg.reset with traceLog2 := 15 } = false
    ∧ cfgLegal { Cfg.reset with select := [(0, ⟨true, 0, true, 0xFF⟩)] } = false := by decide +kernel

end Sys2Proof.Tests
end

section
/-! SUPPORT. The table loader: what a load that ends and a swap that takes effect leave in the table store and with the command that
asked for them (R208 to R212). -/

namespace Sys2Proof.Machine

/-! ## Started commands -/

theorem ring_of_cmdOf {s : State} {ring : Nat} {c : RunCmd} (h : cmdOf s ring = some c) : c.ring = ring := by
  unfold cmdOf at h
  simpa using List.find?_some h

@[simp] theorem cmdOf_setCmd_same (s : State) (c : RunCmd) : cmdOf (setCmd s c) c.ring = some c := by
  simp [cmdOf]

theorem cmdOf_congr {s t : State} (h : t.rings = s.rings) (ring : Nat) : cmdOf t ring = cmdOf s ring := by
  unfold cmdOf
  rw [h]

@[simp] theorem countReads_tabs (rc : RunCmd) (l : List (Space × Nat)) (s : State) : (countReads rc l s).tabs = s.tabs := by
  simp [countReads]

@[simp] theorem countReads_rings (rc : RunCmd) (l : List (Space × Nat)) (s : State) : (countReads rc l s).rings = s.rings := by
  simp [countReads]

/-! ## The loader -/

@[simp] theorem loaderOutcome_tabs (ring : Nat) (st : Status) (result : W64) (count : Nat) (s : State) :
    (loaderOutcome ring st result count s).tabs = s.tabs := by
  unfold loaderOutcome
  split
  · rfl
  · simp

/-- The command that asked the loader waits no longer, and its outcome waits with it. -/
theorem cmdOf_loaderOutcome {s : State} {ring : Nat} {c : RunCmd} (h : cmdOf s ring = some c) (st : Status) (result : W64)
    (count : Nat) : ∃ c', cmdOf (loaderOutcome ring st result count s) ring = some c' ∧ c'.phase = .blocked true
      ∧ c'.prog.ended = some st ∧ c'.prog.result = result ∧ c'.prog.count = count := by
  have hring : c.ring = ring := ring_of_cmdOf h
  subst hring
  simp only [loaderOutcome, h]
  exact ⟨_, cmdOf_setCmd_same _ _, rfl, rfl, rfl, rfl⟩

/-- With nothing in its queue the loader takes nothing up. -/
theorem serveAll_of_queue_nil {s : State} (h : s.tabs.queue = []) : serveAll s = s := by
  simp [serveAll, serveLoader, h]

/-- What a meaning leaves in the table store and the rings stands in the state that its step answers. -/
theorem command_tabs_rings (f : State → State) (s : State) :
    ∃ t, command f s = .next t ∧ t.tabs = (f s).tabs ∧ t.rings = (f s).rings :=
  ⟨_, rfl, rfl, rfl⟩

/-! ## A load ends -/

/-- Whether a load leaves a valid shadow bank (R208, R209, R537). -/
def loadGood (l : Loaded) : Bool := l.good && !l.poison && bankGood l.bank

/-- How the command of a load ends. -/
def loadStatus (l : Loaded) : Status := if l.poison then .poisonInput else if loadGood l then .ok else .badCommand

/-- The table store after a load: the shadow bank holds what was read, and the loader is done with the ring. -/
def loadedTabs (t : Tables) (j : LoadJob) (l : Loaded) : Tables :=
  { t with banks := spPut t.banks t.shadow l.bank, shadowValid := loadGood l, shadowId := bankId l.bank,
           bad := if l.good then setErase t.bad t.shadow else setInsert t.bad t.shadow, job := none,
           queue := t.queue.filter (fun r => decide (r ≠ j.ring)) }

/-- The state with the reads of a load counted: the copy of the active bank (mode 1) reads no memory. -/
def countLoad (s : State) (j : LoadJob) : State :=
  match cmdOf s j.ring with
  | some c => if j.mode = 1 then s else countReads c (spaceSectors j.space j.source (loadBank s j).bytes) s
  | none => s

@[simp] theorem countLoad_tabs (s : State) (j : LoadJob) : (countLoad s j).tabs = s.tabs := by
  unfold countLoad
  split
  · split <;> simp
  · rfl

@[simp] theorem countLoad_rings (s : State) (j : LoadJob) : (countLoad s j).rings = s.rings := by
  unfold countLoad
  split
  · split <;> simp
  · rfl

/-- The state in which a load has been stored and its reads are counted. -/
def loadStored (s : State) (j : LoadJob) : State :=
  { countLoad s j with tabs := loadedTabs s.tabs j (loadBank s j) }

@[simp] theorem loadStored_tabs (s : State) (j : LoadJob) :
    (loadStored s j).tabs = loadedTabs s.tabs j (loadBank s j) := rfl

@[simp] theorem loadStored_rings (s : State) (j : LoadJob) : (loadStored s j).rings = s.rings := countLoad_rings s j

/-- A load is stored, its command has its outcome, and the loader takes up the next one. -/
theorem tableLoadDone_of_job {s : State} {j : LoadJob} (hj : s.tabs.job = some j) :
    tableLoadDone s = serveAll (loaderOutcome j.ring (loadStatus (loadBank s j))
      (if loadGood (loadBank s j) then bankId (loadBank s j).bank else 0)
      (if loadGood (loadBank s j) then (loadBank s j).bytes else 0) (loadStored s j)) := by
  unfold tableLoadDone loadStored
  rw [hj, ← countLoad_tabs s j]
  rfl

/-- After a load that was alone in the queue the loader rests. -/
theorem tableLoadDone_of_lone_job {s : State} {j : LoadJob} (hj : s.tabs.job = some j) (hq : s.tabs.queue = [j.ring]) :
    tableLoadDone s = loaderOutcome j.ring (loadStatus (loadBank s j))
      (if loadGood (loadBank s j) then bankId (loadBank s j).bank else 0)
      (if loadGood (loadBank s j) then (loadBank s j).bytes else 0) (loadStored s j) := by
  rw [tableLoadDone_of_job hj]
  exact serveAll_of_queue_nil (by simp [loadedTabs, hq])

/-! ## A swap takes effect -/

/-- What a swap leaves in the table store (R211, R212): the shadow bank is active, and the old active bank, or a free spare while
commands hold that one, is the shadow. -/
structure Swapped (s : State) (t : Tables) : Prop where
  active : t.active = s.tabs.shadow
  id     : t.id = s.tabs.shadowId
  swap   : t.swap = none
  queue  : t.queue = []
  banks  : t.banks = s.tabs.banks
  unheld : bankHeld s s.tabs.active = false → t.shadow = s.tabs.active ∧ t.shadowId = s.tabs.id
  held   : ∀ n rest, bankHeld s s.tabs.active = true → freeSpares s = n :: rest → t.shadow = n ∧ t.shadowValid = false

/-- A swap waits for a command boundary (R211). -/
theorem tableSwapApply_of_holder {s : State} (h : s.rings.holder.isSome) : tableSwapApply s = s := by
  unfold tableSwapApply
  split
  · rfl
  · rw [if_pos h]

/-- Between commands the only swap in the queue takes effect, its command has its outcome, and no next one is taken up. -/
theorem tableSwapApply_of_free {s : State} {ring : Nat} (hswap : s.tabs.swap = some ring) (hq : s.tabs.queue = [ring])
    (hfree : s.rings.holder = none) :
    ∃ t, Swapped s t ∧ tableSwapApply s = loaderOutcome ring .ok s.tabs.shadowId 0 { s with tabs := t } := by
  suffices h : ∃ t, Swapped s t ∧ tableSwapApply s = serveAll (loaderOutcome ring .ok s.tabs.shadowId 0 { s with tabs := t }) by
    obtain ⟨t, ht, happly⟩ := h
    exact ⟨t, ht, by rw [happly, serveAll_of_queue_nil (by simp [ht.queue])]⟩
  unfold tableSwapApply
  simp only [hswap, hfree, Option.isSome_none]
  refine ⟨_, ?_, rfl⟩
  split
  · next n rest hheld hspares => exact ⟨rfl, rfl, rfl, by simp [hq], rfl, by simp [hheld], by simp [hspares]⟩
  · next hno => exact ⟨rfl, rfl, rfl, by simp [hq], rfl, fun _ => ⟨rfl, rfl⟩, fun n rest hheld hspares => (hno n rest hheld hspares).elim⟩

end Sys2Proof.Machine

open Sys2Proof Sys2Proof.Machine

/-- Settles O36: what was read stands in the shadow bank and every other bank as before; a swap takes effect between commands alone. -/
theorem tableLoadsAndSwapsEnd : Obligations.TableLoadsAndSwapsEnd := by
  unfold Obligations.TableLoadsAndSwapsEnd
  constructor
  · rintro s j l good hj hq - rfl rfl
    obtain ⟨t, hexec, htabs, hrings⟩ := command_tabs_rings tableLoadDone s
    have hload := tableLoadDone_of_lone_job hj hq
    have htabs : t.tabs = loadedTabs s.tabs j (loadBank s j) := by rw [htabs, hload, loaderOutcome_tabs, loadStored_tabs]
    refine ⟨t, hexec, ?_⟩
    simp only [bankAt, htabs]
    refine ⟨spGet_spPut_same _ _ _ _, rfl, rfl, rfl, rfl, rfl, rfl, by simp [loadedTabs, hq],
      fun b hb => spGet_spPut_other _ _ _ hb, ?_⟩
    intro c hc
    rw [cmdOf_congr (hrings.trans (congrArg State.rings hload))]
    exact cmdOf_loaderOutcome ((cmdOf_congr (loadStored_rings s j) j.ring).trans hc) _ _ _
  · intro s ring hswap hq _
    constructor
    · intro hheld
      show command tableSwapApply s = .next s
      rw [command, tableSwapApply_of_holder hheld]
    · intro hfree
      obtain ⟨t, hexec, htabs, hrings⟩ := command_tabs_rings tableSwapApply s
      obtain ⟨t', hswapped, happly⟩ := tableSwapApply_of_free hswap hq hfree
      have htabs : t.tabs = t' := by rw [htabs, happly, loaderOutcome_tabs]
      subst htabs
      refine ⟨t, hexec, hswapped.active, hswapped.id, hswapped.swap, hswapped.banks, hswapped.unheld, hswapped.held, ?_⟩
      intro c hc
      rw [cmdOf_congr (hrings.trans (congrArg State.rings happly))]
      obtain ⟨c', hc', hphase, hended, hresult, -⟩ :=
        cmdOf_loaderOutcome (s := { s with tabs := t.tabs }) hc .ok s.tabs.shadowId 0
      exact ⟨c', hc', hphase, hended, hresult⟩

end

section
/-! SUPPORT. The row-state commands that set the slots of their range (R269 to R271, R273): what setting rows one after another
comes to, what a completion leaves of a slot that its digest record is linked to (R532), and how such a command ends. -/

namespace Sys2Proof.Machine

open Sys2Proof.Claims

/-! ## Completions -/

/-- The status of a command that has met nothing but flags and poison (R458, R459). -/
theorem finalStatus_ok {rc : RunCmd} (hfailed : rc.failed = none) (htainted : rc.tainted = false) :
    finalStatus rc .ok = metStatus rc.prog.flags rc.prog.poisonIn := by
  simp only [finalStatus, metStatus, hfailed, htainted]
  cases rc.prog.poisonIn with
  | true => simp [statusFirst, statusRank]
  | false => by_cases hflags : rc.prog.flags = 0 <;> simp [hflags, statusFirst, statusRank]

/-- A completion after work that has written no byte changes no byte but its own. -/
theorem completeCmd_onlyCompletion {s u : State} {rc rc' : RunCmd} {base : Status} (d r n : Nat)
    (hcached : (cacheEntry s rc.ring).isSome) (hworks : Works s u) (hbytes : Outside [] s u)
    (hring : rc'.ring = rc.ring) (hpacket : rc'.packet = rc.packet)
    (hcontained : finalStatus rc' base ≠ .errorContained) (hretracted : finalStatus rc' base ≠ .retracted) :
    OnlyCompletion s (completeCmd rc' base d r n u) rc (finalStatus rc' base) := by
  intro hplain hchain hrecord sp a hown
  have hctx : ctxOfRing u rc.ring = ctxOfRing s rc.ring := ctxOfRing_eq hworks.cache hcached
  have hdeferred : ringDeferred u rc.ring = ringDeferred s rc.ring := by unfold ringDeferred; rw [hworks.deferred]
  obtain ⟨hnone, hhalt⟩ := hplain
  rw [completeCmd_readByte rc' base d r n u (by rw [hring, cacheEntry_eq hworks.cache]; exact hcached)
    (by rw [hring, hdeferred, hnone]) (by rw [hring, hctx, hhalt]) hcontained hretracted (hpacket ▸ hchain) (hpacket ▸ hrecord) sp a]
  · exact hbytes sp a (by simp [inRuns])
  · unfold cplHolds notifyHolds at hown ⊢
    rwa [hring, hpacket, hctx]

@[simp] theorem slotAt_modSlot_same (s : State) (h : Nat) (f : Slot → Slot) : slotAt (modSlot s h f) h = f (slotAt s h) :=
  slotAt_putSlot_same s h _

theorem holds_refl (rc : RunCmd) (x : Slot) : Holds rc x x := ⟨rfl, fun _ => rfl⟩

/-- Linking slots to a record changes at most their DLINK (R533). -/
theorem linkSlots_slot_dlink (rc : RunCmd) (x : W128) (s : State) (h : Nat) :
    ∃ d, slotAt (linkSlots rc x s) h = { slotAt s h with dlink := d } := by
  unfold linkSlots
  generalize rc.prog.changed = l
  induction l generalizing s with
  | nil => exact ⟨_, rfl⟩
  | cons k rest ih =>
    rw [List.foldl_cons]
    obtain ⟨d, hd⟩ := ih _
    rw [hd]
    refine ⟨d, ?_⟩
    dsimp only
    split
    · rfl
    · by_cases hk : h = k
      · subst hk
        rw [slotAt_modSlot_same]
      · rw [slotAt_modSlot_other s _ hk]

theorem holds_congr {rc : RunCmd} {x y z : Slot} (e : y = z) (h : Holds rc x y) : Holds rc x z := e ▸ h

/-- A slot after a record has joined its chain: without LINK it stands. -/
theorem linkSlots_holds {rc : RunCmd} (hrecord : pkRecord rc.packet = true) (x : W128) (s : State) (h : Nat) :
    Holds rc (slotAt (if pkLink rc.packet then linkSlots rc x s else s) h) (slotAt s h) := by
  split
  · next hlink =>
    obtain ⟨d, hd⟩ := linkSlots_slot_dlink rc x s h
    rw [hd]
    exact ⟨rfl, fun hno => by simp [hrecord, hlink] at hno⟩
  · exact holds_refl _ _

theorem appendRecord_holds (rc : RunCmd) (x : Cpl) (taint : Bool) (s : State) (h : Nat) :
    Holds rc (slotAt (appendRecord rc x taint s) h) (slotAt s h) := by
  unfold appendRecord
  split
  · exact holds_refl _ _
  · next hrecord =>
    refine holds_congr (slotAt_slots ?_ h) (linkSlots_holds (by simpa using hrecord) _ _ h)
    split <;> simp

/-- Without a contained error a completion leaves a slot into which its command has not reduced, but for the link to its record. -/
theorem completeCmd_holds (rc : RunCmd) (base : Status) (d r n : Nat) (s : State) (h : Nat)
    (hstatus : finalStatus rc base ≠ .errorContained) (hreduced : h ∉ rc.prog.reduced) :
    Holds rc (slotAt (completeCmd rc base d r n s) h) (slotAt s h) := by
  have hrecord : slotAt (completeCmd rc base d r n s) h = slotAt (beforeRecord rc base d r n s) h := by
    rw [completeCmd_eq]
    refine slotAt_slots ?_ h
    rw [ringAfter_slots]
    split
    · rw [writeNotify_slots, writeCpl_slots]
    · rw [writeCpl_slots]
  rw [hrecord, ← writeViews_slot rc.prog.reduced s h hreduced]
  unfold beforeRecord
  generalize writeViews rc.prog.reduced s = v
  dsimp only
  refine holds_congr (slotAt_slots ?_ h) (appendRecord_holds _ _ _ _ _)
  rw [(showTwin_aside _ _).slots, (settleChain_aside _ _ _).slots]
  split
  · contradiction
  · exact foldl_keeps (fun s => s.slots) _ (fun s x => by cases x.2.1 <;> rfl) _ v
  · rfl

/-! ## Setting rows -/

/-- From `a` to `b` a command has set the slots of `n` handles from `base` on as `f` says, and has met poison if `bad`; of the unit
it has changed no other slot and no byte, of itself it has noted nothing else. -/
structure SetsRows (base n : Nat) (f : Nat → Slot) (bad : Bool) (a b : RunCmd × State) : Prop where
  rows    : ∀ r < n, slotAt b.2 (base + r) = f r
  others  : ∀ h, ¬ (base ≤ h ∧ h < base + n) → slotAt b.2 h = slotAt a.2 h
  works   : Works a.2 b.2
  bytes   : Outside [] a.2 b.2
  changed : ∀ h ∈ b.1.prog.changed, h ∈ a.1.prog.changed ∨ base ≤ h ∧ h < base + n
  poison  : b.1.prog.poisonIn = (a.1.prog.poisonIn || bad)
  cmd     : b.1 = { a.1 with prog := { a.1.prog with poisonIn := b.1.prog.poisonIn, changed := b.1.prog.changed } }

@[simp] theorem notePoison_false (rc : RunCmd) : notePoison false rc = rc := by
  simp [notePoison]

theorem SetsRows.refl (base : Nat) (f : Nat → Slot) (a : RunCmd × State) : SetsRows base 0 f false a a where
  rows r hr := absurd hr (Nat.not_lt_zero r)
  others _ _ := rfl
  works := Works.refl _
  bytes := Outside.refl _ _
  changed _ hh := .inl hh
  poison := (Bool.or_false _).symm
  cmd := rfl

/-- Reads are counted. -/
theorem SetsRows.countReads {base n : Nat} {f : Nat → Slot} {bad : Bool} {a b : RunCmd × State} (h : SetsRows base n f bad a b)
    (rc : RunCmd) (l : List (Space × Nat)) : SetsRows base n f bad a (b.1, countReads rc l b.2) where
  rows r hr := (slotAt_slots (by simp [Machine.countReads]) _).trans (h.rows r hr)
  others k hk := (slotAt_slots (by simp [Machine.countReads]) _).trans (h.others k hk)
  works := h.works.trans (countReads_works _ _ _)
  bytes := h.bytes.trans (countReads_outside _ _ _ _)
  changed := h.changed
  poison := h.poison
  cmd := h.cmd

/-- Poison is met. -/
theorem SetsRows.notePoison {base n : Nat} {f : Nat → Slot} {bad : Bool} {a b : RunCmd × State} (h : SetsRows base n f bad a b)
    (p : Bool) : SetsRows base n f (bad || p) a (notePoison p b.1, b.2) where
  rows := h.rows
  others := h.others
  works := h.works
  bytes := h.bytes
  changed := h.changed
  poison := by
    show (b.1.prog.poisonIn || p) = _
    rw [h.poison, Bool.or_assoc]
  cmd := by
    have hcmd := h.cmd
    unfold Machine.notePoison
    rw [hcmd]

/-- The next row is set. -/
theorem SetsRows.changeSlot {base n : Nat} {f : Nat → Slot} {bad : Bool} {a b : RunCmd × State} (h : SetsRows base n f bad a b) :
    SetsRows base (n + 1) f bad a (changeSlot b.1 (base + n) (f n) b.2) where
  rows r hr := by
    show slotAt (putSlot b.2 (base + n) (f n)) (base + r) = f r
    by_cases hn : r = n
    · subst hn
      exact slotAt_putSlot_same _ _ _
    · rw [slotAt_putSlot_other _ _ (by omega)]
      exact h.rows r (by omega)
  others k hk := by
    show slotAt (putSlot b.2 (base + n) (f n)) k = _
    rw [slotAt_putSlot_other _ _ (by omega)]
    exact h.others k (by omega)
  works := h.works.trans (putSlot_works _ _ _)
  bytes := h.bytes.trans (putSlot_outside _ _ _ _)
  changed k hk := by
    rcases (mem_setInsert _ _ _).mp hk with rfl | hk
    · exact .inr (by omega)
    · exact (h.changed k hk).imp id (by omega)
  poison := h.poison
  cmd := by
    have hcmd := h.cmd
    unfold Machine.changeSlot
    rw [hcmd]

/-- All rows of a range are set one after another, and poison met with each of them counts. -/
theorem SetsRows.foldl {base : Nat} {f : Nat → Slot} {bad : Bool} {a b : RunCmd × State} (h : SetsRows base 0 f bad a b)
    (p : Nat → Bool) (n : Nat) :
    SetsRows base n f (bad || (List.range n).any p) a ((List.range n).foldl (fun (c : RunCmd × State) r =>
      Machine.changeSlot (Machine.notePoison (p r) c.1) (base + r) (f r) c.2) b) := by
  induction n with
  | zero => simpa using h
  | succ n ih =>
    rw [List.range_succ, List.foldl_append, List.any_append, ← Bool.or_assoc]
    simpa using (ih.notePoison (p n)).changeSlot

/-- The same where no row meets poison of its own. -/
theorem SetsRows.foldl_clean {base : Nat} {f : Nat → Slot} {bad : Bool} {a b : RunCmd × State} (h : SetsRows base 0 f bad a b)
    (n : Nat) : SetsRows base n f bad a ((List.range n).foldl (fun (c : RunCmd × State) r =>
      Machine.changeSlot c.1 (base + r) (f r) c.2) b) := by
  have hnone : ((List.range n).any fun _ => false) = false := by simp
  simpa [hnone] using h.foldl (fun _ => false) n

/-! ## The three commands -/

/-- `u` is the state in which a command has completed after it has set the rows of its range as `f` says. -/
def RowsSet (rc : RunCmd) (s : State) (f : Nat → Slot) (bad : Bool) (u : State) : Prop :=
  ∃ e : RunCmd × State, SetsRows (pkRow0 rc.packet) (pkRows rc.packet) f bad (rc, s) e
    ∧ u = completeCmd e.1 .ok 0 0 (pkRows rc.packet) e.2

theorem rowOpen_rowsSet (rc : RunCmd) (s : State) :
    RowsSet rc s (openSlot s rc) ((List.range (pkRows rc.packet)).any fun r => (openSlot s rc r).poison) (rowOpen rc s) := by
  have hread : SetsRows (pkRow0 rc.packet) 0 (openSlot s rc) false (rc, s)
      (rc, if (pkDmask rc.packet).testBit 0 then
        countReads rc (spaceSectors (descSpace rc (descOf rc 0)) (dBase (descOf rc 0)) (16 * pkRows rc.packet)) s else s) := by
    split
    · exact (SetsRows.refl _ _ _).countReads _ _
    · exact SetsRows.refl _ _ _
  exact ⟨_, hread.foldl (fun r => (openSlot s rc r).poison) _, rfl⟩

theorem rowClose_rowsSet (rc : RunCmd) (s : State) : RowsSet rc s (fun _ => Slot.zero) false (rowClose rc s) := by
  refine ⟨closeSlots rc s, ?_, rfl⟩
  unfold closeSlots rangeHandles span
  rw [List.foldl_map]
  exact (SetsRows.refl _ _ _).foldl_clean _

theorem rowFill_rowsSet (rc : RunCmd) (s : State) :
    RowsSet rc s (fillSlot s rc) (rangePoison s (descAt rc 0).1 (descAt rc 0).2 (256 * pkRows rc.packet)) (rowFill rc s) :=
  ⟨_, (((SetsRows.refl _ _ _).countReads _ _).notePoison _).foldl_clean _, rfl⟩

/-- The slot that ROWSTAT_OPEN sets: SW and POISON come from the source, if there is one (R269, R270). -/
theorem openSlot_eq (s : State) (rc : RunCmd) (r : Nat) :
    openSlot s rc r = slotOpened rc.vi rc.latched.exact (BitVec.ofNat 16 (pkKey rc.packet))
      (if (pkDmask rc.packet).testBit 0 then BitVec.ofNat 128 (readNat s (descAt rc 0).1 ((descAt rc 0).2 + 16 * r) 16) else 0)
      ((pkDmask rc.packet).testBit 0 && rangePoison s (descAt rc 0).1 ((descAt rc 0).2 + 16 * r) 16) := by
  unfold openSlot
  cases (pkDmask rc.packet).testBit 0 <;> rfl

/-! ## Their ends -/

/-- A row-state command that has just started does its work at once. -/
theorem rowCommand_runs {op : Nat} {body : RunCmd → State → State} {s : State} {rc : RunCmd} (hissues : Issues s rc op)
    (hpasses : Passes s rc) : rowCommand op body s = body (passed rc) s := by
  unfold rowCommand
  rw [issue_runs hissues.issues hissues.held hissues.running hissues.opcode, checkedThen_good _ _ hpasses.unchecked hpasses.good]

section

variable {rc : RunCmd} {s : State} {f : Nat → Slot} {bad : Bool} {e : RunCmd × State}
  (hrows : SetsRows (pkRow0 rc.packet) (pkRows rc.packet) f bad (passed rc, s) e) (hfresh : Fresh rc)
include hrows hfresh

theorem SetsRows.flags_zero : e.1.prog.flags = 0 := by
  rw [hrows.cmd]
  dsimp only [passed]
  rw [hfresh.1]
  rfl

theorem SetsRows.reduced_nil : e.1.prog.reduced = [] := by
  rw [hrows.cmd]
  dsimp only [passed]
  rw [hfresh.1]
  rfl

theorem SetsRows.changed_inRange : ∀ h ∈ e.1.prog.changed, inRange rc.packet h := by
  intro h hh
  rcases hrows.changed h hh with hzero | hin
  · dsimp only [passed] at hzero
    rw [hfresh.1] at hzero
    exact absurd hzero List.not_mem_nil
  · exact hin

theorem SetsRows.finalStatus_eq : finalStatus e.1 .ok = if bad then .poisonInput else .ok := by
  obtain ⟨hprog, hfailed, htainted⟩ := hfresh
  have hpoison : e.1.prog.poisonIn = bad := by
    rw [hrows.poison]
    dsimp only [passed]
    rw [hprog]
    rfl
  rw [finalStatus_ok (by rw [hrows.cmd]; exact hfailed) (by rw [hrows.cmd]; exact htainted),
    hrows.flags_zero ⟨hprog, hfailed, htainted⟩, hpoison]
  rfl

theorem SetsRows.rowsHold {base : Status} (hcontained : finalStatus e.1 base ≠ .errorContained) (d r n : Nat) :
    RowsHold s (completeCmd e.1 base d r n e.2) rc f := by
  have hreduced := hrows.reduced_nil hfresh
  constructor
  · intro row hrow
    have hholds := completeCmd_holds e.1 base d r n e.2 (pkRow0 rc.packet + row) hcontained (by simp [hreduced])
    have hpacket : e.1.packet = rc.packet := by rw [hrows.cmd]; rfl
    rw [hrows.rows row hrow] at hholds
    unfold Holds at hholds ⊢
    rwa [hpacket] at hholds
  · intro h hout
    rw [completeCmd_slot _ _ _ _ _ _ _ hcontained (by simp [hreduced]) (.inr fun hh => hout (hrows.changed_inRange hfresh h hh))]
    exact hrows.others h hout

end

/-- A command just started that sets the rows of its range completes, with POISON_INPUT if it has met poison; but for its completion
no byte changes, its rows hold what it has set, and every other slot stands. -/
theorem rowCommand_ends {c : Instr} {op : Nat} {body : RunCmd → State → State} {s : State} {rc : RunCmd} {f : Nat → Slot} {bad : Bool}
    (hexec : exec c s = command (rowCommand op body) s) (hissues : Issues s rc op) (hpasses : Passes s rc) (hfresh : Fresh rc)
    (hset : RowsSet (passed rc) s f bad (body (passed rc) s)) :
    ∃ t st, st = (if bad then .poisonInput else .ok) ∧ Ends c s t rc ⟨rc.seq.toNat, st, 0, 0, 0, pkRows rc.packet⟩
      ∧ OnlyCompletion s t rc st ∧ RowsHold s t rc f := by
  obtain ⟨e, (hrows : SetsRows (pkRow0 rc.packet) (pkRows rc.packet) f bad (passed rc, s) e), hbody⟩ := hset
  have hring : e.1.ring = rc.ring := by rw [hrows.cmd]; rfl
  have hpacket : e.1.packet = rc.packet := by rw [hrows.cmd]; rfl
  have hseq : e.1.seq = rc.seq := by rw [hrows.cmd]; rfl
  have hstatus := hrows.finalStatus_eq hfresh
  have hcontained : finalStatus e.1 .ok ≠ .errorContained := by rw [hstatus]; split <;> decide
  have hretracted : finalStatus e.1 .ok ≠ .retracted := by rw [hstatus]; split <;> decide
  have hcpl : cplOf e.1 .ok 0 0 (pkRows rc.packet) = ⟨rc.seq.toNat, finalStatus e.1 .ok, 0, 0, 0, pkRows rc.packet⟩ := by
    unfold cplOf
    rw [hseq, hrows.flags_zero hfresh]
    split <;> rfl
  obtain ⟨hnext, hcompleted, hframe⟩ := command_completes rc e.1 .ok 0 0 (pkRows rc.packet)
    ((rowCommand_runs hissues hpasses).trans hbody) hissues.cached hrows.works hring hpacket hseq
  exact ⟨_, _, hstatus, ⟨hexec.trans hnext, hcpl ▸ hcompleted, hframe⟩,
    completeCmd_onlyCompletion _ _ _ hissues.cached hrows.works hrows.bytes hring hpacket hcontained hretracted,
    hrows.rowsHold hfresh hcontained _ _ _⟩

end Sys2Proof.Machine

open Sys2Proof Sys2Proof.Machine Sys2Proof.Claims

/-- Settles O11: opening and closing set every row of the range, and only a linked record touches such a slot again. -/
theorem rowstatOpenAndCloseSetTheirSlots : Obligations.RowstatOpenAndCloseSetTheirSlots := by
  unfold Obligations.RowstatOpenAndCloseSetTheirSlots
  rintro s rc src sw bad hpasses hfresh rfl hsw hbad
  constructor
  · intro hissues
    have hopen : ∀ r, openSlot s (passed rc) r
        = slotOpened rc.vi rc.latched.exact (BitVec.ofNat 16 (pkKey rc.packet)) (sw r) (bad r) := by
      intro r
      rw [hsw, hbad]
      exact openSlot_eq s (passed rc) r
    have hset := rowOpen_rowsSet (passed rc) s
    rw [funext hopen] at hset
    exact rowCommand_ends rfl hissues hpasses hfresh hset
  · intro hissues
    obtain ⟨t, _, rfl, hends, honly, hrows⟩ := rowCommand_ends (c := .rowstatClose) rfl hissues hpasses hfresh (rowClose_rowsSet _ s)
    obtain ⟨hprog, hfailed, htainted⟩ := hfresh
    have hcpl : okCpl rc 0 (pkRows rc.packet) = ⟨rc.seq.toNat, .ok, 0, 0, 0, pkRows rc.packet⟩ := by
      unfold okCpl
      rw [finalStatus_ok hfailed htainted, hprog]
      rfl
    rw [hcpl]
    exact ⟨t, hends, honly, hrows⟩

/-- Settles O13: every row is set to the slot of its image, and poison of the whole source gives the status. -/
theorem rowstatFillTakesImages : Obligations.RowstatFillTakesImages := by
  unfold Obligations.RowstatFillTakesImages
  intro s rc hissues hpasses hfresh
  exact rowCommand_ends rfl hissues hpasses hfresh (rowFill_rowsSet (passed rc) s)

end

section
/-! SUPPORT. A ring command whose checks have passed goes on with its body, EVENT_WAIT completes or waits (R496), and what the end of
a wait and the end of its time limit do to a BLOCKED one (R469, R497). -/

namespace Sys2Proof.Machine

open Sys2Proof.Claims

/-! ## Commands whose checks have passed -/

/-- A command that has been checked already is its own checked form. -/
theorem passed_of_checked {rc : RunCmd} (h : rc.prog.checked = true) : passed rc = rc := by
  unfold passed
  rw [← h]

/-- A command with one body for its first and its later steps runs it once its checks have passed. -/
theorem checkedThen_cleared {rc : RunCmd} {s : State} (body : RunCmd → State → State) (h : Cleared s rc) :
    checkedThen rc body body s = body (passed rc) s := by
  cases hchecked : rc.prog.checked with
  | true => rw [passed_of_checked hchecked, checkedThen, if_pos hchecked]
  | false => exact checkedThen_good _ _ hchecked (h.resolve_left (by simp [hchecked]))

/-- A command that has no failure of its own completes as `okCpl` says. -/
theorem cplOf_passed_ok (rc : RunCmd) (result count : Nat) : cplOf (passed rc) .ok 0 result count = okCpl rc result count := by
  unfold cplOf
  split <;> rfl

/-- A contained error outranks whatever else a command has met, unless SELECT has noted a failure (R458). -/
theorem finalStatus_errorContained {rc : RunCmd} (h : rc.failed = none) : finalStatus rc .errorContained = .errorContained := by
  simp [finalStatus, h, statusFirst, statusRank]

/-! ## EVENT_WAIT -/

/-- A checked EVENT_WAIT that holds the chain looks at its event. -/
theorem waitRow_runs {s : State} {rc : RunCmd} (hissues : Issues s rc 0x2A) (hcleared : Cleared s rc) :
    waitRow s = waitBody (passed rc) s := by
  unfold waitRow
  rw [issue_runs hissues.issues hissues.held hissues.running hissues.opcode, checkedThen_cleared _ hcleared]

section

variable {rc : RunCmd} {s : State} {n : Nat} {target : W32}
  (hn : n = pkOpa rc.packet % 256) (htarget : target = BitVec.ofNat 32 (pkOpb rc.packet))
include hn htarget

/-- An event that has been waited for, or has reached the target, completes the command. -/
theorem waitBody_of_reached (h : rc.wait = .event n target ∨ eventReached (eventOf s rc.vi n) target = true) :
    waitBody rc s = completeCmd rc .ok 0 (eventOf s rc.vi n).toNat 0 s := by
  subst hn htarget
  exact if_pos (by simpa using h)

/-- An event short of the target makes the command wait for it. -/
theorem waitBody_of_short (hwait : rc.wait ≠ .event n target) (hshort : eventReached (eventOf s rc.vi n) target = false) :
    waitBody rc s = blockCmd rc (.event n target) s := by
  subst hn htarget
  exact if_neg (by simp [hwait, hshort])

end

/-! ## A BLOCKED EVENT_WAIT -/

section

variable {s : State} {rc : RunCmd} {n : Nat} {target : W32}
  (hcmd : cmdOf s rc.ring = some rc) (hphase : rc.phase = .blocked false) (hwait : rc.wait = .event n target)
include hcmd hphase hwait

/-- The wait is over once the event has reached the target. -/
theorem blockedWaitEnd_of_event :
    blockedWaitEnd rc.ring s = if eventReached (eventOf s rc.vi n) target then setCmd s { rc with phase := .blocked true } else s := by
  simp only [blockedWaitEnd, hcmd, hphase, hwait, waitOver, reduceCtorEq, false_and, if_false]

/-- A time limit ends a command that still waits, without an entry in the error log. -/
theorem eventTimeout_of_limit (hlimit : pkOpc rc.packet ≠ 0) : eventTimeout rc.ring s = failCmdUnlogged rc s := by
  simp only [eventTimeout, hcmd, hphase, hwait, if_neg hlimit]

end

end Sys2Proof.Machine

open Sys2Proof Sys2Proof.Machine Sys2Proof.Claims

/-- Settles O10, by the two branches of EVENT_WAIT's body for the command that holds the chain, and by the two rows that meet it
while it is BLOCKED. -/
theorem eventWaitCompletesOrWaits : Obligations.EventWaitCompletesOrWaits := by
  unfold Obligations.EventWaitCompletesOrWaits
  intro s rc n target
  constructor
  · intro hissues hcleared hn htarget
    have hruns := waitRow_runs hissues hcleared
    constructor
    · intro hreached
      have hbody := hruns.trans (waitBody_of_reached (rc := passed rc) hn htarget hreached)
      have hends := command_completes rc (passed rc) .ok 0 _ 0 hbody hissues.cached (Works.refl s) rfl rfl rfl
      rw [cplOf_passed_ok] at hends
      exact ⟨_, hends⟩
    · intro hwait hshort
      have hbody := hruns.trans (waitBody_of_short (rc := passed rc) hn htarget hwait hshort)
      have hblocked := blockCmd_blocked s rc (passed rc) (.event n target) hissues.cached rfl rfl rfl
      rw [← hbody] at hblocked
      exact ⟨_, command_next hblocked.frame, hblocked⟩
  · intro hcmd hphase hwait
    constructor
    · rw [← blockedWaitEnd_of_event hcmd hphase hwait]
      refine command_next ?_
      rw [blockedWaitEnd_of_event hcmd hphase hwait]
      split
      · exact (setCmd_works _ _).toFrame
      · exact Frame.refl s
    · intro hcached hlimit hfailed
      have hends := command_completes rc rc .errorContained 0xFFFF _ _ (eventTimeout_of_limit hcmd hphase hwait hlimit) hcached
        (Works.refl s) rfl rfl rfl
      have hstatus := finalStatus_errorContained hfailed
      exact ⟨_, _, hends, rfl, hstatus, by rw [cplOf, hstatus]⟩

end

section
/-! SUPPORT. The power controller's moves between its states (R597 to R603, R612 to R616): what a request for an operating point, the
power-down, the drain's reopening and the checkpoint leave, and one equation for each case of the rows that make the moves. -/

namespace Sys2Proof.Machine

open Sys2Proof.Claims

/-- A meaning that keeps the queue and the configuration, given what it comes to. -/
theorem command_eq {f : State → State} {s t : State} (h : f s = t) (hpending : t.pending = s.pending) (hcfg : t.cfg = s.cfg) :
    command f s = .next t := by
  unfold command
  rw [h, ← hpending, ← hcfg]

/-! ## The full operating point -/

@[simp] theorem requestPoint_pending (p : BitVec 3) (s : State) : (requestPoint p s).pending = s.pending := by
  unfold requestPoint; split <;> rfl
@[simp] theorem requestPoint_cfg (p : BitVec 3) (s : State) : (requestPoint p s).cfg = s.cfg := by
  unfold requestPoint; split <;> rfl
@[simp] theorem requestPoint_ctl (p : BitVec 3) (s : State) : (requestPoint p s).ctl = s.ctl := by
  unfold requestPoint; split <;> rfl
@[simp] theorem requestPoint_rings (p : BitVec 3) (s : State) : (requestPoint p s).rings = s.rings := by
  unfold requestPoint; split <;> rfl

/-- What asking for a point leaves in the power controller: nothing is asked for where the unit already stands there. -/
@[simp] theorem requestPoint_pwr (p : BitVec 3) (s : State) :
    (requestPoint p s).pwr = { s.pwr with opReq := if s.pwr.opReq = none ∧ s.pwr.point = p then none else some p } := by
  unfold requestPoint
  split
  · next h => rw [← h.1]
  · rfl

@[simp] theorem fullSlots_pending (s : State) : (fullSlots s).pending = s.pending := requestPoint_pending _ _
@[simp] theorem fullSlots_cfg (s : State) : (fullSlots s).cfg = s.cfg := requestPoint_cfg _ _
@[simp] theorem fullSlots_ctl (s : State) : (fullSlots s).ctl = s.ctl := requestPoint_ctl _ _
@[simp] theorem fullSlots_rings (s : State) : (fullSlots s).rings = s.rings := requestPoint_rings _ _
@[simp] theorem fullSlots_pwr (s : State) :
    (fullSlots s).pwr = { s.pwr with slots := 16, opReq := if s.pwr.opReq = none ∧ s.pwr.point = 7 then none else some 7 } :=
  requestPoint_pwr _ _

/-- R610: the unit stands at point 7 or asks for it. -/
theorem fullSlots_point (s : State) : (fullSlots s).pwr.point = 7 ∨ (fullSlots s).pwr.opReq = some 7 := by
  rw [fullSlots_pwr]
  by_cases h : s.pwr.opReq = none ∧ s.pwr.point = 7
  · exact .inl h.2
  · exact .inr (if_neg h)

/-! ## QUIESCE -/

@[simp] theorem beginQuiesce_pending (s : State) : (beginQuiesce s).pending = s.pending := fullSlots_pending _
@[simp] theorem beginQuiesce_cfg (s : State) : (beginQuiesce s).cfg = s.cfg := fullSlots_cfg _
theorem beginQuiesce_ctl (s : State) : (beginQuiesce s).ctl = { s.ctl with stop := some .powerDown, refuse := true } :=
  fullSlots_ctl _

/-- A row that comes to a power-down leaves the unit in QUIESCE, stopping for it. -/
theorem command_beginQuiesce {f : State → State} {s u : State} (h : f s = beginQuiesce u) (hpending : u.pending = s.pending)
    (hcfg : u.cfg = s.cfg) : ∃ t, command f s = .next t ∧ t.pwr.state = .quiesce ∧ t.ctl.stop = some .powerDown
      ∧ t.pwr.downAfterExit = false :=
  ⟨_, command_eq h (by simpa using hpending) (by simpa using hcfg), by simp [beginQuiesce], by simp [beginQuiesce_ctl],
    by simp [beginQuiesce]⟩

/-! ## The idle timer (R599 to R601) -/

/-- The timer's test is idleness. -/
theorem idleTest_iff (s : State) :
    (unitIdle s && powerSteady s && s.ctl.stop.isNone && !s.ctl.flushing && !s.pwr.holdupReq) = true ↔ idleNow s := by
  simp [idleNow, and_assoc]

/-- The timer's test for OFF is that the unit may turn off. -/
theorem offTest_iff (s : State) :
    (s.cfg.autoOff && (createdRings s).isEmpty && s.slots.all (fun x => !x.2.isOpen)) = true ↔ mayTurnOff s := by
  simp [mayTurnOff, and_assoc]

theorem idleTimer_of_busy {s : State} (h : ¬ idleNow s) : idleTimer s = s := by
  unfold idleTimer
  rw [if_neg (mt (idleTest_iff s).mp h)]

theorem idleTimer_of_mayTurnOff {s : State} (hidle : idleNow s) (hoff : mayTurnOff s) : idleTimer s = beginQuiesce s := by
  unfold idleTimer
  rw [if_pos ((idleTest_iff s).mpr hidle), if_pos ((offTest_iff s).mpr hoff)]

theorem idleTimer_of_staysOn {s : State} (hidle : idleNow s) (hon : ¬ mayTurnOff s) :
    idleTimer s = if boundAllows 3000 s then setMove s (.entering .retain)
      else if boundAllows 40 s then setMove s (.entering .gated) else s := by
  unfold idleTimer
  rw [if_pos ((idleTest_iff s).mpr hidle), if_neg (mt (offTest_iff s).mp hon)]
  rfl

/-! ## Entries (R602) -/

theorem entryDone_of_not_entering {s : State} (h : ∀ x, s.pwr.move ≠ .entering x) : entryDone s = s := by
  unfold entryDone
  split
  · next x hx => exact absurd hx (h x)
  · rfl

theorem entryDone_of_entering {s : State} {x : PowerState} (h : s.pwr.move = .entering x) :
    entryDone s = { s with pwr := { s.pwr with
      state := x
      move := if x = .retain ∧ s.pwr.holdupReq = true ∧ s.pwr.restored = true then .leaving .retain else .none } } := by
  simp only [entryDone, h]
  split <;> rfl

/-! ## The drain takes beats again (R33) -/

@[simp] theorem returnCredits_pending (s : State) : (returnCredits s).pending = s.pending := by
  unfold returnCredits; split <;> rfl
@[simp] theorem returnCredits_cfg (s : State) : (returnCredits s).cfg = s.cfg := by
  unfold returnCredits; split <;> rfl
@[simp] theorem returnCredits_ctl (s : State) : (returnCredits s).ctl = s.ctl := by
  unfold returnCredits; split <;> rfl
@[simp] theorem returnCredits_pwr (s : State) : (returnCredits s).pwr = s.pwr := by
  unfold returnCredits; split <;> rfl
@[simp] theorem returnCredits_rings (s : State) : (returnCredits s).rings = s.rings := by
  unfold returnCredits; split <;> rfl

theorem returnCredits_drain (s : State) :
    (returnCredits s).drain = { s.drain with credits := s.drain.credits + s.drain.withheld, withheld := 0 } := by
  unfold returnCredits
  split
  · next h => rw [h, Nat.add_zero, ← h]
  · rfl

/-- A unit that refuses beats for nothing but the power state that it has left. -/
def reopens (s : State) : Prop :=
  s.ctl.refuse = true ∧ s.ctl.state = .active ∧ s.ctl.fence = false ∧ s.ctl.stop = none ∧ s.pwr.holdupReq = false

theorem reopenDrain_of_reopens {s : State} (h : reopens s) :
    reopenDrain s = returnCredits { s with ctl := { s.ctl with refuse := false } } := by
  obtain ⟨hrefuse, hactive, hfence, hstop, hheld⟩ := h
  simp [reopenDrain, hrefuse, hactive, hfence, hstop, hheld]

theorem reopenDrain_of_not_reopens {s : State} (h : ¬ reopens s) : reopenDrain s = s := by
  unfold reopenDrain
  rw [if_neg]
  simpa [reopens, and_assoc] using h

@[simp] theorem reopenDrain_pending (s : State) : (reopenDrain s).pending = s.pending := by
  unfold reopenDrain; split <;> simp
@[simp] theorem reopenDrain_cfg (s : State) : (reopenDrain s).cfg = s.cfg := by
  unfold reopenDrain; split <;> simp
@[simp] theorem reopenDrain_pwr (s : State) : (reopenDrain s).pwr = s.pwr := by
  unfold reopenDrain; split <;> simp

@[simp] theorem endHoldup_pending (s : State) : (endHoldup s).pending = s.pending := by
  unfold endHoldup; dsimp only; split <;> simp
@[simp] theorem endHoldup_cfg (s : State) : (endHoldup s).cfg = s.cfg := by
  unfold endHoldup; dsimp only; split <;> simp
theorem endHoldup_pwr (s : State) : (endHoldup s).pwr = { s.pwr with holdupReq := false, restored := false } := by
  unfold endHoldup; dsimp only; split <;> simp
theorem endHoldup_ctl (s : State) :
    (endHoldup s).ctl = { s.ctl with refuse := decide (s.ctl.state ≠ .active) || s.ctl.fence } := by
  unfold endHoldup; dsimp only; split <;> simp
theorem endHoldup_rings (s : State) : (endHoldup s).rings = { s.rings with fetchStopped := s.ctl.fatal } := by
  unfold endHoldup; dsimp only; split <;> simp

/-- The end of a hold-up leaves a drain that refuses beats only under a fence or in another unit state. -/
theorem not_reopens_endHoldup (s : State) : ¬ reopens (endHoldup s) := by
  rintro ⟨hrefuse, hactive, hfence, -, -⟩
  rw [endHoldup_ctl] at hrefuse hactive hfence
  dsimp only at hrefuse hactive hfence
  simp [hactive, hfence] at hrefuse

/-! ## Exits (R603) -/

/-- The unit is ACTIVE, and no move goes on. -/
def awake (s : State) : State := { s with pwr := { s.pwr with state := .active, move := .none } }

/-- No power request waits. -/
def clearPending (s : State) : State := { s with pwr := { s.pwr with pending := 0 } }

theorem exitDone_of_not_leaving {s : State} (h : ∀ x, s.pwr.move ≠ .leaving x) : exitDone s = s := by
  unfold exitDone
  split
  · next x hx => exact absurd hx (h x)
  · rfl

/-- The unit as an exit leaves it, a hold-up whose supply is restored at its end. -/
def exited (s : State) : State :=
  reopenDrain (if s.pwr.holdupReq ∧ s.pwr.restored then endHoldup (awake s) else awake s)

theorem exited_of_no_holdup {s : State} (h : s.pwr.holdupReq = false) : exited s = reopenDrain (awake s) := by
  simp [exited, h]

theorem exited_of_restored {s : State} (hheld : s.pwr.holdupReq = true) (hrestored : s.pwr.restored = true) :
    exited s = endHoldup (awake s) := by
  simp [exited, hheld, hrestored, reopenDrain_of_not_reopens (not_reopens_endHoldup (awake s))]

@[simp] theorem exited_pending (s : State) : (exited s).pending = s.pending := by
  unfold exited; split <;> simp [awake]
@[simp] theorem exited_cfg (s : State) : (exited s).cfg = s.cfg := by
  unfold exited; split <;> simp [awake]
@[simp] theorem exited_downAfterExit (s : State) : (exited s).pwr.downAfterExit = s.pwr.downAfterExit := by
  unfold exited; split <;> simp [endHoldup_pwr, awake]
@[simp] theorem exited_pwr_pending (s : State) : (exited s).pwr.pending = s.pwr.pending := by
  unfold exited; split <;> simp [endHoldup_pwr, awake]

theorem exitDone_of_leaving {s : State} {x : PowerState} (h : s.pwr.move = .leaving x) :
    exitDone s = if (exited s).pwr.downAfterExit ∨ (exited s).pwr.pending = 2 then beginQuiesce (exited s)
      else clearPending (exited s) := by
  simp only [exitDone, h]
  rfl

/-- R609: a power-down that waited begins. -/
theorem exitDone_of_downAfterExit {s : State} {x : PowerState} (hmove : s.pwr.move = .leaving x)
    (hdown : s.pwr.downAfterExit = true) : exitDone s = beginQuiesce (exited s) := by
  rw [exitDone_of_leaving hmove, if_pos (.inl (by rw [exited_downAfterExit, hdown]))]

/-- With no power-down that waits the unit goes on. -/
theorem exitDone_of_staysOn {s : State} {x : PowerState} (hmove : s.pwr.move = .leaving x) (hdown : s.pwr.downAfterExit = false)
    (hpending : s.pwr.pending ≠ 2) : exitDone s = clearPending (exited s) := by
  rw [exitDone_of_leaving hmove, if_neg]
  rw [exited_downAfterExit, exited_pwr_pending, hdown]
  rintro (h | h)
  · contradiction
  · exact hpending h

/-! ## The supply fails (R612) -/

/-- A failing supply is on record, and fetching stops. -/
def supplyFailed (s : State) : State :=
  { s with pwr := { s.pwr with holdupReq := true, restored := false }, rings := { s.rings with fetchStopped := true } }

theorem holdup_of_downOrHeld {s : State} (h : s.pwr.state ∈ [.quiesce, .checkpoint, .railOff, .off, .holdup]) : holdup s = s := by
  simp only [List.mem_cons, List.not_mem_nil, or_false] at h
  obtain h | h | h | h | h := h <;> simp only [holdup, h]

theorem holdup_of_active {s : State} (hstate : s.pwr.state = .active) (hmove : s.pwr.move = .none) :
    holdup s = if s.ctl.state = .resetting ∨ s.rings.holder.isSome then supplyFailed s else enterHoldup (supplyFailed s) := by
  simp only [holdup, hstate, hmove, supplyFailed]

/-- A command that holds the chain runs on to its next boundary. -/
theorem holdup_of_holder {s : State} (hstate : s.pwr.state = .active) (hmove : s.pwr.move = .none) (h : s.rings.holder ≠ none) :
    holdup s = supplyFailed s := by
  rw [holdup_of_active hstate hmove, if_pos (.inr (Option.isSome_iff_ne_none.mpr h))]

theorem holdup_of_free {s : State} (hstate : s.pwr.state = .active) (hmove : s.pwr.move = .none) (hctl : s.ctl.state ≠ .resetting)
    (h : s.rings.holder = none) : holdup s = enterHoldup (supplyFailed s) := by
  rw [holdup_of_active hstate hmove, if_neg (by simp [hctl, h])]

/-- With no command in the chain there is none to save. -/
theorem enterHoldup_of_free {s : State} (h : s.rings.holder = none) :
    enterHoldup s = fullSlots { s with
      ctl := { s.ctl with refuse := true }
      rings := { s.rings with chosen := s.rings.chosen.filter (fun c => c.shadow.isSome) }
      pwr := { s.pwr with state := .holdup, move := .none } } := by
  simp only [enterHoldup, holderCmd, h]

/-! ## The checkpoint (R613) -/

theorem touchSave_works (ring : Nat) (c : RingCtx) (off n : Nat) (s : State) : Works s (touchSave ring c off n s) :=
  (takeFree_works s).trans (setMem_works _ _ _)

@[simp] theorem touchSave_slots (ring : Nat) (c : RingCtx) (off n : Nat) (s : State) :
    (touchSave ring c off n s).slots = s.slots := by
  simp [touchSave]

theorem saveRegs_works (ring : Nat) (s : State) : Works s (saveRegs ring s) := by
  unfold saveRegs
  split
  · next =>
    have hcounted := (touchSave_works ring (ctxOfRing s ring) 0 81920 s).trans
      (countEvent_works _ 0x2C 1 (some (ctxOwner (ctxOfRing s ring))))
    exact hcounted.trans (by apply Works.of <;> rfl)
  · exact Works.refl s

@[simp] theorem saveRegs_slots (ring : Nat) (s : State) : (saveRegs ring s).slots = s.slots := by
  unfold saveRegs
  split <;> simp

theorem writeBackCtx_aside (e : CtxEntry) (s : State) : Aside s (writeBackCtx e s) := by
  unfold writeBackCtx
  split
  · exact devWriteFor_aside _ _ _ _
  · exact Aside.refl s

/-- The registers of the resident rings and the changed contexts are written to memory. -/
def saveRings (s : State) : State :=
  let s1 := s.rings.resident.foldl (fun s r => saveRegs r s) s
  s1.rings.cache.foldl (fun s e => writeBackCtx e s) s1

theorem saveRings_works (s : State) : Works s (saveRings s) :=
  (Works.foldl _ (fun s r => saveRegs_works r s) _ _).trans
    (Aside.foldl _ (fun s e => writeBackCtx_aside e s) _ _).toNear.works

@[simp] theorem saveRings_slots (s : State) : (saveRings s).slots = s.slots :=
  (Aside.foldl _ (fun s e => writeBackCtx_aside e s) _ _).slots.trans
    (foldl_keeps State.slots _ (fun s r => saveRegs_slots r s) _ _)

/-- No cached context differs from the one in memory. -/
def cleanCache (s : State) : State :=
  { s with rings := { s.rings with cache := s.rings.cache.map (fun e => { e with dirty := false }) } }

theorem checkpointDone_of_elsewhere {s : State} (h : s.pwr.state ≠ .holdup ∨ s.pwr.move ≠ .none) : checkpointDone s = s := by
  unfold checkpointDone
  exact if_neg (by tauto)

theorem checkpointDone_of_holdup {s : State} (hstate : s.pwr.state = .holdup) (hmove : s.pwr.move = .none) :
    checkpointDone s = setMove (traceFlush (cleanCache (saveRings s))) (.entering .retain) := by
  unfold checkpointDone
  rw [if_pos ⟨hstate, hmove⟩]
  rfl

/-! ## The supply is restored (R614) -/

theorem supplyRestored_of_no_holdup {s : State} (h : s.pwr.holdupReq = false) : supplyRestored s = s := by
  simp [supplyRestored, h]

theorem supplyRestored_of_holdup {s : State} (h : s.pwr.holdupReq = true) :
    supplyRestored s = { s with pwr := { s.pwr with
      restored := true
      move := if s.pwr.state = .retain ∧ s.pwr.move = .none then .leaving .retain else s.pwr.move } } := by
  simp only [supplyRestored, h, if_true]
  split <;> rfl

/-! ## What the rows come to -/

/-- An exit with no power-down that waits: the unit is ACTIVE, and takes beats again where only the power state held them off. -/
theorem command_exitDone_of_staysOn {s : State} {x : PowerState} (hmove : s.pwr.move = .leaving x) (hheld : s.pwr.holdupReq = false)
    (hdown : s.pwr.downAfterExit = false) (hpending : s.pwr.pending ≠ 2) :
    ((s.ctl.refuse = false ∨ s.ctl.state ≠ .active ∨ s.ctl.fence = true ∨ s.ctl.stop ≠ none) →
        command exitDone s = .next (clearPending (awake s)))
      ∧ (s.ctl.refuse = true → s.ctl.state = .active → s.ctl.fence = false → s.ctl.stop = none →
        ∃ t, command exitDone s = .next t ∧ t.pwr.state = .active ∧ t.pwr.move = .none ∧ t.ctl = { s.ctl with refuse := false }
          ∧ t.drain = { s.drain with credits := s.drain.credits + s.drain.withheld, withheld := 0 }) := by
  have hexit := exitDone_of_staysOn hmove hdown hpending
  rw [exited_of_no_holdup hheld] at hexit
  constructor
  · intro hclosed
    have hnot : ¬ reopens (awake s) := by
      rintro ⟨hrefuse, hactive, hfence, hstop, -⟩
      change s.ctl.refuse = true at hrefuse
      change s.ctl.fence = false at hfence
      obtain h | h | h | h := hclosed
      · simp [h] at hrefuse
      · exact h hactive
      · simp [h] at hfence
      · exact h hstop
    rw [reopenDrain_of_not_reopens hnot] at hexit
    exact command_eq hexit rfl rfl
  · intro hrefuse hactive hfence hstop
    rw [reopenDrain_of_reopens (s := awake s) ⟨hrefuse, hactive, hfence, hstop, hheld⟩] at hexit
    exact ⟨_, command_eq hexit (by simp [clearPending, awake]) (by simp [clearPending, awake]), by simp [clearPending, awake],
      by simp [clearPending, awake], by simp [clearPending, awake], by simp [clearPending, returnCredits_drain, awake]⟩

/-- An exit after a hold-up: fetching starts again unless a fatal error stopped it, and the drain unless the unit is fenced. -/
theorem command_exitDone_of_restored {s : State} {x : PowerState} (hmove : s.pwr.move = .leaving x) (hheld : s.pwr.holdupReq = true)
    (hrestored : s.pwr.restored = true) (hdown : s.pwr.downAfterExit = false) (hpending : s.pwr.pending ≠ 2) :
    ∃ t, command exitDone s = .next t ∧ t.pwr.state = .active ∧ t.pwr.holdupReq = false
      ∧ t.rings = { s.rings with fetchStopped := s.ctl.fatal } ∧ t.ctl.refuse = (decide (s.ctl.state ≠ .active) || s.ctl.fence) := by
  have hexit := exitDone_of_staysOn hmove hdown hpending
  rw [exited_of_restored hheld hrestored] at hexit
  refine ⟨_, command_eq hexit ?_ ?_, ?_, ?_, ?_, ?_⟩
  · simp [clearPending, awake]
  · simp [clearPending, awake]
  · simp [clearPending, endHoldup_pwr, awake]
  · simp [clearPending, endHoldup_pwr, awake]
  · simp [clearPending, endHoldup_rings, awake]
  · simp [clearPending, endHoldup_ctl, awake]

/-- A failing supply of an ACTIVE unit: fetching stops, and HOLDUP is entered with the chain free. -/
theorem command_holdup_of_active {s : State} (hstate : s.pwr.state = .active) (hmove : s.pwr.move = .none)
    (hctl : s.ctl.state ≠ .resetting) :
    ∃ t, command holdup s = .next t ∧ t.pwr.holdupReq = true ∧ t.pwr.restored = false
      ∧ t.rings = { s.rings with fetchStopped := true, chosen := t.rings.chosen }
      ∧ (s.rings.holder = none → t.pwr.state = .holdup ∧ t.ctl.refuse = true ∧ t.pwr.slots = 16
          ∧ (t.pwr.point = 7 ∨ t.pwr.opReq = some 7))
      ∧ (s.rings.holder ≠ none → t.pwr.state = .active ∧ t.ctl = s.ctl) := by
  by_cases hholder : s.rings.holder = none
  · have hheld := (holdup_of_free hstate hmove hctl hholder).trans (enterHoldup_of_free (s := supplyFailed s) hholder)
    refine ⟨_, command_eq hheld ?_ ?_, ?_, ?_, ?_, fun _ => ⟨?_, ?_, ?_, fullSlots_point _⟩, fun h => absurd hholder h⟩ <;>
      simp [supplyFailed]
  · exact ⟨_, command_eq (holdup_of_holder hstate hmove hholder) rfl rfl, rfl, rfl, rfl, fun h => absurd h hholder,
      fun _ => ⟨hstate, rfl⟩⟩

/-- The checkpoint leaves every cached context as it is and as memory holds it, and RETAIN is entered. -/
theorem command_checkpointDone_of_holdup {s : State} (hstate : s.pwr.state = .holdup) (hmove : s.pwr.move = .none) :
    ∃ t, command checkpointDone s = .next t ∧ t.pwr.move = .entering .retain ∧ t.slots = s.slots
      ∧ t.rings.cache.map (fun x => (x.ring, x.ctx)) = s.rings.cache.map (fun x => (x.ring, x.ctx))
      ∧ ∀ x ∈ t.rings.cache, x.dirty = false := by
  have hsaved := saveRings_works s
  have hflushed := traceFlush_aside (cleanCache (saveRings s))
  have hcache : (traceFlush (cleanCache (saveRings s))).rings.cache = s.rings.cache.map (fun e => { e with dirty := false }) := by
    rw [hflushed.cache, ← hsaved.cache]
    rfl
  refine ⟨_, command_eq (checkpointDone_of_holdup hstate hmove) (hflushed.pending.trans hsaved.pending)
    (hflushed.cfg.trans hsaved.cfg), rfl, hflushed.slots.trans (saveRings_slots s), ?_, ?_⟩
  · simp [setMove, hcache, Function.comp_def]
  · simp [setMove, hcache]

end Sys2Proof.Machine

open Sys2Proof Sys2Proof.Machine Sys2Proof.Claims

/-- Settles O51, row by row: each clause is the row's equation for that case, and what the power-down, the drain, the hold-up and the
checkpoint leave. -/
theorem powerStatesFollowActivity : Obligations.PowerStatesFollowActivity := by
  unfold Obligations.PowerStatesFollowActivity
  intro s
  refine ⟨fun hbusy => command_eq (idleTimer_of_busy hbusy) rfl rfl, ?off, ?staysOn,
    fun hmove => command_eq (entryDone_of_not_entering hmove) rfl rfl,
    fun x hmove => command_eq (entryDone_of_entering hmove) rfl rfl,
    fun hmove => command_eq (exitDone_of_not_leaving hmove) rfl rfl, ?exit,
    fun hstate => command_eq (holdup_of_downOrHeld hstate) rfl rfl, command_holdup_of_active,
    fun helsewhere => command_eq (checkpointDone_of_elsewhere helsewhere) rfl rfl, command_checkpointDone_of_holdup,
    fun hheld => command_eq (supplyRestored_of_no_holdup hheld) rfl rfl,
    fun hheld => command_eq (supplyRestored_of_holdup hheld) rfl rfl⟩
  case off =>
    intro hidle hoff
    obtain ⟨t, hexec, hstate, hstop, -⟩ := command_beginQuiesce (idleTimer_of_mayTurnOff hidle hoff) rfl rfl
    exact ⟨t, hexec, hstate, hstop⟩
  case staysOn =>
    intro hidle hon
    refine command_eq (idleTimer_of_staysOn hidle hon) ?_ ?_ <;> split_ifs <;> rfl
  case exit =>
    intro x hmove
    exact ⟨command_exitDone_of_staysOn hmove,
      fun _ hdown => command_beginQuiesce (exitDone_of_downAfterExit hmove hdown) (exited_pending s) (exited_cfg s),
      command_exitDone_of_restored hmove⟩

end

section
/-! SUPPORT. The event-counter registers (R659 to R663, R669): which access reaches a selection or a counter and which is ignored,
what a selection, a count and a clear leave, and what a VI's page shows of the counters after CLEAR. -/

namespace Sys2Proof.Machine

open Sys2Proof.Claims

/-- A row that keeps the queue, given what it comes to. -/
theorem register_eq {f : State → State} {s t : State} (h : f s = t) (hpending : t.pending = s.pending) :
    register f s = .next t := by
  unfold register
  rw [h, ← hpending]

/-! ## The accesses that reach a counter -/

theorem mgmtWrite_of_answers {s : State} (h : mgmtAnswers s = true) (body : State → State) :
    mgmtWrite body s = body (wake s) := if_pos h

/-- An access that reaches a page comes from its VI, or through the window, and wakes the unit (R41, R598, R646). -/
theorem reachPage_eq {port : RegPort} {s : State} {v : ViId} (h : (reachPage port s).1 = some v) :
    reachPage port s = (some v, wake s) := by
  cases port with
  | mgmt => simp [reachPage] at h
  | foreign requester =>
    rw [reachPage] at h
    split at h <;> simp at h
  | window =>
    rw [reachPage] at h ⊢
    split at h
    · simp_all
    · simp at h
  | page covered vi requester be =>
    rw [reachPage] at h ⊢
    split_ifs at h ⊢
    simp_all

theorem pageWrite_of_reached {port : RegPort} {s : State} {v : ViId} (h : Reached port s v) (body : ViId → State → State) :
    pageWrite port body s = body v (wake s) := by
  obtain ⟨hpage, henables⟩ := h
  simp [pageWrite, reachPage_eq hpage, henables]

theorem reached_window {s : State} (h : mgmtAnswers s = true) : Reached .window s s.cfg.viSel := by
  simp [Reached, reachPage, h, partBytes]

theorem ne_mgmt_of_reached {port : RegPort} {s : State} {v : ViId} (h : Reached port s v) : port ≠ .mgmt := by
  rintro rfl
  simp [Reached, reachPage] at h

@[simp] theorem portIgnored_pending (port : RegPort) (s : State) : (portIgnored port s).pending = s.pending := by
  cases port <;> simp [portIgnored]

@[simp] theorem portIgnored_cfg (port : RegPort) (s : State) : (portIgnored port s).cfg = s.cfg := by
  cases port <;> simp [portIgnored]

/-! ## Which counters a page shows -/

theorem evSelectOf_congr {s t : State} (h : t.cfg.select = s.cfg.select) (n : Nat) : evSelectOf t n = evSelectOf s n := by
  unfold evSelectOf
  rw [h]

theorem shownTo_congr {s t : State} (h : t.cfg.select = s.cfg.select) (v : ViId) (n : Nat) : shownTo t v n = shownTo s v n := by
  unfold shownTo
  rw [evSelectOf_congr h]

@[simp] theorem evSelectOf_wake (s : State) (n : Nat) : evSelectOf (wake s) n = evSelectOf s n := evSelectOf_congr (by simp) n

@[simp] theorem shownTo_wake (s : State) (v : ViId) (n : Nat) : shownTo (wake s) v n = shownTo s v n :=
  shownTo_congr (by simp) v n

/-! ## EV_SELECT (R660 to R662) -/

theorem evSelectOf_setSelect_same (n : Nat) (x : EvSelect) (s : State) : evSelectOf (setSelect n x s) n = x :=
  spGet_spSet_same _ _ _ _

theorem evSelectOf_setSelect_other {n m : Nat} (h : m ≠ n) (x : EvSelect) (s : State) :
    evSelectOf (setSelect n x s) m = evSelectOf s m :=
  spGet_spSet_other _ _ _ h

/-- The selection changes whom counter `n` counts for, so that R662 zeroes it. -/
def Retargets (s : State) (n : Nat) (x : W32) : Prop :=
  (selectOf x).allVi ≠ (evSelectOf s n).allVi ∨ (selectOf x).vi ≠ (evSelectOf s n).vi

theorem selectWrite_of_same {s : State} {n : Nat} {x : W32} (hall : (selectOf x).allVi = (evSelectOf s n).allVi)
    (hvi : (selectOf x).vi = (evSelectOf s n).vi) : selectWrite n x s = setSelect n (selectOf x) s :=
  if_pos ⟨hall, hvi⟩

theorem selectWrite_of_retargets {s : State} {n : Nat} {x : W32} (h : Retargets s n x) :
    selectWrite n x s = setSelect n { selectOf x with en := false, event := 0 } (clearCounter n s) :=
  if_neg fun hsame => h.elim (fun hall => hall hsame.1) (fun hvi => hvi hsame.2)

/-- A selection write sets one selection, and leaves all but the counters and that selection as it was. -/
theorem selectWrite_sets (s : State) (n : Nat) (x : W32) : ∃ e c,
    selectWrite n x s = setSelect n e { s with ev := c } := by
  by_cases h : Retargets s n x
  · exact ⟨_, _, selectWrite_of_retargets h⟩
  · obtain ⟨hall, hvi⟩ := not_or.mp h
    exact ⟨_, _, selectWrite_of_same (not_not.mp hall) (not_not.mp hvi)⟩

theorem evSelectRow_of_counterPort {port : RegPort} {s : State} {n : Nat} {x : W32} (h : CounterPort port s n) :
    evSelectRow port n x s = if eventKnown (field x 7 0) then selectWrite n x (wake s) else mgIgnored (wake s) := by
  obtain ⟨hanswers, rfl | ⟨rfl, hshown⟩⟩ := h
  · rw [evSelectRow, mgmtWrite_of_answers hanswers]
    cases eventKnown (field x 7 0) <;> rfl
  · rw [evSelectRow, pageWrite_of_reached (reached_window hanswers)]
    · cases eventKnown (field x 7 0) <;> simp [hshown, portIgnored]
    · simp

theorem evSelectRow_of_page {port : RegPort} {s : State} {v : ViId} {n : Nat} {x : W32} (hwindow : port ≠ .window)
    (h : Reached port s v) : evSelectRow port n x s =
      if eventKnown (field x 7 0) = false ∨ shownTo s v n = false then portIgnored port (wake s)
      else setSelect n { evSelectOf s n with en := bit x 8, event := BitVec.ofNat 8 (field x 7 0) } (wake s) := by
  rw [evSelectRow, pageWrite_of_reached h]
  · simp [hwindow]
  · exact ne_mgmt_of_reached h

/-! ## EV_COUNT (R669) -/

theorem evCountRow_of_reached {port : RegPort} {s : State} {v : ViId} {n : Nat} {x : W64} (h : Reached port s v) :
    evCountRow port n x s = if shownTo s v n then setCount n x (wake s) else portIgnored port (wake s) := by
  rw [evCountRow, pageWrite_of_reached h]
  · simp
  · exact ne_mgmt_of_reached h

/-- Every port that may set a counter sets it alike. -/
theorem evCountRow_of_settable {port : RegPort} {s : State} {n : Nat} {x : W64}
    (h : CounterPort port s n ∨ ∃ v, Reached port s v ∧ shownTo s v n = true) : evCountRow port n x s = setCount n x (wake s) := by
  obtain ⟨hanswers, rfl | ⟨rfl, hshown⟩⟩ | ⟨v, hreached, hshown⟩ := h
  · exact mgmtWrite_of_answers hanswers _
  · rw [evCountRow_of_reached (reached_window hanswers), if_pos hshown]
  · rw [evCountRow_of_reached hreached, if_pos hshown]

/-! ## Reading the counters -/

theorem unitCounter_of_lt {n : Nat} (h : n < 16) (s : State) : unitCounter s n = (spGet 0 s.ev.count n).toNat := by
  unfold unitCounter
  split <;> omega

theorem viCounter_of_lt {n : Nat} (h : n < 16) (s : State) (v : ViId) :
    viCounter s v n = if shownTo s v n then unitCounter s n else 0 := by
  rw [unitCounter_of_lt h]
  unfold viCounter
  split
  any_goals omega
  rfl

theorem viOverflow_of_lt {n : Nat} (h : n < 16) (s : State) (v : ViId) :
    viOverflow s v n = (shownTo s v n && bit s.ev.ovf n) :=
  if_neg (by omega)

theorem viOverflow_of_ge {n : Nat} (h : 16 ≤ n) (s : State) (v : ViId) :
    viOverflow s v n = bit (viOf s v).counters.ovf (n - 16) :=
  if_pos h

theorem unitCounter_setCount_same {n : Nat} (h : n < 16) (x : W64) (s : State) : unitCounter (setCount n x s) n = field x 47 0 := by
  rw [unitCounter_of_lt h, setCount, spGet_spSet_same, BitVec.toNat_ofNat]
  exact Nat.mod_mod _ _

theorem unitCounter_setCount_other {n m : Nat} (hm : m < 16) (h : m ≠ n) (x : W64) (s : State) :
    unitCounter (setCount n x s) m = unitCounter s m := by
  rw [unitCounter_of_lt hm, unitCounter_of_lt hm, setCount, spGet_spSet_other _ _ _ h]

/-! ## Clearing one counter -/

/-- Masking bit `m` away clears it and leaves every other bit, at any width. -/
theorem bit_and_not_pow {w : Nat} (x : BitVec w) (m n : Nat) :
    bit (x &&& ~~~(BitVec.ofNat w (2 ^ m))) n = (bit x n && decide (n ≠ m)) := by
  have hpow : BitVec.ofNat w (2 ^ m) = BitVec.twoPow w m := BitVec.eq_of_toNat_eq (by rw [BitVec.toNat_ofNat, BitVec.toNat_twoPow])
  simp only [bit, BitVec.testBit_toNat, hpow]
  by_cases hn : n < w
  · simp [hn, eq_comm]
  · simp [BitVec.getLsbD_of_ge _ _ (not_lt.mp hn)]

theorem unitCounter_clearCounter_same {n : Nat} (h : n < 16) (s : State) : unitCounter (clearCounter n s) n = 0 := by
  rw [unitCounter_of_lt h, clearCounter, spGet_spErase_same]
  rfl

theorem unitCounter_clearCounter_other {m n : Nat} (hn : n < 16) (h : n ≠ m) (s : State) :
    unitCounter (clearCounter m s) n = unitCounter s n := by
  rw [unitCounter_of_lt hn, unitCounter_of_lt hn, clearCounter, spGet_spErase_other _ _ h]

theorem ovf_clearCounter (m n : Nat) (s : State) :
    bit (clearCounter m s).ev.ovf n = (bit s.ev.ovf n && decide (n ≠ m)) :=
  bit_and_not_pow _ _ _

/-! ## Clearing a VI's view of a fixed counter -/

@[simp] theorem viOf_modVi_same (s : State) (v : ViId) (f : ViState → ViState) : viOf (modVi s v f) v = f (viOf s v) :=
  spGet_spSet_same _ _ _ _

/-- What a page shows of the fixed counters is its VI's own. -/
theorem viCounter_congr_of_fixed {n : Nat} (h : 16 ≤ n) (h' : n < 20) {s t : State} {v : ViId} (hvi : viOf t v = viOf s v) :
    viCounter t v n = viCounter s v n := by
  unfold viCounter
  rw [hvi]
  interval_cases n <;> rfl

theorem viCounter_clearView {m n : Nat} (hm : 16 ≤ m) (hm' : m < 20) (hn : 16 ≤ n) (hn' : n < 20) (v : ViId) (s : State) :
    viCounter (clearView v m s) v n = if n = m then 0 else viCounter s v n := by
  unfold clearView viCounter
  rw [viOf_modVi_same]
  interval_cases m <;> interval_cases n <;> simp [nondetWord, place]

theorem viOverflow_clearView {m n : Nat} (hm : 16 ≤ m) (hn : 16 ≤ n) (v : ViId) (s : State) :
    viOverflow (clearView v m s) v n = (viOverflow s v n && decide (n ≠ m)) := by
  have hovf : (viOf (clearView v m s) v).counters.ovf = (viOf s v).counters.ovf &&& ~~~(BitVec.ofNat 4 (2 ^ (m - 16))) := by
    rw [clearView, viOf_modVi_same]
    dsimp only
    split <;> rfl
  have hindex : n - 16 ≠ m - 16 ↔ n ≠ m := by omega
  rw [viOverflow_of_ge hn, viOverflow_of_ge hn, hovf, bit_and_not_pow, decide_eq_decide.mpr hindex]

/-! ## CLEAR on a page (R663) -/

/-- Counter `n` and its overflow bit read 0 on the page of a VI. -/
def ReadsZero (v : ViId) (n : Nat) (s : State) : Prop := viCounter s v n = 0 ∧ viOverflow s v n = false

/-- A programmable counter that a page does not show reads 0 on it (R661). -/
theorem readsZero_of_hidden {n : Nat} (h : n < 16) {s : State} {v : ViId} (hidden : shownTo s v n = false) : ReadsZero v n s := by
  simp [ReadsZero, viCounter_of_lt h, viOverflow_of_lt h, hidden]

theorem readsZero_clearView {m n : Nat} (hm : 16 ≤ m) (hm' : m < 20) (hn : n < 20) (v : ViId) (s : State) :
    ReadsZero v n (clearView v m s) ↔ n = m ∨ ReadsZero v n s := by
  by_cases hfixed : 16 ≤ n
  · rw [ReadsZero, viCounter_clearView hm hm' hfixed hn, viOverflow_clearView hm hfixed]
    by_cases heq : n = m <;> simp [ReadsZero, heq]
  · have hlt : n < 16 := by omega
    have hne : n ≠ m := by omega
    simp only [ReadsZero, viCounter_of_lt hlt, viOverflow_of_lt hlt, hne, false_or]
    rfl

theorem readsZero_clearCounter {m n : Nat} (hm : m < 16) (hn : n < 20) (v : ViId) (s : State) :
    ReadsZero v n (clearCounter m s) ↔ n = m ∨ ReadsZero v n s := by
  by_cases hlt : n < 16
  · have hshown : shownTo (clearCounter m s) v n = shownTo s v n := rfl
    simp only [ReadsZero, viCounter_of_lt hlt, viOverflow_of_lt hlt, ovf_clearCounter, hshown]
    by_cases heq : n = m
    · simp [heq, unitCounter_clearCounter_same hm]
    · simp [heq, unitCounter_clearCounter_other hlt heq]
  · have hne : n ≠ m := by omega
    have hvi : viOf (clearCounter m s) v = viOf s v := rfl
    simp only [ReadsZero, viCounter_congr_of_fixed (not_lt.mp hlt) hn hvi, viOverflow_of_ge (not_lt.mp hlt), hvi, hne, false_or]

theorem readsZero_clearShown {m n : Nat} (hm : m < 20) (hn : n < 20) (v : ViId) (s : State) :
    ReadsZero v n (clearShown v s m) ↔ n = m ∨ ReadsZero v n s := by
  unfold clearShown
  split_ifs with hfixed hshown
  · exact readsZero_clearView hfixed hm hn v s
  · exact readsZero_clearCounter (not_le.mp hfixed) hn v s
  · have hzero : ReadsZero v m s := readsZero_of_hidden (not_le.mp hfixed) (Bool.eq_false_iff.mpr hshown)
    exact ⟨.inr, fun h => h.elim (fun heq => heq ▸ hzero) id⟩

theorem readsZero_foldl_clearShown {n : Nat} (hn : n < 20) (v : ViId) (l : List Nat) (hl : ∀ m ∈ l, m < 20) (s : State) :
    ReadsZero v n (l.foldl (clearShown v) s) ↔ n ∈ l ∨ ReadsZero v n s := by
  induction l generalizing s with
  | nil => simp
  | cons m rest ih =>
    obtain ⟨hm, hrest⟩ := List.forall_mem_cons.mp hl
    rw [List.foldl_cons, ih hrest, readsZero_clearShown hm hn, List.mem_cons, or_left_comm, or_assoc]

theorem readsZero_clearPage {n : Nat} (hn : n < 20) (v : ViId) (s : State) : ReadsZero v n (clearPage v s) :=
  (readsZero_foldl_clearShown hn v _ (fun _ => List.mem_range.mp) s).mpr (.inl (List.mem_range.mpr hn))

@[simp] theorem clearShown_cfg (v : ViId) (s : State) (n : Nat) : (clearShown v s n).cfg = s.cfg := by
  unfold clearShown
  split_ifs <;> rfl

@[simp] theorem clearShown_pending (v : ViId) (s : State) (n : Nat) : (clearShown v s n).pending = s.pending := by
  unfold clearShown
  split_ifs <;> rfl

@[simp] theorem clearPage_cfg (v : ViId) (s : State) : (clearPage v s).cfg = s.cfg :=
  foldl_keeps State.cfg _ (clearShown_cfg v) _ s

@[simp] theorem clearPage_pending (v : ViId) (s : State) : (clearPage v s).pending = s.pending :=
  foldl_keeps State.pending _ (clearShown_pending v) _ s

theorem readsZero_setFreeze {v : ViId} {n : Nat} {s : State} (b : Bool) (h : ReadsZero v n s) :
    ReadsZero v n (setFreeze b s) := h

theorem evClearRow_of_mgmt {s : State} (h : mgmtAnswers s = true) (freeze : Bool) :
    evClearRow .mgmt freeze s = setFreeze freeze (clearAll (wake s)) := by
  rw [evClearRow, mgmtWrite_of_answers h]

theorem evClearRow_of_reached {port : RegPort} {s : State} {v : ViId} (h : Reached port s v) (freeze : Bool) :
    evClearRow port freeze s = if port = .window then setFreeze freeze (clearPage v (wake s)) else clearPage v (wake s) := by
  cases port with
  | mgmt => exact absurd rfl (ne_mgmt_of_reached h)
  | window => exact pageWrite_of_reached h _
  | foreign requester => exact pageWrite_of_reached h _
  | page covered vi requester be => exact pageWrite_of_reached h _

/-! ## CLEAR on the management page (R663) -/

/-- What holds of the default and of every listed value holds of every value. -/
theorem spGet_of_forall {α : Type} {P : α → Prop} {d : α} {m : Sparse α} (hd : P d) (hm : ∀ e ∈ m, P e.2) (n : Nat) :
    P (spGet d m n) := by
  induction m with
  | nil => exact hd
  | cons e rest ih =>
    obtain ⟨he, hrest⟩ := List.forall_mem_cons.mp hm
    rw [spGet]
    split
    · exact he
    · exact ih hrest

/-- Entries that CLEAR makes equal to the reset value are no longer listed; what is listed has zero counters. -/
theorem viOf_clearAll_counters (s : State) (v : ViId) : (viOf (clearAll s) v).counters = ViCounters.zero := by
  refine spGet_of_forall (P := fun i : ViState => i.counters = ViCounters.zero) rfl (fun e he => ?_) _
  obtain ⟨i, -, rfl⟩ := List.mem_map.mp (List.mem_of_mem_filter he)
  rfl

theorem unitCounter_clearAll {n : Nat} (h : n < 20) (s : State) : unitCounter (clearAll s) n = 0 := by
  by_cases hlt : n < 16
  · rw [unitCounter_of_lt hlt]
    rfl
  · have hfixed : 16 ≤ n := not_lt.mp hlt
    unfold unitCounter clearAll
    interval_cases n <;> simp [Counters.reset, nondetWord, place]

theorem ovf_clearAll (s : State) (n : Nat) : bit (clearAll s).ev.ovf n = false := by
  simp [clearAll, Counters.reset, bit]

theorem readsZero_clearAll {n : Nat} (hn : n < 20) (v : ViId) (s : State) : ReadsZero v n (clearAll s) := by
  by_cases hlt : n < 16
  · simp [ReadsZero, viCounter_of_lt hlt, viOverflow_of_lt hlt, unitCounter_clearAll hn, ovf_clearAll]
  · have hfixed : 16 ≤ n := not_lt.mp hlt
    unfold ReadsZero viCounter
    rw [viOverflow_of_ge hfixed, viOf_clearAll_counters]
    interval_cases n <;> exact ⟨rfl, rfl⟩

/-! ## What the rows come to -/

theorem exec_evSelect (port : RegPort) (n : Fin 16) (x : W32) (s : State) :
    exec (.evSelect port n x) s = register (evSelectRow port n x) s := rfl

theorem exec_evCount (port : RegPort) (n : Fin 16) (x : W64) (s : State) :
    exec (.evCount port n x) s = command (evCountRow port n x) s := rfl

theorem exec_evCtrlClear (port : RegPort) (freeze : Bool) (s : State) :
    exec (.evCtrlClear port freeze) s = register (evClearRow port freeze) s := rfl

end Sys2Proof.Machine

open Sys2Proof Sys2Proof.Machine Sys2Proof.Claims

/-- Settles O40, by what each row comes to at its port: a selection write keeps or zeroes its counter, a count write sets one counter,
and CLEAR goes through the counters that a page shows, or resets them all. -/
theorem selectionsAndCountersAreSet : Obligations.SelectionsAndCountersAreSet := by
  unfold Obligations.SelectionsAndCountersAreSet
  intro port n s x
  refine ⟨fun hport hknown => ?select, fun hport hreserved => ?reserved, fun v hwindow hreached => ⟨?page, ?hidden⟩, ?count,
    fun y v hreached hhidden => ?countHidden, ?clearAll, ?clearPage⟩
  case select =>
    obtain ⟨e, c, hsets⟩ := selectWrite_sets (wake s) n x
    have hrow : evSelectRow port n x s = selectWrite n x (wake s) := by rw [evSelectRow_of_counterPort hport, if_pos hknown]
    refine ⟨_, (exec_evSelect ..).trans (register_eq hrow (by simp [hsets, setSelect])), ?_, ?_, ?_, ?_, ?_⟩
    · intro m hm
      rw [hsets, evSelectOf_setSelect_other hm]
      exact evSelectOf_wake s m
    · intro v
      simp [hsets, setSelect, cfgVi]
    · simp [hsets, setSelect]
    · intro hall hvi
      rw [selectWrite_of_same (by simpa using hall) (by simpa using hvi)]
      exact ⟨evSelectOf_setSelect_same .., wake_ev s⟩
    · intro hchange
      rw [selectWrite_of_retargets (by simpa [Retargets] using hchange)]
      exact ⟨evSelectOf_setSelect_same .., unitCounter_clearCounter_same n.isLt _,
        (ovf_clearCounter n n (wake s)).trans (by simp)⟩
  case reserved =>
    exact (exec_evSelect ..).trans (register_eq (by simp [evSelectRow_of_counterPort hport, hreserved]) (by simp))
  case page =>
    intro hknown hshown
    refine ⟨_, (exec_evSelect ..).trans (register_eq ((evSelectRow_of_page hwindow hreached).trans
      (if_neg (by simp [hknown, hshown]))) (by simp [setSelect])), wake_ev s, evSelectOf_setSelect_same .., fun m hm => ?_⟩
    rw [evSelectOf_setSelect_other hm, evSelectOf_wake]
  case hidden =>
    intro hignored
    exact (exec_evSelect ..).trans (register_eq ((evSelectRow_of_page hwindow hreached).trans (if_pos hignored)) (by simp))
  case count =>
    intro y hport
    refine ⟨_, (exec_evCount ..).trans (command_eq (evCountRow_of_settable hport) (by simp [setCount]) (by simp [setCount])),
      by simp [setCount], unitCounter_setCount_same n.isLt y _, fun m hm hne => ?_⟩
    rw [unitCounter_setCount_other hm hne, unitCounter_of_lt hm, unitCounter_of_lt hm, wake_ev]
  case countHidden =>
    exact (exec_evCount ..).trans (command_eq ((evCountRow_of_reached hreached).trans (if_neg (by simp [hhidden])))
      (by simp) (by simp))
  case clearAll =>
    rintro freeze rfl hanswers
    refine ⟨_, (exec_evCtrlClear ..).trans (register_eq (evClearRow_of_mgmt hanswers freeze) (by simp [setFreeze, clearAll])),
      by simp [setFreeze, clearAll], fun m hm => ⟨unitCounter_clearAll hm (wake s), ovf_clearAll (wake s) m⟩,
      fun v m hm => readsZero_setFreeze freeze (readsZero_clearAll hm v (wake s))⟩
  case clearPage =>
    intro freeze v hreached
    refine ⟨_, (exec_evCtrlClear ..).trans (register_eq (evClearRow_of_reached hreached freeze) ?_), ?_, fun m hm => ?_⟩
    · split_ifs <;> simp [setFreeze]
    · split_ifs <;> simp [setFreeze]
    · have hzero := readsZero_clearPage hm v (wake s)
      split_ifs
      · exact readsZero_setFreeze freeze hzero
      · exact hzero

end

section
/-! SUPPORT. No row brings a reserved encoding into a field that software sets (R637): which rows keep those fields, and how those
that set one check it. -/

namespace Sys2Proof.Machine

open Sys2Proof.Claims

/-! ## Fields without reserved encodings -/

theorem cfgLegal_iff (c : Cfg) : cfgLegal c = true ↔ 2 ≤ c.trmPoint.toNat ∧ 16 ≤ c.traceLog2.toNat ∧ c.traceLog2.toNat ≤ 32
    ∧ (∀ x ∈ c.vi, modeLegal x.2.mode = true) ∧ ∀ x ∈ c.select, selectLegal x.2 = true := by
  simp [cfgLegal, and_assoc]

/-- What is written into a sparse map is all that it holds beside what it held. -/
theorem mem_spSet {α : Type} [DecidableEq α] {d : α} {m : Sparse α} {n : Nat} {x : α} {e : Nat × α} (h : e ∈ spSet d m n x) :
    e.2 = x ∨ e ∈ m := by
  have herase : ∀ m : Sparse α, e ∈ spErase m n → e ∈ m := by
    intro m
    induction m with
    | nil => exact id
    | cons y rest ih =>
      simp only [spErase]
      split
      · exact fun h => List.mem_cons_of_mem _ (ih h)
      · intro h
        rcases List.mem_cons.mp h with rfl | h
        · exact List.mem_cons_self
        · exact List.mem_cons_of_mem _ (ih h)
  have hput : ∀ m : Sparse α, e ∈ spPut m n x → e.2 = x ∨ e ∈ m := by
    intro m
    induction m with
    | nil => simp +contextual [spPut]
    | cons y rest ih =>
      simp only [spPut]
      split_ifs <;> grind
  unfold spSet at h
  split_ifs at h
  · exact .inr (herase m h)
  · exact hput m h

/-- A meaning that leaves no reserved encoding where there was none. -/
def KeepsLegal (f : State → State) : Prop := ∀ s, cfgLegal s.cfg = true → cfgLegal (f s).cfg = true

theorem KeepsLegal.of_cfg {f : State → State} (h : ∀ s, (f s).cfg = s.cfg) : KeepsLegal f := fun s hs => (h s).symm ▸ hs

theorem KeepsLegal.comp {f g : State → State} (hf : KeepsLegal f) (hg : KeepsLegal g) : KeepsLegal (fun s => f (g s)) :=
  fun s hs => hf _ (hg s hs)


/-! ## Rows that keep them -/

@[simp] theorem startCtxRead_cfg (ring : Nat) (s : State) : (startCtxRead ring s).cfg = s.cfg := by
  unfold startCtxRead; split_ifs <;> rfl

@[simp] theorem dropChoice_cfg (ring : Nat) (s : State) : (dropChoice ring s).cfg = s.cfg := by
  unfold dropChoice; split <;> (try split_ifs) <;> rfl

@[simp] theorem setResult_cfg (v : ViId) (n : Byte) (s : State) : (setResult v n s).cfg = s.cfg := rfl

@[simp] theorem disableRing_cfg (ring : Nat) (s : State) : (disableRing ring s).cfg = s.cfg := (disableRing_stays ring s).cfg

@[simp] theorem skipAll_cfg (ring : Nat) (s : State) : (skipAll ring s).cfg = s.cfg := (skipAll_stays ring s).cfg

@[simp] theorem traceChoice_cfg (type : Nat) (vi : Option ViId) (a b c : Nat) (s : State) :
    (traceChoice type vi a b c s).cfg = s.cfg := (traceChoice_aside type vi a b c s).cfg

@[simp] theorem nextBoundaryIf_cfg (p : Bool) (s : State) : (if p then nextBoundary s else s).cfg = s.cfg := by
  split <;> rfl

@[simp] theorem tolViolations_cfg (s : State) : (tolViolations s).cfg = s.cfg := by
  unfold tolViolations
  split_ifs
  · rfl
  · refine foldl_keeps State.cfg _ (fun s e => ?_) _ _
    dsimp only
    split_ifs <;> simp

@[simp] theorem applyDoorbell_cfg (v : ViId) (ring : Nat) (tail : W32) (s : State) : (applyDoorbell v ring tail s).cfg = s.cfg := by
  unfold applyDoorbell
  dsimp only
  split
  · simp
  · rw [nextBoundaryIf_cfg]
    split <;> (try split_ifs) <;> simp

@[simp] theorem createRing_cfg (v : ViId) (ring : Nat) (image : BitVec 512) (s : State) :
    (createRing v ring image s).cfg = s.cfg := by
  simp [createRing]

@[simp] theorem applyAction_cfg (a : PageAction) (s : State) : (applyAction a s).cfg = s.cfg := by
  unfold applyAction
  cases a.action with
  | doorbell tail => simp
  | create image => dsimp only; split_ifs <;> simp
  | resume => dsimp only; split <;> (try split_ifs) <;> simp
  | pause => dsimp only; split <;> (try split_ifs) <;> simp
  | destroy => dsimp only; split <;> simp

@[simp] theorem requestAction_cfg (a : PageAction) (s : State) : (requestAction a s).cfg = s.cfg := by
  unfold requestAction
  split
  · dsimp only; split_ifs <;> simp
  · simp

@[simp] theorem resetRing_cfg (s : State) (ring : Nat) : (resetRing s ring).cfg = s.cfg := by
  unfold resetRing
  dsimp only
  split_ifs <;> simp

@[simp] theorem invalidateChain_cfg (c : Nat) (s : State) : (invalidateChain c s).cfg = s.cfg := by
  unfold invalidateChain
  dsimp only
  rw [(storeRelease_aside _).cfg, (setChain_aside _ _ _).cfg, (wakeConsumer_aside _ _).cfg]
  refine foldl_keeps State.cfg _ (fun s x => ?_) _ _
  split_ifs
  · exact (failEpoch_aside _ _ _ _).cfg
  · rfl

@[simp] theorem viResetCheck_cfg (s : State) : (viResetCheck s).cfg = s.cfg := (viResetCheck_stays s).cfg

@[simp] theorem suspendRing_cfg (rc : RunCmd) (s : State) : (suspendRing rc s).cfg = s.cfg := by
  simp [suspendRing, (touchSave_works _ _ _ _ _).cfg]

@[simp] theorem enterHoldup_cfg (s : State) : (enterHoldup s).cfg = s.cfg := by
  simp only [enterHoldup, fullSlots_cfg]
  split <;> simp

@[simp] theorem traceSpace_cfg (s : State) : (traceSpace s).cfg = s.cfg := by
  have hflush := (traceFlush_aside s).cfg
  simp only [traceSpace]
  split_ifs <;> simp [(traceNow_aside _ _ _ _ _ _ _).cfg, hflush]

@[simp] theorem clearCounter_cfg (n : Nat) (s : State) : (clearCounter n s).cfg = s.cfg := rfl

theorem reachPage_cfg (port : RegPort) (s : State) : (reachPage port s).2.cfg = s.cfg := by
  unfold reachPage
  split <;> (try split_ifs) <;> simp

/-! ## Writes that set a field -/

section

variable {f g : State → State}

theorem KeepsLegal.ite {p : Prop} [Decidable p] (hf : KeepsLegal f) (hg : KeepsLegal g) :
    KeepsLegal (fun s => if p then f s else g s) := by
  split
  · exact hf
  · exact hg

theorem KeepsLegal.iteOf {p : State → Prop} [DecidablePred p] (hf : KeepsLegal f) (hg : KeepsLegal g) :
    KeepsLegal (fun s => if p s then f s else g s) := by
  intro s hs
  dsimp only
  split
  · exact hf s hs
  · exact hg s hs

end

theorem pageWrite_keepsLegal (port : RegPort) {body : ViId → State → State} (h : ∀ v, KeepsLegal (body v)) :
    KeepsLegal (pageWrite port body) := by
  intro s hs
  have hreach := reachPage_cfg port s
  unfold pageWrite
  split
  next s1 hnone => rw [hnone] at hreach; exact hreach ▸ hs
  next v s1 hsome =>
    rw [hsome] at hreach
    split
    · rw [portIgnored_cfg, hreach]; exact hs
    · exact h v s1 (hreach ▸ hs)

theorem mgmtWrite_keepsLegal {body : State → State} (h : KeepsLegal body) : KeepsLegal (mgmtWrite body) :=
  .iteOf (h.comp (.of_cfg wake_cfg)) (.of_cfg fun _ => rfl)

theorem steerWrite_keepsLegal (port : RegPort) {body : ViId → State → State} (h : ∀ v, KeepsLegal (body v)) :
    KeepsLegal (steerWrite port body) := by
  cases port with
  | page => exact pageWrite_keepsLegal _ fun v => .iteOf (h v) (.of_cfg fun _ => rfl)
  | window => exact .iteOf (.of_cfg fun s => by simp) (.of_cfg fun _ => rfl)
  | foreign r => exact .of_cfg (reachPage_cfg _)
  | mgmt => exact .of_cfg fun _ => rfl

/-- The fields of one VI but VI_MODE have no reserved encodings. -/
theorem modCfgVi_keepsLegal (v : ViId) (f : ViCfg → ViCfg) (hf : ∀ c, modeLegal c.mode = true → modeLegal (f c).mode = true) :
    KeepsLegal (modCfgVi v f) := by
  intro s hs
  rw [cfgLegal_iff] at hs ⊢
  obtain ⟨hpoint, hlow, hhigh, hvi, hselect⟩ := hs
  refine ⟨hpoint, hlow, hhigh, fun x hx => ?_, hselect⟩
  rcases mem_spSet hx with hnew | hold
  · rw [hnew]
    exact hf _ (spGet_of_forall (P := fun c : ViCfg => modeLegal c.mode = true) (by decide) hvi v.toNat)
  · exact hvi x hold

theorem setSelect_keepsLegal (n : Nat) (x : EvSelect) (hx : selectLegal x = true) : KeepsLegal (setSelect n x) := by
  intro s hs
  rw [cfgLegal_iff] at hs ⊢
  obtain ⟨hpoint, hlow, hhigh, hvi, hselect⟩ := hs
  refine ⟨hpoint, hlow, hhigh, hvi, fun y hy => ?_⟩
  rcases mem_spSet hy with hnew | hold
  · rwa [hnew]
  · exact hselect y hold

/-- A meaning that leaves the fields with reserved encodings as they are. -/
theorem KeepsLegal.of_fields {f : State → State} (h : ∀ s, (f s).cfg.trmPoint = s.cfg.trmPoint
    ∧ (f s).cfg.traceLog2 = s.cfg.traceLog2 ∧ (f s).cfg.vi = s.cfg.vi ∧ (f s).cfg.select = s.cfg.select) : KeepsLegal f := by
  intro s hs
  obtain ⟨hpoint, hsize, hvi, hselect⟩ := h s
  rw [cfgLegal_iff] at hs ⊢
  rwa [hpoint, hsize, hvi, hselect]

theorem setFreeze_keepsLegal (b : Bool) : KeepsLegal (setFreeze b) := .of_fields fun _ => ⟨rfl, rfl, rfl, rfl⟩

/-! ## Event selections (R660 to R662) -/

theorem field_lt_pow {w : Nat} (x : BitVec w) (hi lo : Nat) : field x hi lo < 2 ^ (hi + 1 - lo) := Nat.mod_lt _ (by positivity)

theorem selectLegal_of_known {w : Nat} {x : BitVec w} (h : eventKnown (field x 7 0) = true) (allVi en : Bool) (v : ViId) :
    selectLegal ⟨allVi, v, en, BitVec.ofNat 8 (field x 7 0)⟩ = true := by
  have hlt : field x 7 0 < 2 ^ 8 := field_lt_pow x 7 0
  rw [selectLegal, BitVec.toNat_ofNat, Nat.mod_eq_of_lt hlt]
  exact h

theorem selectLegal_zero (allVi : Bool) (v : ViId) : selectLegal ⟨allVi, v, false, 0⟩ = true := rfl

theorem selectWrite_keepsLegal (n : Nat) (x : W32) (hx : eventKnown (field x 7 0) = true) : KeepsLegal (selectWrite n x) :=
  .iteOf (setSelect_keepsLegal n _ (selectLegal_of_known hx _ _ _))
    ((setSelect_keepsLegal n _ (selectLegal_zero _ _)).comp (.of_cfg (clearCounter_cfg n)))

theorem evSelectRow_keepsLegal (port : RegPort) (n : Nat) (x : W32) : KeepsLegal (evSelectRow port n x) := by
  cases hknown : eventKnown (field x 7 0) with
  | true =>
    have hwrite := selectWrite_keepsLegal n x hknown
    have hpage : KeepsLegal (pageWrite port fun v s =>
        if false || !shownTo s v n then portIgnored port s
        else if port = .window then selectWrite n x s
        else setSelect n { evSelectOf s n with en := bit x 8, event := BitVec.ofNat 8 (field x 7 0) } s) :=
      pageWrite_keepsLegal port fun v => .iteOf (.of_cfg (portIgnored_cfg port)) (.ite hwrite
        fun s hs => setSelect_keepsLegal n _ (selectLegal_of_known hknown _ _ _) s hs)
    unfold evSelectRow
    rw [hknown]
    cases port with
    | mgmt => exact mgmtWrite_keepsLegal (.ite (.of_cfg mgIgnored_cfg) hwrite)
    | window | foreign | page => exact hpage
  | false =>
    unfold evSelectRow
    rw [hknown]
    have hpage : ∀ p, KeepsLegal (pageWrite p fun _ s => portIgnored p s) :=
      fun p => pageWrite_keepsLegal p fun _ => .of_cfg (portIgnored_cfg p)
    cases port with
    | mgmt => exact mgmtWrite_keepsLegal (.of_cfg mgIgnored_cfg)
    | window | foreign | page => exact hpage _

theorem evCountRow_keepsLegal (port : RegPort) (n : Nat) (x : W64) : KeepsLegal (evCountRow port n x) := by
  have hset : KeepsLegal (setCount n x) := .of_cfg fun _ => rfl
  have hpage : KeepsLegal (pageWrite port fun v s => if shownTo s v n then setCount n x s else portIgnored port s) :=
    pageWrite_keepsLegal port fun v => .iteOf hset (.of_cfg (portIgnored_cfg port))
  cases port with
  | mgmt => exact mgmtWrite_keepsLegal hset
  | window | foreign | page => exact hpage

theorem evClearRow_keepsLegal (port : RegPort) (freeze : Bool) : KeepsLegal (evClearRow port freeze) := by
  have hpage : ∀ v, KeepsLegal (clearPage v) := fun v => .of_cfg (clearPage_cfg v)
  cases port with
  | mgmt => exact mgmtWrite_keepsLegal ((setFreeze_keepsLegal freeze).comp (.of_cfg fun _ => rfl))
  | window => exact pageWrite_keepsLegal _ fun v => (setFreeze_keepsLegal freeze).comp (hpage v)
  | foreign | page => exact pageWrite_keepsLegal _ hpage

theorem resetCounter_keepsLegal (v : ViId) (n : Nat) : KeepsLegal (fun s => resetCounter v s n) :=
  .iteOf (fun _ hs => setSelect_keepsLegal n _ (selectLegal_zero _ _) _ hs) (.of_cfg fun _ => rfl)

/-! ## The registers of a VI page (R654 to R658) -/

theorem toleranceRow_keepsLegal (port : RegPort) (x : W64) : KeepsLegal (toleranceRow port x) :=
  pageWrite_keepsLegal port fun v => modCfgVi_keepsLegal v _ fun _ h => h

theorem digestBaseRow_keepsLegal (port : RegPort) (x : W64) : KeepsLegal (digestBaseRow port x) :=
  pageWrite_keepsLegal port fun v => .iteOf (.of_cfg (portIgnored_cfg port)) (modCfgVi_keepsLegal v _ fun _ h => h)

theorem ringsRow_keepsLegal (x : W64) : KeepsLegal (ringsRow x) :=
  pageWrite_keepsLegal .window fun v => .iteOf (modCfgVi_keepsLegal v _ fun _ h => h) (.of_cfg mgIgnored_cfg)

theorem tumblerInvalRow_keepsLegal (port : RegPort) (x : W64) : KeepsLegal (tumblerInvalRow port x) :=
  pageWrite_keepsLegal port fun _ => .iteOf (.of_cfg fun _ => rfl) (.of_cfg fun _ => rfl)

theorem doorbell_keepsLegal (port : RegPort) (x : W64) (v : ViId) : KeepsLegal (doorbell port x v) := by
  refine .of_cfg fun s => ?_
  unfold doorbell
  split
  · simp
  · dsimp only
    split_ifs <;> simp

theorem ringControl_keepsLegal (port : RegPort) (index : BitVec 18) (action : ViCfg → RingAction) (v : ViId) :
    KeepsLegal (ringControl port index action v) := by
  have hring : KeepsLegal (modCfgVi v fun c => { c with ctrlRing := index }) := modCfgVi_keepsLegal v _ fun _ h => h
  have hrest : ∀ s, (ringControl port index action v s).cfg = (modCfgVi v (fun c => { c with ctrlRing := index }) s).cfg := by
    intro s
    unfold ringControl modCfgVi
    dsimp only
    split
    · split <;> simp
    · split_ifs <;> simp
  exact fun s hs => (hrest s).symm ▸ hring s hs

/-- VI_MODE that is good holds no reserved encoding (R655). -/
theorem modeLegal_viModeOf {x : W64} (h : viModeGood x = true) : modeLegal (viModeOf x) = true := by
  have hrnd : field x 4 2 < 2 ^ 3 := field_lt_pow x 4 2
  have hpol : field x 12 11 < 2 ^ 2 := field_lt_pow x 12 11
  rw [modeLegal, viModeOf, BitVec.toNat_ofNat, BitVec.toNat_ofNat, Nat.mod_eq_of_lt hrnd, Nat.mod_eq_of_lt hpol]
  exact h

theorem clearShownOvf_keepsLegal (v : ViId) (x : Nat) : KeepsLegal (clearShownOvf v x) := by
  refine .of_cfg fun s => foldl_keeps State.cfg _ (fun s n => ?_) _ s
  dsimp only
  split_ifs <;> rfl

/-- Every register of a VI page, in the order of the map (R654). -/
theorem viPageWrite_keepsLegal (port : RegPort) (off : Nat) (x : W64) : KeepsLegal (viPageWrite port off x) := by
  have hset : ∀ f : ViCfg → ViCfg, (∀ c, modeLegal c.mode = true → modeLegal (f c).mode = true) →
      KeepsLegal (pageWrite port fun v s => modCfgVi v f s) := fun f hf => pageWrite_keepsLegal port fun v => modCfgVi_keepsLegal v f hf
  have hnone : KeepsLegal (pageWrite port fun _ s => portIgnored port s) := pageWrite_keepsLegal port fun _ => .of_cfg (portIgnored_cfg port)
  have hmodVi : ∀ f : ViState → ViState, KeepsLegal (pageWrite port fun v s => modVi s v f) :=
    fun f => pageWrite_keepsLegal port fun v => .of_cfg fun _ => rfl
  have hlocal : ∀ f : ViCfg → ViCfg, (∀ c, modeLegal c.mode = true → modeLegal (f c).mode = true) → KeepsLegal
      (if decide (port = .window) then pageWrite port fun v s => modCfgVi v f s else pageWrite port fun _ s => portIgnored port s) := by
    intro f hf
    split
    · exact hset f hf
    · exact hnone
  have hcontrol : KeepsLegal fun s => match ringAction (field x 22 20) with
      | some a => steerWrite port (ringControl port (BitVec.ofNat 18 (field x 17 0)) a) s
      | none => pageWrite port (fun _ s => portIgnored port s) s := by
    cases ringAction (field x 22 20) with
    | some a => exact steerWrite_keepsLegal port (ringControl_keepsLegal port _ a)
    | none => exact hnone
  have hmode : KeepsLegal fun s => if viModeGood x then pageWrite port (fun v s => modCfgVi v (fun c => { c with mode := viModeOf x }) s) s
      else pageWrite port (fun _ s => portIgnored port s) s := by
    cases hgood : viModeGood x with
    | true => exact hset _ fun _ _ => modeLegal_viModeOf hgood
    | false => exact hnone
  unfold viPageWrite
  exact .ite (steerWrite_keepsLegal port (doorbell_keepsLegal port x)) <|
    .ite hcontrol <|
    .ite hmode <|
    .ite (hset _ fun _ h => h) <|
    .ite (toleranceRow_keepsLegal port x) <|
    .ite (hmodVi _) <|
    .ite (hlocal _ fun _ h => h) <|
    .ite (.ite (ringsRow_keepsLegal x) hnone) <|
    .ite (tumblerInvalRow_keepsLegal port x) <|
    .ite (hset _ fun _ h => h) <|
    .ite (digestBaseRow_keepsLegal port x) <|
    .ite (hlocal _ fun _ h => h) <|
    .ite (hset _ fun _ h => h) <|
    .ite (hmodVi _) <|
    .ite (evSelectRow_keepsLegal port _ _) <|
    .ite (evCountRow_keepsLegal port _ _) <|
    .ite (.ite (evClearRow_keepsLegal port _) (.ite (pageWrite_keepsLegal port fun _ => setFreeze_keepsLegal _) hnone)) <|
    .ite (pageWrite_keepsLegal port fun v => clearShownOvf_keepsLegal v _) hnone

/-! ## Resets, power and test access -/

theorem resetCfg_legal {c : Cfg} (h : cfgLegal c = true) : cfgLegal (resetCfg c) = true := by
  rw [cfgLegal_iff] at h ⊢
  obtain ⟨hpoint, hlow, hhigh, hvi, hselect⟩ := h
  refine ⟨hpoint, hlow, hhigh, fun x hx => ?_, hselect⟩
  obtain ⟨y, hy, rfl⟩ := List.mem_map.mp (List.mem_filter.mp hx).1
  exact hvi y hy

theorem resetUnit_keepsLegal : KeepsLegal resetUnit := .iteOf (fun _ hs => resetCfg_legal hs) (.of_cfg fun _ => rfl)

/-- A row that leaves the configuration's defaults in those fields. -/
theorem KeepsLegal.of_reset {f : State → State}
    (h : ∀ s, ∃ autoOff floor ceil, (f s).cfg = { Cfg.reset with autoOff := autoOff, floor := floor, ceil := ceil }) : KeepsLegal f := by
  intro s _
  obtain ⟨autoOff, floor, ceil, hcfg⟩ := h s
  rw [hcfg]
  rfl

theorem testRequest_keepsLegal : KeepsLegal testRequest :=
  .iteOf (.of_reset fun _ => ⟨_, _, _, rfl⟩) (.of_cfg fun _ => rfl)

theorem powerLost_keepsLegal : KeepsLegal powerLost := .of_reset fun _ => ⟨_, _, _, rfl⟩

theorem applyPending_cfg (s : State) : (applyPending s).cfg = s.cfg := by
  unfold applyPending
  split_ifs <;> simp

theorem powerUpDone_keepsLegal : KeepsLegal powerUpDone := by
  refine .iteOf (.of_reset fun s => ⟨s.cfg.autoOff, s.cfg.floor, s.cfg.ceil, ?_⟩) (.of_cfg fun _ => rfl)
  dsimp only
  split_ifs
  · rw [enterHoldup_cfg]
  · rw [applyPending_cfg]

theorem powerOff_cfg (s : State) : (powerOff s).cfg = s.cfg := by
  unfold powerOff
  split
  · rfl
  · split
    case h_6 => split <;> rfl
    all_goals simp [leaveThenDown, holdRequest]

theorem powerOn_cfg (s : State) : (powerOn s).cfg = s.cfg := by
  unfold powerOn
  split_ifs
  · rfl
  · split <;> simp [beginPowerUp, holdRequest]

/-- A request of MG_POWER_CTRL sets AUTO_OFF, CEIL and a FLOOR of at least CEIL (R585). -/
theorem powerFields_cfg (autoOff : Bool) (floor ceil : BitVec 3) (s : State) :
    (powerFields autoOff floor ceil s).cfg
      = { s.cfg with autoOff := autoOff, ceil := ceil, floor := if floor.toNat < ceil.toNat then ceil else floor } := by
  simp only [powerFields]
  split_ifs <;> simp

theorem powerFields_keepsLegal (autoOff : Bool) (floor ceil : BitVec 3) : KeepsLegal (powerFields autoOff floor ceil) := by
  intro s hs
  rw [powerFields_cfg]
  exact hs

theorem powerOffRow_keepsLegal (autoOff : Bool) (floor ceil : BitVec 3) : KeepsLegal (powerOffRow autoOff floor ceil) :=
  mgmtWrite_keepsLegal ((KeepsLegal.of_cfg powerOff_cfg).comp (powerFields_keepsLegal _ _ _))

theorem powerOnRow_keepsLegal (autoOff : Bool) (floor ceil : BitVec 3) : KeepsLegal (powerOnRow autoOff floor ceil) := by
  have hon : KeepsLegal fun s => powerOn (powerFields autoOff floor ceil s) :=
    (KeepsLegal.of_cfg powerOn_cfg).comp (powerFields_keepsLegal _ _ _)
  exact .iteOf (hon.comp (.of_cfg fun _ => rfl)) (mgmtWrite_keepsLegal hon)

/-! ## The management page (R638 to R653) -/

theorem fenceSet_cfg (handover : Bool) (s : State) : (fenceSet handover s).cfg = s.cfg := by
  simp only [fenceSet]
  split_ifs <;> rfl

theorem readWork_cfg (covered : Bool) (s : State) : (readWork covered s).cfg = s.cfg :=
  foldl_keeps State.cfg _ (fun s r => startCtxRead_cfg r s) _ s

theorem fenceClear_cfg (handover : Bool) (s : State) : (fenceClear handover s).cfg = s.cfg := by
  unfold fenceClear
  split_ifs with hfence hstays hactive
  · rfl
  · simp
  · rw [readWork_cfg, returnCredits_cfg]
  · rw [readWork_cfg]

theorem releaseCover_cfg (s : State) : (releaseCover s).cfg = s.cfg := by
  unfold releaseCover
  split_ifs <;> rfl

theorem setCover_cfg (clean : Bool) (s : State) : (setCover clean s).cfg = s.cfg := by
  simp only [setCover]
  split_ifs
  · rfl
  · rw [readWork_cfg]; rfl

theorem debugTumbler_cfg (stage : Nat) (x : W64) (s : State) : (debugTumbler stage x s).cfg = s.cfg := by
  unfold debugTumbler
  split_ifs
  · split <;> simp
  · simp

/-- TRM_POINT 0 and 1 are refused (R516). -/
theorem detControl_keepsLegal (x : W32) : KeepsLegal (detControl x) := by
  intro s hs
  unfold detControl
  split_ifs with hbad
  · rwa [mgIgnored_cfg]
  · have hpoint : 2 ≤ field x 6 4 := by
      by_contra hlow
      exact hbad (by simp [Nat.lt_of_not_le hlow])
    have hlt : field x 6 4 < 2 ^ 3 := field_lt_pow x 6 4
    have hfollow : ∀ p u, (followPoint p u).cfg = u.cfg := by
      intro p u
      simp only [followPoint]
      split_ifs <;> simp
    rw [hfollow]
    rw [cfgLegal_iff] at hs ⊢
    obtain ⟨-, hrest⟩ := hs
    refine ⟨?_, hrest⟩
    rwa [BitVec.toNat_ofNat, Nat.mod_eq_of_lt hlt]

theorem traceRead_keepsLegal (x : W32) : KeepsLegal (traceRead x) := by
  intro s hs
  rw [traceRead, traceSpace_cfg]
  exact hs

theorem setCtxBase_keepsLegal (x : W64) : KeepsLegal (setCtxBase x) := by
  intro s hs
  unfold setCtxBase
  split_ifs
  · rwa [mgIgnored_cfg]
  · have hback : (List.foldl (fun s e => writeBackCtx e s) s (s.rings.cache.filter fun e => !isCovered e.ring)).cfg = s.cfg :=
      foldl_keeps State.cfg _ (fun s e => (writeBackCtx_aside e s).cfg) _ s
    dsimp only
    rw [hback]
    exact hs

theorem resetVi_keepsLegal (v : ViId) : KeepsLegal (resetVi v) := by
  intro s hs
  unfold resetVi
  split_ifs
  · rwa [mgIgnored_cfg]
  · dsimp only
    rw [viResetCheck_cfg]
    have hcounters : ∀ (l : List Nat) (u : State), cfgLegal u.cfg = true → cfgLegal (l.foldl (resetCounter v) u).cfg = true := by
      intro l
      induction l with
      | nil => exact fun _ hu => hu
      | cons n rest ih => exact fun u hu => ih _ (resetCounter_keepsLegal v n u hu)
    generalize List.range 16 = counters
    refine hcounters counters _ ?_
    rw [modVi_cfg, foldl_keeps State.cfg _ (fun s c => invalidateChain_cfg c s),
      foldl_keeps State.cfg _ (fun s h => putSlot_cfg s h _), foldl_keeps State.cfg _ (fun s r => resetRing_cfg s r)]
    exact hs

theorem writeFence_keepsLegal (x : W128) : KeepsLegal (writeFence x) :=
  .ite (resetUnit_keepsLegal.comp (.of_cfg fun _ => rfl)) (.ite (.of_cfg (fenceSet_cfg _)) (.of_cfg (fenceClear_cfg _)))

theorem writeTwin_keepsLegal (x : W128) : KeepsLegal (writeTwin x) := by
  refine .of_cfg fun s => ?_
  unfold writeTwin
  dsimp only
  split
  · rw [setIndependent, releaseCover_cfg]; rfl
  · simp [setLockstep, twinFields, releaseCover_cfg]
  · rw [setCover_cfg]
  · simp

theorem writePower_keepsLegal (x : W128) : KeepsLegal (writePower x) := by
  intro s hs
  unfold writePower
  dsimp only
  have hfields := powerFields_keepsLegal (bit x 11) (BitVec.ofNat 3 (field x 10 8)) (BitVec.ofNat 3 (field x 6 4)) s hs
  split
  · exact hfields
  · rwa [powerOn_cfg]
  · rwa [powerOff_cfg]
  · rwa [mgIgnored_cfg]

theorem writeKeyLoad_keepsLegal (x : W128) : KeepsLegal (writeKeyLoad x) := by
  refine .of_cfg fun s => ?_
  unfold writeKeyLoad
  split <;> simp [eraseKey, eraseKeys]

theorem clearEntry_cfg (i : Nat) (x : W128) (s : State) : (clearEntry i x s).cfg = s.cfg := by
  unfold clearEntry
  split_ifs <;> rfl

/-- The trace ring holds 2^16 to 2^32 bytes (R651). -/
theorem traceSize_keepsLegal (x : W128) : KeepsLegal fun s =>
    if traceHeld s || decide (field x 5 0 < 16) || decide (32 < field x 5 0) then mgIgnored s
    else { s with cfg := { s.cfg with traceLog2 := BitVec.ofNat 6 (field x 5 0) } } := by
  intro s hs
  dsimp only
  split_ifs with hbad
  · rwa [mgIgnored_cfg]
  · simp only [Bool.or_eq_true, decide_eq_true_eq, not_or, Nat.not_lt] at hbad
    obtain ⟨⟨-, hlow⟩, hhigh⟩ := hbad
    rw [cfgLegal_iff] at hs ⊢
    obtain ⟨hpoint, -, -, hrest⟩ := hs
    have hlt : field x 5 0 < 2 ^ 6 := field_lt_pow x 5 0
    refine ⟨hpoint, ?_, ?_, hrest⟩ <;> rwa [BitVec.toNat_ofNat, Nat.mod_eq_of_lt hlt]

/-- Every register of the management page, in the order of the map (R638). -/
theorem mgWriteWhole_keepsLegal (off : Nat) (x : W128) : KeepsLegal (mgWriteWhole off x) := by
  unfold mgWriteWhole
  exact .ite (.of_fields fun _ => ⟨rfl, rfl, rfl, rfl⟩) <|
    .ite (writeFence_keepsLegal x) <|
    .ite (writeTwin_keepsLegal x) <|
    .ite (writePower_keepsLegal x) <|
    .ite (.of_fields fun _ => ⟨rfl, rfl, rfl, rfl⟩) <|
    .ite (.of_fields fun _ => ⟨rfl, rfl, rfl, rfl⟩) <|
    .ite (writeKeyLoad_keepsLegal x) <|
    .ite (.of_fields fun _ => ⟨rfl, rfl, rfl, rfl⟩) <|
    .ite (resetVi_keepsLegal _) <|
    .ite (detControl_keepsLegal _) <|
    .ite (.of_fields fun _ => ⟨rfl, rfl, rfl, rfl⟩) <|
    .ite (setCtxBase_keepsLegal _) <|
    .ite (.of_fields fun _ => ⟨rfl, rfl, rfl, rfl⟩) <|
    .ite (.iteOf (.of_cfg mgIgnored_cfg) (.of_fields fun _ => ⟨rfl, rfl, rfl, rfl⟩)) <|
    .ite (traceSize_keepsLegal x) <|
    .ite (traceRead_keepsLegal _) <|
    .ite (.of_cfg (clearEntry_cfg _ x)) <|
    .ite (.of_cfg (debugTumbler_cfg _ _)) <|
    .ite (evSelectRow_keepsLegal .mgmt _ _) <|
    .ite (evCountRow_keepsLegal .mgmt _ _) <|
    .ite (.ite (evClearRow_keepsLegal .mgmt _) (setFreeze_keepsLegal _)) <|
    .ite (.of_cfg fun _ => rfl) <|
    .ite (viPageWrite_keepsLegal .window _ _) (.of_cfg mgIgnored_cfg)

theorem mgWriteWord_keepsLegal (off : Nat) (w : W32) : KeepsLegal (mgWriteWord off w) := by
  intro s hs
  unfold mgWriteWord
  split
  · rwa [mgIgnored_cfg]
  · dsimp only
    split_ifs
    · exact mgWriteWhole_keepsLegal _ _ _ hs
    · exact hs

theorem registerWriteRow_keepsLegal (port : RegPort) (off : Nat) (x : W64) : KeepsLegal (registerWriteRow port off x) := by
  have hignored : KeepsLegal (mgmtWrite mgIgnored) := mgmtWrite_keepsLegal (.of_cfg mgIgnored_cfg)
  cases port with
  | mgmt => exact .ite (mgmtWrite_keepsLegal (mgWriteWord_keepsLegal _ _)) hignored
  | window => exact .ite (viPageWrite_keepsLegal _ _ _) hignored
  | foreign r => exact .of_cfg (reachPage_cfg _)
  | page => exact .ite (viPageWrite_keepsLegal _ _ _) (.of_cfg (reachPage_cfg _))

/-! ## Steps -/

/-- What a command that keeps the configuration goes on to. -/
theorem cfg_of_command {f : State → State} {s t : State} (h : command f s = .next t) : t.cfg = s.cfg := by
  cases h
  rfl

theorem KeepsLegal.register {f : State → State} (hf : KeepsLegal f) {s t : State} (h : register f s = .next t)
    (hs : cfgLegal s.cfg = true) : cfgLegal t.cfg = true := by
  cases h
  exact hf s hs

theorem cfg_of_beatArrives {b : Beat} {s t : State} (h : beatArrives b s = .next t) : t.cfg = s.cfg := by
  unfold beatArrives at h
  split_ifs at h
  · exact cfg_of_command h
  · exact cfg_of_command h

theorem actionRow_keepsLegal (port : RegPort) (index : BitVec 18) (action : ViCfg → RingAction) :
    KeepsLegal (actionRow port index action) :=
  steerWrite_keepsLegal port (ringControl_keepsLegal port index action)

theorem fenceReset_keepsLegal (handover : Bool) :
    KeepsLegal (mgmtWrite fun s => resetUnit { s with ctl := { s.ctl with handover := handover } }) :=
  mgmtWrite_keepsLegal (resetUnit_keepsLegal.comp (.of_cfg fun _ => rfl))

theorem rstPin_keepsLegal (n : Nat) : KeepsLegal (rstPin n) := .ite resetUnit_keepsLegal (.of_cfg fun _ => rfl)

/-- Every row: those that set registers check what they set, a beat and every other row keep the configuration. -/
theorem exec_keepsLegal (c : Instr) {s t : State} (h : exec c s = .next t) (hs : cfgLegal s.cfg = true) : cfgLegal t.cfg = true := by
  cases c with
  | create | resume | pause | destroy => exact (actionRow_keepsLegal _ _ _).register h hs
  | viTolerance => exact (toleranceRow_keepsLegal _ _).register h hs
  | viRings => exact (ringsRow_keepsLegal _).register h hs
  | viDigestBase => exact (digestBaseRow_keepsLegal _ _).register h hs
  | evSelect => exact (evSelectRow_keepsLegal _ _ _).register h hs
  | evCtrlClear => exact (evClearRow_keepsLegal _ _).register h hs
  | mgFenceReset => exact (fenceReset_keepsLegal _).register h hs
  | rstN => exact (rstPin_keepsLegal _).register h hs
  | mgPowerReqOff => exact (powerOffRow_keepsLegal _ _ _).register h hs
  | mgPowerReqOn => exact (powerOnRow_keepsLegal _ _ _).register h hs
  | powerUpDone => exact powerUpDone_keepsLegal.register h hs
  | mgViReset => exact (mgmtWrite_keepsLegal (resetVi_keepsLegal _)).register h hs
  | mgDetCtrl => exact (mgmtWrite_keepsLegal (detControl_keepsLegal _)).register h hs
  | mgTraceRptr => exact (mgmtWrite_keepsLegal (traceRead_keepsLegal _)).register h hs
  | tstModeReq => exact testRequest_keepsLegal.register h hs
  | powerLoss => exact powerLost_keepsLegal.register h hs
  | mgRingCtxBase => exact (mgmtWrite_keepsLegal (setCtxBase_keepsLegal _)).register h hs
  | registerWrite => exact (registerWriteRow_keepsLegal _ _ _).register h hs
  | drnBeat => exact cfg_of_beatArrives h ▸ hs
  | thmSenseUpdate => cases h; exact hs
  | _ => exact cfg_of_command h ▸ hs

end Sys2Proof.Machine

open Sys2Proof Sys2Proof.Machine Sys2Proof.Claims

/-- Settles O59, by the row at the queue's front: taking it off the queue changes no register. -/
theorem noReservedEncodingIsKept : Obligations.NoReservedEncodingIsKept := by
  unfold Obligations.NoReservedEncodingIsKept StepsTo
  intro s t hs hstep
  unfold step at hstep
  split at hstep
  · cases hstep
    exact hs
  · exact exec_keepsLegal _ hstep hs

end

section
/-! SUPPORT. The queue (R449): a step takes its front command and every meaning leaves the rest as it is; a ring command acts only for
a running command of its own opcode and form; the state after reset is empty. -/

namespace Sys2Proof.Machine

open Sys2Proof.Claims

/-! ## The queue -/

/-- What a command comes to leaves the queue as it is, where it goes on. -/
def KeepsQueue (s : State) (o : Host.Outcome State Fault Refusal) : Prop := ∀ t, o = .next t → t.pending = s.pending

theorem command_keepsQueue (f : State → State) (s : State) : KeepsQueue s (command f s) := by
  intro t h
  cases h
  rfl

theorem register_keepsQueue (f : State → State) (s : State) : KeepsQueue s (register f s) := by
  intro t h
  cases h
  rfl

theorem beatArrives_keepsQueue (b : Beat) (s : State) : KeepsQueue s (beatArrives b s) := by
  unfold beatArrives
  split_ifs
  · exact command_keepsQueue _ s
  · exact fun t h => nomatch h
  · exact command_keepsQueue _ s

/-- Every row leaves the queue to the step. -/
theorem exec_keepsQueue (c : Instr) (s : State) : KeepsQueue s (exec c s) := by
  cases c with
  | drnBeat b => exact beatArrives_keepsQueue b s
  | _ => exact fun t h => by cases h; rfl

/-- A beat is taken, refused, or comes without a credit. -/
theorem beatArrives_next {b : Beat} {s : State} (h : s.ctl.refuse = true ∨ s.drain.credits ≠ 0) : ∃ t, beatArrives b s = .next t := by
  unfold beatArrives
  split_ifs with hrefuse hcredit
  · exact ⟨_, rfl⟩
  · exact absurd hcredit (h.resolve_left hrefuse)
  · exact ⟨_, rfl⟩

theorem beatArrives_fault {b : Beat} {s : State} (hrefuse : s.ctl.refuse = false) (hcredit : s.drain.credits = 0) :
    beatArrives b s = .fault .beatWithoutCredit := by
  rw [beatArrives, if_neg (by simp [hrefuse]), if_pos hcredit]

/-! ## Rows of ring commands -/

/-- A row whose meaning waits for a running command of its own. -/
def RingRow (c : Instr) (op : Nat) (p : RunCmd → Bool) (body : RunCmd → State → State) : Prop :=
  (∀ rc, p rc = true → pkOpcode rc.packet = op ∧ ofForm c rc.packet = true) ∧ ∀ s, exec c s = command (issueIf p body) s

theorem ringRow_issue {c : Instr} {op : Nat} {body : RunCmd → State → State} (hform : ∀ p, ofForm c p = true)
    (h : ∀ s, exec c s = command (issue op body) s) : RingRow c op (fun rc => decide (pkOpcode rc.packet = op)) body :=
  ⟨fun rc hop => ⟨of_decide_eq_true hop, hform rc.packet⟩, h⟩

/-- Every ring command is such a row. -/
theorem ringRow_of_ringOpcode {c : Instr} {op : Nat} (h : ringOpcode c = some op) : ∃ p body, RingRow c op p body := by
  cases c with
  | hingeSend =>
    cases h
    exact ⟨_, _, fun rc hrc => by simpa [ofForm] using hrc, fun _ => rfl⟩
  | hingeSendLoad =>
    cases h
    exact ⟨_, _, fun rc hrc => by simpa [ofForm] using hrc, fun _ => rfl⟩
  | _ =>
    cases h <;> exact ⟨_, _, ringRow_issue (fun _ => rfl) (fun _ => rfl)⟩

/-- The chain does not issue, or no running command that a row stands for holds it. -/
theorem issueIf_idle {p : RunCmd → Bool} {body : RunCmd → State → State} {s : State}
    (h : mayIssue s = false ∨ holderCmd s = none ∨ ∃ rc, holderCmd s = some rc ∧ ¬ (p rc = true ∧ rc.phase = .running)) :
    issueIf p body s = s := by
  unfold issueIf
  obtain hissue | hfree | ⟨rc, hheld, hnot⟩ := h
  · rw [if_neg (by simp [hissue])]
  · simp [hfree]
  · simp only [hheld, Bool.and_eq_true, decide_eq_true_eq]
    rw [if_neg hnot, ite_self]

theorem command_of_same {f : State → State} {s : State} (h : f s = s) : command f s = .next s := command_eq h rfl rfl

theorem RingRow.idle {c : Instr} {op : Nat} {p : RunCmd → Bool} {body : RunCmd → State → State} (hrow : RingRow c op p body) {s : State}
    (h : mayIssue s = false ∨ holderCmd s = none ∨ ∃ rc, holderCmd s = some rc
      ∧ ¬ (pkOpcode rc.packet = op ∧ ofForm c rc.packet = true ∧ rc.phase = .running)) : exec c s = .next s := by
  rw [hrow.2]
  refine command_of_same (issueIf_idle (h.imp_right (Or.imp_right ?_)))
  rintro ⟨rc, hheld, hnot⟩
  exact ⟨rc, hheld, fun ⟨hp, hrunning⟩ => hnot ⟨(hrow.1 rc hp).1, (hrow.1 rc hp).2, hrunning⟩⟩

end Sys2Proof.Machine

open Sys2Proof Sys2Proof.Machine Sys2Proof.Claims

/-- Settles O1, by the step's case of a queue that is not empty. -/
theorem stepRunsTheFrontCommand : Obligations.StepRunsTheFrontCommand := by
  unfold Obligations.StepRunsTheFrontCommand
  intro c rest s hpending
  rw [step, hpending]

/-- Settles O2: the step takes the front command off, and no row touches the queue. -/
theorem stepTakesOneCommand : Obligations.StepTakesOneCommand := by
  unfold Obligations.StepTakesOneCommand
  refine fun s => ⟨fun hpending => by rw [step, hpending], fun c rest t hpending hstep => ?_⟩
  rw [stepRunsTheFrontCommand c rest s hpending] at hstep
  exact exec_keepsQueue c _ t hstep

/-- Settles O3, by the three ends of a beat; every other row goes on as it stands. -/
theorem onlyABeatWithoutCreditStops : Obligations.OnlyABeatWithoutCreditStops := by
  unfold Obligations.OnlyABeatWithoutCreditStops
  refine fun c s => ⟨fun h => ?_, fun b hc hrefuse hcredit => hc ▸ beatArrives_fault hrefuse hcredit⟩
  cases c with
  | drnBeat b => exact beatArrives_next (h.resolve_left fun hnot => hnot b rfl)
  | _ => exact ⟨_, rfl⟩

/-- Settles O4, by the form that the rows of all ring commands share. -/
theorem ringCommandsAwaitTheirTurn : Obligations.RingCommandsAwaitTheirTurn := by
  unfold Obligations.RingCommandsAwaitTheirTurn
  intro c op s hop h
  obtain ⟨p, body, hrow⟩ := ringRow_of_ringOpcode hop
  exact hrow.idle h

/-- Settles O60, by reading the state after reset. -/
theorem resetStateIsEmpty : Obligations.ResetStateIsEmpty := by
  unfold Obligations.ResetStateIsEmpty
  exact ⟨rfl, fun _ => rfl, fun _ => rfl, rfl, rfl, rfl, fun _ _ => rfl, by decide, by decide⟩

end

section
/-! SUPPORT. What every completion leaves alone beside its frame: chains, the hinge port and events, and the commands of the other rings,
where the command names no chain; and NOP, FENCE and EVENT_SIGNAL, which complete or wait (R449, R493, R495). -/

namespace Sys2Proof.Machine

open Sys2Proof.Claims

/-! ## Chains, packets and events stand -/

/-- Nothing happens to a chain, to the hinge port or to an event. -/
structure Calm (s t : State) : Prop where
  chains : t.chains = s.chains
  hinge  : t.hinge = s.hinge
  events : ∀ v, (viOf t v).events = (viOf s v).events

theorem Calm.refl (s : State) : Calm s s := ⟨rfl, rfl, fun _ => rfl⟩

theorem Calm.trans {s t u : State} (h : Calm s t) (k : Calm t u) : Calm s u :=
  ⟨k.chains.trans h.chains, k.hinge.trans h.hinge, fun v => (k.events v).trans (h.events v)⟩

theorem Calm.foldl {β : Type} (f : State → β → State) (hf : ∀ s x, Calm s (f s x)) (l : List β) (s : State) : Calm s (l.foldl f s) := by
  induction l generalizing s with
  | nil => exact Calm.refl s
  | cons x rest ih => exact (hf s x).trans (ih _)

theorem Calm.of_vis {s t : State} (chains : t.chains = s.chains := by rfl) (hinge : t.hinge = s.hinge := by rfl)
    (vis : t.vis = s.vis := by rfl) : Calm s t :=
  ⟨chains, hinge, fun v => by unfold viOf; rw [vis]⟩

theorem viOf_modVi_other (s : State) {u v : ViId} (f : ViState → ViState) (h : u ≠ v) : viOf (modVi s v f) u = viOf s u :=
  spGet_spSet_other _ _ _ (fun he => h (BitVec.eq_of_toNat_eq he))

theorem modVi_calm (s : State) (v : ViId) {f : ViState → ViState} (h : ∀ i, (f i).events = i.events) : Calm s (modVi s v f) := by
  refine ⟨by simp, by simp, fun u => ?_⟩
  by_cases hu : u = v
  · rw [hu, viOf_modVi_same, h]
  · rw [viOf_modVi_other s f hu]

theorem Calm.modVi {s t : State} (h : Calm s t) (v : ViId) {f : ViState → ViState} (hf : ∀ i, (f i).events = i.events := by intro i; rfl) :
    Calm s (Machine.modVi t v f) := h.trans (modVi_calm t v hf)

theorem countFree_calm (c n : Nat) (v : Option ViId) (s : State) : Calm s (countFree c n v s) := by
  unfold countFree
  split
  · exact Calm.refl s
  · exact Calm.of_vis

theorem countEvent_calm (c n : Nat) (v : Option ViId) (s : State) : Calm s (countEvent c n v s) :=
  Calm.of_vis (by simp) (by simp) (by simp)

theorem countRetired_calm (v : ViId) (s : State) : Calm s (countRetired v s) := by
  unfold countRetired
  dsimp only
  split
  · exact Calm.refl s
  · exact Calm.modVi Calm.of_vis v

theorem countThrottle_calm (n : Nat) (v : Option ViId) (s : State) : Calm s (countThrottle n v s) := by
  unfold countThrottle
  refine (countFree_calm 0x0B n v s).trans ?_
  dsimp only
  generalize countFree 0x0B n v s = u
  split
  · exact Calm.refl u
  · split
    · exact Calm.of_vis
    · exact Calm.modVi Calm.of_vis _

theorem countTimings_calm (n : Nat) (v : Option ViId) (s : State) : Calm s (countTimings n v s) := by
  unfold countTimings
  refine (countFree_calm 0x67 n v s).trans ?_
  dsimp only
  generalize countFree 0x67 n v s = u
  split
  · exact Calm.refl u
  · split
    · exact Calm.of_vis
    · exact Calm.modVi Calm.of_vis _

theorem countStalls_calm (n : Nat) (s : State) : Calm s (countStalls n s) := by
  unfold countStalls
  split
  · exact Calm.foldl _ (fun s i => countFree_calm _ _ _ s) _ s
  · split
    · exact countFree_calm _ _ _ s
    · exact Calm.refl s

theorem countWithheld_calm (n : Nat) (s : State) : Calm s (countWithheld n s) := by
  unfold countWithheld
  dsimp only
  split
  · exact Calm.refl s
  · split
    · exact (countThrottle_calm _ _ s).trans ((countTimings_calm _ _ _).trans (Calm.of_vis))
    · exact countThrottle_calm _ _ s

theorem advanceClock_calm (s : State) : Calm s (advanceClock s) := by
  unfold advanceClock
  dsimp only
  split
  · exact Calm.of_vis
  · split
    · exact Calm.of_vis
    · split
      · exact Calm.of_vis
      · exact Calm.modVi Calm.of_vis _

theorem tick_calm (s : State) : Calm s (tick s) :=
  (countStalls_calm _ s).trans ((countWithheld_calm _ _).trans (advanceClock_calm _))

theorem putSlot_calm (s : State) (h : Nat) (x : Slot) : Calm s (putSlot s h x) := by
  have hmove : ∀ (up : Bool) (v : ViId) (s : State), Calm s (quotaMove up v s) := fun up v s => modVi_calm s v fun _ => rfl
  have hif : ∀ (b up : Bool) (v : ViId) (s : State), Calm s (if b then quotaMove up v s else s) := by
    intro b up v s
    split
    · exact hmove up v s
    · exact Calm.refl s
  exact (hif _ _ _ s).trans ((hif _ _ _ _).trans (Calm.of_vis))

theorem modSlot_calm (s : State) (h : Nat) (f : Slot → Slot) : Calm s (modSlot s h f) := putSlot_calm s h _

theorem devWriteFor_calm (v : ViId) (s : State) (a : Nat) (bs : List Byte) : Calm s (devWriteFor v s a bs) :=
  Calm.of_vis (by simp) (by simp) (by simp)

theorem lockstepFold_calm (l : List Nat) (s : State) : Calm s (lockstepFold l s) := Calm.of_vis (by simp) (by simp) (by simp)

theorem modCtx_calm (s : State) (r : Nat) (f : RingCtx → RingCtx) : Calm s (modCtx s r f) := Calm.of_vis (by simp) (by simp) (by simp)

theorem setMem_calm (s : State) (sp : Space) (m : Memory) : Calm s (setMem s sp m) := Calm.of_vis (by simp) (by simp) (by simp)

theorem writeCpl_calm (ring : Nat) (x : Cpl) (s : State) : Calm s (writeCpl ring x s) := by
  unfold writeCpl
  dsimp only
  refine (tick_calm s).trans (Calm.trans ?_ (modCtx_calm _ _ _))
  generalize tick s = u
  have hwritten : ∀ (v : ViId) (a code : Nat) (bs : List Byte) (l : List Nat),
      Calm u (lockstepFold l (countRetired v (countEvent code 1 (some v) (devWriteFor v u a bs)))) := fun v a code bs l =>
    ((devWriteFor_calm v u a bs).trans ((countEvent_calm _ _ _ _).trans (countRetired_calm _ _))).trans
      (lockstepFold_calm _ _)
  split
  · exact hwritten _ _ _ _ _
  · exact (hwritten _ _ _ _ _).modVi _

theorem writeNotify_calm (ring i : Nat) (s : State) : Calm s (writeNotify ring i s) := by
  unfold writeNotify
  dsimp only
  split
  · exact Calm.refl s
  · exact devWriteFor_calm _ _ _ _

theorem skipGo_calm (ring n : Nat) (s : State) : Calm s (skipGo ring n s) := by
  induction n generalizing s with
  | zero => exact Calm.refl s
  | succ n ih =>
    unfold skipGo
    dsimp only
    refine Calm.trans ?_ (ih _)
    refine Calm.trans ?_ (modCtx_calm _ _ _)
    split
    · exact (writeCpl_calm _ _ _).trans (writeNotify_calm _ _ _)
    · exact writeCpl_calm _ _ _

theorem skipAll_calm (ring : Nat) (s : State) : Calm s (skipAll ring s) := by
  unfold skipAll
  refine Calm.trans ?_ (skipGo_calm ring _ _)
  exact Calm.of_vis

theorem actionDone_calm (v : ViId) (ring : Nat) (s : State) : Calm s (actionDone v ring s) := by
  unfold actionDone
  split
  · exact modVi_calm s v fun _ => rfl
  · exact Calm.refl s

theorem endTurn_calm (ring : Nat) (s : State) : Calm s (endTurn ring s) := by
  unfold endTurn
  split
  · split
    · exact Calm.of_vis
    · exact Calm.refl s
  · exact Calm.refl s

theorem disableRing_calm (ring : Nat) (s : State) : Calm s (disableRing ring s) :=
  (modCtx_calm s ring _).trans (Calm.of_vis)

theorem viResetCheck_calm (s : State) : Calm s (viResetCheck s) := by
  unfold viResetCheck
  split
  · exact Calm.refl s
  · split
    · exact Calm.refl s
    · exact Calm.of_vis

theorem ringAfter_calm (ring : Nat) (st : Status) (s : State) : Calm s (ringAfter ring st s) := by
  have hstate : ∀ (x : RingState) (u : State), Calm u (setRingState (endTurn ring u) ring x) := fun x u =>
    (endTurn_calm ring u).trans (modCtx_calm _ _ _)
  unfold ringAfter
  refine Calm.trans (t := dropCmd { s with rings := { s.rings with holder := if s.rings.holder = some ring then none else s.rings.holder } } ring)
    (Calm.of_vis) ?_
  generalize dropCmd _ ring = u
  dsimp only
  split
  · exact (actionDone_calm _ _ _).trans ((disableRing_calm _ _).trans ((endTurn_calm _ _).trans (viResetCheck_calm _)))
  · refine Calm.trans (t := if ringDeferred s ring = none then u else actionDone (ctxOwner (ctxOfRing s ring)) ring (clearDeferred ring u)) ?_ ?_
    · split
      · exact Calm.refl u
      · exact Calm.trans (t := clearDeferred ring u) (Calm.of_vis) (actionDone_calm _ _ _)
    · generalize (if ringDeferred s ring = none then u else _ : State) = w
      split
      · split
        · exact hstate _ _
        · exact (hstate _ _).trans (skipAll_calm _ _)
      · split
        · exact hstate _ _
        · split
          · exact hstate _ _
          · exact modCtx_calm _ _ _

theorem writeViews_calm (hs : List Nat) (s : State) : Calm s (writeViews hs s) := by
  refine Calm.foldl _ (fun s h => ?_) hs s
  split
  · exact modSlot_calm s h _
  · exact Calm.refl s

theorem undefineWrites_calm (rc : RunCmd) (s : State) : Calm s (undefineWrites rc s) := by
  unfold undefineWrites
  exact Calm.foldl _ (fun s _ => Calm.trans (t := (takeFree s).2) Calm.of_vis (setMem_calm _ _ _)) _ s

theorem undefineRegs_calm (rc : RunCmd) (s : State) : Calm s (undefineRegs rc s) := by
  unfold undefineRegs
  refine Calm.foldl _ (fun _ _ => ?_) _ s
  exact Calm.of_vis

theorem poisonSlots_calm (rc : RunCmd) (s : State) : Calm s (poisonSlots rc s) := by
  refine Calm.foldl _ (fun s h => ?_) _ s
  split
  · exact modSlot_calm s h _
  · exact Calm.refl s

theorem linkSlots_calm (rc : RunCmd) (x : W128) (s : State) : Calm s (linkSlots rc x s) := by
  refine Calm.foldl _ (fun s h => ?_) _ s
  dsimp only
  split
  · exact Calm.refl s
  · exact modSlot_calm s h _

theorem appendRecord_calm (rc : RunCmd) (x : Cpl) (taint : Bool) (s : State) : Calm s (appendRecord rc x taint s) := by
  unfold appendRecord
  split
  · exact Calm.refl s
  · dsimp only
    have hlog : ∀ (b : Bool) (ptr : Nat) (bs : List Byte),
        Calm s (if b then countEvent 0x65 1 (some rc.vi) s else devWriteFor rc.vi s ptr bs) := by
      intro b ptr bs
      split
      · exact countEvent_calm _ _ _ s
      · exact devWriteFor_calm _ s _ _
    split
    · exact (hlog _ _ _).trans ((devWriteFor_calm _ _ _ _).trans (linkSlots_calm _ _ _))
    · exact (hlog _ _ _).trans (devWriteFor_calm _ _ _ _)

/-- What a contained error or a retraction leaves undefined or poisoned. -/
theorem undefined_calm (rc : RunCmd) (st : Status) (s : State) : Calm s (match st with
    | .errorContained => poisonSlots rc (undefineRegs rc (undefineWrites rc s))
    | .retracted => undefineWrites rc s
    | _ => s) := by
  split
  · exact (undefineWrites_calm _ _).trans ((undefineRegs_calm _ _).trans (poisonSlots_calm _ _))
  · exact undefineWrites_calm _ _
  · exact Calm.refl s

theorem showTwin_calm (l : List Nat) (s : State) : Calm s (showTwin l s) := Calm.of_vis (by simp) (by simp) (by simp)

theorem beforeRecord_calm {rc : RunCmd} (hchainless : chainless rc.packet) (base : Status) (d r n : Nat) (s : State) :
    Calm s (beforeRecord rc base d r n s) := by
  unfold beforeRecord
  dsimp only
  rw [settleChain_chainless hchainless]
  exact (writeViews_calm rc.prog.reduced s).trans ((undefined_calm rc (finalStatus rc base) _).trans
    ((showTwin_calm _ _).trans (appendRecord_calm _ _ _ _)))

/-- A command that names no chain completes without a word to any. -/
theorem completeCmd_calm {rc : RunCmd} (hchainless : chainless rc.packet) (base : Status) (d r n : Nat) (s : State) :
    Calm s (completeCmd rc base d r n s) := by
  rw [completeCmd_eq]
  refine (beforeRecord_calm hchainless base d r n s).trans (Calm.trans ?_ (ringAfter_calm _ _ _))
  split
  · exact (writeCpl_calm _ _ _).trans (writeNotify_calm _ _ _)
  · exact writeCpl_calm _ _ _

/-! ## The other commands stand -/

theorem KeepsCmds.foldl {β : Type} (f : State → β → State) (hf : ∀ s x, KeepsCmds s (f s x)) (l : List β) (s : State) :
    KeepsCmds s (l.foldl f s) := by
  induction l generalizing s with
  | nil => exact KeepsCmds.refl s
  | cons x rest ih => exact (hf s x).trans (ih _)

theorem slotIf_keepsCmds (b : Bool) (s : State) (h : Nat) (f : Slot → Slot) : KeepsCmds s (if b then modSlot s h f else s) := by
  split
  · exact KeepsCmds.of_rings (by simp)
  · exact KeepsCmds.refl s

theorem undefined_keepsCmds (rc : RunCmd) (st : Status) (s : State) : KeepsCmds s (match st with
    | .errorContained => poisonSlots rc (undefineRegs rc (undefineWrites rc s))
    | .retracted => undefineWrites rc s
    | _ => s) := by
  have hwrites : ∀ s, KeepsCmds s (undefineWrites rc s) := fun s => KeepsCmds.foldl _ (fun _ _ => KeepsCmds.of_rings (by simp)) _ s
  have hregs : ∀ s, KeepsCmds s (undefineRegs rc s) := fun s => by
    refine KeepsCmds.foldl _ (fun _ _ => ?_) _ s
    exact ⟨rfl, rfl⟩
  have hslots : ∀ s, KeepsCmds s (poisonSlots rc s) := fun s => KeepsCmds.foldl _ (fun s h => slotIf_keepsCmds _ s h _) _ s
  split
  · exact (hwrites s).trans ((hregs _).trans (hslots _))
  · exact hwrites s
  · exact KeepsCmds.refl s

theorem appendRecord_keepsCmds (rc : RunCmd) (x : Cpl) (taint : Bool) (s : State) : KeepsCmds s (appendRecord rc x taint s) := by
  unfold appendRecord
  split
  · exact KeepsCmds.refl s
  · dsimp only
    have hlog : ∀ (b : Bool) (ptr : Nat) (bs : List Byte),
        KeepsCmds s (if b then countEvent 0x65 1 (some rc.vi) s else devWriteFor rc.vi s ptr bs) := by
      intro b ptr bs
      split <;> exact KeepsCmds.of_rings (by simp)
    have hwrite : ∀ (s : State) (a : Nat) (bs : List Byte), KeepsCmds s (devWriteFor rc.vi s a bs) := fun s a bs =>
      KeepsCmds.of_rings (by simp)
    split
    · refine (hlog _ _ _).trans ((hwrite _ _ _).trans (KeepsCmds.foldl _ (fun s h => ?_) _ _))
      dsimp only
      split
      · exact KeepsCmds.refl s
      · exact KeepsCmds.of_rings (by simp)
    · exact (hlog _ _ _).trans (hwrite _ _ _)

theorem beforeRecord_keepsCmds {rc : RunCmd} (hchainless : chainless rc.packet) (base : Status) (d r n : Nat) (s : State) :
    KeepsCmds s (beforeRecord rc base d r n s) := by
  unfold beforeRecord
  dsimp only
  rw [settleChain_chainless hchainless]
  have hviews : KeepsCmds s (writeViews rc.prog.reduced s) := KeepsCmds.foldl _ (fun s h => slotIf_keepsCmds _ s h _) _ s
  exact hviews.trans ((undefined_keepsCmds rc (finalStatus rc base) _).trans
    ((KeepsCmds.of_rings (showTwin_rings _ _)).trans (appendRecord_keepsCmds _ _ _ _)))

/-- A command that names no chain completes and is gone; the commands of the other rings stand. -/
theorem completeCmd_cmds {rc : RunCmd} (hchainless : chainless rc.packet) (base : Status) (d r n : Nat) (s : State) :
    (completeCmd rc base d r n s).rings.cmds = s.rings.cmds.filter (fun x => decide (x.ring ≠ rc.ring)) := by
  rw [completeCmd_eq, (ringAfter_cmds _ _ _).2, ← (beforeRecord_keepsCmds hchainless base d r n s).cmds]
  refine congrArg (List.filter _) ?_
  split
  · exact ((writeCpl_keepsCmds _ _ _).trans (writeNotify_keepsCmds _ _ _)).cmds
  · exact (writeCpl_keepsCmds _ _ _).cmds

theorem Calm.eventOf {s t : State} (h : Calm s t) (v : ViId) (n : Nat) : eventOf t v n = eventOf s v n := by
  unfold Machine.eventOf
  rw [h.events]

theorem Calm.chainAt {s t : State} (h : Calm s t) (k : Nat) : chainAt t k = chainAt s k := by
  unfold Machine.chainAt
  rw [h.chains]

/-! ## Ring commands with one body -/

/-- A command with one body for its first and its later steps runs it once it holds the chain and its checks have passed. -/
theorem issue_cleared {op : Nat} {body : RunCmd → State → State} {s : State} {rc : RunCmd} (hissues : Issues s rc op)
    (hcleared : Cleared s rc) : issue op (fun rc s => checkedThen rc body body s) s = body (passed rc) s := by
  rw [issue_runs hissues.issues hissues.held hissues.running hissues.opcode, checkedThen_cleared _ hcleared]

theorem finalStatus_passed_fresh {rc : RunCmd} (h : Fresh rc) : finalStatus (passed rc) .ok = .ok := by
  obtain ⟨hprog, hfailed, htainted⟩ := h
  rw [finalStatus_ok (rc := passed rc) hfailed htainted, passed, hprog]
  rfl

/-- A fresh command that has done nothing completes and leaves slots and memory as they are. -/
theorem completeCmd_passed_fresh {s : State} {rc : RunCmd} (hcached : (cacheEntry s rc.ring).isSome) (hfresh : Fresh rc) (r n : Nat) :
    (completeCmd (passed rc) .ok 0 r n s).slots = s.slots ∧ OnlyCompletion s (completeCmd (passed rc) .ok 0 r n s) rc .ok := by
  have hstatus := finalStatus_passed_fresh hfresh
  have honly := completeCmd_onlyCompletion (rc' := passed rc) (base := .ok) 0 r n hcached (Works.refl s) (Outside.refl [] s) rfl rfl
    (by simp [hstatus]) (by simp [hstatus])
  rw [hstatus] at honly
  exact ⟨completeCmd_slots_none _ _ _ _ _ _ (by simp [hstatus]) (by rw [passed, hfresh.1]; rfl) (by rw [passed, hfresh.1]; rfl), honly⟩

/-! ## FENCE -/

/-- FENCE without F0 waits for nothing. -/
theorem fenceBody_of_noWait {rc : RunCmd} (h : pkF0 rc.packet = false) (s : State) : fenceBody rc s = completeCmd rc .ok 0 0 0 s :=
  if_pos (by simp [h])

/-- FENCE with F0 looks at the rings that it waits for already, or at those of its VI as they stand. -/
theorem fenceBody_of_wait {rc : RunCmd} {s : State} {ts : List (Nat × W32)} (h : pkF0 rc.packet = true)
    (hts : rc.wait = .rings ts ∨ rc.wait = .nothing ∧ ts = fenceTargets s rc) :
    fenceBody rc s = if ts.all (fenceReached s) then completeCmd rc .ok 0 0 0 s else blockCmd rc (.rings ts) s := by
  unfold fenceBody
  rw [if_neg (by simp [h])]
  obtain hwait | ⟨hwait, rfl⟩ := hts <;> simp only [hwait]

/-! ## EVENT_SIGNAL -/

/-- What EVENT_SIGNAL makes of its event. -/
def signalled (s : State) (rc : RunCmd) : W32 :=
  if pkF0 rc.packet then BitVec.ofNat 32 (pkOpb rc.packet) else eventOf s rc.vi (pkOpa rc.packet % 256) + BitVec.ofNat 32 (pkOpb rc.packet)

/-- The state with one event of a VI set and the waits that it satisfies ended. -/
def setEvent (v : ViId) (n : Nat) (x : W32) (s : State) : State :=
  releaseWaits v (modVi s v (fun i => { i with events := spSet 0 i.events n x }))

theorem signalBody_eq (rc : RunCmd) (s : State) : signalBody rc s
    = completeCmd rc .ok 0 (signalled s rc).toNat 0 (setEvent rc.vi (pkOpa rc.packet % 256) (signalled s rc) s) := rfl

theorem setEvent_works (v : ViId) (n : Nat) (x : W32) (s : State) : Works s (setEvent v n x s) :=
  (modVi_works s v _).trans (Works.of rfl rfl rfl rfl rfl rfl rfl rfl rfl rfl rfl rfl rfl rfl rfl)

theorem viOf_releaseWaits (u v : ViId) (s : State) : viOf (releaseWaits v s) u = viOf s u := rfl

theorem eventOf_setEvent_same (v : ViId) (n : Nat) (x : W32) (s : State) : eventOf (setEvent v n x s) v n = x := by
  rw [eventOf, setEvent, viOf_releaseWaits, viOf_modVi_same]
  exact spGet_spSet_same _ _ _ _

theorem eventOf_setEvent_other {v u : ViId} {n m : Nat} (h : u ≠ v ∨ m ≠ n) (x : W32) (s : State) :
    eventOf (setEvent v n x s) u m = eventOf s u m := by
  rw [eventOf, setEvent, viOf_releaseWaits]
  by_cases hu : u = v
  · rw [hu, viOf_modVi_same]
    exact spGet_spSet_other _ _ _ (h.resolve_left fun hne => hne hu)
  · rw [viOf_modVi_other s _ hu]
    rfl

/-- No command of the VI still waits for an event that has come. -/
theorem releaseWaits_satisfied {v : ViId} {s : State} {c : RunCmd} (hc : c ∈ (releaseWaits v s).rings.cmds) (hvi : c.vi = v)
    (hphase : c.phase = .blocked false) {n : Nat} {target : W32} (hwait : c.wait = .event n target) :
    eventReached (eventOf s v n) target = false := by
  obtain ⟨c', hc', rfl⟩ := List.mem_map.mp hc
  revert hvi hphase hwait
  split
  · next hold hphase' hwait' =>
    split
    · intro _ hphase
      cases hphase
    · next hnot =>
      intro hvi hphase hwait
      cases hwait'.symm.trans hwait
      simpa [hvi] using hnot
  · next hother =>
    intro hvi hphase hwait
    exact absurd hwait (hother _ _ _ hphase)

/-- EVENT_SIGNAL completes on the state in which its event has moved. -/
theorem signalRow_ends {s : State} {rc : RunCmd} (hissues : Issues s rc 0x29) (hcleared : Cleared s rc) :
    ∃ t, Ends .eventSignal s t rc (okCpl rc (signalled s rc).toNat 0)
      ∧ Calm (setEvent rc.vi (pkOpa rc.packet % 256) (signalled s rc) s) t
      ∧ ∀ c ∈ t.rings.cmds, c ∈ (setEvent rc.vi (pkOpa rc.packet % 256) (signalled s rc) s).rings.cmds := by
  have hbody : signalRow s = _ := (issue_cleared hissues hcleared).trans (signalBody_eq (passed rc) s)
  have hends := command_completes rc (passed rc) .ok 0 _ 0 hbody hissues.cached (setEvent_works _ _ _ s) rfl rfl rfl
  rw [cplOf_passed_ok] at hends
  have hchainless : chainless (passed rc).packet := .inr (by rw [show pkOpcode (passed rc).packet = 0x29 from hissues.opcode]; decide)
  refine ⟨_, hends, completeCmd_calm hchainless _ _ _ _ _, fun c hc => ?_⟩
  rw [completeCmd_cmds hchainless] at hc
  exact List.mem_of_mem_filter hc

end Sys2Proof.Machine

open Sys2Proof Sys2Proof.Machine Sys2Proof.Claims

/-- Settles O7, by the completion of a command that has done nothing. -/
theorem nopCompletes : Obligations.NopCompletes := by
  unfold Obligations.NopCompletes
  intro s rc hissues hcleared
  have hbody : nopRow s = completeCmd (passed rc) .ok 0 0 0 s := issue_cleared (body := fun rc s => completeCmd rc .ok 0 0 0 s) hissues hcleared
  have hends := command_completes rc (passed rc) .ok 0 0 0 hbody hissues.cached (Works.refl s) rfl rfl rfl
  rw [cplOf_passed_ok] at hends
  exact ⟨_, hends, fun hfresh => completeCmd_passed_fresh hissues.cached hfresh 0 0⟩

/-- Settles O8, by the two branches of FENCE's body. -/
theorem fenceCompletesOrWaits : Obligations.FenceCompletesOrWaits := by
  unfold Obligations.FenceCompletesOrWaits
  intro s rc ts hissues hcleared hts
  have hruns : fenceRow s = fenceBody (passed rc) s := issue_cleared hissues hcleared
  have hwaits := fun hf0 => hruns.trans (fenceBody_of_wait (rc := passed rc) hf0 hts)
  constructor
  · intro h
    have hbody : fenceRow s = completeCmd (passed rc) .ok 0 0 0 s := by
      cases hf0 : pkF0 rc.packet with
      | false => exact hruns.trans (fenceBody_of_noWait (rc := passed rc) hf0 s)
      | true =>
        have hall := h.resolve_left (by simp [hf0])
        rw [hwaits hf0, if_pos (List.all_eq_true.mpr hall)]
    have hends := command_completes rc (passed rc) .ok 0 0 0 hbody hissues.cached (Works.refl s) rfl rfl rfl
    rw [cplOf_passed_ok] at hends
    exact ⟨_, hends⟩
  · rintro hf0 ⟨x, hx, hshort⟩
    have hnot : ¬ ts.all (fenceReached s) = true := fun hall => by simp [List.all_eq_true.mp hall x hx] at hshort
    have hbody := hwaits hf0
    rw [if_neg hnot] at hbody
    have hblocked := blockCmd_blocked s rc (passed rc) (.rings ts) hissues.cached rfl rfl rfl
    rw [← hbody] at hblocked
    exact ⟨_, command_next hblocked.frame, hblocked⟩

/-- Settles O9: the event moves and its waits end before the command completes, and the completion touches neither. -/
theorem eventSignalMovesItsEvent : Obligations.EventSignalMovesItsEvent := by
  unfold Obligations.EventSignalMovesItsEvent
  intro s rc hissues hcleared
  obtain ⟨t, hends, hcalm, hcmds⟩ := signalRow_ends hissues hcleared
  have hvalue : eventOf t rc.vi (pkOpa rc.packet % 256) = signalled s rc := (hcalm.eventOf _ _).trans (eventOf_setEvent_same _ _ _ _)
  refine ⟨t, by rwa [hvalue], hvalue, fun n hn => ?_, fun v n hv => ?_, fun x hx n target hvi hphase hwait => ?_⟩
  · rw [hcalm.eventOf, eventOf_setEvent_other (.inr hn)]
  · rw [hcalm.eventOf, eventOf_setEvent_other (.inl hv)]
  · rw [hcalm.eventOf]
    exact releaseWaits_satisfied (hcmds x hx) hvi hphase hwait

end

section
/-! SUPPORT. What turns an access to a VI page away (R40, R41, R636), said once for every row of a page; and the registers of R465, R524,
R167 and VI_TOLERANCE, each as what it sets. -/

namespace Sys2Proof.Machine

open Sys2Proof.Claims

/-! ## Accesses that are turned away -/

/-- A port of the fabric to a VI page or to none: not one of management. -/
def onPage : RegPort → Bool
  | .foreign _ => true
  | .page _ _ _ _ => true
  | _ => false

/-- A row that acts only for an access that reaches its page with every byte enabled. -/
structure Gated (port : RegPort) (f : State → State) : Prop where
  turned : ∀ s, (reachPage port s).1 = none → f s = (reachPage port s).2
  part   : ∀ s, (reachPage port s).1.isSome → partBytes port = true → f s = portIgnored port (reachPage port s).2

theorem pageWrite_gated (port : RegPort) (body : ViId → State → State) : Gated port (pageWrite port body) where
  turned s h := by
    unfold pageWrite
    split <;> simp_all
  part s h hpart := by
    unfold pageWrite
    split <;> simp_all

theorem Gated.ite {port : RegPort} {c : Prop} [Decidable c] {f g : State → State} (hf : Gated port f) (hg : Gated port g) :
    Gated port (fun s => if c then f s else g s) := by
  split
  · exact hf
  · exact hg

theorem steerWrite_gated {port : RegPort} (hport : onPage port = true) (body : ViId → State → State) : Gated port (steerWrite port body) := by
  cases port with
  | page => exact pageWrite_gated _ _
  | foreign => exact ⟨fun _ _ => rfl, fun _ _ hpart => by simp [partBytes] at hpart⟩
  | mgmt => simp [onPage] at hport
  | window => simp [onPage] at hport

theorem evSelectRow_gated {port : RegPort} (hport : onPage port = true) (n : Nat) (x : W32) : Gated port (evSelectRow port n x) := by
  cases port with
  | mgmt => simp [onPage] at hport
  | _ => exact pageWrite_gated _ _

theorem evCountRow_gated {port : RegPort} (hport : onPage port = true) (n : Nat) (x : W64) : Gated port (evCountRow port n x) := by
  cases port with
  | mgmt => simp [onPage] at hport
  | _ => exact pageWrite_gated _ _

theorem evClearRow_gated {port : RegPort} (hport : onPage port = true) (freeze : Bool) : Gated port (evClearRow port freeze) := by
  cases port with
  | mgmt => simp [onPage] at hport
  | _ => exact pageWrite_gated _ _

/-- Every register of a VI page, in the order of the map (R654). -/
theorem viPageWrite_gated {port : RegPort} (hport : onPage port = true) (off : Nat) (x : W64) : Gated port (viPageWrite port off x) := by
  have hwindow : decide (port = .window) = false := by
    cases port <;> simp_all [onPage]
  have hset : ∀ f : ViCfg → ViCfg, Gated port (pageWrite port fun v s => modCfgVi v f s) := fun _ => pageWrite_gated _ _
  have hnone : Gated port (pageWrite port fun _ s => portIgnored port s) := pageWrite_gated _ _
  have hcontrol : Gated port fun s => match ringAction (field x 22 20) with
      | some a => steerWrite port (ringControl port (BitVec.ofNat 18 (field x 17 0)) a) s
      | none => pageWrite port (fun _ s => portIgnored port s) s := by
    cases ringAction (field x 22 20) with
    | some a => exact steerWrite_gated hport _
    | none => exact hnone
  have hlocal : ∀ f g : State → State, Gated port g → Gated port (fun s => if decide (port = .window) = true then f s else g s) := by
    intro f g hg
    rw [hwindow]
    exact hg
  unfold viPageWrite
  exact .ite (steerWrite_gated hport _) <|
    .ite hcontrol <|
    .ite (.ite (hset _) hnone) <|
    .ite (hset _) <|
    .ite (pageWrite_gated _ _) <|
    .ite (pageWrite_gated _ _) <|
    .ite (hwindow ▸ hnone) <|
    .ite (hlocal _ _ hnone) <|
    .ite (pageWrite_gated _ _) <|
    .ite (hset _) <|
    .ite (pageWrite_gated _ _) <|
    .ite (hwindow ▸ hnone) <|
    .ite (hset _) <|
    .ite (pageWrite_gated _ _) <|
    .ite (evSelectRow_gated hport _ _) <|
    .ite (evCountRow_gated hport _ _) <|
    .ite (.ite (evClearRow_gated hport _) (hlocal _ _ hnone)) <|
    .ite (pageWrite_gated _ _) hnone

/-- A write within a VI page. -/
theorem registerWriteRow_gated {port : RegPort} (hport : onPage port = true) {off : Nat} (hoff : off < 0x1000) (x : W64) :
    Gated port (registerWriteRow port off x) := by
  cases port with
  | mgmt => simp [onPage] at hport
  | window => simp [onPage] at hport
  | foreign => exact ⟨fun _ _ => rfl, fun _ _ hpart => by simp [partBytes] at hpart⟩
  | page covered v requester be =>
    have hrow : registerWriteRow (.page covered v requester be) off x = viPageWrite (.page covered v requester be) off x :=
      funext fun s => if_pos hoff
    rw [hrow]
    exact viPageWrite_gated hport off x

/-- A row of a VI page comes to what its meaning comes to, where that keeps the queue and the configuration. -/
def Means (c : Instr) (f : State → State) : Prop := ∀ s t, f s = t → t.pending = s.pending → t.cfg = s.cfg → exec c s = .next t

theorem means_of_command {c : Instr} {f : State → State} (h : ∀ s, exec c s = command f s) : Means c f := by
  intro s t hf hpending hcfg
  rw [h, command_eq hf hpending hcfg]

theorem means_of_register {c : Instr} {f : State → State} (h : ∀ s, exec c s = register f s) : Means c f := by
  intro s t hf hpending _
  rw [h, register_eq hf hpending]

/-- Every row of a VI page is turned away by the same rules. -/
theorem gated_of_pageRow {c : Instr} {port : RegPort} (hrow : pageRow c = some port) (hport : onPage port = true) (hwithin : withinPage c) :
    ∃ f, Gated port f ∧ Means c f := by
  cases c with
  | viDoorbell => cases hrow; exact ⟨_, steerWrite_gated hport _, means_of_command fun _ => rfl⟩
  | create | resume | pause | destroy => cases hrow; exact ⟨_, steerWrite_gated hport _, means_of_register fun _ => rfl⟩
  | viTumblerInval => cases hrow; exact ⟨_, pageWrite_gated _ _, means_of_command fun _ => rfl⟩
  | viTolerance | viDigestBase => cases hrow; exact ⟨_, pageWrite_gated _ _, means_of_register fun _ => rfl⟩
  | evSelect => cases hrow; exact ⟨_, evSelectRow_gated hport _ _, means_of_register fun _ => rfl⟩
  | evCount => cases hrow; exact ⟨_, evCountRow_gated hport _ _, means_of_command fun _ => rfl⟩
  | evCtrlClear => cases hrow; exact ⟨_, evClearRow_gated hport _, means_of_register fun _ => rfl⟩
  | registerWrite => cases hrow; exact ⟨_, registerWriteRow_gated hport hwithin _, means_of_register fun _ => rfl⟩
  | _ => cases hrow

/-- What the unit does with an access that it does not take to its page. -/
theorem reachPage_of_silent {port : RegPort} {s : State} (hport : onPage port = true) (h : pageAnswers s = false) :
    reachPage port s = (none, s) := by
  cases port with
  | mgmt => simp [onPage] at hport
  | window => simp [onPage] at hport
  | foreign => simp [reachPage, h]
  | page => simp [reachPage, h]

/-! ## Registers of a VI -/

theorem cfgVi_setCfgVi_same (s : State) (v : ViId) (c : ViCfg) : cfgVi (setCfgVi s v c) v = c := spGet_spSet_same _ _ _ _

theorem cfgVi_setCfgVi_other (s : State) {u v : ViId} (c : ViCfg) (h : u ≠ v) : cfgVi (setCfgVi s v c) u = cfgVi s u :=
  spGet_spSet_other _ _ _ (fun he => h (BitVec.eq_of_toNat_eq he))

theorem cfgVi_congr {s t : State} (h : t.cfg.vi = s.cfg.vi) (v : ViId) : cfgVi t v = cfgVi s v := by
  unfold cfgVi
  rw [h]

/-- Setting fields of one VI and nothing else. -/
theorem setsVi_modCfgVi (s : State) (v : ViId) (f : ViCfg → ViCfg) : SetsVi s (modCfgVi v f (wake s)) v (f (cfgVi s v)) := by
  have hwake : ∀ u, cfgVi (wake s) u = cfgVi s u := cfgVi_congr (by rw [wake_cfg])
  refine ⟨?_, ?_, fun u hu => ?_⟩
  · rw [← wake_cfg s]
    rfl
  · rw [modCfgVi, cfgVi_setCfgVi_same, hwake]
  · rw [modCfgVi, cfgVi_setCfgVi_other _ _ hu, hwake]

/-- A row that sets fields of the VI that it reaches. -/
theorem setsVi_of_pageWrite {c : Instr} {port : RegPort} {body : ViId → State → State} {s : State} {v : ViId} {f : ViCfg → ViCfg} {x : ViCfg}
    (hexec : exec c s = register (pageWrite port body) s) (hreach : Reached port s v) (hbody : body v (wake s) = modCfgVi v f (wake s))
    (hx : f (cfgVi s v) = x) : ∃ t, exec c s = .next t ∧ SetsVi s t v x := by
  subst hx
  refine ⟨_, ?_, setsVi_modCfgVi s v f⟩
  rw [hexec]
  exact register_eq ((pageWrite_of_reached hreach body).trans hbody) (wake_pending s)

theorem ringsInMemory_wake (s : State) (b : Bool) : ringsInMemory (wake s) b = ringsInMemory s b := by
  simp [ringsInMemory, ctxAddr]

theorem ctxOfRing_wake (s : State) (r : Nat) : ctxOfRing (wake s) r = ctxOfRing s r := by
  simp [ctxOfRing, cacheEntry, memCtx, ctxAddr, readNat, readBytes, readByte, getMem]

theorem createdRings_wake (s : State) : createdRings (wake s) = createdRings s := by
  simp [createdRings, flushRings, ringsInMemory_wake, ctxOfRing_wake]

theorem viHasRings_wake (s : State) (v : ViId) : viHasRings (wake s) v = viHasRings s v := by
  have hrange : viRange (wake s) false v = viRange s false v := by
    simp [viRange, cfgVi_congr (wake_cfg s ▸ rfl : (wake s).cfg.vi = s.cfg.vi)]
  unfold viHasRings
  rw [createdRings_wake, hrange]

theorem ringsFit_wake (s : State) (v : ViId) (base count : Nat) : ringsFit (wake s) v base count = ringsFit s v base count := by
  unfold ringsFit
  rw [wake_cfg]

end Sys2Proof.Machine

open Sys2Proof Sys2Proof.Machine Sys2Proof.Claims

/-- Settles O38: every row of a page passes the same gate, and the gate's three ends are read off. -/
theorem pagesAnswerTheirVi : Obligations.PagesAnswerTheirVi := by
  unfold Obligations.PagesAnswerTheirVi
  refine fun c s hwithin => ⟨fun port hrow hkind hsilent => ?_, fun r hrow hanswers => ?_, fun cov v r be hrow hanswers hcovered => ?_⟩
  · have hport : onPage port = true := by
      obtain ⟨r, rfl⟩ | ⟨cov, v, r, be, rfl⟩ := hkind <;> rfl
    obtain ⟨f, hgated, hmeans⟩ := gated_of_pageRow hrow hport hwithin
    have hreach := reachPage_of_silent hport hsilent
    exact hmeans s s ((hgated.turned s (by rw [hreach])).trans (by rw [hreach])) rfl rfl
  · obtain ⟨f, hgated, hmeans⟩ := gated_of_pageRow hrow rfl hwithin
    have hreach : reachPage (.foreign r) s = (none, countEvent 0x62 1 none (wake s)) := if_pos hanswers
    exact hmeans s _ ((hgated.turned s (by rw [hreach])).trans (by rw [hreach])) (by simp) (by simp)
  · obtain ⟨f, hgated, hmeans⟩ := gated_of_pageRow hrow rfl hwithin
    have hserved : (!pageAnswers s || cov && !s.twin.covering) = false := by
      cases cov <;> simp_all
    constructor
    · intro hr
      have hreach : reachPage (.page cov v r be) s = (none, countEvent 0x62 1 (some v) (wake s)) := by
        simp only [reachPage, hserved, Bool.false_eq_true, if_false, if_pos hr]
      exact hmeans s _ ((hgated.turned s (by rw [hreach])).trans (by rw [hreach])) (by simp) (by simp)
    · intro hr hbe
      have hreach : reachPage (.page cov v r be) s = (some v, wake s) := by
        simp only [reachPage, hserved, Bool.false_eq_true, if_false, if_neg (not_not.mpr hr)]
      have hpart := hgated.part s (by simp [hreach]) (decide_eq_true hbe)
      rw [hreach] at hpart
      exact hmeans s _ hpart (by simp [regIgnored]) (by simp [regIgnored])

/-- Settles O39, by what each register's row sets once its access has reached the page. -/
theorem viRegistersTakeTheirFields : Obligations.ViRegistersTakeTheirFields := by
  unfold Obligations.ViRegistersTakeTheirFields
  intro port s v x hreach
  refine ⟨setsVi_of_pageWrite rfl hreach rfl rfl, fun hnone => ?_, fun hrings => ?_, fun hport hfit => ?_, fun hport hfit => ?_, ?_⟩
  · exact setsVi_of_pageWrite rfl hreach (if_neg (by rw [viHasRings_wake, hnone]; simp)) rfl
  · refine register_eq ((pageWrite_of_reached hreach _).trans (if_pos ?_)) (by simp)
    rw [viHasRings_wake, hrings]
  · subst hport
    exact setsVi_of_pageWrite rfl hreach (if_pos (by rw [ringsFit_wake, hfit])) rfl
  · subst hport
    refine register_eq ((pageWrite_of_reached hreach _).trans (if_neg ?_)) (by simp [mgIgnored])
    rw [ringsFit_wake, hfit]
    simp
  · refine ⟨tumblerInval x v (wake s), command_eq (pageWrite_of_reached hreach _) ?_ ?_, ?_, ?_, ?_, ?_⟩
    · unfold tumblerInval
      split <;> simp
    · unfold tumblerInval
      split <;> simp
    · unfold tumblerInval
      split <;> rfl
    · unfold tumblerInval
      split <;> simp
    · exact fun hbit => by simp [tumblerInval, hbit]
    · exact fun hbit => by simp [tumblerInval, hbit]

end

section
/-! SUPPORT. Fences, resets and the twin: what a reset leaves, what reading contexts does to the rings, how covering begins and ends.
O43, O44, O46. -/

namespace Sys2Proof.Machine

open Sys2Proof.Claims

/-! ## Unit reset -/

theorem resetUnit_leaves {s : State} (h : mayReset s = true) (b : Bool) :
    ResetLeaves s (resetUnit { s with ctl := { s.ctl with handover := b } }) b := by
  have h' : mayReset { s with ctl := { s.ctl with handover := b } } = true := h
  unfold resetUnit
  rw [if_pos h']
  exact ⟨rfl, rfl, rfl, rfl, rfl, rfl, rfl, rfl, rfl, rfl, rfl, rfl, rfl, rfl, rfl, rfl, rfl, rfl, ⟨rfl, rfl, rfl, rfl⟩, ⟨rfl, rfl, rfl⟩, rfl⟩

/-- What a reset leaves does not tell whether the unit was awake. -/
theorem resetLeaves_of_wake {s t : State} {b : Bool} (h : ResetLeaves (wake s) t b) : ResetLeaves s t b := by
  constructor
  case state => exact h.state
  case fence => exact h.fence
  case handover => exact h.handover
  case lost => simpa using h.lost
  case incarnation => simpa using h.incarnation
  case slots => exact h.slots
  case chains => exact h.chains
  case vis => exact h.vis
  case cache => exact h.cache
  case cmds => exact h.cmds
  case free => exact h.free
  case tables => exact h.tables
  case hinge => exact h.hinge
  case counters => exact h.counters
  case log => simpa using h.log
  case dev => simpa using h.dev
  case tile => simpa using h.tile
  case twin => simpa using h.twin
  case power => simpa using h.power
  case regions => simpa using h.regions
  case pending => simpa using h.pending

theorem mgmtAnswers_of_mayReset {s : State} (h : mayReset s = true) : mgmtAnswers s = true := by
  simp only [mayReset, Bool.and_eq_true] at h
  exact h.1.1

theorem mayReset_wake (s : State) : mayReset (wake s) = mayReset s := by simp [mayReset, mgmtAnswers]

theorem mgFenceReset_leaves {s : State} (h : mayReset s = true) (f b : Bool) :
    ∃ t, exec (.mgFenceReset f b) s = .next t ∧ ResetLeaves s t b := by
  have hleaves := resetUnit_leaves ((mayReset_wake s).trans h) b
  refine ⟨_, register_eq (mgmtWrite_of_answers (mgmtAnswers_of_mayReset h) _) ?_, resetLeaves_of_wake hleaves⟩
  simpa using hleaves.pending

theorem rstN_leaves {s : State} (h : mayReset s = true) {n : Nat} (hn : 4 ≤ n) :
    ∃ t, exec (.rstN n) s = .next t ∧ ResetLeaves s t s.ctl.handover := by
  have hleaves := resetUnit_leaves h s.ctl.handover
  exact ⟨_, register_eq (if_pos hn) hleaves.pending, hleaves⟩

theorem register_of_same {f : State → State} {s : State} (h : f s = s) : register f s = .next s := register_eq h rfl

theorem rstPin_idle {s : State} {n : Nat} (h : mayReset s = false ∨ n < 4) : rstPin n s = s := by
  unfold rstPin resetUnit
  rcases h with h | h
  · simp [h]
  · rw [if_neg (by omega)]

/-- The flit credits granted at the end of a reset (R336). -/
theorem grantReceive_eq (s : State) : grantReceive s = { s with
    hinge := { s.hinge with granted := [(0, 64), (1, 64), (2, 64), (3, 64)] }
    out := s.out ++ [.hngRxCredit 0 64, .hngRxCredit 1 64, .hngRxCredit 2 64, .hngRxCredit 3 64] } := by
  change ({ s with hinge := _, out := s.out ++ [_] ++ [_] ++ [_] ++ [_] } : State) = _
  simp only [List.append_assoc]
  rfl

theorem requestPoint_tclk (p : BitVec 3) (s : State) : (requestPoint p s).tclk = s.tclk := by
  unfold requestPoint; split <;> rfl

theorem beginQuiesce_pwr (s : State) : (beginQuiesce s).pwr = { s.pwr with
    state := .quiesce, pending := 0, downAfterExit := false, slots := 16
    opReq := if s.pwr.opReq = none ∧ s.pwr.point = 7 then none else some 7 } := fullSlots_pwr _

theorem beginQuiesce_tclk (s : State) : (beginQuiesce s).tclk = s.tclk := requestPoint_tclk _ _

end Sys2Proof.Machine

open Sys2Proof Sys2Proof.Machine Sys2Proof.Claims

/-- Settles O44, from what a reset leaves and the two ways in which the reset sequence ends. -/
theorem resetsLeaveTheUnitFenced : Obligations.ResetsLeaveTheUnitFenced := by
  unfold Obligations.ResetsLeaveTheUnitFenced
  intro s f b n
  refine ⟨fun h => ⟨mgFenceReset_leaves h f b, rstN_leaves h⟩, fun h => register_of_same (rstPin_idle h),
    fun h => register_of_same (if_neg (by simp [h])), fun h => command_of_same (if_neg h), fun h hp => ?_, fun h hp => ?_⟩
  · refine command_eq ((if_pos h).trans ?_) rfl rfl
    rw [grantReceive_eq]
    exact if_neg hp
  · refine ⟨beginQuiesce (grantReceive { s with ctl := { s.ctl with state := .fenced }, tclk := 0 }),
      command_eq ((if_pos h).trans ?_) ?_ ?_, ?_⟩
    · rw [grantReceive_eq]
      exact if_pos hp
    · simp [grantReceive_eq]
    · simp [grantReceive_eq]
    · simp [beginQuiesce_ctl, beginQuiesce_pwr, beginQuiesce_tclk, grantReceive_eq]

end

section
/-! SUPPORT. What reading contexts does to the rings, how a fence ends, how covering begins and ends. O43, O46. -/

namespace Sys2Proof.Machine

open Sys2Proof.Claims

/-! ## Contexts asked for (R475, R630) -/

/-- A ring's context is being read, or waits for a place to be. -/
def Asked (s : State) (ring : Nat) : Prop := ring ∈ s.rings.reads ∨ ring ∈ s.rings.wanted

/-- The context reads of a state replaced. -/
def withReads (s : State) (reads wanted : List Nat) : State :=
  { s with rings := { s.rings with reads := reads, wanted := wanted } }

/-- Nothing but the context reads differs. -/
def OnlyReads (s t : State) : Prop := t = withReads s t.rings.reads t.rings.wanted

theorem OnlyReads.refl (s : State) : OnlyReads s s := rfl

theorem OnlyReads.trans {s t u : State} (h : OnlyReads s t) (k : OnlyReads t u) : OnlyReads s u := by
  unfold OnlyReads at *
  rw [k, h]
  rfl

theorem OnlyReads.foldl {β : Type} (f : State → β → State) (hf : ∀ s x, OnlyReads s (f s x)) (l : List β) (s : State) :
    OnlyReads s (l.foldl f s) := by
  induction l generalizing s with
  | nil => exact .refl s
  | cons x xs ih => exact (hf s x).trans (ih _)

theorem startCtxRead_onlyReads (ring : Nat) (s : State) : OnlyReads s (startCtxRead ring s) := by
  unfold startCtxRead; split_ifs <;> rfl

theorem startCtxRead_asked (ring : Nat) (s : State) : Asked (startCtxRead ring s) ring := by
  unfold startCtxRead Asked
  split_ifs with h1 h2
  · simpa using h1
  · exact .inl (by simp)
  · exact .inr (by simp)

theorem startCtxRead_keepsAsked (ring : Nat) {s : State} {r : Nat} (h : Asked s r) : Asked (startCtxRead ring s) r := by
  unfold startCtxRead Asked
  split_ifs
  · exact h
  · exact h.imp_left (List.mem_append_left _)
  · exact h.imp_right (List.mem_append_left _)

theorem startCtxReads_keepAsked (l : List Nat) {s : State} {r : Nat} (h : Asked s r) :
    Asked (l.foldl (fun s r => startCtxRead r s) s) r := by
  induction l generalizing s with
  | nil => exact h
  | cons x xs ih => exact ih (startCtxRead_keepsAsked x h)

theorem startCtxReads_asked {l : List Nat} {r : Nat} (hr : r ∈ l) (s : State) :
    Asked (l.foldl (fun s r => startCtxRead r s) s) r := by
  induction l generalizing s with
  | nil => cases hr
  | cons x xs ih =>
    rcases List.mem_cons.1 hr with rfl | hr
    · exact startCtxReads_keepAsked xs (startCtxRead_asked r s)
    · exact ih hr _

theorem readWork_onlyReads (covered : Bool) (s : State) : OnlyReads s (readWork covered s) :=
  .foldl _ (fun s r => startCtxRead_onlyReads r s) _ s

/-! ## What the memory and the cache say of rings -/

/-- Two states with the same device memory and the same context regions. -/
structure SameContexts (s t : State) : Prop where
  dev   : t.dev = s.dev
  own   : t.cfg.ctxBase = s.cfg.ctxBase
  cover : t.cfg.coverBase = s.cfg.coverBase

theorem SameContexts.ctxAddr {s t : State} (h : SameContexts s t) (ring : Nat) : ctxAddr t ring = ctxAddr s ring := by
  simp [Machine.ctxAddr, h.own, h.cover]

theorem SameContexts.readNat {s t : State} (h : SameContexts s t) (a n : Nat) : readNat t .device a n = readNat s .device a n := by
  simp [Machine.readNat, readBytes, readByte, getMem, h.dev]

theorem SameContexts.memCtx {s t : State} (h : SameContexts s t) (ring : Nat) : memCtx t ring = memCtx s ring := by
  simp [Machine.memCtx, h.ctxAddr, h.readNat]

theorem SameContexts.ringsInMemory {s t : State} (h : SameContexts s t) (covered : Bool) :
    ringsInMemory t covered = ringsInMemory s covered := by
  simp [Machine.ringsInMemory, h.ctxAddr, h.dev]

theorem SameContexts.readCoverEntry {s t : State} (h : SameContexts s t) (v : Nat) : readCoverEntry t v = readCoverEntry s v := by
  simp [Machine.readCoverEntry, h.ctxAddr, h.readNat]

/-- The scan of the contexts asks for every ring that holds work and is not cached (R475). -/
theorem readWork_asked {s t : State} (h : SameContexts s t) (hcache : t.rings.cache = s.rings.cache) {covered : Bool} {r : Nat}
    (hmem : r ∈ ringsInMemory s covered) (hwork : (memCtx s r).state.carriesWork = true) (hnone : cacheEntry s r = none) :
    Asked (readWork covered t) r := by
  refine startCtxReads_asked (List.mem_filter.2 ⟨by rwa [h.ringsInMemory], ?_⟩) t
  have hnone' : cacheEntry t r = none := by rwa [cacheEntry, hcache]
  simp [h.memCtx, hwork, hnone']

/-! ## FENCE 1 and FENCE 0 (R553, R554, R557) -/

theorem fenceSet_of_active {s : State} (hactive : s.ctl.state = .active) (hfence : s.ctl.fence = false) (b : Bool) :
    fenceSet b (wake s) = { wake s with
        ctl := { s.ctl with
          handover := b, fence := true, refuse := true, flushed := false, resetSinceFence := false
          stop := if s.ctl.stop = some .powerDown then s.ctl.stop else some .fence } } := by
  unfold fenceSet
  rw [if_pos (by simp [hactive, hfence])]
  simp

theorem fenceSet_of_other {s : State} (h : s.ctl.state ≠ .active ∨ s.ctl.fence = true) (b : Bool) :
    fenceSet b (wake s) = { wake s with ctl := { s.ctl with handover := b, fence := true } } := by
  unfold fenceSet
  rw [if_neg (by rcases h with h | h <;> simp [h])]
  simp

theorem fenceClear_of_unfenced {s : State} (h : s.ctl.fence = false) (b : Bool) :
    fenceClear b (wake s) = { wake s with ctl := { s.ctl with handover := b } } := by
  unfold fenceClear
  rw [if_pos (by simp [h])]
  simp

theorem fenceClear_of_unready {s : State} (hfence : s.ctl.fence = true)
    (h : s.ctl.wedged = true ∨ s.ctl.state ≠ .fenced ∨ s.ctl.flushed = false ∧ s.ctl.resetSinceFence = false) (b : Bool) :
    fenceClear b (wake s) = mgIgnored (wake s) := by
  unfold fenceClear
  rw [if_neg (by simp [hfence]), if_pos (by rcases h with h | h | ⟨h, h'⟩ <;> simp [*])]

/-- The unit once the fence is gone, before the scan of the contexts. -/
def unfenced (b : Bool) (s : State) : State :=
  let s1 := { s with ctl := { s.ctl with handover := b, fence := false, state := .active, flushed := false } }
  if s.pwr.state = .active then returnCredits { s1 with ctl := { s1.ctl with refuse := false } } else s1

theorem fenceClear_of_ready {s : State} (hfence : s.ctl.fence = true) (hwedged : s.ctl.wedged = false)
    (hstate : s.ctl.state = .fenced) (hflushed : s.ctl.flushed = true ∨ s.ctl.resetSinceFence = true) (b : Bool) :
    fenceClear b s = readWork false (unfenced b s) := by
  unfold fenceClear
  rw [if_neg (by simp [hfence]), if_neg (by rcases hflushed with h | h <;> simp [hwedged, hstate, h])]
  rfl

/-- Waking begins a move between power states at most. -/
theorem wake_pwr (s : State) : (wake s).pwr = { s.pwr with move := (wake s).pwr.move } := by
  unfold wake
  split
  · rfl
  · split
    · rfl
    · rfl
    · split <;> rfl

theorem wake_pwrState (s : State) : (wake s).pwr.state = s.pwr.state := by rw [wake_pwr]

theorem wake_sameContexts (s : State) : SameContexts s (wake s) := ⟨by simp, by simp, by simp⟩

theorem returnCredits_slots (s : State) : (returnCredits s).slots = s.slots := by unfold returnCredits; split <;> rfl
theorem returnCredits_dev (s : State) : (returnCredits s).dev = s.dev := by unfold returnCredits; split <;> rfl

theorem unfenced_rings (b : Bool) (s : State) : (unfenced b s).rings = s.rings := by unfold unfenced; split <;> simp
theorem unfenced_slots (b : Bool) (s : State) : (unfenced b s).slots = s.slots := by
  unfold unfenced; split <;> simp [returnCredits_slots]
theorem unfenced_cfg (b : Bool) (s : State) : (unfenced b s).cfg = s.cfg := by unfold unfenced; split <;> simp
theorem unfenced_pending (b : Bool) (s : State) : (unfenced b s).pending = s.pending := by unfold unfenced; split <;> simp
theorem unfenced_dev (b : Bool) (s : State) : (unfenced b s).dev = s.dev := by unfold unfenced; split <;> simp [returnCredits_dev]

theorem unfenced_ctl (b : Bool) (s : State) : (unfenced b s).ctl = { s.ctl with
    handover := b, fence := false, state := .active, flushed := false
    refuse := if s.pwr.state = .active then false else s.ctl.refuse } := by
  unfold unfenced
  split <;> simp [*]

theorem unfenced_drain (b : Bool) {s : State} (h : s.pwr.state = .active) :
    (unfenced b s).drain = { s.drain with credits := s.drain.credits + s.drain.withheld, withheld := 0 } := by
  unfold unfenced
  rw [if_pos h, returnCredits_drain]

/-! ## COVER (R571, R575) -/

theorem spGet_filter_map {α : Type} [DecidableEq α] (d : α) (f : Nat → α) (l : List Nat) (k : Nat) :
    spGet d ((l.map (fun v => (v, f v))).filter (fun x => decide (x.2 ≠ d))) k = if k ∈ l then f k else d := by
  induction l with
  | nil => rfl
  | cons x xs ih =>
    by_cases hd : f x = d
    · rw [List.map_cons, List.filter_cons_of_neg (by simpa using hd), ih]
      by_cases hk : k = x
      · simp [hk, hd]
      · simp [hk]
    · rw [List.map_cons, List.filter_cons_of_pos (by simpa using hd), spGet, ih]
      by_cases hk : x = k
      · simp [hk]
      · simp [hk, Ne.symm hk]

/-- Covering has begun, before the scan of the covered contexts. -/
def coverBegun (clean : Bool) (s : State) : State :=
  { s with twin := { s.twin with
      mode := .cover, clean := clean, covering := true, releasing := false
      vis := ((List.range 1024).map (fun v => (v, readCoverEntry s v))).filter (fun x => decide (x.2 ≠ ⟨0, 0, 0⟩)) } }

theorem setCover_of_uncovered {s : State} (h : s.twin.covering = false) (clean : Bool) :
    setCover clean s = readWork true (coverBegun clean s) := by
  unfold setCover
  rw [if_neg (by simp [h])]
  rfl

theorem setCover_of_covering {s : State} (h : s.twin.covering = true) (clean : Bool) :
    setCover clean s = { s with twin := { s.twin with mode := .cover, clean := clean } } := if_pos h

theorem coverOf_coverBegun (clean : Bool) (s : State) (v : ViId) : coverOf (coverBegun clean s) v = readCoverEntry s v.toNat := by
  unfold coverOf coverBegun
  rw [spGet_filter_map, if_pos (List.mem_range.2 v.isLt)]

/-- The covered rings are to stop at their next boundary. -/
theorem releaseCover_of_covering {s : State} (h : s.twin.covering = true) (h' : s.twin.releasing = false) :
    releaseCover s = { s with
      twin := { s.twin with releasing := true }
      ctl := { s.ctl with stop := if s.ctl.stop = none then some .coverRelease else s.ctl.stop } } := by
  unfold releaseCover
  rw [if_pos (by simp [h, h'])]

theorem releaseCover_of_uncovered {s : State} (h : s.twin.covering = false) : releaseCover s = s := by
  unfold releaseCover
  rw [if_neg (by simp [h])]

theorem releaseCover_cases (s : State) : releaseCover s = s ∨ s.twin.covering = true ∧ releaseCover s = { s with
      twin := { s.twin with releasing := true }
      ctl := { s.ctl with stop := if s.ctl.stop = none then some .coverRelease else s.ctl.stop } } := by
  unfold releaseCover
  split
  · next h => exact .inr ⟨h.1, rfl⟩
  · exact .inl rfl

end Sys2Proof.Machine

open Sys2Proof Sys2Proof.Machine Sys2Proof.Claims

/-- Settles O43: each write of MG_FENCE is one case of its function; what the unfence reads follows from the scan of the contexts. -/
theorem fencesStopAndStartTheUnit : Obligations.FencesStopAndStartTheUnit := by
  unfold Obligations.FencesStopAndStartTheUnit
  intro s b hanswers
  have hrow (f : State → State) : mgmtWrite f s = f (wake s) := mgmtWrite_of_answers hanswers f
  refine ⟨fun hactive hfence => ?_, fun hother => ?_, fun hfence => ?_, fun hfence hunready => ?_,
    fun hfence hwedged hstate hflushed => ?_⟩
  · exact command_eq ((hrow _).trans (fenceSet_of_active hactive hfence b)) (by simp) (by simp)
  · exact command_eq ((hrow _).trans (fenceSet_of_other hother b)) (by simp) (by simp)
  · exact command_eq ((hrow _).trans (fenceClear_of_unfenced hfence b)) (by simp) (by simp)
  · exact command_eq ((hrow _).trans (fenceClear_of_unready hfence hunready b)) (by simp [mgIgnored]) (by simp [mgIgnored])
  · have hready : fenceClear b (wake s) = readWork false (unfenced b (wake s)) :=
      fenceClear_of_ready (by simpa using hfence) (by simpa using hwedged) (by simpa using hstate) (by simpa using hflushed) b
    have heq : readWork false (unfenced b (wake s)) = withReads (unfenced b (wake s)) _ _ := readWork_onlyReads false _
    have hsame : SameContexts s (unfenced b (wake s)) :=
      ⟨by simp [unfenced_dev], by simp [unfenced_cfg], by simp [unfenced_cfg]⟩
    refine ⟨_, command_eq ((hrow _).trans hready) ?_ ?_, ?_, ?_, ?_, fun hactive => ?_, fun r hmem hwork hnone =>
      readWork_asked hsame (by simp [unfenced_rings]) hmem hwork hnone⟩
    · rw [heq]; simp [withReads, unfenced_pending]
    · rw [heq]; simp [withReads, unfenced_cfg]
    · rw [heq]; simp [withReads, unfenced_slots]
    · rw [heq]; simp [withReads, unfenced_rings]
    · rw [heq]; simp [withReads, unfenced_ctl, wake_pwrState]
    · rw [heq]; simpa [withReads] using unfenced_drain b ((wake_pwrState s).trans hactive)

/-- Settles O46: the mode is set, and covering begins or is released by whether the unit covers its twin. -/
theorem twinModesAreSet : Obligations.TwinModesAreSet := by
  unfold Obligations.TwinModesAreSet
  intro s primary clean hanswers
  have hrow (f : State → State) : mgmtWrite f s = f (wake s) := mgmtWrite_of_answers hanswers f
  refine ⟨?_, fun huncovered => ?_, fun hcovering => ?_, fun huncovered => ?_, fun hcovering hreleasing => ?_⟩
  · refine ⟨setLockstep primary clean (wake s), command_eq (hrow _) ?_ ?_, ?_⟩
    · rcases releaseCover_cases (wake s) with h | ⟨-, h⟩ <;> simp [setLockstep, twinFields, h]
    · rcases releaseCover_cases (wake s) with h | ⟨-, h⟩ <;> simp [setLockstep, twinFields, h]
    · refine ⟨rfl, rfl, rfl, rfl, ?_, ?_, fun hcovering hreleasing => ?_⟩
      · rcases releaseCover_cases (wake s) with h | ⟨-, h⟩ <;> simp [setLockstep, twinFields, h]
      · rcases releaseCover_cases (wake s) with h | ⟨-, h⟩ <;> simp [setLockstep, twinFields, h]
      · rw [setLockstep, releaseCover_of_covering (by simpa using hcovering) (by simpa using hreleasing)]
        simp [twinFields]
  · have heq : readWork true (coverBegun clean (wake s)) = withReads (coverBegun clean (wake s)) _ _ := readWork_onlyReads true _
    have hsame : SameContexts s (coverBegun clean (wake s)) := ⟨by simp [coverBegun], by simp [coverBegun], by simp [coverBegun]⟩
    refine ⟨_, command_eq ((hrow _).trans (setCover_of_uncovered (by simpa using huncovered) clean)) ?_ ?_, ?_, ?_, ?_, ?_, ?_,
      fun v => ?_, fun r hmem hwork hnone => readWork_asked hsame (by simp [coverBegun]) hmem hwork hnone⟩
    · rw [heq]; simp [withReads, coverBegun]
    · rw [heq]; simp [withReads, coverBegun]
    · rw [heq]; rfl
    · rw [heq]; rfl
    · rw [heq]; rfl
    · rw [heq]; rfl
    · rw [heq]; simp [withReads, coverBegun]
    · rw [heq]
      exact (coverOf_coverBegun clean (wake s) v).trans ((wake_sameContexts s).readCoverEntry _)
  · refine command_eq ((hrow _).trans ((setCover_of_covering (by simpa using hcovering) clean).trans ?_)) (by simp) (by simp)
    simp
  · have huncovered' : (twinFields .independent (wake s).twin.primary (wake s).twin.clean (wake s)).twin.covering = false := by
      simpa [twinFields] using huncovered
    refine command_eq ((hrow _).trans ((releaseCover_of_uncovered huncovered').trans ?_)) ?_ ?_ <;> simp [twinFields]
  · refine ⟨_, command_eq ((hrow _).trans (releaseCover_of_covering ?_ ?_)) ?_ ?_, ?_, ?_⟩ <;> simp [twinFields, *]

end

section
/-! SUPPORT. What the hinge's functions leave alone: those that only send, count and record change no chain and no ring; those of a
chain change that chain alone, and of the rings only end waits for its FINAL. -/

namespace Sys2Proof.Machine

open Sys2Proof.Claims

/-! ## Sending, counting, recording -/

/-- Neither the twin's mode nor a management field, a ring or a chain differs. -/
structure Quiet (s t : State) : Prop where
  twin   : t.twin = s.twin
  mg     : t.mg = s.mg
  rings  : t.rings = s.rings
  chains : t.chains = s.chains

theorem Quiet.refl (s : State) : Quiet s s := ⟨rfl, rfl, rfl, rfl⟩

theorem Quiet.trans {s t u : State} (h : Quiet s t) (k : Quiet t u) : Quiet s u :=
  ⟨k.twin.trans h.twin, k.mg.trans h.mg, k.rings.trans h.rings, k.chains.trans h.chains⟩

theorem Quiet.foldl {β : Type} (f : State → β → State) (hf : ∀ s x, Quiet s (f s x)) (l : List β) (s : State) :
    Quiet s (l.foldl f s) := by
  induction l generalizing s with
  | nil => exact .refl s
  | cons x rest ih => exact (hf s x).trans (ih _)

theorem Quiet.chainAt {s t : State} (h : Quiet s t) (k : Nat) : chainAt t k = chainAt s k := by
  unfold Machine.chainAt; rw [h.chains]

theorem countEvent_quiet (c n : Nat) (v : Option ViId) (s : State) : Quiet s (countEvent c n v s) := by constructor <;> simp
theorem countTiming_quiet (v : Option ViId) (s : State) : Quiet s (countTiming v s) := by constructor <;> simp
theorem countBits_quiet (n : Nat) (v : ViId) (s : State) : Quiet s (countBits n v s) := by constructor <;> simp
theorem advanceClock_quiet (s : State) : Quiet s (advanceClock s) := by constructor <;> simp
theorem tick_quiet (s : State) : Quiet s (tick s) := by constructor <;> simp
theorem showTwin_quiet (l : List Nat) (s : State) : Quiet s (showTwin l s) := by constructor <;> simp
theorem devWrite_quiet (s : State) (a : Nat) (bs : List Byte) : Quiet s (devWrite s a bs) := by constructor <;> simp
theorem emit_quiet (s : State) (e : OutEvent) : Quiet s (emit s e) := ⟨rfl, rfl, rfl, rfl⟩
theorem det_quiet (s : State) (d : Det) : Quiet s { s with det := d } := ⟨rfl, rfl, rfl, rfl⟩
theorem hinge_quiet (s : State) (h : HingePort) : Quiet s { s with hinge := h } := ⟨rfl, rfl, rfl, rfl⟩

theorem traceDrain_quiet (rs : List TraceRecord) (s : State) : Quiet s (traceDrain rs s) := by
  induction rs generalizing s with
  | nil => exact det_quiet s _
  | cons r rest ih =>
    unfold traceDrain
    dsimp only
    split
    · exact det_quiet s _
    · exact ((devWrite_quiet s _ _).trans (det_quiet _ _)).trans (ih _)

theorem tracePut_quiet (v : Option ViId) (r : TraceRecord) (s : State) : Quiet s (tracePut v r s) := by
  unfold tracePut
  dsimp only
  split
  · have hput : Quiet s (traceFlush { s with det := { s.det with buffer := s.det.buffer ++ [r] } }) :=
      (det_quiet s _).trans (traceDrain_quiet _ _)
    split
    · exact hput
    · exact ((hput.trans (countTiming_quiet v _)).trans (countEvent_quiet 0xC8 1 none _)).trans (det_quiet _ _)
  · exact (det_quiet s _).trans (countEvent_quiet 0xC9 1 none _)

theorem traceNow_quiet (type : Nat) (charge vi : Option ViId) (a b c : Nat) (s : State) :
    Quiet s (traceNow type charge vi a b c s) :=
  (advanceClock_quiet s).trans (tracePut_quiet _ _ _)

theorem traceChoice_quiet (type : Nat) (vi : Option ViId) (a b c : Nat) (s : State) : Quiet s (traceChoice type vi a b c s) := by
  unfold traceChoice
  split
  · exact traceNow_quiet _ _ _ _ _ _ s
  · exact .refl s

theorem traceOrder_quiet (c : Nat) (e : W32) (row : Nat) (owner : ViId) (ins : List Input) (s : State) :
    Quiet s (traceOrder c e row owner ins s) :=
  .foldl _ (fun s _ => traceChoice_quiet _ _ _ _ _ s) _ s

theorem hingeOut_quiet (twin : Bool) (o : ViId) (p : HingePacket) (s : State) : Quiet s (hingeOut twin o p s) := by
  unfold hingeOut
  refine (showTwin_quiet (shownPacket p) s).trans ?_
  generalize showTwin (shownPacket p) s = s
  dsimp only
  split
  · exact .refl s
  · split
    · exact (emit_quiet _ _).trans (countEvent_quiet _ _ _ _)
    · split
      · exact hinge_quiet s _
      · exact ((hinge_quiet s _).trans (emit_quiet _ _)).trans (countEvent_quiet _ _ _ _)

theorem sendHead_quiet (h : HingeHead) (twin : Bool) (o : ViId) (bs : List Byte) (s : State) : Quiet s (sendHead h twin o bs s) :=
  hingeOut_quiet _ _ _ s

theorem sendPlain_quiet (type reason : Nat) (reply : Bool) (c : Nat) (e : W32) (entry : BitVec 32) (s : State) :
    Quiet s (sendPlain type reason reply c e entry s) := sendHead_quiet _ _ _ _ s

theorem sendRetract_quiet (c : Nat) (e : W32) (entry : BitVec 32) (s : State) : Quiet s (sendRetract c e entry s) :=
  (sendPlain_quiet _ _ _ _ _ _ s).trans (countEvent_quiet _ _ _ _)

theorem retractAll_quiet (c : Nat) (e : W32) (s : State) : Quiet s (retractAll c e s) :=
  .foldl _ (fun s _ => sendRetract_quiet c e _ s) _ s

theorem returnFlits_quiet (ch n : Nat) (s : State) : Quiet s (returnFlits ch n s) := (hinge_quiet s _).trans (emit_quiet _ _)

theorem storeRelease_quiet (s : State) : Quiet s (storeRelease s) := by
  unfold storeRelease
  split
  · exact (hinge_quiet s _).trans (returnFlits_quiet _ _ _)
  · exact .refl s

/-! ## Epochs of a descriptor -/

theorem epochAt_number (d : ChainDesc) (e : W32) : (epochAt d e).number = e := by
  unfold epochAt
  cases h : d.epochs.find? (fun x => decide (x.number = e)) with
  | none => rfl
  | some x => simpa using List.find?_some h

theorem epochAt_setEpoch_same (d : ChainDesc) (x : Epoch) : epochAt (setEpoch d x) x.number = x := by
  have hnone : (d.epochs.filter (fun y => decide (y.number ≠ x.number))).find? (fun y => decide (y.number = x.number)) = none := by
    rw [List.find?_eq_none]
    intro y hy
    simpa using (List.mem_filter.1 hy).2
  unfold epochAt setEpoch
  rw [List.find?_append, hnone]
  simp

theorem epochAt_setEpoch_other (d : ChainDesc) (x : Epoch) {e : W32} (h : e ≠ x.number) : epochAt (setEpoch d x) e = epochAt d e := by
  have hkept : (d.epochs.filter (fun y => decide (y.number ≠ x.number))).find? (fun y => decide (y.number = e))
      = d.epochs.find? (fun y => decide (y.number = e)) := by
    rw [List.find?_filter]
    congr 1
    funext y
    by_cases hy : y.number = e
    · simp [hy, h]
    · simp [hy]
  unfold epochAt setEpoch
  rw [List.find?_append, hkept]
  simp [Ne.symm h]

theorem chainAt_setChain_same (s : State) (c : Nat) (d : ChainDesc) : chainAt (setChain s c d) c = d := spGet_spSet_same _ _ _ _

theorem chainAt_setChain_other (s : State) {c j : Nat} (d : ChainDesc) (h : j ≠ c) : chainAt (setChain s c d) j = chainAt s j :=
  spGet_spSet_other _ _ _ h

theorem chainAt_modEpoch_same (s : State) (c : Nat) (e : W32) (f : Epoch → Epoch) :
    chainAt (modEpoch s c e f) c = setEpoch (chainAt s c) (f (epochAt (chainAt s c) e)) := chainAt_setChain_same _ _ _

theorem epochAt_modEpoch_same (s : State) (c : Nat) (e : W32) {f : Epoch → Epoch}
    (h : (f (epochAt (chainAt s c) e)).number = e := by rfl) :
    epochAt (chainAt (modEpoch s c e f) c) e = f (epochAt (chainAt s c) e) := by
  rw [chainAt_modEpoch_same]
  have := epochAt_setEpoch_same (chainAt s c) (f (epochAt (chainAt s c) e))
  rwa [h] at this

theorem epochAt_modEpoch_other (s : State) (c : Nat) {e n : W32} {f : Epoch → Epoch}
    (h : (f (epochAt (chainAt s c) e)).number = e) (hn : n ≠ e) :
    epochAt (chainAt (modEpoch s c e f) c) n = epochAt (chainAt s c) n := by
  rw [chainAt_modEpoch_same]
  exact epochAt_setEpoch_other _ _ (by rwa [h])

/-! ## One chain -/

/-- A wait for a chain's FINAL ends. -/
def endWait (c : Nat) (x : RunCmd) : RunCmd :=
  match x.phase, x.wait with
  | .blocked _, .final k => if k = c then { x with phase := .blocked true } else x
  | _, _ => x

theorem wakeConsumer_rings (c : Nat) (s : State) :
    (wakeConsumer c s).rings = { s.rings with cmds := s.rings.cmds.map (endWait c) } := rfl

theorem endWait_idem (c : Nat) (x : RunCmd) : endWait c (endWait c x) = endWait c x := by
  by_cases h : ∃ b, x.phase = .blocked b ∧ x.wait = .final c
  · obtain ⟨b, hphase, hwait⟩ := h
    simp [endWait, hphase, hwait]
  · have hkeep : endWait c x = x := by
      unfold endWait
      split
      · next b k hphase hwait =>
        rw [if_neg]
        rintro rfl
        exact h ⟨b, hphase, hwait⟩
      · rfl
    rw [hkeep, hkeep]

/-- Of the chains only `c` differs; of the rings, waits for its FINAL may have ended. -/
structure OfChain (c : Nat) (s t : State) : Prop where
  twin   : t.twin = s.twin
  mg     : t.mg = s.mg
  rings  : t.rings = { s.rings with cmds := t.rings.cmds }
  cmds   : t.rings.cmds = s.rings.cmds ∨ t.rings.cmds = s.rings.cmds.map (endWait c)
  others : ∀ j, j ≠ c → chainAt t j = chainAt s j

theorem Quiet.ofChain {s t : State} (h : Quiet s t) (c : Nat) : OfChain c s t :=
  ⟨h.twin, h.mg, by rw [h.rings], .inl (by rw [h.rings]), fun j _ => h.chainAt j⟩

theorem OfChain.refl (c : Nat) (s : State) : OfChain c s s := (Quiet.refl s).ofChain c

theorem OfChain.trans {c : Nat} {s t u : State} (h : OfChain c s t) (k : OfChain c t u) : OfChain c s u := by
  refine ⟨k.twin.trans h.twin, k.mg.trans h.mg, by rw [k.rings, h.rings], ?_, fun j hj => (k.others j hj).trans (h.others j hj)⟩
  rcases h.cmds with h | h <;> rcases k.cmds with k | k
  · exact .inl (k.trans h)
  · exact .inr (by rw [k, h])
  · exact .inr (k.trans h)
  · refine .inr ?_
    rw [k, h, List.map_map]
    exact congrArg (List.map · _) (funext (endWait_idem c))

theorem OfChain.foldl {c : Nat} {β : Type} (f : State → β → State) (hf : ∀ s x, OfChain c s (f s x)) (l : List β) (s : State) :
    OfChain c s (l.foldl f s) := by
  induction l generalizing s with
  | nil => exact .refl c s
  | cons x rest ih => exact (hf s x).trans (ih _)

theorem setChain_ofChain (s : State) (c : Nat) (d : ChainDesc) : OfChain c s (setChain s c d) :=
  ⟨rfl, rfl, rfl, .inl rfl, fun _ hj => chainAt_setChain_other s d hj⟩

theorem modEpoch_ofChain (s : State) (c : Nat) (e : W32) (f : Epoch → Epoch) : OfChain c s (modEpoch s c e f) := setChain_ofChain s c _

theorem wakeConsumer_ofChain (c : Nat) (s : State) : OfChain c s (wakeConsumer c s) := ⟨rfl, rfl, rfl, .inr rfl, fun _ _ => rfl⟩

theorem closeEpoch_ofChain (c : Nat) (e : W32) (r : Status) (s : State) : OfChain c s (closeEpoch c e r s) :=
  ((modEpoch_ofChain s c e _).trans (wakeConsumer_ofChain c _)).trans ((storeRelease_quiet _).ofChain c)

theorem failEpoch_ofChain (c : Nat) (e : W32) (r : Status) (s : State) : OfChain c s (failEpoch c e r s) := by
  unfold failEpoch
  dsimp only
  split
  · exact .refl c s
  · refine .trans ?_ (closeEpoch_ofChain c e r _)
    split
    · exact (retractAll_quiet c e s).ofChain c
    · exact (sendRetract_quiet c e _ s).ofChain c

/-! ## Sending contributions upward -/

/-- What sending its contribution changes in an epoch. -/
def SentOnly (x y : Epoch) : Prop :=
  y = { x with sent := y.sent, unsettledSent := y.unsettledSent, phase := y.phase, timer := y.timer,
               forwarded := y.forwarded, noticed := y.noticed } ∧ y.isOver = x.isOver

/-- Contributions of one epoch of a chain have been sent upward; nothing else of the chains differs. -/
structure Sends (c : Nat) (e : W32) (s t : State) : Prop extends OfChain c s t where
  desc   : chainAt t c = { chainAt s c with epochs := (chainAt t c).epochs }
  epoch  : SentOnly (epochAt (chainAt s c) e) (epochAt (chainAt t c) e)
  epochs : ∀ n, n ≠ e → epochAt (chainAt t c) n = epochAt (chainAt s c) n

theorem SentOnly.refl (x : Epoch) : SentOnly x x := ⟨rfl, rfl⟩

theorem SentOnly.trans {x y z : Epoch} (h : SentOnly x y) (k : SentOnly y z) : SentOnly x z :=
  ⟨by rw [k.1, h.1], k.2.trans h.2⟩

theorem Quiet.sends {s t : State} (h : Quiet s t) (c : Nat) (e : W32) : Sends c e s t :=
  ⟨h.ofChain c, by rw [h.chainAt], by rw [h.chainAt]; exact .refl _, fun n _ => by rw [h.chainAt]⟩

theorem Sends.refl (c : Nat) (e : W32) (s : State) : Sends c e s s := (Quiet.refl s).sends c e

theorem Sends.trans {c : Nat} {e : W32} {s t u : State} (h : Sends c e s t) (k : Sends c e t u) : Sends c e s u :=
  ⟨h.toOfChain.trans k.toOfChain, by rw [k.desc, h.desc], h.epoch.trans k.epoch,
    fun n hn => (k.epochs n hn).trans (h.epochs n hn)⟩

theorem Sends.foldl {c : Nat} {e : W32} {β : Type} (f : State → β → State) (hf : ∀ s x, Sends c e s (f s x)) (l : List β) (s : State) :
    Sends c e s (l.foldl f s) := by
  induction l generalizing s with
  | nil => exact .refl c e s
  | cons x rest ih => exact (hf s x).trans (ih _)

theorem modEpoch_sends (s : State) (c : Nat) (e : W32) {f : Epoch → Epoch} (h : ∀ x, SentOnly x (f x)) : Sends c e s (modEpoch s c e f) := by
  have hnumber : (f (epochAt (chainAt s c) e)).number = e := by rw [(h _).1]; exact epochAt_number _ _
  refine ⟨modEpoch_ofChain s c e f, ?_, ?_, fun n hn => epochAt_modEpoch_other s c hnumber hn⟩
  · rw [chainAt_modEpoch_same]; rfl
  · rw [epochAt_modEpoch_same s c e hnumber]; exact h _

theorem sendPartial_sends (c : Nat) (e : W32) (b : Bool) (pt r0 n : Nat) (bs : List Byte) (s : State) :
    Sends c e s (sendPartial c e b pt r0 n bs s) := by
  unfold sendPartial
  dsimp only
  split
  · exact .refl c e s
  · refine (modEpoch_sends s c e fun x => ⟨rfl, ?_⟩).trans ((hingeOut_quiet _ _ _ _).sends c e)
    cases h : x.phase <;> simp [Epoch.isOver, h]

theorem sendList_sends (c : Nat) (e : W32) (b : Bool) (row : Nat) (r : ChainRow) (s : State) : Sends c e s (sendList c e b row r s) :=
  .foldl _ (fun s _ => sendPartial_sends c e b _ _ _ _ s) _ s

theorem starCounts_quiet (d : ChainDesc) (x : Epoch) (c : Nat) (e : W32) (rows : List Nat) (s : State) :
    Quiet s (rows.foldl (fun s r =>
      let ins := orderedInputs d x r
      let s' := countBits ins.length d.owner s
      traceOrder c e r d.owner ins s') s) :=
  .foldl _ (fun s _ => (countBits_quiet _ _ s).trans (traceOrder_quiet _ _ _ _ _ _)) _ s

theorem forwardRows_sends (c : Nat) (e : W32) (s : State) : Sends c e s (forwardRows c e s) := by
  unfold forwardRows
  dsimp only
  split
  · exact .refl c e s
  · split
    · exact .refl c e s
    · have hmark (l : List (Nat × Nat)) (s : State) :
          Sends c e s (modEpoch s c e fun y => { y with forwarded := y.forwarded ++ l }) := modEpoch_sends s c e fun x => ⟨rfl, rfl⟩
      split
      · refine .trans ?_ ((starCounts_quiet _ _ _ _ _ _).sends c e)
        split
        · exact (hmark _ s).trans (.foldl _ (fun s _ => sendList_sends c e _ _ _ s) _ _)
        · exact ((hmark _ s).trans (.foldl _ (fun s _ => sendPartial_sends c e _ _ _ _ _ s) _ _)).trans
            (.foldl _ (fun s _ => sendPartial_sends c e _ _ _ _ _ s) _ _)
      · split
        · exact (hmark _ s).trans (.foldl _ (fun s _ => sendList_sends c e _ _ _ s) _ _)
        · exact ((hmark _ s).trans (.foldl _ (fun s _ => sendPartial_sends c e _ _ _ _ _ s) _ _)).trans
            (.foldl _ (fun s _ => sendPartial_sends c e _ _ _ _ _ s) _ _)

theorem settleNotice_sends (c : Nat) (e : W32) (s : State) : Sends c e s (settleNotice c e s) := by
  unfold settleNotice
  dsimp only
  split
  · refine .trans (modEpoch_sends s c e fun x => ?_) (sendPartial_sends _ _ _ _ _ _ _ _)
    exact ⟨rfl, rfl⟩
  · exact .refl c e s

/-! ## What a command does to its chain -/

theorem settleOwn_ofChain (c : Nat) (rc : RunCmd) (s : State) : OfChain c s (settleOwn c rc s) :=
  .foldl _ (fun s _ => (modEpoch_ofChain s c _ _).trans (settleNotice_sends c _ _).toOfChain) _ s

theorem retractOwn_ofChain (c : Nat) (rc : RunCmd) (s : State) : OfChain c s (retractOwn c rc s) :=
  .foldl _ (fun s _ => failEpoch_ofChain c _ _ s) _ s

theorem advanceEpoch_ofChain (c : Nat) (s : State) : OfChain c s (advanceEpoch c s) :=
  ((setChain_ofChain s c _).trans (wakeConsumer_ofChain c _)).trans ((storeRelease_quiet _).ofChain c)

theorem invalidateChain_ofChain (c : Nat) (s : State) : OfChain c s (invalidateChain c s) := by
  unfold invalidateChain
  dsimp only
  refine .trans (.trans (.trans (.foldl _ (fun s x => ?_) _ s) (wakeConsumer_ofChain c _)) (setChain_ofChain _ c _))
    ((storeRelease_quiet _).ofChain c)
  split
  · exact failEpoch_ofChain c _ _ s
  · exact .refl c s

theorem contributeRows_ofChain (c : Nat) (rows : List (Nat × ChainRow)) (rc : RunCmd) (b : Bool) (s : State) :
    OfChain c s (contributeRows c rows rc b s) := by
  unfold contributeRows
  dsimp only
  split
  · exact .refl c s
  · split
    · exact ((modEpoch_ofChain s c _ _).trans ((countEvent_quiet _ _ _ _).ofChain c)).trans (failEpoch_ofChain _ _ _ _)
    · exact ((modEpoch_ofChain s c _ _).trans (forwardRows_sends _ _ _).toOfChain).trans (settleNotice_sends _ _ _).toOfChain

theorem settleChain_ofChain (rc : RunCmd) (st : Status) (s : State) : OfChain (pkChainId rc.packet) s (settleChain rc st s) := by
  unfold settleChain
  dsimp only
  split
  · exact .refl _ s
  · split
    · exact .refl _ s
    · have hown : OfChain (pkChainId rc.packet) s (if st.succeeded then settleOwn (pkChainId rc.packet) rc s
          else if (decide (pkOpcode rc.packet = 0x06) && decide (tDest rc.tumbler = 3)) = true then
            failEpoch (pkChainId rc.packet) (chainAt s (pkChainId rc.packet)).epoch .retracted s
          else retractOwn (pkChainId rc.packet) rc s) := by
        split
        · exact settleOwn_ofChain _ _ _
        · split
          · exact failEpoch_ofChain _ _ _ _
          · exact retractOwn_ofChain _ _ _
      split
      · exact hown.trans (advanceEpoch_ofChain _ _)
      · exact hown

end Sys2Proof.Machine
end

section
/-! SUPPORT. Time, counters and the error log: what counting and logging change, and what they do not. The twin's failures. O47. -/

namespace Sys2Proof.Machine

open Sys2Proof.Claims

/-! ## Counting and logging -/

/-- Only the clocks, the pins, the counters, the output and the error log differ. -/
def Notes (s t : State) : Prop :=
  t = { s with free := t.free, out := t.out, tclk := t.tclk, fcyc := t.fcyc, throttled := t.throttled, pins := t.pins,
               ev := t.ev, vis := t.vis, log := t.log }

theorem Notes.refl (s : State) : Notes s s := rfl

theorem Notes.trans {s t u : State} (h : Notes s t) (k : Notes t u) : Notes s u := by
  unfold Notes at *
  rw [k, h]

theorem Notes.foldl {β : Type} (f : State → β → State) (hf : ∀ s x, Notes s (f s x)) (l : List β) (s : State) : Notes s (l.foldl f s) := by
  induction l generalizing s with
  | nil => exact .refl s
  | cons x rest ih => exact (hf s x).trans (ih _)

theorem modVi_notes (s : State) (v : ViId) (f : ViState → ViState) : Notes s (modVi s v f) := rfl

theorem countEvent_notes (c n : Nat) (v : Option ViId) (s : State) : Notes s (countEvent c n v s) := by
  unfold countEvent; split <;> rfl

theorem countFree_notes (c n : Nat) (v : Option ViId) (s : State) : Notes s (countFree c n v s) := by
  unfold countFree; split <;> rfl

theorem countThrottle_notes (n : Nat) (v : Option ViId) (s : State) : Notes s (countThrottle n v s) := by
  unfold countThrottle
  refine (countFree_notes 0x0B n v s).trans ?_
  generalize countFree 0x0B n v s = u
  dsimp only
  split
  · rfl
  · split <;> rfl

theorem countTimings_notes (n : Nat) (v : Option ViId) (s : State) : Notes s (countTimings n v s) := by
  unfold countTimings
  refine (countFree_notes 0x67 n v s).trans ?_
  generalize countFree 0x67 n v s = u
  dsimp only
  split
  · rfl
  · split <;> rfl

theorem countStalls_notes (n : Nat) (s : State) : Notes s (countStalls n s) := by
  unfold countStalls
  split
  · exact .foldl _ (fun s i => countFree_notes _ _ _ s) _ s
  · split
    · exact countFree_notes _ _ _ s
    · rfl

theorem countWithheld_notes (n : Nat) (s : State) : Notes s (countWithheld n s) := by
  unfold countWithheld
  dsimp only
  split
  · rfl
  · split
    · exact ((countThrottle_notes _ _ s).trans (countTimings_notes _ _ _)).trans rfl
    · exact countThrottle_notes _ _ s

theorem advanceClock_notes (s : State) : Notes s (advanceClock s) := by
  unfold advanceClock
  dsimp only
  split
  · rfl
  · split
    · rfl
    · split <;> rfl

theorem tick_notes (s : State) : Notes s (tick s) :=
  (countStalls_notes _ s).trans ((countWithheld_notes _ _).trans (advanceClock_notes _))

theorem logError_notes (e : ErrArgs) (s : State) : Notes s (logError e s).2 := by
  have hirq : Notes s (emit (tick s) (.mgtIrq (irqLine e.cls))) := (tick_notes s).trans rfl
  unfold logError
  dsimp only
  generalize hu : (if e.cls = 0 then countEvent 0xC5 1 none (emit (tick s) (.mgtIrq (irqLine e.cls)))
    else emit (tick s) (.mgtIrq (irqLine e.cls))) = u
  have hnoted : Notes s u := by
    rw [← hu]
    split
    · exact hirq.trans (countEvent_notes _ _ _ _)
    · exact hirq
  split
  · exact Notes.trans hnoted rfl
  · dsimp only
    split
    · exact hnoted
    · exact hnoted.trans (countEvent_notes _ _ _ _)

theorem pinError_notes (i : Nat) (s : State) : Notes s (pinError i s) := by unfold pinError; split <;> rfl

/-- Whatever is no clock, counter, output or log stands. -/
theorem Notes.keeps {α : Type} (g : State → α) {s t : State} (h : Notes s t)
    (hg : ∀ (u : State) free out tclk fcyc throttled pins ev vis log,
      g { u with free := free, out := out, tclk := tclk, fcyc := fcyc, throttled := throttled, pins := pins, ev := ev, vis := vis,
                 log := log } = g u := by intros; rfl) : g t = g s := by
  rw [h]; exact hg ..

theorem logError_irq (e : ErrArgs) (s : State) : OutEvent.mgtIrq (irqLine e.cls) ∈ (logError e s).2.out := by
  unfold logError
  dsimp only
  split <;> split <;> simp [emit]

theorem Notes.keepsCtx {s t : State} (h : Notes s t) : KeepsCtx s t :=
  ⟨h.keeps fun u => u.rings.cache, h.keeps fun u => u.rings.deferred, h.keeps fun u => u.rings.holder, h.keeps fun u => u.twin.mode,
    h.keeps fun u => u.twin.primary⟩

/-! ## A command that a failure ends -/

/-- Nothing of the twin differs but the signature. -/
def SameTwin (s t : State) : Prop := t.twin = { s.twin with signature := t.twin.signature }

theorem SameTwin.refl (s : State) : SameTwin s s := rfl

theorem SameTwin.trans {s t u : State} (h : SameTwin s t) (k : SameTwin t u) : SameTwin s u := by
  unfold SameTwin at *
  rw [k, h]

theorem SameTwin.foldl {β : Type} (f : State → β → State) (hf : ∀ s x, SameTwin s (f s x)) (l : List β) (s : State) :
    SameTwin s (l.foldl f s) := by
  induction l generalizing s with
  | nil => exact .refl s
  | cons x rest ih => exact (hf s x).trans (ih _)

theorem SameTwin.of {s t : State} (h : t.twin = s.twin := by simp) : SameTwin s t := by unfold SameTwin; rw [h]

theorem lockstepFold_sameTwin (l : List Nat) (s : State) : SameTwin s (lockstepFold l s) := by
  unfold lockstepFold
  split
  · rfl
  · exact .refl s

theorem linkSlots_twin (rc : RunCmd) (x : W128) (s : State) : (linkSlots rc x s).twin = s.twin := by
  refine foldl_keeps State.twin _ (fun s h => ?_) _ s
  dsimp only
  split <;> simp

theorem appendRecord_twin (rc : RunCmd) (x : Cpl) (b : Bool) (s : State) : (appendRecord rc x b s).twin = s.twin := by
  unfold appendRecord
  split
  · rfl
  · dsimp only
    split <;> (try rw [linkSlots_twin]) <;> rw [devWriteFor_twin] <;> split <;> simp

theorem writeViews_twin (hs : List Nat) (s : State) : (writeViews hs s).twin = s.twin := by
  refine foldl_keeps State.twin _ (fun s h => ?_) _ s
  split <;> simp

theorem poisonSlots_twin (rc : RunCmd) (s : State) : (poisonSlots rc s).twin = s.twin := by
  refine foldl_keeps State.twin _ (fun s h => ?_) _ s
  split <;> simp

theorem undefineWrites_twin (rc : RunCmd) (s : State) : (undefineWrites rc s).twin = s.twin :=
  foldl_keeps State.twin _ (fun s w => by simp) _ s

theorem undefineRegs_twin (rc : RunCmd) (s : State) : (undefineRegs rc s).twin = s.twin :=
  foldl_keeps State.twin _ (fun s r => by simp) _ s

theorem beforeRecord_twin (rc : RunCmd) (base : Status) (d r n : Nat) (s : State) : (beforeRecord rc base d r n s).twin = s.twin := by
  unfold beforeRecord
  dsimp only
  rw [appendRecord_twin, showTwin_twin, (settleChain_ofChain rc _ _).twin]
  split <;> simp [writeViews_twin, poisonSlots_twin, undefineWrites_twin, undefineRegs_twin]

theorem modCtx_sameTwin (s : State) (ring : Nat) (f : RingCtx → RingCtx) : SameTwin s (modCtx s ring f) := .of

theorem modVi_sameTwin (s : State) (v : ViId) (f : ViState → ViState) : SameTwin s (modVi s v f) := .of

theorem writeCpl_sameTwin (ring : Nat) (x : Cpl) (s : State) : SameTwin s (writeCpl ring x s) := by
  have hfold (l : List Nat) (u : State) (hu : u.twin = s.twin) : SameTwin s (lockstepFold l u) :=
    (SameTwin.of hu).trans (lockstepFold_sameTwin l u)
  unfold writeCpl
  dsimp only
  refine .trans ?_ (modCtx_sameTwin _ _ _)
  split
  · exact hfold _ _ (by simp)
  · exact (hfold _ _ (by simp)).trans (modVi_sameTwin _ _ _)

theorem writeNotify_sameTwin (ring n : Nat) (s : State) : SameTwin s (writeNotify ring n s) := .of (writeNotify_rest _ _ _).2.2

theorem skipGo_sameTwin (ring n : Nat) (s : State) : SameTwin s (skipGo ring n s) := by
  induction n generalizing s with
  | zero => exact .refl s
  | succ n ih =>
    unfold skipGo
    dsimp only
    refine .trans (.trans ?_ (modCtx_sameTwin _ _ _)) (ih _)
    split
    · exact (writeCpl_sameTwin ring _ s).trans (writeNotify_sameTwin _ _ _)
    · exact writeCpl_sameTwin ring _ s

theorem skipAll_sameTwin (ring : Nat) (s : State) : SameTwin s (skipAll ring s) :=
  .trans (t := { s with rings := { s.rings with fetched := s.rings.fetched.filter (fun f => decide (f.ring ≠ ring)) } }) (.of rfl)
    (skipGo_sameTwin ring _ _)

theorem actionDone_twin (v : ViId) (ring : Nat) (s : State) : (actionDone v ring s).twin = s.twin := by
  unfold actionDone; split <;> simp
theorem endTurn_twin (ring : Nat) (s : State) : (endTurn ring s).twin = s.twin := by
  unfold endTurn; split <;> (try split) <;> rfl
theorem disableRing_twin (ring : Nat) (s : State) : (disableRing ring s).twin = s.twin := by
  simp [disableRing, clearDeferred, setRingState]
theorem viResetCheck_twin (s : State) : (viResetCheck s).twin = s.twin := by
  unfold viResetCheck; split <;> (try split) <;> rfl

theorem ringAfter_sameTwin (ring : Nat) (st : Status) (s : State) : SameTwin s (ringAfter ring st s) := by
  have hend (u : State) (x : RingState) : (setRingState (endTurn ring u) ring x).twin = u.twin := by simp [setRingState, endTurn_twin]
  unfold ringAfter
  dsimp only
  split
  · exact .of (by simp [viResetCheck_twin, endTurn_twin, disableRing_twin, actionDone_twin])
  · generalize hu : (if ringDeferred s ring = none then _ else _ : State) = u
    have htwin : SameTwin s u := by
      rw [← hu]
      split
      · exact .of
      · exact .of (by simp [actionDone_twin, clearDeferred])
    refine htwin.trans ?_
    split
    · split
      · exact .of (hend u _)
      · exact (SameTwin.of (hend u _)).trans (skipAll_sameTwin _ _)
    · split
      · exact .of (hend u _)
      · split
        · exact .of (hend u _)
        · exact .of (by simp [setRingState])

theorem completeCmd_sameTwin (rc : RunCmd) (base : Status) (d r n : Nat) (s : State) : SameTwin s (completeCmd rc base d r n s) := by
  rw [completeCmd_eq]
  refine .trans ?_ (ringAfter_sameTwin _ _ _)
  refine .trans (.of (beforeRecord_twin rc base d r n s)) ?_
  split
  · exact (writeCpl_sameTwin _ _ _).trans (writeNotify_sameTwin _ _ _)
  · exact writeCpl_sameTwin _ _ _

theorem failCmd_sameTwin (rc : RunCmd) (e : ErrArgs) (s : State) : SameTwin s (failCmd rc e s) :=
  .trans (.of (((logError_notes _ s).trans (pinError_notes _ _)).keeps State.twin)) (completeCmd_sameTwin _ _ _ _ _ _)

/-- A command that fails by an error completes ERROR_CONTAINED. -/
theorem failCmd_completed {rc : RunCmd} {s : State} (hfresh : rc.failed = none) (hcached : (cacheEntry s rc.ring).isSome) (e : ErrArgs) :
    ∃ y, Completed s (failCmd rc e s) rc y ∧ y.seq = rc.seq.toNat ∧ y.status = .errorContained := by
  have hlogged : Notes s (pinError (logError { e with ring := some (rc.ring, rc.seq.toNat, rc.vi) } s).1
      (logError { e with ring := some (rc.ring, rc.seq.toNat, rc.vi) } s).2) := (logError_notes _ s).trans (pinError_notes _ _)
  refine ⟨_, Completed.after hlogged.keepsCtx rfl rfl rfl hcached (completeCmd_completed rc .errorContained _ _ _ _ ?_), rfl,
    finalStatus_errorContained hfresh⟩
  rwa [hlogged.keeps fun u => cacheEntry u rc.ring]

theorem failCmd_pending (rc : RunCmd) (e : ErrArgs) (s : State) : (failCmd rc e s).pending = s.pending :=
  (completeCmd_frame _ _ _ _ _ _).pending.trans (((logError_notes _ s).trans (pinError_notes _ _)).keeps State.pending)

theorem failCmd_cfg (rc : RunCmd) (e : ErrArgs) (s : State) : (failCmd rc e s).cfg = s.cfg :=
  (completeCmd_frame _ _ _ _ _ _).cfg.trans (((logError_notes _ s).trans (pinError_notes _ _)).keeps State.cfg)

theorem failHolder_of_some {e : ErrArgs} {s : State} {rc : RunCmd} (h : holderCmd s = some rc) : failHolder e s = failCmd rc e s := by
  unfold failHolder; rw [h]

theorem failHolder_of_none {e : ErrArgs} {s : State} (h : holderCmd s = none) : failHolder e s = (logError e s).2 := by
  unfold failHolder; rw [h]

/-! ## The twin's failures (R47, R563, R568, R569) -/

/-- The twin's heartbeat is noted as lost. -/
def noteLost (s : State) : State := { s with twin := { s.twin with lost := true } }

/-- What the log says of a lost twin. -/
def lostError : ErrArgs := ⟨clChip, 12, ckBoundary, 0, none⟩

theorem twinLost_of_live {s : State} (hstate : s.ctl.state ≠ .off) (hlost : s.twin.lost = false) :
    twinLost s = if s.twin.mode = .lockstep ∧ s.twin.primary = true then failHolder lostError (noteLost s)
      else (logError lostError (noteLost s)).2 :=
  if_neg (by simp [hstate, hlost])

theorem twinSignature_of_other {s : State} {x : W64} (hmode : s.twin.mode = .lockstep) (hx : x ≠ s.twin.signature) :
    twinSignature x s = failHolder ⟨clContained, 12, ckCompare, 0, ringArgs (holderCmd s)⟩ (countEvent 0xCB 1 none s) :=
  if_neg (by simp [hmode, hx])

end Sys2Proof.Machine

open Sys2Proof Sys2Proof.Machine Sys2Proof.Claims

/-- Settles O47: where the pair does not end it, a failure of the twin is only logged; else the running command fails by an error. -/
theorem twinFailuresEndTheCommand : Obligations.TwinFailuresEndTheCommand := by
  unfold Obligations.TwinFailuresEndTheCommand
  intro s rc x hfresh
  refine ⟨fun h => command_of_same (if_pos h), fun hstate hlost hsingle => ?_, fun hstate hlost hmode hprimary hholder hcached => ?_,
    fun h => command_of_same (if_pos h), fun hmode hx hholder hcached => ?_, fun hmode hx hholder => ?_⟩
  · have hnotes := logError_notes lostError (noteLost s)
    refine ⟨_, command_eq ((twinLost_of_live hstate hlost).trans (if_neg hsingle)) (hnotes.keeps State.pending) (hnotes.keeps State.cfg),
      hnotes.keeps State.twin, hnotes.keeps State.rings, logError_irq lostError _⟩
  · have hholder' : holderCmd (noteLost s) = some rc := hholder
    obtain ⟨y, hdone, hseq, hstatus⟩ := failCmd_completed (s := noteLost s) hfresh hcached lostError
    refine ⟨failCmd rc lostError (noteLost s), y, command_eq ((twinLost_of_live hstate hlost).trans
      ((if_pos ⟨hmode, hprimary⟩).trans (failHolder_of_some hholder'))) (failCmd_pending _ _ _) (failCmd_cfg _ _ _), ?_, ?_, hseq, hstatus⟩
    · rw [failCmd_sameTwin rc lostError (noteLost s)]; rfl
    · exact Completed.after (s := s) (u := noteLost s) ⟨rfl, rfl, rfl, rfl, rfl⟩ rfl rfl rfl hcached hdone
  · have hcounted : Notes s (countEvent 0xCB 1 none s) := countEvent_notes _ _ _ s
    have hholder' : holderCmd (countEvent 0xCB 1 none s) = some rc := by rw [hcounted.keeps holderCmd, hholder]
    have hcached' : (cacheEntry (countEvent 0xCB 1 none s) rc.ring).isSome := by rwa [hcounted.keeps fun u => cacheEntry u rc.ring]
    obtain ⟨y, hdone, hseq, hstatus⟩ := failCmd_completed hfresh hcached' ⟨clContained, 12, ckCompare, 0, ringArgs (holderCmd s)⟩
    exact ⟨_, y, command_eq ((twinSignature_of_other hmode hx).trans (failHolder_of_some hholder'))
      ((failCmd_pending _ _ _).trans (by simp)) ((failCmd_cfg _ _ _).trans (by simp)),
      Completed.after hcounted.keepsCtx rfl rfl rfl hcached hdone, hseq, hstatus⟩
  · have hcounted : Notes s (countEvent 0xCB 1 none s) := countEvent_notes _ _ _ s
    have hholder' : holderCmd (countEvent 0xCB 1 none s) = none := by rw [hcounted.keeps holderCmd, hholder]
    have hnotes := hcounted.trans (logError_notes ⟨clContained, 12, ckCompare, 0, ringArgs (holderCmd s)⟩ _)
    exact ⟨_, command_eq ((twinSignature_of_other hmode hx).trans (failHolder_of_none hholder')) (hnotes.keeps State.pending)
      (hnotes.keeps State.cfg), hnotes.keeps State.rings, hnotes.keeps State.twin, logError_irq _ _⟩

end

section
/-! SUPPORT. The flush: what no step of it touches (the unit's control state, the drain, the power state), and how a stop ends. O45. -/

namespace Sys2Proof.Machine

open Sys2Proof.Claims

/-! ## What a flush leaves alone -/

/-- What no step of a flush touches. -/
def standing (s : State) : UnitCtl × Drain × PowerState × BitVec 2 := (s.ctl, s.drain, s.pwr.state, s.pwr.pending)

theorem standing_of_frame {s t : State} (h : Frame s t) : standing t = standing s := by
  unfold standing; rw [h.ctl, h.drain, h.pwr]

theorem standing_of_aside {s t : State} (h : Aside s t) : standing t = standing s := standing_of_frame h.toStays.frame

theorem Notes.standing {s t : State} (h : Notes s t) : standing t = standing s := h.keeps Machine.standing

theorem modCtx_standing (s : State) (r : Nat) (f : RingCtx → RingCtx) : standing (modCtx s r f) = standing s :=
  standing_of_frame (modCtx_stays s r f).frame

theorem tolViolations_standing (s : State) : standing (tolViolations s) = standing s := by
  unfold tolViolations
  split
  · rfl
  · refine foldl_keeps standing _ (fun s e => ?_) _ s
    dsimp only
    split
    · exact (countEvent_notes _ _ _ _).standing
    · rfl

/-! ## Actions that waited for their contexts -/

theorem applyDoorbell_standing (v : ViId) (ring : Nat) (tail : W32) (s : State) : standing (applyDoorbell v ring tail s) = standing s := by
  have hboundary (p : Bool) (u : State) : standing (if p then nextBoundary u else u) = standing u := by split <;> rfl
  unfold applyDoorbell
  dsimp only
  split
  · exact (countEvent_notes _ _ _ _).standing
  · rw [hboundary]
    have hmoved : standing (modCtx (traceChoice 1 (some v) ring 0 tail.toNat (countEvent 0x60 1 (some v) s)) ring
        (fun c => { c with tail := tail })) = standing s := by
      rw [modCtx_standing, standing_of_aside (traceChoice_aside _ _ _ _ _ _), (countEvent_notes _ _ _ _).standing]
    split
    · split
      · exact hmoved
      · rw [tolViolations_standing, setRingState, modCtx_standing, hmoved]
    · split
      · exact hmoved
      · rw [standing_of_frame (skipAll_stays _ _).frame, hmoved]
    · exact hmoved

theorem createRing_standing (v : ViId) (ring : Nat) (image : BitVec 512) (s : State) :
    standing (createRing v ring image s) = standing s := by
  simp [createRing, standing]

theorem dropChoice_standing (ring : Nat) (s : State) : standing (dropChoice ring s) = standing s := by
  unfold dropChoice; split <;> (try split) <;> rfl

theorem applyAction_standing (a : PageAction) (s : State) : standing (applyAction a s) = standing s := by
  have hresult (v : ViId) (n : Byte) (u : State) : standing (setResult v n u) = standing u := rfl
  have hstate (u : State) (r : Nat) (x : RingState) : standing (setRingState u r x) = standing u := modCtx_standing u r _
  have hdefer : standing (if (ringDeferred s a.ring).isSome then s
      else { s with rings := { s.rings with deferred := s.rings.deferred ++ [(a.ring, .pause)] } }) = standing s := by split <;> rfl
  unfold applyAction
  cases a.action with
  | doorbell tail => exact applyDoorbell_standing _ _ _ _
  | create image =>
    dsimp only
    split
    · exact (countEvent_notes _ _ _ _).standing
    · exact createRing_standing _ _ _ _
  | resume =>
    dsimp only
    split
    · split
      · rfl
      · rw [hresult, hstate, standing_of_frame (skipAll_stays _ _).frame]
    · split
      · rfl
      · rw [hresult, hstate]
    · rfl
  | pause =>
    dsimp only
    split
    · rw [hresult, hstate]
    · split
      · exact hdefer
      · rw [hresult, dropChoice_standing, hstate]
    · exact hdefer
    · exact hdefer
    · exact hdefer
    · rfl
  | destroy =>
    have hdisabled : standing (setResult a.vi 0 (disableRing a.ring s)) = standing s :=
      (hresult _ _ _).trans (standing_of_frame (disableRing_stays _ _).frame)
    dsimp only
    split
    · exact hdisabled
    · exact hdisabled
    · exact hdisabled
    · rfl

theorem runActions_standing (l kept : List PageAction) (s : State) : standing (runActions l kept s) = standing s := by
  induction l generalizing kept s with
  | nil => rfl
  | cons a rest ih =>
    unfold runActions
    split
    · exact ih _ _
    · dsimp only
      rw [ih]
      split
      · exact applyAction_standing a s
      · exact applyAction_standing a s

/-! ## Contexts that return -/

theorem makeRoom_standing (s : State) : standing (makeRoom s) = standing s := by
  unfold makeRoom
  split
  · rfl
  · dsimp only
    split
    · rfl
    · have hback (e : CtxEntry) (u : State) : standing (writeBackCtx e u) = standing u := standing_of_aside (writeBackCtx_aside e u)
      split
      · rw [startCtxRead_onlyReads]
        exact hback _ _
      · exact hback _ _

theorem loadCtx_standing (ring : Nat) (s : State) : standing (loadCtx ring s) = standing s := by
  unfold loadCtx
  dsimp only
  split
  · split
    · exact makeRoom_standing s
    · exact makeRoom_standing s
  · exact makeRoom_standing s

theorem contextReturn_standing (ring : Nat) (s : State) : standing (contextReturn ring s) = standing s := by
  unfold contextReturn
  split
  · dsimp only
    split
    · exact (runActions_standing _ _ _).trans ((makeRoom_standing _).trans ((countEvent_notes _ _ _ _).standing.trans
        ((logError_notes _ _).standing.trans (countEvent_notes _ _ _ _).standing)))
    · exact (runActions_standing _ _ _).trans ((loadCtx_standing _ _).trans (countEvent_notes _ _ _ _).standing)
  · rfl

theorem finishReads_standing (s : State) : standing (finishReads s) = standing s := by
  unfold finishReads
  exact (foldl_keeps standing _ (fun s r => contextReturn_standing r s) _ _).trans rfl

/-! ## The steps of a flush (R555) -/

theorem suspendedCmd_standing (s : State) (ring : Nat) (c : RingCtx) : standing (suspendedCmd s ring c).2 = standing s := by
  unfold suspendedCmd
  split
  · rfl
  · split <;> rfl

theorem retractFlushed_standing (rc : RunCmd) (s : State) : standing (retractFlushed rc s) = standing s := by
  unfold retractFlushed
  dsimp only
  split
  · exact foldl_keeps standing _ (fun s x => standing_of_aside (failEpoch_aside _ _ _ s)) _ s
  · rfl

theorem failCmdUnlogged_standing (rc : RunCmd) (s : State) : standing (failCmdUnlogged rc s) = standing s :=
  standing_of_frame (completeCmd_frame _ _ _ _ _ _)

theorem flushCmd_standing (handover : Bool) (ring : Nat) (s : State) : standing (flushCmd handover ring s) = standing s := by
  unfold flushCmd
  split
  · dsimp only
    split
    · exact (failCmdUnlogged_standing _ _).trans (suspendedCmd_standing s ring _)
    · rfl
  · split
    · rfl
    · dsimp only
      rw [failCmdUnlogged_standing, retractFlushed_standing]
      split
      · split <;> rfl
      · rfl

theorem flushHalt_standing (ring : Nat) (s : State) : standing (flushHalt ring s) = standing s := by
  unfold flushHalt
  dsimp only
  split
  · rfl
  · exact modCtx_standing _ _ _

theorem flushBack_standing (ring : Nat) (s : State) : standing (flushBack ring s) = standing s := by
  have hsaved : standing (if s.rings.resident.contains ring then saveRegs ring s else s) = standing s := by
    split
    · exact standing_of_frame (saveRegs_works ring s).toFrame
    · rfl
  unfold flushBack
  dsimp only
  split
  · exact (standing_of_aside (writeBackCtx_aside _ _)).trans hsaved
  · exact hsaved

theorem flushSteps_standing {handover coveredOnly : Bool} {u : State} {f : State → State} (hf : f ∈ flushSteps handover coveredOnly u)
    (s : State) : standing (f s) = standing s := by
  unfold flushSteps at hf
  simp only [List.mem_append, List.mem_map] at hf
  rcases hf with ((⟨ring, -, rfl⟩ | ⟨ring, -, rfl⟩) | ⟨ring, -, rfl⟩) | hcover
  · exact flushCmd_standing _ _ s
  · exact flushHalt_standing _ s
  · exact flushBack_standing _ s
  · split at hcover
    · rw [List.mem_singleton.1 hcover]
      exact standing_of_aside (devWrite_aside _ _ _)
    · cases hcover

theorem runSteps_standing {l : List (State → State)} (h : ∀ f ∈ l, ∀ s, standing (f s) = standing s) (s : State) :
    standing (l.foldl (fun s f => f s) s) = standing s := by
  induction l generalizing s with
  | nil => rfl
  | cons f rest ih =>
    rw [List.foldl_cons, ih fun g hg => h g (List.mem_cons_of_mem f hg)]
    exact h f List.mem_cons_self s

theorem dropRings_standing (gone : Nat → Bool) (s : State) : standing (dropRings gone s) = standing s := rfl

theorem runFlush_standing (handover coveredOnly ends : Bool) (s : State) : standing (runFlush handover coveredOnly ends s) = standing s := by
  unfold runFlush
  dsimp only
  split
  · rw [dropRings_standing, runSteps_standing fun f hf => flushSteps_standing hf, finishReads_standing]
  · rw [runSteps_standing fun f hf => flushSteps_standing (List.mem_of_mem_take hf)]
    exact finishReads_standing s

/-- A whole flush leaves no ring, no command and no register file. -/
theorem runFlush_gone (handover : Bool) (s : State) :
    (runFlush handover false true s).rings.cache = [] ∧ (runFlush handover false true s).rings.cmds = []
      ∧ (runFlush handover false true s).rings.regs = [] := by
  simp [runFlush, dropRings]

/-! ## Stopping (R554, R606) -/

theorem suspendRing_frame (rc : RunCmd) (s : State) : Frame s (suspendRing rc s) := by
  unfold suspendRing
  dsimp only
  refine .trans ?_ (countEvent_aside _ _ _ _).toStays.frame
  have hsaved := (touchSave_works rc.ring (ctxOfRing s rc.ring) 81920 3072
    (setCmd s { decidedHere rc with phase := .suspended, retained := true })).toFrame
  constructor <;> simp [hsaved.pending, hsaved.cfg, hsaved.readData, hsaved.ctl, hsaved.pwr, hsaved.log, hsaved.drain, hsaved.shift,
    hsaved.tabs, hsaved.mode, hsaved.primary]

theorem stopHolder_frame (r : StopReason) (s : State) : Frame s (stopHolder r s) := by
  unfold stopHolder
  split
  · split
    · exact .refl s
    · exact suspendRing_frame _ s
  · exact .refl s

/-- A fence stops here: the running command is suspended, the beats are discarded, and the flush begins. -/
def fenceStopped (s : State) : State :=
  let s1 := stopHolder .fence s
  discardBeats { s1 with ctl := { s1.ctl with flushing := true, state := .fenced } }

/-- A power-down stops here. -/
def downStopped (s : State) : State :=
  let s1 := stopHolder .powerDown s
  discardBeats { s1 with ctl := { s1.ctl with flushing := true }, pwr := { s1.pwr with state := .checkpoint } }

theorem fenceStopped_standing (s : State) : standing (fenceStopped s) =
    ({ s.ctl with flushing := true, state := .fenced },
      { s.drain with queue := [], withheld := s.drain.withheld + s.drain.queue.length }, s.pwr.state, s.pwr.pending) := by
  have h := stopHolder_frame .fence s
  simp [fenceStopped, standing, discardBeats, h.ctl, h.drain, h.pwr]

theorem downStopped_standing (s : State) : standing (downStopped s) =
    ({ s.ctl with flushing := true },
      { s.drain with queue := [], withheld := s.drain.withheld + s.drain.queue.length }, .checkpoint, s.pwr.pending) := by
  have h := stopHolder_frame .powerDown s
  simp [downStopped, standing, discardBeats, h.ctl, h.drain, h.pwr]

theorem unitStop_of_fence {s : State} (hstop : s.ctl.stop = some .fence) (hflushing : s.ctl.flushing = false)
    (hready : stopReady .fence s = true) (ends : Bool) : unitStop ends s = flushFor .fence ends (fenceStopped s) := by
  unfold unitStop
  rw [hstop]
  dsimp only
  rw [if_neg (by simp [hflushing]), if_neg (by simp [hready])]
  rfl

theorem unitStop_of_powerDown {s : State} (hstop : s.ctl.stop = some .powerDown) (hflushing : s.ctl.flushing = false)
    (hready : stopReady .powerDown s = true) (hpending : s.pwr.pending ≠ 1) (ends : Bool) :
    unitStop ends s = flushFor .powerDown ends (downStopped s) := by
  have hpending' : (stopHolder .powerDown s).pwr.pending ≠ 1 := by rwa [(stopHolder_frame .powerDown s).pwr]
  unfold unitStop
  rw [hstop]
  dsimp only
  rw [if_neg (by simp [hflushing]), if_neg (by simp [hready])]
  exact if_neg hpending'

/-- A flush of a fence or a power-down, before what its end leaves. -/
def flushOf (r : StopReason) (ends : Bool) (s : State) : State := runFlush (keepsCommands r s) false ends s

theorem flushFor_of_hung {r : StopReason} (h : r ≠ .coverRelease) (s : State) : flushFor r false s = flushOf r false s := by
  unfold flushFor flushOf
  rw [decide_eq_false h]
  rfl

theorem flushFor_of_ended {r : StopReason} (h : r ≠ .coverRelease) (s : State) :
    flushFor r true s = flushDone r (flushOf r true s) := by
  unfold flushFor flushOf
  rw [decide_eq_false h]
  rfl

theorem flushOf_standing (r : StopReason) (ends : Bool) (s : State) : standing (flushOf r ends s) = standing s :=
  runFlush_standing _ _ _ s

theorem flushOf_gone (r : StopReason) (s : State) :
    (flushOf r true s).rings.cache = [] ∧ (flushOf r true s).rings.cmds = [] ∧ (flushOf r true s).rings.regs = [] :=
  runFlush_gone _ s

/-- The unit is fenced, its flush done. -/
theorem flushDone_fence (s : State) :
    (flushDone .fence s).ctl = { s.ctl with flushing := false, stop := none, flushed := true }
      ∧ (flushDone .fence s).drain = s.drain ∧ (flushDone .fence s).rings = s.rings := by
  unfold flushDone
  dsimp only
  split <;> exact ⟨rfl, rfl, rfl⟩

theorem flushDone_powerDown {s : State} (h : s.pwr.pending ≠ 1) :
    flushDone .powerDown s = railOff { s with ctl := { s.ctl with flushing := false, stop := none, flushed := true } } := if_neg h

theorem railOff_out (s : State) : OutEvent.railRequest false ∈ (railOff s).out := by simp [railOff, emit]

/-- A command's step, whatever its meaning leaves of the queue and of what software sets. -/
theorem command_to {f : State → State} {s t : State} (h : f s = t) :
    command f s = .next { t with pending := s.pending, cfg := s.cfg } := by
  rw [← h]; rfl

/-- What stands of a state, taken apart. -/
theorem standing_eq {s : State} {c : UnitCtl} {d : Drain} {p : PowerState} {n : BitVec 2} (h : standing s = (c, d, p, n)) :
    s.ctl = c ∧ s.drain = d ∧ s.pwr.state = p ∧ s.pwr.pending = n := by
  simpa [standing] using h

end Sys2Proof.Machine

open Sys2Proof Sys2Proof.Machine Sys2Proof.Claims

/-- Settles O45: the unit's control state, drain and power state come through the flush as the stop left them. -/
theorem stopsFlushTheUnit : Obligations.StopsFlushTheUnit := by
  unfold Obligations.StopsFlushTheUnit
  intro s r ends
  refine ⟨fun hstop => ?_, fun hstop hflushing hready => ?_, fun hstop hflushing hready => ?_, fun hstop hflushing hready hpending => ?_,
    fun hflushing => command_of_same (if_neg (by simp [hflushing])), fun hflushing hstop => ?_, fun hflushing hstop hpending => ?_⟩
  · exact ⟨command_of_same (by simp [unitStop, hstop]), command_of_same (by simp [stopAbort, hstop])⟩
  · exact ⟨command_of_same (by simp [unitStop, hstop, hflushing, hready]),
      command_eq (by simp [stopAbort, hstop, hflushing, hready]) rfl rfl⟩
  · have hstanding := (flushOf_standing .fence ends _).trans (fenceStopped_standing s)
    refine ⟨_, command_to (unitStop_of_fence hstop hflushing hready ends), ?_⟩
    cases ends with
    | false =>
      obtain ⟨hctl, hdrain, -, -⟩ := standing_eq hstanding
      rw [flushFor_of_hung (by decide)]
      simp [hctl, hdrain]
    | true =>
      have hgone := flushOf_gone .fence (fenceStopped s)
      rw [flushFor_of_ended (by decide)]
      generalize flushOf .fence true (fenceStopped s) = v at *
      obtain ⟨hctl, hdrain, -, -⟩ := standing_eq hstanding
      obtain ⟨hdone, hkept, hrings⟩ := flushDone_fence v
      simp [hdone, hkept, hrings, hctl, hdrain, hgone]
  · have hstanding := (flushOf_standing .powerDown ends _).trans (downStopped_standing s)
    refine ⟨_, command_to (unitStop_of_powerDown hstop hflushing hready hpending ends), ?_⟩
    cases ends with
    | false =>
      obtain ⟨hctl, hdrain, hstate, -⟩ := standing_eq hstanding
      rw [flushFor_of_hung (by decide)]
      simp [hctl, hdrain, hstate]
    | true =>
      have hgone : (flushOf .powerDown true (downStopped s)).rings.cmds = [] := (flushOf_gone _ _).2.1
      rw [flushFor_of_ended (by decide)]
      generalize flushOf .powerDown true (downStopped s) = v at *
      obtain ⟨hctl, hdrain, hstate, hkept⟩ := standing_eq hstanding
      rw [flushDone_powerDown (by rwa [hkept])]
      simp [railOff, emit, hdrain, hgone]
  · refine command_eq ?_ rfl rfl
    unfold flushTimeout
    rw [if_pos hflushing]
    cases hreason : s.ctl.stop with
    | none => rfl
    | some x =>
      cases x with
      | powerDown => exact absurd hreason hstop
      | fence => rfl
      | coverRelease => rfl
  · refine ⟨_, command_eq (t := railOff { s with ctl := { s.ctl with flushing := false, wedged := true, stop := none } }) ?_ rfl rfl,
      rfl, rfl, rfl, rfl⟩
    unfold flushTimeout
    rw [if_pos hflushing]
    dsimp only
    rw [hstop]
    exact if_neg hpending

end

section
/-! SUPPORT. Requests of MG_POWER_CTRL, the rail, power-up. O48, O49. -/

namespace Sys2Proof.Machine

open Sys2Proof.Claims

/-- A register row's step, whatever its meaning leaves of the queue. -/
theorem register_to {f : State → State} {s t : State} (h : f s = t) : register f s = .next { t with pending := s.pending } := by
  rw [← h]; rfl

/-! ## MG_POWER_CTRL (R585, R604, R619) -/

theorem powerFields_ctl (a : Bool) (floor ceil : BitVec 3) (s : State) : (powerFields a floor ceil s).ctl = s.ctl := by
  unfold powerFields
  dsimp only
  split <;> split <;> simp [mgIgnored]

/-- The fields may ask for another operating point, and change nothing else of the power controller. -/
theorem powerFields_pwr (a : Bool) (floor ceil : BitVec 3) (s : State) :
    (powerFields a floor ceil s).pwr = { s.pwr with opReq := (powerFields a floor ceil s).pwr.opReq } := by
  unfold powerFields
  dsimp only
  split <;> split <;> simp [mgIgnored]

/-- The unit after the fields of a request, before the request. -/
def asked (a : Bool) (floor ceil : BitVec 3) (s : State) : State := powerFields a floor ceil (wake s)

theorem asked_ctl (a : Bool) (floor ceil : BitVec 3) (s : State) : (asked a floor ceil s).ctl = s.ctl := by
  rw [asked, powerFields_ctl]; simp

theorem asked_state (a : Bool) (floor ceil : BitVec 3) (s : State) : (asked a floor ceil s).pwr.state = s.pwr.state := by
  rw [asked, powerFields_pwr]; exact wake_pwrState s

theorem wake_of_active {s : State} (hstate : s.pwr.state = .active) (hmove : s.pwr.move = .none) : wake s = s := by
  unfold wake
  rw [hmove, hstate]
  split <;> rfl

theorem asked_move {s : State} (hstate : s.pwr.state = .active) (hmove : s.pwr.move = .none) (a : Bool) (floor ceil : BitVec 3) :
    (asked a floor ceil s).pwr.move = .none := by
  rw [asked, powerFields_pwr, wake_of_active hstate hmove]; exact hmove

theorem powerOffRow_of_answers {s : State} (h : mgmtAnswers s = true) (a : Bool) (floor ceil : BitVec 3) :
    powerOffRow a floor ceil s = powerOff (asked a floor ceil s) := mgmtWrite_of_answers h _

theorem powerOnRow_of_answers {s : State} (h : mgmtAnswers s = true) (a : Bool) (floor ceil : BitVec 3) :
    powerOnRow a floor ceil s = powerOn (asked a floor ceil s) := by
  have hclosed : s.ctl.test ≠ .opened := by rw [of_decide_eq_true h]; nofun
  exact (if_neg hclosed).trans (mgmtWrite_of_answers h _)

theorem powerOff_of_resetting {s : State} (h : s.ctl.state = .resetting) : powerOff s = holdRequest 2 s := if_pos h
theorem powerOn_of_resetting {s : State} (h : s.ctl.state = .resetting) : powerOn s = holdRequest 1 s := if_pos h

theorem powerOff_of_active {s : State} (h : s.ctl.state ≠ .resetting) (hstate : s.pwr.state = .active) (hmove : s.pwr.move = .none) :
    powerOff s = beginQuiesce s := by
  unfold powerOff
  rw [if_neg h, hstate, hmove]

theorem powerOff_of_gated {s : State} (h : s.ctl.state ≠ .resetting) (hstate : s.pwr.state = .gated) :
    powerOff s = leaveThenDown .gated s := by
  unfold powerOff
  rw [if_neg h, hstate]

theorem powerOff_of_off {s : State} (h : s.ctl.state ≠ .resetting) (hstate : s.pwr.state = .off) : powerOff s = s := by
  unfold powerOff
  rw [if_neg h, hstate]

theorem powerOn_of_off {s : State} (h : s.ctl.state ≠ .resetting) (hstate : s.pwr.state = .off) : powerOn s = beginPowerUp s := by
  unfold powerOn
  rw [if_neg h, hstate]

/-- While the unit moves between power states of its own, a request waits. -/
theorem power_of_moving {s : State} (h : s.ctl.state ≠ .resetting)
    (hstate : s.pwr.state ∈ [PowerState.powerUp, .quiesce, .checkpoint, .railOff, .holdup]) :
    powerOff s = holdRequest 2 s ∧ powerOn s = holdRequest 1 s := by
  unfold powerOff powerOn
  rw [if_neg h, if_neg h]
  simp only [List.mem_cons, List.not_mem_nil, or_false] at hstate
  rcases hstate with h | h | h | h | h <;> rw [h] <;> exact ⟨rfl, rfl⟩

/-- Where the unit has power, ON takes a power-down back that has not begun. -/
theorem powerOn_of_powered {s : State} (h : s.ctl.state ≠ .resetting) (hstate : s.pwr.state ∈ [PowerState.active, .gated, .retain]) :
    powerOn s = { s with pwr := { s.pwr with downAfterExit := false, pending := 0 } } := by
  unfold powerOn
  rw [if_neg h]
  simp only [List.mem_cons, List.not_mem_nil, or_false] at hstate
  rcases hstate with h | h | h <;> rw [h]

theorem asked_cfg (a : Bool) (floor ceil : BitVec 3) (s : State) : (asked a floor ceil s).cfg =
    { s.cfg with autoOff := a, ceil := ceil, floor := if floor.toNat < ceil.toNat then ceil else floor } := by
  rw [asked, powerFields_cfg, wake_cfg]

end Sys2Proof.Machine

open Sys2Proof Sys2Proof.Machine Sys2Proof.Claims

/-- Settles O48, a power state at a time: the fields of the write move none of them. -/
theorem powerRequestsMoveTheUnit : Obligations.PowerRequestsMoveTheUnit := by
  unfold Obligations.PowerRequestsMoveTheUnit
  intro s a floor ceil hanswers
  have hctl : (asked a floor ceil s).ctl.state = s.ctl.state := by rw [asked_ctl]
  have hstate : (asked a floor ceil s).pwr.state = s.pwr.state := asked_state a floor ceil s
  refine ⟨_, _, register_to (powerOffRow_of_answers hanswers a floor ceil), register_to (powerOnRow_of_answers hanswers a floor ceil),
    ?_, fun hreset => ?_, fun hrunning => ?_⟩
  · simp [powerOff_cfg, powerOn_cfg, asked_cfg]
  · rw [powerOff_of_resetting (hctl.trans hreset), powerOn_of_resetting (hctl.trans hreset)]
    exact ⟨rfl, rfl⟩
  · have hrunning' : (asked a floor ceil s).ctl.state ≠ .resetting := by rwa [hctl]
    refine ⟨fun hactive hmove => ?_, fun hgated => ?_, fun hoff => ?_, fun hmoving => ?_, fun hpowered => ?_⟩
    · rw [powerOff_of_active hrunning' (hstate.trans hactive) (asked_move hactive hmove a floor ceil)]
      exact ⟨by simp [beginQuiesce_pwr], by simp [beginQuiesce_ctl], by simp [beginQuiesce_ctl], by simp [beginQuiesce_pwr],
        fullSlots_point _⟩
    · rw [powerOff_of_gated hrunning' (hstate.trans hgated)]
      exact ⟨rfl, rfl⟩
    · rw [powerOff_of_off hrunning' (hstate.trans hoff), powerOn_of_off hrunning' (hstate.trans hoff)]
      exact ⟨hstate.trans hoff, rfl, rfl, by simp [beginPowerUp, emit]⟩
    · obtain ⟨hoff, hon⟩ := power_of_moving hrunning' (by rwa [hstate])
      rw [hoff, hon]
      exact ⟨rfl, rfl, hstate, hstate⟩
    · rw [powerOn_of_powered hrunning' (by rwa [hstate])]
      exact ⟨rfl, rfl⟩

end

section
/-! SUPPORT. The rail and power-up. O49. -/

namespace Sys2Proof.Machine

open Sys2Proof.Claims

/-- Asking for a point changes the power controller and the output alone. -/
theorem requestPoint_eq (p : BitVec 3) (s : State) :
    requestPoint p s = { s with pwr := (requestPoint p s).pwr, out := (requestPoint p s).out } := by
  unfold requestPoint; split <;> rfl

theorem fullSlots_eq (s : State) : fullSlots s = { s with pwr := (fullSlots s).pwr, out := (fullSlots s).out } :=
  requestPoint_eq 7 { s with pwr := { s.pwr with slots := 16 } }

/-- What power-up leaves, before a hold-up or a request that waits (R605). -/
def poweredUp (s : State) : State :=
  let w := wiped s
  { w with
    cfg := { Cfg.reset with autoOff := s.cfg.autoOff, floor := s.cfg.floor, ceil := s.cfg.ceil }
    ctl := { w.ctl with state := .fenced, ringsLost := !s.ctl.flushed }
    mg := { w.mg with laneRepair := s.mg.fuses }
    pwr := { w.pwr with state := .active, point := allowedPoint s, grant := s.pwr.grant, holdupReq := s.pwr.holdupReq,
                        pending := s.pwr.pending }
    rings := { w.rings with fetchStopped := s.pwr.holdupReq } }

/-- Every register at its default, every SRAM initialised: what holds of the unit after power-up in every case. -/
structure StartsFenced (s t : State) : Prop where
  state       : t.ctl.state = .fenced
  fence       : t.ctl.fence = true
  lost        : t.ctl.ringsLost = !s.ctl.flushed
  incarnation : t.ctl.incarnation = s.ctl.incarnation
  refuse      : t.ctl.refuse = true
  cfg         : t.cfg = { Cfg.reset with autoOff := s.cfg.autoOff, floor := s.cfg.floor, ceil := s.cfg.ceil }
  slots       : t.slots = []
  chains      : t.chains = []
  vis         : t.vis = []
  tabs        : t.tabs = Tables.reset
  cache       : t.rings.cache = []
  cmds        : t.rings.cmds = []
  grant       : t.pwr.grant = s.pwr.grant
  dev         : t.dev = s.dev
  tile        : t.tile = s.tile
  repair      : t.mg.laneRepair = s.mg.fuses

theorem poweredUp_starts (s : State) : StartsFenced s (poweredUp s) :=
  ⟨rfl, rfl, rfl, rfl, rfl, rfl, rfl, rfl, rfl, rfl, rfl, rfl, rfl, rfl, rfl, rfl⟩

/-- A move of the power controller alone keeps it so. -/
theorem StartsFenced.full {s t : State} (h : StartsFenced s t) : StartsFenced s (fullSlots t) := by
  rw [fullSlots_eq]
  exact ⟨h.state, h.fence, h.lost, h.incarnation, h.refuse, h.cfg, h.slots, h.chains, h.vis, h.tabs, h.cache, h.cmds,
    by simpa using h.grant, h.dev, h.tile, h.repair⟩

/-- QUIESCE that follows at once keeps it so. -/
theorem StartsFenced.quiesce {s t : State} (h : StartsFenced s t) : StartsFenced s (beginQuiesce t) :=
  StartsFenced.full ⟨h.state, h.fence, h.lost, h.incarnation, rfl, h.cfg, h.slots, h.chains, h.vis, h.tabs, h.cache, h.cmds,
    h.grant, h.dev, h.tile, h.repair⟩

theorem powerUpDone_of_railed {s : State} (hstate : s.pwr.state = .powerUp) (hrail : s.pwr.railAck = true) :
    powerUpDone s = if s.pwr.holdupReq then enterHoldup (poweredUp s) else applyPending (poweredUp s) := if_pos ⟨hstate, hrail⟩

theorem enterHoldup_poweredUp (s : State) : enterHoldup (poweredUp s) = fullSlots { poweredUp s with
    ctl := { (poweredUp s).ctl with refuse := true }
    rings := { (poweredUp s).rings with chosen := (poweredUp s).rings.chosen.filter (fun c => c.shadow.isSome) }
    pwr := { (poweredUp s).pwr with state := .holdup, move := .none } } := enterHoldup_of_free rfl

theorem railAck_of_powerUp {s : State} (hstate : s.pwr.state = .powerUp) (hrail : s.pwr.railAck = false) :
    railAck true s = emit { s with
      pwr := { s.pwr with railAck := true }
      ctl := { s.ctl with incarnation := s.ctl.incarnation + 1 } } (.opRequest (allowedPoint s)) := by
  unfold railAck
  rw [hstate, hrail]
  rfl

theorem railAck_of_railOff {s : State} (hstate : s.pwr.state = .railOff) :
    railAck false s = if s.pwr.pending = 1 then beginPowerUp { s with pwr := { s.pwr with railAck := false, state := .off } }
      else { s with pwr := { s.pwr with railAck := false, state := .off, pending := 0 } } := by
  unfold railAck
  rw [hstate]
  rfl

theorem railAck_of_other {s : State} (h : s.pwr.state ∉ [PowerState.powerUp, .railOff]) (level : Bool) :
    railAck level s = { s with pwr := { s.pwr with railAck := level } } := by
  simp only [List.mem_cons, List.not_mem_nil, or_false, not_or] at h
  unfold railAck
  dsimp only
  split
  · next heq => exact absurd heq h.1
  · next heq => exact absurd heq h.2
  · rfl

end Sys2Proof.Machine

open Sys2Proof Sys2Proof.Machine Sys2Proof.Claims

/-- Settles O49: the rail by power state; power-up by what waited for it. -/
theorem powerUpStartsTheUnitFenced : Obligations.PowerUpStartsTheUnitFenced := by
  unfold Obligations.PowerUpStartsTheUnitFenced
  intro s level
  refine ⟨fun hstate hlevel hrail => ?_, fun hstate hlevel => ?_, fun hother => command_eq (railAck_of_other hother level) rfl rfl,
    fun hidle => register_of_same (if_neg ?_), fun hstate hrail => ?_⟩
  · subst hlevel
    exact ⟨_, command_eq (railAck_of_powerUp hstate hrail) rfl rfl, rfl, rfl, hstate, by simp [emit]⟩
  · subst hlevel
    refine ⟨_, command_to (railAck_of_railOff hstate), ?_⟩
    by_cases hpending : s.pwr.pending = 1
    · rw [if_pos hpending, if_pos hpending]
      exact ⟨rfl, rfl, rfl⟩
    · rw [if_neg hpending, if_neg hpending]
      exact ⟨rfl, rfl, rfl⟩
  · rintro ⟨hstate, hrail⟩
    rcases hidle with h | h
    · exact h hstate
    · exact absurd (h.symm.trans hrail) (by decide)
  · have hends (t : State) (h : StartsFenced s t) {p : Prop} (hp : p) :
        t.ctl.state = .fenced ∧ t.ctl.fence = true ∧ t.ctl.ringsLost = !s.ctl.flushed ∧ t.ctl.incarnation = s.ctl.incarnation
          ∧ t.ctl.refuse = true
          ∧ t.cfg = { Cfg.reset with autoOff := s.cfg.autoOff, floor := s.cfg.floor, ceil := s.cfg.ceil }
          ∧ t.slots = [] ∧ t.chains = [] ∧ t.vis = [] ∧ t.tabs = Tables.reset ∧ t.rings.cache = [] ∧ t.rings.cmds = []
          ∧ t.pwr.grant = s.pwr.grant ∧ t.dev = s.dev ∧ t.tile = s.tile ∧ t.mg.laneRepair = s.mg.fuses ∧ p :=
      ⟨h.state, h.fence, h.lost, h.incarnation, h.refuse, h.cfg, h.slots, h.chains, h.vis, h.tabs, h.cache, h.cmds, h.grant, h.dev,
        h.tile, h.repair, hp⟩
    have hrow := powerUpDone_of_railed hstate hrail
    have hup := poweredUp_starts s
    by_cases hholdup : s.pwr.holdupReq = true
    · rw [if_pos hholdup, enterHoldup_poweredUp] at hrow
      refine ⟨_, register_eq hrow (fullSlots_pending _), hends _ (StartsFenced.full ?_) ⟨fun h => ?_, fun _ => ⟨?_, ?_⟩, fun h => ?_⟩⟩
      · exact ⟨hup.state, hup.fence, hup.lost, hup.incarnation, rfl, hup.cfg, hup.slots, hup.chains, hup.vis, hup.tabs, hup.cache,
          hup.cmds, hup.grant, hup.dev, hup.tile, hup.repair⟩
      · simp [h] at hholdup
      · simp
      · rw [fullSlots_rings]; exact hholdup
      · simp [h] at hholdup
    · have hnone : s.pwr.holdupReq = false := by simpa using hholdup
      rw [if_neg hholdup, applyPending] at hrow
      by_cases hpending : (poweredUp s).pwr.pending = 2
      · rw [if_pos hpending] at hrow
        exact ⟨_, register_eq hrow (beginQuiesce_pending _), hends _ hup.quiesce
          ⟨fun _ h => absurd hpending h, fun h => absurd h hholdup, fun _ _ => by simp [beginQuiesce_pwr]⟩⟩
      · rw [if_neg hpending] at hrow
        refine ⟨_, register_eq hrow rfl, hends _ ?_ ⟨fun _ _ => ⟨rfl, rfl, rfl⟩, fun h => absurd h hholdup, fun _ h => absurd h hpending⟩⟩
        exact ⟨rfl, rfl, rfl, rfl, rfl, rfl, rfl, rfl, rfl, rfl, rfl, rfl, rfl, rfl, rfl, rfl⟩

end

section
/-! SUPPORT. The power controller's windows, the grant, throttling, and changes of the operating point. O50. -/

namespace Sys2Proof.Machine

open Sys2Proof.Claims

/-- The power controller at rest has asked for no other point. -/
theorem opReq_of_steady {s : State} (h : powerSteady s = true) : s.pwr.opReq = none := by
  simp only [powerSteady, Bool.and_eq_true, Option.isNone_iff_eq_none] at h
  exact h.1.1.2

theorem ne_sub_one (p : BitVec 3) : p ≠ p - 1 := by decide +revert

/-! ## Steps down and up (R590) -/

theorem stepDown_steps {s : State} (h : s.pwr.opReq = none) : StepsDown s (stepDown s) := by
  unfold stepDown
  split
  · next hp =>
    refine ⟨by simp, fun _ => ⟨?_, by simp⟩, fun h7 => absurd hp (by rw [h7]; decide)⟩
    simp [h]
  · next hp => exact ⟨rfl, fun hlow => absurd hlow hp, fun _ => ⟨h, rfl⟩⟩

theorem stepDown_roomWindows (s : State) : (stepDown s).pwr.roomWindows = s.pwr.roomWindows := by
  unfold stepDown
  split <;> simp

theorem stepDown_rings (s : State) : (stepDown s).rings = s.rings := by
  unfold stepDown
  split <;> simp

/-- What the step has to do with the state before is in the power controller. -/
theorem StepsDown.of_pwr {s u t : State} (h : StepsDown u t) (point : u.pwr.point = s.pwr.point) (slots : u.pwr.slots = s.pwr.slots) :
    StepsDown s t := by
  unfold StepsDown at *
  rwa [point, slots] at h

/-- A step up, by what is left to raise: the slot rate, then the point, else nothing. -/
theorem stepUp_cases (s : State) (h : s.pwr.opReq = none) :
    (stepUp s).pwr.point = s.pwr.point
      ∧ (s.pwr.slots.toNat < 16 → (stepUp s).pwr.slots = s.pwr.slots + 1 ∧ (stepUp s).pwr.opReq = none)
      ∧ (16 ≤ s.pwr.slots.toNat → (topPoint s).toNat < s.pwr.point.toNat →
          (stepUp s).pwr.slots = s.pwr.slots ∧ (stepUp s).pwr.opReq = some (s.pwr.point - 1)) := by
  unfold stepUp
  split
  · next hslots => exact ⟨rfl, fun _ => ⟨rfl, h⟩, fun hfull => absurd hslots (by omega)⟩
  · next hslots =>
    split
    · refine ⟨by simp, fun hlow => absurd hlow hslots, fun _ _ => ⟨by simp, ?_⟩⟩
      rw [requestPoint_pwr]
      exact if_neg fun hsame => ne_sub_one s.pwr.point hsame.2
    · next htop => exact ⟨rfl, fun hlow => absurd hlow hslots, fun _ hpoint => absurd hpoint htop⟩

/-! ## Windows (R586, R589 to R591) -/

/-- What a window's counters leave: the power controller's point, slots and request, and all else but counters and output. -/
def Windowed (s t : State) : Prop :=
  t = { s with
    out := t.out, ev := t.ev, vis := t.vis
    pwr := { s.pwr with overWindows := t.pwr.overWindows, underWindows := t.pwr.underWindows, capUnmet := t.pwr.capUnmet } }

theorem Windowed.trans {s t u : State} (h : Windowed s t) (k : Windowed t u) : Windowed s u := by
  unfold Windowed at *
  rw [k, h]

/-- Whatever is no counter, output or count of windows over the grant stands. -/
theorem Windowed.keeps {α : Type} (g : State → α) {s t : State} (h : Windowed s t)
    (hg : ∀ (u : State) out ev vis o n b, g { u with out := out, ev := ev, vis := vis, pwr := { u.pwr with
      overWindows := o, underWindows := n, capUnmet := b } } = g u := by intros; rfl) : g t = g s := by
  rw [h]; exact hg ..

theorem countEvent_windowed (c n : Nat) (v : Option ViId) (s : State) : Windowed s (countEvent c n v s) := by
  unfold countEvent; split <;> rfl

theorem capWindow_windowed (above : Bool) (s : State) : Windowed s (capWindow above s) := by
  unfold capWindow
  dsimp only
  generalize (if above && (decide (s.pwr.point = 7) && decide (s.pwr.slots.toNat ≤ 1)) then s.pwr.overWindows + 1 else 0) = n
  generalize (if above = true then 0 else s.pwr.underWindows + 1) = k
  split
  · refine .trans (t := emit { s with pwr := { s.pwr with overWindows := n, underWindows := k, capUnmet := true } }
      (.capUnmet true)) rfl (countEvent_windowed _ _ _ _)
  · split <;> rfl

/-- A window measured, before the controller steps. -/
def measuredWindow (above : Bool) (s : State) : State :=
  capWindow above (if s.cfg.floor.toNat < s.pwr.point.toNat then countEvent 0xC1 1 none s else s)

theorem measuredWindow_windowed (above : Bool) (s : State) : Windowed s (measuredWindow above s) := by
  refine Windowed.trans ?_ (capWindow_windowed above _)
  split
  · exact countEvent_windowed _ _ _ s
  · rfl

theorem powerWindow_of_unsteady {s : State} (h : powerSteady s = false) (m up : Nat) : powerWindow m up s = s :=
  if_pos (by simp [h])

theorem powerWindow_of_above {s : State} (h : powerSteady s = true) {m : Nat} (habove : 125 * s.pwr.grant.toNat < m) (up : Nat) :
    powerWindow m up s = stepDown { measuredWindow true s with pwr := { (measuredWindow true s).pwr with roomWindows := 0 } } := by
  unfold powerWindow measuredWindow grantMw
  rw [if_neg (by simp [h])]
  dsimp only
  rw [decide_eq_true habove, if_pos rfl]

theorem powerWindow_of_within {s : State} (h : powerSteady s = true) {m : Nat} (hwithin : m ≤ 125 * s.pwr.grant.toNat) (up : Nat) :
    powerWindow m up s = riseWindow (decide (up + 250 ≤ 125 * s.pwr.grant.toNat)) (measuredWindow false s) := by
  unfold powerWindow measuredWindow grantMw
  rw [if_neg (by simp [h])]
  dsimp only
  rw [decide_eq_false (Nat.not_lt.2 hwithin), if_neg (by simp)]

/-- A window without room. -/
theorem riseWindow_of_tight (s : State) : (riseWindow false s).pwr.roomWindows = 0 ∧ (riseWindow false s).pwr.point = s.pwr.point
    ∧ (riseWindow false s).pwr.slots = s.pwr.slots ∧ (riseWindow false s).pwr.opReq = s.pwr.opReq := by
  simp [riseWindow]

/-- A window with room before the tenth. -/
theorem riseWindow_of_early {s : State} (h : s.pwr.roomWindows + 1 < 10) :
    (riseWindow true s).pwr.roomWindows = s.pwr.roomWindows + 1 ∧ (riseWindow true s).pwr.point = s.pwr.point
      ∧ (riseWindow true s).pwr.slots = s.pwr.slots ∧ (riseWindow true s).pwr.opReq = s.pwr.opReq := by
  have hearly : ¬ 9 ≤ s.pwr.roomWindows := by omega
  simp [riseWindow, hearly]

/-- The controller as the tenth window with room finds it. -/
def atTenth (s : State) : State := { s with pwr := { s.pwr with roomWindows := 0, risePace := 0 } }

theorem riseWindow_eq {s : State} (hroom : 9 ≤ s.pwr.roomWindows) (hpace : s.pwr.risePace = 0) (hthrottle : s.pwr.throttle = false) :
    riseWindow true s = if canRise s then
        if canRise (stepUp (atTenth s)) then stepUp (atTenth s)
        else { stepUp (atTenth s) with pwr := { (stepUp (atTenth s)).pwr with risePace := 0 } }
      else { s with pwr := { s.pwr with roomWindows := s.pwr.roomWindows + 1, risePace := 0 } } := by
  have htenth : decide (10 ≤ s.pwr.roomWindows + 1) = true := decide_eq_true (by omega)
  unfold riseWindow
  dsimp only
  rw [hpace, if_pos rfl, if_pos (Nat.zero_le 1)]
  split
  · next h =>
    have hcan : canRise s = true := ((Bool.and_eq_true _ _).mp h).2
    rw [if_pos hcan]
    rfl
  · next h =>
    have hcan : ¬ canRise s = true := fun hcan => h (by rw [htenth, hthrottle]; exact hcan)
    rw [if_neg hcan]

/-- The tenth window with room, with no thermal pace: a step up where one is left. -/
theorem riseWindow_of_tenth {s : State} (hroom : 9 ≤ s.pwr.roomWindows) (hpace : s.pwr.risePace = 0) (hthrottle : s.pwr.throttle = false)
    (hreq : s.pwr.opReq = none) :
    (riseWindow true s).pwr.point = s.pwr.point
      ∧ (s.pwr.slots.toNat < 16 → (riseWindow true s).pwr.slots = s.pwr.slots + 1 ∧ (riseWindow true s).pwr.opReq = none)
      ∧ (16 ≤ s.pwr.slots.toNat → (topPoint s).toNat < s.pwr.point.toNat →
          (riseWindow true s).pwr.slots = s.pwr.slots ∧ (riseWindow true s).pwr.opReq = some (s.pwr.point - 1))
      ∧ (16 ≤ s.pwr.slots.toNat → s.pwr.point.toNat ≤ (topPoint s).toNat →
          (riseWindow true s).pwr.slots = s.pwr.slots ∧ (riseWindow true s).pwr.opReq = none) := by
  obtain ⟨hpoint, hslots, hstep⟩ := stepUp_cases (atTenth s) hreq
  rw [riseWindow_eq hroom hpace hthrottle]
  split
  · next hcan =>
    simp only [canRise, Bool.or_eq_true, decide_eq_true_eq] at hcan
    have hnone : 16 ≤ s.pwr.slots.toNat → ¬ s.pwr.point.toNat ≤ (topPoint s).toNat := by omega
    split <;> exact ⟨hpoint, hslots, hstep, fun hfull htop => absurd htop (hnone hfull)⟩
  · next hcan =>
    simp only [canRise, Bool.or_eq_true, decide_eq_true_eq, not_or] at hcan
    exact ⟨rfl, fun hlow => absurd hlow hcan.1, fun _ htop => absurd htop hcan.2, fun _ _ => ⟨rfl, hreq⟩⟩

/-! ## A change of point that is acknowledged (R581) -/

/-- Whether timing-repeatable mode is in effect is nothing that a trace record changes. -/
theorem traceDrain_trmActive (rs : List TraceRecord) (s : State) : (traceDrain rs s).det.trmActive = s.det.trmActive := by
  induction rs generalizing s with
  | nil => rfl
  | cons r rest ih =>
    unfold traceDrain
    dsimp only
    split
    · rfl
    · rw [ih]; simp

theorem tracePut_trmActive (v : Option ViId) (r : TraceRecord) (s : State) : (tracePut v r s).det.trmActive = s.det.trmActive := by
  have hput : (traceFlush { s with det := { s.det with buffer := s.det.buffer ++ [r] } }).det.trmActive = s.det.trmActive :=
    traceDrain_trmActive _ _
  unfold tracePut
  dsimp only
  split
  · split
    · exact hput
    · simpa using hput
  · simp

theorem traceChoice_trmActive (type : Nat) (vi : Option ViId) (a b c : Nat) (s : State) :
    (traceChoice type vi a b c s).det.trmActive = s.det.trmActive := by
  unfold traceChoice traceNow
  split
  · dsimp only
    rw [tracePut_trmActive]; simp
  · rfl

theorem topPoint_congr {s t : State} (hdet : t.det.trmActive = s.det.trmActive) (hcfg : t.cfg = s.cfg) : topPoint t = topPoint s := by
  unfold topPoint trmTarget; rw [hdet, hcfg]

/-- The unit at its new point, before it asks for another. -/
def atPoint (p : BitVec 3) (s : State) : State :=
  let s1 := countEvent 0xC4 1 none { s with pwr := { s.pwr with opReq := none, point := p } }
  let forced := s.det.trmActive && decide ((trmTarget s).toNat < p.toNat) && decide (s.pwr.point.toNat < p.toNat)
    && decide (s.pwr.state = .active)
  traceChoice 6 none 0 0 p.toNat (if forced then countTiming (holderVi s1) s1 else s1)

theorem opAck_of_some {s : State} {p : BitVec 3} (h : s.pwr.opReq = some p) :
    opAck s = if powerSteady (atPoint p s) && decide (p.toNat < (topPoint (atPoint p s)).toNat) then
      requestPoint (topPoint (atPoint p s)) (atPoint p s) else atPoint p s := by
  unfold opAck
  rw [h]
  rfl

/-- Of the unit at its new point only the power controller, the counters and the trace differ. -/
theorem atPoint_keeps (p : BitVec 3) (s : State) :
    Aside { s with pwr := { s.pwr with opReq := none, point := p } } (atPoint p s)
      ∧ Quiet { s with pwr := { s.pwr with opReq := none, point := p } } (atPoint p s) := by
  unfold atPoint
  dsimp only
  split
  · exact ⟨((countEvent_aside _ _ _ _).trans (countTiming_aside _ _)).trans (traceChoice_aside _ _ _ _ _ _),
      ((countEvent_quiet _ _ _ _).trans (countTiming_quiet _ _)).trans (traceChoice_quiet _ _ _ _ _ _)⟩
  · exact ⟨(countEvent_aside _ _ _ _).trans (traceChoice_aside _ _ _ _ _ _),
      (countEvent_quiet _ _ _ _).trans (traceChoice_quiet _ _ _ _ _ _)⟩

theorem topPoint_atPoint (p : BitVec 3) (s : State) : topPoint (atPoint p s) = topPoint s := by
  refine topPoint_congr ?_ (atPoint_keeps p s).1.cfg
  unfold atPoint
  dsimp only
  rw [traceChoice_trmActive]
  split <;> simp

/-! ## The grant (R592 to R594) -/

theorem tolViolations_pwr (s : State) : (tolViolations s).pwr = { s.pwr with tolMarked := (tolViolations s).pwr.tolMarked } := by
  have hkeep (s : State) (e : CtxEntry) : { (if decide (e.ctx.state = .ready)
        && decide ((cfgVi s (ctxOwner e.ctx)).tolerance.toNat < 40) && !s.pwr.tolMarked.contains (ctxOwner e.ctx).toNat then
      countEvent 0x64 1 (some (ctxOwner e.ctx)) { s with pwr := { s.pwr with
        tolMarked := setInsert s.pwr.tolMarked (ctxOwner e.ctx).toNat } } else s).pwr with tolMarked := [] }
      = { s.pwr with tolMarked := [] } := by
    split <;> simp
  have hall : { (tolViolations s).pwr with tolMarked := [] } = { s.pwr with tolMarked := [] } := by
    unfold tolViolations
    split
    · rfl
    · exact foldl_keeps (fun u => { u.pwr with tolMarked := [] }) _ (fun s e => hkeep s e) _ s
  exact congrArg (fun p : Power => { p with tolMarked := (tolViolations s).pwr.tolMarked }) hall

theorem tolViolations_rings (s : State) : (tolViolations s).rings = s.rings := by
  unfold tolViolations
  split
  · rfl
  · refine foldl_keeps State.rings _ (fun s e => ?_) _ s
    dsimp only
    split <;> simp

theorem newGrant_of_zero {s : State} (h : s.pwr.grantStop = false) :
    newGrant 0 s = tolViolations { s with pwr := { s.pwr with grant := 0, grantStop := true, tolMarked := [] } } := by
  simp [newGrant, h]

theorem newGrant_of_running {s : State} (h : s.pwr.grantStop = false) {g : Byte} (hg : g ≠ 0) :
    newGrant g s = { s with pwr := { s.pwr with grant := g } } := by
  simp only [newGrant, if_neg hg, h, Bool.false_eq_true, if_false]

/-- The unit whose zero grant has ended, before it wakes. -/
def regranted (g : Byte) (s : State) : State :=
  let s2 := tolViolations { s with pwr := { s.pwr with grant := g } }
  requestPoint 7 { s2 with pwr := { s2.pwr with grantStop := false, tolMarked := [], roomWindows := 0, slots := 1 } }

theorem newGrant_of_stopped {s : State} (h : s.pwr.grantStop = true) {g : Byte} (hg : g ≠ 0) (hstate : s.pwr.state = .active) :
    newGrant g s = wake (regranted g s) := by
  have hactive : (tolViolations { s with pwr := { s.pwr with grant := g } }).pwr.state = .active := by
    rw [tolViolations_pwr]; exact hstate
  unfold newGrant
  rw [if_neg hg, if_pos h]
  refine congrArg wake (if_neg ?_)
  rintro (hoff | hoff | hoff) <;> cases hactive.symm.trans hoff

theorem regranted_pwr (g : Byte) (s : State) : (regranted g s).pwr = { s.pwr with
    grant := g, grantStop := false, tolMarked := [], roomWindows := 0, slots := 1
    opReq := if s.pwr.opReq = none ∧ s.pwr.point = 7 then none else some 7 } := by
  unfold regranted
  dsimp only
  rw [requestPoint_pwr, tolViolations_pwr]

theorem regranted_point (g : Byte) (s : State) : (regranted g s).pwr.point = 7 ∨ (regranted g s).pwr.opReq = some 7 := by
  rw [regranted_pwr]
  by_cases h : s.pwr.opReq = none ∧ s.pwr.point = 7
  · exact .inl h.2
  · exact .inr (if_neg h)

theorem grantGate_test (s : State) : (s.pwr.grantStop && decide (s.pwr.state = .active) && decide (s.pwr.move = .none)
      && (decide (s.ctl.state = .active) || decide (s.ctl.state = .fenced))) = true
    ↔ s.pwr.grantStop = true ∧ s.pwr.state = .active ∧ s.pwr.move = .none ∧ (s.ctl.state = .active ∨ s.ctl.state = .fenced) := by
  simp [and_assoc]

/-! ## Throttling (R596) -/

theorem throttleDown_of_idle {s : State} (h : s.pwr.throttle = false ∨ powerSteady s = false) : throttleDown s = s :=
  if_neg (by rcases h with h | h <;> simp [h])

/-- The thermal sensors of a powered unit are read. -/
def senseThm (l : List (BitVec 10)) (s : State) : State :=
  if s.ctl.state = .off then s else { s with pwr := { s.pwr with thm := l } }

end Sys2Proof.Machine

open Sys2Proof Sys2Proof.Machine Sys2Proof.Claims

/-- Settles O50, an event of the power controller at a time. -/
theorem powerFollowsTheGrant : Obligations.PowerFollowsTheGrant := by
  unfold Obligations.PowerFollowsTheGrant
  intro s level m up g a b c d
  refine ⟨command_eq rfl rfl rfl, ?_, fun h => ⟨command_of_same (powerWindow_of_unsteady h m up),
      command_of_same (throttleDown_of_idle (.inr h))⟩, fun h habove hgrant => ?_, fun h hwithin hgrant => ?_,
    fun h => command_of_same (by unfold opAck; rw [h]), fun q hq => ?_, fun h => ?_, fun h hg hstate => ?_,
    fun h => command_of_same (if_neg (by rw [grantGate_test]; rintro ⟨hgrant, hstate, hmove, -⟩; simp [*] at h)), fun hgrant hstate hmove hctl =>
      command_eq (if_pos ((grantGate_test s).2 ⟨hgrant, hstate, hmove, hctl⟩)) rfl rfl, ?_,
    fun h => command_of_same (throttleDown_of_idle (.inl h)), fun h hsteady => ?_,
    fun h => command_of_same (f := senseThm [a, b, c, d]) (if_pos h), fun h => command_eq (f := senseThm [a, b, c, d]) (if_neg h) rfl rfl⟩
  · refine ⟨_, command_to rfl, ?_⟩
    unfold droopWindow
    dsimp only
    split <;> simp
  · subst hgrant
    have hwindow := measuredWindow_windowed true s
    refine ⟨_, command_to (powerWindow_of_above h habove up), (stepDown_roomWindows _).trans rfl, ?_⟩
    exact StepsDown.of_pwr (stepDown_steps ((hwindow.keeps fun u => u.pwr.opReq).trans (opReq_of_steady h)))
      (hwindow.keeps fun u => u.pwr.point) (hwindow.keeps fun u => u.pwr.slots)
  · subst hgrant
    have hwindow := measuredWindow_windowed false s
    have hrooms := hwindow.keeps fun u => u.pwr.roomWindows
    have hpoint := hwindow.keeps fun u => u.pwr.point
    have hslots := hwindow.keeps fun u => u.pwr.slots
    have hreq := (hwindow.keeps fun u => u.pwr.opReq).trans (opReq_of_steady h)
    have htop : topPoint (measuredWindow false s) = topPoint s := hwindow.keeps topPoint
    refine ⟨_, command_to (powerWindow_of_within h hwithin up), fun htight => ?_, fun hroom hearly => ?_,
      fun hroom htenth hpace hthrottle => ?_⟩
    · have hwin := riseWindow_of_tight (measuredWindow false s)
      rw [decide_eq_false (by omega)]
      rwa [hpoint, hslots, hreq] at hwin
    · have hwin := riseWindow_of_early (s := measuredWindow false s) (by rwa [hrooms])
      rw [decide_eq_true hroom]
      rwa [hrooms, hpoint, hslots, hreq] at hwin
    · have hwin := riseWindow_of_tenth (s := measuredWindow false s) (by rwa [hrooms])
        ((hwindow.keeps fun u => u.pwr.risePace).trans hpace) ((hwindow.keeps fun u => u.pwr.throttle).trans hthrottle) hreq
      rw [decide_eq_true hroom]
      rwa [hpoint, hslots, htop] at hwin
  · obtain ⟨haside, hquiet⟩ := atPoint_keeps q s
    refine ⟨_, command_to (opAck_of_some hq), ?_⟩
    rw [topPoint_atPoint]
    split
    · next hfollow =>
      simp only [Bool.and_eq_true, decide_eq_true_eq] at hfollow
      refine ⟨by simp [haside.pwr], by simp [hquiet.rings], ?_, fun htop => absurd htop (by omega), fun _ => ?_⟩
      · rw [requestPoint_eq]; exact haside.slots
      · rw [requestPoint_pwr]
        dsimp only
        split
        · exact .inl rfl
        · exact .inr rfl
    · exact ⟨by simp [haside.pwr], hquiet.rings, haside.slots, fun _ => haside.pwr, fun _ => .inl (by simp [haside.pwr])⟩
  · by_cases hg : g = 0
    · subst hg
      refine ⟨_, command_to (newGrant_of_zero h), ?_⟩
      dsimp only
      rw [tolViolations_pwr]
      exact ⟨rfl, tolViolations_rings _, by simp, rfl, rfl⟩
    · refine ⟨_, command_to (newGrant_of_running h hg), rfl, rfl, ?_, rfl, rfl⟩
      exact ⟨fun hstop => absurd (h.symm.trans hstop) (by decide), fun hzero => absurd hzero hg⟩
  · refine ⟨_, command_to (newGrant_of_stopped h hg hstate), ?_⟩
    dsimp only
    rw [wake_pwr]
    have hpwr := regranted_pwr g s
    refine ⟨congrArg Power.grant hpwr, congrArg Power.grantStop hpwr, congrArg Power.slots hpwr, regranted_point g s, ?_⟩
    simp [regranted, tolViolations_rings]
  · refine ⟨_, command_to rfl, rfl, rfl, fun h => ?_, fun h hthrottle => ?_⟩
    · subst h; rfl
    · subst h; simp [throttleLevel, hthrottle]
  · refine ⟨_, command_to (if_pos (by simp [h, hsteady])), stepDown_steps (opReq_of_steady hsteady), stepDown_rings s⟩

end

section
/-! SUPPORT. The watchdog and the scrubber. O53. -/

namespace Sys2Proof.Machine

open Sys2Proof.Claims

/-- The watchdog's test: it counts, the unit is ACTIVE and runs, and some ring has work. -/
theorem watchdog_test (s : State) : (decide (s.cfg.wdogMs ≠ 0)
      && (flushRings false s).any (fun r =>
        decide (standingState s r = .ready) || decide (standingState s r = .running) || decide (standingState s r = .suspended))
      && decide (s.ctl.state = .active) && !s.ctl.dbgHalt) = true
    ↔ s.cfg.wdogMs ≠ 0 ∧ s.ctl.state = .active ∧ s.ctl.dbgHalt = false
      ∧ ∃ r ∈ flushRings false s, standingState s r ∈ [RingState.ready, .running, .suspended] := by
  simp only [Bool.and_eq_true, decide_eq_true_eq, List.any_eq_true, Bool.or_eq_true, Bool.not_eq_true', List.mem_cons,
    List.not_mem_nil, or_false, or_assoc]
  exact ⟨fun ⟨⟨⟨hms, hbusy⟩, hstate⟩, hhalt⟩ => ⟨hms, hstate, hhalt, hbusy⟩,
    fun ⟨hms, hstate, hhalt, hbusy⟩ => ⟨⟨⟨hms, hbusy⟩, hstate⟩, hhalt⟩⟩

/-- What the watchdog leaves when it expires. -/
def watchdogNoted (s : State) : State :=
  let s1 := (logError ⟨clContained, 11, ckWatchdog, 0, ringArgs (holderCmd s)⟩ s).2
  emit { s1 with ctl := { s1.ctl with suspect := true } } (.mgtIrq 3)

/-- An uncorrectable word of a slot is lost there alone. -/
theorem slotWordLost_slots (h k : Nat) (s : State) :
    slotAt (slotWordLost h k s) h = (if k < 2 then Slot.zero else { slotAt s h with poison := true })
      ∧ ∀ j, j ≠ h → slotAt (slotWordLost h k s) j = slotAt s j := by
  unfold slotWordLost
  split
  · exact ⟨slotAt_putSlot_same _ _ _, fun j hj => slotAt_putSlot_other _ _ hj⟩
  · exact ⟨slotAt_modSlot_same _ _ _, fun j hj => slotAt_modSlot_other _ _ hj⟩

theorem slotWordLost_rest (h k : Nat) (s : State) : (slotWordLost h k s).out = s.out ∧ (slotWordLost h k s).tabs = s.tabs
    ∧ (slotWordLost h k s).rings = s.rings ∧ (slotWordLost h k s).pending = s.pending ∧ (slotWordLost h k s).cfg = s.cfg := by
  unfold slotWordLost
  split <;> simp

theorem scrubRow_of_idle {s : State} {w : ScrubWord} {found : ScrubResult}
    (h : s.ctl.state = .off ∨ wordExists w = false ∨ found = .clean) : scrubRow w found s = s := by
  unfold scrubRow
  rcases h with h | h | h
  · rw [if_pos (.inl h)]
  · rw [if_pos (.inr h)]
  · subst h; split <;> rfl

theorem scrubRow_live {s : State} {w : ScrubWord} (hstate : s.ctl.state ≠ .off) (hword : wordExists w = true) :
    ¬ (s.ctl.state = .off ∨ wordExists w = false) := by simp [hstate, hword]

/-- A single bit is corrected, and noted. -/
theorem scrubRow_of_single {s : State} {w : ScrubWord} (hstate : s.ctl.state ≠ .off) (hword : wordExists w = true) :
    ∃ source location, scrubRow w .single s = correctedError source location s := by
  unfold scrubRow
  rw [if_neg (scrubRow_live hstate hword)]
  cases w <;> exact ⟨_, _, rfl⟩

theorem scrubRow_of_doubleRow {s : State} {h : Nat} {k : Fin 32} (hstate : s.ctl.state ≠ .off)
    (hword : wordExists (.rowStore h k) = true) :
    scrubRow (.rowStore h k) .double s = slotWordLost h k (logError ⟨clContained, 0, ckDouble, h, none⟩ s).2 :=
  if_neg (scrubRow_live hstate hword)

theorem scrubRow_of_doubleBank {s : State} {b : Fin 4} {e : Nat} (hstate : s.ctl.state ≠ .off)
    (hword : wordExists (.tableStore b e) = true) :
    scrubRow (.tableStore b e) .double s = bankLost b (logError ⟨clContained, 1, ckDouble, b, none⟩ s).2 :=
  if_neg (scrubRow_live hstate hword)

end Sys2Proof.Machine

open Sys2Proof Sys2Proof.Machine Sys2Proof.Claims

/-- Settles O53: the watchdog's test read as a proposition, and the scrubber by what it finds and where. -/
theorem watchdogAndScrubberReport : Obligations.WatchdogAndScrubberReport := by
  unfold Obligations.WatchdogAndScrubberReport
  intro s w found h e k b
  refine ⟨fun hquiet => command_of_same (if_neg ?_), fun hms hstate hhalt hbusy => ?_, fun hidle => command_of_same (scrubRow_of_idle hidle),
    fun hstate hword hfound => ?_, fun hstate hw hword hfound => ?_, fun hstate hw hword hfound => ?_⟩
  · rw [watchdog_test]
    rintro ⟨hms, hstate, hhalt, r, hr, hbusy⟩
    rcases hquiet with h | h | h | h
    · exact hms h
    · exact h hstate
    · exact absurd (hhalt.symm.trans h) (by decide)
    · exact h r hr hbusy
  · have hnotes := logError_notes ⟨clContained, 11, ckWatchdog, 0, ringArgs (holderCmd s)⟩ s
    refine ⟨watchdogNoted s, command_eq (if_pos ((watchdog_test s).2 ⟨hms, hstate, hhalt, hbusy⟩)) (hnotes.keeps State.pending)
      (hnotes.keeps State.cfg), ?_, by simp [watchdogNoted, emit], hnotes.keeps State.rings, hnotes.keeps State.slots⟩
    change { (logError _ s).2.ctl with suspect := true } = _
    rw [hnotes.keeps State.ctl]
  · subst hfound
    obtain ⟨source, location, hcorrected⟩ := scrubRow_of_single hstate hword
    have hnotes := logError_notes ⟨clCorrected, source, ckSingle, location, none⟩ s
    exact ⟨_, command_eq hcorrected (hnotes.keeps State.pending) (hnotes.keeps State.cfg), logError_irq _ s, hnotes.keeps State.slots,
      hnotes.keeps State.tabs, hnotes.keeps State.rings⟩
  · subst hw hfound
    have hnotes := logError_notes ⟨clContained, 0, ckDouble, h, none⟩ s
    obtain ⟨hlost, hothers⟩ := slotWordLost_slots h k (logError ⟨clContained, 0, ckDouble, h, none⟩ s).2
    obtain ⟨hout, htabs, hrings, hpending, hcfg⟩ := slotWordLost_rest h k (logError ⟨clContained, 0, ckDouble, h, none⟩ s).2
    have hslot (j : Nat) : slotAt (logError ⟨clContained, 0, ckDouble, h, none⟩ s).2 j = slotAt s j := hnotes.keeps fun u => slotAt u j
    refine ⟨_, command_eq (scrubRow_of_doubleRow hstate hword) (hpending.trans (hnotes.keeps State.pending))
      (hcfg.trans (hnotes.keeps State.cfg)), ?_, ?_, fun j hj => ?_, htabs.trans (hnotes.keeps State.tabs),
      hrings.trans (hnotes.keeps State.rings)⟩
    · rw [hout]; exact logError_irq _ s
    · rw [hlost, hslot]
    · rw [hothers j hj, hslot]
  · subst hw hfound
    have hnotes := logError_notes ⟨clContained, 1, ckDouble, b, none⟩ s
    refine ⟨_, command_eq (scrubRow_of_doubleBank hstate hword) (hnotes.keeps State.pending) (hnotes.keeps State.cfg),
      logError_irq _ s, hnotes.keeps State.slots, hnotes.keeps State.rings, ?_⟩
    unfold bankLost
    dsimp only
    rw [hnotes.keeps State.tabs]

end

section
/-! SUPPORT. Debug halt, the tumbler's stages, the context region, test access, loss of power. O55. -/

namespace Sys2Proof.Machine

open Sys2Proof.Claims

/-! ## One field of a number replaced -/

/-- A number with its base-`q` digit at `p` replaced by `x`. -/
def setDigit (n p q x : Nat) : Nat := n - n / p % q * p + x * p

theorem setDigit_eq (n p q x : Nat) : setDigit n p q x = n % p + p * (x + q * (n / (p * q))) := by
  have hsplit : n = n % p + p * (n / p % q + q * (n / (p * q))) := by
    rw [← Nat.div_div_eq_div_mul, Nat.mod_add_div, Nat.mod_add_div]
  unfold setDigit
  have hp : n - n / p % q * p = n % p + p * (q * (n / (p * q))) := by
    rw [Nat.mul_add, ← Nat.add_assoc, Nat.mul_comm p (n / p % q)] at hsplit
    omega
  rw [hp]
  ring

/-- Digits below and above stay, the digit itself is `x`. -/
theorem setDigit_low (n p q x : Nat) : setDigit n p q x % p = n % p := by
  rw [setDigit_eq, Nat.add_mul_mod_self_left, Nat.mod_mod]

theorem setDigit_div {n p q x : Nat} (hp : 0 < p) : setDigit n p q x / p = x + q * (n / (p * q)) := by
  rw [setDigit_eq, Nat.add_mul_div_left _ _ hp, Nat.div_eq_of_lt (Nat.mod_lt n hp), Nat.zero_add]

theorem setDigit_same {n p q x : Nat} (hp : 0 < p) (hx : x < q) : setDigit n p q x / p % q = x := by
  rw [setDigit_div hp, Nat.add_mul_mod_self_left, Nat.mod_eq_of_lt hx]

theorem setDigit_high {n p q x : Nat} (hp : 0 < p) (hx : x < q) : setDigit n p q x / (p * q) = n / (p * q) := by
  rw [← Nat.div_div_eq_div_mul, setDigit_div hp, Nat.add_mul_div_left _ _ (by omega), Nat.div_eq_of_lt hx, Nat.zero_add]

/-- The 64-bit word `j` of a number. -/
theorem word_of_low {m n k j : Nat} (h : m % 2 ^ (64 * k) = n % 2 ^ (64 * k)) (hj : j < k) :
    m / 2 ^ (64 * j) % 2 ^ 64 = n / 2 ^ (64 * j) % 2 ^ 64 := by
  have hcut (a : Nat) : a / 2 ^ (64 * j) % 2 ^ 64 = a % 2 ^ (64 * k) / 2 ^ (64 * j) % 2 ^ 64 := by
    obtain ⟨d, rfl⟩ : ∃ d, k = j + 1 + d := ⟨k - (j + 1), by omega⟩
    have hpow : 2 ^ (64 * (j + 1 + d)) = 2 ^ (64 * j) * (2 ^ 64 * 2 ^ (64 * d)) := by
      rw [← Nat.pow_add, ← Nat.pow_add]; congr 1; omega
    rw [hpow, Nat.mod_mul_right_div_self, Nat.mod_mul_right_mod]
  rw [hcut m, hcut n, h]

theorem word_of_high {m n k j : Nat} (h : m / (2 ^ (64 * k) * 2 ^ 64) = n / (2 ^ (64 * k) * 2 ^ 64)) (hj : k < j) :
    m / 2 ^ (64 * j) % 2 ^ 64 = n / 2 ^ (64 * j) % 2 ^ 64 := by
  obtain ⟨d, rfl⟩ : ∃ d, j = k + 1 + d := ⟨j - (k + 1), by omega⟩
  have hpow : 2 ^ (64 * (k + 1 + d)) = 2 ^ (64 * k) * 2 ^ 64 * 2 ^ (64 * d) := by
    rw [← Nat.pow_add, ← Nat.pow_add]; congr 1; omega
  rw [hpow, ← Nat.div_div_eq_div_mul, ← Nat.div_div_eq_div_mul n, h]

theorem setDigit_lt {n k x : Nat} (hk : k < 8) (hn : n < 2 ^ 512) (hx : x < 2 ^ 64) : setDigit n (2 ^ (64 * k)) (2 ^ 64) x < 2 ^ 512 := by
  obtain ⟨d, hd⟩ : ∃ d, 512 = 64 * k + 64 + 64 * d := ⟨7 - k, by omega⟩
  have hpow : 2 ^ 512 = 2 ^ (64 * d) * (2 ^ (64 * k) * 2 ^ 64) := by
    rw [← Nat.pow_add, ← Nat.pow_add, Nat.add_comm (64 * d), ← hd]
  rw [hpow] at hn ⊢
  rw [← Nat.div_lt_iff_lt_mul (by positivity)] at hn ⊢
  rwa [setDigit_high (by positivity) hx]

theorem field_eq_div {w : Nat} (x : BitVec w) (j : Nat) : field x (64 * j + 63) (64 * j) = x.toNat / 2 ^ (64 * j) % 2 ^ 64 := by
  unfold field
  rw [Nat.shiftRight_eq_div_pow]
  congr 2
  omega

theorem setStage_toNat (t : BitVec 512) {k : Nat} (hk : k < 8) (x : W64) :
    (setStage t k x).toNat = setDigit t.toNat (2 ^ (64 * k)) (2 ^ 64) x.toNat := by
  unfold setStage place
  rw [BitVec.toNat_ofNat, field_eq_div, Nat.shiftLeft_eq, Nat.shiftLeft_eq]
  exact Nat.mod_eq_of_lt (setDigit_lt hk t.isLt x.isLt)

/-- A stage's field is replaced alone. -/
theorem setStage_fields (t : BitVec 512) {k : Nat} (hk : k < 8) (x : W64) (j : Nat) :
    field (setStage t k x) (64 * j + 63) (64 * j) = if j = k then x.toNat else field t (64 * j + 63) (64 * j) := by
  rw [field_eq_div, field_eq_div, setStage_toNat t hk]
  rcases Nat.lt_trichotomy j k with h | h | h
  · rw [if_neg (by omega), word_of_low (setDigit_low _ _ _ _) h]
  · rw [if_pos h, h, setDigit_same (by positivity) x.isLt]
  · rw [if_neg (by omega), word_of_high (setDigit_high (by positivity) x.isLt) h]

/-! ## Debug halt (R168, R576, R653) -/

theorem debugTumbler_of_halted {s : State} {rc : RunCmd} (hhalt : s.ctl.dbgHalt = true) (hholder : holderCmd s = some rc) (k : Nat) (x : W64) :
    debugTumbler k x s = setCmd s { rc with tumbler := setStage rc.tumbler k x, tainted := true } := by
  unfold debugTumbler
  rw [if_pos hhalt, hholder]

theorem debugTumbler_of_running {s : State} (hhalt : s.ctl.dbgHalt = false) (k : Nat) (x : W64) : debugTumbler k x s = mgIgnored s :=
  if_neg (by simp [hhalt])

/-- The command that holds the chain, written again, holds it still. -/
theorem holderCmd_setCmd {s : State} {rc rc' : RunCmd} (hholder : holderCmd s = some rc) (hring : rc'.ring = rc.ring) :
    holderCmd (setCmd s rc') = some rc' := by
  have hheld : s.rings.holder = some rc'.ring := by rw [hring]; exact (holderCmd_ring hholder).1
  unfold holderCmd
  rw [show (setCmd s rc').rings.holder = s.rings.holder from rfl, hheld]
  exact cmdOf_setCmd_same s rc'

theorem holderCmd_wake (s : State) : holderCmd (wake s) = holderCmd s := by simp [holderCmd, cmdOf]

/-! ## The context region (R650) -/

theorem setCtxBase_of_created {s : State} (h : (createdRings s).any (fun r => !isCovered r) = true) (x : W64) :
    setCtxBase x (wake s) = mgIgnored (wake s) := if_pos (by rwa [createdRings_wake])

/-- The changed contexts of the unit's own rings in memory. -/
def ownWritten (s : State) : State := (s.rings.cache.filter (fun e => !isCovered e.ring)).foldl (fun s e => writeBackCtx e s) s

theorem ownWritten_aside (s : State) : Aside s (ownWritten s) := .foldl _ (fun s e => writeBackCtx_aside e s) _ s

theorem setCtxBase_of_free {s : State} (h : (createdRings s).any (fun r => !isCovered r) = false) (x : W64) :
    setCtxBase x (wake s) = { ownWritten (wake s) with
      cfg := { (ownWritten (wake s)).cfg with ctxBase := BitVec.ofNat 40 (field x 63 24) }
      rings := { (ownWritten (wake s)).rings with
        cache := (ownWritten (wake s)).rings.cache.filter (fun e => isCovered e.ring) } } := by
  unfold setCtxBase
  rw [if_neg (by rw [createdRings_wake, h]; simp)]
  rfl

/-! ## Test access, loss of power (R48, R49, R578, R596) -/

theorem testRequest_wipes {s : State} (h : s.ctl.test = .closed) : Wiped s (testRequest s) ∧ (testRequest s).ctl.test = .wiping
    ∧ (testRequest s).pending = s.pending := by
  unfold testRequest
  rw [if_pos h]
  exact ⟨⟨⟨rfl, rfl⟩, rfl, rfl, rfl, rfl, rfl, ⟨rfl, rfl, rfl⟩, rfl, rfl, rfl, rfl⟩, rfl, rfl⟩

theorem powerLost_wipes (s : State) : Wiped s (powerLost s) :=
  ⟨⟨rfl, rfl⟩, rfl, rfl, rfl, rfl, rfl, ⟨rfl, rfl, rfl⟩, rfl, rfl, rfl, rfl⟩

theorem powerFields_pins (a : Bool) (floor ceil : BitVec 3) (s : State) : (powerFields a floor ceil s).pins = s.pins := by
  unfold powerFields
  dsimp only
  split <;> split <;> (try rw [requestPoint_eq]) <;> simp [mgIgnored]

theorem powerOn_ctl (s : State) : (powerOn s).ctl = s.ctl ∧ (powerOn s).pins = s.pins := by
  unfold powerOn
  split
  · exact ⟨rfl, rfl⟩
  · split <;> exact ⟨rfl, rfl⟩

end Sys2Proof.Machine

open Sys2Proof Sys2Proof.Machine Sys2Proof.Claims

/-- Settles O55, a command at a time; the tumbler's stage by the arithmetic of one digit replaced. -/
theorem debugTestAndPowerLossAct : Obligations.DebugTestAndPowerLossAct := by
  unfold Obligations.DebugTestAndPowerLossAct
  intro s rc k x chip halt
  refine ⟨?_, fun hanswers hhalt => ?_, fun hanswers hhalt hholder => ?_, fun hanswers hcreated => ?_, fun hanswers hfree => ?_,
    fun h => register_of_same (if_neg h), fun h => ?_, fun h => command_of_same (if_neg h), fun h => ?_, fun h => ?_, ?_⟩
  · refine ⟨debugHalt chip halt s, command_eq rfl rfl rfl, rfl, rfl, fun h => ?_, fun hchip hhalt hfree => ?_,
      fun hchip hhalt hrun hholder hchecked => ?_⟩
    · rcases h with h | h <;> simp [debugHalt, h]
    · simp [debugHalt, holderCmd, hchip, hhalt, hfree]
    · simp [debugHalt, hchip, hhalt, hrun, hholder, hchecked]
  · exact command_eq ((mgmtWrite_of_answers hanswers _).trans (debugTumbler_of_running (by simpa using hhalt) _ _)) (by simp [mgIgnored])
      (by simp [mgIgnored])
  · have hholder' : holderCmd (wake s) = some rc := (holderCmd_wake s).trans hholder
    exact ⟨_, _, command_eq ((mgmtWrite_of_answers hanswers _).trans (debugTumbler_of_halted (by simpa using hhalt) hholder' _ _))
      (by simp) (by simp), holderCmd_setCmd hholder' rfl, rfl, rfl, fun j _ => setStage_fields _ k.isLt _ _⟩
  · exact register_eq ((mgmtWrite_of_answers hanswers _).trans (setCtxBase_of_created hcreated x)) (by simp [mgIgnored])
  · have haside := ownWritten_aside (wake s)
    refine ⟨_, register_eq ((mgmtWrite_of_answers hanswers _).trans (setCtxBase_of_free hfree x)) ?_, ?_, fun e he => ?_, ?_⟩
    · simpa using haside.pending
    · dsimp only; rw [haside.cfg, wake_cfg]
    · exact (List.mem_filter.1 he).2
    · simpa using haside.slots
  · obtain ⟨hwiped, htest, hpending⟩ := testRequest_wipes h
    exact ⟨_, register_eq rfl hpending, hwiped, htest⟩
  · refine ⟨Config.scanOut s.free, command_eq ((if_pos h).trans ?_) rfl rfl⟩
    simp [emit, takeFree]
  · refine ⟨_, register_to (if_pos h), ?_, ?_⟩
    · dsimp only; rw [(powerOn_ctl _).1, powerFields_ctl]; rfl
    · dsimp only; rw [(powerOn_ctl _).2, powerFields_pins]; rfl
  · exact ⟨powerLost s, register_eq rfl rfl, powerLost_wipes s, rfl, rfl, rfl, rfl⟩

end

section
/-! SUPPORT. Little-endian fields of an image, and the row-slot image both ways. O14. -/

namespace Sys2Proof.Machine

open Sys2Proof.Claims

/-! ## Little-endian fields -/

theorem bytesNat_natBytes (n x : Nat) : bytesNat (natBytes n x) = x % 256 ^ n := by
  induction n generalizing x with
  | zero => simp [natBytes, bytesNat, Nat.mod_one]
  | succ n ih =>
    have hpow : 256 ^ (n + 1) = 256 * 256 ^ n := Nat.pow_succ'
    rw [natBytes, bytesNat, ih, BitVec.toNat_ofNat, hpow, Nat.mod_mul]

/-- The field at the front of an image. -/
theorem imageField_front (n x : Nat) (rest : List Byte) : imageField (natBytes n x ++ rest) 0 n = x % 256 ^ n := by
  rw [imageField, List.drop_zero, List.take_left' (natBytes_length n x), bytesNat_natBytes]

/-- A field past the front of an image. -/
theorem imageField_past (x : Nat) (rest : List Byte) (n : Nat) {m a : Nat} (h : m ≤ a) :
    imageField (natBytes m x ++ rest) a n = imageField rest (a - m) n := by
  have hlen : (natBytes m x).length = m := natBytes_length m x
  rw [imageField, imageField, List.drop_append, hlen, List.drop_eq_nil_of_le (by omega), List.nil_append]

theorem imageField_whole (n x : Nat) : imageField (natBytes n x) 0 n = x % 256 ^ n := by
  simpa using imageField_front n x []

theorem ofNat_mod_pow {w n : Nat} (x : BitVec w) (h : w = 8 * n) : BitVec.ofNat w (x.toNat % 256 ^ n) = x := by
  subst h
  have hpow : 256 ^ n = 2 ^ (8 * n) := by rw [Nat.pow_mul]
  rw [hpow, Nat.mod_eq_of_lt x.isLt, BitVec.ofNat_toNat, BitVec.setWidth_eq]

/-! ## The row-slot image (R258, R259) -/

theorem extremumOf_extremumNat (x : Extremum) : extremumOf (extremumNat x % 256 ^ 10) = x := by
  obtain ⟨v, i⟩ := x
  have hv := v.isLt
  have hi := i.isLt
  unfold extremumOf extremumNat place
  simp only [Nat.shiftLeft_eq, Nat.shiftRight_eq_div_pow]
  congr 1
  · apply BitVec.eq_of_toNat_eq
    rw [BitVec.toNat_ofNat]
    omega
  · apply BitVec.eq_of_toNat_eq
    rw [BitVec.toNat_ofNat]
    omega

theorem slotBytes_length (x : Slot) : (slotBytes x).length = 256 := by
  simp [slotBytes, natBytes_length]

theorem boolNat_lt (b : Bool) : boolNat b < 2 := by cases b <;> decide

theorem testBit_boolNat {n i : Nat} {b : Bool} (h : n / 2 ^ i % 2 = boolNat b) : n.testBit i = b := by
  rw [Nat.testBit_eq_decide_div_mod_eq, h]
  cases b <;> rfl

/-- The header's fields, each where R259 has it. -/
theorem slotHeader_fields (x : Slot) (h : BitVec 128) (hh : h = BitVec.ofNat 128 (slotHeader x % 256 ^ 16)) :
    field h 127 80 = x.count.toNat ∧ field h 79 48 = x.epoch.toNat ∧ field h 47 32 = x.flushes.toNat ∧ bit h 18 = x.xover
      ∧ bit h 17 = x.xninf ∧ bit h 16 = x.xpinf ∧ bit h 15 = x.xnan ∧ bit h 14 = x.poison ∧ field h 13 12 = x.fin.toNat
      ∧ bit h 11 = x.exact ∧ bit h 10 = x.isOpen ∧ field h 9 0 = x.owner.toNat := by
  have hn : h.toNat = slotHeader x % 256 ^ 16 % 2 ^ 128 := by rw [hh, BitVec.toNat_ofNat]
  have hbits := And.intro (boolNat_lt x.isOpen) (And.intro (boolNat_lt x.exact) (And.intro (boolNat_lt x.poison)
    (And.intro (boolNat_lt x.xnan) (And.intro (boolNat_lt x.xpinf) (And.intro (boolNat_lt x.xninf) (boolNat_lt x.xover))))))
  have hcount := x.count.isLt
  have hepoch := x.epoch.isLt
  have hflushes := x.flushes.isLt
  have hfin := x.fin.isLt
  have howner := x.owner.isLt
  unfold slotHeader place at hn
  simp only [Nat.shiftLeft_eq] at hn
  unfold field bit
  simp only [Nat.shiftRight_eq_div_pow]
  refine ⟨?_, ?_, ?_, testBit_boolNat ?_, testBit_boolNat ?_, testBit_boolNat ?_, testBit_boolNat ?_, testBit_boolNat ?_, ?_,
    testBit_boolNat ?_, testBit_boolNat ?_, ?_⟩ <;> omega

/-- Each part of the image, where R258 has it. -/
theorem slotBytes_fields (x : Slot) :
    imageField (slotBytes x) 0 16 = slotHeader x % 256 ^ 16 ∧ imageField (slotBytes x) 16 10 = extremumNat x.maxv % 256 ^ 10
      ∧ imageField (slotBytes x) 26 10 = extremumNat x.minv % 256 ^ 10 ∧ imageField (slotBytes x) 36 2 = x.ref.toNat % 256 ^ 2
      ∧ imageField (slotBytes x) 48 8 = x.fsum.toNat % 256 ^ 8 ∧ imageField (slotBytes x) 56 8 = x.fsumsq.toNat % 256 ^ 8
      ∧ imageField (slotBytes x) 64 80 = x.xsum.toNat % 256 ^ 80 ∧ imageField (slotBytes x) 144 80 = x.xsumsq.toNat % 256 ^ 80
      ∧ imageField (slotBytes x) 224 16 = x.sw.toNat % 256 ^ 16 ∧ imageField (slotBytes x) 240 16 = x.dlink.toNat % 256 ^ 16 := by
  unfold slotBytes
  simp only [List.append_assoc]
  refine ⟨?_, ?_, ?_, ?_, ?_, ?_, ?_, ?_, ?_, ?_⟩ <;>
    simp only [imageField_past, imageField_front, imageField_whole, Nat.reduceSub, Nat.reduceLeDiff, le_refl, Nat.sub_self]

theorem slotOf_slotBytes {x : Slot} (h : x.fin ≠ 3) : slotOf (slotBytes x) = x := by
  obtain ⟨hheader, hmaxv, hminv, href, hfsum, hfsumsq, hxsum, hxsumsq, hsw, hdlink⟩ := slotBytes_fields x
  obtain ⟨hcount, hepoch, hflushes, hxover, hxninf, hxpinf, hxnan, hpoison, hfin, hexact, hopen, howner⟩ :=
    slotHeader_fields x _ (congrArg (BitVec.ofNat 128) hheader)
  have hfin3 : x.fin.toNat ≠ 3 := fun h3 => h (BitVec.eq_of_toNat_eq h3)
  unfold slotOf
  simp only [hmaxv, hminv, href, hfsum, hfsumsq, hxsum, hxsumsq, hsw, hdlink, hcount, hepoch, hflushes, hxover, hxninf, hxpinf, hxnan,
    hpoison, hfin, hexact, hopen, howner, if_neg hfin3, extremumOf_extremumNat, BitVec.ofNat_toNat, BitVec.setWidth_eq]
  rw [ofNat_mod_pow x.ref rfl, ofNat_mod_pow x.fsum rfl, ofNat_mod_pow x.fsumsq rfl, ofNat_mod_pow x.xsum rfl,
    ofNat_mod_pow x.xsumsq rfl, ofNat_mod_pow x.sw rfl, ofNat_mod_pow x.dlink rfl]

end Sys2Proof.Machine

open Sys2Proof Sys2Proof.Machine Sys2Proof.Claims

/-- Settles O14: every part of the image, and every field of its header, reads back. -/
theorem slotImagesLoseNothing : Obligations.SlotImagesLoseNothing := by
  unfold Obligations.SlotImagesLoseNothing
  exact fun x h => ⟨slotBytes_length x, slotOf_slotBytes h⟩

end

section
/-! SUPPORT. VI_MODE as a number, and the words of a wide register of the management page: captured by a read of the lowest, written by a
write of the highest (R634, R635, R655). -/

namespace Sys2Proof.Machine

open Sys2Proof.Claims

/-! ## Fields as digits -/

theorem boolNat_bit {w : Nat} (x : BitVec w) (i : Nat) : boolNat (bit x i) = x.toNat / 2 ^ i % 2 := by
  rw [← Nat.toNat_testBit, bit]
  cases x.toNat.testBit i <;> rfl

theorem field_digit {w : Nat} (x : BitVec w) (hi lo : Nat) : field x hi lo = x.toNat / 2 ^ lo % 2 ^ (hi + 1 - lo) := by
  rw [field, Nat.shiftRight_eq_div_pow]

theorem toNat_field {w n : Nat} (x : BitVec w) (hi lo : Nat) (hn : hi + 1 - lo = n) :
    (BitVec.ofNat n (field x hi lo)).toNat = x.toNat / 2 ^ lo % 2 ^ n := by
  subst hn
  rw [BitVec.toNat_ofNat, field_digit, Nat.mod_mod]

/-- R655: VI_MODE is its 20 lowest bits. -/
theorem viModeBits_viModeOf (x : W64) : viModeBits (viModeOf x) = x &&& 0xFFFFF := by
  apply BitVec.eq_of_toNat_eq
  have hmask : (x &&& 0xFFFFF : W64).toNat = x.toNat % 2 ^ 20 := Nat.and_two_pow_sub_one_eq_mod x.toNat 20
  rw [hmask]
  simp only [viModeBits, viModeOf, boolNat_bit, toNat_field x 4 2 rfl, toNat_field x 10 7 rfl, toNat_field x 12 11 rfl,
    toNat_field x 18 13 rfl, place, Nat.shiftLeft_eq, BitVec.toNat_ofNat]
  omega

/-! ## Reads -/

/-- A wake concerns the unit's power alone (R598). -/
theorem wake_eq (s : State) : wake s = { s with pwr := (wake s).pwr } := by
  unfold wake
  split
  · rfl
  · split
    · rfl
    · rfl
    · split <;> rfl

theorem reachPage_pending (port : RegPort) (s : State) : (reachPage port s).2.pending = s.pending := by
  cases port with
  | mgmt => rfl
  | window | foreign => rw [reachPage]; split <;> simp
  | page => rw [reachPage]; split; · rfl
            · split <;> simp

theorem viPageValue_wake (s : State) (v : ViId) (off : Nat) : viPageValue (wake s) v off = viPageValue s v off := by
  rw [wake_eq]
  rfl

/-- R634: a read of what no page answers reads zero. -/
theorem registerReadRow_of_none {port : RegPort} {s : State} (hreach : (reachPage port s).1 = none) (hport : port ≠ .mgmt) (off : Nat) :
    registerReadRow port off s = answerRead 0 (reachPage port s).2 := by
  have hpair : reachPage port s = (none, (reachPage port s).2) := Prod.ext hreach rfl
  cases port with
  | mgmt => exact absurd rfl hport
  | _ =>
    rw [registerReadRow, hpair]
    · exact hport

theorem registerReadRow_of_reached {port : RegPort} {s : State} {v : ViId} (hreach : Reached port s v) {off : Nat} (hoff : off < 0x1000) :
    registerReadRow port off s = answerRead (viPageValue s v off) (wake s) := by
  cases port with
  | mgmt => simp [Reached, reachPage] at hreach
  | _ => simp [registerReadRow, reachPage_eq hreach.1, hoff, viPageValue_wake]

/-- R634, R635: the lowest word of a register of two words captures it. -/
theorem mgReadWord_low {base : Nat} (hreg : mgRegister base = some (base, 2)) (s : State) : (mgReadWord base s).readData
    = BitVec.ofNat 64 (mgValue s base % 2 ^ 128 % 2 ^ 32)
      ∧ mgReadWord base s = { s with mg := { s.mg with capture := some (.mgmt, base, BitVec.ofNat 128 (mgValue s base)) },
                                     readData := (mgReadWord base s).readData } := by
  simp only [mgReadWord, hreg, Nat.sub_self, Nat.zero_div, Nat.lt_irrefl, false_and, if_false]
  constructor
  · cases hc : s.mg.capture <;> simp [answerRead, field]
  · rfl

/-- The highest word of a register that has been captured is the captured one. -/
theorem mgReadWord_high {base off : Nat} (hreg : mgRegister off = some (base, 2)) (hoff : (off - base) / 4 = 1) {s : State} {x : W128}
    (hcapture : s.mg.capture = some (.mgmt, base, x)) :
    mgReadWord off s = answerRead (x.toNat / 2 ^ 32 % 2 ^ 32) s := by
  simp [mgReadWord, hreg, hoff, hcapture, field, Nat.shiftRight_eq_div_pow]

/-! ## Writes -/

/-- A write within the page of a VI that it reaches. -/
theorem registerWriteRow_of_reached {port : RegPort} {s : State} {v : ViId} (hreach : Reached port s v) {off : Nat} (hoff : off < 0x1000)
    (x : W64) : registerWriteRow port off x s = viPageWrite port off x s := by
  cases port with
  | mgmt => simp [Reached, reachPage] at hreach
  | foreign => simp only [Reached, reachPage] at hreach; split at hreach <;> simp at hreach
  | window => exact if_pos hoff
  | page => exact if_pos hoff

theorem viMode_written {port : RegPort} {s : State} {v : ViId} (hreach : Reached port s v) (x : W64) :
    exec (.registerWrite port 0x010 x) s = register (if viModeGood x
      then pageWrite port (fun v s => modCfgVi v (fun c => { c with mode := viModeOf x }) s)
      else pageWrite port (fun _ s => portIgnored port s)) s := by
  have hrow : registerWriteRow port (0x010 : BitVec 16).toNat x s = viPageWrite port 0x010 x s :=
    registerWriteRow_of_reached hreach (by decide) x
  have hvalue : viPageWrite port 0x010 x s = (if viModeGood x
      then pageWrite port (fun v s => modCfgVi v (fun c => { c with mode := viModeOf x }) s)
      else pageWrite port (fun _ s => portIgnored port s)) s := by
    split <;> simp_all [viPageWrite]
  exact congrArg (fun t : State => Host.Outcome.next { t with pending := s.pending }) (hrow.trans hvalue)

/-- R635: the lowest word of a register of two words is held. -/
theorem mgWriteWord_low {base : Nat} (hreg : mgRegister base = some (base, 2)) (w : W32) (s : State) :
    mgWriteWord base w s = { s with mg := { s.mg with writeHold := some (.mgmt, base, BitVec.ofNat 128 w.toNat) } } := by
  simp [mgWriteWord, hreg, place, Nat.mod_one]

/-- The highest word writes it whole, with the word that is held. -/
theorem mgWriteWord_high {base off : Nat} (hreg : mgRegister off = some (base, 2)) (hoff : (off - base) / 4 = 1) {s : State} {x : W128}
    (hheld : s.mg.writeHold = some (.mgmt, base, x)) (w : W32) :
    mgWriteWord off w s = mgWriteWhole base (BitVec.ofNat 128 (x.toNat % 2 ^ 32 + 2 ^ 32 * w.toNat))
      { s with mg := { s.mg with writeHold := none } } := by
  simp [mgWriteWord, hreg, hoff, hheld, place, Nat.shiftLeft_eq, Nat.mul_comm]

/-! ## MG_COVER_CTX_BASE -/

theorem coverBase_capture (s : State) : (BitVec.ofNat 128 (mgValue s 0x0048)).toNat = s.cfg.coverBase.toNat * 2 ^ 24 := by
  have hvalue : mgValue s 0x0048 = s.cfg.coverBase.toNat * 2 ^ 24 := Nat.shiftLeft_eq _ _
  rw [hvalue, BitVec.toNat_ofNat]
  omega

theorem writeCoverBase (x : W128) (s : State) : mgWriteWhole 0x0048 x s = { s with cfg := { s.cfg with
    coverBase := BitVec.ofNat 40 (x.toNat % 2 ^ 64 / 2 ^ 24) } } := by
  have hfield : field x 63 24 = x.toNat % 2 ^ 64 / 2 ^ 24 := by
    rw [field_digit]
    omega
  simpa [mgWriteWhole] using congrArg (BitVec.ofNat 40) hfield

theorem mgmtAnswers_congr {s t : State} (h : t.ctl = s.ctl) : mgmtAnswers t = mgmtAnswers s := by
  unfold mgmtAnswers
  rw [h]

/-- R634: a read of the lowest word, in its step. -/
theorem captured_by_read {base : BitVec 16} (hreg : mgRegister base.toNat = some (base.toNat, 2)) {s : State}
    (hanswers : mgmtAnswers s = true) (halign : base.toNat % 4 = 0) :
    ∃ t, exec (.registerRead .mgmt base) s = .next t ∧ t.readData = BitVec.ofNat 64 (mgValue (wake s) base.toNat % 2 ^ 128 % 2 ^ 32)
      ∧ t.mg.capture = some (.mgmt, base.toNat, BitVec.ofNat 128 (mgValue (wake s) base.toNat)) ∧ t.ctl = s.ctl := by
  obtain ⟨hlow, hframe⟩ := mgReadWord_low hreg (wake s)
  refine ⟨mgReadWord base.toNat (wake s), command_eq (if_pos ⟨hanswers, halign⟩) ?_ ?_, hlow, ?_, ?_⟩ <;> rw [hframe] <;> simp

/-- R635: both words of MG_COVER_CTX_BASE read give it. -/
theorem coverBase_read {s : State} (hanswers : mgmtAnswers s = true) : ∃ t u, exec (.registerRead .mgmt 0x0048) s = .next t
    ∧ exec (.registerRead .mgmt 0x004C) t = .next u ∧ t.readData.toNat + 2 ^ 32 * u.readData.toNat = s.cfg.coverBase.toNat * 2 ^ 24 := by
  obtain ⟨t, ht, hlow, hcapture, hcontrol⟩ := captured_by_read (base := 0x0048) rfl hanswers rfl
  have hword : t.mg.capture = some (.mgmt, 0x0048, BitVec.ofNat 128 (mgValue (wake s) 0x0048)) := hcapture
  have hagain : mgmtAnswers t = true := (mgmtAnswers_congr hcontrol).trans hanswers
  refine ⟨t, _, ht, command_eq ((if_pos ⟨hagain, rfl⟩).trans (mgReadWord_high (base := 0x0048) rfl rfl (by rw [wake_mg, hword])))
    (wake_pending t) (wake_cfg t), ?_⟩
  have hbase := coverBase_capture (wake s)
  rw [wake_cfg] at hbase
  have hvalue : mgValue (wake s) (0x0048 : BitVec 16).toNat % 2 ^ 128 = s.cfg.coverBase.toNat * 2 ^ 24 :=
    (BitVec.toNat_ofNat _ _).symm.trans hbase
  rw [hlow, hvalue, hbase, answerRead, BitVec.toNat_ofNat, BitVec.toNat_ofNat]
  omega

/-- R635: both words of MG_COVER_CTX_BASE written set it, the first alone sets nothing. -/
theorem coverBase_written {s : State} (hanswers : mgmtAnswers s = true) (x y : W64) : ∃ t u,
    exec (.registerWrite .mgmt 0x0048 x) s = .next t ∧ exec (.registerWrite .mgmt 0x004C y) t = .next u ∧ t.cfg = s.cfg
      ∧ u.cfg = { s.cfg with coverBase := BitVec.ofNat 40 ((field x 31 0 + 2 ^ 32 * field y 31 0) / 2 ^ 24) } := by
  refine ⟨_, _, register_eq ((mgmtWrite_of_answers hanswers _).trans (mgWriteWord_low (base := 0x0048) rfl _ _)) (wake_pending s),
    register_eq ((mgmtWrite_of_answers ?_ _).trans ((mgWriteWord_high (base := 0x0048) rfl rfl (by rw [wake_mg]) _).trans
      (writeCoverBase _ _))) (wake_pending _), wake_cfg s, ?_⟩
  · exact (mgmtAnswers_congr (s := s) (wake_ctl s)).trans hanswers
  · have hword : (BitVec.ofNat 128 ((BitVec.ofNat 128 (BitVec.ofNat 32 x.toNat).toNat).toNat % 2 ^ 32
        + 2 ^ 32 * (BitVec.ofNat 32 y.toNat).toNat)).toNat % 2 ^ 64 = field x 31 0 + 2 ^ 32 * field y 31 0 := by
      simp only [field_digit, BitVec.toNat_ofNat]
      omega
    rw [hword]
    simp

end Sys2Proof.Machine

open Sys2Proof Sys2Proof.Machine Sys2Proof.Claims

/-- Settles O56: the fields of VI_MODE are digits of it, and a register of two words passes through the captured or held copy. -/
theorem registersReadBack : Obligations.RegistersReadBack := by
  unfold Obligations.RegistersReadBack
  intro s port v x y off
  refine ⟨fun hreach hgood => ?_, fun hreach hbad => ?_, viModeBits_viModeOf x, fun hreach hoff => ?_, fun hreach hport => ?_,
    coverBase_read, fun h => coverBase_written h x y, fun h hoff => ?_⟩
  · exact setsVi_of_pageWrite ((viMode_written hreach x).trans (by rw [if_pos hgood])) hreach rfl rfl
  · rw [viMode_written hreach, hbad]
    exact register_eq (pageWrite_of_reached hreach _) (by simp)
  · exact command_eq (registerReadRow_of_reached hreach hoff) (wake_pending s) (wake_cfg s)
  · exact ⟨_, command_eq (registerReadRow_of_none hreach hport _) (reachPage_pending _ _) (reachPage_cfg _ _), rfl⟩
  · exact register_eq ((if_neg hoff).trans (mgmtWrite_of_answers h _)) (by simp [mgIgnored])
end

section
/-! SUPPORT. Candidate order (R366, R368) is the order of a rank: the value of a candidate, the greater first, then its index. -/

namespace Sys2Proof.Machine

/-! ## The value that a comparison compares -/

/-- The rational number that a finite value is. -/
def ratOf (v : Val) : ℚ :=
  match unstick v with
  | .fin n m e _ => (if n then -(m : ℚ) else m) * 2 ^ e
  | _ => 0

theorem toUnits_mul (v : Val) {e : Int} (h : e ≤ expOf v) : (toUnits v e : ℚ) * 2 ^ e = ratOf v := by
  unfold toUnits ratOf expOf at *
  cases hv : unstick v with
  | nan => simp
  | inf => simp
  | fin n m e' b =>
    rw [hv] at h
    have hexp : (2 : ℚ) ^ (e' - e).toNat * 2 ^ e = 2 ^ e' := by
      rw [← zpow_natCast, ← zpow_add₀ (by norm_num), Int.toNat_of_nonneg (by simpa using h)]
      congr 1
      omega
    cases n <;> simp [Nat.shiftLeft_eq, mul_assoc, hexp]

/-- What admission lets through, with infinity at the top. -/
def magnitude : Val → WithTop ℚ
  | .inf _ => ⊤
  | v => (ratOf v : WithTop ℚ)

theorem toUnits_lt_iff {a b : Val} {e : Int} (ha : e ≤ expOf a) (hb : e ≤ expOf b) : toUnits a e < toUnits b e ↔ ratOf a < ratOf b := by
  rw [← toUnits_mul a ha, ← toUnits_mul b hb, mul_lt_mul_iff_left₀ (by positivity), Int.cast_lt]

theorem vcmp_cases {a b : Val} (ha : admits a = true) (hb : admits b = true) :
    (vcmp a b = .gt ↔ magnitude b < magnitude a) ∧ (vcmp a b = .lt ↔ magnitude a < magnitude b) := by
  have hfin (n m e s n' m' e' s') : vcmp (.fin n m e s) (.fin n' m' e' s')
      = compare (toUnits (.fin n m e s) (min (expOf (.fin n m e s)) (expOf (.fin n' m' e' s'))))
        (toUnits (.fin n' m' e' s') (min (expOf (.fin n m e s)) (expOf (.fin n' m' e' s')))) := rfl
  cases a with
  | nan => simp [admits, isNan] at ha
  | inf na =>
    have hna : na = false := by simpa [admits, isNan] using ha
    cases b with
    | nan => simp [admits, isNan] at hb
    | inf nb =>
      have hnb : nb = false := by simpa [admits, isNan] using hb
      simp [vcmp, magnitude, hna, hnb]
    | fin => simp [vcmp, magnitude, hna]
  | fin =>
    cases b with
    | nan => simp [admits, isNan] at hb
    | inf nb =>
      have hnb : nb = false := by simpa [admits, isNan] using hb
      simp [vcmp, magnitude, hnb]
    | fin =>
      rw [hfin, compare_gt_iff_gt, compare_lt_iff_lt, toUnits_lt_iff (min_le_right _ _) (min_le_left _ _),
        toUnits_lt_iff (min_le_left _ _) (min_le_right _ _)]
      simp [magnitude]

/-! ## The rank of a candidate -/

def candRank (c : Cand) : (WithTop ℚ)ᵒᵈ ×ₗ ℕ := toLex (OrderDual.toDual (magnitude (ofW38 c.value)), c.index)

theorem candBefore_iff {a b : Cand} (ha : admits (ofW38 a.value) = true) (hb : admits (ofW38 b.value) = true) :
    candBefore a b = true ↔ candRank a < candRank b := by
  obtain ⟨hgt, hlt⟩ := vcmp_cases ha hb
  rw [candRank, candRank, Prod.Lex.toLex_lt_toLex]
  simp only [candBefore, OrderDual.toDual_lt_toDual, OrderDual.toDual_inj]
  cases hcmp : vcmp (ofW38 a.value) (ofW38 b.value) with
  | gt => simpa using .inl (hgt.mp hcmp)
  | lt =>
    have hless := hlt.mp hcmp
    simp [hless.not_gt, hless.ne]
  | eq =>
    have hnot : ¬ magnitude (ofW38 b.value) < magnitude (ofW38 a.value) := fun h => by simp [hgt.mpr h] at hcmp
    have hnot' : ¬ magnitude (ofW38 a.value) < magnitude (ofW38 b.value) := fun h => by simp [hlt.mpr h] at hcmp
    simp [le_antisymm (not_lt.mp hnot) (not_lt.mp hnot')]

theorem candBefore_eq_false_iff {a b : Cand} (ha : admits (ofW38 a.value) = true) (hb : admits (ofW38 b.value) = true) :
    candBefore a b = false ↔ candRank b ≤ candRank a := by
  rw [← not_lt, ← candBefore_iff ha hb, Bool.not_eq_true]

/-! ## Lists in order -/

def Ranked (l : List Cand) : Prop := l.Pairwise fun a b => candRank a ≤ candRank b

theorem candOrdered_iff {l : List Cand} (h : ∀ x ∈ l, admits (ofW38 x.value) = true) : candOrdered l = true ↔ Ranked l := by
  unfold Ranked
  induction l with
  | nil => simp [candOrdered]
  | cons a rest ih =>
    cases rest with
    | nil => simp [candOrdered]
    | cons b rest =>
      have htail := ih fun x hx => h x (by simp [hx])
      have hstep := candBefore_eq_false_iff (h b (by simp)) (h a (by simp))
      rw [candOrdered, Bool.and_eq_true, htail, Bool.not_eq_true', hstep, List.pairwise_cons (a := a)]
      constructor
      · rintro ⟨hab, hrest⟩
        refine ⟨fun y hy => ?_, hrest⟩
        obtain rfl | hy := List.mem_cons.mp hy
        · exact hab
        · exact hab.trans ((List.pairwise_cons.mp hrest).1 y hy)
      · exact fun ⟨hall, hrest⟩ => ⟨hall b (by simp), hrest⟩

theorem candInsert_perm (c : Cand) (l : List Cand) : (candInsert c l).Perm (c :: l) := by
  induction l with
  | nil => exact .refl _
  | cons x rest ih =>
    rw [candInsert]
    split
    · exact .refl _
    · exact (ih.cons x).trans (.swap c x rest)

theorem candInsert_ranked {c : Cand} {l : List Cand} (h : ∀ x ∈ c :: l, admits (ofW38 x.value) = true) (hl : Ranked l) :
    Ranked (candInsert c l) := by
  induction l with
  | nil => simp [candInsert, Ranked]
  | cons x rest ih =>
    obtain ⟨hx, hrest⟩ := List.pairwise_cons.mp hl
    have hcx := candBefore_iff (h c (by simp)) (h x (by simp))
    rw [candInsert]
    split
    · next hbefore =>
      have hlt := (hcx.mp hbefore).le
      refine List.pairwise_cons.mpr ⟨fun y hy => ?_, hl⟩
      obtain rfl | hy := List.mem_cons.mp hy
      · exact hlt
      · exact hlt.trans (hx y hy)
    · next hbefore =>
      have hle := not_lt.mp (fun hlt => hbefore (hcx.mpr hlt))
      refine List.pairwise_cons.mpr ⟨fun y hy => ?_, ih (fun y hy => h y (by simp_all; tauto)) hrest⟩
      obtain rfl | hy := List.mem_cons.mp ((candInsert_perm c rest).mem_iff.mp hy)
      · exact hle
      · exact hx y hy

end Sys2Proof.Machine

open Sys2Proof Sys2Proof.Machine

/-- Settles O25: insertion keeps the order of ranks, and the list is cut where its first `k` end. -/
theorem candidateListsStayOrdered : Obligations.CandidateListsStayOrdered := by
  unfold Obligations.CandidateListsStayOrdered
  intro k l c hadmits hordered
  have hranked := candInsert_ranked hadmits ((candOrdered_iff fun x hx => hadmits x (by simp [hx])).mp hordered)
  have hmem {x : Cand} : x ∈ candInsert c l ↔ x ∈ c :: l := (candInsert_perm c l).mem_iff
  have hkept {x : Cand} (hx : x ∈ candAdmit k l c) : x ∈ c :: l := hmem.mp (List.mem_of_mem_take hx)
  refine ⟨(candOrdered_iff fun x hx => hadmits x (hkept hx)).mpr (hranked.sublist (List.take_sublist _ _)), ?_,
    fun x hx => List.mem_cons.mp (hkept hx), fun x hx hout y hy => ?_⟩
  · rw [candAdmit, List.length_take, (candInsert_perm c l).length_eq, List.length_cons]
  · rw [candBefore_eq_false_iff (hadmits x hx) (hadmits y (hkept hy))]
    rw [Ranked, ← List.take_append_drop k (candInsert c l), List.pairwise_append] at hranked
    obtain ⟨_, _, hacross⟩ := hranked
    have hdropped : x ∈ (candInsert c l).drop k := by
      have hin := hmem.mpr hx
      rw [← List.take_append_drop k (candInsert c l), List.mem_append] at hin
      exact hin.resolve_left hout
    exact hacross y hy x hdropped
end

section
/-! SUPPORT. What a reset of a VI leaves of its slots, its chains, its counters and its rings (R268, R330, R491, R647, R671), and the words
of a key (R643, R644). -/

namespace Sys2Proof.Machine

open Sys2Proof.Claims

/-! ## Sparse maps -/

theorem mem_of_spGet_ne {α : Type} {d : α} {m : Sparse α} {n : Nat} (h : spGet d m n ≠ d) : (n, spGet d m n) ∈ m := by
  induction m with
  | nil => exact absurd rfl h
  | cons e rest ih =>
    obtain ⟨k, x⟩ := e
    rw [spGet] at h ⊢
    split
    · next hk => simp [hk]
    · next hk => rw [if_neg hk] at h; exact List.mem_cons_of_mem _ (ih h)

/-- What a fold comes to hold, when the step for one entry brings it about and every step keeps it. -/
theorem foldl_reaches {α β : Type} {f : β → α → β} {Q P : β → Prop} {l : List α} {x : α} (hQ : ∀ u y, Q u → Q (f u y))
    (hP : ∀ u y, Q u → P u → P (f u y)) (hx : ∀ u, Q u → P (f u x)) (hmem : x ∈ l) {s : β} (hs : Q s) : P (l.foldl f s) := by
  have hkept : ∀ (l : List α) u, Q u → P u → P (l.foldl f u) := by
    intro l
    induction l with
    | nil => exact fun u _ h => h
    | cons y rest ih => exact fun u hq hp => ih _ (hQ u y hq) (hP u y hq hp)
  induction l generalizing s with
  | nil => cases hmem
  | cons y rest ih =>
    rcases List.mem_cons.mp hmem with rfl | hmem
    · exact hkept rest _ (hQ s x hs) (hx s hs)
    · exact ih hmem (hQ s y hs)

/-! ## Slots -/

theorem slotAt_closed (hs : List Nat) (s : State) (h : Nat) :
    slotAt (hs.foldl (fun s h => putSlot s h Slot.zero) s) h = if h ∈ hs then Slot.zero else slotAt s h := by
  induction hs generalizing s with
  | nil => rfl
  | cons k rest ih =>
    rw [List.foldl_cons, ih]
    by_cases hk : h = k
    · subst hk
      simp
    · simp [hk, slotAt_putSlot_other]

/-- The slots that are open for a VI. -/
def viSlots (s : State) (v : ViId) : List Nat := (s.slots.filter (fun x => x.2.isOpen && decide (x.2.owner = v))).map (fun x => x.1)

theorem mem_viSlots {s : State} {v : ViId} {h : Nat} (hopen : (slotAt s h).isOpen = true) (howner : (slotAt s h).owner = v) :
    h ∈ viSlots s v := by
  have hmem : (h, slotAt s h) ∈ s.slots := mem_of_spGet_ne fun hzero => by
    rw [slotAt, hzero] at hopen
    cases hopen
  exact List.mem_map.mpr ⟨_, List.mem_filter.mpr ⟨hmem, by simp [hopen, howner]⟩, rfl⟩

theorem closed_of_viSlots {s : State} {v : ViId} {h : Nat}
    (hopen : (slotAt ((viSlots s v).foldl (fun s h => putSlot s h Slot.zero) s) h).isOpen = true) :
    (slotAt ((viSlots s v).foldl (fun s h => putSlot s h Slot.zero) s) h).owner ≠ v := by
  rw [slotAt_closed] at hopen ⊢
  split at hopen
  · cases hopen
  · next hnot =>
    rw [if_neg hnot]
    exact fun howner => hnot (mem_viSlots hopen howner)

theorem closeSlots_keeps (hs : List Nat) (s : State) : (hs.foldl (fun s h => putSlot s h Slot.zero) s).rings = s.rings
    ∧ (hs.foldl (fun s h => putSlot s h Slot.zero) s).cfg = s.cfg := by
  induction hs generalizing s with
  | nil => exact ⟨rfl, rfl⟩
  | cons k rest ih => simpa using ih (putSlot s k Slot.zero)

/-! ## Chains -/

theorem chainAt_invalidateChain (c : Nat) (s : State) : chainAt (invalidateChain c s) c = ChainDesc.invalid := by
  unfold invalidateChain
  rw [(storeRelease_quiet _).chainAt]
  exact chainAt_setChain_same _ _ _

theorem invalidateChain_aside (c : Nat) (s : State) : Aside s (invalidateChain c s) := by
  unfold invalidateChain
  refine Aside.trans ?_ ((wakeConsumer_aside c _).trans ((setChain_aside _ c _).trans (storeRelease_aside _)))
  refine Aside.foldl _ (fun u x => ?_) _ s
  split
  · exact failEpoch_aside c x.number .retracted u
  · exact Aside.refl u

theorem chainAt_invalidated (cs : List Nat) (s : State) (c : Nat) :
    chainAt (cs.foldl (fun s c => invalidateChain c s) s) c = if c ∈ cs then ChainDesc.invalid else chainAt s c := by
  induction cs generalizing s with
  | nil => rfl
  | cons k rest ih =>
    rw [List.foldl_cons, ih]
    by_cases hk : c = k
    · subst hk
      simp [chainAt_invalidateChain]
    · simp [hk, (invalidateChain_ofChain k s).others c hk]

/-- The valid chains of a VI. -/
def viChains (s : State) (v : ViId) : List Nat := (s.chains.filter (fun x => x.2.valid && decide (x.2.owner = v))).map (fun x => x.1)

theorem mem_viChains {s : State} {v : ViId} {c : Nat} (hvalid : (chainAt s c).valid = true) (howner : (chainAt s c).owner = v) :
    c ∈ viChains s v := by
  have hmem : (c, chainAt s c) ∈ s.chains := mem_of_spGet_ne fun hinvalid => by
    rw [chainAt, hinvalid] at hvalid
    cases hvalid
  exact List.mem_map.mpr ⟨_, List.mem_filter.mpr ⟨hmem, by simp [hvalid, howner]⟩, rfl⟩

theorem invalid_of_viChains {s : State} {v : ViId} {c : Nat}
    (hvalid : (chainAt ((viChains s v).foldl (fun s c => invalidateChain c s) s) c).valid = true) :
    (chainAt ((viChains s v).foldl (fun s c => invalidateChain c s) s) c).owner ≠ v := by
  rw [chainAt_invalidated] at hvalid ⊢
  split at hvalid
  · cases hvalid
  · next hnot =>
    rw [if_neg hnot]
    exact fun howner => hnot (mem_viChains hvalid howner)

/-- Of the rings a retraction moves the commands that wait. -/
theorem invalidateChains_keep (cs : List Nat) (s : State) :
    (cs.foldl (fun s c => invalidateChain c s) s).slots = s.slots
      ∧ (cs.foldl (fun s c => invalidateChain c s) s).rings
        = { s.rings with cmds := (cs.foldl (fun s c => invalidateChain c s) s).rings.cmds } := by
  induction cs generalizing s with
  | nil => exact ⟨rfl, rfl⟩
  | cons k rest ih =>
    obtain ⟨hslots, hrings⟩ := ih (invalidateChain k s)
    refine ⟨hslots.trans (invalidateChain_aside k s).slots, ?_⟩
    rw [List.foldl_cons, hrings, (invalidateChain_ofChain k s).rings]

/-! ## Counters -/

theorem evSelectOf_resetCounter (v : ViId) (s : State) (n k : Nat) : (evSelectOf (resetCounter v s n) k).allVi = (evSelectOf s k).allVi
    ∧ (evSelectOf (resetCounter v s n) k).vi = (evSelectOf s k).vi := by
  unfold resetCounter
  split
  · by_cases hk : k = n
    · subst hk
      simp [evSelectOf, setSelect]
    · simp [evSelectOf, setSelect, clearCounter, spGet_spSet_other _ _ _ hk]
  · exact ⟨rfl, rfl⟩

theorem shownTo_resetCounter (v : ViId) (s : State) (n k : Nat) : shownTo (resetCounter v s n) v k = shownTo s v k := by
  obtain ⟨hall, hvi⟩ := evSelectOf_resetCounter v s n k
  simp only [shownTo, hall, hvi]

theorem count_resetCounter_same {v : ViId} {s : State} {n : Nat} (hshown : shownTo s v n = true) :
    spGet 0 (resetCounter v s n).ev.count n = 0 := by
  rw [resetCounter, if_pos hshown]
  exact spGet_spErase_same 0 _ n

theorem count_resetCounter_zero {v : ViId} {s : State} {n k : Nat} (hzero : spGet 0 s.ev.count k = 0) :
    spGet 0 (resetCounter v s n).ev.count k = 0 := by
  unfold resetCounter
  split
  · by_cases hk : k = n
    · subst hk
      exact spGet_spErase_same 0 _ k
    · exact (spGet_spErase_other 0 _ hk).trans hzero
  · exact hzero

/-- R671: of the counters of a reset VI none has counted. -/
theorem viCounter_reset (v : ViId) (s : State) {n : Nat} (hn : n < 16) :
    viCounter ((List.range 16).foldl (resetCounter v) s) v n = 0 := by
  have hshown : ∀ (l : List Nat) (u : State), shownTo (l.foldl (resetCounter v) u) v n = shownTo u v n := by
    intro l
    induction l with
    | nil => exact fun _ => rfl
    | cons k rest ih => exact fun u => (ih _).trans (shownTo_resetCounter v u k n)
  have hrow : viCounter ((List.range 16).foldl (resetCounter v) s) v n
      = if shownTo ((List.range 16).foldl (resetCounter v) s) v n then (spGet 0 ((List.range 16).foldl (resetCounter v) s).ev.count n).toNat
        else 0 := by
    unfold viCounter
    split <;> first | omega | rfl
  rw [hrow, hshown]
  split
  · next hs =>
    have hzero : spGet 0 ((List.range 16).foldl (resetCounter v) s).ev.count n = 0 :=
      foldl_reaches (Q := fun u => shownTo u v n = true) (P := fun u => spGet 0 u.ev.count n = 0)
        (fun u k h => (shownTo_resetCounter v u k n).trans h) (fun u k _ h => count_resetCounter_zero h)
        (fun u h => count_resetCounter_same h) (List.mem_range.mpr hn) hs
    rw [hzero]
    rfl
  · rfl

theorem resetCounters_keep (v : ViId) (s : State) : ((List.range 16).foldl (resetCounter v) s).vis = s.vis
    ∧ ((List.range 16).foldl (resetCounter v) s).slots = s.slots ∧ ((List.range 16).foldl (resetCounter v) s).chains = s.chains
    ∧ ((List.range 16).foldl (resetCounter v) s).rings = s.rings := by
  have hstep : ∀ (u : State) k, (resetCounter v u k).vis = u.vis ∧ (resetCounter v u k).slots = u.slots
      ∧ (resetCounter v u k).chains = u.chains ∧ (resetCounter v u k).rings = u.rings := by
    intro u k
    unfold resetCounter
    split <;> exact ⟨rfl, rfl, rfl, rfl⟩
  refine ⟨?_, ?_, ?_, ?_⟩
  · exact foldl_keeps (fun u => u.vis) _ (fun u k => (hstep u k).1) _ s
  · exact foldl_keeps (fun u => u.slots) _ (fun u k => (hstep u k).2.1) _ s
  · exact foldl_keeps (fun u => u.chains) _ (fun u k => (hstep u k).2.2.1) _ s
  · exact foldl_keeps (fun u => u.rings) _ (fun u k => (hstep u k).2.2.2) _ s

/-! ## Rings -/

theorem ctxOfRing_congr {s t : State} {r : Nat} (h : cacheEntry t r = cacheEntry s r) (hcached : (cacheEntry s r).isSome) :
    ctxOfRing t r = ctxOfRing s r := by
  obtain ⟨e, he⟩ := Option.isSome_iff_exists.mp hcached
  rw [ctxOfRing_cached he, ctxOfRing_cached (h.trans he)]

theorem standingState_cached {s : State} {r : Nat} (hcached : (cacheEntry s r).isSome) : standingState s r = (ctxOfRing s r).state := by
  obtain ⟨e, he⟩ := Option.isSome_iff_exists.mp hcached
  rw [ctxOfRing_cached he, standingState, he]

theorem cacheEntry_modCtx_other (s : State) {r k : Nat} (f : RingCtx → RingCtx) (h : k ≠ r) :
    cacheEntry (modCtx s r f) k = cacheEntry s k := by
  have hfind : ∀ l : List CtxEntry, (updateWhere (fun e => decide (e.ring = r)) (fun e => { e with ctx := f (ctxOfRing s r), dirty := true })
      l).find? (fun e => decide (e.ring = k)) = l.find? (fun e => decide (e.ring = k)) := by
    intro l
    induction l with
    | nil => rfl
    | cons e rest ih =>
      unfold updateWhere at ih ⊢
      rw [List.map_cons, List.find?_cons, List.find?_cons, ih]
      by_cases he : e.ring = r
      · simp only [he, decide_true, if_true, decide_eq_false h.symm]
      · simp only [he, decide_false, Bool.false_eq_true, if_false]
  unfold modCtx setCtx
  split
  · exact hfind _
  · exact cacheEntry_eq (by simp) k

theorem modCtx_waiting (s : State) (r : Nat) (f : RingCtx → RingCtx) : (modCtx s r f).rings.actions = s.rings.actions
    ∧ (modCtx s r f).rings.tumblers = s.rings.tumblers ∧ (modCtx s r f).rings.deferred = s.rings.deferred := by
  unfold modCtx setCtx
  split
  · exact ⟨rfl, rfl, rfl⟩
  · simp

theorem dropChoice_keeps (r : Nat) (s : State) : (dropChoice r s).rings.cache = s.rings.cache ∧ (dropChoice r s).rings.cmds = s.rings.cmds
    ∧ (dropChoice r s).rings.deferred = s.rings.deferred ∧ (dropChoice r s).rings.actions = s.rings.actions
    ∧ (dropChoice r s).rings.tumblers = s.rings.tumblers := by
  unfold dropChoice
  split
  · split <;> exact ⟨rfl, rfl, rfl, rfl, rfl⟩
  · exact ⟨rfl, rfl, rfl, rfl, rfl⟩

theorem startCtxRead_keeps (r : Nat) (s : State) : (startCtxRead r s).rings.cache = s.rings.cache
    ∧ (startCtxRead r s).rings.cmds = s.rings.cmds ∧ (startCtxRead r s).rings.deferred = s.rings.deferred
    ∧ (startCtxRead r s).rings.actions = s.rings.actions ∧ (startCtxRead r s).rings.tumblers = s.rings.tumblers := by
  unfold startCtxRead
  split_ifs <;> exact ⟨rfl, rfl, rfl, rfl, rfl⟩

theorem find_deferred_ne (l : List (Nat × Deferred)) {r k : Nat} (h : r ≠ k) :
    (l.filter (fun d => decide (d.1 ≠ k))).find? (fun d => decide (d.1 = r)) = l.find? (fun d => decide (d.1 = r)) := by
  induction l with
  | nil => rfl
  | cons d rest ih =>
    by_cases hd : d.1 = k
    · have hr : ¬ d.1 = r := fun hr => h (hr.symm.trans hd)
      simpa [List.filter_cons, hd, List.find?_cons, h.symm] using ih
    · by_cases hr : d.1 = r
      · simp [hr, h]
      · simpa [List.filter_cons, hd, List.find?_cons, hr] using ih

theorem find_deferred_same (l : List (Nat × Deferred)) (r : Nat) (d : Deferred) :
    ((l.filter (fun d => decide (d.1 ≠ r)) ++ [(r, d)]).find? (fun d => decide (d.1 = r))).map (fun d => d.2) = some d := by
  have hnone : (l.filter (fun d => decide (d.1 ≠ r))).find? (fun d => decide (d.1 = r)) = none := by
    simp only [List.find?_eq_none, List.mem_filter]
    exact fun d hd => by simpa using hd.2
  rw [List.find?_append, hnone]
  simp

theorem find_deferred_other (l : List (Nat × Deferred)) {r k : Nat} (d : Deferred) (h : r ≠ k) :
    (l.filter (fun d => decide (d.1 ≠ k)) ++ [(k, d)]).find? (fun d => decide (d.1 = r)) = l.find? (fun d => decide (d.1 = r)) := by
  rw [List.find?_append, find_deferred_ne l h]
  cases l.find? (fun d => decide (d.1 = r)) <;> simp [h.symm]

/-- A reset disables a ring now or when its command is gone. -/
theorem resetRing_eq (s : State) (k : Nat) : ((cmdOf s k).isSome ∨ standingState s k = .suspended) ∧ (∃ u : State, resetRing s k = { u with
      rings := { u.rings with deferred := s.rings.deferred.filter (fun d => decide (d.1 ≠ k)) ++ [(k, .disable)] } }
        ∧ u.rings.cache = s.rings.cache ∧ u.rings.cmds = s.rings.cmds ∧ u.rings.actions = s.rings.actions
        ∧ u.rings.tumblers = s.rings.tumblers)
    ∨ ¬ ((cmdOf s k).isSome ∨ standingState s k = .suspended) ∧ resetRing s k = disableRing k (dropChoice k s) := by
  have hdecide : ((cmdOf s k).isSome || decide (standingState s k = .suspended)) = true
      ↔ ((cmdOf s k).isSome ∨ standingState s k = .suspended) := by simp
  unfold resetRing
  by_cases h : (cmdOf s k).isSome ∨ standingState s k = .suspended
  · refine .inl ⟨h, if (cacheEntry s k).isNone then startCtxRead k s else s, ?_⟩
    rw [if_pos (hdecide.mpr h)]
    obtain ⟨hcache, hcmds, hdeferred, hactions, htumblers⟩ := startCtxRead_keeps k s
    split
    · rw [← hdeferred]
      exact ⟨rfl, hcache, hcmds, hactions, htumblers⟩
    · exact ⟨rfl, rfl, rfl, rfl, rfl⟩
  · exact .inr ⟨h, if_neg fun hc => h (hdecide.mp hc)⟩

theorem disableRing_keeps (k : Nat) (s : State) : (disableRing k s).rings.cmds = s.rings.cmds
    ∧ (disableRing k s).rings.actions = s.rings.actions ∧ (disableRing k s).rings.tumblers = s.rings.tumblers
    ∧ (disableRing k s).rings.deferred = s.rings.deferred.filter (fun d => decide (d.1 ≠ k))
    ∧ (disableRing k s).rings.cache = (setRingState s k .disabled).rings.cache := by
  obtain ⟨hactions, htumblers, hdeferred⟩ := modCtx_waiting s k (fun c => { c with state := .disabled })
  exact ⟨(disableRing_keepsCmds k s).cmds, hactions, htumblers, congrArg (List.filter _) hdeferred, rfl⟩

theorem resetRing_waiting (s : State) (k : Nat) : (resetRing s k).rings.cmds = s.rings.cmds
    ∧ (resetRing s k).rings.actions = s.rings.actions ∧ (resetRing s k).rings.tumblers = s.rings.tumblers := by
  obtain ⟨-, u, hu, -, hcmds, hactions, htumblers⟩ | ⟨-, hr⟩ := resetRing_eq s k
  · rw [hu]
    exact ⟨hcmds, hactions, htumblers⟩
  · obtain ⟨hcmds, hactions, htumblers, -, -⟩ := disableRing_keeps k (dropChoice k s)
    obtain ⟨-, hcmds', -, hactions', htumblers'⟩ := dropChoice_keeps k s
    rw [hr]
    exact ⟨hcmds.trans hcmds', hactions.trans hactions', htumblers.trans htumblers'⟩

/-- The reset of another ring leaves a ring's cached context and what waits for its command. -/
theorem resetRing_other (s : State) {r k : Nat} (h : r ≠ k) :
    cacheEntry (resetRing s k) r = cacheEntry s r ∧ ringDeferred (resetRing s k) r = ringDeferred s r := by
  obtain ⟨-, u, hu, hcache, -, -, -⟩ | ⟨-, hr⟩ := resetRing_eq s k
  · rw [hu]
    exact ⟨cacheEntry_eq hcache r, congrArg (Option.map _) (find_deferred_other _ _ h)⟩
  · obtain ⟨-, -, -, hdeferred, hcache⟩ := disableRing_keeps k (dropChoice k s)
    obtain ⟨hcache', -, hdeferred', -, -⟩ := dropChoice_keeps k s
    rw [hr]
    constructor
    · exact (cacheEntry_eq hcache r).trans ((cacheEntry_modCtx_other _ _ h).trans (cacheEntry_eq hcache' r))
    · rw [ringDeferred, hdeferred, hdeferred', find_deferred_ne _ h]
      rfl

/-- A ring without a command, and not suspended, is DISABLED at once. -/
theorem resetRing_disables {s : State} {r : Nat} (hcmd : cmdOf s r = none) (hcached : (cacheEntry s r).isSome)
    (hstate : (ctxOfRing s r).state ≠ .suspended) :
    (cacheEntry (resetRing s r) r).isSome ∧ (ctxOfRing (resetRing s r) r).state = .disabled := by
  obtain ⟨hwaits, -⟩ | ⟨-, hr⟩ := resetRing_eq s r
  · rw [hcmd, standingState_cached hcached] at hwaits
    simp [hstate] at hwaits
  · obtain ⟨-, -, -, -, hcache⟩ := disableRing_keeps r (dropChoice r s)
    have hcached' : (cacheEntry (dropChoice r s) r).isSome := by rwa [cacheEntry_eq (dropChoice_keeps r s).1]
    have hsame := cacheEntry_eq hcache r
    have hcached'' : (cacheEntry (setRingState (dropChoice r s) r .disabled) r).isSome := cacheEntry_modCtx _ hcached'
    rw [hr]
    refine ⟨by rw [hsame]; exact hcached'', ?_⟩
    rw [ctxOfRing_congr hsame hcached'', setRingState, ctxOfRing_modCtx _ hcached']

/-- One with a command, or suspended, is to be DISABLED after it. -/
theorem resetRing_defers {s : State} {r : Nat} (hwaits : (cmdOf s r).isSome ∨ standingState s r = .suspended) :
    cacheEntry (resetRing s r) r = cacheEntry s r ∧ ringDeferred (resetRing s r) r = some .disable := by
  obtain ⟨-, u, hu, hcache, -, -, -⟩ | ⟨hnot, -⟩ := resetRing_eq s r
  · rw [hu]
    exact ⟨cacheEntry_eq hcache r, find_deferred_same _ _ _⟩
  · exact absurd hwaits hnot

theorem cmdOf_of_cmds {s t : State} (h : t.rings.cmds = s.rings.cmds) (r : Nat) : cmdOf t r = cmdOf s r := by
  unfold cmdOf
  rw [h]

/-- R491: every ring without a command is DISABLED by the end of the reset of all. -/
theorem resetRings_disable {l : List Nat} {s : State} {r : Nat} (hmem : r ∈ l) (hcmd : cmdOf s r = none) (hcached : (cacheEntry s r).isSome)
    (hstate : (ctxOfRing s r).state ≠ .suspended) :
    (cacheEntry (l.foldl resetRing s) r).isSome ∧ (ctxOfRing (l.foldl resetRing s) r).state = .disabled := by
  refine foldl_reaches (Q := fun u => cmdOf u r = none ∧ (cacheEntry u r).isSome ∧ (ctxOfRing u r).state ≠ .suspended)
    (P := fun u => (cacheEntry u r).isSome ∧ (ctxOfRing u r).state = .disabled) ?_ ?_ ?_ hmem ⟨hcmd, hcached, hstate⟩
  · intro u k ⟨hu, huc, hus⟩
    have hcmds := (cmdOf_of_cmds (resetRing_waiting u k).1 r).trans hu
    by_cases hk : r = k
    · subst hk
      obtain ⟨hc, hd⟩ := resetRing_disables hu huc hus
      exact ⟨hcmds, hc, by rw [hd]; decide⟩
    · obtain ⟨hc, -⟩ := resetRing_other u hk
      exact ⟨hcmds, by rwa [hc], by rwa [ctxOfRing_congr hc huc]⟩
  · intro u k ⟨hu, huc, hus⟩ hp
    by_cases hk : r = k
    · subst hk
      exact resetRing_disables hu huc hus
    · obtain ⟨hc, -⟩ := resetRing_other u hk
      exact ⟨by rwa [hc], by rw [ctxOfRing_congr hc huc]; exact hp.2⟩
  · exact fun u ⟨hu, huc, hus⟩ => resetRing_disables hu huc hus

/-- R491: every ring with a command, or suspended, is to be DISABLED after it. -/
theorem resetRings_defer {l : List Nat} {s : State} {r : Nat} (hmem : r ∈ l)
    (hwaits : (cmdOf s r).isSome ∨ standingState s r = .suspended) (hcached : (cacheEntry s r).isSome) :
    ringDeferred (l.foldl resetRing s) r = some .disable := by
  have hkept : ∀ u k, ((cmdOf u r).isSome ∨ standingState u r = .suspended) → cacheEntry (resetRing u k) r = cacheEntry u r := by
    intro u k hu
    by_cases hk : r = k
    · subst hk
      exact (resetRing_defers hu).1
    · exact (resetRing_other u hk).1
  refine foldl_reaches (Q := fun u => ((cmdOf u r).isSome ∨ standingState u r = .suspended) ∧ (cacheEntry u r).isSome)
    (P := fun u => ringDeferred u r = some .disable) ?_ ?_ ?_ hmem ⟨hwaits, hcached⟩
  · intro u k ⟨hu, huc⟩
    have hc := hkept u k hu
    have hc' : (cacheEntry (resetRing u k) r).isSome := by rwa [hc]
    rw [cmdOf_of_cmds (resetRing_waiting u k).1, standingState_cached hc', ctxOfRing_congr hc huc, ← standingState_cached huc]
    exact ⟨hu, hc'⟩
  · intro u k ⟨hu, _⟩ hp
    by_cases hk : r = k
    · subst hk
      exact (resetRing_defers hu).2
    · exact (resetRing_other u hk).2.trans hp
  · exact fun u ⟨hu, _⟩ => (resetRing_defers hu).2

/-! ## The whole reset -/

/-- The rings that a reset of a VI concerns. -/
def viRings (s : State) (v : ViId) : List Nat :=
  (createdRings s).filter fun x =>
    (decide (isCovered x = false) && decide ((viRange s false v).base ≤ x)
        && decide (x < (viRange s false v).base + (viRange s false v).count))
      || (s.twin.covering && (decide (isCovered x = true) && decide ((viRange s true v).base ≤ x)
        && decide (x < (viRange s true v).base + (viRange s true v).count)))

/-- What waits for a VI's rings is gone, and its tumblers. -/
def unwaited (v : ViId) (s : State) : State :=
  { s with rings := { s.rings with actions := s.rings.actions.filter (fun a => decide (a.vi ≠ v)),
                                   tumblers := s.rings.tumblers.filter (fun t => decide (t.vi ≠ v)) } }

def ringsReset (v : ViId) (s : State) : State := (viRings s v).foldl resetRing (unwaited v s)
def slotsReset (v : ViId) (s : State) : State := (viSlots s v).foldl (fun s h => putSlot s h Slot.zero) s
def chainsReset (v : ViId) (s : State) : State := (viChains s v).foldl (fun s c => invalidateChain c s) s

/-- The VI's own state starts afresh. -/
def viErased (i : ViState) : ViState := { i with events := [], key := none, counters := ViCounters.zero }

def countersReset (v : ViId) (s : State) : State :=
  (List.range 16).foldl (resetCounter v) (modVi s v viErased)

theorem viResetCheck_leaves (s : State) (x : Mg) : ∃ m, viResetCheck { s with mg := x } = { s with mg := m } := by
  unfold viResetCheck
  split
  · exact ⟨x, rfl⟩
  · split
    · exact ⟨x, rfl⟩
    · exact ⟨_, rfl⟩

theorem resetVi_eq {s : State} {v : ViId} (h : s.mg.viReset = none) : ∃ m, resetVi v s
    = { countersReset v (chainsReset v (slotsReset v (ringsReset v s))) with mg := m } := by
  rw [resetVi, if_neg (by simp [h])]
  unfold countersReset chainsReset slotsReset ringsReset viRings viSlots viChains unwaited viErased
  exact viResetCheck_leaves _ _

theorem resetRings_waiting (l : List Nat) (s : State) : (l.foldl resetRing s).rings.actions = s.rings.actions
    ∧ (l.foldl resetRing s).rings.tumblers = s.rings.tumblers :=
  ⟨foldl_keeps (fun u => u.rings.actions) _ (fun u k => (resetRing_waiting u k).2.1) l s,
    foldl_keeps (fun u => u.rings.tumblers) _ (fun u k => (resetRing_waiting u k).2.2) l s⟩

theorem mem_foldl_setInsert {l m : List Nat} {n : Nat} : n ∈ l.foldl setInsert m ↔ n ∈ l ∨ n ∈ m := by
  induction l generalizing m with
  | nil => simp
  | cons k rest ih =>
    rw [List.foldl_cons, ih, mem_setInsert, List.mem_cons]
    tauto

theorem mem_viRings {s : State} {v : ViId} {r : Nat} (hown : isCovered r = false) (hlow : (viRange s false v).base ≤ r)
    (hhigh : r < (viRange s false v).base + (viRange s false v).count) (hcached : (cacheEntry s r).isSome)
    (hstate : (ctxOfRing s r).state ≠ .disabled) : r ∈ viRings s v := by
  obtain ⟨e, he⟩ := Option.isSome_iff_exists.mp hcached
  have hmem : e ∈ s.rings.cache := List.mem_of_find?_eq_some he
  have hring : e.ring = r := by simpa using List.find?_some he
  have hflush : r ∈ flushRings false s := by
    rw [flushRings, List.mem_filter]
    exact ⟨mem_foldl_setInsert.mpr (.inl (List.mem_append_right _ (List.mem_map.mpr ⟨e, hmem, hring⟩))), by simp⟩
  rw [viRings, List.mem_filter, createdRings, List.mem_filter]
  exact ⟨⟨hflush, by simpa using hstate⟩, by simp [hown, hlow, hhigh]⟩

theorem slotsReset_keeps (v : ViId) (s : State) : (slotsReset v s).rings = s.rings := (closeSlots_keeps _ s).1

theorem chainsReset_keeps (v : ViId) (s : State) : (chainsReset v s).slots = s.slots
    ∧ (chainsReset v s).rings = { s.rings with cmds := (chainsReset v s).rings.cmds } := invalidateChains_keep _ s

theorem countersReset_leaves (v : ViId) (s : State) : viOf (countersReset v s) v = viErased (viOf s v)
    ∧ (countersReset v s).slots = s.slots ∧ (countersReset v s).chains = s.chains ∧ (countersReset v s).rings = s.rings
    ∧ ∀ n < 16, viCounter (countersReset v s) v n = 0 := by
  unfold countersReset
  obtain ⟨hvis, hslots, hchains, hrings⟩ := resetCounters_keep v (modVi s v viErased)
  refine ⟨?_, hslots, hchains, hrings, fun n hn => viCounter_reset v _ hn⟩
  rw [← viOf_modVi_same s v viErased]
  exact congrArg (fun m => spGet ViState.reset m v.toNat) hvis

theorem viCounter_fixed {s : State} {v : ViId} (h : (viOf s v).counters = ViCounters.zero) {n : Nat} (hlow : 16 ≤ n) (hn : n < 20) :
    viCounter s v n = 0 := by
  unfold viCounter
  rw [h]
  obtain rfl | rfl | rfl | rfl : n = 16 ∨ n = 17 ∨ n = 18 ∨ n = 19 := by omega
  all_goals simp [ViCounters.zero, nondetWord, place]

/-- What a reset of a VI leaves of its memory and its counters. -/
theorem resetVi_erases {s u : State} {v : ViId} {i : ViState} (hvi : viOf u v = viErased i) (hslots : u.slots = (slotsReset v s).slots)
    (hchains : u.chains = (chainsReset v (slotsReset v s)).chains) (hcounts : ∀ n < 16, viCounter u v n = 0) :
    (∀ h, (slotAt u h).isOpen = true → (slotAt u h).owner ≠ v) ∧ (∀ c, (chainAt u c).valid = true → (chainAt u c).owner ≠ v)
      ∧ (viOf u v).key = none ∧ (∀ n, eventOf u v n = 0) ∧ (∀ n < 20, viCounter u v n = 0) := by
  refine ⟨fun h hopen => ?_, fun c hvalid => ?_, by rw [hvi]; rfl, fun n => by rw [eventOf, hvi]; rfl, fun n hn => ?_⟩
  · rw [slotAt, hslots] at hopen ⊢
    exact closed_of_viSlots hopen
  · rw [chainAt, hchains] at hvalid ⊢
    exact invalid_of_viChains hvalid
  · by_cases hlow : n < 16
    · exact hcounts n hlow
    · exact viCounter_fixed (by rw [hvi]; rfl) (by omega) hn

/-- R491: what a reset of a VI leaves of a ring of its own whose context is cached. -/
theorem resetVi_ring {s t : State} {v : ViId} (hrings : t.rings = { (ringsReset v s).rings with cmds := t.rings.cmds }) {r : Nat}
    (hmem : r ∈ viRings s v) (hcached : (cacheEntry s r).isSome) :
    (cmdOf s r = none → (ctxOfRing s r).state ≠ .suspended → (ctxOfRing t r).state = .disabled)
      ∧ ((cmdOf s r).isSome ∨ (ctxOfRing s r).state = .suspended → ringDeferred t r = some .disable) := by
  have hcache : cacheEntry t r = cacheEntry (ringsReset v s) r := cacheEntry_eq (by rw [hrings]) r
  have hstart : cacheEntry (unwaited v s) r = cacheEntry s r := rfl
  have hctx := ctxOfRing_congr hstart hcached
  constructor
  · intro hcmd hstate
    obtain ⟨hc, hd⟩ := resetRings_disable (s := unwaited v s) hmem hcmd hcached (by rwa [hctx])
    rw [ctxOfRing_congr hcache hc]
    exact hd
  · intro hwaits
    have hd := resetRings_defer (s := unwaited v s) hmem (by rwa [standingState_cached (s := unwaited v s) hcached, hctx]) hcached
    rw [ringDeferred, hrings]
    exact hd

/-! ## Keys -/

theorem field_keyWords (a b c d e f g h : W32) {i : Nat} (hi : i < 8) :
    field (BitVec.ofNat 256 ([a, b, c, d, e, f, g, h].foldr (fun x a => x.toNat + 2 ^ 32 * a) 0)) (32 * i + 31) (32 * i)
      = (([a, b, c, d, e, f, g, h] : List W32).getD i 0).toNat := by
  have hwidth : 32 * i + 31 + 1 - 32 * i = 32 := by omega
  rw [field_digit, BitVec.toNat_ofNat, hwidth]
  simp only [List.foldr_cons, List.foldr_nil]
  interval_cases i <;> simp only [List.getD_cons_zero, List.getD_cons_succ] <;> omega

theorem key_eraseKeys (s : State) (u : ViId) : (viOf (eraseKeys s) u).key = none := by
  refine spGet_of_forall (P := fun i : ViState => i.key = none) rfl (fun e he => ?_) u.toNat
  obtain ⟨x, -, rfl⟩ := List.mem_map.mp (List.mem_of_mem_filter he)
  rfl

theorem viOf_eraseKey_same (s : State) (v : ViId) : viOf (eraseKey v s) v = { viOf s v with key := none } :=
  viOf_modVi_same s v (fun i => { i with key := none })

theorem viOf_eraseKey_other (s : State) {u v : ViId} (h : u ≠ v) : viOf (eraseKey v s) u = viOf s u :=
  viOf_modVi_other s (fun i => { i with key := none }) h

section

variable {s : State} {v : ViId} (w : W32) (hon : s.ctl.state ≠ .off)
include hon

/-- A word for another VI discards what has been loaded. -/
theorem keyWord_discards {u : ViId} {ws : List W32} (hpart : s.mg.keyPartial = some (u, ws)) (hu : u ≠ v) :
    (keyWord v w s).vis = s.vis
      ∧ (keyWord v w s).mg = { s.mg with keyLast := 2, keyLastVi := u, keyPartial := some (v, [w]) } := by
  simp [keyWord, hon, hpart, hu]

/-- The eighth word installs the key. -/
theorem keyWord_installs {ws : List W32} (hpart : s.mg.keyPartial = some (v, ws)) (hlen : ws.length = 7) :
    viOf (keyWord v w s) v = { viOf s v with
        key := some (BitVec.ofNat 256 ((ws ++ [w]).foldr (fun x a => x.toNat + 2 ^ 32 * a) 0)) }
      ∧ (∀ u, u ≠ v → viOf (keyWord v w s) u = viOf s u) ∧ (keyWord v w s).mg.keyPartial = none
      ∧ (keyWord v w s).mg.keyLast = 1 ∧ (keyWord v w s).mg.keyLastVi = v := by
  have hrow : keyWord v w s = { modVi s v (fun i => { i with
      key := some (BitVec.ofNat 256 ((ws ++ [w]).foldr (fun x a => x.toNat + 2 ^ 32 * a) 0)) }) with
      mg := { s.mg with keyPartial := none, keyLast := 1, keyLastVi := v } } := by
    rw [keyWord, if_neg hon, hpart]
    exact (if_neg (not_not.mpr rfl)).trans (if_neg (by simp [hlen]))
  generalize BitVec.ofNat 256 ((ws ++ [w]).foldr (fun x a => x.toNat + 2 ^ 32 * a) 0) = key at hrow ⊢
  rw [hrow]
  exact ⟨viOf_modVi_same s v (fun i => { i with key := some key }), fun u hu => viOf_modVi_other s (fun i => { i with key := some key }) hu,
    rfl, rfl, rfl⟩

end

/-- What a reset of a VI that begins leaves. -/
theorem resetVi_leaves {s : State} {v : ViId} (hfree : s.mg.viReset = none) {t : State} (ht : resetVi v s = t) :
    ((∀ h, (slotAt t h).isOpen = true → (slotAt t h).owner ≠ v) ∧ (∀ c, (chainAt t c).valid = true → (chainAt t c).owner ≠ v)
      ∧ (viOf t v).key = none ∧ (∀ n, eventOf t v n = 0) ∧ (∀ n < 20, viCounter t v n = 0))
      ∧ t.rings = { (ringsReset v s).rings with cmds := t.rings.cmds } := by
  obtain ⟨m, hm⟩ := resetVi_eq hfree
  obtain ⟨hvi, hslots, hchains, hrings, hcounts⟩ := countersReset_leaves v (chainsReset v (slotsReset v (ringsReset v s)))
  obtain ⟨hslots', hrings'⟩ := chainsReset_keeps v (slotsReset v (ringsReset v s))
  obtain ⟨u, hu⟩ : ∃ u, countersReset v (chainsReset v (slotsReset v (ringsReset v s))) = u := ⟨_, rfl⟩
  rw [hu] at hm hvi hslots hchains hrings hcounts
  rw [hm] at ht
  subst ht
  rw [slotsReset_keeps] at hrings'
  refine ⟨resetVi_erases (u := { u with mg := m }) (s := ringsReset v s) hvi (hslots.trans hslots') hchains hcounts, ?_⟩
  have hcmds : u.rings = { (ringsReset v s).rings with cmds := u.rings.cmds } := by
    rw [hrings, hrings']
  exact hcmds

end Sys2Proof.Machine

open Sys2Proof Sys2Proof.Machine Sys2Proof.Claims

/-- Settles O52: each stage of the reset erases its part, and no later stage brings it back. -/
theorem keysLoadAndViResetsErase : Obligations.KeysLoadAndViResetsErase := by
  unfold Obligations.KeysLoadAndViResetsErase
  intro s v w
  refine ⟨fun hanswers => ?_, fun hanswers => ?_, fun hoff => ?_, fun hon hnone => ?_, fun u ws hon hpart hu => ?_,
    fun ws hon hpart hlen => ?_, fun a b c d e f g hon hpart => ?_, fun hanswers hbusy => ?_, fun hanswers hfree => ?_⟩
  · refine ⟨_, command_eq (mgmtWrite_of_answers hanswers _) (wake_pending s) (wake_cfg s), ?_, fun u hu => ?_, rfl, rfl⟩
    · rw [viOf_eraseKey_same]
    · exact (viOf_eraseKey_other (wake s) hu).trans (by simp [viOf])
  · exact ⟨_, command_eq (mgmtWrite_of_answers hanswers _) (wake_pending s) (wake_cfg s), key_eraseKeys _, rfl⟩
  · exact command_eq (if_pos hoff) rfl rfl
  · exact command_eq (by simp [keyWord, hon, hnone]) rfl rfl
  · exact ⟨_, command_to rfl, keyWord_discards w hon hpart hu⟩
  · exact command_eq (by simp [keyWord, hon, hpart, hlen]) rfl rfl
  · obtain ⟨hown, hothers, hpartial, hlast, hlastVi⟩ := keyWord_installs w hon hpart rfl
    exact ⟨_, _, command_to rfl, congrArg ViState.key hown, hothers, hpartial, hlast, hlastVi,
      fun i hi => field_keyWords a b c d e f g w hi⟩
  · exact register_eq ((mgmtWrite_of_answers hanswers _).trans (if_pos (by simpa using hbusy))) (by simp [mgIgnored])
  · obtain ⟨⟨hslots, hchains, hkey, hevents, hcounts⟩, hrings⟩ :=
      resetVi_leaves (s := wake s) (v := v) (by rwa [wake_mg]) rfl
    obtain ⟨hactions, htumblers⟩ := resetRings_waiting (viRings (wake s) v) (unwaited v (wake s))
    refine ⟨_, register_to (mgmtWrite_of_answers hanswers _), hslots, hchains, hkey, hevents, hcounts, fun a ha => ?_, fun e he => ?_,
      fun r hown hlow hhigh hcached hstate => ?_⟩
    · have ha' : a ∈ (ringsReset v (wake s)).rings.actions := by
        rw [hrings] at ha
        exact ha
      rw [ringsReset, hactions] at ha'
      simpa using (List.mem_filter.mp ha').2
    · have he' : e ∈ (ringsReset v (wake s)).rings.tumblers := by
        rw [hrings] at he
        exact he
      rw [ringsReset, htumblers] at he'
      simpa using (List.mem_filter.mp he').2
    · have hwake : cacheEntry (wake s) r = cacheEntry s r := cacheEntry_eq (by rw [wake_rings]) r
      have hrange : viRange (wake s) false v = viRange s false v := by
        simp [viRange, cfgVi_congr (wake_cfg s ▸ rfl : (wake s).cfg.vi = s.cfg.vi)]
      have hcached' : (cacheEntry (wake s) r).isSome := by rwa [hwake]
      have hmem : r ∈ viRings (wake s) v :=
        mem_viRings hown (by rwa [hrange]) (by rwa [hrange]) hcached' (by rwa [ctxOfRing_wake])
      have hring := resetVi_ring hrings hmem hcached'
      rw [cmdOf_of_cmds (s := s) (by rw [wake_rings]), ctxOfRing_wake] at hring
      exact hring
end

section
/-! SUPPORT. What a record of the trace leaves of the determinism control (R516 to R521), and the point that MG_DET_CTRL moves to (R509). -/

namespace Sys2Proof.Machine

open Sys2Proof.Claims

/-! ## Records -/

/-- The determinism control but for the trace's own ring and buffer. -/
def detKept (d : Det) : Det := { d with buffer := [], wptr := 0, dropped := 0, stalled := false }

def recordKept (s : State) : BitVec 48 × Det := (s.fcyc, detKept s.det)

theorem traceDrain_recordKept (rs : List TraceRecord) (s : State) : recordKept (traceDrain rs s) = recordKept s := by
  induction rs generalizing s with
  | nil => rfl
  | cons r rest ih =>
    unfold traceDrain
    split
    · rfl
    · dsimp only
      rw [ih]
      simp [recordKept, detKept]

theorem tracePut_recordKept (v : Option ViId) (r : TraceRecord) (s : State) : recordKept (tracePut v r s) = recordKept s := by
  have hput : recordKept (traceFlush { s with det := { s.det with buffer := s.det.buffer ++ [r] } }) = recordKept s :=
    traceDrain_recordKept _ _
  unfold tracePut
  dsimp only
  split
  · split
    · exact hput
    · rw [← hput]
      simp [recordKept, detKept]
  · simp [recordKept, detKept]

theorem traceDrain_one (r : TraceRecord) {s : State} (hroom : traceFull s = false) :
    (traceDrain [r] s).det.wptr = BitVec.ofNat 32 ((s.det.wptr.toNat + 32) % traceSize s) := by
  simp [traceDrain, hroom]

/-- A record of an empty buffer goes to a ring with room. -/
theorem tracePut_wptr (v : Option ViId) (r : TraceRecord) {s : State} (hbuffer : s.det.buffer = []) (hroom : traceFull s = false) :
    (tracePut v r s).det.wptr = BitVec.ofNat 32 ((s.det.wptr.toNat + 32) % traceSize s) := by
  have hone := traceDrain_one r (s := { s with det := { s.det with buffer := [r] } }) hroom
  have hput : ∀ u : State, u.det.wptr = BitVec.ofNat 32 ((s.det.wptr.toNat + 32) % traceSize s) →
      (if u.det.buffer.length < Config.traceRecords || !u.cfg.traceStall || u.det.stalled then u
        else { countEvent 0xC8 1 none (countTiming v u) with det := { (countEvent 0xC8 1 none (countTiming v u)).det with
          stalled := true } }).det.wptr = BitVec.ofNat 32 ((s.det.wptr.toNat + 32) % traceSize s) := by
    intro u hu
    split
    · exact hu
    · simpa using hu
  rw [tracePut, hbuffer, if_pos (by decide)]
  exact hput _ hone

/-- R521: with nothing held, space in the ring only ends a stall. -/
theorem traceSpace_det {s : State} (h : noTrace s) : (traceSpace s).det = { s.det with stalled := false } := by
  obtain ⟨hbuffer, hdropped⟩ := h
  simp [traceSpace, traceFlush, traceDrain, hbuffer, hdropped, Config.traceRecords]

theorem traceSpace_keeps (s : State) : (traceSpace s).rings = s.rings ∧ (traceSpace s).slots = s.slots := by
  have hflush : (traceFlush s).rings = s.rings ∧ (traceFlush s).slots = s.slots :=
    ⟨(traceDrain_quiet _ s).rings, (traceFlush_aside s).slots⟩
  simp only [traceSpace]
  split_ifs <;> simp [(traceNow_aside _ _ _ _ _ _ _).slots, (traceNow_quiet _ _ _ _ _ _ _).rings, hflush]

theorem traceRead_leaves (x : W32) (s : State) : (traceRead x s).cfg = { s.cfg with traceRptr := BitVec.ofNat 27 (field x 31 5) }
    ∧ (traceRead x s).rings = s.rings ∧ (traceRead x s).slots = s.slots
    ∧ (noTrace s → (traceRead x s).det = { s.det with stalled := false }) :=
  ⟨traceSpace_cfg _, (traceSpace_keeps _).1, (traceSpace_keeps _).2, fun h => traceSpace_det h⟩

/-! ## Timing-repeatable mode -/

theorem powerSteady_wake {s : State} (h : powerSteady s = true) : wake s = s := by
  simp only [powerSteady, Bool.and_eq_true, decide_eq_true_eq] at h
  exact wake_of_active h.1.1.1.1 h.1.1.1.2

theorem wake_or_leaving (s : State) : wake s = s ∨ (wake s).pwr.move ≠ .none := by
  unfold wake
  split
  · exact .inl rfl
  · split
    · exact .inl rfl
    · exact .inr (by simp)
    · split
      · exact .inr (by simp)
      · exact .inr (by simp)
      · exact .inl rfl

theorem powerSteady_wake_of_not {s : State} (h : powerSteady s = false) : powerSteady (wake s) = false := by
  rcases wake_or_leaving s with hw | hw
  · rw [hw, h]
  · simp [powerSteady, hw]

theorem requestPoint_asks (p : BitVec 3) (s : State) :
    (requestPoint p s).pwr.point = s.pwr.point ∧ (s.pwr.point = p ∧ (requestPoint p s).pwr.opReq = none
      ∨ (requestPoint p s).pwr.opReq = some p) := by
  unfold requestPoint
  split
  · next h => exact ⟨rfl, .inl ⟨h.2, h.1⟩⟩
  · exact ⟨rfl, .inr rfl⟩

/-! ## MG_DET_CTRL -/

theorem trmTarget_congr {s t : State} (h : t.cfg = s.cfg) : trmTarget t = trmTarget s := by
  unfold trmTarget
  rw [h]

theorem followPoint_idle {s : State} (h : s.det.trmActive = false ∨ powerSteady s = false) (old : BitVec 3) : followPoint old s = s := by
  refine if_neg ?_
  rcases h with h | h <;> simp [h]

theorem followPoint_asks {s : State} (htrm : s.det.trmActive = true) (hsteady : powerSteady s = true) {old : BitVec 3}
    (hat : s.pwr.point = old) : followPoint old s = requestPoint (trmTarget s) s := by
  refine if_pos ?_
  simp [htrm, hsteady, hat]

/-- The fields of MG_DET_CTRL as they are asked for. -/
def detAsked (x : W32) (s : State) : State :=
  { s with
    cfg := { s.cfg with trmPoint := BitVec.ofNat 3 (field x 6 4), traceStall := bit x 3 }
    det := { s.det with
      trm := bit x 0, trace := bit x 1, replay := bit x 2,
      changePending := decide (bit x 0 ≠ s.det.trmActive) || decide (bit x 1 ≠ s.det.traceActive)
        || decide (bit x 2 ≠ s.det.replayActive) } }

theorem detControl_good {x : W32} (hboth : ¬ (bit x 1 = true ∧ bit x 2 = true)) (hpoint : 2 ≤ field x 6 4) (s : State) :
    detControl x s = followPoint (trmTarget s) (detAsked x s) := by
  refine if_neg ?_
  simp only [Bool.or_eq_true, Bool.and_eq_true, decide_eq_true_eq, not_or]
  exact ⟨hboth, by omega⟩

theorem detControl_bad {x : W32} (h : bit x 1 = true ∧ bit x 2 = true ∨ field x 6 4 < 2) (s : State) : detControl x s = mgIgnored s := by
  refine if_pos ?_
  simpa only [Bool.or_eq_true, Bool.and_eq_true, decide_eq_true_eq] using h

/-! ## The quiescent point -/

theorem quiescentPoint_idle {s : State} (h : s.det.changePending = false ∨ quiescent s = false ∨ pageAnswers s = false) :
    quiescentPoint s = s := by
  refine if_neg ?_
  rcases h with h | h | h <;> simp [h]

/-- What is in effect from the quiescent point on, before its MARK. -/
def changed (s : State) : State :=
  { s with fcyc := 0, throttled := 0, det := { s.det with
    changePending := false, bseq := 0, trmActive := s.det.trm, traceActive := s.det.trace, replayActive := s.det.replay,
    replayPos := BitVec.ofNat 32 (s.cfg.traceRptr.toNat * 32 % traceSize s),
    replayFrom := BitVec.ofNat 32 (s.cfg.traceRptr.toNat * 32 % traceSize s) } }

def markRecord (s : State) : TraceRecord := traceRecord 0 0 s.ctl.incarnation.toNat 0 0 0 s.tabs.id.toNat

/-- With no doorbell held, nothing is left but the MARK and the point of timing-repeatable mode. -/
theorem quiescentPoint_leaves {s : State} (hpending : s.det.changePending = true) (hquiet : quiescent s = true)
    (hpage : pageAnswers s = true) (hheld : s.det.heldDoorbells = []) :
    (quiescentPoint s).fcyc = (tracePut none (markRecord s) (changed s)).fcyc
      ∧ (quiescentPoint s).det = (tracePut none (markRecord s) (changed s)).det
      ∧ (quiescentPoint s).rings = (tracePut none (markRecord s) (changed s)).rings := by
  have hkept := tracePut_recordKept none (markRecord s) (changed s)
  have hdoorbells : (tracePut none (markRecord s) (changed s)).det.heldDoorbells = [] :=
    (congrArg (fun k => k.2.heldDoorbells) hkept).trans hheld
  generalize hu : tracePut none (markRecord s) (changed s) = u at *
  have hsame : { u.det with heldDoorbells := [] } = u.det := by rw [← hdoorbells]
  have hrow : quiescentPoint s = (fun s3 : State => if s.det.replay then s3
      else s3.det.heldDoorbells.foldl (fun s a => requestAction a s) { s3 with det := { s3.det with heldDoorbells := [] } })
        (if s.det.trm then requestPoint (trmTarget u) { u with pwr := { u.pwr with stretch := false } } else u) := by
    rw [quiescentPoint, if_pos (by simp [hpending, hquiet, hpage]), ← hu]
    rfl
  have hpoint : ∃ p o, (if s.det.trm then requestPoint (trmTarget u) { u with pwr := { u.pwr with stretch := false } } else u)
      = { u with pwr := p, out := o } := by
    split
    · exact ⟨_, _, requestPoint_eq _ _⟩
    · exact ⟨_, _, rfl⟩
  obtain ⟨p, o, hp⟩ := hpoint
  rw [hrow, hp]
  dsimp only
  split
  · exact ⟨rfl, rfl, rfl⟩
  · rw [hdoorbells]
    exact ⟨rfl, hsame, rfl⟩

/-! ## A replay that ends -/

/-- What stands of a replay: whether it goes on, whether one has diverged, and the doorbells that it holds. -/
def replayView (s : State) : Bool × Bool × List PageAction := (s.det.replayActive, s.det.diverged, s.det.heldDoorbells)

theorem replayView_of_det {s t : State} (h : t.det = s.det) : replayView t = replayView s := by
  unfold replayView
  rw [h]

theorem modCtx_replayView (s : State) (r : Nat) (f : RingCtx → RingCtx) : replayView (modCtx s r f) = replayView s :=
  replayView_of_det (by simp [modCtx])

theorem traceChoice_replayView (type : Nat) (vi : Option ViId) (a b c : Nat) (s : State) :
    replayView (traceChoice type vi a b c s) = replayView s := by
  unfold traceChoice traceNow
  split
  · exact (congrArg (fun k : BitVec 48 × Det => (k.2.replayActive, k.2.diverged, k.2.heldDoorbells)) (tracePut_recordKept _ _ _)).trans
      (replayView_of_det (by simp))
  · rfl

theorem writeCpl_det (ring : Nat) (x : Cpl) (s : State) : (writeCpl ring x s).det = s.det := by
  unfold writeCpl
  dsimp only
  split <;> simp [modCtx]

theorem writeNotify_det (ring i : Nat) (s : State) : (writeNotify ring i s).det = s.det := by
  unfold writeNotify
  dsimp only
  split <;> simp

theorem skipGo_det (ring n : Nat) (s : State) : (skipGo ring n s).det = s.det := by
  induction n generalizing s with
  | zero => rfl
  | succ n ih =>
    unfold skipGo
    dsimp only
    rw [ih]
    split <;> simp [modCtx, writeCpl_det, writeNotify_det]

theorem skipAll_det (ring : Nat) (s : State) : (skipAll ring s).det = s.det := skipGo_det _ _ _

theorem tolViolations_det (s : State) : (tolViolations s).det = s.det := by
  unfold tolViolations
  split
  · rfl
  · refine foldl_keeps (fun u => u.det) _ (fun u e => ?_) _ s
    dsimp only
    split
    · simp
    · rfl

theorem applyDoorbell_replayView (v : ViId) (ring : Nat) (tail : W32) (s : State) :
    replayView (applyDoorbell v ring tail s) = replayView s := by
  have hboundary (p : Bool) (u : State) : replayView (if p then nextBoundary u else u) = replayView u := by split <;> rfl
  unfold applyDoorbell
  dsimp only
  split
  · exact replayView_of_det (by simp)
  · have hmoved : replayView (modCtx (traceChoice 1 (some v) ring 0 tail.toNat (countEvent 0x60 1 (some v) s)) ring
        (fun c => { c with tail := tail })) = replayView s := by
      rw [modCtx_replayView, traceChoice_replayView]
      exact replayView_of_det (by simp)
    rw [hboundary, ← hmoved]
    split
    · split
      · rfl
      · rw [replayView_of_det (tolViolations_det _), setRingState, modCtx_replayView]
    · split
      · rfl
      · exact replayView_of_det (skipAll_det _ _)
    · rfl

theorem applyAction_replayView (a : PageAction) (s : State) : replayView (applyAction a s) = replayView s := by
  have hresult (v : ViId) (n : Byte) (u : State) : replayView (setResult v n u) = replayView u := rfl
  have hstate (u : State) (r : Nat) (x : RingState) : replayView (setRingState u r x) = replayView u := modCtx_replayView u r _
  have hdefer : replayView (if (ringDeferred s a.ring).isSome then s
      else { s with rings := { s.rings with deferred := s.rings.deferred ++ [(a.ring, .pause)] } }) = replayView s := by split <;> rfl
  have hchoice (r : Nat) (u : State) : replayView (dropChoice r u) = replayView u := by
    unfold dropChoice
    split
    · split <;> rfl
    · rfl
  unfold applyAction
  cases a.action with
  | doorbell tail => exact applyDoorbell_replayView _ _ _ _
  | create image =>
    dsimp only
    split
    · exact replayView_of_det (by simp [setResult, regIgnored])
    · exact replayView_of_det (by simp [setResult, createRing])
  | resume =>
    dsimp only
    split
    · split
      · rfl
      · rw [hresult, hstate, replayView_of_det (skipAll_det _ _)]
    · split
      · rfl
      · rw [hresult, hstate]
    · rfl
  | pause =>
    dsimp only
    split
    · rw [hresult, hstate]
    · split
      · rw [hresult, hdefer]
      · rw [hresult, hchoice, hstate]
    · rw [hresult, hdefer]
    · rw [hresult, hdefer]
    · rw [hresult, hdefer]
    · rfl
  | destroy =>
    have hdisable : replayView (disableRing a.ring s) = replayView s := hstate _ _ _
    dsimp only
    split
    · rw [hresult, hdisable]
    · rw [hresult, hdisable]
    · rw [hresult, hdisable]
    · rfl

theorem requestAction_replayView (a : PageAction) (s : State) : replayView (requestAction a s) = replayView s := by
  unfold requestAction
  split
  · dsimp only
    split
    · exact replayView_of_det (by simp)
    · rw [applyAction_replayView]
      exact replayView_of_det (by simp)
  · refine replayView_of_det ?_
    have hreads : (startCtxRead a.ring (countEvent 0x2B 1 (some a.vi) s)).det = (countEvent 0x2B 1 (some a.vi) s).det := by
      rw [startCtxRead_onlyReads a.ring]
      rfl
    exact hreads.trans (by simp)

/-- R523: a replay that is stuck ends. -/
theorem replayDiverged_leaves {s : State} (hreplay : s.det.replayActive = true) (hstuck : replayStuck s = true) :
    replayView (replayDiverged s) = (false, true, []) ∧ (s.det.heldDoorbells = [] → (replayDiverged s).rings = s.rings) := by
  have hrow : replayDiverged s = s.det.heldDoorbells.foldl (fun s a => requestAction a s)
      (countEvent 0xCA 1 none { s with det := { s.det with replayActive := false, diverged := true, heldDoorbells := [] } }) :=
    if_pos (by simp [hreplay, hstuck])
  rw [hrow]
  constructor
  · rw [foldl_keeps replayView _ (fun u a => requestAction_replayView a u)]
    simp [replayView]
  · intro hnone
    rw [hnone]
    simp

end Sys2Proof.Machine

open Sys2Proof Sys2Proof.Machine Sys2Proof.Claims

/-- Settles O54, by what a trace record leaves of the determinism control. -/
theorem determinismTraceAndReplayAct : Obligations.DeterminismTraceAndReplayAct := by
  unfold Obligations.DeterminismTraceAndReplayAct
  intro s x hanswers
  refine ⟨fun hbad => ?_, fun hboth hpoint htrm hsteady hat => ?_, fun hboth hpoint hidle => ?_, fun hidle => ?_,
    fun hpending hquiet hpage hheld => ?_, ?_, fun hidle => ?_, fun hreplay hstuck => ?_⟩
  · exact register_eq ((mgmtWrite_of_answers hanswers _).trans (detControl_bad hbad _)) (by simp [mgIgnored])
  · have hwake := powerSteady_wake hsteady
    have hfollow : mgmtWrite (detControl x) s = requestPoint (trmTarget (detAsked x s)) (detAsked x s) := by
      rw [mgmtWrite_of_answers hanswers, hwake, detControl_good hboth hpoint, followPoint_asks (s := detAsked x s) htrm hsteady hat]
    have hcfg : (requestPoint (trmTarget (detAsked x s)) (detAsked x s)).cfg = (detAsked x s).cfg := by rw [requestPoint_eq]
    obtain ⟨hpt, hasks⟩ := requestPoint_asks (trmTarget (detAsked x s)) (detAsked x s)
    have htarget : trmTarget { requestPoint (trmTarget (detAsked x s)) (detAsked x s) with pending := s.pending }
        = trmTarget (detAsked x s) := trmTarget_congr hcfg
    refine ⟨_, register_to hfollow, congrArg (fun c => c.trmPoint) hcfg, ?_⟩
    rw [htarget]
    exact hasks.imp (fun h => ⟨hpt.trans h.1, h.2⟩) id
  · have hrow : mgmtWrite (detControl x) s = detAsked x (wake s) := by
      rw [mgmtWrite_of_answers hanswers, detControl_good hboth hpoint]
      refine followPoint_idle ?_ _
      rcases hidle with hoff | hmoving
      · exact .inl (by simpa [detAsked] using hoff)
      · exact .inr (powerSteady_wake_of_not hmoving)
    exact register_eq (hrow.trans (by simp [detAsked])) (by simp)
  · exact command_eq (quiescentPoint_idle hidle) rfl rfl
  · obtain ⟨hfcyc, hdet, hrings⟩ := quiescentPoint_leaves hpending hquiet hpage hheld
    have hkept := tracePut_recordKept none (markRecord s) (changed s)
    have hfield {β : Type} (g : Det → β) (hg : ∀ d, g (detKept d) = g d) : g (quiescentPoint s).det = g (changed s).det := by
      rw [hdet, ← hg, ← hg (changed s).det]
      exact congrArg (fun k => g k.2) hkept
    refine ⟨_, command_to rfl, hfield (·.changePending) fun _ => rfl, hfield (·.bseq) fun _ => rfl, ?_, hfield (·.trmActive) fun _ => rfl,
      hfield (·.traceActive) fun _ => rfl, hfield (·.replayActive) fun _ => rfl, hfield (·.replayPos) fun _ => rfl, ?_, fun hnone hroom => ?_⟩
    · exact hfcyc.trans (congrArg Prod.fst hkept)
    · exact hrings.trans (tracePut_quiet _ _ _).rings
    · have hmark : (tracePut none (markRecord s) (changed s)).det.wptr = BitVec.ofNat 32 ((s.det.wptr.toNat + 32) % traceSize s) :=
        tracePut_wptr none (markRecord s) (s := changed s) hnone.1 hroom
      exact (congrArg Det.wptr hdet).trans hmark
  · obtain ⟨hcfg, hrings, hslots, hdet⟩ := traceRead_leaves x (wake s)
    have hrow : mgmtWrite (traceRead x) s = traceRead x (wake s) := mgmtWrite_of_answers hanswers _
    generalize traceRead x (wake s) = u at hcfg hrings hslots hdet hrow
    rw [wake_cfg] at hcfg
    rw [wake_det] at hdet
    exact ⟨_, register_to hrow, hcfg, hrings.trans (wake_rings s), hslots.trans (wake_slots s),
      fun hnone => hdet (by rwa [noTrace, wake_det])⟩
  · exact command_eq (if_neg (by rcases hidle with h | h <;> simp [h])) rfl rfl
  · obtain ⟨hview, hrings⟩ := replayDiverged_leaves hreplay hstuck
    exact ⟨_, command_to rfl, congrArg (fun k => k.2.1) hview, congrArg (fun k => k.1) hview, congrArg (fun k => k.2.2) hview, hrings⟩
end

section
/-! SUPPORT. What a doorbell and a ring action leave of the ring that they name (R465 to R475). -/

namespace Sys2Proof.Machine

open Sys2Proof.Claims

/-! ## One ring's context moves -/

/-- From `s` to `t` the cached context of one ring has become `c`; of the rings, nothing else has changed but packets read ahead. -/
structure HasCtx (r : Nat) (s t : State) (c : RingCtx) : Prop where
  rings  : ∃ k f, t.rings = { s.rings with cache := k, fetched := f }
  others : ∀ k, k ≠ r → cacheEntry t k = cacheEntry s k
  cached : (cacheEntry t r).isSome
  ctx    : ctxOfRing t r = c
  slots  : t.slots = s.slots

section

variable {r : Nat} {s t u : State} {c : RingCtx}

theorem HasCtx.of_rings (hrings : t.rings = s.rings) (hslots : t.slots = s.slots) (hcached : (cacheEntry s r).isSome) :
    HasCtx r s t (ctxOfRing s r) where
  rings := ⟨s.rings.cache, s.rings.fetched, hrings⟩
  others k _ := cacheEntry_eq (by rw [hrings]) k
  cached := by rwa [cacheEntry_eq (s := s) (by rw [hrings])]
  ctx := ctxOfRing_eq (by rw [hrings]) hcached
  slots := hslots

theorem HasCtx.trans {c' : RingCtx} (h : HasCtx r s t c) (k : HasCtx r t u c') : HasCtx r s u c' where
  rings := by
    obtain ⟨x, f, hx⟩ := h.rings
    obtain ⟨y, g, hy⟩ := k.rings
    exact ⟨y, g, by rw [hy, hx]⟩
  others j hj := (k.others j hj).trans (h.others j hj)
  cached := k.cached
  ctx := k.ctx
  slots := k.slots.trans h.slots

/-- What leaves the rings leaves the context. -/
theorem HasCtx.then (h : HasCtx r s t c) (hrings : u.rings = t.rings) (hslots : u.slots = t.slots) : HasCtx r s u c :=
  h.ctx ▸ h.trans (.of_rings hrings hslots h.cached)

theorem HasCtx.modCtx (h : HasCtx r s t c) (f : RingCtx → RingCtx) : HasCtx r s (modCtx t r f) (f c) := by
  refine h.trans ⟨?_, fun k hk => cacheEntry_modCtx_other t f hk, cacheEntry_modCtx f h.cached, ?_, by simp [Machine.modCtx]⟩
  · unfold Machine.modCtx setCtx
    split
    · exact ⟨_, _, rfl⟩
    · exact ⟨t.rings.cache, t.rings.fetched, by simp⟩
  · rw [ctxOfRing_modCtx f h.cached, h.ctx]

theorem HasCtx.setState (h : HasCtx r s t c) (x : RingState) : HasCtx r s (setRingState t r x) { c with state := x } := h.modCtx _

theorem HasCtx.cmds (h : HasCtx r s t c) : t.rings.cmds = s.rings.cmds := by
  obtain ⟨x, f, hx⟩ := h.rings
  rw [hx]

theorem HasCtx.actions (h : HasCtx r s t c) : t.rings.actions = s.rings.actions := by
  obtain ⟨x, f, hx⟩ := h.rings
  rw [hx]

/-! ## Completions of skipped commands (R469, R474) -/

theorem HasCtx.writeCpl (h : HasCtx r s t c) (x : Cpl) : HasCtx r s (writeCpl r x t) { c with cpli := c.cpli + 1 } := by
  unfold Machine.writeCpl
  dsimp only
  refine HasCtx.modCtx (h.then ?_ ?_) _
  · split <;> simp
  · split <;> simp

theorem HasCtx.writeNotify (h : HasCtx r s t c) (i : Nat) : HasCtx r s (writeNotify r i t) c := by
  unfold Machine.writeNotify
  dsimp only
  split
  · exact h
  · exact h.then (by simp) (by simp)

theorem HasCtx.skipGo (n : Nat) (h : HasCtx r s t c) :
    HasCtx r s (skipGo r n t) { c with head := c.head + BitVec.ofNat 32 n, cpli := c.cpli + BitVec.ofNat 32 n } := by
  induction n generalizing t c with
  | zero => simpa [Machine.skipGo] using h
  | succ n ih =>
    have hstep : HasCtx r s (Machine.skipGo r (n + 1) t) { { c with cpli := c.cpli + 1, head := c.head + 1 } with
        head := c.head + 1 + BitVec.ofNat 32 n, cpli := c.cpli + 1 + BitVec.ofNat 32 n } := by
      unfold Machine.skipGo
      dsimp only
      refine ih (c := { c with cpli := c.cpli + 1, head := c.head + 1 }) ?_
      split
      · exact ((h.writeCpl _).writeNotify _).modCtx fun c => { c with head := c.head + 1 }
      · exact (h.writeCpl _).modCtx fun c => { c with head := c.head + 1 }
    have hadd (a : W32) : a + 1 + BitVec.ofNat 32 n = a + BitVec.ofNat 32 (n + 1) := by
      rw [BitVec.add_assoc, BitVec.ofNat_add, BitVec.add_comm 1]
      rfl
    simpa only [hadd] using hstep

theorem HasCtx.skipAll (h : HasCtx r s t c) : HasCtx r s (skipAll r t) (skipped c) := by
  have hread : HasCtx r s { t with rings := { t.rings with fetched := t.rings.fetched.filter (fun f => decide (f.ring ≠ r)) } } c := by
    obtain ⟨x, f, hx⟩ := h.rings
    exact ⟨⟨x, _, by rw [hx]⟩, h.others, h.cached, h.ctx, h.slots⟩
  have hskip := hread.skipGo (c.tail - c.head).toNat
  have hall : c.head + (c.tail - c.head) = c.tail := by
    rw [BitVec.add_comm, BitVec.sub_add_cancel]
  rw [BitVec.ofNat_toNat, BitVec.setWidth_eq, hall] at hskip
  unfold Machine.skipAll
  rw [h.ctx]
  exact hskip

end

/-! ## Doorbells (R471, R472) -/

/-- What a doorbell makes of its ring's context. -/
def rungCtx (s : State) (ring : Nat) (tail : W32) (c : RingCtx) : RingCtx :=
  match c.state with
  | .idle => { c with tail := tail, state := if tail = c.head then .idle else .ready }
  | .halted => if ringStopped s ring then { c with tail := tail } else skipped { c with tail := tail }
  | _ => { c with tail := tail }

theorem ringStopped_congr {s t : State} (hctl : t.ctl = s.ctl) (htwin : t.twin = s.twin) (r : Nat) :
    ringStopped t r = ringStopped s r := by
  unfold ringStopped unitStops
  rw [hctl, htwin]

theorem applyDoorbell_bad {v : ViId} {ring : Nat} {tail : W32} {s : State}
    (h : (ctxOfRing s ring).state = .disabled ∨ ctxSize (ctxOfRing s ring) < (tail - (ctxOfRing s ring).head).toNat
      ∨ 2 ^ 31 ≤ (tail - (ctxOfRing s ring).tail).toNat ∨ underLost s ring = true) :
    applyDoorbell v ring tail s = countEvent 0x61 1 (some v) s := by
  refine if_pos ?_
  simp only [Bool.or_eq_true, decide_eq_true_eq]
  tauto

theorem tolViolations_slots (s : State) : (tolViolations s).slots = s.slots := by
  unfold tolViolations
  split
  · rfl
  · refine foldl_keeps State.slots _ (fun s e => ?_) _ s
    dsimp only
    split <;> simp

theorem applyDoorbell_good (v : ViId) {ring : Nat} {tail : W32} {s : State} (hcached : (cacheEntry s ring).isSome)
    (hstate : (ctxOfRing s ring).state ≠ .disabled) (hsize : (tail - (ctxOfRing s ring).head).toNat ≤ ctxSize (ctxOfRing s ring))
    (horder : (tail - (ctxOfRing s ring).tail).toNat < 2 ^ 31) (hlost : underLost s ring = false) :
    HasCtx ring s (applyDoorbell v ring tail s) (rungCtx s ring tail (ctxOfRing s ring)) := by
  have hboundary (p : Bool) {u : State} {c : RingCtx} (h : HasCtx ring s u c) : HasCtx ring s (if p then nextBoundary u else u) c := by
    cases p
    · exact h
    · exact h.then rfl rfl
  have hmoved : HasCtx ring s (modCtx (traceChoice 1 (some v) ring 0 tail.toNat (countEvent 0x60 1 (some v) s)) ring
      (fun c => { c with tail := tail })) { ctxOfRing s ring with tail := tail } := by
    refine HasCtx.modCtx (c := ctxOfRing s ring) (.of_rings ?_ ?_ hcached) _
    · exact (traceChoice_quiet _ _ _ _ _ _).rings.trans (by simp)
    · exact (traceChoice_aside _ _ _ _ _ _).slots.trans (by simp)
  have hnot : ¬ (decide ((ctxOfRing s ring).state = .disabled) || decide (ctxSize (ctxOfRing s ring) < (tail - (ctxOfRing s ring).head).toNat)
      || decide (2 ^ 31 ≤ (tail - (ctxOfRing s ring).tail).toNat) || underLost s ring) = true := by
    simp only [Bool.or_eq_true, decide_eq_true_eq, hlost]
    rintro (((h | h) | h) | h)
    · exact hstate h
    · omega
    · omega
    · cases h
  unfold applyDoorbell
  dsimp only
  rw [if_neg hnot]
  refine hboundary _ ?_
  unfold rungCtx
  cases hst : (ctxOfRing s ring).state with
  | disabled => exact absurd hst hstate
  | idle =>
    dsimp only
    split
    · rw [← hst]
      exact hmoved
    · exact (hmoved.setState .ready).then (tolViolations_rings _) (tolViolations_slots _)
  | halted =>
    dsimp only
    split
    · rw [← hst]
      exact hmoved
    · rw [← hst]
      exact hmoved.skipAll
  | _ =>
    dsimp only
    rw [← hst]
    exact hmoved

/-! ## The accesses that act (R556, R564, R646) -/

theorem steerWrite_of_steers {port : RegPort} {s : State} {v : ViId} (h : Steers port s v) (body : ViId → State → State) :
    steerWrite port body s = body v (wake s) := by
  obtain ⟨covered, requester, be, rfl⟩ := h.page
  have hfirst : isSecondary (wake s) = false := by
    rw [isSecondary_eq (s := s) (by rw [wake_twin]) (by rw [wake_twin])]
    exact h.first
  unfold steerWrite
  rw [pageWrite_of_reached h.reached]
  exact if_pos (by simp [h.active, hfirst])

theorem viRange_congr {s t : State} (hcfg : t.cfg = s.cfg) (htwin : t.twin = s.twin) (b : Bool) (v : ViId) : viRange t b v = viRange s b v := by
  unfold viRange coverOf cfgVi
  rw [hcfg, htwin]

theorem ringByIndex_wake (s : State) (b : Bool) (v : ViId) (index : Nat) : ringByIndex (wake s) b v index = ringByIndex s b v index := by
  unfold ringByIndex
  rw [viRange_congr (wake_cfg s) (wake_twin s)]

theorem underLost_congr {s t : State} (hctl : t.ctl = s.ctl) (htwin : t.twin = s.twin) (hlive : t.rings.live = s.rings.live) (r : Nat) :
    underLost t r = underLost s r := by
  unfold underLost
  rw [hctl, htwin, hlive]

/-- An action that need not wait is applied (R473). -/
theorem requestAction_atOnce {a : PageAction} {s : State} (hcached : (cacheEntry s a.ring).isSome)
    (hnone : s.rings.actions.any (fun k => decide (k.vi = a.vi)) = false) :
    requestAction a s = applyAction a (countEvent 0x2A 1 (some a.vi) s) := by
  obtain ⟨e, he⟩ := Option.isSome_iff_exists.mp hcached
  unfold requestAction
  rw [he]
  dsimp only
  rw [hnone]
  rfl

theorem requestAction_waits {a : PageAction} {s : State} (hcached : cacheEntry s a.ring = none) :
    (requestAction a s).rings.cache = s.rings.cache ∧ (requestAction a s).rings.actions = s.rings.actions ++ [a]
      ∧ Asked (requestAction a s) a.ring := by
  obtain ⟨hcache, -, -, hactions, -⟩ := startCtxRead_keeps a.ring (countEvent 0x2B 1 (some a.vi) s)
  have hasked := startCtxRead_asked a.ring (countEvent 0x2B 1 (some a.vi) s)
  unfold requestAction
  rw [hcached]
  dsimp only
  refine ⟨hcache.trans (by simp), ?_, hasked⟩
  rw [hactions]
  simp

end Sys2Proof.Machine

open Sys2Proof Sys2Proof.Machine Sys2Proof.Claims

/-- Settles O41, by what a doorbell leaves of its ring once it is applied. -/
theorem doorbellsMoveTheTail : Obligations.DoorbellsMoveTheTail := by
  unfold Obligations.DoorbellsMoveTheTail
  intro port s v x index tail hindex htail hlive
  subst hindex htail
  have hrow (hsteers : Steers port s v) : doorbellRow port x s = doorbell port x v (wake s) := steerWrite_of_steers hsteers _
  have hbell {ring : Nat} (hnames : ringByIndex s (portCovered port) v (field x 17 0) = some ring) :
      doorbell port x v (wake s) = requestAction ⟨v, ring, .doorbell (BitVec.ofNat 32 (field x 63 32))⟩ (wake s) := by
    simp [doorbell, ringByIndex_wake, hnames, hlive]
  refine ⟨fun hsteers hnone => ?_, fun ring c hat hc => ?_, fun ring hsteers hnames huncached => ?_⟩
  · refine command_eq ((hrow hsteers).trans ?_) (by simp) (by simp)
    simp [doorbell, ringByIndex_wake, hnone]
  · subst hc
    have hcached : (cacheEntry (wake s) ring).isSome := by
      rw [cacheEntry_eq (s := s) (by rw [wake_rings])]
      exact hat.cached
    have hdone : doorbellRow port x s
        = applyDoorbell v ring (BitVec.ofNat 32 (field x 63 32)) (countEvent 0x2A 1 (some v) (wake s)) := by
      rw [hrow hat.toSteers, hbell hat.names]
      exact requestAction_atOnce hcached (by rw [wake_rings]; exact hat.noneWaits)
    have hctx : ctxOfRing (countEvent 0x2A 1 (some v) (wake s)) ring = ctxOfRing s ring := ctxOfRing_eq (by simp) hat.cached
    have hlost : underLost (countEvent 0x2A 1 (some v) (wake s)) ring = underLost s ring := underLost_congr (by simp) (by simp) (by simp) ring
    have hcached' : (cacheEntry (countEvent 0x2A 1 (some v) (wake s)) ring).isSome := by
      rw [cacheEntry_eq (s := s) (by simp)]
      exact hat.cached
    constructor
    · intro hbad
      exact command_eq (hdone.trans (applyDoorbell_bad (by rwa [hctx, hlost]))) (by simp) (by simp)
    · intro hstate hsize horder hnlost
      have hgood := applyDoorbell_good v (s := countEvent 0x2A 1 (some v) (wake s)) hcached' (by rwa [hctx]) (by rwa [hctx])
        (by rwa [hctx]) (by rwa [hlost])
      rw [hctx, ← hdone] at hgood
      obtain ⟨t, ht⟩ : ∃ t, doorbellRow port x s = t := ⟨_, rfl⟩
      rw [ht] at hgood
      have hctxOf := (ctxOfRing_eq (s := t) (t := { t with pending := s.pending, cfg := s.cfg }) rfl hgood.cached).trans hgood.ctx
      have hstopped : ringStopped (countEvent 0x2A 1 (some v) (wake s)) ring = ringStopped s ring :=
        ringStopped_congr (by simp) (by simp) ring
      refine ⟨_, command_to ht, hgood.slots.trans (by simp), hgood.cmds.trans (by simp),
        fun r hr => (hgood.others r hr).trans (cacheEntry_eq (by simp) r), fun hidle => ?_, fun hhalted hgoes => ?_, fun hidle hhalted => ?_⟩
      · refine hctxOf.trans ?_
        simp [rungCtx, hidle]
      · refine hctxOf.trans ?_
        simp [rungCtx, hhalted, hstopped, hgoes]
      · refine hctxOf.trans ?_
        unfold rungCtx
        split
        · next h => exact absurd h hidle
        · next h => exact absurd h hhalted
        · rfl
  · have huncached' : cacheEntry (wake s) ring = none := (cacheEntry_eq (by rw [wake_rings]) ring).trans huncached
    obtain ⟨hcache, hactions, hasked⟩ := requestAction_waits (a := ⟨v, ring, .doorbell (BitVec.ofNat 32 (field x 63 32))⟩) huncached'
    rw [← hbell hnames, ← hrow hsteers, wake_rings] at hcache hactions
    rw [← hbell hnames, ← hrow hsteers] at hasked
    exact ⟨_, command_to rfl, hcache, hactions, hasked⟩
end

section
/-! SUPPORT. What each ring action leaves of its ring and of RESULT (R465 to R469, R474). -/

namespace Sys2Proof.Machine

open Sys2Proof.Claims

/-- An action that is applied at once, as it leaves RESULT and the ring. -/
structure Acts (a : PageAction) (s t : State) (result : Nat) (c : RingCtx) : Prop where
  result  : resultOf t a.vi = result
  actions : t.rings.actions = s.rings.actions
  cached  : (cacheEntry t a.ring).isSome
  ctx     : ctxOfRing t a.ring = c

section

variable {a : PageAction} {s t : State} {c : RingCtx}

/-- RESULT takes its value last. -/
theorem Acts.of_setResult (n : Byte) (hactions : t.rings.actions = s.rings.actions) (hcached : (cacheEntry t a.ring).isSome)
    (hctx : ctxOfRing t a.ring = c) : Acts a s (setResult a.vi n t) n.toNat c where
  result := congrArg (fun i => i.ctrlResult.toNat) (viOf_modVi_same t a.vi fun i => { i with ctrlResult := n })
  actions := hactions
  cached := hcached
  ctx := hctx

theorem Acts.of_hasCtx (n : Byte) (h : HasCtx a.ring s t c) : Acts a s (setResult a.vi n t) n.toNat c :=
  .of_setResult n h.actions h.cached h.ctx

theorem Acts.refused (hcached : (cacheEntry s a.ring).isSome) (hrings : t.rings = s.rings) :
    Acts a s (setResult a.vi 2 t) 2 (ctxOfRing s a.ring) :=
  .of_setResult 2 (by rw [hrings]) (by rwa [cacheEntry_eq (s := s) (by rw [hrings])]) (ctxOfRing_eq (by rw [hrings]) hcached)

/-! ## CREATE -/

/-- The context that CREATE makes of an image (R466). -/
def createdCtx (s : State) (v : ViId) (ring : Nat) (image : BitVec 512) : RingCtx :=
  { ctxOf image with
    head := 0, tail := 0, cpli := 0, owner := BitVec.ofNat 16 v.toNat, state := .idle, prog := 0,
    sched := BitVec.ofNat 8 ((ctxOf image).sched.toNat / 4 * 4 + max (ctxClass (ctxOf image)) (viRange s (isCovered ring) v).minClass),
    halt := forcedHalt (ctxOf image).halt }

theorem createRing_leaves (v : ViId) {ring : Nat} (image : BitVec 512) {s : State} (hcached : (cacheEntry s ring).isSome) :
    (cacheEntry (createRing v ring image s) ring).isSome ∧ ctxOfRing (createRing v ring image s) ring = createdCtx s v ring image
      ∧ (createRing v ring image s).rings.actions = s.rings.actions ∧ regsOf (createRing v ring image s) ring = [] := by
  obtain ⟨e, he⟩ := Option.isSome_iff_exists.mp hcached
  have hset : cacheEntry (createRing v ring image s) ring = some { e with ctx := createdCtx s v ring image, dirty := true } := by
    rw [← setCtx_cached (createdCtx s v ring image) he]
    exact cacheEntry_eq (by simp [createRing, createdCtx]) ring
  refine ⟨by rw [hset]; rfl, ctxOfRing_cached hset, ?_, ?_⟩
  · simp only [createRing, devWriteFor_rings]
    exact (modCtx_waiting s ring fun _ => createdCtx s v ring image).1
  · simp only [regsOf, createRing, devWriteFor_rings]
    exact spGet_spErase_same _ _ _

theorem minClass_lt (s : State) (b : Bool) (v : ViId) : (viRange s b v).minClass < 4 := by
  unfold viRange
  split
  · exact field_lt_pow _ 38 37
  · exact (cfgVi s v).minClass.isLt

theorem createdCtx_sched (s : State) (v : ViId) (ring : Nat) (image : BitVec 512) :
    field (createdCtx s v ring image).sched 7 2 = field (ctxOf image).sched 7 2
      ∧ field (createdCtx s v ring image).sched 1 0 = max (ctxClass (ctxOf image)) (viRange s (isCovered ring) v).minClass % 4 := by
  have hclass : max (ctxClass (ctxOf image)) (viRange s (isCovered ring) v).minClass < 4 :=
    max_lt (field_lt_pow _ 1 0) (minClass_lt s _ v)
  have hsched := (ctxOf image).sched.isLt
  simp only [createdCtx, field_digit, BitVec.toNat_ofNat]
  omega

/-! ## The actions -/

theorem readyOrIdle_hasCtx (h : HasCtx a.ring s t c) :
    HasCtx a.ring s (setRingState t a.ring (if (ctxOfRing t a.ring).head = (ctxOfRing t a.ring).tail then .idle else .ready)) (readyIdle c) := by
  rw [h.ctx]
  exact h.setState _

variable (hcached : (cacheEntry s a.ring).isSome)
include hcached

theorem acts_create {image : BitVec 512} (ha : a.action = .create image) (hstate : (ctxOfRing s a.ring).state = .disabled)
    (hgood : imageGood image = true) :
    Acts a s (applyAction a s) 0 (createdCtx s a.vi a.ring image) ∧ regsOf (applyAction a s) a.ring = [] := by
  obtain ⟨hc, hctx, hactions, hregs⟩ := createRing_leaves a.vi image hcached
  have hrow : applyAction a s = setResult a.vi 0 (createRing a.vi a.ring image s) := by
    simp [applyAction, ha, hstate, hgood]
  rw [hrow]
  exact ⟨.of_setResult 0 hactions hc hctx, hregs⟩

theorem acts_create_refused {image : BitVec 512} (ha : a.action = .create image)
    (hbad : (ctxOfRing s a.ring).state ≠ .disabled ∨ imageGood image = false) :
    Acts a s (applyAction a s) 2 (ctxOfRing s a.ring) := by
  have hrow : applyAction a s = setResult a.vi 2 (regIgnored a.vi s) := by
    unfold applyAction
    rw [ha]
    exact if_pos hbad
  rw [hrow]
  exact .refused hcached (by simp [regIgnored])

theorem hasCtx_self : HasCtx a.ring s s (ctxOfRing s a.ring) := .of_rings rfl rfl hcached

theorem acts_resume_paused (ha : a.action = .resume) (hstate : (ctxOfRing s a.ring).state = .paused) (hlost : underLost s a.ring = false) :
    Acts a s (applyAction a s) 0 (readyIdle (ctxOfRing s a.ring)) := by
  have hrow : applyAction a s = setResult a.vi 0 (setRingState s a.ring
      (if (ctxOfRing s a.ring).head = (ctxOfRing s a.ring).tail then .idle else .ready)) := by
    simp [applyAction, ha, hstate, hlost]
  rw [hrow]
  exact .of_hasCtx 0 (readyOrIdle_hasCtx (hasCtx_self hcached))

theorem acts_resume_halted (ha : a.action = .resume) (hstate : (ctxOfRing s a.ring).state = .halted) (hlost : underLost s a.ring = false) :
    Acts a s (applyAction a s) 0 (readyIdle (skipped (ctxOfRing s a.ring))) := by
  have hrow : applyAction a s = setResult a.vi 0 (setRingState (skipAll a.ring s) a.ring
      (if (ctxOfRing (skipAll a.ring s) a.ring).head = (ctxOfRing (skipAll a.ring s) a.ring).tail then .idle else .ready)) := by
    simp [applyAction, ha, hstate, hlost]
  rw [hrow]
  exact .of_hasCtx 0 (readyOrIdle_hasCtx (hasCtx_self hcached).skipAll)

theorem acts_resume_refused (ha : a.action = .resume)
    (hbad : (ctxOfRing s a.ring).state ≠ .paused ∧ (ctxOfRing s a.ring).state ≠ .halted ∨ underLost s a.ring = true) :
    Acts a s (applyAction a s) 2 (ctxOfRing s a.ring) := by
  have hrow : applyAction a s = setResult a.vi 2 s := by
    cases hstate : (ctxOfRing s a.ring).state <;> simp_all [applyAction]
  rw [hrow]
  exact .refused hcached rfl

theorem acts_pause (ha : a.action = .pause)
    (hstate : (ctxOfRing s a.ring).state = .idle ∨ (ctxOfRing s a.ring).state = .ready ∧ choiceStands s a.ring = false) :
    Acts a s (applyAction a s) 0 { ctxOfRing s a.ring with state := .paused } := by
  have hpaused := (hasCtx_self hcached).setState .paused
  rcases hstate with hidle | ⟨hready, hchoice⟩
  · have hrow : applyAction a s = setResult a.vi 0 (setRingState s a.ring .paused) := by simp [applyAction, ha, hidle]
    rw [hrow]
    exact .of_hasCtx 0 hpaused
  · have hrow : applyAction a s = setResult a.vi 0 (dropChoice a.ring (setRingState s a.ring .paused)) := by
      simp [applyAction, ha, hready, hchoice]
    obtain ⟨hcache, -, -, hactions, -⟩ := dropChoice_keeps a.ring (setRingState s a.ring .paused)
    rw [hrow]
    exact .of_setResult 0 (hactions.trans hpaused.actions) (by rw [cacheEntry_eq hcache]; exact hpaused.cached)
      ((ctxOfRing_eq hcache hpaused.cached).trans hpaused.ctx)

theorem acts_pause_later (ha : a.action = .pause)
    (hstate : (ctxOfRing s a.ring).state = .running ∨ (ctxOfRing s a.ring).state = .blocked ∨ (ctxOfRing s a.ring).state = .suspended
      ∨ (ctxOfRing s a.ring).state = .ready ∧ choiceStands s a.ring = true) :
    Acts a s (applyAction a s) 1 (ctxOfRing s a.ring)
      ∧ ringDeferred (applyAction a s) a.ring = some ((ringDeferred s a.ring).getD .pause) := by
  have hrow : applyAction a s = setResult a.vi 1 (if (ringDeferred s a.ring).isSome then s
      else { s with rings := { s.rings with deferred := s.rings.deferred ++ [(a.ring, .pause)] } }) := by
    rcases hstate with h | h | h | ⟨h, hchoice⟩ <;> simp_all [applyAction]
  rw [hrow]
  split
  · next hsome =>
    obtain ⟨d, hd⟩ := Option.isSome_iff_exists.mp hsome
    exact ⟨.of_setResult 1 rfl hcached rfl, by rw [hd]; exact hd⟩
  · next hnone =>
    refine ⟨.of_setResult 1 rfl hcached (ctxOfRing_eq rfl hcached), ?_⟩
    rw [Bool.not_eq_true, Option.isSome_eq_false_iff, Option.isNone_iff_eq_none] at hnone
    rw [hnone]
    have hfind : s.rings.deferred.find? (fun d => decide (d.1 = a.ring)) = none := by
      simpa [ringDeferred] using hnone
    simp [ringDeferred, setResult, modVi, setVi, List.find?_append, hfind]

theorem acts_pause_refused (ha : a.action = .pause)
    (hstate : (ctxOfRing s a.ring).state = .disabled ∨ (ctxOfRing s a.ring).state = .paused ∨ (ctxOfRing s a.ring).state = .halted) :
    Acts a s (applyAction a s) 2 (ctxOfRing s a.ring) := by
  have hrow : applyAction a s = setResult a.vi 2 s := by
    rcases hstate with h | h | h <;> simp [applyAction, ha, h]
  rw [hrow]
  exact .refused hcached rfl

theorem acts_destroy (ha : a.action = .destroy)
    (hstate : (ctxOfRing s a.ring).state = .idle ∨ (ctxOfRing s a.ring).state = .paused ∨ (ctxOfRing s a.ring).state = .halted) :
    Acts a s (applyAction a s) 0 { ctxOfRing s a.ring with state := .disabled } ∧ regsOf (applyAction a s) a.ring = [] := by
  have hrow : applyAction a s = setResult a.vi 0 (disableRing a.ring s) := by
    rcases hstate with h | h | h <;> simp [applyAction, ha, h]
  have hdisabled := (hasCtx_self hcached).setState .disabled
  obtain ⟨-, hactions, -, -, hcache⟩ := disableRing_keeps a.ring s
  rw [hrow]
  refine ⟨.of_setResult 0 hactions (by rw [cacheEntry_eq hcache]; exact hdisabled.cached)
    ((ctxOfRing_eq hcache hdisabled.cached).trans hdisabled.ctx), ?_⟩
  exact spGet_spErase_same _ _ _

theorem acts_destroy_refused (ha : a.action = .destroy) (hidle : (ctxOfRing s a.ring).state ≠ .idle)
    (hpaused : (ctxOfRing s a.ring).state ≠ .paused) (hhalted : (ctxOfRing s a.ring).state ≠ .halted) :
    Acts a s (applyAction a s) 2 (ctxOfRing s a.ring) := by
  have hrow : applyAction a s = setResult a.vi 2 s := by
    cases hstate : (ctxOfRing s a.ring).state <;> simp_all [applyAction]
  rw [hrow]
  exact .refused hcached rfl

end

/-! ## An action through VI_RING_CTRL -/

section

variable {port : RegPort} {s : State} {v : ViId} {index : BitVec 18} {f : ViCfg → RingAction}

/-- The state that an action through VI_RING_CTRL meets, once RING has taken the index. -/
def steered (s : State) (v : ViId) (index : BitVec 18) : State := setCfgVi (wake s) v { cfgVi (wake s) v with ctrlRing := index }

theorem cfgVi_steered (s : State) (v : ViId) (index : BitVec 18) : cfgVi (steered s v index) v = { cfgVi s v with ctrlRing := index } := by
  have hwake : cfgVi (wake s) v = cfgVi s v := cfgVi_congr (by rw [wake_cfg]) v
  rw [steered, cfgVi_setCfgVi_same, hwake]

theorem viRange_steered (s : State) (v : ViId) (index : BitVec 18) (b : Bool) : viRange (steered s v index) b v = viRange s b v := by
  have hcover : coverOf (steered s v index) v = coverOf s v := by
    unfold coverOf steered setCfgVi
    rw [wake_twin]
  unfold viRange
  rw [hcover, cfgVi_steered]

theorem ringByIndex_steered (s : State) (v : ViId) (index : BitVec 18) (b : Bool) (n : Nat) :
    ringByIndex (steered s v index) b v n = ringByIndex s b v n := by
  unfold ringByIndex
  rw [viRange_steered]

theorem actionRow_of_none (hsteers : Steers port s v) (hnone : ringByIndex s (portCovered port) v index.toNat = none) :
    ∃ t, register (actionRow port index f) s = .next t ∧ resultOf t v = 2 ∧ t.rings = s.rings
      ∧ cfgVi t v = { cfgVi s v with ctrlRing := index } := by
  have hrow : actionRow port index f s = ringControl port index f v (wake s) := steerWrite_of_steers hsteers _
  have hrefused : resultOf (setResult v 2 (steered s v index)) v = 2 :=
    congrArg (fun i => i.ctrlResult.toNat) (viOf_modVi_same (steered s v index) v fun i => { i with ctrlResult := 2 })
  have hnone' : ringByIndex (steered s v index) (portCovered port) v index.toNat = none := (ringByIndex_steered s v index _ _).trans hnone
  have hcontrol : ringControl port index f v (wake s) = setResult v 2 (steered s v index)
      ∨ ringControl port index f v (wake s) = regIgnored v (setResult v 2 (steered s v index)) := by
    unfold steered at hnone'
    unfold ringControl
    dsimp only
    rw [hnone']
    dsimp only
    split
    · exact .inr rfl
    · exact .inl rfl
  obtain ⟨t, ht⟩ : ∃ t, actionRow port index f s = t := ⟨_, rfl⟩
  refine ⟨_, register_to ht, ?_⟩
  have hcfg : cfgVi (setResult v 2 (steered s v index)) v = { cfgVi s v with ctrlRing := index } := cfgVi_steered s v index
  have hrings : (setResult v 2 (steered s v index)).rings = s.rings := wake_rings s
  rw [hrow] at ht
  generalize setResult v 2 (steered s v index) = u at hcontrol hrefused hcfg hrings
  rcases hcontrol with h | h <;> rw [h] at ht <;> subst ht
  · exact ⟨hrefused, hrings, hcfg⟩
  · refine ⟨?_, ?_, ?_⟩
    · rw [← hrefused]
      simp [resultOf, viOf, regIgnored]
    · rw [← hrings]
      simp [regIgnored]
    · rw [← hcfg]
      exact cfgVi_congr (by simp [regIgnored]) v

/-- The action and the state that it is applied to. -/
def steeredAction (s : State) (v : ViId) (index : BitVec 18) (f : ViCfg → RingAction) (ring : Nat) : PageAction :=
  ⟨v, ring, f { cfgVi s v with ctrlRing := index }⟩

def actionState (s : State) (v : ViId) (index : BitVec 18) : State := countEvent 0x2A 1 (some v) (steered s v index)

theorem actionState_rings (s : State) (v : ViId) (index : BitVec 18) : (actionState s v index).rings = s.rings := by
  simp [actionState, steered, setCfgVi]

theorem actionState_underLost (s : State) (v : ViId) (index : BitVec 18) (r : Nat) : underLost (actionState s v index) r = underLost s r :=
  underLost_congr (by simp [actionState, steered, setCfgVi]) (by simp [actionState, steered, setCfgVi])
    (by rw [actionState_rings]) r

theorem actionState_choiceStands (s : State) (v : ViId) (index : BitVec 18) (r : Nat) :
    choiceStands (actionState s v index) r = choiceStands s r := by
  unfold choiceStands
  rw [actionState_rings]

theorem actionState_viRange (s : State) (v : ViId) (index : BitVec 18) (b : Bool) : viRange (actionState s v index) b v = viRange s b v := by
  rw [← viRange_steered s v index]
  exact viRange_congr (by simp [actionState]) (by simp [actionState]) b v

/-- R473: an action at once is what `applyAction` leaves. -/
theorem actionRow_atOnce {ring result : Nat} {c : RingCtx} (hat : AtOnce port s v index.toNat ring) {t : State}
    (ht : applyAction (steeredAction s v index f ring) (actionState s v index) = t)
    (hacts : Acts (steeredAction s v index f ring) (actionState s v index) t result c) :
    register (actionRow port index f) s = .next { t with pending := s.pending } ∧ resultOf t v = result ∧ ctxOfRing t ring = c := by
  refine ⟨register_to ?_, hacts.result, hacts.ctx⟩
  have hrow : actionRow port index f s = ringControl port index f v (wake s) := steerWrite_of_steers hat.toSteers _
  have hrings : (steered s v index).rings = s.rings := wake_rings s
  have hnames : ringByIndex (steered s v index) (portCovered port) v index.toNat = some ring :=
    (ringByIndex_steered s v index _ _).trans hat.names
  have haction : (⟨v, ring, f (cfgVi (steered s v index) v)⟩ : PageAction) = steeredAction s v index f ring := by
    rw [cfgVi_steered]
    rfl
  have hrequest : requestAction (steeredAction s v index f ring) (steered s v index) = t := by
    rw [← ht]
    refine requestAction_atOnce ?_ ?_
    · rw [cacheEntry_eq (s := s) (by rw [hrings])]
      exact hat.cached
    · rw [hrings]
      exact hat.noneWaits
  have hcontains : t.rings.actions.contains (steeredAction s v index f ring) = false := by
    rw [hacts.actions, actionState_rings]
    refine Bool.eq_false_iff.mpr fun hmem => ?_
    have hnone := List.any_eq_false.mp hat.noneWaits _ (List.contains_iff_mem.mp hmem)
    exact hnone (decide_eq_true rfl)
  rw [hrow]
  have hcontrol : ringControl port index f v (wake s)
      = if t.rings.actions.contains (steeredAction s v index f ring) then setResult v 1 t else t := by
    rw [← hrequest, ← haction]
    unfold steered at hnames ⊢
    unfold ringControl
    dsimp only
    rw [hnames]
  rw [hcontrol, hcontains]
  rfl

end

end Sys2Proof.Machine

open Sys2Proof Sys2Proof.Machine Sys2Proof.Claims

/-- Settles O42: an action that need not wait is what it does to its ring, case by case of the ring's state. -/
theorem ringActionsMoveTheRing : Obligations.RingActionsMoveTheRing := by
  unfold Obligations.RingActionsMoveTheRing
  intro port s v index
  refine ⟨fun a ha hsteers hnone => ?_, fun ring c hat hc => ?_⟩
  · simp only [List.mem_cons, List.not_mem_nil, or_false] at ha
    rcases ha with rfl | rfl | rfl | rfl <;> exact actionRow_of_none hsteers hnone
  · have hcached : (cacheEntry (actionState s v index) ring).isSome := by
      rw [cacheEntry_eq (s := s) (by rw [actionState_rings])]
      exact hat.cached
    have hctx : ctxOfRing (actionState s v index) ring = c :=
      (ctxOfRing_eq (by rw [actionState_rings]) hat.cached).trans hc.symm
    have hlost := actionState_underLost s v index ring
    have hchoice := actionState_choiceStands s v index ring
    have hdeferred : ringDeferred (actionState s v index) ring = ringDeferred s ring := by
      rw [ringDeferred, actionState_rings]
      rfl
    clear hc
    subst hctx
    refine ⟨fun hstate hgood => ?_, fun hbad => ?_, fun hstate hnlost => ?_, fun hstate hnlost => ?_, fun hbad => ?_, fun hstate => ?_,
      fun hstate => ?_, fun hstate => ?_, fun hstate => ?_, fun hidle hpaused hhalted => ?_⟩
    · obtain ⟨hacts, hregs⟩ := acts_create (a := steeredAction s v index (fun c => .create c.ringCfg) ring) hcached rfl hstate hgood
      obtain ⟨hrow, hresult, hctx⟩ := actionRow_atOnce hat rfl hacts
      have hsched := createdCtx_sched (actionState s v index) v ring (cfgVi s v).ringCfg
      rw [actionState_viRange] at hsched
      exact ⟨_, hrow, hresult, hregs, _, hsched.1, hsched.2, hctx⟩
    · obtain ⟨hrow, hresult, hctx⟩ := actionRow_atOnce hat rfl
        (acts_create_refused (a := steeredAction s v index (fun c => .create c.ringCfg) ring) hcached rfl hbad)
      exact ⟨_, hrow, hresult, hctx⟩
    · obtain ⟨hrow, hresult, hctx⟩ := actionRow_atOnce hat rfl
        (acts_resume_paused (a := steeredAction s v index (fun _ => .resume) ring) hcached rfl hstate (hlost.trans hnlost))
      exact ⟨_, hrow, hresult, hctx⟩
    · obtain ⟨hrow, hresult, hctx⟩ := actionRow_atOnce hat rfl
        (acts_resume_halted (a := steeredAction s v index (fun _ => .resume) ring) hcached rfl hstate (hlost.trans hnlost))
      exact ⟨_, hrow, hresult, hctx⟩
    · obtain ⟨hrow, hresult, hctx⟩ := actionRow_atOnce hat rfl
        (acts_resume_refused (a := steeredAction s v index (fun _ => .resume) ring) hcached rfl (hbad.imp_right hlost.trans))
      exact ⟨_, hrow, hresult, hctx⟩
    · obtain ⟨hrow, hresult, hctx⟩ := actionRow_atOnce hat rfl
        (acts_pause (a := steeredAction s v index (fun _ => .pause) ring) hcached rfl (hstate.imp_right (And.imp_right hchoice.trans)))
      exact ⟨_, hrow, hresult, hctx⟩
    · obtain ⟨hacts, hlater⟩ := acts_pause_later (a := steeredAction s v index (fun _ => .pause) ring) hcached rfl
        (hstate.imp_right (Or.imp_right (Or.imp_right (And.imp_right hchoice.trans))))
      obtain ⟨hrow, hresult, hctx⟩ := actionRow_atOnce hat rfl hacts
      exact ⟨_, hrow, hctx, hresult, by rw [← hdeferred]; exact hlater⟩
    · obtain ⟨hrow, hresult, hctx⟩ := actionRow_atOnce hat rfl
        (acts_pause_refused (a := steeredAction s v index (fun _ => .pause) ring) hcached rfl hstate)
      exact ⟨_, hrow, hresult, hctx⟩
    · obtain ⟨hacts, hregs⟩ := acts_destroy (a := steeredAction s v index (fun _ => .destroy) ring) hcached rfl hstate
      obtain ⟨hrow, hresult, hctx⟩ := actionRow_atOnce hat rfl hacts
      exact ⟨_, hrow, hresult, hctx, hregs⟩
    · obtain ⟨hrow, hresult, hctx⟩ := actionRow_atOnce hat rfl
        (acts_destroy_refused (a := steeredAction s v index (fun _ => .destroy) ring) hcached rfl hidle hpaused hhalted)
      exact ⟨_, hrow, hresult, hctx⟩
end

section
/-! SUPPORT. The ring that arbitration chooses (R478, R479), and what the returns of the command processor's reads leave (R475, R477,
R548). -/

namespace Sys2Proof.Machine

open Sys2Proof.Claims

/-! ## The least of a list, as arbitration folds it -/

section

variable {α : Type}

/-- The least of what a list's entries are valued at, as arbitration finds it. -/
def leastOf (k : α → Nat) (l : List α) : Option Nat :=
  l.foldl (fun a r => match a with
    | none => some (k r)
    | some x => some (min x (k r))) none

theorem leastOf_cases (k : α → Nat) (l : List α) :
    l = [] ∧ leastOf k l = none ∨ ∃ m, leastOf k l = some m ∧ (∀ e ∈ l, m ≤ k e) ∧ ∃ e ∈ l, k e = m := by
  have hfold : ∀ (l : List α) (x : Nat), ∃ m, l.foldl (fun a r => match a with
      | none => some (k r)
      | some x => some (min x (k r))) (some x) = some m ∧ m ≤ x ∧ (∀ e ∈ l, m ≤ k e) ∧ (m = x ∨ ∃ e ∈ l, k e = m) := by
    intro l
    induction l with
    | nil => exact fun x => ⟨x, rfl, le_rfl, by simp, .inl rfl⟩
    | cons a rest ih =>
      intro x
      obtain ⟨m, hm, hle, hall, hmem⟩ := ih (min x (k a))
      refine ⟨m, hm, hle.trans (min_le_left _ _), fun e he => ?_, ?_⟩
      · rcases List.mem_cons.mp he with rfl | he
        · exact hle.trans (min_le_right _ _)
        · exact hall e he
      · rcases hmem with rfl | ⟨e, he, hke⟩
        · rcases min_choice x (k a) with hx | ha
          · exact .inl hx
          · exact .inr ⟨a, by simp, ha.symm⟩
        · exact .inr ⟨e, by simp [he], hke⟩
  cases l with
  | nil => exact .inl ⟨rfl, rfl⟩
  | cons a rest =>
    obtain ⟨m, hm, hle, hall, hmem⟩ := hfold rest (k a)
    refine .inr ⟨m, hm, fun e he => ?_, ?_⟩
    · rcases List.mem_cons.mp he with rfl | he
      · exact hle
      · exact hall e he
    · rcases hmem with rfl | ⟨e, he, hke⟩
      · exact ⟨a, by simp, rfl⟩
      · exact ⟨e, by simp [he], hke⟩

end

theorem cyclicNext_eq (last : Nat) (rings : List Nat) :
    cyclicNext last rings = (leastOf id (rings.filter (fun r => decide (last < r)))).or (leastOf id rings) := by
  have hrow : cyclicNext last rings = match leastOf id (rings.filter (fun r => decide (last < r))) with
      | some r => some r
      | none => leastOf id rings := rfl
  rw [hrow]
  cases leastOf id (rings.filter (fun r => decide (last < r))) <;> rfl

/-- The next ring after the last is above it, or the lowest of rings none of which is. -/
theorem cyclicNext_cases (last : Nat) {rings : List Nat} (hne : rings ≠ []) : ∃ m ∈ rings, cyclicNext last rings = some m
    ∧ (last < m ∨ (∀ r ∈ rings, r ≤ last) ∧ ∀ r ∈ rings, m ≤ r) := by
  rw [cyclicNext_eq]
  rcases leastOf_cases id (rings.filter (fun r => decide (last < r))) with ⟨hempty, hnone⟩ | ⟨m, hm, -, e, he, rfl⟩
  · rcases leastOf_cases id rings with ⟨hnil, -⟩ | ⟨m, hm, hall, e, he, rfl⟩
    · exact absurd hnil hne
    · refine ⟨e, he, by rw [hnone, hm]; rfl, .inr ⟨fun r hr => ?_, hall⟩⟩
      by_contra hlt
      have hin : r ∈ rings.filter (fun r => decide (last < r)) := List.mem_filter.mpr ⟨hr, decide_eq_true (not_le.mp hlt)⟩
      rw [hempty] at hin
      cases hin
  · obtain ⟨hmem, hlt⟩ := List.mem_filter.mp he
    exact ⟨e, hmem, by rw [hm]; rfl, .inl (of_decide_eq_true hlt)⟩

/-! ## The choice -/

/-- Of the rings of one class, the turn's ring or the next in cyclic order. -/
def choiceAmong (s : State) (cls : Nat) (same : List CtxEntry) : Option Nat :=
  match turnHolds s cls same with
  | some r => some r
  | none =>
    match spFind s.rings.lastHolder cls with
    | some last => cyclicNext last (same.map (fun e => e.ring))
    | none => leastOf id (same.map (fun e => e.ring))

def classMates (s : State) (cls : Nat) : List CtxEntry := (eligibleRings s).filter (fun e => decide (ctxClass e.ctx = cls))

theorem chooseRing_eq (s : State) : chooseRing s = match leastOf (fun e : CtxEntry => ctxClass e.ctx) (eligibleRings s) with
    | none => none
    | some cls => choiceAmong s cls (classMates s cls) := rfl

/-- R478: the choice is among the eligible rings of the lowest class. -/
theorem chooseRing_of_lowest {s : State} {e : CtxEntry} (he : e ∈ eligibleRings s)
    (hlow : ∀ f ∈ eligibleRings s, ctxClass e.ctx ≤ ctxClass f.ctx) :
    chooseRing s = choiceAmong s (ctxClass e.ctx) (classMates s (ctxClass e.ctx)) := by
  rw [chooseRing_eq]
  rcases leastOf_cases (fun e : CtxEntry => ctxClass e.ctx) (eligibleRings s) with ⟨hnil, -⟩ | ⟨m, hm, hall, f, hf, rfl⟩
  · rw [hnil] at he
    cases he
  · rw [hm, le_antisymm (hall e he) (hlow f hf)]

theorem choiceAmong_mem {s : State} {cls r : Nat} {same : List CtxEntry} (h : choiceAmong s cls same = some r) :
    ∃ e ∈ same, e.ring = r := by
  have hturn : turnHolds s cls same = some r → ∃ e ∈ same, e.ring = r := by
    intro ht
    unfold turnHolds at ht
    split at ht
    · cases ht
    · next t _ =>
      split at ht
      · cases ht
      · next e hfind =>
        dsimp only at ht
        split at ht
        · obtain rfl : t.ring = r := by simpa using ht
          exact ⟨e, List.mem_of_find?_eq_some hfind, by simpa using List.find?_some hfind⟩
        · cases ht
  have hrings (hmem : r ∈ same.map (fun e => e.ring)) : ∃ e ∈ same, e.ring = r := List.mem_map.mp hmem
  unfold choiceAmong at h
  split at h
  · next ht =>
    rw [h] at ht
    exact hturn ht
  · split at h
    · next last _ =>
      by_cases hne : same.map (fun e => e.ring) = []
      · rw [hne] at h
        cases h
      · obtain ⟨m, hm, hnext, -⟩ := cyclicNext_cases last hne
        rw [hnext] at h
        cases h
        exact hrings hm
    · rcases leastOf_cases id (same.map (fun e => e.ring)) with ⟨-, hnone⟩ | ⟨m, hm, -, x, hx, rfl⟩
      · rw [hnone] at h
        cases h
      · rw [hm] at h
        cases h
        exact hrings hx

theorem chooseRing_lowest {s : State} {r : Nat} (h : chooseRing s = some r) :
    ∃ e ∈ eligibleRings s, e.ring = r ∧ ∀ f ∈ eligibleRings s, ctxClass e.ctx ≤ ctxClass f.ctx := by
  rw [chooseRing_eq] at h
  rcases leastOf_cases (fun e : CtxEntry => ctxClass e.ctx) (eligibleRings s) with ⟨-, hnone⟩ | ⟨m, hm, hall, -⟩
  · rw [hnone] at h
    cases h
  · rw [hm] at h
    obtain ⟨e, he, hring⟩ := choiceAmong_mem h
    obtain ⟨hmem, hcls⟩ := List.mem_filter.mp he
    exact ⟨e, hmem, hring, fun f hf => (of_decide_eq_true hcls).trans_le (hall f hf)⟩

theorem choiceAmong_isSome (s : State) (cls : Nat) {same : List CtxEntry} (hne : same ≠ []) : ∃ r, choiceAmong s cls same = some r := by
  have hrings : same.map (fun e => e.ring) ≠ [] := by simpa using hne
  unfold choiceAmong
  split
  · exact ⟨_, rfl⟩
  · split
    · next last _ =>
      obtain ⟨m, -, hnext, -⟩ := cyclicNext_cases last hrings
      exact ⟨m, hnext⟩
    · rcases leastOf_cases id (same.map (fun e => e.ring)) with ⟨hnil, -⟩ | ⟨m, hm, -⟩
      · exact absurd hnil hrings
      · exact ⟨m, hm⟩

/-! ## A turn whose quantum has passed (R479) -/

theorem mem_classMates {s : State} {cls : Nat} {e : CtxEntry} (he : e ∈ eligibleRings s) (hcls : ctxClass e.ctx = cls) :
    e ∈ classMates s cls := List.mem_filter.mpr ⟨he, decide_eq_true hcls⟩

/-- With no other ring of its class a ring is chosen again. -/
theorem chooseRing_alone {s : State} {e : CtxEntry} (he : e ∈ eligibleRings s)
    (halone : ∀ f ∈ eligibleRings s, f ≠ e → ctxClass e.ctx < ctxClass f.ctx) : chooseRing s = some e.ring := by
  have hlow : ∀ f ∈ eligibleRings s, ctxClass e.ctx ≤ ctxClass f.ctx := fun f hf => by
    by_cases hfe : f = e
    · rw [hfe]
    · exact (halone f hf hfe).le
  rw [chooseRing_of_lowest he hlow]
  obtain ⟨r, hr⟩ := choiceAmong_isSome s (ctxClass e.ctx) (List.ne_nil_of_mem (mem_classMates he rfl))
  obtain ⟨f, hf, rfl⟩ := choiceAmong_mem hr
  obtain ⟨hmem, hcls⟩ := List.mem_filter.mp hf
  have hfe : f = e := by
    by_contra hne
    exact (halone f hmem hne).ne' (of_decide_eq_true hcls)
  rw [hr, hfe]

theorem one_lt_length {α : Type} {l : List α} {a b : α} (ha : a ∈ l) (hb : b ∈ l) (hne : a ≠ b) : 1 < l.length := by
  rcases l with _ | ⟨x, _ | ⟨y, rest⟩⟩
  · cases ha
  · exact absurd ((List.mem_singleton.mp ha).trans (List.mem_singleton.mp hb).symm) hne
  · simp

/-- Against another ring of its class its turn ends. -/
theorem chooseRing_against {s : State} {t0 : Turn} {e : CtxEntry} (hturn : s.rings.turn = some t0) (hexpired : t0.expired = true)
    (he : e ∈ eligibleRings s) (hring : e.ring = t0.ring) (hlow : ∀ f ∈ eligibleRings s, ctxClass e.ctx ≤ ctxClass f.ctx)
    (hlast : spFind s.rings.lastHolder (ctxClass e.ctx) = some t0.ring) {f : CtxEntry} (hf : f ∈ eligibleRings s)
    (hother : f.ring ≠ t0.ring) (hcls : ctxClass f.ctx = ctxClass e.ctx) : chooseRing s ≠ some t0.ring := by
  have hlen : 1 < (classMates s (ctxClass e.ctx)).length :=
    one_lt_length (mem_classMates he rfl) (mem_classMates hf hcls) fun h => hother (by rw [← h, hring])
  have hnone : turnHolds s (ctxClass e.ctx) (classMates s (ctxClass e.ctx)) = none := by
    unfold turnHolds
    rw [hturn]
    dsimp only
    split
    · rfl
    · simp [hexpired, hlen]
  rw [chooseRing_of_lowest he hlow]
  unfold choiceAmong
  rw [hnone, hlast]
  dsimp only
  have hfm : f.ring ∈ (classMates s (ctxClass e.ctx)).map (fun e => e.ring) := List.mem_map_of_mem (mem_classMates hf hcls)
  obtain ⟨m, hm, hnext, hcases⟩ := cyclicNext_cases t0.ring (List.ne_nil_of_mem hfm)
  rw [hnext]
  rintro ⟨⟩
  rcases hcases with hlt | ⟨hle, hall⟩
  · exact lt_irrefl _ hlt
  · exact hother (le_antisymm (hle _ hfm) (hall _ hfm))

/-! ## Returns of context reads (R475, R548) -/

theorem makeRoom_of_room {s : State} (h : s.rings.cache.length < Config.ctxEntries) : makeRoom s = s := if_pos h

theorem processActions_of_none {s : State} (h : s.rings.actions = []) : processActions s = s := by
  unfold processActions
  rw [h]
  unfold runActions
  rw [← h]

/-- A context as it enters the cache. -/
def entered (e : CtxEntry) (s : State) : State := { s with rings := { s.rings with cache := e :: s.rings.cache } }

theorem cacheEntry_entered (e : CtxEntry) (s : State) : cacheEntry (entered e s) e.ring = some e := by
  simp [cacheEntry, entered]

theorem loadCtx_of_idle {s : State} {ring : Nat} (hroom : s.rings.cache.length < Config.ctxEntries)
    (hwork : (memCtx s ring).state.carriesWork = false) : loadCtx ring s = entered ⟨ring, memCtx s ring, false⟩ s := by
  have hsuspended : (memCtx s ring).state ≠ .suspended := fun h => by
    rw [h] at hwork
    cases hwork
  unfold loadCtx
  rw [makeRoom_of_room hroom]
  simp [hwork, hsuspended, entered]

/-- A context read whose place is free, with nothing else waiting. -/
def readDone (ring : Nat) (s : State) : State :=
  { s with rings := { s.rings with reads := s.rings.reads.filter (fun r => decide (r ≠ ring)) } }

theorem promoteReads_of_none {s : State} (h : s.rings.wanted = []) : promoteReads s = s := by
  unfold promoteReads
  rw [h]
  simp only [List.take_nil, List.append_nil, List.drop_nil]
  rw [← h]

theorem memCtx_congr {s t : State} (hdev : t.dev = s.dev) (hcfg : t.cfg = s.cfg) (r : Nat) : memCtx t r = memCtx s r := by
  simp [memCtx, ctxAddr, readNat, readBytes, readByte, getMem, hdev, hcfg]

section

variable {s : State} {ring : Nat} (hread : s.rings.reads.contains ring = true) (hwanted : s.rings.wanted = [])
  (hactions : s.rings.actions = []) (hroom : s.rings.cache.length < Config.ctxEntries)
include hread hwanted hactions hroom

theorem contextReturn_loads (hpoison : sectorPoison s .device (ctxAddr s ring) = false)
    (hwork : (memCtx s ring).state.carriesWork = false) :
    contextReturn ring s = entered ⟨ring, memCtx s ring, false⟩ (countEvent 0x23 1 (some (ctxOwner (memCtx s ring))) (readDone ring s)) := by
  have hctx : memCtx (countEvent 0x23 1 (some (ctxOwner (memCtx s ring))) (readDone ring s)) ring = memCtx s ring :=
    memCtx_congr (by simp [readDone]) (by simp [readDone]) ring
  have hload := loadCtx_of_idle (s := countEvent 0x23 1 (some (ctxOwner (memCtx s ring))) (readDone ring s)) (ring := ring)
    (by simpa [readDone] using hroom) (by rwa [hctx])
  rw [hctx] at hload
  have hpromote : promoteReads (readDone ring s) = readDone ring s := promoteReads_of_none hwanted
  rw [readDone] at hpromote
  unfold contextReturn
  dsimp only
  rw [if_pos hread, hpromote, hactions, hpoison]
  exact (congrArg processActions hload).trans (processActions_of_none (by simpa [entered, readDone] using hactions))

/-- R548: a poisoned context leaves its ring DISABLED. -/
theorem contextReturn_poisoned (hpoison : sectorPoison s .device (ctxAddr s ring) = true) :
    ∃ u, Notes (readDone ring s) u ∧ OutEvent.mgtIrq 1 ∈ u.out
      ∧ contextReturn ring s = entered ⟨ring, { memCtx s ring with state := .disabled }, false⟩ u := by
  have hpromote : promoteReads (readDone ring s) = readDone ring s := promoteReads_of_none hwanted
  obtain ⟨u, hu⟩ : ∃ u, countEvent 0x25 1 (some (ctxOwner (memCtx s ring)))
    (logError ⟨clContained, 13, ckBoundary, 0, some (ring, 0, ctxOwner (memCtx s ring))⟩
      (countEvent 0x23 1 (some (ctxOwner (memCtx s ring))) (readDone ring s))).2 = u := ⟨_, rfl⟩
  have hnotes : Notes (readDone ring s) u := by
    rw [← hu]
    exact ((countEvent_notes _ _ _ _).trans (logError_notes _ _)).trans (countEvent_notes _ _ _ _)
  refine ⟨u, hnotes, ?_, ?_⟩
  · rw [← hu, countEvent_out]
    exact logError_irq _ _
  · have hroom' : u.rings.cache.length < Config.ctxEntries := by
      rw [hnotes.keeps fun u => u.rings]
      exact hroom
    have hnone : u.rings.actions = [] := by
      rw [hnotes.keeps fun u => u.rings]
      exact hactions
    have hctx : memCtx u ring = memCtx s ring := memCtx_congr (hnotes.keeps fun u => u.dev) (hnotes.keeps fun u => u.cfg) ring
    rw [readDone] at hpromote hu
    unfold contextReturn
    dsimp only
    rw [if_pos hread, hpromote, hactions, List.find?_nil, if_pos hpoison]
    dsimp only
    rw [hu, makeRoom_of_room hroom', hctx]
    exact processActions_of_none hnone

/-- So does a read that the memory answers with an error. -/
theorem contextRefused_leaves :
    ∃ u, Notes (readDone ring s) u ∧ OutEvent.mgtIrq 1 ∈ u.out
      ∧ contextRefused ring s = entered ⟨ring, { memCtx s ring with state := .disabled }, false⟩ u := by
  have hpromote : promoteReads (readDone ring s) = readDone ring s := promoteReads_of_none hwanted
  obtain ⟨u, hu⟩ : ∃ u, (logError ⟨clChip, 13, ckBoundary, 0, some (ring, 0, ctxOwner (memCtx s ring))⟩ (readDone ring s)).2 = u :=
    ⟨_, rfl⟩
  have hnotes : Notes (readDone ring s) u := by
    rw [← hu]
    exact logError_notes _ _
  refine ⟨u, hnotes, ?_, ?_⟩
  · rw [← hu]
    exact logError_irq _ _
  · have hroom' : u.rings.cache.length < Config.ctxEntries := by
      rw [hnotes.keeps fun u => u.rings]
      exact hroom
    have hnone : u.rings.actions = [] := by
      rw [hnotes.keeps fun u => u.rings]
      exact hactions
    have hctx : memCtx u ring = memCtx s ring := memCtx_congr (hnotes.keeps fun u => u.dev) (hnotes.keeps fun u => u.cfg) ring
    rw [readDone] at hpromote hu
    unfold contextRefused
    dsimp only
    rw [if_pos hread, hpromote, hu, makeRoom_of_room hroom', hctx]
    exact processActions_of_none hnone

end

/-! ## Returns of packets and tumbler words (R477, R163) -/

/-- The packets that a read for a ring holds: up to 8 from HEAD, never past TAIL. -/
def packetsFrom (s : State) (ring : Nat) (c : RingCtx) (failed : Bool) : List Fetched :=
  (List.range (min 8 (c.tail - c.head).toNat)).map fun k =>
    ⟨ring, c.head + BitVec.ofNat 32 k,
      BitVec.ofNat 512 (readNat s .device (packetAddr c (c.head + BitVec.ofNat 32 k).toNat) 64),
      sectorPoison s .device (packetAddr c (c.head + BitVec.ofNat 32 k).toNat), failed⟩

theorem commandFetchReturn_leaves {s : State} {ring : Nat} (hfetch : s.rings.fetches.contains ring = true)
    (hcached : (cacheEntry s ring).isSome) (hready : (ctxOfRing s ring).state = .ready) (failed : Bool) :
    (commandFetchReturn ring failed s).rings.fetches = s.rings.fetches.filter (fun r => decide (r ≠ ring))
      ∧ (commandFetchReturn ring failed s).rings.fetched
        = s.rings.fetched.filter (fun f => decide (f.ring ≠ ring)) ++ packetsFrom s ring (ctxOfRing s ring) failed := by
  obtain ⟨e, he⟩ := Option.isSome_iff_exists.mp hcached
  rw [ctxOfRing_cached he] at hready ⊢
  unfold commandFetchReturn
  rw [if_pos hfetch, he]
  dsimp only
  rw [if_neg (not_not.mpr hready)]
  exact ⟨by simp, by simp [packetsFrom]⟩

theorem mem_fetched_iff {s t : State} {ring : Nat} {c : RingCtx} {failed : Bool}
    (h : t.rings.fetched = s.rings.fetched.filter (fun f => decide (f.ring ≠ ring)) ++ packetsFrom s ring c failed) {f : Fetched}
    (hf : f.ring = ring) : f ∈ t.rings.fetched ↔ f ∈ packetsFrom s ring c failed := by
  rw [h, List.mem_append, List.mem_filter]
  simp [hf]

theorem not_mem_filter_ne {α : Type} [DecidableEq α] (l : List α) (x : α) : x ∉ l.filter (fun y => decide (y ≠ x)) := by
  simp [List.mem_filter]

/-- The tumbler cache after a word has been read. -/
def wordRead (v : ViId) (a : W64) (failed : Bool) (s : State) : State :=
  let u := countEvent 0x23 1 (some v)
    { s with rings := { s.rings with tumblerReads := s.rings.tumblerReads.filter (fun x => decide (x ≠ (v, a))) } }
  if sectorPoison s .device a.toNat || failed then u else tumblerFill v a (BitVec.ofNat 512 (readNat s .device a.toNat 64)) u

/-- What the chosen command takes of the word leaves the cache. -/
theorem tumblerReturn_eq {s : State} {v : ViId} {a : W64} (hread : s.rings.tumblerReads.contains (v, a) = true) (failed : Bool) :
    ∃ ch, tumblerReturn v a failed s = { wordRead v a failed s with rings := { (wordRead v a failed s).rings with chosen := ch } } := by
  have hkept (u : State) : ∃ ch, u = { u with rings := { u.rings with chosen := ch } } := ⟨u.rings.chosen, rfl⟩
  obtain ⟨u, hu⟩ : ∃ u, wordRead v a failed s = u := ⟨_, rfl⟩
  rw [hu]
  unfold wordRead at hu
  dsimp only at hu
  unfold tumblerReturn
  dsimp only
  rw [if_pos hread, hu]
  split
  · split
    · split
      · exact ⟨_, rfl⟩
      · exact hkept u
    · exact hkept u
  · exact hkept u

theorem tumblerHit_fill (v : ViId) (a : W64) (w : BitVec 512) (s : State) : tumblerHit (tumblerFill v a w s) v a = some w := by
  simp [tumblerHit, tumblerFill]

theorem tumblerFill_reads (v : ViId) (a : W64) (w : BitVec 512) (s : State) :
    (tumblerFill v a w s).rings.tumblerReads = s.rings.tumblerReads := rfl

theorem tumblerReturn_leaves {s : State} {v : ViId} {a : W64} (hread : s.rings.tumblerReads.contains (v, a) = true) (failed : Bool) :
    (tumblerReturn v a failed s).rings.tumblerReads = s.rings.tumblerReads.filter (fun x => decide (x ≠ (v, a)))
      ∧ tumblerHit (tumblerReturn v a failed s) v a
        = if sectorPoison s .device a.toNat = false ∧ failed = false then some (BitVec.ofNat 512 (readNat s .device a.toNat 64))
          else tumblerHit s v a := by
  obtain ⟨ch, hch⟩ := tumblerReturn_eq hread failed
  have hword : (wordRead v a failed s).rings.tumblerReads = s.rings.tumblerReads.filter (fun x => decide (x ≠ (v, a)))
      ∧ tumblerHit (wordRead v a failed s) v a
        = if sectorPoison s .device a.toNat = false ∧ failed = false then some (BitVec.ofNat 512 (readNat s .device a.toNat 64))
          else tumblerHit s v a := by
    unfold wordRead
    dsimp only
    by_cases hkept : sectorPoison s .device a.toNat = false ∧ failed = false
    · rw [if_pos hkept, hkept.1, hkept.2]
      exact ⟨(tumblerFill_reads _ _ _ _).trans (by simp), tumblerHit_fill _ _ _ _⟩
    · have hor : (sectorPoison s .device a.toNat || failed) = true := by
        revert hkept
        cases sectorPoison s .device a.toNat <;> cases failed <;> simp
      rw [if_neg hkept, if_pos hor]
      exact ⟨by simp, by simp [tumblerHit]⟩
  rw [hch]
  exact hword

end Sys2Proof.Machine

open Sys2Proof Sys2Proof.Machine Sys2Proof.Claims

/-- Settles O58, return by return; the turn's end is the choice in cyclic order after its own ring. -/
theorem readsReturn : Obligations.ReadsReturn := by
  unfold Obligations.ReadsReturn
  intro s ring v a error
  refine ⟨fun hnone => ?_, fun t0 hturn hholder => ?_, fun t0 hturn hholder => ?_, fun t0 e hturn hexpired he hring _ => ?_, fun hnone => ?_,
    fun hread hwanted hactions hroom => ⟨fun hpoison hwork => ?_, fun hbad => ?_⟩, fun hnone => ?_, fun hfetch hcached hready herror => ?_,
    fun hnone => ?_, fun hread herror => ?_⟩
  · exact command_eq (by rw [quantumRow, hnone]) rfl rfl
  · exact command_eq (by rw [quantumRow, hturn]; exact if_neg hholder) rfl rfl
  · exact command_eq (by rw [quantumRow, hturn]; exact if_pos hholder) rfl rfl
  · refine ⟨fun halone => hring ▸ chooseRing_alone he halone, fun hlow hlast ⟨f, hf, hother, hcls⟩ => ?_⟩
    exact chooseRing_against hturn hexpired he hring hlow hlast hf hother hcls
  · exact command_eq (if_neg (by simpa using hnone)) rfl rfl
  · have hrow := contextReturn_loads hread hwanted hactions hroom hpoison hwork
    refine ⟨_, command_to (f := contextReturnRow ring none) hrow, ?_, cacheEntry_entered _ _, ?_⟩
    · simp [entered, readDone]
    · simp [entered, readDone]
  · have hrow : ∃ u, Notes (readDone ring s) u ∧ OutEvent.mgtIrq 1 ∈ u.out
        ∧ contextReturnRow ring (if sectorPoison s .device (ctxAddr s ring) = true then none else error) s
          = entered ⟨ring, { memCtx s ring with state := .disabled }, false⟩ u := by
      split
      · next hpoison => exact contextReturn_poisoned hread hwanted hactions hroom hpoison
      · next hclean =>
        rw [hbad.resolve_left hclean]
        exact contextRefused_leaves hread hwanted hactions hroom
    obtain ⟨u, -, hirq, hu⟩ := hrow
    exact ⟨_, command_to hu, cacheEntry_entered _ _, hirq⟩
  · exact command_eq (if_neg (by simpa using hnone)) rfl rfl
  · have hrow : fetchReturn (commandFetchReturn ring) error s = commandFetchReturn ring (decide (error = some .memoryResponse)) s := by
      rcases herror with rfl | rfl <;> rfl
    obtain ⟨hfetches, hfetched⟩ := commandFetchReturn_leaves hfetch hcached hready (decide (error = some .memoryResponse))
    refine ⟨_, command_to hrow, ?_, fun f hf => (mem_fetched_iff hfetched hf).trans ?_⟩
    · exact hfetches ▸ not_mem_filter_ne _ _
    · simp only [packetsFrom, List.mem_map, List.mem_range, eq_comm (b := f)]
  · exact command_eq (if_neg (by simpa using hnone)) rfl rfl
  · have hrow : fetchReturn (tumblerReturn v a) error s = tumblerReturn v a (decide (error = some .memoryResponse)) s := by
      rcases herror with rfl | rfl <;> rfl
    have hgood : decide (error = some HwError.memoryResponse) = false ↔ error = none := by
      rcases herror with rfl | rfl <;> simp
    obtain ⟨hreads, hhit⟩ := tumblerReturn_leaves hread (decide (error = some .memoryResponse))
    refine ⟨_, command_to hrow, ?_, ?_⟩
    · exact hreads ▸ not_mem_filter_ne _ _
    · refine Eq.trans hhit ?_
      simp only [hgood]
end

section
/-! SUPPORT. A sole eligible ring starts its next command (R163, R469, R477, R478). -/

namespace Sys2Proof.Machine

open Sys2Proof.Claims

/-! ## What stays while a command starts -/

/-- Registers become resident: of the rings nothing else changes, and of the unit's state only memory and what is counted. -/
structure Resident (s t : State) : Prop where
  rings : t.rings = { s.rings with regs := t.rings.regs, resident := t.rings.resident, regsChanged := t.rings.regsChanged,
                                   savedRegs := t.rings.savedRegs }
  det : t.det = s.det

theorem Resident.refl (s : State) : Resident s s := ⟨rfl, rfl⟩

theorem Resident.trans {s t u : State} (h : Resident s t) (k : Resident t u) : Resident s u :=
  ⟨by rw [k.rings, h.rings], k.det.trans h.det⟩

theorem Resident.of_rings {s t : State} (h : t.rings = s.rings) (hdet : t.det = s.det) : Resident s t := ⟨by rw [h], hdet⟩

theorem saveRegs_resident (ring : Nat) (s : State) : Resident s (saveRegs ring s) := by
  unfold saveRegs
  split
  · exact ⟨by simp [touchSave], by simp [touchSave]⟩
  · exact .refl s

theorem makeResident_resident (ring : Nat) (s : State) : Resident s (makeResident ring s) := by
  have hroom : Resident s (if s.rings.resident.length < Config.residentSets then s
      else match s.rings.resident with
        | [] => s
        | old :: rest => { saveRegs old s with rings := { (saveRegs old s).rings with
            resident := rest, regs := spErase (saveRegs old s).rings.regs old } }) := by
    split
    · exact .refl s
    · split
      · exact .refl s
      · exact (saveRegs_resident _ s).trans ⟨rfl, rfl⟩
  unfold makeResident
  dsimp only
  split
  · exact .refl s
  · split
    · exact ⟨rfl, rfl⟩
    · refine hroom.trans ?_
      generalize (if s.rings.resident.length < Config.residentSets then _ else _ : State) = u
      exact ⟨by simp, by simp⟩

theorem twinForward_eq (e : OutEvent) (s : State) : twinForward e s = { s with out := (twinForward e s).out } := by
  unfold twinForward
  split <;> rfl

/-! ## A command that starts -/

/-- The command that a packet and its tumbler word give (R440, R447). -/
def startedCmd (s : State) (f : Fetched) (w : FetchedWord) : RunCmd :=
  { ring := f.ring, vi := ctxOwner (ctxOfRing s f.ring), seq := f.index, packet := f.bytes, descs := readDescs s f.bytes, tumbler := w.word,
    poisonedFetch := false, latched := latch s (isCovered f.ring) (ctxOwner (ctxOfRing s f.ring)) f.bytes, bank := some s.tabs.active,
    tableId := s.tabs.id, key := (viOf s (ctxOwner (ctxOfRing s f.ring))).key, phase := .running, wait := .nothing, tainted := false,
    failed := none, retained := false, prog := Progress.zero }

/-- The ring takes the chain, its context moved on. -/
def startedRing (ring : Nat) (s : State) : State :=
  makeResident ring (takeChain ring (turnStart s ring) (modCtx s ring (fun c => { c with head := c.head + 1, state := .running })))

theorem startedRing_leaves {ring : Nat} {s : State} (hcached : (cacheEntry s ring).isSome) :
    (startedRing ring s).rings.holder = some ring ∧ (startedRing ring s).det = s.det
      ∧ (cacheEntry (startedRing ring s) ring).isSome
      ∧ ctxOfRing (startedRing ring s) ring = { ctxOfRing s ring with head := (ctxOfRing s ring).head + 1, state := .running } := by
  have hmoved := (HasCtx.of_rings (r := ring) (s := s) (t := s) rfl rfl hcached).modCtx fun c => { c with head := c.head + 1, state := .running }
  have hdet : (modCtx s ring (fun c => { c with head := c.head + 1, state := .running })).det = s.det := by simp [modCtx]
  unfold startedRing
  generalize modCtx s ring (fun c => { c with head := c.head + 1, state := .running }) = u at hmoved hdet
  have hres := makeResident_resident ring (takeChain ring (turnStart s ring) u)
  have hcache : (makeResident ring (takeChain ring (turnStart s ring) u)).rings.cache = u.rings.cache := by
    rw [hres.rings]
    rfl
  refine ⟨by rw [hres.rings]; rfl, hres.det.trans hdet, by rw [cacheEntry_eq hcache]; exact hmoved.cached, ?_⟩
  exact (ctxOfRing_eq hcache hmoved.cached).trans hmoved.ctx

/-- What a command that can run leaves when it starts. -/
structure Starts (s t : State) (rc : RunCmd) : Prop where
  holder : t.rings.holder = some rc.ring
  cmd    : holderCmd t = some rc
  cached : (cacheEntry t rc.ring).isSome
  ctx    : ctxOfRing t rc.ring = { ctxOfRing s rc.ring with head := (ctxOfRing s rc.ring).head + 1, state := .running }
  det    : t.det = s.det

theorem starts_of_startedRing {s t : State} {rc : RunCmd} (hcached : (cacheEntry s rc.ring).isSome)
    (hmoved : ∃ fetched, t.rings = { (startedRing rc.ring s).rings with
      fetched := fetched, cmds := rc :: (startedRing rc.ring s).rings.cmds.filter (fun x => decide (x.ring ≠ rc.ring)) })
    (hdet : t.det = (startedRing rc.ring s).det) : Starts s t rc := by
  obtain ⟨fetched, hrings⟩ := hmoved
  obtain ⟨hholder, hdet', hcached', hctx⟩ := startedRing_leaves hcached
  have hholder' : t.rings.holder = some rc.ring := by rw [hrings]; exact hholder
  have hcache : t.rings.cache = (startedRing rc.ring s).rings.cache := by rw [hrings]
  refine ⟨hholder', ?_, by rwa [cacheEntry_eq hcache], (ctxOfRing_eq hcache hcached').trans hctx, hdet.trans hdet'⟩
  unfold holderCmd
  rw [hholder']
  dsimp only
  unfold cmdOf
  rw [hrings]
  simp

/-- R163, R477: a packet without error, poison or a reserved opcode starts. -/
theorem startRing_starts {f : Fetched} {s : State} (hcached : (cacheEntry s f.ring).isSome) (hfailed : f.failed = false)
    (hpoison : f.poison = false) (hknown : opcodeKnown (pkOpcode f.bytes) = true) (hdescs : descsPoisoned s f.bytes = false) :
    Starts s (startRing f ⟨0, false, false⟩ s) (startedCmd s f ⟨0, false, false⟩) := by
  obtain ⟨o, ho⟩ : ∃ o, twinForward (.twinCommand f.ring f.bytes) s = { s with out := o } := ⟨_, twinForward_eq _ s⟩
  have hdescs' : descsPoisoned { s with out := o } f.bytes = false := hdescs
  have hrow : Starts { s with out := o } (startRing f ⟨0, false, false⟩ s) (startedCmd { s with out := o } f ⟨0, false, false⟩) := by
    unfold startRing
    dsimp only
    rw [ho]
    simp only [hfailed, hpoison, hdescs', hknown, Bool.false_eq_true, if_false, Bool.or_self, Bool.not_true]
    refine starts_of_startedRing (s := { s with out := o }) (rc := startedCmd { s with out := o } f ⟨0, false, false⟩) hcached ?_ ?_
    · refine ⟨(startedRing f.ring { s with out := o }).rings.fetched.filter
        (fun x => !(decide (x.ring = f.ring) && decide (x.index = f.index))), ?_⟩
      rw [countEvent_rings, countEvent_rings]
      rfl
    · rw [countEvent_det, countEvent_det]
      rfl
  exact ⟨hrow.holder, hrow.cmd, hrow.cached, hrow.ctx, hrow.det⟩

/-! ## Arbitration -/

/-- The state in which the chosen ring's packet is taken up: the boundary is counted, a turn that has ended is gone. -/
def chosenState (s : State) (r : Nat) (turn : Option Turn) (out : List OutEvent) : State :=
  { s with out := out, det := { s.det with bseq := s.det.bseq + 1 },
           rings := { s.rings with turn := turn, chosen := some ⟨r, none, none⟩ } }

/-- R477: the packet that has been read for the chosen ring, without a tumbler word, starts. -/
theorem advanceChosen_starts {s : State} {r : Nat} {turn : Option Turn} {out : List OutEvent} {f : Fetched}
    (hfetched : s.rings.fetched.find? (fun x => decide (x.ring = r) && decide (x.index = (ctxOfRing s r).head)) = some f)
    (htumbler : pkTaddr f.bytes = 0) :
    advanceChosen (chosenState s r turn out) = startRing f ⟨0, false, false⟩ (chosenState s r turn out) := by
  have hfind : (chosenState s r turn out).rings.fetched.find?
      (fun x => decide (x.ring = r) && decide (x.index = (ctxOfRing (chosenState s r turn out) r).head)) = some f := hfetched
  have hchosen : (chosenState s r turn out).rings.chosen = some ⟨r, none, none⟩ := rfl
  unfold advanceChosen
  rw [hchosen]
  dsimp only
  rw [hfind]
  dsimp only
  rw [if_pos (by simp [htumbler])]

/-- One eligible ring, chosen at a boundary where nothing else is asked for. -/
theorem arbitrateStep_starts {s : State} {r : Nat} (hholder : s.rings.holder = none) (hmay : mayArbitrate s = true)
    (hholdup : s.pwr.holdupReq = false) (hdebug : s.ctl.dbgHaltReq = false) (hwanted : s.rings.wanted = [])
    (hchosen : s.rings.chosen = none) (hthrottled : s.throttled = 0) (hreplay : s.det.replayActive = false)
    (hsole : (eligibleRings s).length = 1) (hpick : chooseRing s = some r) (hready : (ctxOfRing s r).state = .ready) :
    ∃ turn out, arbitrateStep s = advanceChosen (chosenState s r turn out) := by
  have hboundary : atBoundary s = true := by
    unfold atBoundary
    rw [hholder]
  have hcalm : boundaryRequests (traceThrottle s) = s := by
    have hthrottle : traceThrottle s = s := if_pos hthrottled
    rw [hthrottle]
    unfold boundaryRequests
    rw [hholdup, hdebug]
    rfl
  have hnone : ∀ turn, holderCmd { s with rings := { s.rings with turn := turn } } = none := by
    intro turn
    unfold holderCmd
    dsimp only
    rw [hholder]
  obtain ⟨turn, hturn⟩ : ∃ turn, (if turnContinues s r then s else { s with rings := { s.rings with turn := none } })
      = { s with rings := { s.rings with turn := turn } } := by
    split
    · exact ⟨s.rings.turn, rfl⟩
    · exact ⟨none, rfl⟩
  obtain ⟨out, hdecided⟩ : ∃ out, decided r 1 { s with rings := { s.rings with turn := turn } }
      = { s with out := out, det := { s.det with bseq := s.det.bseq + 1 }, rings := { s.rings with turn := turn } } := by
    unfold decided
    dsimp only
    rw [if_neg (by decide), twinForward_eq]
    exact ⟨_, rfl⟩
  refine ⟨turn, out, ?_⟩
  unfold arbitrateStep
  rw [hboundary, hcalm]
  dsimp only
  rw [hmay, promoteReads_of_none hwanted, hchosen, hreplay]
  dsimp only [Bool.not_true, Option.isSome_none]
  simp only [Bool.false_eq_true, if_false]
  unfold decide1
  dsimp only
  rw [hpick]
  dsimp only
  rw [hturn, hnone, hsole, hdecided]
  dsimp only
  have hstate : (ctxOfRing { s with out := out, det := { s.det with bseq := s.det.bseq + 1 }, rings := { s.rings with turn := turn } } r).state
      = .ready := hready
  unfold giveChain
  rw [hstate]
  rfl

end Sys2Proof.Machine

open Sys2Proof Sys2Proof.Machine Sys2Proof.Claims

/-- Settles O57, by the choice among the lowest class and by the start of a packet that has been read. -/
theorem arbitrationStartsCommands : Obligations.ArbitrationStartsCommands := by
  unfold Obligations.ArbitrationStartsCommands
  intro s
  refine ⟨fun hnot => ?_, fun r hr => chooseRing_lowest hr, ?_⟩
  · exact command_eq (if_pos (by simp [hnot])) rfl rfl
  · intro r f hholder hmay hholdup hdebug hwanted hchosen hthrottled hreplay hsole hpick hcached hready hfetched hpoison hfailed htumbler
      hknown hdescs
    obtain ⟨hring, -⟩ : f.ring = r ∧ f.index = (ctxOfRing s r).head := by simpa using List.find?_some hfetched
    subst hring
    obtain ⟨turn, out, hstep⟩ :=
      arbitrateStep_starts hholder hmay hholdup hdebug hwanted hchosen hthrottled hreplay hsole hpick hready
    have hrow : arbitrateRow none s = startRing f ⟨0, false, false⟩ (chosenState s f.ring turn out) :=
      hstep.trans (advanceChosen_starts hfetched htumbler)
    obtain ⟨hholds, hcmd, hcached', hctx, hdet⟩ := startRing_starts (f := f) (s := chosenState s f.ring turn out) hcached hfailed hpoison hknown hdescs
    generalize startRing f ⟨0, false, false⟩ (chosenState s f.ring turn out) = t at hrow hholds hcmd hcached' hctx hdet
    have hctxOf := ctxOfRing_eq (s := t) (t := { t with pending := s.pending, cfg := s.cfg }) rfl hcached'
    exact ⟨_, _, command_to hrow, hholds, hcmd, rfl, rfl, rfl, rfl, rfl, rfl, rfl, rfl, rfl, hctxOf.trans hctx, congrArg (·.bseq) hdet⟩
end


section
/-! SUPPORT. TABLE_LOAD and TABLE_SWAP: what the loader leaves alone when it takes up its queue, and how the two commands wait for it and
complete with what it gave them (R210, R213, R214). -/

namespace Sys2Proof.Machine

open Sys2Proof.Claims

/-! ## What the loader leaves alone -/

/-- Every command of `s` stands in `t` with its packet and its index. -/
def KeepsPackets (s t : State) : Prop :=
  ∀ ring c, cmdOf s ring = some c → ∃ c', cmdOf t ring = some c' ∧ c'.packet = c.packet ∧ c'.seq = c.seq

/-- Between the two the loader alone has worked: rings, slots and memories stand, and so does every command, whatever it now waits
for. -/
structure LoaderWork (s t : State) : Prop where
  holder  : t.rings.holder = s.rings.holder
  cache   : t.rings.cache = s.rings.cache
  slots   : t.slots = s.slots
  bytes   : ∀ sp a, readByte t sp a = readByte s sp a
  packets : KeepsPackets s t

theorem LoaderWork.of {s t : State} (holder : t.rings.holder = s.rings.holder := by rfl) (cache : t.rings.cache = s.rings.cache := by rfl)
    (slots : t.slots = s.slots := by rfl) (dev : t.dev = s.dev := by rfl) (tile : t.tile = s.tile := by rfl)
    (twin : t.twinTile = s.twinTile := by rfl) (packets : KeepsPackets s t) : LoaderWork s t :=
  ⟨holder, cache, slots, fun sp a => readByte_mem dev tile twin sp a, packets⟩

theorem LoaderWork.trans {s t u : State} (h : LoaderWork s t) (k : LoaderWork t u) : LoaderWork s u := by
  refine ⟨k.holder.trans h.holder, k.cache.trans h.cache, k.slots.trans h.slots, fun sp a => (k.bytes sp a).trans (h.bytes sp a), ?_⟩
  intro ring c hc
  obtain ⟨c₁, hc₁, hpacket₁, hseq₁⟩ := h.packets ring c hc
  obtain ⟨c₂, hc₂, hpacket₂, hseq₂⟩ := k.packets ring c₁ hc₁
  exact ⟨c₂, hc₂, hpacket₂.trans hpacket₁, hseq₂.trans hseq₁⟩

/-- The table store may change. -/
theorem LoaderWork.tabs (s : State) (t : Tables) : LoaderWork s { s with tabs := t } :=
  .of (packets := fun _ c hc => ⟨c, hc, rfl, rfl⟩)

theorem cmdOf_setCmd_other (s : State) {c : RunCmd} {ring : Nat} (h : ring ≠ c.ring) : cmdOf (setCmd s c) ring = cmdOf s ring := by
  unfold cmdOf setCmd
  rw [List.find?_cons_of_neg (by simpa using Ne.symm h), List.find?_filter]
  congr 1
  funext x
  by_cases hx : x.ring = ring <;> simp [hx, h]

/-- A command may come to wait for something else, or be given its outcome. -/
theorem LoaderWork.setCmd {s : State} {c c' : RunCmd} (h : cmdOf s c.ring = some c) (hring : c'.ring = c.ring)
    (hpacket : c'.packet = c.packet) (hseq : c'.seq = c.seq) : LoaderWork s (setCmd s c') := by
  refine .of (packets := fun ring d hd => ?_)
  by_cases hr : ring = c'.ring
  · subst hr
    rw [hring, h] at hd
    obtain rfl := Option.some.inj hd
    exact ⟨c', cmdOf_setCmd_same _ _, hpacket, hseq⟩
  · exact ⟨d, (cmdOf_setCmd_other s hr).trans hd, rfl, rfl⟩

theorem loaderOutcome_work (ring : Nat) (st : Status) (result : W64) (count : Nat) (s : State) :
    LoaderWork s (loaderOutcome ring st result count s) := by
  unfold loaderOutcome
  split
  · exact .tabs s s.tabs
  · next c hc =>
    have hring := ring_of_cmdOf hc
    exact .setCmd (c := c) (hring ▸ hc) rfl rfl rfl

/-- The loader takes up its queue: every front that has no command, or that fails, is passed over. -/
theorem serveLoader_work (n : Nat) (s : State) : LoaderWork s (serveLoader n s) := by
  induction n generalizing s with
  | zero => exact .tabs s s.tabs
  | succ n ih =>
    unfold serveLoader
    split
    · exact .tabs s s.tabs
    · split
      · exact .tabs s s.tabs
      · split
        · exact (LoaderWork.tabs s _).trans (ih _)
        · next c hc =>
          have hring := ring_of_cmdOf hc
          split
          · exact .tabs s _
          · split
            · exact ((LoaderWork.tabs s _).trans (loaderOutcome_work _ _ _ _ _)).trans (ih _)
            · split
              · exact .setCmd (c := c) (hring ▸ hc) rfl rfl rfl
              · exact (LoaderWork.setCmd (c := c) (c' := { c with wait := .loader }) (hring ▸ hc) rfl rfl rfl).trans (.tabs _ _)

/-! ## What the loader takes up -/

theorem serveAll_of_busy {s : State} (h : s.tabs.job.isSome ∨ s.tabs.swap.isSome) : serveAll s = s := by
  unfold serveAll serveLoader
  rw [if_pos (by simpa using h)]

section

variable {s : State} {c : RunCmd} (hjob : s.tabs.job = none) (hswap : s.tabs.swap = none) (hqueue : s.tabs.queue = [c.ring])
  (hcmd : cmdOf s c.ring = some c)
include hjob hswap hqueue hcmd

/-- An idle loader starts the load of the only ring in its queue. -/
theorem serveAll_load (hop : pkOpcode c.packet = 0x20) : serveAll s = { s with tabs := { s.tabs with
    job := some ⟨c.ring, BitVec.ofNat 2 (pkOpc c.packet), BitVec.ofNat 3 (pkOpc c.packet / 4), (descAt c 0).1, (descAt c 0).2⟩ } } := by
  unfold serveAll serveLoader
  simp only [hjob, hswap, hqueue, hcmd, hop, if_true, Option.isSome_none, Bool.or_self, Bool.false_eq_true, if_false]
  rfl

/-- A swap without a valid shadow bank fails (R211). -/
theorem serveAll_swap_invalid (hop : pkOpcode c.packet = 0x21) (hvalid : s.tabs.shadowValid = false) :
    serveAll s = loaderOutcome c.ring .badCommand 0 0 { s with tabs := { s.tabs with queue := [] } } := by
  have hserve : serveAll s = serveLoader 1 (loaderOutcome c.ring .badCommand 0 0 { s with tabs := { s.tabs with queue := [] } }) := by
    unfold serveAll
    rw [hqueue]
    conv_lhs => unfold serveLoader
    simp [hjob, hswap, hqueue, hcmd, hop, hvalid]
  rw [hserve]
  unfold serveLoader
  simp [hjob, hswap]

/-- A swap from a valid shadow bank waits for a command boundary once a spare is free (R214). -/
theorem serveAll_swap (hop : pkOpcode c.packet = 0x21) (hvalid : s.tabs.shadowValid = true) : serveAll s =
    if (freeSpares s).isEmpty then setCmd s { c with wait := .spareBank }
    else { setCmd s { c with wait := .loader } with tabs := { s.tabs with swap := some c.ring } } := by
  unfold serveAll serveLoader
  simp [hjob, hswap, hqueue, hcmd, hop, hvalid]

end

/-! ## The banks that commands hold -/

/-- What a command waits for says nothing of the bank that it holds. -/
theorem freeSpares_setCmd {s : State} {c : RunCmd} {rest : List RunCmd} (hcmds : s.rings.cmds = c :: rest)
    (hrest : ∀ x ∈ rest, x.ring ≠ c.ring) (w : Wait) : freeSpares (setCmd s { c with wait := w }) = freeSpares s := by
  have hfilter : rest.filter (fun x => decide (x.ring ≠ c.ring)) = rest := List.filter_eq_self.mpr (by simpa using hrest)
  have hheld : ∀ i, bankHeld (setCmd s { c with wait := w }) i = bankHeld s i := by
    intro i
    unfold bankHeld setCmd
    dsimp only
    rw [hcmds, List.filter_cons_of_neg (by simp), hfilter]
    rfl
  unfold freeSpares
  simp only [hheld]
  rfl

/-! ## TABLE_LOAD and TABLE_SWAP -/

/-- The state in which a table command's ring waits, the last in the loader's queue. -/
def queued (rc : RunCmd) (s : State) : State :=
  { blockCmd (passed rc) .loader s with tabs := { s.tabs with queue := s.tabs.queue ++ [rc.ring] } }

/-- The command as it waits for the loader. -/
def loaderWaits (rc : RunCmd) : RunCmd := { passed rc with phase := .blocked false, wait := .loader }

theorem reachLoader_eq (rc : RunCmd) (s : State) : reachLoader (passed rc) s = serveAll (queued rc s) := by
  have hst : Stays s (setRingState s rc.ring .blocked) := setRingState_stays _ _ _
  have htabs : (blockCmd (passed rc) .loader s).tabs = s.tabs := hst.tabs
  unfold reachLoader queued
  rw [← htabs]
  rfl

theorem cmdOf_queued (rc : RunCmd) (s : State) : cmdOf (queued rc s) rc.ring = some (loaderWaits rc) := by
  unfold cmdOf queued blockCmd setCmd
  simp [loaderWaits, passed]

/-- The loader takes up what waits; the command waits too, or has its outcome. -/
theorem reachLoader_waits {s : State} {rc : RunCmd} (hcached : (cacheEntry s rc.ring).isSome) :
    ∃ rc', (reachLoader (passed rc) s).rings.holder = none ∧ (ctxOfRing (reachLoader (passed rc) s) rc.ring).state = .blocked
      ∧ cmdOf (reachLoader (passed rc) s) rc.ring = some rc' ∧ rc'.packet = rc.packet ∧ rc'.seq = rc.seq
      ∧ (reachLoader (passed rc) s).slots = s.slots ∧ (∀ sp a, readByte (reachLoader (passed rc) s) sp a = readByte s sp a)
      ∧ (cacheEntry (reachLoader (passed rc) s) rc.ring).isSome := by
  have hblocked := blockCmd_blocked s rc (passed rc) .loader hcached rfl rfl rfl
  have hqueued : LoaderWork (blockCmd (passed rc) .loader s) (queued rc s) := .tabs _ _
  rw [reachLoader_eq]
  have hwork := hqueued.trans (serveLoader_work ((queued rc s).tabs.queue.length + 1) (queued rc s))
  change LoaderWork _ (serveAll (queued rc s)) at hwork
  obtain ⟨c, hc, -, -, hpacket, hseq⟩ := hblocked.cmd
  obtain ⟨rc', hrc', hpacket', hseq'⟩ := hwork.packets _ _ hc
  have hcached' : (cacheEntry (blockCmd (passed rc) .loader s) rc.ring).isSome := cacheEntry_modCtx _ hcached
  refine ⟨rc', hwork.holder.trans hblocked.free, ?_, hrc', hpacket'.trans hpacket, hseq'.trans hseq, hwork.slots.trans hblocked.slots,
    fun sp a => (hwork.bytes sp a).trans (hblocked.bytes sp a), by rw [cacheEntry_eq hwork.cache]; exact hcached'⟩
  rw [ctxOfRing_eq hwork.cache hcached']
  exact hblocked.state

/-- The bank that a waiting command holds is still held once it waits for something else. -/
theorem freeSpares_queued (rc : RunCmd) (s : State) (w : Wait) :
    freeSpares (setCmd (queued rc s) { loaderWaits rc with wait := w }) = freeSpares (queued rc s) :=
  freeSpares_setCmd (rest := (setRingState s rc.ring .blocked).rings.cmds.filter (fun x => decide (x.ring ≠ rc.ring))) rfl
    (by simp [loaderWaits, passed]) w

/-- The row of a table command that holds the chain. -/
theorem tableRow_waits {s : State} {rc : RunCmd} {op : Nat} (hissues : Issues s rc op) (hpasses : Passes s rc) :
    tableRow op s = reachLoader (passed rc) s := by
  unfold tableRow
  rw [issue_runs hissues.issues hissues.held hissues.running hissues.opcode, checkedThen_good _ _ hpasses.unchecked hpasses.good]

/-- Resumed with its outcome it completes. -/
theorem tableRow_completes {s : State} {rc : RunCmd} {op : Nat} {st : Status} (hissues : Issues s rc op) (hchecked : rc.prog.checked = true)
    (hended : rc.prog.ended = some st) : tableRow op s = completeCmd rc st detMulti rc.prog.result.toNat rc.prog.count s := by
  unfold tableRow
  rw [issue_runs hissues.issues hissues.held hissues.running hissues.opcode, checkedThen, if_pos hchecked, finishLoader, hended]

end Sys2Proof.Machine

open Sys2Proof Sys2Proof.Machine Sys2Proof.Claims

/-- Settles O35: the ring is blocked before the loader looks at its queue, and whatever the loader then takes up, the command stands. -/
theorem tableCommandsWaitForTheLoader : Obligations.TableCommandsWaitForTheLoader := by
  unfold Obligations.TableCommandsWaitForTheLoader
  intro c op s rc hrow hissues
  have hexec : ∀ u, exec c u = command (tableRow op) u := by
    obtain ⟨rfl, rfl⟩ | ⟨rfl, rfl⟩ := hrow <;> exact fun _ => rfl
  refine ⟨fun hpasses => ?_, fun st hchecked hended => ?_⟩
  · have hrun := tableRow_waits hissues hpasses
    obtain ⟨rc', hholder, hstate, hcmd, hpacket, hseq, hslots, hbytes, hcached⟩ := reachLoader_waits (rc := rc) hissues.cached
    rw [reachLoader_eq] at hrun hholder hstate hcmd hslots hbytes hcached
    have hrest := cmdOf_queued rc s
    generalize hq : queued rc s = q at *
    have htabs : q.tabs = { s.tabs with queue := s.tabs.queue ++ [rc.ring] } := by rw [← hq]; rfl
    obtain ⟨t, ht⟩ : ∃ t, serveAll q = t := ⟨_, rfl⟩
    rw [ht] at hrun hholder hstate hcmd hslots hbytes hcached
    have hctx := ctxOfRing_eq (s := t) (t := { t with pending := s.pending, cfg := s.cfg }) rfl hcached
    have hstate' : (ctxOfRing { t with pending := s.pending, cfg := s.cfg } rc.ring).state = .blocked := by rw [hctx]; exact hstate
    refine ⟨_, rc', (hexec s).trans (command_to hrun), hholder, hstate', hcmd, hpacket, hseq, hslots, hbytes, ?_, ?_, ?_⟩
    · intro hbusy
      have hsame : t = q := by rw [← ht]; exact serveAll_of_busy (by rw [htabs]; exact hbusy)
      subst hsame
      obtain rfl := Option.some.inj (hcmd.symm.trans hrest)
      exact ⟨rfl, rfl, htabs⟩
    · intro hjob hswap hqueue hc
      have hop : op = 0x20 := by
        obtain ⟨-, rfl⟩ | ⟨rfl, -⟩ := hrow
        · rfl
        · exact absurd hc (by simp)
      have hload := serveAll_load (s := q) (c := loaderWaits rc) (by rw [htabs]; exact hjob) (by rw [htabs]; exact hswap)
        (by rw [htabs]; simp [hqueue, loaderWaits, passed]) hrest (hissues.opcode.trans hop)
      rw [ht] at hload
      rw [hload]
      simp only [htabs, hqueue, List.nil_append]
      rfl
    · intro hjob hswap hqueue hc
      have hop : op = 0x21 := by
        obtain ⟨rfl, -⟩ | ⟨-, rfl⟩ := hrow
        · exact absurd hc (by simp)
        · rfl
      have hjob' : q.tabs.job = none := by rw [htabs]; exact hjob
      have hswap' : q.tabs.swap = none := by rw [htabs]; exact hswap
      have hqueue' : q.tabs.queue = [(loaderWaits rc).ring] := by rw [htabs]; simp [hqueue, loaderWaits, passed]
      have hop' : pkOpcode (loaderWaits rc).packet = 0x21 := hissues.opcode.trans hop
      constructor
      · intro hvalid
        have hfail := serveAll_swap_invalid hjob' hswap' hqueue' hrest hop' (by rw [htabs]; exact hvalid)
        rw [ht] at hfail
        obtain ⟨c', hc', hphase, hended, -, -⟩ := cmdOf_loaderOutcome (s := { q with tabs := { q.tabs with queue := [] } })
          (ring := rc.ring) hrest .badCommand 0 0
        rw [hfail] at hcmd
        obtain rfl := Option.some.inj (hcmd.symm.trans hc')
        refine ⟨hended, hphase, ?_⟩
        show t.tabs = s.tabs
        rw [hfail, loaderOutcome_tabs, htabs, ← hqueue]
      · intro hvalid hfree
        have hserve := serveAll_swap hjob' hswap' hqueue' hrest hop' (by rw [htabs]; exact hvalid)
        rw [ht] at hserve
        have hspares : freeSpares t ≠ [] := hfree
        by_cases hempty : (freeSpares q).isEmpty
        · rw [if_pos hempty] at hserve
          rw [hserve, ← hq, freeSpares_queued, hq] at hspares
          exact absurd (List.isEmpty_iff.mp hempty) hspares
        · rw [if_neg hempty] at hserve
          show t.tabs = _
          rw [hserve]
          simp only [htabs, hqueue, List.nil_append]
          rfl
  · have hrun := tableRow_completes hissues hchecked hended
    obtain ⟨hnext, hcompleted, hframe⟩ :=
      command_completes rc rc st detMulti _ _ hrun hissues.cached (Works.refl s) rfl rfl rfl
    exact ⟨_, (hexec s).trans hnext, hcompleted, hframe⟩

end


section
/-! SUPPORT. Bytes that a command writes before it completes stand at its descriptor (R175), and the commands that write records:
DIGEST_SEAL, COUNTER_SNAP and ACC_PEEK (R534, R535, R674, R452). -/

namespace Sys2Proof.Machine

open Sys2Proof.Claims

/-! ## Completions after writes -/

section

variable {s u : State} {rc rc' : RunCmd} {base : Status} (d r n : Nat) (hcached : (cacheEntry s rc.ring).isSome) (hworks : Works s u)
  (hring : rc'.ring = rc.ring) (hpacket : rc'.packet = rc.packet)
  (hcontained : finalStatus rc' base ≠ .errorContained) (hretracted : finalStatus rc' base ≠ .retracted)
include hcached hworks hring hpacket hcontained hretracted

/-- Outside its own bytes a completion leaves what its command has written. -/
theorem completeCmd_readByte_after (hplain : plainEnd s rc (finalStatus rc' base)) (hchain : chainless rc.packet)
    (hrecord : pkRecord rc.packet = false) {sp : Space} {a : Nat} (hown : ¬ cplHolds (ctxOfRing s rc.ring) rc sp a) :
    readByte (completeCmd rc' base d r n u) sp a = readByte u sp a := by
  have hctx : ctxOfRing u rc.ring = ctxOfRing s rc.ring := ctxOfRing_eq hworks.cache hcached
  have hdeferred : ringDeferred u rc.ring = ringDeferred s rc.ring := by unfold ringDeferred; rw [hworks.deferred]
  obtain ⟨hnone, hhalt⟩ := hplain
  refine completeCmd_readByte rc' base d r n u (by rw [hring, cacheEntry_eq hworks.cache]; exact hcached)
    (by rw [hring, hdeferred, hnone]) (by rw [hring, hctx, hhalt]) hcontained hretracted (hpacket ▸ hchain) (hpacket ▸ hrecord) sp a ?_
  unfold cplHolds notifyHolds at hown ⊢
  rwa [hring, hpacket, hctx]

/-- Bytes that stand at a descriptor when the command completes stand there after it. -/
theorem completeCmd_stands {k : Nat} {bs : List Byte}
    (hbytes : isSecondary s = false → ∀ i < bs.length, readByte u (descAt rc k).1 ((descAt rc k).2 + i) = bs.getD i 0) :
    Stands s (completeCmd rc' base d r n u) rc (finalStatus rc' base) k bs := by
  intro hplain hchain hrecord hfirst i hi hown
  rw [completeCmd_readByte_after d r n hcached hworks hring hpacket hcontained hretracted hplain hchain hrecord hown]
  exact hbytes hfirst i hi

end

/-! ## Records -/

/-- A record that a command writes changes of the command its notes of what it holds and has written alone. -/
theorem writeRecord_cmd (rc : RunCmd) (d : Nat) (sp : Space) (a : Nat) (bs : List Byte) (p : Bool) (s : State) :
    ∃ runs, (writeRecord rc d sp a bs p s).1 = { rc with prog := { rc.prog with held := [], wrote := runs } } := ⟨_, rfl⟩

theorem readByte_writeRecord_getD {rc : RunCmd} {s : State} (hheld : rc.prog.held = []) (hfirst : isSecondary s = false) (d : Nat)
    (sp : Space) (a : Nat) {bs : List Byte} (hlength : bs.length ≤ 2 ^ 64) (p : Bool) {i : Nat} (hi : i < bs.length) :
    readByte (writeRecord rc d sp a bs p s).2 sp (a + i) = bs.getD i 0 := by
  rw [readByte_writeRecord_same rc d sp a i bs p s hheld hfirst hi hlength, List.getD_eq_getElem _ _ hi]

/-- The state and the command once a command has written a record at its descriptor 4. -/
def recorded (rc : RunCmd) (bs : List Byte) (u : State) : RunCmd × State :=
  writeRecord (passed rc) 4 (descAt rc 4).1 (descAt rc 4).2 bs false u

theorem recorded_works {s u : State} (h : Works s u) (rc : RunCmd) (bs : List Byte) : Works s (recorded rc bs u).2 :=
  h.trans (writeRecord_does (passed rc) 4 _ _ bs false u).works

theorem recorded_slots (rc : RunCmd) (bs : List Byte) (u : State) : (recorded rc bs u).2.slots = u.slots :=
  (writeRecord_noSlot (passed rc) 4 _ _ bs false u).slots

/-- How a fresh command that has written a record stands: nothing else noted. -/
structure RecordNoted (rc c : RunCmd) : Prop where
  ring    : c.ring = rc.ring
  packet  : c.packet = rc.packet
  seq     : c.seq = rc.seq
  failed  : c.failed = none
  flags   : c.prog.flags = rc.prog.flags
  flags0  : c.prog.flags = 0
  poison  : c.prog.poisonIn = false
  reduced : c.prog.reduced = []
  changed : c.prog.changed = []

theorem recorded_noted {rc : RunCmd} (hfresh : Fresh rc) (bs : List Byte) (u : State) : RecordNoted rc (recorded rc bs u).1 := by
  obtain ⟨hprog, hfailed, -⟩ := hfresh
  obtain ⟨runs, hcmd⟩ := writeRecord_cmd (passed rc) 4 (descAt rc 4).1 (descAt rc 4).2 bs false u
  unfold recorded
  rw [hcmd]
  refine ⟨rfl, rfl, rfl, hfailed, rfl, ?_, ?_, ?_, ?_⟩ <;>
  · unfold passed
    rw [hprog]
    rfl

theorem recorded_byte {rc : RunCmd} (hfresh : Fresh rc) {bs : List Byte} (hlength : bs.length ≤ 2 ^ 64) {u : State}
    (hfirst : isSecondary u = false) {i : Nat} (hi : i < bs.length) :
    readByte (recorded rc bs u).2 (descAt rc 4).1 ((descAt rc 4).2 + i) = bs.getD i 0 := by
  refine readByte_writeRecord_getD ?_ hfirst 4 _ _ hlength false hi
  unfold passed
  rw [hfresh.1]
  rfl

/-- The status of a fresh command that has written a record. -/
theorem RecordNoted.status {rc c : RunCmd} (h : RecordNoted rc c) :
    finalStatus c .ok = if c.tainted then .tainted else .ok := by
  unfold finalStatus
  simp only [h.failed, h.flags0, h.poison]
  cases c.tainted <;> simp [statusFirst, statusRank]

theorem RecordNoted.cpl {rc c : RunCmd} (h : RecordNoted rc c) (r n : Nat) :
    cplOf c .ok 0 r n = ⟨rc.seq.toNat, if c.tainted then .tainted else .ok, 0, 0, r, n⟩ := by
  unfold cplOf
  rw [h.status, h.seq, h.flags0]
  split <;> rfl

theorem okCpl_fresh {rc : RunCmd} (h : Fresh rc) (r n : Nat) : okCpl rc r n = ⟨rc.seq.toNat, .ok, 0, 0, r, n⟩ := by
  have hstatus := finalStatus_passed_fresh h
  unfold okCpl
  rw [show finalStatus rc .ok = .ok from hstatus, h.1]
  rfl

/-- A fresh command completes after its record, and whatever work came before and after that. -/
theorem record_completes {s v : State} {rc c : RunCmd} {f : State → State} (hcached : (cacheEntry s rc.ring).isSome)
    (hnoted : RecordNoted rc c) (r n : Nat) (hrun : f s = completeCmd c .ok 0 r n v) (hworks : Works s v) (hslots : v.slots = s.slots) :
    command f s = .next (completeCmd c .ok 0 r n v)
      ∧ (Completed s (completeCmd c .ok 0 r n v) rc ⟨rc.seq.toNat, if c.tainted then .tainted else .ok, 0, 0, r, n⟩
        ∧ Frame s (completeCmd c .ok 0 r n v))
      ∧ (completeCmd c .ok 0 r n v).slots = s.slots := by
  obtain ⟨hnext, hcompleted, hframe⟩ :=
    command_completes rc c .ok 0 r n hrun hcached hworks hnoted.ring hnoted.packet hnoted.seq
  rw [hnoted.cpl] at hcompleted
  refine ⟨hnext, ⟨hcompleted, hframe⟩, ?_⟩
  rw [completeCmd_slots_none _ _ _ _ _ _ ?_ hnoted.reduced hnoted.changed, hslots]
  rw [hnoted.status]
  cases c.tainted <;> simp

/-- The record stands at its descriptor after the completion. -/
theorem record_stands {s v : State} {rc c : RunCmd} (hcached : (cacheEntry s rc.ring).isSome) (hnoted : RecordNoted rc c) (r n : Nat)
    (hworks : Works s v) {bs : List Byte}
    (hbytes : isSecondary s = false → ∀ i < bs.length, readByte v (descAt rc 4).1 ((descAt rc 4).2 + i) = bs.getD i 0) :
    Stands s (completeCmd c .ok 0 r n v) rc (if c.tainted then .tainted else .ok) 4 bs := by
  have hstatus := hnoted.status
  rw [← hstatus]
  refine completeCmd_stands 0 r n hcached hworks hnoted.ring hnoted.packet ?_ ?_ hbytes <;>
  · rw [hstatus]
    cases c.tainted <;> simp

/-- The body of a record command that holds the chain runs. -/
theorem recordRow_runs {s : State} {rc : RunCmd} {op : Nat} (body : RunCmd → State → State) (hissues : Issues s rc op)
    (hpasses : Passes s rc) : issue op (fun rc s => checkedThen rc body body s) s = body (passed rc) s :=
  issue_cleared hissues (.inr hpasses.good)

/-! ## DIGEST_SEAL -/

/-- The state after a sealed record of a chain, which F0 starts anew: its digest and its count become 0 (R535). -/
def sealedState (s : State) (rc : RunCmd) (a : Nat) (bs : List Byte) : State :=
  if pkF0 rc.packet then devWriteFor rc.vi (devWriteFor rc.vi (recorded rc bs s).2 a (List.replicate 40 0)) (a + 56) [0]
  else (recorded rc bs s).2

theorem devWriteFor_works (v : ViId) (s : State) (a : Nat) (bs : List Byte) : Works s (devWriteFor v s a bs) :=
  (devWriteFor_aside s v a bs).toNear.works

theorem sealedState_works (s : State) (rc : RunCmd) (a : Nat) (bs : List Byte) : Works s (sealedState s rc a bs) := by
  have hrecord := recorded_works (Works.refl s) rc bs
  unfold sealedState
  split
  · exact (hrecord.trans (devWriteFor_works _ _ _ _)).trans (devWriteFor_works _ _ _ _)
  · exact hrecord

theorem sealedState_slots (s : State) (rc : RunCmd) (a : Nat) (bs : List Byte) : (sealedState s rc a bs).slots = s.slots := by
  unfold sealedState
  split <;> simp [recorded_slots]

/-- The chain that F0 starts anew reads 0. -/
theorem readByte_sealedState {s : State} {rc : RunCmd} (hf0 : pkF0 rc.packet = true) (hfirst : isSecondary s = false) (a : Nat)
    (bs : List Byte) {i : Nat} (hi : i < 40) : readByte (sealedState s rc a bs) .device (a + i) = 0 := by
  have hrecord := (recorded_works (Works.refl s) rc bs)
  have hfirst' : isSecondary (recorded rc bs s).2 = false := (isSecondary_eq hrecord.mode hrecord.primary).trans hfirst
  unfold sealedState
  rw [if_pos hf0, readByte_devWriteFor_other, readByte_devWriteFor_same _ _ _ _ _ hfirst' (by simpa using hi) (by simp)]
  · exact List.getElem_replicate _
  · intro _ j hj
    have hj : j = 0 := by simpa using hj
    rw [hj]
    exact spaceAddr_add_ne .device a i 56 (by omega) (by omega) (by omega)

theorem flatMap_length_of {α : Type} (l : List α) (f : α → List Byte) {n : Nat} (h : ∀ x, (f x).length = n) :
    (l.flatMap f).length = l.length * n := by
  rw [List.length_flatMap, List.map_congr_left (fun x _ => h x), List.map_const', List.sum_replicate, smul_eq_mul]

/-! ## COUNTER_SNAP -/

/-- The counters once F0 has cleared those of a list that the VI sees (R675). -/
def snapCleared (rc : RunCmd) (ns : List Nat) (s : State) : State := if pkF0 rc.packet then ns.foldl (clearShown rc.vi) s else s

theorem clearShown_leaves (v : ViId) (s : State) (n : Nat) : Works s (clearShown v s n) ∧ (clearShown v s n).slots = s.slots := by
  unfold clearShown
  split
  · exact ⟨modVi_works s v _, by simp [clearView]⟩
  · split
    · exact ⟨Works.of rfl rfl rfl rfl rfl rfl rfl rfl rfl rfl rfl rfl rfl rfl rfl, rfl⟩
    · exact ⟨Works.refl s, rfl⟩

theorem snapCleared_leaves (rc : RunCmd) (ns : List Nat) (s : State) :
    Works s (snapCleared rc ns s) ∧ (snapCleared rc ns s).slots = s.slots := by
  unfold snapCleared
  split
  · exact ⟨Works.foldl _ (fun s n => (clearShown_leaves _ s n).1) _ s,
      foldl_keeps (fun u => u.slots) _ (fun s n => (clearShown_leaves _ s n).2) _ s⟩
  · exact ⟨Works.refl s, rfl⟩

/-- The counters that a mask of 20 bits names. -/
theorem filter_testBit_mod (x : Nat) :
    (List.range 20).filter (fun n => (x % 2 ^ 20).testBit n) = (List.range 20).filter (fun n => x.testBit n) := by
  refine List.filter_congr fun n hn => ?_
  rw [Nat.testBit_mod_two_pow, decide_eq_true (List.mem_range.mp hn), Bool.true_and]

theorem snapRecord_length (s : State) (rc : RunCmd) (mask : Nat) : (snapRecord s rc mask).length = 192 := by
  unfold snapRecord
  simp [natBytes_length, flatMap_length_of _ _ (fun n => natBytes_length 8 _)]

/-! ## ACC_PEEK -/

/-- An accumulator row as ACC_PEEK writes it: 512 lanes and the exponent (R452). -/
def peekRecord (s : State) (rc : RunCmd) : List Byte :=
  (List.range 512).flatMap (fun l => natBytes 8 (wrapNat 64 (Config.accLane s.free (BitVec.ofNat 32 (pkOpa rc.packet)) l).toInt))
    ++ natBytes 8 (wrapNat 64 (Config.accExp s.free (BitVec.ofNat 32 (pkOpa rc.packet))).toInt)

theorem peekRecord_length (s : State) (rc : RunCmd) : (peekRecord s rc).length = 4104 := by
  unfold peekRecord
  simp [natBytes_length, flatMap_length_of _ _ (fun l => natBytes_length 8 _)]

theorem shaBlocks_length (ks : List W32) (n : Nat) (bs : List Byte) (hash : List W32) : (shaBlocks ks n bs hash).length ≤ hash.length := by
  induction n generalizing bs hash with
  | zero => exact le_rfl
  | succ n ih =>
    refine (ih _ _).trans ?_
    rw [shaBlock, List.length_zipWith]
    exact Nat.min_le_left _ _

theorem sha256_length (msg : List Byte) : (sha256 msg).length ≤ 32 := by
  unfold sha256
  dsimp only
  rw [flatMap_length_of _ _ (n := 4) fun w => by rw [List.length_reverse, natBytes_length]]
  have hinit : shaInit.length ≤ 8 := by
    rw [shaInit, List.length_map]
    exact List.length_take_le _ _
  exact Nat.mul_le_mul_right 4 ((shaBlocks_length _ _ _ _).trans hinit)

theorem sealRecord_length (s : State) (rc : RunCmd) (entry loc : Nat) : (sealRecord s rc entry loc).length ≤ 2 ^ 64 := by
  unfold sealRecord hmac256
  simp only [List.length_append, natBytes_length, readBytes, List.length_map, List.length_range]
  generalize (List.map _ _ ++ sha256 _ : List Byte) = msg
  have hmac := sha256_length msg
  omega

theorem readByte_recorded_of {s u : State} {rc : RunCmd} (hfresh : Fresh rc) {bs : List Byte} (hlength : bs.length ≤ 2 ^ 64)
    (hworks : Works s u) (hfirst : isSecondary s = false) (i : Nat) (hi : i < bs.length) :
    readByte (recorded rc bs u).2 (descAt rc 4).1 ((descAt rc 4).2 + i) = bs.getD i 0 :=
  recorded_byte hfresh hlength ((isSecondary_eq hworks.mode hworks.primary).trans hfirst) hi

end Sys2Proof.Machine

open Sys2Proof Sys2Proof.Machine Sys2Proof.Claims

/-- Settles O37: each record is written before the completion, whose own bytes alone may lie over it. -/
theorem recordCommandsWriteTheirRecords : Obligations.RecordCommandsWriteTheirRecords := by
  unfold Obligations.RecordCommandsWriteTheirRecords
  intro s rc hpasses hfresh
  refine ⟨fun hissues => ?_, fun hissues => ?_, fun hissues => ⟨fun hmay => ?_, fun hmay => ?_⟩⟩
  · obtain ⟨a, ha⟩ : ∃ a, a = digestEntry s rc.vi ((viRange s (isCovered rc.ring) rc.vi).base + pkOpa rc.packet) := ⟨_, rfl⟩
    obtain ⟨bs, hbs⟩ : ∃ bs, bs = sealRecord s rc a (pkOpa rc.packet) := ⟨_, rfl⟩
    have hlength : bs.length ≤ 2 ^ 64 := hbs ▸ sealRecord_length s rc a _
    have hnoted := recorded_noted hfresh bs s
    have htainted : (recorded rc bs s).1.tainted = false := hfresh.2.2
    have hrun : sealRow s = completeCmd (recorded rc bs s).1 .ok 0 (readNat s .device (a + 32) 8) 128 (sealedState s rc a bs) := by
      rw [ha] at hbs ⊢
      rw [hbs]
      exact recordRow_runs sealBody hissues hpasses
    have hworks := sealedState_works s rc a bs
    obtain ⟨hnext, hends, hslots⟩ :=
      record_completes hissues.cached hnoted _ 128 hrun hworks (sealedState_slots s rc a bs)
    have hstands := record_stands hissues.cached hnoted (readNat s .device (a + 32) 8) 128 hworks (bs := bs)
    rw [htainted] at hends hstands
    refine ⟨_, a, ha, ⟨hnext, okCpl_fresh hfresh _ _ ▸ hends⟩, hslots, fun hf0 => ?_, fun hf0 hplain hchain hrecord hfirst i hi hown => ?_⟩
    · rw [← hbs]
      refine hstands fun hfirst i hi => ?_
      rw [sealedState, if_neg (by simp [hf0])]
      exact readByte_recorded_of hfresh hlength (Works.refl s) hfirst i hi
    · have hstatus := hnoted.status
      rw [htainted] at hstatus
      rw [completeCmd_readByte_after 0 _ 128 hissues.cached hworks hnoted.ring hnoted.packet (by simp [hstatus]) (by simp [hstatus])
        (by rw [hstatus]; exact hplain) hchain hrecord hown]
      exact readByte_sealedState hf0 hfirst a bs hi
  · obtain ⟨bs, hbs⟩ : ∃ bs, bs = snapRecord (tick s) rc (pkOpa rc.packet % 2 ^ 20) := ⟨_, rfl⟩
    obtain ⟨ns, hns⟩ : ∃ ns, ns = (List.range 20).filter (fun n => (pkOpa rc.packet % 2 ^ 20).testBit n) := ⟨_, rfl⟩
    obtain ⟨u, hu⟩ : ∃ u, u = snapCleared rc ns (tick s) := ⟨_, rfl⟩
    have hlength : bs.length ≤ 2 ^ 64 := by rw [hbs, snapRecord_length]; omega
    obtain ⟨hcleared, hclearedSlots⟩ := snapCleared_leaves rc ns (tick s)
    have hticked : Works s u := hu ▸ (tick_aside s).toNear.works.trans hcleared
    have hslots : u.slots = s.slots := by rw [hu, hclearedSlots, (tick_aside s).slots]
    have hnoted := recorded_noted hfresh bs u
    have htainted : (recorded rc bs u).1.tainted = false := hfresh.2.2
    have hrun : snapRow s = completeCmd (recorded rc bs u).1 .ok 0 0 ns.length (recorded rc bs u).2 := by
      rw [hu, hns, hbs]
      exact recordRow_runs snapBody hissues hpasses
    have hworks := recorded_works hticked rc bs
    obtain ⟨hnext, hends, hslots⟩ :=
      record_completes hissues.cached hnoted _ _ hrun hworks ((recorded_slots rc bs u).trans hslots)
    have hstands := record_stands hissues.cached hnoted 0 ns.length hworks (readByte_recorded_of hfresh hlength hticked)
    rw [htainted] at hends hstands
    rw [← hbs, ← filter_testBit_mod, ← hns, okCpl_fresh hfresh]
    exact ⟨_, ⟨hnext, hends⟩, hslots, hstands⟩
  · obtain ⟨bs, hbs⟩ : ∃ bs, bs = peekRecord s rc := ⟨_, rfl⟩
    obtain ⟨u, hu⟩ : ∃ u, u = (takeFree s).2 := ⟨_, rfl⟩
    have hlength : bs.length ≤ 2 ^ 64 := by rw [hbs, peekRecord_length]; omega
    have hdrawn : Works s u := hu ▸ takeFree_works s
    have hslots : u.slots = s.slots := by rw [hu, (takeFree_aside s).slots]
    have hnoted := recorded_noted hfresh bs u
    have hnoted : RecordNoted rc { (recorded rc bs u).1 with tainted := true } := { hnoted with }
    have hrun : peekRow s = completeCmd { (recorded rc bs u).1 with tainted := true } .ok 0 0 512 (recorded rc bs u).2 := by
      have hbody : peekRow s = peekBody (passed rc) s := recordRow_runs peekBody hissues hpasses
      rw [hbody, peekBody, if_neg (by rw [show mayPeek s (passed rc) = true from hmay]; decide), hu, hbs]
      rfl
    have hworks := recorded_works hdrawn rc bs
    obtain ⟨hnext, hends, hslots⟩ :=
      record_completes hissues.cached hnoted _ _ hrun hworks ((recorded_slots rc bs u).trans hslots)
    have hstands := record_stands hissues.cached hnoted 0 512 hworks (readByte_recorded_of hfresh hlength hdrawn)
    refine ⟨_, ⟨hnext, hends⟩, hslots, ?_⟩
    rw [if_pos rfl] at hstands
    rw [peekRecord] at hbs
    rw [← hbs]
    exact hstands
  · have hrun : peekRow s = completeCmd { passed rc with failed := none, tainted := false } .badCommand 0 0 0 s := by
      have hbody : peekRow s = peekBody (passed rc) s := recordRow_runs peekBody hissues hpasses
      rw [hbody, peekBody, if_pos (by rw [show mayPeek s (passed rc) = false from hmay]; rfl)]
      rfl
    have hprog := hfresh.1
    have hstatus : finalStatus { passed rc with failed := none, tainted := false } .badCommand = .badCommand := by
      unfold passed
      rw [hprog]
      rfl
    obtain ⟨hnext, hcompleted, hframe⟩ := command_completes rc { passed rc with failed := none, tainted := false } .badCommand 0 0 0
      hrun hissues.cached (Works.refl s) rfl rfl rfl
    have hcpl : cplOf { passed rc with failed := none, tainted := false } .badCommand 0 0 0 = refusedCpl rc .badCommand 0 := by
      unfold cplOf
      rw [hstatus]
      rfl
    refine ⟨_, ⟨hnext, hcpl ▸ hcompleted, hframe⟩, completeCmd_slots_none _ _ _ _ _ _ (by simp [hstatus]) ?_ ?_⟩ <;>
    · unfold passed
      rw [hprog]
      rfl

end


section
/-! SUPPORT. The poison of sectors: what leaves it alone, and that writes which carry poison leave it (R175, R272); and ROWSTAT_SPILL. -/

namespace Sys2Proof.Machine

open Sys2Proof.Claims

/-! ## What leaves the poison of sectors alone -/

/-- No sector of any memory has become poisoned, or ceased to be. -/
structure SamePoison (s t : State) : Prop where
  dev  : t.dev.poison = s.dev.poison
  tile : t.tile.poison = s.tile.poison
  twin : t.twinTile.poison = s.twinTile.poison

theorem SamePoison.refl (s : State) : SamePoison s s := ⟨rfl, rfl, rfl⟩

theorem SamePoison.trans {s t u : State} (h : SamePoison s t) (k : SamePoison t u) : SamePoison s u :=
  ⟨k.dev.trans h.dev, k.tile.trans h.tile, k.twin.trans h.twin⟩

theorem SamePoison.foldl {β : Type} (f : State → β → State) (hf : ∀ s x, SamePoison s (f s x)) (l : List β) (s : State) :
    SamePoison s (l.foldl f s) := by
  induction l generalizing s with
  | nil => exact SamePoison.refl s
  | cons x rest ih => exact (hf s x).trans (ih _)

/-- Nothing is written at all. -/
theorem SamePoison.of_mem {s t : State} (dev : t.dev = s.dev := by simp) (tile : t.tile = s.tile := by simp)
    (twin : t.twinTile = s.twinTile := by simp) : SamePoison s t := by
  constructor
  · rw [dev]
  · rw [tile]
  · rw [twin]

theorem SamePoison.sector {s t : State} (h : SamePoison s t) (sp : Space) (a : Nat) : sectorPoison t sp a = sectorPoison s sp a := by
  unfold sectorPoison Memory.poisoned getMem
  cases sp with
  | device => dsimp only; rw [h.dev]
  | tile => dsimp only; rw [h.tile]
  | twin => dsimp only; rw [h.twin]

theorem writeByte_samePoison (s : State) (sp : Space) (a : Nat) (b : Byte) : SamePoison s (writeByte s sp a b) := by
  cases sp <;> exact ⟨rfl, rfl, rfl⟩

theorem writeBytes_samePoison (sp : Space) (a : Nat) (bs : List Byte) (s : State) : SamePoison s (writeBytes s sp a bs) := by
  induction bs generalizing s a with
  | nil => exact SamePoison.refl s
  | cons b rest ih =>
    exact (writeByte_samePoison s sp a b).trans (ih (a + 1) (writeByte s sp a b))

/-- A write of less than a sector clears no poison. -/
theorem devWriteFor_samePoison (v : ViId) (s : State) (a : Nat) {bs : List Byte} (h : bs.length < 64) :
    SamePoison s (devWriteFor v s a bs) := by
  unfold devWriteFor
  refine SamePoison.trans (t := devWrite s a bs) ?_ .of_mem
  unfold devWrite
  split
  · exact SamePoison.refl s
  · have hnone : (sectorsOf .device a bs.length).filter (fun k => decide (a ≤ 64 * k) && decide (64 * k + 64 ≤ a + bs.length)) = [] := by
      refine List.filter_eq_nil_iff.mpr fun k _ hk => ?_
      simp only [Bool.and_eq_true, decide_eq_true_eq] at hk
      omega
    dsimp only
    rw [hnone]
    exact writeBytes_samePoison _ _ _ s

/-- A cached context changes in the cache alone. -/
theorem modCtx_samePoison {s : State} {ring : Nat} (hcached : (cacheEntry s ring).isSome) (f : RingCtx → RingCtx) :
    SamePoison s (modCtx s ring f) := by
  obtain ⟨e, he⟩ := Option.isSome_iff_exists.mp hcached
  unfold modCtx setCtx
  rw [he]
  exact ⟨rfl, rfl, rfl⟩

theorem writeViews_samePoison (hs : List Nat) (s : State) : SamePoison s (writeViews hs s) := by
  refine SamePoison.foldl _ (fun s h => ?_) hs s
  split
  · exact .of_mem
  · exact SamePoison.refl s

theorem writeCpl_samePoison {s : State} {ring : Nat} (hcached : (cacheEntry s ring).isSome) (x : Cpl) :
    SamePoison s (writeCpl ring x s) := by
  have htick : SamePoison s (tick s) := .of_mem
  have hcached' : (cacheEntry (tick s) ring).isSome := by rw [cacheEntry_eq (tick_aside s).toNear.cache]; exact hcached
  unfold writeCpl
  dsimp only
  generalize tick s = u at htick hcached' ⊢
  generalize hd : devWriteFor _ u _ _ = d
  have hwrite : SamePoison u d := hd ▸ devWriteFor_samePoison _ _ _ (by rw [cplBytes_length]; omega)
  have hcache : d.rings = u.rings := by rw [← hd]; simp
  generalize hw : (if x.flags = 0 then _ else _ : State) = w
  have hrest : SamePoison d w ∧ w.rings = d.rings := by
    rw [← hw]
    split
    · exact ⟨.of_mem, by simp⟩
    · exact ⟨.of_mem, by simp⟩
  refine (htick.trans (hwrite.trans hrest.1)).trans (modCtx_samePoison ?_ _)
  rw [cacheEntry_eq (s := u) (by rw [hrest.2, hcache])]
  exact hcached'

theorem writeNotify_samePoison (ring n : Nat) (s : State) : SamePoison s (writeNotify ring n s) := by
  unfold writeNotify
  dsimp only
  split
  · exact SamePoison.refl s
  · exact devWriteFor_samePoison _ _ _ (by rw [natBytes_length]; omega)

theorem ringAfter_samePoison {ring : Nat} {st : Status} {s : State} (hcached : (cacheEntry s ring).isSome)
    (hnone : ringDeferred s ring = none) (hhalt : bit (ctxOfRing s ring).halt (statusCode st) = false) :
    SamePoison s (ringAfter ring st s) := by
  have hstate : ∀ (w : State) (x : RingState), w.rings.cache = s.rings.cache → SamePoison s w → SamePoison s (setRingState w ring x) :=
    fun w x hcache hw => hw.trans (modCtx_samePoison (by rw [cacheEntry_eq hcache]; exact hcached) _)
  have hturn : ∀ w, (endTurn ring w).rings.cache = w.rings.cache ∧ SamePoison w (endTurn ring w) := by
    intro w
    unfold endTurn
    split
    · split
      · exact ⟨rfl, rfl, rfl, rfl⟩
      · exact ⟨rfl, SamePoison.refl w⟩
    · exact ⟨rfl, SamePoison.refl w⟩
  unfold ringAfter
  dsimp only
  rw [hnone]
  simp only [hhalt, Bool.false_eq_true, if_false, if_true, reduceCtorEq]
  generalize hu : dropCmd { s with rings := { s.rings with holder := if s.rings.holder = some ring then none else s.rings.holder } } ring = u
  have hcache : u.rings.cache = s.rings.cache := by rw [← hu]; rfl
  have hsame : SamePoison s u := by rw [← hu]; exact ⟨rfl, rfl, rfl⟩
  split
  · exact hstate _ _ ((hturn u).1.trans hcache) (hsame.trans (hturn u).2)
  · exact hstate _ _ hcache hsame

/-- A plain completion leaves the poison of every sector. -/
theorem completeCmd_samePoison (rc : RunCmd) (base : Status) (d r n : Nat) (s : State) (hcached : (cacheEntry s rc.ring).isSome)
    (hplain : plainEnd s rc (finalStatus rc base)) (hcontained : finalStatus rc base ≠ .errorContained)
    (hretracted : finalStatus rc base ≠ .retracted) (hchain : chainless rc.packet) (hrecord : pkRecord rc.packet = false) :
    SamePoison s (completeCmd rc base d r n s) := by
  obtain ⟨hnone, hhalt⟩ := hplain
  have hkept := beforeRecord_keepsCtx rc base d r n s
  have hbefore : SamePoison s (beforeRecord rc base d r n s) := by
    refine (writeViews_samePoison rc.prog.reduced s).trans ?_
    unfold beforeRecord
    dsimp only
    rw [settleChain_chainless hchain]
    unfold appendRecord
    rw [if_pos (by simp [hrecord])]
    generalize writeViews rc.prog.reduced s = u
    split
    · contradiction
    · contradiction
    · exact .of_mem
  have hctx : ctxOfRing (beforeRecord rc base d r n s) rc.ring = ctxOfRing s rc.ring := ctxOfRing_eq hkept.cache hcached
  have hcached' : (cacheEntry (beforeRecord rc base d r n s) rc.ring).isSome := by rw [cacheEntry_eq hkept.cache]; exact hcached
  have hnone' : ringDeferred (beforeRecord rc base d r n s) rc.ring = none := by
    unfold ringDeferred at hnone ⊢
    rw [hkept.deferred]
    exact hnone
  rw [completeCmd_eq]
  refine hbefore.trans ?_
  generalize beforeRecord rc base d r n s = b at hctx hcached' hnone' ⊢
  have hwritten := writeCpl_written rc.ring (cplOf rc base d r n) b hcached'
  refine (writeCpl_samePoison hcached' (cplOf rc base d r n)).trans ?_
  generalize writeCpl rc.ring (cplOf rc base d r n) b = v at hwritten ⊢
  generalize hz : (if pkNotify rc.packet then writeNotify rc.ring rc.seq.toNat v else v) = z
  have hnotified : SamePoison v z ∧ z.rings = v.rings := by
    rw [← hz]
    split
    · exact ⟨writeNotify_samePoison _ _ v, (writeNotify_rest _ _ v).1⟩
    · exact ⟨SamePoison.refl v, rfl⟩
  refine hnotified.1.trans (ringAfter_samePoison ?_ ?_ ?_)
  · rw [cacheEntry_eq (s := v) (by rw [hnotified.2])]
    exact hwritten.cached
  · unfold ringDeferred at hnone' ⊢
    rw [hnotified.2, hwritten.deferred]
    exact hnone'
  · rw [ctxOfRing_eq (by rw [hnotified.2]) hwritten.cached, hwritten.ctx, hctx]
    exact hhalt

/-! ## Writes that carry poison -/

theorem poisoned_setPoison_same (m : Memory) (k : Nat) (p : Bool) : (m.setPoison k p).poisoned k = p := by
  unfold Memory.setPoison Memory.poisoned
  cases p with
  | true => simp [mem_setInsert]
  | false => simp [mem_setErase]

theorem poisoned_setPoison_other (m : Memory) {j k : Nat} (h : j ≠ k) (p : Bool) : (m.setPoison k p).poisoned j = m.poisoned j := by
  unfold Memory.setPoison Memory.poisoned
  rw [Bool.eq_iff_iff]
  cases p with
  | true => simp [mem_setInsert, h]
  | false => simp [mem_setErase, h]

/-- A sector number as the memory of a space has it. -/
def SectorFits (sp : Space) (k : Nat) : Prop := sectorOf (spaceAddr sp (64 * k)) = k

theorem sectorFits_of_addr (sp : Space) (a : Nat) : SectorFits sp (spaceAddr sp a / 64) := by
  unfold SectorFits sectorOf
  cases sp <;> simp only [spaceAddr] <;> omega

theorem bySector_sectorFits (l : List (Space × Nat × Byte)) : ∀ x ∈ bySector l, SectorFits x.space x.sector := by
  have hstep : ∀ (l : List (Space × Nat × Byte)) acc, (∀ x ∈ acc, SectorFits x.space x.sector) →
      ∀ x ∈ l.foldl (fun acc x => sectorAdd x.1 (spaceAddr x.1 x.2.1) x.2.2 acc) acc, SectorFits x.space x.sector := by
    intro l
    induction l with
    | nil => exact fun acc h => h
    | cons y rest ih =>
      refine fun acc h => ih _ fun x hx => ?_
      rcases sectorAdd_mem hx with ⟨hsp, hsector⟩ | hx
      · rw [hsector, hsp]
        exact sectorFits_of_addr _ _
      · exact h x hx
  exact hstep l [] (by simp)

/-- A sector of memory is poisoned. -/
def Poisoned (sp : Space) (k : Nat) (s : State) : Prop := (getMem s sp).poisoned k = true

theorem SamePoison.poisoned {s t : State} (h : SamePoison s t) {sp : Space} {k : Nat} : Poisoned sp k t ↔ Poisoned sp k s := by
  unfold Poisoned Memory.poisoned getMem
  cases sp with
  | device => dsimp only; rw [h.dev]
  | tile => dsimp only; rw [h.tile]
  | twin => dsimp only; rw [h.twin]

theorem putSector_samePoison (sp : Space) (k : Nat) (bs : List (Nat × Byte)) (s : State) : SamePoison s (putSector sp k bs s) :=
  SamePoison.foldl _ (fun s _ => writeByte_samePoison s _ _ _) bs s

/-- The sectors of a vector's writes, one after another: whole ones go out, the others are held. -/
def bufferGroup (rc : RunCmd) (w : VecWrites) (a : List HeldSector × State) (x : SectorBytes) : List HeldSector × State :=
  let p := w.poisoned.any (fun q => decide (q.1 = x.space) && decide (q.2 = x.sector))
  if x.bytes.length = 64 then (a.1, writeWhole rc.vi x.space x.sector x.bytes p a.2)
  else (a.1 ++ [⟨x.space, x.sector, x.bytes, p⟩], a.2)

theorem flushed_eq {rc : RunCmd} (hheld : rc.prog.held = []) (w : VecWrites) (s : State) :
    (flushSectors (bufferWrites rc w s).1 (bufferWrites rc w s).2).2
      = ((bySector w.bytes).foldl (bufferGroup rc w) ([], s)).1.foldl (fun s h => mergeSector rc.vi h s)
          ((bySector w.bytes).foldl (bufferGroup rc w) ([], s)).2 := by
  unfold bufferWrites flushSectors
  simp only [hheld, List.find?_nil, List.filter_nil, List.foldl_nil]
  rfl

section

variable {sp : Space} {k : Nat} (hfits : SectorFits sp k)
include hfits

/-- A sector written with poison is poisoned, and one that is stays so while nothing writes it without. -/
theorem writeWhole_poisoned (v : ViId) {sq : Space} {j : Nat} (hj : SectorFits sq j) (bs : List (Nat × Byte)) {p : Bool} {s : State}
    (hfirst : isSecondary s = false) (hp : sq = sp ∧ j = k → p = true) (h : (sq = sp ∧ j = k) ∨ Poisoned sp k s) :
    Poisoned sp k (writeWhole v sq j bs p s) := by
  unfold writeWhole
  rw [hfirst, Bool.and_false, if_neg (by decide)]
  have hput : SamePoison s (putSector sq j bs (countSectorWrite v sq s)) :=
    SamePoison.trans (t := countSectorWrite v sq s) (by unfold countSectorWrite; exact .of_mem) (putSector_samePoison _ _ _ _)
  rw [← hput.poisoned] at h
  generalize putSector sq j bs (countSectorWrite v sq s) = u at h ⊢
  unfold setSectorPoison Poisoned
  rw [show sectorOf (spaceAddr sq (64 * j)) = j from hj]
  by_cases hkey : sq = sp ∧ j = k
  · obtain ⟨rfl, rfl⟩ := hkey
    rw [getMem_setMem_same, poisoned_setPoison_same]
    exact hp ⟨rfl, rfl⟩
  · have hu : Poisoned sp k u := h.resolve_left hkey
    by_cases hsp : sq = sp
    · subst hsp
      rw [getMem_setMem_same, poisoned_setPoison_other _ (fun he => hkey ⟨rfl, he.symm⟩)]
      exact hu
    · rw [getMem_setMem_other _ _ (Ne.symm hsp)]
      exact hu

theorem mergeSector_poisoned (v : ViId) (x : HeldSector) (hj : SectorFits x.space x.sector) {s : State} (hfirst : isSecondary s = false)
    (hp : x.space = sp ∧ x.sector = k → x.poison = true) (h : (x.space = sp ∧ x.sector = k) ∨ Poisoned sp k s) :
    Poisoned sp k (mergeSector v x s) := by
  unfold mergeSector
  dsimp only
  have hcount : ∀ (b : Bool) (u : State), SamePoison u (if b then countEvent 0x25 1 (some v) u else u)
      ∧ isSecondary (if b then countEvent 0x25 1 (some v) u else u) = isSecondary u := by
    intro b u
    split
    · exact ⟨.of_mem, countEvent_isSecondary _ _ _ _⟩
    · exact ⟨SamePoison.refl u, rfl⟩
  have hcounted : SamePoison s (countEvent 0x22 1 (some v) (countEvent (if x.space = .device then 0x23 else 0x20) 1 (some v) s)) := .of_mem
  refine writeWhole_poisoned hfits v hj _ ?_ (fun hkey => by rw [hp hkey, Bool.or_true]) (h.imp id ?_)
  · rw [(hcount _ _).2, countEvent_isSecondary, countEvent_isSecondary]
    exact hfirst
  · rw [(hcounted.trans (hcount _ _).1).poisoned]
    exact id

/-- Held sectors that lie at `k` carry poison. -/
def HoldPoison (sp : Space) (k : Nat) (l : List HeldSector) : Prop :=
  ∀ x ∈ l, SectorFits x.space x.sector ∧ (x.space = sp ∧ x.sector = k → x.poison = true)

/-- A sector held with poison is poisoned once every held sector has been merged. -/
theorem merged_poisoned (v : ViId) {l : List HeldSector} (hl : HoldPoison sp k l) {s : State} (hfirst : isSecondary s = false)
    (h : (∃ x ∈ l, x.space = sp ∧ x.sector = k) ∨ Poisoned sp k s) : Poisoned sp k (l.foldl (fun s x => mergeSector v x s) s) := by
  induction l generalizing s with
  | nil => exact h.resolve_left (by simp)
  | cons x rest ih =>
    obtain ⟨hj, hp⟩ := hl x List.mem_cons_self
    refine ih (fun y hy => hl y (List.mem_cons_of_mem _ hy))
      ((isSecondary_eq (by rw [twin_mergeSector]) (by rw [twin_mergeSector])).trans hfirst) ?_
    by_cases hhere : (x.space = sp ∧ x.sector = k) ∨ Poisoned sp k s
    · exact .inr (mergeSector_poisoned hfits v x hj hfirst hp hhere)
    · obtain ⟨y, hy, hkey⟩ := h.resolve_right (fun hs => hhere (.inr hs))
      rcases List.mem_cons.mp hy with rfl | hy
      · exact absurd (.inl hkey) hhere
      · exact .inl ⟨y, hy, hkey⟩

theorem grouped_poisoned {rc : RunCmd} {w : VecWrites} (hpoison : (sp, k) ∈ w.poisoned) {l : List SectorBytes}
    (hl : ∀ x ∈ l, SectorFits x.space x.sector) {a : List HeldSector × State} (ha : HoldPoison sp k a.1) (hfirst : isSecondary a.2 = false)
    (h : (∃ x ∈ l, x.space = sp ∧ x.sector = k) ∨ (∃ x ∈ a.1, x.space = sp ∧ x.sector = k) ∨ Poisoned sp k a.2) :
    HoldPoison sp k (l.foldl (bufferGroup rc w) a).1 ∧ isSecondary (l.foldl (bufferGroup rc w) a).2 = false
      ∧ ((∃ x ∈ (l.foldl (bufferGroup rc w) a).1, x.space = sp ∧ x.sector = k) ∨ Poisoned sp k (l.foldl (bufferGroup rc w) a).2) := by
  induction l generalizing a with
  | nil => exact ⟨ha, hfirst, h.resolve_left (by simp)⟩
  | cons x rest ih =>
    have hj := hl x List.mem_cons_self
    have hp : x.space = sp ∧ x.sector = k → w.poisoned.any (fun q => decide (q.1 = x.space) && decide (q.2 = x.sector)) = true := by
      rintro ⟨rfl, rfl⟩
      exact List.any_eq_true.mpr ⟨_, hpoison, by simp⟩
    rw [List.foldl_cons]
    refine ih (fun y hy => hl y (List.mem_cons_of_mem _ hy)) ?_ ?_ ?_
    · unfold bufferGroup
      split
      · exact ha
      · intro y hy
        rcases List.mem_append.mp hy with hy | hy
        · exact ha y hy
        · rw [List.mem_singleton.mp hy]
          exact ⟨hj, hp⟩
    · unfold bufferGroup
      split
      · exact (isSecondary_eq (by rw [twin_writeWhole]) (by rw [twin_writeWhole])).trans hfirst
      · exact hfirst
    · rcases h with ⟨y, hy, hkey⟩ | h
      · rcases List.mem_cons.mp hy with rfl | hy
        · right
          unfold bufferGroup
          split
          · exact .inr (writeWhole_poisoned hfits rc.vi hj _ hfirst hp (.inl hkey))
          · exact .inl ⟨_, List.mem_append_right _ (List.mem_singleton_self _), hkey⟩
        · exact .inl ⟨y, hy, hkey⟩
      · right
        unfold bufferGroup
        split
        · exact h.imp id fun h => writeWhole_poisoned hfits rc.vi hj _ hfirst hp (.inr h)
        · exact h.imp (fun ⟨y, hy, hkey⟩ => ⟨y, List.mem_append_left _ hy, hkey⟩) id

/-- Of writes with nothing behind them, every sector that carries poison is poisoned. -/
theorem flushed_poisoned {rc : RunCmd} {w : VecWrites} {s : State} (hheld : rc.prog.held = []) (hfirst : isSecondary s = false)
    (htouched : ∃ x ∈ bySector w.bytes, x.space = sp ∧ x.sector = k) (hpoison : (sp, k) ∈ w.poisoned) :
    Poisoned sp k (flushSectors (bufferWrites rc w s).1 (bufferWrites rc w s).2).2 := by
  rw [flushed_eq hheld]
  obtain ⟨hhold, hsecond, hreached⟩ := grouped_poisoned hfits (rc := rc) hpoison (bySector_sectorFits w.bytes) (a := ([], s))
    (fun x hx => absurd hx List.not_mem_nil) hfirst (.inl htouched)
  exact merged_poisoned hfits rc.vi hhold hsecond hreached

end

/-- A byte that is written lies in a sector that is. -/
theorem touched_of_written {l : List (Space × Nat × Byte)} {sp : Space} {a : Nat} {b : Byte} (h : lastWrite l sp (spaceAddr sp a) = some b) :
    ∃ x ∈ bySector l, x.space = sp ∧ x.sector = spaceAddr sp a / 64 := by
  rw [← groupsGet_bySector] at h
  obtain ⟨x, hx, hget⟩ := List.exists_of_findSome?_eq_some h
  unfold groupGet at hget
  split at hget
  · next hkey => exact ⟨x, hx, hkey⟩
  · simp at hget

/-! ## The views of the slots of a range -/

theorem slotViews_of_inexact {x : Slot} (h : x.exact = false) : slotViews x = x := by
  unfold slotViews
  simp [h]

@[simp] theorem slotViews_poison (x : Slot) : (slotViews x).poison = x.poison := by
  unfold slotViews
  split <;> rfl

theorem slotAt_writeViews {hs : List Nat} (hnodup : hs.Nodup) (s : State) {h : Nat} (hmem : h ∈ hs) :
    slotAt (writeViews hs s) h = slotViews (slotAt s h) := by
  induction hs generalizing s with
  | nil => cases hmem
  | cons k rest ih =>
    obtain ⟨hk, hrest⟩ := List.nodup_cons.mp hnodup
    have hstep : writeViews (k :: rest) s = writeViews rest (if (slotAt s k).exact then modSlot s k slotViews else s) := rfl
    rw [hstep]
    rcases List.mem_cons.mp hmem with rfl | hmem
    · rw [writeViews_slot _ _ _ hk]
      split
      · exact slotAt_modSlot_same _ _ _
      · next hexact => exact (slotViews_of_inexact (by simpa using hexact)).symm
    · rw [ih hrest _ hmem]
      split
      · rw [slotAt_modSlot_other _ _ (show h ≠ k from fun he => hk (he ▸ hmem))]
      · rfl

theorem span_nodup (a n : Nat) : (span a n).Nodup := by
  unfold span
  exact List.nodup_range.map (fun x y h => by simpa using h)

theorem mem_span {a n h : Nat} : h ∈ span a n ↔ a ≤ h ∧ h < a + n := by
  unfold span
  simp only [List.mem_map, List.mem_range]
  exact ⟨fun ⟨i, hi, he⟩ => by omega, fun hh => ⟨h - a, by omega, by omega⟩⟩

/-! ## Rows written one after another -/

/-- The bytes of the first `n` rows, each of `k` bytes, at a base, and the sectors that carry the poison of a row. -/
theorem rowPlaces_written (d : Nat) (sp : Space) (base k : Nat) {f : Nat → List Byte} (hlength : ∀ r, (f r).length = k) (p : Nat → Bool) (n : Nat) :
    ((List.range n).foldl (fun (w : VecWrites) r => w.append (VecWrites.place d sp (base + k * r) (f r) (p r))) VecWrites.empty).bytes
        = ((List.range n).flatMap f).zipIdx.map (fun y => (sp, base + y.2, y.1))
      ∧ ∀ r < n, p r = true → ∀ y ∈ spaceSectors sp (base + k * r) k,
        y ∈ ((List.range n).foldl (fun (w : VecWrites) r => w.append (VecWrites.place d sp (base + k * r) (f r) (p r)))
          VecWrites.empty).poisoned := by
  induction n with
  | zero => exact ⟨rfl, fun r hr => absurd hr (Nat.not_lt_zero r)⟩
  | succ n ih =>
    obtain ⟨hbytes, hpoison⟩ := ih
    rw [List.range_succ, List.foldl_append, List.flatMap_append]
    have hbefore : ((List.range n).flatMap f).length = k * n := by
      rw [flatMap_length_of _ _ hlength, List.length_range, Nat.mul_comm]
    constructor
    · rw [List.zipIdx_append, List.map_append, hbefore, ← hbytes]
      simp only [List.foldl_cons, List.foldl_nil, List.flatMap_cons, List.flatMap_nil, List.append_nil, VecWrites.append, VecWrites.place]
      congr 1
      rw [Nat.zero_add, List.zipIdx_eq_map_add (l := f n) (i := k * n), List.map_map]
      refine List.map_congr_left fun y _ => ?_
      simp only [Function.comp, Prod.mk.injEq, true_and, and_true]
      omega
    · intro r hr hp y hy
      simp only [List.foldl_cons, List.foldl_nil, VecWrites.append, VecWrites.place]
      refine List.mem_append.mpr ?_
      by_cases hrn : r < n
      · exact .inl (hpoison r hrn hp y hy)
      · obtain rfl : r = n := by omega
        right
        rw [if_pos hp, hlength]
        exact hy

/-- A sector of a range is one of its sectors. -/
theorem mem_spaceSectors (sp : Space) {a n i : Nat} (hi : i < n) : (sp, spaceAddr sp (a + i) / 64) ∈ spaceSectors sp a n := by
  unfold spaceSectors sectorsOf
  rw [if_neg (by omega)]
  refine List.mem_map.mpr ⟨_, List.mem_map.mpr ⟨(a + i) / 64, mem_span.mpr ⟨by omega, ?_⟩, rfl⟩, ?_⟩
  · have hle : (a + i) / 64 ≤ (a + n - 1) / 64 := Nat.div_le_div_right (by omega)
    omega
  · unfold sectorOf
    cases sp <;> simp only [spaceAddr, Prod.mk.injEq, true_and] <;> omega

/-! ## ROWSTAT_SPILL -/

/-- A fresh command that has met nothing, and has changed slots of its range alone. -/
structure Untroubled (rc c : RunCmd) : Prop where
  ring    : c.ring = rc.ring
  packet  : c.packet = rc.packet
  seq     : c.seq = rc.seq
  failed  : c.failed = none
  tainted : c.tainted = false
  flags   : c.prog.flags = 0
  poison  : c.prog.poisonIn = false
  reduced : c.prog.reduced = []
  changed : ∀ h ∈ c.prog.changed, inRange rc.packet h

theorem Untroubled.status {rc c : RunCmd} (h : Untroubled rc c) : finalStatus c .ok = .ok := by
  rw [finalStatus_ok h.failed h.tainted, h.flags, h.poison]
  rfl

theorem Untroubled.cpl {rc c : RunCmd} (h : Untroubled rc c) (hfresh : Fresh rc) (r n : Nat) : cplOf c .ok 0 r n = okCpl rc r n := by
  rw [okCpl_fresh hfresh]
  unfold cplOf
  rw [h.status, h.seq, h.flags]

/-- The command with the links of the slots that it reads, and its slots with their views (R243). -/
def viewed (rc : RunCmd) (s : State) : RunCmd × State := spillViews (addLinks s (passed rc)) s

/-- The command and the state once every image has been written. -/
def imaged (rc : RunCmd) (s : State) : RunCmd × State :=
  flushSectors (bufferWrites (viewed rc s).1 (spillWrites (viewed rc s).1 (viewed rc s).2) (viewed rc s).2).1
    (bufferWrites (viewed rc s).1 (spillWrites (viewed rc s).1 (viewed rc s).2) (viewed rc s).2).2

theorem viewed_cmd (rc : RunCmd) (s : State) : ∃ inputs changed,
    (viewed rc s).1 = { passed rc with prog := { (passed rc).prog with inputs := inputs, changed := changed } } := by
  have hlinks : ∃ inputs, addLinks s (passed rc) = { passed rc with prog := { (passed rc).prog with inputs := inputs } } := by
    unfold addLinks
    split
    · exact ⟨_, rfl⟩
    · unfold addInput
      split
      · exact ⟨_, rfl⟩
      · exact ⟨_, rfl⟩
  obtain ⟨inputs, hinputs⟩ := hlinks
  unfold viewed spillViews
  rw [hinputs]
  exact ⟨inputs, _, rfl⟩

theorem mem_foldl_insert {l m : List Nat} {h : Nat} (hh : h ∈ l.foldl setInsert m) : h ∈ m ∨ h ∈ l := by
  induction l generalizing m with
  | nil => exact .inl hh
  | cons x rest ih =>
    rcases ih hh with hm | hr
    · rcases (mem_setInsert _ _ _).mp hm with rfl | hm
      · exact .inr List.mem_cons_self
      · exact .inl hm
    · exact .inr (List.mem_cons_of_mem _ hr)

section

variable {rc : RunCmd} {s : State} (hfresh : Fresh rc)

include hfresh in
theorem viewed_untroubled : Untroubled rc (viewed rc s).1 := by
  obtain ⟨hprog, hfailed, htainted⟩ := hfresh
  have hchanged : ∀ h ∈ (viewed rc s).1.prog.changed, inRange rc.packet h := by
    intro h hh
    have hsame := addLinks_same s (passed rc)
    rcases mem_foldl_insert hh with hold | hnew
    · obtain ⟨inputs, changed, -⟩ := viewed_cmd rc s
      have hnone : (addLinks s (passed rc)).prog.changed = [] := by
        unfold addLinks addInput passed
        rw [hprog]
        split
        · rfl
        · split <;> rfl
      rw [hnone] at hold
      cases hold
    · have hmem := (List.mem_filter.mp hnew).1
      unfold rangeHandles at hmem
      rw [hsame.packet] at hmem
      exact mem_span.mp hmem
  obtain ⟨inputs, changed, hcmd⟩ := viewed_cmd rc s
  refine ⟨?_, ?_, ?_, ?_, ?_, ?_, ?_, ?_, hchanged⟩ <;> rw [hcmd]
  · rfl
  · rfl
  · rfl
  · exact hfailed
  · exact htainted
  all_goals
    unfold passed
    rw [hprog]
    rfl

theorem viewed_works : Works s (viewed rc s).2 := (writeViews_near _ s).works

theorem viewed_slot {r : Nat} (hr : r < pkRows rc.packet) :
    slotAt (viewed rc s).2 (pkRow0 rc.packet + r) = slotViews (slotAt s (pkRow0 rc.packet + r)) := by
  have hpacket := (addLinks_same s (passed rc)).packet
  refine slotAt_writeViews (span_nodup _ _) s ?_
  rw [hpacket]
  exact mem_span.mpr ⟨Nat.le_add_right _ _, Nat.add_lt_add_left hr _⟩

theorem viewed_other {h : Nat} (hh : ¬ inRange rc.packet h) : slotAt (viewed rc s).2 h = slotAt s h := by
  have hpacket := (addLinks_same s (passed rc)).packet
  refine writeViews_slot _ s h fun hmem => hh ?_
  unfold rangeHandles at hmem
  rw [hpacket] at hmem
  exact mem_span.mp hmem

/-- The images of the rows of a range, one after another. -/
def rowImages (rc : RunCmd) (s : State) : List Byte :=
  (List.range (pkRows rc.packet)).flatMap (fun r => slotBytes (slotViews (slotAt s (pkRow0 rc.packet + r))))

theorem rowImages_length (rc : RunCmd) (s : State) : (rowImages rc s).length = 256 * pkRows rc.packet := by
  unfold rowImages
  rw [flatMap_length_of _ _ (fun r => slotBytes_length _), List.length_range, Nat.mul_comm]

theorem pkRows_le (p : BitVec 512) : pkRows p ≤ 2 ^ 15 := by
  have h := field_lt_pow p 222 208
  unfold pkRows
  omega

theorem spillWrites_eq : spillWrites (viewed rc s).1 (viewed rc s).2 =
    (List.range (pkRows rc.packet)).foldl (fun (w : VecWrites) r => w.append (VecWrites.place 4 (descAt rc 4).1
      ((descAt rc 4).2 + 256 * r) (slotBytes (slotAt (viewed rc s).2 (pkRow0 rc.packet + r)))
      (slotAt (viewed rc s).2 (pkRow0 rc.packet + r)).poison)) VecWrites.empty := by
  obtain ⟨inputs, changed, hcmd⟩ := viewed_cmd rc s
  unfold spillWrites
  rw [hcmd]
  rfl

theorem spillWrites_bytes : (spillWrites (viewed rc s).1 (viewed rc s).2).bytes
    = (rowImages rc s).zipIdx.map (fun y => ((descAt rc 4).1, (descAt rc 4).2 + y.2, y.1)) := by
  rw [spillWrites_eq, (rowPlaces_written 4 (descAt rc 4).1 (descAt rc 4).2 256 (fun r => slotBytes_length (slotAt (viewed rc s).2 (pkRow0 rc.packet + r)))
    (fun r => (slotAt (viewed rc s).2 (pkRow0 rc.packet + r)).poison) _).1]
  rw [rowImages, List.flatMap_congr fun r hr => ?_]
  rw [viewed_slot (List.mem_range.mp hr)]

/-- What writing the images leaves: the slots with their views, the bytes at the destination, and the poison of their sectors. -/
theorem imaged_works : Works s (imaged rc s).2 :=
  viewed_works.trans ((bufferWrites_does (viewed rc s).1 _ (viewed rc s).2).works.trans (flushSectors_does _ _).works)

theorem imaged_slots : (imaged rc s).2.slots = (viewed rc s).2.slots :=
  (flushSectors_noSlot _ _).slots.trans (bufferWrites_noSlot _ _ _).slots

theorem viewed_held (hfresh : Fresh rc) : (viewed rc s).1.prog.held = [] := by
  obtain ⟨inputs, changed, hcmd⟩ := viewed_cmd rc s
  rw [hcmd]
  unfold passed
  rw [hfresh.1]
  rfl

theorem viewed_first (hfirst : isSecondary s = false) : isSecondary (viewed rc s).2 = false :=
  (isSecondary_eq viewed_works.mode viewed_works.primary).trans hfirst

include hfresh in
theorem imaged_byte (hfirst : isSecondary s = false) {i : Nat} (hi : i < (rowImages rc s).length) :
    readByte (imaged rc s).2 (descAt rc 4).1 ((descAt rc 4).2 + i) = (rowImages rc s).getD i 0 := by
  have hlength : (rowImages rc s).length ≤ 2 ^ 64 := by
    have hrows := pkRows_le rc.packet
    rw [rowImages_length]
    omega
  unfold imaged
  rw [readByte_flushed _ _ _ _ _ (viewed_held hfresh) (viewed_first hfirst), spillWrites_bytes, lastWrite_place _ _ _ hlength i hi,
    List.getD_eq_getElem _ _ hi]
  rfl

include hfresh in
theorem imaged_poison (hfirst : isSecondary s = false) {r k : Nat} (hr : r < pkRows rc.packet) (hk : k < 4)
    (hpoison : (slotAt s (pkRow0 rc.packet + r)).poison = true) :
    sectorPoison (imaged rc s).2 (descAt rc 4).1 ((descAt rc 4).2 + 256 * r + 64 * k) = true := by
  have hlength : (rowImages rc s).length = 256 * pkRows rc.packet := rowImages_length rc s
  have hrows := pkRows_le rc.packet
  have hwritten := lastWrite_place (descAt rc 4).1 (descAt rc 4).2 (rowImages rc s) (by omega) (256 * r + 64 * k) (by omega)
  rw [← spillWrites_bytes, ← Nat.add_assoc] at hwritten
  have hmem : ((descAt rc 4).1, spaceAddr (descAt rc 4).1 ((descAt rc 4).2 + 256 * r + 64 * k) / 64)
      ∈ (spillWrites (viewed rc s).1 (viewed rc s).2).poisoned := by
    rw [spillWrites_eq]
    refine (rowPlaces_written 4 _ _ 256 (fun r => slotBytes_length (slotAt (viewed rc s).2 (pkRow0 rc.packet + r)))
      (fun r => (slotAt (viewed rc s).2 (pkRow0 rc.packet + r)).poison) _).2 r hr ?_ _ (mem_spaceSectors _ (by omega))
    rw [viewed_slot hr, slotViews_poison]
    exact hpoison
  exact flushed_poisoned (sectorFits_of_addr _ _) (viewed_held hfresh) (viewed_first hfirst) (touched_of_written hwritten) hmem

include hfresh in
theorem imaged_untroubled : Untroubled rc (imaged rc s).1 := by
  have hviewed := viewed_untroubled (s := s) hfresh
  obtain ⟨wrote, hcmd⟩ : ∃ wrote, (imaged rc s).1 = { (viewed rc s).1 with prog := { (viewed rc s).1.prog with
      held := [], wrote := wrote } } := ⟨_, rfl⟩
  rw [hcmd]
  generalize (viewed rc s).1 = c at hviewed
  exact { hviewed with }

/-- The command and the state before its completion: F0 has closed the slots. -/
def spilled (rc : RunCmd) (s : State) : RunCmd × State :=
  if pkF0 rc.packet then closeSlots (imaged rc s).1 (imaged rc s).2 else imaged rc s

/-- F0 closes the slots of the range and changes nothing else. -/
theorem closeSlots_setsRows (c : RunCmd) (u : State) :
    SetsRows (pkRow0 c.packet) (pkRows c.packet) (fun _ => Slot.zero) false (c, u) (closeSlots c u) := by
  unfold closeSlots rangeHandles span
  rw [List.foldl_map]
  exact (SetsRows.refl _ _ _).foldl_clean _

theorem closeSlots_samePoison (c : RunCmd) (u : State) : SamePoison u (closeSlots c u).2 := by
  unfold closeSlots
  generalize rangeHandles c = l
  induction l generalizing c u with
  | nil => exact SamePoison.refl u
  | cons h rest ih => exact SamePoison.trans (t := putSlot u h Slot.zero) .of_mem (ih _ _)

/-- What the command has come to when it completes. -/
structure Spills (rc : RunCmd) (s : State) (e : RunCmd × State) : Prop where
  cmd    : Untroubled rc e.1
  works  : Works s e.2
  rows   : ∀ r < pkRows rc.packet, slotAt e.2 (pkRow0 rc.packet + r)
    = if pkF0 rc.packet then Slot.zero else slotViews (slotAt s (pkRow0 rc.packet + r))
  others : ∀ h, ¬ inRange rc.packet h → slotAt e.2 h = slotAt s h
  bytes  : ∀ sp a, readByte e.2 sp a = readByte (imaged rc s).2 sp a
  poison : SamePoison (imaged rc s).2 e.2

include hfresh in
theorem spilled_spills : Spills rc s (spilled rc s) := by
  have hcmd := imaged_untroubled (s := s) hfresh
  have hother : ∀ h, ¬ inRange rc.packet h → slotAt (imaged rc s).2 h = slotAt s h := fun h hh =>
    (slotAt_slots imaged_slots h).trans (viewed_other hh)
  unfold spilled
  split
  · next hf0 =>
    have hclosed := closeSlots_setsRows (imaged rc s).1 (imaged rc s).2
    rw [hcmd.packet] at hclosed
    obtain ⟨hrows, hothers, hworks, hbytes, hchanged, hpoison, hsame⟩ := hclosed
    refine ⟨?_, imaged_works.trans hworks, fun r hr => by rw [if_pos hf0]; exact hrows r hr,
      fun h hh => (hothers h hh).trans (hother h hh), fun sp a => hbytes sp a (by simp [inRuns]), closeSlots_samePoison _ _⟩
    refine ⟨?_, ?_, ?_, ?_, ?_, ?_, ?_, ?_, fun h hh => (hchanged h hh).elim (hcmd.changed h) id⟩
    · rw [hsame]; exact hcmd.ring
    · rw [hsame]; exact hcmd.packet
    · rw [hsame]; exact hcmd.seq
    · rw [hsame]; exact hcmd.failed
    · rw [hsame]; exact hcmd.tainted
    · rw [hsame]; exact hcmd.flags
    · rw [hpoison, Bool.or_false]; exact hcmd.poison
    · rw [hsame]; exact hcmd.reduced
  · next hf0 =>
    refine ⟨hcmd, imaged_works, fun r hr => ?_, hother, fun _ _ => rfl, SamePoison.refl _⟩
    rw [if_neg hf0, slotAt_slots imaged_slots, viewed_slot hr]

end

theorem rowSpill_eq (rc : RunCmd) (s : State) :
    rowSpill (passed rc) s = completeCmd (spilled rc s).1 .ok 0 0 (pkRows rc.packet) (spilled rc s).2 := by
  obtain ⟨inputs, changed, hcmd⟩ := viewed_cmd rc s
  have hpacket : (viewed rc s).1.packet = rc.packet := by rw [hcmd]; rfl
  unfold rowSpill spilled
  dsimp only
  rw [← hpacket]
  rfl

end Sys2Proof.Machine

open Sys2Proof Sys2Proof.Machine Sys2Proof.Claims

/-- Settles O12: the images are written from the slots' views, then F0 closes the slots, and the completion touches neither bytes of
the images but its own nor the poison of any sector. -/
theorem rowstatSpillWritesImages : Obligations.RowstatSpillWritesImages := by
  unfold Obligations.RowstatSpillWritesImages
  intro s rc hissues hpasses hfresh
  have hspills := spilled_spills (s := s) hfresh
  have hrun := (rowCommand_runs (body := rowSpill) hissues hpasses).trans (rowSpill_eq rc s)
  generalize spilled rc s = e at hspills hrun
  have hstatus := hspills.cmd.status
  have hcached : (cacheEntry e.2 e.1.ring).isSome := by rw [hspills.cmd.ring, cacheEntry_eq hspills.works.cache]; exact hissues.cached
  obtain ⟨hnext, hcompleted, hframe⟩ := command_completes rc e.1 .ok 0 0 (pkRows rc.packet) hrun hissues.cached hspills.works
    hspills.cmd.ring hspills.cmd.packet hspills.cmd.seq
  refine ⟨_, ⟨hnext, hspills.cmd.cpl hfresh _ _ ▸ hcompleted, hframe⟩, ?_, ?_, ?_, ?_⟩
  · have hstands := completeCmd_stands (base := .ok) (k := 4) (bs := rowImages rc s) 0 0 (pkRows rc.packet) hissues.cached hspills.works
      hspills.cmd.ring hspills.cmd.packet (by simp [hstatus]) (by simp [hstatus])
      (fun hfirst i hi => (hspills.bytes _ _).trans (imaged_byte hfresh hfirst hi))
    rw [hstatus] at hstands
    exact hstands
  · intro hplain hchain hrecord hfirst r hr k hk hpoison
    have hctx := ctxOfRing_eq hspills.works.cache hissues.cached
    have hplain' : plainEnd e.2 e.1 (finalStatus e.1 .ok) := by
      unfold plainEnd ringDeferred at hplain ⊢
      rw [hstatus, hspills.cmd.ring, hctx, hspills.works.deferred]
      exact hplain
    rw [(completeCmd_samePoison e.1 .ok 0 0 _ e.2 hcached hplain' (by simp [hstatus]) (by simp [hstatus])
      (by rw [hspills.cmd.packet]; exact hchain) (by rw [hspills.cmd.packet]; exact hrecord)).sector, hspills.poison.sector]
    exact imaged_poison hfresh hfirst hr hk hpoison
  · intro r hr
    have hholds := completeCmd_holds e.1 .ok 0 0 (pkRows rc.packet) e.2 (pkRow0 rc.packet + r) (by simp [hstatus])
      (by simp [hspills.cmd.reduced])
    rw [hspills.rows r hr] at hholds
    unfold Holds at hholds ⊢
    rwa [hspills.cmd.packet] at hholds
  · intro h hh
    rw [completeCmd_slot _ _ _ _ _ _ _ (by simp [hstatus]) (by simp [hspills.cmd.reduced]) (.inr fun hc => hh (hspills.cmd.changed h hc))]
    exact hspills.others h hh

end


section
/-! SUPPORT. A CHAIN_ACC in expand mode (R278) whose row has two beats, alike in every bit: the command runs the first and discards
both, so that it never comes to its end. -/

namespace Sys2Proof.Machine

open Sys2Proof.Claims

/-! ## A pass that begins -/

/-- A command just started whose checks pass and that nothing bars begins its pass. -/
theorem passRow_begins {s : State} {rc : RunCmd} {op : Nat} (k : PassKind) (run : Run) (finish : RunCmd → State → State)
    (hissues : Issues s rc op) (hpasses : Passes s rc) (hunbarred : barred s (passed rc) = false) :
    issue op (passCommand k run finish) s
      = continuePass k run finish (beginPass k (passed rc) s).1 (beginPass k (passed rc) s).2 := by
  rw [issue_runs hissues.issues hissues.held hissues.running hissues.opcode, passCommand,
    checkedThen_good _ _ hpasses.unchecked hpasses.good, if_neg (by simp [hunbarred])]

theorem releaseHeld_nil {rc : RunCmd} (h : rc.prog.heldBeats = []) (s : State) : releaseHeld rc.prog.heldBeats rc s = (rc, s) := by
  rw [h, releaseHeld, ← h]

/-- A pass that is not over puts its command back as it stands. -/
theorem continuePass_of_open (k : PassKind) (finish : RunCmd → State → State) {rc : RunCmd} {s : State} {r : RunCmd × State}
    (hheld : rc.prog.heldBeats = [])
    (hruns : runVectors k (stepLimit s rc (psVectors rc - rc.prog.vector) none) rc s = r) (hopen : passOver r.1 = false) :
    continuePass k wholeRun finish rc s = setCmd r.2 r.1 := by
  unfold continuePass meetError stagedVector
  simp only [releaseHeld_nil hheld, wholeRun, hruns, hopen, Bool.not_false, Bool.true_or, if_true]

/-! ## Two beats -/

/-- INTAKE alone: port A expands FP32 from memory (RDMODE 1), port B takes the drain. -/
def expandWord : BitVec 512 := BitVec.ofNat 512 (1 + 2 ^ 6 + 2 * 2 ^ 15 + 14 * 2 ^ 17 + 2 ^ 26)

/-- CHAIN_ACC of VI 5 over one row of eight elements without a slot, four lanes to a vector, with port A's source alone. -/
def expandPacket : BitVec 512 :=
  BitVec.ofNat 512 (2 + 5 * 2 ^ 8 + 0x4000 * 2 ^ 64 + 0x8000 * 2 ^ 128 + 2 ^ 223 + 2 * 2 ^ 224 + 2 ^ 296 + 1 * 2 ^ 304)

def expandCmd : RunCmd :=
  { ring := 3, vi := 5, seq := 0, packet := expandPacket, descs := [(0, 0x1000)], tumbler := expandWord, poisonedFetch := false,
    latched := ⟨false, false, 0, false, false, 4, 0, 112, 0, false⟩, bank := some 0, tableId := 0, key := none, phase := .running,
    wait := .nothing, tainted := false, failed := none, retained := false, prog := Progress.zero }

/-- The context of its ring: RUNNING, its one command started, HALT at its reset value. -/
def expandCtx : RingCtx :=
  { cmdBase := 0x10000, cplBase := 0x20000, head := 1, tail := 1, cpli := 0, size := 6, sched := 1, halt := 0xEDC, key := 0,
    vsave := 0x40000, notify := 0, owner := 5, state := .running, prog := 0 }

/-- A beat of block 0 of row 0. -/
def firstBeat : Beat := ⟨[0], 0, 0, 0, 0⟩

/-- The beat as it stands in the queue, with the maxima of its groups (R32). -/
def firstEntry : DrainEntry := ⟨firstBeat, ⟨0, 0⟩, (List.range 16).map (fun g => ⟨0, 32 * g⟩)⟩

theorem prescanGroup_firstBeat (first n : Nat) : prescanGroup firstBeat first n = ⟨0, first⟩ := by
  have hlane : ∀ l, firstBeat.lanes.getD l 0 = 0 := by
    intro l
    cases l with
    | zero => rfl
    | succ l => rfl
  unfold prescanGroup
  rw [hlane]
  generalize List.range n = l
  induction l with
  | nil => rfl
  | cons i rest ih => rw [List.foldl_cons, hlane, show laneMaxOf ⟨0, first⟩ ⟨0, first + i⟩ = ⟨0, first⟩ from rfl, ih]

theorem firstEntry_eq : firstEntry = prescan firstBeat := by
  unfold prescan firstEntry
  simp only [prescanGroup_firstBeat]

/-- The unit with the command at work and two such beats in the drain's queue. -/
def twoBeatsState : State :=
  { State.reset with
    ctl := { State.reset.ctl with state := .active, fence := false, refuse := false, ringsLost := false, resetSinceFence := false }
    pwr := { State.reset.pwr with grant := 88 }
    drain := ⟨[firstEntry, firstEntry], 60, 0⟩
    rings := { State.reset.rings with cache := [⟨3, expandCtx, true⟩], cmds := [expandCmd], holder := some 3 } }

theorem twoBeats_ready : DrainReady twoBeatsState expandCmd 0x02 where
  issues := by decide +kernel
  held := by decide +kernel
  running := rfl
  opcode := by decide +kernel
  cached := by decide +kernel
  unchecked := rfl
  good := by decide +kernel
  fresh := ⟨rfl, rfl, rfl⟩
  unbarred := by decide +kernel
  drains := by decide +kernel
  beats := by decide +kernel
  whole := .inr (by decide +kernel)

/-- The command as its pass begins, and once its first vector has run. -/
def twoBeatsBegun : RunCmd × State := beginPass plainPass (passed expandCmd) twoBeatsState
def twoBeatsRun : Bool × RunCmd × State := nextVector plainPass none twoBeatsBegun.1 twoBeatsBegun.2

theorem twoBeatsBegun_open : passOver twoBeatsBegun.1 = false ∧ twoBeatsBegun.1.prog.heldBeats = [] ∧ psVectors twoBeatsBegun.1 = 2
    ∧ twoBeatsBegun.1.prog.vector = 0 := by decide +kernel

/-- Its vector has run, and no beat is left, in the queue or waiting. -/
theorem twoBeatsRun_first : twoBeatsRun.1 = true ∧ twoBeatsRun.2.1.prog.waiting = [] ∧ twoBeatsRun.2.1.prog.ready = []
    ∧ twoBeatsRun.2.2.drain.queue = [] := by decide +kernel

theorem twoBeatsRun_open : twoBeatsRun.2.1.prog.ended = none ∧ twoBeatsRun.2.1.prog.vector = 1 ∧ passOver twoBeatsRun.2.1 = false
    ∧ beatsWait twoBeatsRun.2.1 = true ∧ twoBeatsRun.2.1.ring = 3 := by decide +kernel

/-- Without a beat there is no next vector. -/
theorem nextVector_of_noBeat (k : PassKind) {rc : RunCmd} {s : State} (hwait : beatsWait rc = true) (hended : rc.prog.ended = none)
    (hready : rc.prog.ready = []) (hwaiting : rc.prog.waiting = []) (hqueue : s.drain.queue = []) :
    nextVector k none rc s = (false, rc, s) := by
  have hnone : runnable rc = [] := by
    unfold runnable
    simp [hwaiting]
  unfold nextVector
  simp only [hwait, hqueue, List.length_nil, gatherBeats, hended, Option.isSome_none, if_true, Bool.false_eq_true, if_false]
  unfold nextWaiting
  simp only [hready, hnone]

theorem twoBeats_runVectors : runVectors plainPass 2 twoBeatsBegun.1 twoBeatsBegun.2 = twoBeatsRun.2 := by
  obtain ⟨hopen, -, -, -⟩ := twoBeatsBegun_open
  obtain ⟨hran, hwaiting, hready, hqueue⟩ := twoBeatsRun_first
  obtain ⟨hended, -, hopen', hwait, -⟩ := twoBeatsRun_open
  have hnext := nextVector_of_noBeat plainPass hwait hended hready hwaiting hqueue
  unfold runVectors
  rw [if_neg (by simp [hopen])]
  dsimp only
  rw [show (nextVector plainPass none twoBeatsBegun.1 twoBeatsBegun.2) = twoBeatsRun from rfl, if_pos hran]
  unfold runVectors
  rw [if_neg (by simp [hopen'])]
  dsimp only
  rw [hnext, if_neg (by simp)]

theorem twoBeats_unended : (passEnd plainPass (passed expandCmd) twoBeatsState).1.prog.ended = none := by
  obtain ⟨-, -, hvectors, -⟩ := twoBeatsBegun_open
  have hend : passEnd plainPass (passed expandCmd) twoBeatsState
      = endPass (runVectors plainPass (psVectors twoBeatsBegun.1) twoBeatsBegun.1 twoBeatsBegun.2).1
          (runVectors plainPass (psVectors twoBeatsBegun.1) twoBeatsBegun.1 twoBeatsBegun.2).2 := rfl
  rw [hend, hvectors, twoBeats_runVectors]
  have hended := twoBeatsRun_open.1
  generalize twoBeatsRun.2 = r at hended ⊢
  exact (endPass_does r.1 r.2).cmd.ended.trans hended

/-- The pass is not over: the command is put back as it stands. -/
theorem twoBeats_goesOn : chainAccRow wholeRun twoBeatsState = setCmd twoBeatsRun.2.2 twoBeatsRun.2.1 := by
  obtain ⟨-, hheld, hvectors, hvector⟩ := twoBeatsBegun_open
  have hlimit : stepLimit twoBeatsBegun.2 twoBeatsBegun.1 2 none = 2 := by decide +kernel
  have hbegins : chainAccRow wholeRun twoBeatsState = continuePass plainPass wholeRun finishChain twoBeatsBegun.1 twoBeatsBegun.2 :=
    passRow_begins plainPass wholeRun finishChain twoBeats_ready.toIssues twoBeats_ready.toPasses twoBeats_ready.unbarred
  rw [hbegins]
  refine continuePass_of_open plainPass finishChain hheld ?_ twoBeatsRun_open.2.2.1
  rw [hvectors, hvector, hlimit, twoBeats_runVectors]

/-- A CHAIN_ACC that is put back is still the command of its ring after the step. -/
theorem cmdOf_of_putBack {s t : State} {r : RunCmd × State} (hrow : chainAccRow wholeRun s = setCmd r.2 r.1)
    (hexec : exec (.chainAcc wholeRun) s = .next t) : cmdOf t r.1.ring = some r.1 := by
  have hnext : exec (.chainAcc wholeRun) s = .next { setCmd r.2 r.1 with pending := s.pending, cfg := s.cfg } := command_to hrow
  obtain rfl := Host.Outcome.next.inj (hnext.symm.trans hexec)
  exact cmdOf_setCmd_same r.2 r.1

end Sys2Proof.Machine

open Sys2Proof Sys2Proof.Machine Sys2Proof.Claims

/-- Refutes O15: in expand mode the waiting beats that equal the one that runs leave the queue with it, so of two equal beats one is
lost, and CHAIN_ACC waits for a beat that has come. -/
theorem not_chainPassesComplete : ¬ Obligations.ChainPassesComplete := by
  unfold Obligations.ChainPassesComplete
  intro h
  obtain ⟨-, hacc, -⟩ := h twoBeatsState expandCmd
  obtain ⟨t, hexec, hcompleted, -, -⟩ := hacc _ twoBeats_ready rfl rfl twoBeats_unended
  have hcmd := cmdOf_of_putBack twoBeats_goesOn hexec
  rw [twoBeatsRun_open.2.2.2.2, show cmdOf t 3 = none from hcompleted.gone] at hcmd
  cases hcmd

end


section
/-! SUPPORT. What every vector of a pass leaves of its command: the failure that SELECT alone notes, and the fills that only bucket
records change. -/

namespace Sys2Proof.Machine

open Sys2Proof.Claims

/-- The same packet's command has noted no failure and no fill that it had not noted before; it is checked, and arbitration has
decided, where it was. -/
structure Steady (a b : RunCmd) : Prop where
  packet  : b.packet = a.packet
  failed  : b.failed = a.failed
  fills   : b.prog.fills = a.prog.fills
  checked : b.prog.checked = a.prog.checked
  decided : b.prog.decided = a.prog.decided

theorem Steady.refl (a : RunCmd) : Steady a a := ⟨rfl, rfl, rfl, rfl, rfl⟩

theorem Steady.trans {a b c : RunCmd} (h : Steady a b) (k : Steady b c) : Steady a c :=
  ⟨k.packet.trans h.packet, k.failed.trans h.failed, k.fills.trans h.fills, k.checked.trans h.checked, k.decided.trans h.decided⟩

theorem Steady.foldl {β : Type} (f : RunCmd → β → RunCmd) (hf : ∀ a x, Steady a (f a x)) (l : List β) (a : RunCmd) :
    Steady a (l.foldl f a) := by
  induction l generalizing a with
  | nil => exact Steady.refl a
  | cons x rest ih => exact (hf a x).trans (ih _)

/-- A fold that carries the command with something else. -/
theorem Steady.foldl_on {α β : Type} (g : α → RunCmd) (f : α → β → α) (hf : ∀ a x, Steady (g a) (g (f a x))) (l : List β) (a : α) :
    Steady (g a) (g (l.foldl f a)) := by
  induction l generalizing a with
  | nil => exact Steady.refl _
  | cons x rest ih => exact (hf a x).trans (ih _)

/-! ## EMIT -/

theorem placeScalars_steady (rc : RunCmd) (es : List Elem) : Steady rc (placeScalars rc es).1 := by
  unfold placeScalars
  dsimp only
  refine Steady.foldl_on Prod.fst _ (fun a e => ?_) _ (rc, VecWrites.empty)
  exact ⟨rfl, rfl, rfl, rfl, rfl⟩

theorem emitScalars_steady (rc : RunCmd) (v : Nat) (es : List Elem) : Steady rc (emitScalars rc v es).rc := by
  unfold emitScalars
  dsimp only
  split
  · exact ⟨rfl, rfl, rfl, rfl, rfl⟩
  · exact placeScalars_steady _ _

theorem finishPacked_steady (rc : RunCmd) : Steady rc (finishPacked rc).rc := by
  unfold finishPacked
  have hempty : Steady rc { rc with prog := { rc.prog with packPend := [] } } := ⟨rfl, rfl, rfl, rfl, rfl⟩
  exact hempty.trans (Steady.foldl_on Prod.fst (fun (o : RunCmd × VecWrites) (x : Nat × List Elem) =>
    ((placeScalars o.1 x.2).1, o.2.append (placeScalars o.1 x.2).2)) (fun a x => placeScalars_steady a.1 x.2) _ (_, VecWrites.empty))

theorem emitTagged_steady (rc : RunCmd) (p : Bool) (l : List BlockItem) : Steady rc (emitTagged rc p l).rc := by
  have hgroup : Steady rc (if p then enterGroup rc ((l.map (fun x => x.block)).headD 0) else (rc, VecWrites.empty)).1 := by
    split
    · unfold enterGroup
      split <;> exact ⟨rfl, rfl, rfl, rfl, rfl⟩
    · exact Steady.refl rc
  unfold emitTagged
  dsimp only
  generalize (if p then enterGroup rc ((l.map (fun x => x.block)).headD 0) else (rc, VecWrites.empty)) = g at hgroup
  split <;> exact hgroup.trans ⟨rfl, rfl, rfl, rfl, rfl⟩

theorem emitBlocks_steady (rc : RunCmd) (v : Nat) (one : RunCmd → List BlockItem → BlockOut) (hone : ∀ r g, Steady r (one r g).rc)
    (l : List BlockItem) : Steady rc (emitBlocks rc v one l).rc := by
  have hsum : ∀ (r : RunCmd) (l : List (Nat × W64 × W64)), Steady r (addSqnr r v l) := by
    intro r l
    unfold addSqnr
    split <;> exact ⟨rfl, rfl, rfl, rfl, rfl⟩
  unfold emitBlocks
  exact (Steady.foldl_on (fun (a : EmitOut × List (Nat × W64 × W64)) => a.1.rc) _ (fun a g => hone a.1.rc g) (groupBlocks l)
    (⟨rc, VecWrites.empty, []⟩, [])).trans (hsum _ _)

theorem emitPending_steady (n : Nat) (o : EmitOut) : Steady o.rc (emitPending n o).rc := by
  induction n generalizing o with
  | zero => exact Steady.refl _
  | succ n ih =>
    unfold emitPending
    split
    · exact Steady.refl _
    · dsimp only
      refine Steady.trans ?_ (ih _)
      refine Steady.trans ?_ (emitBlocks_steady _ _ _ (fun r g => emitTagged_steady r true g) _)
      exact ⟨rfl, rfl, rfl, rfl, rfl⟩

theorem emitTaggedVector_steady (rc : RunCmd) (v : Nat) (l : List BlockItem) : Steady rc (emitTaggedVector rc v l).rc := by
  unfold emitTaggedVector
  split
  · exact emitBlocks_steady _ _ _ (fun r g => emitTagged_steady r false g) _
  · refine Steady.trans ?_ (emitPending_steady _ _)
    exact ⟨rfl, rfl, rfl, rfl, rfl⟩

theorem emitVector_steady (rc : RunCmd) (v : Nat) (es : List Elem) (f : RegFile) : Steady rc (emitVector rc v es f).1.rc := by
  have hmem : ∀ mem : Bool, Steady rc (if !mem then
        ⟨(es.filter (emitsElem rc)).foldl countKept rc, VecWrites.empty, []⟩
      else if tFmt rc.tumbler = codeTagged then withUses rc es (emitTaggedVector rc v (blockItems rc es))
      else if isMx (tFmt rc.tumbler) then withUses rc es (emitBlocks rc v emitMx (blockItems rc es))
      else emitScalars rc v es : EmitOut).rc := by
    intro mem
    split
    · exact Steady.foldl countKept (fun a e => ⟨rfl, rfl, rfl, rfl, rfl⟩) _ rc
    · split
      · exact emitTaggedVector_steady _ _ _
      · split
        · exact emitBlocks_steady _ _ emitMx (fun r g => ⟨rfl, rfl, rfl, rfl, rfl⟩) _
        · exact emitScalars_steady _ _ _
  unfold emitVector
  dsimp only
  split
  · exact Steady.refl _
  · split
    · exact (hmem _).trans ⟨rfl, rfl, rfl, rfl, rfl⟩
    · exact hmem _

theorem finishEmit_steady (rc : RunCmd) : Steady rc (finishEmit rc).rc := by
  unfold finishEmit
  split
  · exact finishPacked_steady _
  · refine Steady.foldl_on EmitOut.rc _ (fun o x => ?_) rc.prog.tagPend ⟨rc, VecWrites.empty, []⟩
    refine Steady.trans ?_ (emitBlocks_steady _ _ _ (fun r g => emitTagged_steady r true g) x.2)
    exact ⟨rfl, rfl, rfl, rfl, rfl⟩

/-! ## INTAKE and the slots -/

theorem addInput_steady (rc : RunCmd) (k : Nat) (bs : List Byte) : Steady rc (addInput rc k bs) := by
  unfold addInput
  split <;> exact ⟨rfl, rfl, rfl, rfl, rfl⟩

theorem takeIn_steady (s : State) (rc : RunCmd) (v : VecIn) : Steady rc (takeIn s rc v).1 := by
  have htaken : Steady rc { rc with prog := { rc.prog with taken := (intake s rc v).taken } } := ⟨rfl, rfl, rfl, rfl, rfl⟩
  exact htaken.trans (Steady.foldl _ (fun (r : RunCmd) (b : Nat × List Byte) => addInput_steady r b.1 b.2) _ _)

theorem formRow_steady (s : State) (rc : RunCmd) (stamp : Nat) (vs : List VecIn) : Steady rc (formRow s rc stamp vs).1 := by
  unfold formRow
  dsimp only
  generalize hr : List.foldl _ (rc, s, []) vs = r
  have htaken : Steady rc r.1 := by
    rw [← hr]
    refine Steady.foldl_on (fun (a : RunCmd × State × List ReadyVec) => a.1) _ (fun a v => ?_) vs (rc, s, [])
    exact takeIn_steady a.2.1 a.1 v
  exact htaken.trans ⟨rfl, rfl, rfl, rfl, rfl⟩

theorem formVector_steady (s : State) (rc : RunCmd) (v : VecIn) : Steady rc (formVector s rc v).rc := by
  unfold formVector
  split
  · have hrow : Steady rc (if rc.prog.ready.isEmpty then formRow s rc 0 (rowVectors rc v) else (rc, s)).1 := by
      split
      · exact formRow_steady _ _ _ _
      · exact Steady.refl _
    dsimp only
    generalize (if rc.prog.ready.isEmpty then formRow s rc 0 (rowVectors rc v) else (rc, s)) = a at hrow ⊢
    split
    · exact hrow
    · exact hrow.trans ⟨rfl, rfl, rfl, rfl, rfl⟩
  · exact takeIn_steady _ _ _

theorem applyReduction_steady (rc : RunCmd) (h : Nat) (r : Reduction) (s : State) : Steady rc (applyReduction rc h r s).1 := by
  unfold applyReduction
  split <;> exact ⟨rfl, rfl, rfl, rfl, rfl⟩

theorem applyDecision_steady (d : SoftStep) (rc : RunCmd) (s : State) : Steady rc (applyDecision d rc s).1 := by
  unfold applyDecision
  split
  · exact Steady.refl _
  · split
    · exact Steady.refl _
    · exact ⟨rfl, rfl, rfl, rfl, rfl⟩

theorem outWrites_steady (rc : RunCmd) (b : Bool) (w : VecWrites) (s : State) : Steady rc (outWrites rc b w s).1 := by
  unfold outWrites
  split <;> exact ⟨rfl, rfl, rfl, rfl, rfl⟩

theorem rowStarts_steady (s : State) (rc : RunCmd) (row : Nat) : Steady rc (rowStarts s rc row) := by
  have hinput : ∀ (b : Prop) [Decidable b] (r : RunCmd) (k : Nat) (bs : List Byte), Steady r (if b then addInput r k bs else r) := by
    intro b _ r k bs
    split
    · exact addInput_steady _ _ _
    · exact Steady.refl _
  have hsnap : Steady rc (if psHasSlot rc row then
      { rc with prog := { rc.prog with snap := spPut rc.prog.snap row (slotAt s (psSlot rc row)) } } else rc) := by
    split <;> exact ⟨rfl, rfl, rfl, rfl, rfl⟩
  exact (hsnap.trans (hinput _ _ _ _)).trans (hinput _ _ _ _)

/-! ## A property of the command through its pass -/

section

variable {P : RunCmd → Prop} (hsteady : ∀ a b, Steady a b → P a → P b) {k : PassKind}
  (hwrite : ∀ s rc v es, P rc → P (k.writer.write s rc v es).1.rc)
include hsteady hwrite

theorem finishVector_keeps (v : Nat) (d : SoftStep) (raising : Bool) (n : Nat) (es : List Elem) {rc : RunCmd} (s : State) (h : P rc) :
    P (finishVector k.writer v d raising n es rc s).1 := by
  unfold finishVector
  dsimp only
  split
  · exact hsteady rc _ ⟨rfl, rfl, rfl, rfl, rfl⟩ h
  · refine hsteady _ _ (outWrites_steady _ _ _ _) (hsteady _ _ (Steady.foldl_on Prod.fst _
      (fun (a : RunCmd × State) (r : Nat × Reduction) => applyReduction_steady a.1 r.1 r.2 a.2) _ (_, _)) (hsteady (k.writer.write _ _ v es).1.rc _ ⟨rfl, rfl, rfl, rfl, rfl⟩
      (hwrite _ _ _ _ (hsteady _ _ (applyDecision_steady _ _ _) (hsteady rc _ ⟨rfl, rfl, rfl, rfl, rfl⟩ h)))))

theorem runVector_keeps {v : VecIn} {rc : RunCmd} {s : State} {r : RunCmd × State} (hrun : runVector k v rc s = some r) (h : P rc) :
    P r.1 := by
  unfold runVector at hrun
  dsimp only at hrun
  obtain ⟨-, hrun⟩ := Option.ite_none_left_eq_some.mp hrun
  rw [← Option.some.inj hrun]
  exact finishVector_keeps hsteady hwrite _ _ _ _ _ _ (hsteady _ _ (formVector_steady s rc v) h)

theorem nextVector_keeps {rc : RunCmd} (hdrains : psDrains rc = false) (s : State) (h : P rc) : P (nextVector k none rc s).2.1 := by
  unfold nextVector beatsWait
  simp only [hdrains, Bool.false_and, Bool.false_eq_true, if_false]
  split
  · next r hr => exact runVector_keeps hsteady hwrite hr (hsteady _ _ (Steady.foldl _ (fun a x => rowStarts_steady s a x) _ rc) h)
  · exact h

end

theorem endPass_steady (rc : RunCmd) (s : State) : Steady rc (endPass rc s).1 := by
  have hsummed : Steady rc (sumSqnr (finishEmit rc).rc) := (finishEmit_steady rc).trans ⟨rfl, rfl, rfl, rfl, rfl⟩
  have hsource : Steady rc (drainSource (sumSqnr (finishEmit rc).rc)) := hsummed.trans (addInput_steady _ _ _)
  unfold endPass
  dsimp only
  generalize drainSource (sumSqnr (finishEmit rc).rc) = c at hsource ⊢
  exact hsource.trans ⟨rfl, rfl, rfl, rfl, rfl⟩

/-! ## Vectors that may trap -/

/-- What a command's work leaves of the command and of the unit, whether it ends it or not. -/
structure Goes (a b : RunCmd × State) : Prop where
  cmd   : b.1 = { a.1 with prog := b.1.prog, failed := b.1.failed }
  beats : b.1.prog.heldBeats = a.1.prog.heldBeats
  works : Works a.2 b.2

theorem Goes.refl (a : RunCmd × State) : Goes a a := ⟨rfl, rfl, Works.refl _⟩

theorem Goes.trans {a b c : RunCmd × State} (h : Goes a b) (k : Goes b c) : Goes a c := by
  refine ⟨?_, k.beats.trans h.beats, h.works.trans k.works⟩
  rw [k.cmd, h.cmd]

theorem Does.goes {a b : RunCmd × State} (h : Does a b) : Goes a b := by
  refine ⟨?_, h.cmd.heldBeats, h.works⟩
  have hcmd := h.cmd
  unfold SameCmd at hcmd
  rw [hcmd]

section

variable {a b : RunCmd × State} (h : Goes a b)
include h

theorem Goes.ring : b.1.ring = a.1.ring := by rw [h.cmd]
theorem Goes.packet : b.1.packet = a.1.packet := by rw [h.cmd]
theorem Goes.seq : b.1.seq = a.1.seq := by rw [h.cmd]
theorem Goes.tumbler : b.1.tumbler = a.1.tumbler := by rw [h.cmd]
theorem Goes.latched : b.1.latched = a.1.latched := by rw [h.cmd]
theorem Goes.tainted : b.1.tainted = a.1.tainted := by rw [h.cmd]
theorem Goes.drains : psDrains b.1 = psDrains a.1 := by unfold psDrains; rw [h.tumbler]
theorem Goes.vectors : psVectors b.1 = psVectors a.1 := by rw [h.cmd]; rfl

end

/-- One vector has run, and may have met the trap. -/
structure Ran (a b : RunCmd × State) : Prop extends Goes a b where
  vector : b.1.prog.vector = a.1.prog.vector + 1
  ended  : b.1.prog.ended = a.1.prog.ended ∨ b.1.prog.ended = some .trapNan ∧ a.1.latched.nanTrap = true

theorem Goes.ran {a b c : RunCmd × State} (h : Goes a b) (hvector : b.1.prog.vector = a.1.prog.vector)
    (hended : b.1.prog.ended = a.1.prog.ended) (k : Ran b c) : Ran a c := by
  refine ⟨h.trans k.toGoes, by rw [k.vector, hvector], ?_⟩
  rw [← hended, ← h.latched]
  exact k.ended

theorem Does.ran {a b c : RunCmd × State} (h : Does a b) (k : Ran b c) : Ran a c := h.goes.ran h.cmd.vector h.cmd.ended k

theorem Ran.trans_does {a b c : RunCmd × State} (h : Ran a b) (k : Does b c) : Ran a c :=
  ⟨h.toGoes.trans k.goes, by rw [k.cmd.vector, h.vector], by rw [k.cmd.ended]; exact h.ended⟩

theorem vectorTrap_latched {rc : RunCmd} {es : List Elem} {rs : List (Nat × Reduction)} {x : Trap} (h : vectorTrap rc es rs = some x) :
    rc.latched.nanTrap = true := by
  unfold vectorTrap at h
  by_contra hno
  simp [hno] at h

section

variable {k : PassKind} (htame : k.writer.tame)
include htame

/-- A vector whose elements meet no trap, or that the trap ends: one more has run. -/
theorem finishVector_ran (v : Nat) (d : SoftStep) (n : Nat) (es : List Elem) {rc : RunCmd} (s : State) (hbeats : rc.prog.heldBeats = []) :
    Ran (rc, s) (finishVector k.writer v d false n es rc s) := by
  unfold finishVector
  dsimp only
  split
  · next x hx => exact ⟨⟨rfl, rfl, recordTrap_works _ _ _⟩, rfl, .inr ⟨rfl, vectorTrap_latched hx⟩⟩
  · generalize hmet : ({ rc.prog with flags := _, poisonIn := _, vector := _ } : Progress) = met
    have hstart : Ran (rc, s) ({ rc with prog := met }, s) := by
      rw [← hmet]
      exact ⟨⟨rfl, rfl, Works.refl s⟩, rfl, .inl rfl⟩
    have hbeats' : ∀ x : RunCmd × State, Does ({ rc with prog := met }, s) x → x.1.prog.heldBeats = [] := fun x h =>
      h.cmd.heldBeats.trans (by rw [← hmet]; exact hbeats)
    have hout : ∀ (x : RunCmd × State) (w : VecWrites), Does ({ rc with prog := met }, s) x →
        Does ({ rc with prog := met }, s) (outWrites x.1 false w x.2) := fun x w h => h.trans (outWrites_does _ _ _ (hbeats' x h))
    have hlast : ∀ (x : RunCmd × State) (l : List Nat), Does x (x.1, forwardEarly x.1 es (lockstepFold l x.2)) := fun x l =>
      ⟨SameCmd.refl _, (lockstepFold_aside _ _).toNear.works.trans (forwardEarly_works _ _ _)⟩
    have hdecided := applyDecision_does d { rc with prog := met } s
    generalize applyDecision d { rc with prog := met } s = a at hdecided ⊢
    have hwritten := htame a.2 a.1 v es
    generalize k.writer.write a.2 a.1 v es = o at hwritten ⊢
    refine hstart.trans_does (Does.trans (hout _ _ ?_) (hlast _ _))
    refine Does.trans ?_ (Does.foldl _ (fun a r => applyReduction_does _ _ _ _) _ _)
    exact ⟨hdecided.cmd.trans (hwritten.1.trans rfl), (hdecided.works.trans hwritten.2).trans
      ((countBlocks_works _ _ _ _).trans (countEvent_works _ _ _ _))⟩

theorem runVector_ran {v : VecIn} (hbeat : v.beat = none) {rc : RunCmd} (s : State) (hbeats : rc.prog.heldBeats = []) :
    ∃ r, runVector k v rc s = some r ∧ Ran (rc, s) r := by
  have hformed := formVector_does s rc v
  unfold runVector
  generalize formVector s rc v = f at hformed
  simp only [hbeat, Option.isSome_none, Bool.and_false, Bool.false_and, Bool.false_eq_true, if_false]
  refine ⟨_, rfl, Does.ran ?_ (finishVector_ran htame _ _ _ _ _ (hformed.cmd.heldBeats.trans hbeats))⟩
  refine ⟨hformed.cmd, hformed.works.trans ?_⟩
  exact ((countEvent_works _ _ _ _).trans (countEvent_works _ _ _ _)).trans
    ((countEvent_works _ _ _ _).trans (countEvent_works _ _ _ _))

theorem nextVector_ran {rc : RunCmd} (s : State) (hdrains : psDrains rc = false) (hbeats : rc.prog.heldBeats = []) :
    (nextVector k none rc s).1 = true ∧ Ran (rc, s) (nextVector k none rc s).2 := by
  unfold nextVector beatsWait
  simp only [hdrains, Bool.false_and, Bool.false_eq_true, if_false]
  have hrows : ∀ l : List Nat, SameCmd rc (l.foldl (rowStarts s) rc) := fun l => sameCmd_foldl _ (fun r x => rowStarts_same s r x) l rc
  generalize ((vectorSpots rc rc.prog.vector).filter (fun x => decide (x.j = 0))).map (fun x => x.row) = l
  obtain ⟨r, hrun, hran⟩ := runVector_ran htame (v := ⟨rc.prog.vector, vectorSpots rc rc.prog.vector, none, none⟩) rfl
    (rc := l.foldl (rowStarts s) rc) s ((hrows l).heldBeats.trans hbeats)
  rw [hrun]
  exact ⟨rfl, Does.ran (b := (l.foldl (rowStarts s) rc, s)) ⟨hrows l, Works.refl s⟩ hran⟩

/-- As many vectors run as are asked for, unless the trap ends the pass. -/
theorem runVectors_ran (n : Nat) {rc : RunCmd} (s : State) (hdrains : psDrains rc = false) (hbeats : rc.prog.heldBeats = [])
    (hended : rc.prog.ended = none) (hn : rc.prog.vector + n ≤ psVectors rc) :
    Goes (rc, s) (runVectors k n rc s)
      ∧ ((runVectors k n rc s).1.prog.ended = none ∧ (runVectors k n rc s).1.prog.vector = rc.prog.vector + n
        ∨ (runVectors k n rc s).1.prog.ended = some .trapNan ∧ rc.latched.nanTrap = true) := by
  induction n generalizing rc s with
  | zero => exact ⟨Goes.refl _, .inl ⟨hended, rfl⟩⟩
  | succ n ih =>
    have hopen : passOver rc = false := by
      unfold passOver
      simp only [hdrains, hended, Option.isSome_none, Bool.and_false, Bool.or_false, decide_eq_false_iff_not]
      omega
    obtain ⟨htrue, hran⟩ := nextVector_ran htame s hdrains hbeats
    unfold runVectors
    simp only [hopen, Bool.false_eq_true, if_false, htrue, if_true]
    generalize (nextVector k none rc s).2 = r at hran
    have hvector : r.1.prog.vector = rc.prog.vector + 1 := hran.vector
    have hvectors : psVectors r.1 = psVectors rc := hran.vectors
    rcases hran.ended with hstill | ⟨htrap, hlatched⟩
    · obtain ⟨hgoes, hend⟩ := ih r.2 (hran.drains.trans hdrains) (hran.beats.trans hbeats) (hstill.trans hended)
        (by omega)
      refine ⟨hran.toGoes.trans hgoes, hend.imp (fun h => ⟨h.1, ?_⟩) (fun h => ⟨h.1, hran.latched ▸ h.2⟩)⟩
      omega
    · have hover : runVectors k n r.1 r.2 = r := by
        have hdone : passOver r.1 = true := by
          unfold passOver
          rw [hran.drains, hdrains, htrap]
          simp
        cases n with
        | zero => rfl
        | succ n =>
          unfold runVectors
          rw [if_pos hdone]
      rw [hover]
      exact ⟨hran.toGoes, .inr ⟨htrap, hlatched⟩⟩

/-- What each vector keeps of the command, a pass from memory keeps. -/
theorem runVectors_keeps {P : RunCmd → Prop} (hsteady : ∀ a b, Steady a b → P a → P b)
    (hwrite : ∀ s rc v es, P rc → P (k.writer.write s rc v es).1.rc) (n : Nat) {rc : RunCmd} (s : State) (hdrains : psDrains rc = false)
    (hbeats : rc.prog.heldBeats = []) (h : P rc) : P (runVectors k n rc s).1 := by
  induction n generalizing rc s with
  | zero => exact h
  | succ n ih =>
    obtain ⟨htrue, hran⟩ := nextVector_ran htame s hdrains hbeats
    unfold runVectors
    split
    · exact h
    · simp only [htrue, if_true]
      exact ih _ (hran.drains.trans hdrains) (hran.beats.trans hbeats) (nextVector_keeps hsteady hwrite hdrains s h)

end

end Sys2Proof.Machine
end


section
/-! SUPPORT. Passes that run from memory to their end in one step, by the trap or without it; the commands that are one such pass. -/

namespace Sys2Proof.Machine

open Sys2Proof.Claims

/-! ## The end of a whole pass -/

theorem passed_heldBeats {rc : RunCmd} (h : Fresh rc) : (passed rc).prog.heldBeats = [] := by
  unfold passed
  rw [h.1]
  rfl

theorem passed_ended {rc : RunCmd} (h : Fresh rc) : (passed rc).prog.ended = none := by
  unfold passed
  rw [h.1]
  rfl

theorem passed_vector {rc : RunCmd} (h : Fresh rc) : (passed rc).prog.vector = 0 := by
  unfold passed
  rw [h.1]
  rfl

/-- The vectors of a whole pass, from its beginning: all run, unless the trap ends them. -/
theorem passVectors_ran {k : PassKind} (htame : k.writer.tame) {rc : RunCmd} {s : State} (hdrains : psDrains rc = false)
    (hbeats : rc.prog.heldBeats = []) (hended : rc.prog.ended = none) (hvector : rc.prog.vector = 0) {b r : RunCmd × State}
    (hb : b = beginPass k rc s) (hr : r = runVectors k (psVectors b.1) b.1 b.2) :
    Goes (rc, s) r ∧ (r.1.prog.ended = none ∧ r.1.prog.vector = psVectors rc ∨ r.1.prog.ended = some .trapNan ∧ rc.latched.nanTrap = true) := by
  have hbegun : Does (rc, s) b := hb ▸ beginPass_does k rc s
  have hvectors : psVectors b.1 = psVectors rc := hbegun.cmd.vectors
  have hvector' : b.1.prog.vector = 0 := hbegun.cmd.vector.trans hvector
  obtain ⟨hgoes, hend⟩ := runVectors_ran htame (psVectors b.1) b.2 (hbegun.goes.drains.trans hdrains)
    (hbegun.goes.beats.trans hbeats) (hbegun.cmd.ended.trans hended) (by omega)
  rw [← hr] at hgoes hend
  have hlatched : b.1.latched = rc.latched := hbegun.cmd.latched
  refine ⟨hbegun.goes.trans hgoes, hend.imp (fun h => ⟨h.1, ?_⟩) (fun h => ⟨h.1, hlatched ▸ h.2⟩)⟩
  omega

theorem passEnd_goes {k : PassKind} (htame : k.writer.tame) {rc : RunCmd} {s : State} (hdrains : psDrains rc = false)
    (hbeats : rc.prog.heldBeats = []) (hended : rc.prog.ended = none) (hvector : rc.prog.vector = 0) :
    Goes (rc, s) (passEnd k rc s)
      ∧ ((passEnd k rc s).1.prog.ended = none ∨ (passEnd k rc s).1.prog.ended = some .trapNan ∧ rc.latched.nanTrap = true) := by
  obtain ⟨hran, hend⟩ := passVectors_ran htame hdrains hbeats hended hvector rfl rfl
  unfold passEnd
  dsimp only
  generalize runVectors k _ _ _ = r at hran hend
  have hlast := endPass_does r.1 r.2
  refine ⟨hran.trans hlast.goes, ?_⟩
  rw [hlast.cmd.ended]
  exact hend.imp And.left id

/-- From the start of a pass that no other ring can interrupt, one step may take all of it. -/
theorem stepLimit_whole {s t : State} {rc : RunCmd} (hvector : rc.prog.vector = 0) (hctx : ctxOfRing t rc.ring = ctxOfRing s rc.ring)
    (hwhole : oneSegment s rc) : stepLimit t rc (psVectors rc - rc.prog.vector) none = psVectors rc := by
  have hat : atSegment t rc = false := by
    unfold atSegment isBoundary
    simp [hvector]
  unfold stepLimit
  simp only [hat, Bool.false_eq_true, if_false, hctx, hvector, Nat.sub_zero, Option.getD_none, Nat.min_self]
  split
  · next hregs =>
    rcases hwhole with hno | hbounds
    · rw [hno] at hregs
      cases hregs
    · exact toBoundary_all _ _ hvector hbounds
  · rfl

theorem SameCmd.oneSegment {s : State} {a b : RunCmd} (h : SameCmd a b) (hwhole : oneSegment s a) : oneSegment s b := by
  have hbound : isBoundary b = isBoundary a := by
    funext v
    unfold isBoundary segmentLength segmentVectors placesRecords recordsAt cmdDrains
    rw [h.packet, h.tumbler, h.latched]
  unfold Machine.oneSegment at hwhole ⊢
  rw [h.ring, hbound, show psVectors b = psVectors a from h.vectors]
  exact hwhole

/-- What follows the end of a pass. -/
def afterPass (finish : RunCmd → State → State) (e : RunCmd × State) : State :=
  match e.1.prog.ended with
  | some .trapNan => finishTrap e.1 (setCmd e.2 e.1)
  | some _ => failCmdUnlogged e.1 (setCmd e.2 e.1)
  | none => finish e.1 (setCmd e.2 e.1)

/-- A pass that begins, and that no other ring can interrupt, runs to its end in one step. -/
theorem continuePass_whole {k : PassKind} (htame : k.writer.tame) (finish : RunCmd → State → State) {s : State} {rc : RunCmd}
    (hdrains : psDrains rc = false) (hheld : rc.prog.heldBeats = []) (hended : rc.prog.ended = none) (hstart : rc.prog.vector = 0)
    (hcached : (cacheEntry s rc.ring).isSome) (hwhole : oneSegment s rc) :
    continuePass k wholeRun finish (beginPass k rc s).1 (beginPass k rc s).2 = afterPass finish (passEnd k rc s) := by
  obtain ⟨hran, hend⟩ := passVectors_ran htame (s := s) (rc := rc) hdrains hheld hended hstart rfl rfl
  have hbegun := beginPass_does k rc s
  unfold passEnd
  dsimp only
  generalize hb : beginPass k rc s = b at hran hend hbegun ⊢
  have hbeats : b.1.prog.heldBeats = [] := hbegun.cmd.heldBeats.trans hheld
  have hvector : b.1.prog.vector = 0 := hbegun.cmd.vector.trans hstart
  have hctx : ctxOfRing b.2 b.1.ring = ctxOfRing s b.1.ring := by
    refine ctxOfRing_eq hbegun.works.cache ?_
    rw [hbegun.cmd.ring]
    exact hcached
  have hlimit := stepLimit_whole hvector hctx (hbegun.cmd.oneSegment hwhole)
  unfold continuePass meetError stagedVector
  simp only [releaseHeld_nil hbeats, wholeRun, hlimit]
  generalize runVectors k (psVectors b.1) b.1 b.2 = r at hran hend ⊢
  have hnone : r.1.prog.heldBeats = [] := hran.beats.trans hheld
  have hover : passOver r.1 = true := by
    unfold passOver
    have hvectors : psVectors r.1 = psVectors rc := hran.vectors
    rcases hend with ⟨-, h⟩ | ⟨h, -⟩
    · rw [hvectors, h]
      simp
    · rw [hran.drains, hdrains, h]
      simp
  rw [if_neg (by rw [hover, hnone]; decide)]
  rfl

/-- A command that is one such pass ends in one step, which may be the trap's. -/
theorem passRow_ends {k : PassKind} (htame : k.writer.tame) (finish : RunCmd → State → State) {s : State} {rc : RunCmd} {op : Nat}
    (hready : PassReady s rc op) :
    issue op (passCommand k wholeRun finish) s = afterPass finish (passEnd k (passed rc) s) := by
  rw [passRow_begins k wholeRun finish hready.toIssues hready.toPasses hready.unbarred]
  exact continuePass_whole htame finish (rc := passed rc) hready.drains (passed_heldBeats hready.fresh) (passed_ended hready.fresh)
    (passed_vector hready.fresh) hready.cached hready.whole

theorem cplOf_endCpl (rc : RunCmd) (base : Status) (r n : Nat) : cplOf rc base 0 r n = endCpl rc base 0 r n := by
  unfold cplOf endCpl
  rfl

theorem cplOf_okCpl (rc : RunCmd) (r n : Nat) : cplOf rc .ok 0 r n = okCpl rc r n := by
  unfold cplOf okCpl
  split <;> rfl

/-- How the commands that are one pass end: as `x` says, after work `work` of their own on what the vectors leave; or by the trap. -/
theorem passRow_passEnds {k : PassKind} (htame : k.writer.tame) (finish : RunCmd → State → State) {c : Instr} {s : State} {rc : RunCmd}
    {op : Nat} {x : RunCmd × State → Cpl} (hexec : exec c s = command (issue op (passCommand k wholeRun finish)) s)
    (hready : PassReady s rc op) {e : RunCmd × State} (he : e = passEnd k (passed rc) s)
    (hfinish : e.1.prog.ended = none → ∃ c' r n u, finish e.1 (setCmd e.2 e.1) = completeCmd c' .ok 0 r n u ∧ Goes e (c', u)
      ∧ cplOf c' .ok 0 r n = x e)
    (htrap : e.1.prog.ended = some .trapNan → ∃ c' u, finishTrap e.1 (setCmd e.2 e.1)
        = completeCmd c' .trapNan 0 (trapWord e) (trapCount e.1) u ∧ Goes e (c', u)
      ∧ cplOf c' .trapNan 0 (trapWord e) (trapCount e.1) = endCpl e.1 .trapNan 0 (trapWord e) (trapCount e.1)) :
    PassEnds c k s (afterPass finish e) rc x := by
  obtain ⟨hgoes, hend⟩ := passEnd_goes htame (s := s) (rc := passed rc) hready.drains (passed_heldBeats hready.fresh) (passed_ended hready.fresh) (passed_vector hready.fresh)
  have hrun := passRow_ends htame finish hready
  rw [← he] at hgoes hend hrun
  unfold PassEnds
  rw [← he]
  refine ⟨fun hnone => ?_, fun hsome => ?_, hend.imp id And.left, fun hno => hend.resolve_right fun h => ?_⟩
  · obtain ⟨c', r, n, u, heq, hworks, hcpl⟩ := hfinish hnone
    have hafter : afterPass finish e = completeCmd c' .ok 0 r n u := by
      unfold afterPass
      rw [hnone]
      exact heq
    have hall := hgoes.trans hworks
    have := command_completes rc c' .ok 0 r n (hrun.trans hafter) hready.cached hall.works hall.ring hall.packet hall.seq
    rw [hcpl, ← hafter] at this
    unfold Ends
    rw [hexec]
    exact this
  · obtain ⟨c', u, heq, hworks, hcpl⟩ := htrap hsome
    have hafter : afterPass finish e = completeCmd c' .trapNan 0 (trapWord e) (trapCount e.1) u := by
      unfold afterPass
      rw [hsome]
      exact heq
    have hall := hgoes.trans hworks
    have := command_completes rc c' .trapNan 0 _ _ (hrun.trans hafter) hready.cached hall.works hall.ring hall.packet hall.seq
    rw [hcpl, ← hafter] at this
    unfold Ends
    rw [hexec]
    exact this
  · have hlatched : rc.latched.nanTrap = true := h.2
    rw [hno] at hlatched
    cases hlatched

end Sys2Proof.Machine
end


section
/-! SUPPORT. What a whole pass leaves of its command, and COMPRESS, EXPAND and QUANTISE_MX, which are one pass (R408, R409, R429). -/

namespace Sys2Proof.Machine

open Sys2Proof.Claims

/-! ## A property of the command through the whole pass -/

section

variable {P : RunCmd → Prop} (hsteady : ∀ a b, Steady a b → P a → P b) (hfills : ∀ s a, P a → P (readFills s a))
include hsteady hfills

/-- What keeps to the command but for its fills holds of a pass that has begun. -/
theorem beginPass_keeps (k : PassKind) {rc : RunCmd} (s : State) (h : P rc) : P (beginPass k rc s).1 := by
  have hloaded : Steady rc (loadColumns (resumedGroup rc) s).1 := by
    have hgroup : Steady rc (resumedGroup rc) := by
      unfold resumedGroup
      split
      · exact Steady.refl rc
      · split <;> exact ⟨rfl, rfl, rfl, rfl, rfl⟩
    exact hgroup.trans ⟨rfl, rfl, rfl, rfl, rfl⟩
  have hrefs : ∀ (a : RunCmd) (u : State), Steady a (setGlobalRefs a u).1 := fun a u =>
    Steady.foldl_on Prod.fst _ (fun (a : RunCmd × State) (h : Nat) => by
      dsimp only
      split
      · exact Steady.refl _
      · exact ⟨rfl, rfl, rfl, rfl, rfl⟩) _ (a, u)
  unfold beginPass
  dsimp only
  generalize hc : (List.foldl _ (loadColumns (resumedGroup rc) s).1 _ : RunCmd) = c
  have hcolumns : P c := by
    rw [← hc]
    exact hsteady _ _ (hloaded.trans (Steady.foldl _ (fun r n => addInput_steady r _ _) _ _)) h
  generalize hl : (if (linksIn c && _) = true then addLinks s c else c : RunCmd) = l
  have hlinks : P l := by
    rw [← hl]
    split
    · unfold addLinks
      split
      · exact hcolumns
      · exact hsteady _ _ (addInput_steady _ _ _) hcolumns
    · exact hcolumns
  generalize hf : (if psBuckets l = true then readFills s l else l : RunCmd) = f
  have hread : P f := by
    rw [← hf]
    split
    · exact hfills _ _ hlinks
    · exact hlinks
  split
  · exact hsteady _ _ (hrefs _ _) hread
  · exact hread

/-- What keeps to the command but for its fills, and each vector's writer keeps, a pass from memory keeps. -/
theorem passEnd_keeps {k : PassKind} (htame : k.writer.tame) (hwrite : ∀ s rc v es, P rc → P (k.writer.write s rc v es).1.rc)
    {rc : RunCmd} (s : State) (hdrains : psDrains rc = false) (hbeats : rc.prog.heldBeats = []) (h : P rc) : P (passEnd k rc s).1 := by
  have hbegun := beginPass_does k rc s
  unfold passEnd
  exact hsteady _ _ (endPass_steady _ _) (runVectors_keeps htame hsteady hwrite _ _ (hbegun.goes.drains.trans hdrains)
    (hbegun.cmd.heldBeats.trans hbeats) (beginPass_keeps hsteady hfills k s h))

end

theorem wholePass_goes {k : PassKind} (htame : k.writer.tame) {s : State} {rc : RunCmd} {op : Nat} (h : PassReady s rc op) :
    Goes (passed rc, s) (passEnd k (passed rc) s) :=
  (passEnd_goes htame (s := s) (rc := passed rc) h.drains (passed_heldBeats h.fresh) (passed_ended h.fresh) (passed_vector h.fresh)).1

/-- EMIT's own passes meet no failure of SELECT's. -/
theorem emitPass_failed {k : PassKind} (hk : k = plainPass ∨ k = softPass) {rc : RunCmd} (s : State) (hdrains : psDrains rc = false)
    (hbeats : rc.prog.heldBeats = []) (h : rc.failed = none) : (passEnd k rc s).1.failed = none := by
  have hwriter : k.writer = emitWriter := by rcases hk with rfl | rfl <;> rfl
  refine passEnd_keeps (P := fun c => c.failed = none) (fun a b hab ha => hab.failed.trans ha) (fun s a ha => ha) (hwriter ▸ emitWriter_tame)
    (fun s rc v es hrc => ?_) s hdrains hbeats h
  rw [hwriter]
  exact (emitVector_steady rc v es _).failed.trans hrc

theorem endPass_held (rc : RunCmd) (s : State) : (endPass rc s).1.prog.held = [] := rfl

theorem passEnd_held (k : PassKind) (rc : RunCmd) (s : State) : (passEnd k rc s).1.prog.held = [] := rfl

/-- The status of a command without a failure. -/
theorem finalStatus_ok_ran {rc : RunCmd} (h : rc.failed = none) :
    finalStatus rc .ok ≠ .errorContained ∧ finalStatus rc .ok ≠ .retracted := by
  have hfirst : ∀ (b : Prop) [Decidable b] (x y : Status), x ≠ .errorContained ∧ x ≠ .retracted → y ≠ .errorContained ∧ y ≠ .retracted →
      (if b then statusFirst x y else x) ≠ .errorContained ∧ (if b then statusFirst x y else x) ≠ .retracted := by
    intro b _ x y hx hy
    unfold statusFirst
    split
    · split
      · exact hy
      · exact hx
    · exact hx
  unfold finalStatus
  rw [h]
  exact hfirst _ _ _ (hfirst _ _ _ (hfirst _ _ _ (by decide) (by decide)) (by decide)) (by decide)

/-- The trap ends a pass without buckets. -/
theorem finishTrap_plain {e : RunCmd × State} (h : psBuckets e.1 = false) :
    finishTrap e.1 (setCmd e.2 e.1) = completeCmd e.1 .trapNan 0 (trapWord e) (trapCount e.1) (setCmd e.2 e.1) := by
  unfold finishTrap trapWord
  rw [if_neg (by simp [h]), if_neg (by simp [h])]
  rfl

theorem psBuckets_opcode {rc : RunCmd} (h : pkOpcode rc.packet ≠ 0x06) : psBuckets rc = false := by
  unfold psBuckets
  simp [h]

theorem setCmd_goes (e : RunCmd × State) : Goes e (e.1, setCmd e.2 e.1) := ⟨rfl, rfl, setCmd_works _ _⟩

/-- A plain pass ends as `x` says, after work of its own on what the vectors leave, or by the trap. -/
theorem emitRow_passEnds {finish : RunCmd → State → State} {c : Instr} {s : State} {rc : RunCmd} {op : Nat} {x : RunCmd × State → Cpl}
    (hexec : exec c s = command (issue op (passCommand plainPass wholeRun finish)) s) (hop : op ≠ 0x06)
    (hready : PassReady s rc op) {e : RunCmd × State} (he : e = passEnd plainPass (passed rc) s)
    (hfinish : e.1.prog.ended = none → ∃ c' r n u, finish e.1 (setCmd e.2 e.1) = completeCmd c' .ok 0 r n u ∧ Goes e (c', u)
      ∧ cplOf c' .ok 0 r n = x e) : PassEnds c plainPass s (afterPass finish e) rc x := by
  refine passRow_passEnds emitWriter_tame finish hexec hready he hfinish fun _ =>
    ⟨e.1, _, finishTrap_plain (psBuckets_opcode ?_), setCmd_goes e, cplOf_endCpl _ _ _ _⟩
  have hgoes := wholePass_goes (k := plainPass) emitWriter_tame hready
  rw [← he] at hgoes
  rw [hgoes.packet, show (passed rc, s).1.packet = rc.packet from rfl, hready.opcode]
  exact hop

/-! ## Summaries -/

/-- A command that writes a summary at its descriptor 5 after its pass. -/
def summed (e : RunCmd × State) (bs : List Byte) : RunCmd × State :=
  writeRecord e.1 5 (descSpace e.1 (descOf e.1 5)) (dBase (descOf e.1 5)) bs false (setCmd e.2 e.1)

theorem summed_goes (e : RunCmd × State) (bs : List Byte) : Goes e (summed e bs) :=
  (setCmd_goes e).trans (writeRecord_does _ _ _ _ _ _ _).goes

theorem cplOf_summed (e : RunCmd × State) (bs : List Byte) (r n : Nat) : cplOf (summed e bs).1 .ok 0 r n = okCpl e.1 r n :=
  cplOf_okCpl _ _ _

theorem finalStatus_summed (e : RunCmd × State) (bs : List Byte) : finalStatus (summed e bs).1 .ok = finalStatus e.1 .ok := rfl

/-- A whole pass leaves where the command's descriptors point. -/
theorem Goes.descAt {a b : RunCmd × State} (h : Goes a b) (d : Nat) : descAt b.1 d = descAt a.1 d := by
  rw [h.cmd]
  rfl

/-- The summary stands where the command's descriptor 5 points after the completion. -/
theorem summed_stands {s : State} {rc : RunCmd} {e : RunCmd × State} (hcached : (cacheEntry s rc.ring).isSome)
    (hgoes : Goes (passed rc, s) e) (hheld : e.1.prog.held = []) (hfailed : e.1.failed = none) {bs : List Byte}
    (hlength : bs.length ≤ 2 ^ 64) (r n : Nat) :
    Stands s (completeCmd (summed e bs).1 .ok 0 r n (summed e bs).2) rc (finalStatus e.1 .ok) 5 bs := by
  have hall := hgoes.trans (summed_goes e bs)
  obtain ⟨hcontained, hretracted⟩ := finalStatus_ok_ran hfailed
  rw [← finalStatus_summed e bs]
  refine completeCmd_stands 0 r n hcached hall.works hall.ring hall.packet hcontained hretracted fun hfirst i hi => ?_
  have hdesc : descAt rc 5 = descAt e.1 5 := (hgoes.descAt 5).symm
  have hfirst' : isSecondary (setCmd e.2 e.1) = false := (isSecondary_eq hgoes.works.mode hgoes.works.primary).trans hfirst
  rw [hdesc]
  exact readByte_writeRecord_getD hheld hfirst' 5 _ _ hlength false hi

end Sys2Proof.Machine

open Sys2Proof Sys2Proof.Machine Sys2Proof.Claims

/-- Settles O16: each is one pass, after which two of them write their summary. -/
theorem streamPassesComplete : Obligations.StreamPassesComplete := by
  unfold Obligations.StreamPassesComplete
  intro s rc
  have hgoes : ∀ op, PassReady s rc op → Goes (passed rc, s) (passEnd plainPass (passed rc) s) := fun _ h => wholePass_goes emitWriter_tame h
  have hfailed : ∀ op, PassReady s rc op → (passEnd plainPass (passed rc) s).1.failed = none := fun op h =>
    emitPass_failed (.inl rfl) s h.drains (passed_heldBeats h.fresh) h.fresh.2.1
  have hheld := passEnd_held plainPass (passed rc) s
  generalize he : passEnd plainPass (passed rc) s = e at hgoes hfailed hheld
  refine ⟨fun hready => ?_, fun hready => ?_, fun hready => ?_⟩
  · refine ⟨afterPass finishCompress e, emitRow_passEnds rfl (by decide) hready he.symm fun hended => ?_, fun hended => ?_⟩
    · exact ⟨_, 0, e.1.prog.elements, _, rfl, summed_goes e _, cplOf_summed e _ _ _⟩
    · have hafter : afterPass finishCompress e = completeCmd (summed e (summaryBytes (.compress wholeRun) e.1)).1 .ok 0 0
          (summed e (summaryBytes (.compress wholeRun) e.1)).1.prog.elements (summed e (summaryBytes (.compress wholeRun) e.1)).2 := by
        unfold afterPass
        rw [hended]
        rfl
      rw [hafter]
      refine summed_stands hready.cached (hgoes _ hready) hheld (hfailed _ hready) ?_ _ _
      unfold summaryBytes
      dsimp only
      rw [flatMap_length_of _ _ (n := 4) fun r => natBytes_length 4 _, List.length_range]
      have hrows : psR e.1 = pkRows rc.packet := by
        unfold psR
        rw [if_neg, (hgoes _ hready).packet]
        · rfl
        · rw [psBuckets_opcode]
          · decide
          · rw [(hgoes _ hready).packet]
            exact fun h => absurd (hready.opcode.symm.trans h) (by decide)
      have := pkRows_le rc.packet
      omega
  · refine ⟨afterPass finishExpand e, emitRow_passEnds rfl (by decide) hready he.symm fun hended => ?_⟩
    exact ⟨e.1, 0, _, _, rfl, setCmd_goes e, cplOf_okCpl _ _ _⟩
  · obtain ⟨bs, hbs⟩ : ∃ bs, bs = quantiseSummary e.1 := ⟨_, rfl⟩
    have hlength : bs.length = 64 := by
      rw [hbs]
      unfold quantiseSummary
      simp [natBytes_length]
    have hfinish : finishQuantise e.1 (setCmd e.2 e.1) = if (pkDmask e.1.packet).testBit 5 then
          completeCmd (summed e bs).1 .ok 0 e.1.prog.promoted e.1.prog.blocks (summed e bs).2
        else completeCmd e.1 .ok 0 e.1.prog.promoted e.1.prog.blocks (setCmd e.2 e.1) := by
      unfold finishQuantise
      dsimp only
      rw [← hbs]
      split <;> rfl
    refine ⟨afterPass finishQuantise e, emitRow_passEnds rfl (by decide) hready he.symm fun hended => ?_, fun hended => ?_⟩
    · rw [hfinish]
      split
      · exact ⟨(summed e bs).1, _, _, (summed e bs).2, rfl, summed_goes e bs, cplOf_summed e bs _ _⟩
      · exact ⟨e.1, e.1.prog.promoted, e.1.prog.blocks, setCmd e.2 e.1, rfl, setCmd_goes e, cplOf_okCpl _ _ _⟩
    · have hafter : afterPass finishQuantise e = finishQuantise e.1 (setCmd e.2 e.1) := by
        unfold afterPass
        rw [hended]
      rw [hafter, hfinish]
      unfold summaryBytes
      dsimp only
      rw [← hbs]
      split
      · exact summed_stands hready.cached (hgoes _ hready) hheld (hfailed _ hready) (by omega) _ _
      · intro _ _ _ _ i hi
        simp at hi

end


section
/-! SUPPORT. SELECT (R370, R396, R405): the end of a bucket command, and the registers that a completion leaves. -/

namespace Sys2Proof.Machine

open Sys2Proof.Claims

/-! ## Buckets written back -/

/-- The command has noted slots as changed, and nothing else. -/
structure NotesChanged (a b : RunCmd × State) : Prop where
  cmd   : b.1 = { a.1 with prog := { a.1.prog with changed := b.1.prog.changed } }
  works : Works a.2 b.2

theorem NotesChanged.trans {a b c : RunCmd × State} (h : NotesChanged a b) (k : NotesChanged b c) : NotesChanged a c :=
  ⟨by rw [k.cmd, h.cmd], h.works.trans k.works⟩

theorem writeFills_notesChanged (rc : RunCmd) (s : State) : NotesChanged (rc, s) (writeFills rc s) := by
  unfold writeFills
  generalize rc.prog.fills = l
  have hfold : ∀ a : RunCmd × State, NotesChanged a (l.foldl (fun (a : RunCmd × State) x =>
      let h := pkRow0 rc.packet + x.1
      if bucketFill (slotAt a.2 h) = x.2 then a
      else ({ a.1 with prog := { a.1.prog with changed := setInsert a.1.prog.changed h } }, modSlot a.2 h (setFill x.2))) a) := by
    induction l with
    | nil => exact fun a => ⟨rfl, Works.refl _⟩
    | cons x rest ih =>
      intro a
      refine NotesChanged.trans ?_ (ih _)
      dsimp only
      split
      · exact ⟨rfl, Works.refl _⟩
      · exact ⟨rfl, modSlot_works _ _ _⟩
  exact hfold (rc, s)

theorem flushBuckets_works (rc : RunCmd) (s : State) : Works s (flushBuckets rc s).2 :=
  Works.foldl _ (fun s _ => mergeSector_works _ _ s) _ s

/-- A bucket command once its buffers have been merged and its fills written back. -/
def bucketsWritten (rc : RunCmd) (s : State) : RunCmd × State := writeFills (flushBuckets rc s).1 (flushBuckets rc s).2

theorem finishBuckets_eq (base : Status) (rc : RunCmd) (s : State) :
    finishBuckets base rc s
      = completeCmd (bucketsWritten rc s).1 base 0 rc.prog.overflowed rc.prog.placed (bucketsWritten rc s).2 := by
  have hcmd := (writeFills_notesChanged (flushBuckets rc s).1 (flushBuckets rc s).2).cmd
  unfold finishBuckets
  dsimp only
  rw [show writeFills (flushBuckets rc s).1 (flushBuckets rc s).2 = bucketsWritten rc s from rfl] at hcmd ⊢
  have hcounts : (bucketsWritten rc s).1.prog.overflowed = rc.prog.overflowed ∧ (bucketsWritten rc s).1.prog.placed = rc.prog.placed := by
    rw [hcmd]
    exact ⟨rfl, rfl⟩
  rw [hcounts.1, hcounts.2]

theorem bucketsWritten_goes (rc : RunCmd) (s : State) : Goes (rc, s) (bucketsWritten rc s) := by
  have hfills := writeFills_notesChanged (flushBuckets rc s).1 (flushBuckets rc s).2
  refine ⟨?_, ?_, (flushBuckets_works rc s).trans hfills.works⟩
  · have hcmd := hfills.cmd
    unfold bucketsWritten
    rw [hcmd]
    rfl
  · unfold bucketsWritten
    rw [hfills.cmd]
    rfl

theorem cplOf_bucketsWritten (rc : RunCmd) (s : State) (base : Status) (d r n : Nat) :
    cplOf (bucketsWritten rc s).1 base d r n = cplOf rc base d r n := by
  unfold bucketsWritten
  rw [(writeFills_notesChanged _ _).cmd]
  rfl

/-! ## Lists written to registers -/

theorem putLists_goes (rc : RunCmd) (reg : Nat) (ls : List (Nat × CandList)) (s : State) : Goes (rc, s) (putLists rc reg ls s) :=
  ⟨rfl, rfl, setRegs_works _ _ _⟩

/-- The lists that SELECT has selected, row by row. -/
def selected (rc : RunCmd) : List (Nat × CandList) := (List.range (psR rc)).map (fun r => (r, spGet ⟨[], false⟩ rc.prog.lists r))

/-- SELECT once its lists stand in its registers, and in its chain where it names one. -/
def listsWritten (rc : RunCmd) (s : State) : RunCmd × State :=
  let w := putLists rc (tEmitReg rc.tumbler) (selected rc) s
  (w.1, if decide (tDest rc.tumbler = 3) && (finalStatus w.1 .ok).succeeded then
      contributeRows (pkChainId rc.packet) (listRows rc) rc true w.2
    else w.2)

theorem finishLists_eq (rc : RunCmd) (s : State) :
    finishLists rc s = completeCmd (listsWritten rc s).1 .ok 0
      (((spGet ⟨[], false⟩ rc.prog.lists 0).entries.head?.map (fun c => c.index)).getD emptyCandIndex)
      (((selected rc).map (fun l => l.2.entries.length)).foldl (· + ·) 0) (listsWritten rc s).2 := by
  unfold finishLists
  dsimp only
  generalize (spGet ⟨[], false⟩ rc.prog.lists 0).entries = es
  cases es <;> rfl

theorem listsWritten_ofChain (rc : RunCmd) (s : State) :
    OfChain (pkChainId rc.packet) (putLists rc (tEmitReg rc.tumbler) (selected rc) s).2 (listsWritten rc s).2 := by
  unfold listsWritten
  dsimp only
  split
  · exact contributeRows_ofChain _ _ _ _ _
  · exact .refl _ _

theorem listsWritten_goes (rc : RunCmd) (s : State) : Goes (rc, s) (listsWritten rc s) := by
  refine (putLists_goes rc _ (selected rc) s).trans ⟨rfl, rfl, ?_⟩
  unfold listsWritten
  dsimp only
  split
  · exact (contributeRows_aside _ _ _ _ _).toNear.works
  · exact Works.refl _

/-! ## Registers through a completion -/

theorem OfChain.regs {c : Nat} {s t : State} (h : OfChain c s t) : t.rings.regs = s.rings.regs := by rw [h.rings]

theorem settleChain_regs (rc : RunCmd) (st : Status) (s : State) : (settleChain rc st s).rings.regs = s.rings.regs :=
  (settleChain_ofChain rc st s).regs

theorem undefineWrites_regs (rc : RunCmd) (s : State) : (undefineWrites rc s).rings.regs = s.rings.regs := by
  refine foldl_keeps (fun u => u.rings.regs) _ (fun u x => ?_) _ s
  dsimp only
  cases x.2.1 <;> rfl

theorem writeViews_regs (l : List Nat) (s : State) : (writeViews l s).rings.regs = s.rings.regs := by
  refine foldl_keeps (fun u => u.rings.regs) _ (fun u x => ?_) _ s
  split
  · simp
  · rfl

theorem appendRecord_regs (rc : RunCmd) (x : Cpl) (b : Bool) (s : State) : (appendRecord rc x b s).rings.regs = s.rings.regs := by
  have hlink : ∀ (d : W128) (s : State), (linkSlots rc d s).rings.regs = s.rings.regs := by
    intro d s
    refine foldl_keeps (fun u => u.rings.regs) _ (fun u h => ?_) _ s
    dsimp only
    split
    · rfl
    · simp
  unfold appendRecord
  split
  · rfl
  · dsimp only
    split
    · rw [hlink]
      split <;> simp
    · split <;> simp

theorem beforeRecord_regs {rc : RunCmd} {base : Status} (h : finalStatus rc base ≠ .errorContained) (d r n : Nat) (s : State) :
    (beforeRecord rc base d r n s).rings.regs = s.rings.regs := by
  unfold beforeRecord
  dsimp only
  rw [appendRecord_regs, show ∀ l u, (showTwin l u).rings.regs = u.rings.regs from fun l u => by rw [(showTwin_quiet l u).rings],
    settleChain_regs]
  split
  · contradiction
  · rw [undefineWrites_regs, writeViews_regs]
  · exact writeViews_regs _ _

theorem modCtx_regs (s : State) (ring : Nat) (f : RingCtx → RingCtx) : (modCtx s ring f).rings.regs = s.rings.regs := by
  unfold modCtx setCtx
  split
  · rfl
  · simp

theorem writeCpl_regs (ring : Nat) (x : Cpl) (s : State) : (writeCpl ring x s).rings.regs = s.rings.regs := by
  unfold writeCpl
  dsimp only
  rw [modCtx_regs]
  split <;> simp

/-- Where nothing else is asked of a ring its registers stay when a command of it completes. -/
theorem ringAfter_regs {ring : Nat} {st : Status} {s : State} (hnone : ringDeferred s ring = none)
    (hhalt : bit (ctxOfRing s ring).halt (statusCode st) = false) : (ringAfter ring st s).rings.regs = s.rings.regs := by
  have hturn : ∀ w, (endTurn ring w).rings.regs = w.rings.regs := by
    intro w
    unfold endTurn
    split
    · split <;> rfl
    · rfl
  unfold ringAfter
  dsimp only
  rw [hnone]
  simp only [hhalt, Bool.false_eq_true, if_false, if_true, reduceCtorEq]
  split
  · exact (modCtx_regs _ _ _).trans (hturn _)
  · exact modCtx_regs _ _ _

theorem completeCmd_regs (rc : RunCmd) (base : Status) (d r n : Nat) (s : State) (hcached : (cacheEntry s rc.ring).isSome)
    (hplain : plainEnd s rc (finalStatus rc base)) (hcontained : finalStatus rc base ≠ .errorContained) :
    (completeCmd rc base d r n s).rings.regs = s.rings.regs := by
  obtain ⟨hnone, hhalt⟩ := hplain
  have hkept := beforeRecord_keepsCtx rc base d r n s
  have hregs := beforeRecord_regs hcontained d r n s
  have hctx : ctxOfRing (beforeRecord rc base d r n s) rc.ring = ctxOfRing s rc.ring := ctxOfRing_eq hkept.cache hcached
  have hcached' : (cacheEntry (beforeRecord rc base d r n s) rc.ring).isSome := by rw [cacheEntry_eq hkept.cache]; exact hcached
  have hnone' : ringDeferred (beforeRecord rc base d r n s) rc.ring = none := by
    unfold ringDeferred at hnone ⊢
    rw [hkept.deferred]
    exact hnone
  rw [completeCmd_eq, ← hregs]
  generalize beforeRecord rc base d r n s = b at hctx hcached' hnone' ⊢
  have hwritten := writeCpl_written rc.ring (cplOf rc base d r n) b hcached'
  have hcpl := writeCpl_regs rc.ring (cplOf rc base d r n) b
  generalize writeCpl rc.ring (cplOf rc base d r n) b = v at hwritten hcpl ⊢
  generalize hz : (if pkNotify rc.packet then writeNotify rc.ring rc.seq.toNat v else v) = z
  have hnotified : z.rings = v.rings := by
    rw [← hz]
    split
    · exact (writeNotify_rest _ _ v).1
    · rfl
  rw [ringAfter_regs, hnotified, hcpl]
  · unfold ringDeferred at hnone' ⊢
    rw [hnotified, hwritten.deferred]
    exact hnone'
  · rw [ctxOfRing_eq (s := v) (by rw [hnotified]) hwritten.cached, hwritten.ctx, hctx]
    exact hhalt

/-! ## SELECT -/

theorem finishTrap_buckets {rc : RunCmd} (h : psBuckets rc = true) (hfailed : rc.failed = none) (s : State) :
    finishTrap rc s = finishBuckets .trapNan rc s := by
  unfold finishTrap
  rw [if_pos h, hfailed, if_neg (by simp)]

theorem finishSelect_eq {rc : RunCmd} (hfailed : rc.failed = none) (s : State) :
    finishSelect rc s = if tDest rc.tumbler ≠ 0 then finishLists rc s
      else if tWMode rc.tumbler = 2 then finishBuckets .ok rc s else completeCmd rc .ok 0 0 rc.prog.elements s := by
  unfold finishSelect
  rw [hfailed]
  by_cases hdest : tDest rc.tumbler = 0 <;> by_cases hmode : tWMode rc.tumbler = 2 <;> simp [hdest, hmode]

/-- What follows SELECT's whole pass without the trap. -/
theorem afterSelect {e : RunCmd × State} (hfailed : e.1.failed = none) (hended : e.1.prog.ended = none) :
    afterPass finishSelect e = if tDest e.1.tumbler ≠ 0 then finishLists e.1 (setCmd e.2 e.1)
      else if tWMode e.1.tumbler = 2 then finishBuckets .ok e.1 (setCmd e.2 e.1)
      else completeCmd e.1 .ok 0 0 e.1.prog.elements (setCmd e.2 e.1) := by
  unfold afterPass
  rw [hended]
  exact finishSelect_eq hfailed _

theorem Goes.psR {a b : RunCmd × State} (h : Goes a b) : psR b.1 = psR a.1 := by
  unfold Machine.psR psBuckets
  rw [h.packet, h.tumbler]

end Sys2Proof.Machine

open Sys2Proof Sys2Proof.Machine Sys2Proof.Claims

/-- Settles O17: its pass keeps the lists, or places the records, with which it completes; the lists stand in the registers, which the
completion leaves. -/
theorem selectCompletes : Obligations.SelectCompletes := by
  unfold Obligations.SelectCompletes
  intro s rc e lists hready he hfailed hlists
  have hgoes := wholePass_goes (k := selectPass) selectWriter_tame hready
  obtain ⟨E, hE⟩ : ∃ E, E = passEnd selectPass (passed rc) s := ⟨_, rfl⟩
  rw [← hE] at he hgoes ⊢
  subst he
  have htumbler : E.1.tumbler = rc.tumbler := hgoes.tumbler
  have hselected : lists = selected E.1 := by
    rw [hlists, ← show Machine.psR E.1 = Machine.psR rc from hgoes.psR]
    rfl
  refine ⟨afterPass finishSelect E, passRow_passEnds selectWriter_tame finishSelect rfl hready hE (fun hended => ?_) (fun hended => ?_),
    fun hended hdest hplain => ?_⟩
  · rw [finishSelect_eq hfailed, htumbler, hselected]
    have hset := setCmd_goes E
    split
    · rw [finishLists_eq]
      exact ⟨_, _, _, _, rfl, hset.trans (listsWritten_goes _ _), cplOf_okCpl _ _ _⟩
    · split
      · rw [finishBuckets_eq]
        exact ⟨_, _, _, _, rfl, hset.trans (bucketsWritten_goes _ _), (cplOf_bucketsWritten _ _ _ _ _ _).trans (cplOf_okCpl _ _ _)⟩
      · exact ⟨E.1, _, _, _, rfl, hset, cplOf_okCpl _ _ _⟩
  · by_cases hbuckets : psBuckets E.1 = true
    · have hcounts : trapWord E = E.1.prog.overflowed ∧ trapCount E.1 = E.1.prog.placed := by
        have hparts := hbuckets
        unfold psBuckets at hparts
        simp only [Bool.and_eq_true, decide_eq_true_eq] at hparts
        obtain ⟨⟨hop, -⟩, hmode⟩ := hparts
        unfold trapWord trapCount
        rw [if_pos hbuckets, hop]
        exact ⟨rfl, if_pos hmode⟩
      rw [finishTrap_buckets hbuckets hfailed, finishBuckets_eq, hcounts.1, hcounts.2]
      exact ⟨_, _, rfl, (setCmd_goes E).trans (bucketsWritten_goes _ _), (cplOf_bucketsWritten _ _ _ _ _ _).trans (cplOf_endCpl _ _ _ _)⟩
    · exact ⟨E.1, _, finishTrap_plain (by simpa using hbuckets), setCmd_goes E, cplOf_endCpl _ _ _ _⟩
  · rw [afterSelect hfailed hended, htumbler, if_pos hdest, finishLists_eq]
    have hall := (hgoes.trans (setCmd_goes E)).trans (listsWritten_goes E.1 (setCmd E.2 E.1))
    have hstatus : finalStatus (listsWritten E.1 (setCmd E.2 E.1)).1 .ok = finalStatus E.1 .ok := rfl
    have hring : (listsWritten E.1 (setCmd E.2 E.1)).1.ring = rc.ring := hall.ring
    have hregs : regsOf (listsWritten E.1 (setCmd E.2 E.1)).2 E.1.ring
        = (selected E.1).foldl (fun f l => putList (tEmitReg E.1.tumbler + 4 * l.1) l.2 f) (regsOf (setCmd E.2 E.1) E.1.ring) := by
      unfold regsOf
      rw [(listsWritten_ofChain _ _).regs]
      exact spGet_spSet_same _ _ _ _
    have hcompleted := completeCmd_regs (listsWritten E.1 (setCmd E.2 E.1)).1 .ok 0
      (((spGet ⟨[], false⟩ E.1.prog.lists 0).entries.head?.map (fun c => c.index)).getD emptyCandIndex)
      (((selected E.1).map (fun l => l.2.entries.length)).foldl (· + ·) 0) (listsWritten E.1 (setCmd E.2 E.1)).2 ?_ ?_ ?_
    · rw [hselected, ← htumbler, ← show E.1.ring = rc.ring from hgoes.ring]
      refine Eq.trans ?_ hregs
      unfold regsOf
      rw [hcompleted]
    · rw [hring, cacheEntry_eq hall.works.cache]
      exact hready.cached
    · rw [hstatus]
      obtain ⟨hnone, hhalt⟩ := hplain
      refine ⟨?_, ?_⟩
      · unfold ringDeferred at hnone ⊢
        rw [hall.works.deferred, hring]
        exact hnone
      · rw [hring, ctxOfRing_eq hall.works.cache hready.cached]
        exact hhalt
    · rw [hstatus]
      exact (finalStatus_ok_ran hfailed).1

end


section
/-! SUPPORT. What a whole pass and its completion leave of slots and memory (R175, R243, R401). -/

namespace Sys2Proof.Machine

open Sys2Proof.Claims

/-! ## The buckets whose fills a command keeps -/

/-- The fills that a command keeps are of buckets of its range. -/
def fillsInRange (p : BitVec 512) (rc : RunCmd) : Prop := rc.packet = p ∧ ∀ x ∈ rc.prog.fills, x.1 < pkRows p

theorem fillsInRange_steady {p : BitVec 512} (a b : RunCmd) (h : Steady a b) (ha : fillsInRange p a) : fillsInRange p b := by
  unfold fillsInRange at ha ⊢
  rwa [h.packet, h.fills]

theorem fillsInRange_readFills {p : BitVec 512} (s : State) (a : RunCmd) (h : fillsInRange p a) : fillsInRange p (readFills s a) := by
  refine ⟨h.1, fun x hx => ?_⟩
  obtain ⟨e, he, rfl⟩ := List.mem_map.mp hx
  exact h.1 ▸ List.mem_range.mp he

theorem mem_spPut {α : Type} {m : Sparse α} {n : Nat} {v : α} {x : Nat × α} (h : x ∈ spPut m n v) : x = (n, v) ∨ x ∈ m := by
  induction m with
  | nil => exact .inl (List.mem_singleton.mp h)
  | cons y rest ih =>
    unfold spPut at h
    split at h
    · exact (List.mem_cons.mp h).imp id id
    · split at h
      · exact (List.mem_cons.mp h).imp id (List.mem_cons_of_mem _)
      · rcases List.mem_cons.mp h with rfl | h
        · exact .inr List.mem_cons_self
        · exact (ih h).imp id (List.mem_cons_of_mem _)

theorem combineRecord_steady (key : Nat) (sp : Space) (a : Nat) (bs : List Byte) (b : Bool) (p : Placing) :
    Steady p.rc (combineRecord key sp a bs b p).rc := by
  refine Steady.foldl_on Placing.rc (combineSector key b) (fun q x => ?_) _
    { p with writes := p.writes.append ⟨[], [], (VecWrites.place key sp a bs b).runs, []⟩ }
  unfold combineSector
  dsimp only
  split <;> exact ⟨rfl, rfl, rfl, rfl, rfl⟩

theorem placeRecord_fillsInRange {p : BitVec 512} (s : State) (a : Placing) (g : GateRecord) (h : fillsInRange p a.rc) :
    fillsInRange p (placeRecord s a g).rc := by
  unfold placeRecord
  dsimp only
  split
  · exact h
  · split
    · exact h
    · next hexpert =>
      split
      · split
        · exact h
        · refine fillsInRange_steady _ _ (combineRecord_steady _ _ _ _ _ _) ⟨h.1, fun x hx => ?_⟩
          rcases mem_spPut hx with rfl | hx
          · have hp := h.1
            rw [not_or, hp] at hexpert
            show g.expert.toNat < pkRows p
            omega
          · exact h.2 x hx
      · split
        · exact fillsInRange_steady _ _ (combineRecord_steady _ _ _ _ _ _) h
        · exact h

theorem selectWriter_fillsInRange {p : BitVec 512} (s : State) (rc : RunCmd) (v : Nat) (es : List Elem) (h : fillsInRange p rc) :
    fillsInRange p (selectWriter.write s rc v es).1.rc := by
  unfold selectWriter
  dsimp only
  have hfold : ∀ (f : EmitOut × State → Nat → EmitOut × State) (_ : ∀ a r, fillsInRange p a.1.rc → fillsInRange p (f a r).1.rc)
      (l : List Nat) (a : EmitOut × State), fillsInRange p a.1.rc → fillsInRange p (l.foldl f a).1.rc := by
    intro f hf l
    induction l with
    | nil => exact fun _ ha => ha
    | cons x rest ih => exact fun a ha => ih _ (hf a x ha)
  refine hfold _ (fun a row ha => ?_) _ _ h
  split
  · exact ha
  · split
    · dsimp only
      generalize hb : List.foldl (placeRecord _) _ _ = b
      have hplaced : fillsInRange p b.rc := by
        rw [← hb]
        have hrecords : ∀ (u : State) (l : List GateRecord) (q : Placing), fillsInRange p q.rc → fillsInRange p (l.foldl (placeRecord u) q).rc := by
          intro u l
          induction l with
          | nil => exact fun _ hq => hq
          | cons g rest ih => exact fun q hq => ih _ (placeRecord_fillsInRange u q g hq)
        exact hrecords _ _ _ ha
      split
      · exact hplaced
      · exact hplaced
    · exact ha

theorem selectPass_fillsInRange {rc : RunCmd} (s : State) (hdrains : psDrains rc = false) (hbeats : rc.prog.heldBeats = [])
    (hfills : rc.prog.fills = []) : fillsInRange rc.packet (passEnd selectPass rc s).1 :=
  passEnd_keeps (P := fillsInRange rc.packet) fillsInRange_steady fillsInRange_readFills selectWriter_tame selectWriter_fillsInRange s
    hdrains hbeats ⟨rfl, fun x hx => by rw [hfills] at hx; cases hx⟩

/-! ## What follows a pass -/

/-- Work after a pass, before its command completes with the same status: no slot outside the range changes, and no byte outside
some runs. -/
structure Finishes (p : BitVec 512) (runs : List (Nat × Space × Nat × Nat)) (e w : RunCmd × State) : Prop extends Goes e w where
  status  : finalStatus w.1 .ok = finalStatus e.1 .ok
  reduced : w.1.prog.reduced = e.1.prog.reduced
  slots   : ∀ h, ¬ inRange p h → slotAt w.2 h = slotAt e.2 h
  outside : Outside runs e.2 w.2

theorem setCmd_finishes (p : BitVec 512) (runs : List (Nat × Space × Nat × Nat)) (e : RunCmd × State) :
    Finishes p runs e (e.1, setCmd e.2 e.1) :=
  ⟨setCmd_goes e, rfl, rfl, fun _ _ => rfl, Outside.of_mem rfl rfl rfl⟩

theorem Finishes.trans {p : BitVec 512} {runs : List (Nat × Space × Nat × Nat)} {a b c : RunCmd × State} (h : Finishes p runs a b)
    (k : Finishes p runs b c) : Finishes p runs a c :=
  ⟨h.toGoes.trans k.toGoes, k.status.trans h.status, k.reduced.trans h.reduced,
    fun i hi => (k.slots i hi).trans (h.slots i hi), h.outside.trans k.outside⟩

/-- A summary changes the bytes of its own run alone. -/
theorem summed_finishes (p : BitVec 512) {e : RunCmd × State} (hheld : heldIn e.1) (bs : List Byte) :
    Finishes p ((5, (descAt e.1 5).1, (descAt e.1 5).2, bs.length) :: e.1.prog.wrote) e (summed e bs) := by
  have hplaced := VecWrites.place_ok 5 (descAt e.1 5).1 (descAt e.1 5).2 bs false
  have hruns : ∀ r ∈ (VecWrites.place 5 (descAt e.1 5).1 (descAt e.1 5).2 bs false).runs,
      r = (5, (descAt e.1 5).1, (descAt e.1 5).2, bs.length) := by
    intro r hr
    unfold VecWrites.place at hr
    dsimp only at hr
    split at hr
    · simp at hr
    · exact List.mem_singleton.mp hr
  have hbuffer := bufferWrites_stores e.1 (VecWrites.place 5 (descAt e.1 5).1 (descAt e.1 5).2 bs false) (setCmd e.2 e.1)
    (fun x hx => inRuns_mono (fun r hr => List.mem_append_right _ hr) (hplaced x hx)) hheld.held
    (fun x hx => bytesIn_mono (fun r hr => List.mem_append_left _ hr) (hheld.combine x hx))
  have hnoSlot := writeRecord_noSlot e.1 5 (descAt e.1 5).1 (descAt e.1 5).2 bs false (setCmd e.2 e.1)
  refine ⟨summed_goes e bs, rfl, hnoSlot.reduced, fun h _ => slotAt_slots hnoSlot.slots h, ?_⟩
  have hstores := hbuffer.trans (flushSectors_stores _ _ hbuffer.held)
  have hset : Outside ((5, (descAt e.1 5).1, (descAt e.1 5).2, bs.length) :: e.1.prog.wrote) e.2 (setCmd e.2 e.1) :=
    Outside.of_mem rfl rfl rfl
  refine hset.trans (hstores.outside.mono fun r hr => ?_)
  rcases List.mem_append.mp hr with hr | hr
  · exact List.mem_cons_of_mem _ hr
  · rw [hruns r hr]
    exact List.mem_cons_self

/-- Fills written back change no memory, and of the command no note of what it reduced. -/
structure SlotsOnly (a b : RunCmd × State) : Prop where
  dev     : b.2.dev = a.2.dev
  tile    : b.2.tile = a.2.tile
  twin    : b.2.twinTile = a.2.twinTile
  reduced : b.1.prog.reduced = a.1.prog.reduced

theorem writeFills_slotsOnly (rc : RunCmd) (s : State) : SlotsOnly (rc, s) (writeFills rc s) := by
  have hfold : ∀ (f : RunCmd × State → Nat × Nat → RunCmd × State) (_ : ∀ a x, SlotsOnly a (f a x)) (l : List (Nat × Nat)) (a : RunCmd × State),
      SlotsOnly a (l.foldl f a) := by
    intro f hf l
    induction l with
    | nil => exact fun _ => ⟨rfl, rfl, rfl, rfl⟩
    | cons x rest ih =>
      intro a
      have hstep := hf a x
      have hrest := ih (f a x)
      exact ⟨hrest.dev.trans hstep.dev, hrest.tile.trans hstep.tile, hrest.twin.trans hstep.twin, hrest.reduced.trans hstep.reduced⟩
  refine hfold _ (fun a x => ?_) rc.prog.fills (rc, s)
  dsimp only
  split
  · exact ⟨rfl, rfl, rfl, rfl⟩
  · exact ⟨by simp, by simp, by simp, rfl⟩

theorem writeFills_slots {p : BitVec 512} {rc : RunCmd} (hfills : fillsInRange p rc) (s : State) {h : Nat} (hout : ¬ inRange p h) :
    slotAt (writeFills rc s).2 h = slotAt s h := by
  obtain ⟨hp, hkeys⟩ := hfills
  unfold writeFills
  rw [hp]
  generalize rc.prog.fills = l at hkeys
  have hfold : ∀ (l : List (Nat × Nat)) (a : RunCmd × State), (∀ x ∈ l, x.1 < pkRows p) → slotAt (l.foldl (fun (a : RunCmd × State) x =>
      let h := pkRow0 p + x.1
      if bucketFill (slotAt a.2 h) = x.2 then a
      else ({ a.1 with prog := { a.1.prog with changed := setInsert a.1.prog.changed h } }, modSlot a.2 h (setFill x.2))) a).2 h = slotAt a.2 h := by
    intro l
    induction l with
    | nil => exact fun _ _ => rfl
    | cons x rest ih =>
      intro a hl
      refine (ih _ fun y hy => hl y (List.mem_cons_of_mem _ hy)).trans ?_
      dsimp only
      split
      · rfl
      · refine slotAt_modSlot_other _ _ ?_
        rintro rfl
        have := hl x List.mem_cons_self
        exact hout ⟨by omega, by omega⟩
  exact hfold l (rc, s) hkeys

theorem flushBuckets_slots (rc : RunCmd) (s : State) : (flushBuckets rc s).2.slots = s.slots :=
  foldl_keeps (fun u => u.slots) _ (fun _ _ => mergeSector_slots _ _ _) _ s

/-- Merging the buffers and writing fills back keeps to the range and to what the command noted. -/
theorem bucketsWritten_finishes {p : BitVec 512} {e : RunCmd × State} (hheld : heldIn e.1) (hfills : fillsInRange p e.1) :
    Finishes p e.1.prog.wrote e (bucketsWritten e.1 e.2) := by
  have hgoes := bucketsWritten_goes e.1 e.2
  have honly := writeFills_slotsOnly (flushBuckets e.1 e.2).1 (flushBuckets e.1 e.2).2
  refine ⟨hgoes, ?_, honly.reduced, fun h hout => ?_, ?_⟩
  · unfold bucketsWritten
    rw [(writeFills_notesChanged _ _).cmd]
    rfl
  · exact (writeFills_slots (rc := (flushBuckets e.1 e.2).1) hfills _ hout).trans (slotAt_slots (flushBuckets_slots _ _) h)
  · refine Outside.trans (t := (flushBuckets e.1 e.2).2) ?_ (Outside.of_mem honly.dev honly.tile honly.twin)
    exact Outside.foldl _ _ (fun s x hx => mergeSector_outside _ _ _ _ (hheld.combine x hx)) _

/-- Without a chain lists go to registers alone. -/
theorem listsWritten_finishes (p : BitVec 512) (runs : List (Nat × Space × Nat × Nat)) {e : RunCmd × State} (hdest : tDest e.1.tumbler ≠ 3) :
    Finishes p runs e (listsWritten e.1 e.2) := by
  have heq : listsWritten e.1 e.2 = putLists e.1 (tEmitReg e.1.tumbler) (selected e.1) e.2 := by
    unfold listsWritten
    dsimp only
    rw [if_neg (by simp [hdest])]
  rw [heq]
  exact ⟨putLists_goes _ _ _ _, rfl, rfl, fun _ _ => rfl, Outside.of_mem rfl rfl rfl⟩

/-! ## The rest stays -/

/-- What a pass, what follows it and its completion leave. -/
theorem finished_rest {s : State} {rc : RunCmd} {p : BitVec 512} {runs : List (Nat × Space × Nat × Nat)} {e w : RunCmd × State}
    (hcached : (cacheEntry s rc.ring).isSome) (hgoes : Goes (passed rc, s) e) (hfinishes : Finishes p runs e w)
    (hfailed : e.1.failed = none) (hchv : pkChv rc.packet = false) (hrecord : pkRecord rc.packet = false) (r n : Nat) :
    ((∀ h ∈ e.1.prog.reduced, inRange p h) → (∀ h, ¬ inRange p h → slotAt e.2 h = slotAt s h) →
        ∀ h, ¬ inRange p h → slotAt (completeCmd w.1 .ok 0 r n w.2) h = slotAt s h)
      ∧ (Outside runs s e.2 → plainEnd s rc (finalStatus e.1 .ok) → ∀ sp a, ¬ inRuns runs sp a → ¬ cplHolds (ctxOfRing s rc.ring) rc sp a →
        readByte (completeCmd w.1 .ok 0 r n w.2) sp a = readByte s sp a) := by
  obtain ⟨hcontained, hretracted⟩ := finalStatus_ok_ran hfailed
  rw [← hfinishes.status] at hcontained hretracted ⊢
  have hall := hgoes.trans hfinishes.toGoes
  have hpacket : w.1.packet = rc.packet := hall.packet
  refine ⟨fun hreduced hslots h hout => ?_, fun houtside hplain sp a hruns hown => ?_⟩
  · rw [completeCmd_slot _ _ _ _ _ _ h hcontained (fun hin => hout (hreduced h (hfinishes.reduced ▸ hin))) (.inl (hpacket ▸ hrecord)),
      hfinishes.slots h hout, hslots h hout]
  · rw [completeCmd_readByte_after 0 r n hcached hall.works hall.ring hpacket hcontained hretracted hplain (.inl hchv) hrecord hown,
      hfinishes.outside sp a hruns, houtside sp a hruns]

/-! ## The commands that are one pass -/

/-- A command that runs its pass whole, with what follows it. -/
inductive PassRow : Instr → Nat → PassKind → (RunCmd → State → State) → Prop
  | chain : PassRow (.chain wholeRun) 0x01 plainPass finishChain
  | chainAcc : PassRow (.chainAcc wholeRun) 0x02 plainPass finishChain
  | softmaxStep : PassRow (.softmaxStep wholeRun) 0x04 softPass finishSoft
  | select : PassRow (.select wholeRun) 0x06 selectPass finishSelect
  | compress : PassRow (.compress wholeRun) 0x08 plainPass finishCompress
  | expand : PassRow (.expand wholeRun) 0x09 plainPass finishExpand
  | quantiseMx : PassRow (.quantiseMx wholeRun) 0x0B plainPass finishQuantise

theorem passRow_of_passOf {c : Instr} {op : Nat} {k : PassKind} (h : passOf c = some (op, k)) (hrun : runOf c = wholeRun) :
    ∃ finish, PassRow c op k finish := by
  unfold passOf at h
  split at h <;> cases h <;> cases hrun
  · exact ⟨_, .chain⟩
  · exact ⟨_, .chainAcc⟩
  · exact ⟨_, .softmaxStep⟩
  · exact ⟨_, .select⟩
  · exact ⟨_, .compress⟩
  · exact ⟨_, .expand⟩
  · exact ⟨_, .quantiseMx⟩

section

variable {c : Instr} {op : Nat} {k : PassKind} {finish : RunCmd → State → State} (h : PassRow c op k finish)
include h

theorem PassRow.exec_eq (s : State) : exec c s = command (issue op (passCommand k wholeRun finish)) s := by cases h <;> rfl

theorem PassRow.tame : k.writer.tame := by
  cases h
  case select => exact selectWriter_tame
  all_goals exact emitWriter_tame

theorem PassRow.within : k.writer.within := by
  cases h
  case select => exact selectWriter_within
  all_goals exact emitWriter_within

theorem PassRow.leavesSlots : k.writer.leavesSlots := by
  cases h
  case select => exact selectWriter_leavesSlots
  all_goals exact emitWriter_leavesSlots

end

/-- What follows a whole pass completes the command, after its summary, its buckets or its lists. -/
theorem PassRow.finishes {c : Instr} {op : Nat} {k : PassKind} {finish : RunCmd → State → State} (hrow : PassRow c op k finish) {s : State}
    {rc : RunCmd} (hready : PassReady s rc op) {e : RunCmd × State} (he : e = passEnd k (passed rc) s) (hfailed : e.1.failed = none)
    (hheld : heldIn e.1) (hchv : pkChv rc.packet = false) (hdest : ∀ r, c = .select r → tDest rc.tumbler ≠ 3) :
    ∃ w r n, finish e.1 (setCmd e.2 e.1) = completeCmd w.1 .ok 0 r n w.2
      ∧ Finishes rc.packet ((5, (descAt e.1 5).1, (descAt e.1 5).2, (summaryBytes c e.1).length) :: e.1.prog.wrote) e w := by
  have hgoes : Goes (passed rc, s) e := he ▸ wholePass_goes hrow.tame hready
  have hset := fun runs => setCmd_finishes rc.packet runs e
  have hchain : finishChain e.1 (setCmd e.2 e.1)
      = completeCmd e.1 .ok 0 (chainResult e.1 (setCmd e.2 e.1)) e.1.prog.positions (setCmd e.2 e.1) := by
    have hpacket : e.1.packet = rc.packet := hgoes.packet
    unfold finishChain chainContribute
    rw [hpacket, hchv]
    rfl
  cases hrow with
  | chain => exact ⟨(e.1, setCmd e.2 e.1), _, _, hchain, hset _⟩
  | chainAcc => exact ⟨(e.1, setCmd e.2 e.1), _, _, hchain, hset _⟩
  | softmaxStep => exact ⟨(e.1, setCmd e.2 e.1), 0, e.1.prog.positions, rfl, hset _⟩
  | select =>
    have htumbler : e.1.tumbler = rc.tumbler := hgoes.tumbler
    have hmore := fun (x : Nat × Space × Nat × Nat) {w : RunCmd × State} (h : Finishes rc.packet e.1.prog.wrote (e.1, setCmd e.2 e.1) w) =>
      (hset (x :: e.1.prog.wrote)).trans { h with outside := h.outside.mono fun r hr => List.mem_cons_of_mem x hr }
    rw [finishSelect_eq hfailed]
    split
    · rw [finishLists_eq]
      exact ⟨listsWritten e.1 (setCmd e.2 e.1), _, _, rfl, hmore _ (listsWritten_finishes _ _ (e := (e.1, setCmd e.2 e.1)) (htumbler ▸ hdest _ rfl))⟩
    · split
      · have hfills : fillsInRange rc.packet e.1 := by
          rw [he]
          refine selectPass_fillsInRange (rc := passed rc) s hready.drains (passed_heldBeats hready.fresh) ?_
          unfold passed
          rw [hready.fresh.1]
          rfl
        rw [finishBuckets_eq]
        exact ⟨bucketsWritten e.1 (setCmd e.2 e.1), _, _, rfl, hmore _ (bucketsWritten_finishes (e := (e.1, setCmd e.2 e.1)) hheld hfills)⟩
      · exact ⟨(e.1, setCmd e.2 e.1), 0, e.1.prog.elements, rfl, hset _⟩
  | compress =>
    exact ⟨summed e (summaryBytes (.compress wholeRun) e.1), 0, e.1.prog.elements, rfl, summed_finishes rc.packet hheld _⟩
  | expand => exact ⟨(e.1, setCmd e.2 e.1), 0, e.1.prog.elements, rfl, hset _⟩
  | quantiseMx =>
    obtain ⟨bs, hbs⟩ : ∃ bs, bs = quantiseSummary e.1 := ⟨_, rfl⟩
    unfold summaryBytes finishQuantise
    dsimp only
    rw [← hbs]
    split
    · exact ⟨summed e bs, _, _, rfl, summed_finishes rc.packet hheld bs⟩
    · exact ⟨(e.1, setCmd e.2 e.1), _, _, rfl, hset _⟩

end Sys2Proof.Machine

open Sys2Proof Sys2Proof.Machine Sys2Proof.Claims

/-- Settles O18: the pass notes every run that it writes, and reduces into slots of its range; what follows it writes its summary, its
buckets or its registers, and its completion. -/
theorem passesKeepTheRest : Obligations.PassesKeepTheRest := by
  unfold Obligations.PassesKeepTheRest
  intro c op k s t rc e hpass hrun hready htrap he hfailed hchv hrecord hdest hexec
  obtain ⟨E, hE⟩ : ∃ E, E = passEnd k (passed rc) s := ⟨_, rfl⟩
  rw [← hE] at he
  subst he
  have hzero : (passed rc).prog.held = [] ∧ (passed rc).prog.combine = [] ∧ (passed rc).prog.reduced = [] := by
    unfold passed
    rw [hready.fresh.1]
    exact ⟨rfl, rfl, rfl⟩
  obtain ⟨hheld0, hcombine0, hreduced0⟩ := hzero
  have hrunsOn : RunsOn (passed rc) := ⟨hready.drains, htrap, passed_heldBeats hready.fresh, passed_ended hready.fresh⟩
  have hheldIn0 : heldIn (passed rc) := ⟨by rw [hheld0]; simp, by unfold combineIn; rw [hcombine0]; simp⟩
  obtain ⟨finish, hrow⟩ := passRow_of_passOf hpass hrun
  have htame := hrow.tame
  have hgoes : Goes (passed rc, s) E := hE ▸ wholePass_goes htame hready
  have hended : E.1.prog.ended = none := by
    rw [hE, (passEnd_does k htame (passed rc) s hrunsOn (passed_vector hready.fresh)).cmd.ended]
    exact show (passed rc).prog.ended = none from passed_ended hready.fresh
  have hstores : Stores (passed rc, s) E := hE ▸ passEnd_stores k hrow.within htame (passed rc) s hrunsOn hchv hheldIn0
  have hrange : k.soft = false → InRange rc.packet (passed rc, s) E := fun hsoft =>
    hE ▸ passEnd_inRange k ⟨hsoft, hrow.leavesSlots⟩ htame (passed rc) s hrunsOn
  obtain ⟨w, r, n, hfinish, hfinishes⟩ := hrow.finishes hready hE hfailed hstores.held hchv hdest
  have hcompletes : issue op (passCommand k wholeRun finish) s = completeCmd w.1 .ok 0 r n w.2 := by
    rw [passRow_ends htame finish hready, ← hE, ← hfinish]
    unfold afterPass
    rw [hended]
  have hall := hgoes.trans hfinishes.toGoes
  have ht : t = completeCmd w.1 .ok 0 r n w.2 := by
    rw [hrow.exec_eq, (command_completes rc w.1 .ok 0 r n hcompletes hready.cached hall.works hall.ring hall.packet hall.seq).1] at hexec
    exact (Host.Outcome.next.inj hexec).symm
  obtain ⟨hslots, hbytes⟩ := finished_rest hready.cached hgoes hfinishes hfailed hchv hrecord r n
  rw [← show descAt E.1 5 = descAt rc 5 from hgoes.descAt 5, ht]
  refine ⟨fun hsoft => hslots ((hrange hsoft).reduced ?_) (hrange hsoft).slots, hbytes (hstores.outside.mono fun r hr => List.mem_cons_of_mem _ hr)⟩
  intro h hh
  rw [show (passed rc, s).1.prog.reduced = [] from hreduced0] at hh
  cases hh

end


section
/-! SUPPORT. Commands that consume a chain's epoch (R341, R348, R353, R375, R393). -/

namespace Sys2Proof.Machine

open Sys2Proof.Claims

theorem issue_issued {op : Nat} {s : State} {rc : RunCmd} (hissues : Issues s rc op) (body : RunCmd → State → State) :
    issue op body s = body rc s := issue_runs hissues.issues hissues.held hissues.running hissues.opcode

/-- A command that has been checked before goes on. -/
theorem checkedThen_checked {rc : RunCmd} (hchecked : rc.prog.checked = true) (start go : RunCmd → State → State) (s : State) :
    checkedThen rc start go s = go rc s := by rw [checkedThen, if_pos hchecked]

/-- HINGE_WAIT where it takes a FINAL consumes the epoch. -/
theorem hingeWait_consumes {rc : RunCmd} {s : State} (h : ¬ noFinalHere .hingeWait (chainAt s (pkChainId rc.packet))) :
    hingeWait rc s = consume finishWait rc s := by
  unfold hingeWait
  dsimp only
  rw [if_neg]
  intro hno
  simp only [Bool.and_eq_true, decide_eq_true_eq] at hno
  obtain ⟨⟨hvalid, hkind⟩, hkeystone⟩ := hno
  exact h ⟨rfl, hvalid, hkind, hkeystone⟩

/-- A command that a row has completed at once. -/
theorem row_ends {c : Instr} {s : State} {rc : RunCmd} {f : State → State} (hexec : exec c s = command f s)
    (hcached : (cacheEntry s rc.ring).isSome) {base : Status} {r n : Nat} {u : State} (hrun : f s = completeCmd rc base 0 r n u)
    (hworks : Works s u) : Ends c s (completeCmd rc base 0 r n u) rc (endCpl rc base 0 r n) := by
  unfold Ends
  rw [hexec, ← cplOf_endCpl]
  exact command_completes rc rc base 0 r n hrun hcached hworks rfl rfl rfl

theorem endCpl_ok (rc : RunCmd) (r n : Nat) : endCpl rc .ok 0 r n = okCpl rc r n := by rw [← cplOf_endCpl, cplOf_okCpl]

end Sys2Proof.Machine

open Sys2Proof Sys2Proof.Machine Sys2Proof.Claims

/-- Settles O24: once finalised the command goes on to its completion. -/
theorem committedWaitsComplete : Obligations.CommittedWaitsComplete := by
  unfold Obligations.CommittedWaitsComplete
  intro s rc d hd hchecked
  subst hd
  refine ⟨fun hissues htakes hfinalised => ?_, fun hissues hchv hfinalised => ?_, fun hissues hno hclosed => ?_⟩
  · have hrun : hingeWaitRow s = completeCmd rc .ok 0 rc.prog.result.toNat rc.prog.count s := by
      rw [hingeWaitRow, issue_issued hissues, checkedThen_checked hchecked, hingeWait_consumes htakes, consume, if_pos hfinalised]
      rfl
    exact ⟨_, endCpl_ok rc _ _ ▸ row_ends rfl hissues.cached hrun (Works.refl s)⟩
  · have hrun : sampleRow s = completeCmd rc .ok 0 rc.prog.result.toNat (rc.prog.count * pkDraws rc.packet) s := by
      rw [sampleRow, issue_issued hissues, sampleBody, checkedThen_checked hchecked]
      rw [if_pos hchv, consume, if_pos hfinalised]
      rfl
    exact ⟨_, endCpl_ok rc _ _ ▸ row_ends rfl hissues.cached hrun (Works.refl s)⟩
  · obtain ⟨-, hvalid, hkind, hkeystone⟩ := hno
    have hrun : hingeWaitRow s
        = completeCmd rc (epochAt (chainAt s (pkChainId rc.packet)) (chainAt s (pkChainId rc.packet)).epoch).reason 0 0 0 s := by
      rw [hingeWaitRow, issue_issued hissues, checkedThen_checked hchecked, hingeWait]
      dsimp only
      rw [if_pos (by simp [hvalid, hkind, hkeystone]), if_pos hclosed]
    exact ⟨_, row_ends rfl hissues.cached hrun (Works.refl s)⟩

end

section
/-! SUPPORT. What a consuming command comes to before its FINAL is there. -/

namespace Sys2Proof.Machine

open Sys2Proof.Claims

theorem finalCommand_consumes (finalise : RunCmd → State → RunCmd × State) (run : Run) {rc : RunCmd} {s : State}
    (hchecked : rc.prog.checked = true) (hfinalised : rc.prog.finalised = false) (hchv : pkChv rc.packet = true) :
    finalCommand finalise run rc s = consume (afterFinal run) rc s := by
  unfold finalCommand
  simp only [checkedThen_checked hchecked, hfinalised, Bool.false_and, Bool.false_eq_true, if_false, hchv, if_true]

/-- The rows of consuming commands, checked before, consume. -/
theorem consumer_runs {c : Instr} {op : Nat} {s : State} {rc : RunCmd} (hconsumer : consumers c = some op) (hissues : Issues s rc op)
    (hchv : op = 0x19 ∨ pkChv rc.packet = true) (htakes : ¬ noFinalHere c (chainAt s (pkChainId rc.packet)))
    (hfinalised : rc.prog.finalised = false) (hchecked : rc.prog.checked = true) :
    ∃ f finish, exec c s = command f s ∧ f s = consume finish rc s := by
  unfold consumers at hconsumer
  split at hconsumer <;> cases hconsumer
  case h_1 run =>
    refine ⟨_, afterFinal run, rfl, ?_⟩
    rw [normRow, issue_issued hissues, finalCommand_consumes _ run hchecked hfinalised (hchv.resolve_left (by decide))]
  case h_2 run =>
    refine ⟨_, afterFinal run, rfl, ?_⟩
    rw [softFinalRow, issue_issued hissues, finalCommand_consumes _ run hchecked hfinalised (hchv.resolve_left (by decide))]
  case h_3 =>
    refine ⟨_, finishSample, rfl, ?_⟩
    rw [sampleRow, issue_issued hissues, sampleBody, checkedThen_checked hchecked]
    rw [if_pos (hchv.resolve_left (by decide))]
  case h_4 =>
    refine ⟨_, finishWait, rfl, ?_⟩
    rw [hingeWaitRow, issue_issued hissues, checkedThen_checked hchecked, hingeWait_consumes htakes]

/-- The state once a command consumes a chain's current epoch. -/
def consuming (rc : RunCmd) (s : State) : State :=
  modEpoch s (pkChainId rc.packet) (chainAt s (pkChainId rc.packet)).epoch (fun x => { x with
    consumer := some rc.ring,
    timer := x.timer || (cdIsKeystone (chainAt s (pkChainId rc.packet)).image && !x.isOver) })

theorem consuming_ofChain (rc : RunCmd) (s : State) : OfChain (pkChainId rc.packet) s (consuming rc s) := modEpoch_ofChain _ _ _ _

theorem consuming_aside (rc : RunCmd) (s : State) : Aside s (consuming rc s) := modEpoch_aside _ _ _ _

theorem consuming_epoch (rc : RunCmd) (s : State) (d : ChainDesc) (hd : d = chainAt s (pkChainId rc.packet)) :
    epochAt (chainAt (consuming rc s) (pkChainId rc.packet)) d.epoch = { epochAt d d.epoch with
      consumer := some rc.ring, timer := (epochAt d d.epoch).timer || (cdIsKeystone d.image && !(epochAt d d.epoch).isOver) } := by
  subst hd
  exact epochAt_modEpoch_same s _ _ (epochAt_number _ _)

/-- A command that has contributed consumes its epoch. -/
theorem consume_contributed (finish : RunCmd → State → State) {rc : RunCmd} {s : State} {d : ChainDesc}
    (hd : d = chainAt s (pkChainId rc.packet)) (hfinalised : rc.prog.finalised = false) (hvalid : d.valid = true) (howner : d.owner = rc.vi)
    (hcontributed : rc.prog.contributed = true) (hfree : otherConsumes d rc s = false) :
    consume finish rc s =
      if (epochAt d d.epoch).isOver then completeCmd rc (epochAt d d.epoch).reason 0 0 0 (consuming rc s)
      else
        let r := buildAndCommit rc (pkChainId rc.packet) (consuming rc s)
        if r.1.prog.finalised then finish r.1 (setCmd r.2 r.1) else blockCmd r.1 (.final (pkChainId rc.packet)) r.2 := by
  have hsame : { rc with prog := { rc.prog with contributed := true } } = rc := by rw [← hcontributed]
  have hepoch := consuming_epoch rc s d hd
  unfold consume
  dsimp only
  rw [hsame, ← hd, if_neg (by simp [hfinalised]), if_neg (by simp [hvalid, howner]), if_neg (by simp [hfree]), if_pos hcontributed]
  rw [show modEpoch s (pkChainId rc.packet) d.epoch (fun x => { x with
      consumer := some rc.ring, timer := x.timer || (cdIsKeystone d.image && !x.isOver) }) = consuming rc s by rw [hd]; rfl, hepoch]
  rfl

theorem otherConsumes_self {d : ChainDesc} {rc : RunCmd} (h : (epochAt d d.epoch).consumer = some rc.ring) (s : State) :
    otherConsumes d rc s = false := by
  unfold otherConsumes
  rw [h]
  simp

/-- What waits in a state that differs in its chain alone waits in the state before too. -/
theorem Blocked.after {s u t : State} {rc : RunCmd} {w : Wait} (h : Blocked u t rc w) (hframe : Frame s u) (hslots : u.slots = s.slots)
    (hbytes : ∀ sp a, readByte u sp a = readByte s sp a) : Blocked s t rc w :=
  ⟨h.state, h.cmd, h.free, hframe.trans h.frame, h.slots.trans hslots, fun sp a => (h.bytes sp a).trans (hbytes sp a)⟩

/-- Without a whole FINAL, and away from the keystone, nothing is committed. -/
theorem buildAndCommit_waits {rc : RunCmd} {k : Nat} {s : State} (hkeystone : cdIsKeystone (chainAt s k).image = false)
    (hfinal : finalComplete (chainAt s k) (epochAt (chainAt s k) (chainAt s k).epoch) = false) : buildAndCommit rc k s = (rc, s) := by
  have hbuild : buildFinal rc k s = (rc, s) := by
    unfold buildFinal
    dsimp only
    rw [if_neg (by simp [hkeystone])]
  unfold buildAndCommit
  rw [hbuild]
  unfold commitFinal
  dsimp only
  rw [if_pos (by simp [hfinal])]

theorem blockCmd_chains (rc : RunCmd) (w : Wait) (s : State) : (blockCmd rc w s).chains = s.chains := by
  unfold blockCmd setRingState modCtx setCtx
  dsimp only
  split <;> simp [setCmd]

end Sys2Proof.Machine

open Sys2Proof Sys2Proof.Machine Sys2Proof.Claims

/-- Settles O23: the command ends with its chain or its epoch, or waits; consuming the epoch itself changes only who consumes it. -/
theorem consumersWaitForFinal : Obligations.ConsumersWaitForFinal := by
  unfold Obligations.ConsumersWaitForFinal
  intro c op s rc k d hconsumer hissues hchv hk hd htakes hfinalised hchecked
  subst hk
  rw [hd] at htakes
  obtain ⟨f, finish, hexec, hrun⟩ := consumer_runs hconsumer hissues hchv htakes hfinalised hchecked
  refine ⟨fun hgone => ?_, fun hvalid howner hcontributed => ⟨fun hover hconsumes => ?_, fun hwaits => ?_⟩⟩
  · have hretracted : f s = completeCmd rc .retracted 0 0 0 s := by
      rw [hrun, consume]
      dsimp only
      rw [if_neg (by simp [hfinalised]), ← hd, if_pos]
      rcases hgone with h | h <;> simp [h]
    exact ⟨_, row_ends hexec hissues.cached hretracted (Works.refl s)⟩
  · rw [consume_contributed finish hd hfinalised hvalid howner hcontributed (otherConsumes_self hconsumes s), if_pos hover] at hrun
    exact ⟨_, row_ends hexec hissues.cached hrun (consuming_aside rc s).toNear.works⟩
  · have hwait : ∀ (u : State), f s = blockCmd rc (.final (pkChainId rc.packet)) u → Aside s u → OfChain (pkChainId rc.packet) s u →
        (∀ sp a, readByte u sp a = readByte s sp a) →
        ∃ t, Waits c s t rc (.final (pkChainId rc.packet)) ∧ ∀ j, j ≠ pkChainId rc.packet → chainAt t j = chainAt s j := by
      intro u hu haside hchain hbytes
      have hblocked := (blockCmd_blocked u rc rc (.final (pkChainId rc.packet)) (by
        rw [cacheEntry_eq haside.toNear.cache]; exact hissues.cached) rfl rfl rfl).after haside.toNear.works.toFrame haside.slots hbytes
      refine ⟨_, ⟨?_, hblocked⟩, fun j hj => ?_⟩
      · rw [hexec, ← hu]
        exact command_next (hu ▸ hblocked.frame)
      · unfold chainAt
        rw [blockCmd_chains]
        exact hchain.others j hj
    rcases hwaits with ⟨r, hother, hne, hlives⟩ | ⟨hconsumes, hopen, hkeystone, hfinal⟩
    · refine hwait s ?_ (Aside.refl s) (.refl _ s) (fun _ _ => rfl)
      rw [hrun, consume]
      dsimp only
      rw [if_neg (by simp [hfinalised]), ← hd, if_neg (by simp [hvalid, howner]), if_pos]
      unfold otherConsumes
      rw [hother]
      simp [hne, hlives]
    · refine hwait (consuming rc s) ?_ (consuming_aside rc s) (consuming_ofChain rc s) (fun _ _ => rfl)
      have hdesc : chainAt (consuming rc s) (pkChainId rc.packet) = setEpoch d { epochAt d d.epoch with
          consumer := some rc.ring, timer := (epochAt d d.epoch).timer || (cdIsKeystone d.image && !(epochAt d d.epoch).isOver) } := by
        rw [hd]
        exact chainAt_modEpoch_same _ _ _ _
      have hnothing : buildAndCommit rc (pkChainId rc.packet) (consuming rc s) = (rc, consuming rc s) := by
        refine buildAndCommit_waits ?_ ?_
        · rw [hdesc]
          exact hkeystone
        · have hepoch := consuming_epoch rc s d hd
          rw [hdesc] at hepoch ⊢
          rw [show (setEpoch d _).epoch = d.epoch from rfl, hepoch]
          exact hfinal
      rw [hrun, consume_contributed finish hd hfinalised hvalid howner hcontributed (otherConsumes_self hconsumes s),
        if_neg (by simp [hopen]), hnothing]
      dsimp only
      rw [if_neg (by simp [hfinalised])]

end


section
/-! SUPPORT. Contributions to an epoch, epochs that close, and HINGE_SEND (R341, R350, R353). -/

namespace Sys2Proof.Machine

open Sys2Proof.Claims

/-! ## Sparse maps -/

theorem spFind_spPut_same {α : Type} (m : Sparse α) (n : Nat) (x : α) : spFind (spPut m n x) n = some x := by
  induction m with
  | nil => simp [spPut, spFind]
  | cons y rest ih =>
    unfold spPut
    split
    · simp [spFind]
    · split
      · simp [spFind]
      · next hne => rw [spFind, if_neg (Ne.symm hne), ih]

theorem spFind_spPut_other {α : Type} (m : Sparse α) {n k : Nat} (x : α) (h : k ≠ n) : spFind (spPut m n x) k = spFind m k := by
  induction m with
  | nil => simp [spPut, spFind, Ne.symm h]
  | cons y rest ih =>
    unfold spPut
    split
    · rw [spFind, if_neg (Ne.symm h)]
    · split
      · next heq => rw [spFind, if_neg (Ne.symm h), spFind, if_neg (heq ▸ Ne.symm h)]
      · rw [spFind, spFind, ih]

/-! ## An epoch that closes -/

/-- An epoch as it is closed (R353). -/
def closedEpoch (x : Epoch) (reason : Status) : Epoch :=
  { x with phase := .closed, reason := reason, inputs := [], final := [], finalSettled := false, timer := false, sent := [] }

theorem closedEpoch_closed (x : Epoch) (r : Status) : Closed (closedEpoch x r) r := ⟨rfl, rfl, rfl, rfl, rfl, rfl⟩

theorem closeEpoch_epoch (c : Nat) (e : W32) (r : Status) (s : State) :
    epochAt (chainAt (closeEpoch c e r s) c) e = closedEpoch (epochAt (chainAt s c) e) r := by
  unfold closeEpoch
  rw [(storeRelease_quiet _).chainAt]
  exact epochAt_modEpoch_same s c e (f := fun x => closedEpoch x r) (epochAt_number _ _)

theorem failEpoch_epoch {c : Nat} {e : W32} {s : State} (r : Status) (hopen : (epochAt (chainAt s c) e).isOver = false)
    (hunsent : (epochAt (chainAt s c) e).finalSent = false) :
    epochAt (chainAt (failEpoch c e r s) c) e = closedEpoch (epochAt (chainAt s c) e) r := by
  have hretracts : ∀ b : Bool, Quiet s (if b then retractAll c e s else sendRetract c e (hopEntry (chainAt s c) (cdKeystone (chainAt s c).image)) s) := by
    intro b
    split
    · exact retractAll_quiet c e s
    · exact sendRetract_quiet c e _ s
  unfold failEpoch
  dsimp only
  rw [if_neg (by simp [hopen, hunsent]), closeEpoch_epoch, (hretracts _).chainAt]

theorem failEpoch_own (c : Nat) (e : W32) (r : Status) (s : State) :
    (epochAt (chainAt (failEpoch c e r s) c) e).own = (epochAt (chainAt s c) e).own := by
  by_cases h : (epochAt (chainAt s c) e).isOver = true ∨ (epochAt (chainAt s c) e).finalSent = true
  · unfold failEpoch
    dsimp only
    rw [if_pos (by rcases h with h | h <;> simp [h])]
  · rw [not_or] at h
    rw [failEpoch_epoch r (by simpa using h.1) (by simpa using h.2)]
    rfl

/-! ## Own rows -/

/-- Rows of a command join an epoch's own rows: a row already there is not replaced. -/
def joinOwn (rc : RunCmd) (settled : Bool) (rows : List (Nat × ChainRow)) (own : Sparse OwnRow) : Sparse OwnRow :=
  rows.foldl (fun o r => if (spFind o r.1).isSome then o else spPut o r.1 ⟨r.2, rc.ring, rc.seq, settled⟩) own

/-- A row that is there stays. -/
theorem spFind_joinOwn_of_some {rc : RunCmd} {settled : Bool} (rows : List (Nat × ChainRow)) {own : Sparse OwnRow} {n : Nat} {v : OwnRow}
    (h : spFind own n = some v) : spFind (joinOwn rc settled rows own) n = some v := by
  induction rows generalizing own with
  | nil => exact h
  | cons r rest ih =>
    refine ih ?_
    dsimp only
    split
    · exact h
    · next hnone =>
      rw [spFind_spPut_other, h]
      rintro rfl
      rw [h] at hnone
      exact hnone rfl

/-- A new row is there afterwards as the command's own. -/
theorem spFind_joinOwn_of_mem {rc : RunCmd} {settled : Bool} {rows : List (Nat × ChainRow)} {own : Sparse OwnRow} {r : Nat × ChainRow}
    (hmem : r ∈ rows) (hone : ∀ x ∈ rows, x.1 = r.1 → x = r) (hnew : spFind own r.1 = none) :
    spFind (joinOwn rc settled rows own) r.1 = some ⟨r.2, rc.ring, rc.seq, settled⟩ := by
  induction rows generalizing own with
  | nil => cases hmem
  | cons x rest ih =>
    by_cases hx : x.1 = r.1
    · have hxr : x = r := hone x List.mem_cons_self hx
      refine spFind_joinOwn_of_some rest ?_
      rw [hxr]
      dsimp only
      rw [if_neg (by simp [hnew])]
      exact spFind_spPut_same _ _ _
    · have hrest : r ∈ rest := by
        rcases List.mem_cons.mp hmem with rfl | h
        · exact absurd rfl hx
        · exact h
      refine ih hrest (fun y hy => hone y (List.mem_cons_of_mem _ hy)) ?_
      dsimp only
      split
      · exact hnew
      · rw [spFind_spPut_other _ _ (Ne.symm hx), hnew]

theorem Sends.own {c : Nat} {e : W32} {s t : State} (h : Sends c e s t) :
    (epochAt (chainAt t c) e).own = (epochAt (chainAt s c) e).own := by rw [h.epoch.1]

/-- The current epoch takes the rows of a contribution. -/
theorem contributeRows_own {c : Nat} {s : State} (rows : List (Nat × ChainRow)) (rc : RunCmd) (settled : Bool) {d : ChainDesc}
    (hd : d = chainAt s c) (hopen : (epochAt d d.epoch).isOver = false) :
    (epochAt (chainAt (contributeRows c rows rc settled s) c) d.epoch).own = joinOwn rc settled rows (epochAt d d.epoch).own := by
  have hjoined : (epochAt (chainAt (modEpoch s c d.epoch (fun y => { y with own := joinOwn rc settled rows (epochAt d d.epoch).own })) c) d.epoch).own
      = joinOwn rc settled rows (epochAt d d.epoch).own := by rw [epochAt_modEpoch_same s c d.epoch (epochAt_number _ _)]
  unfold contributeRows
  dsimp only
  rw [← hd, if_neg (by simp [hopen])]
  rw [show rows.foldl (fun o r => if (spFind o r.1).isSome then o else spPut o r.1 ⟨r.2, rc.ring, rc.seq, settled⟩) (epochAt d d.epoch).own
    = joinOwn rc settled rows (epochAt d d.epoch).own from rfl]
  split
  · rw [failEpoch_own, (countEvent_quiet _ _ _ _).chainAt, hjoined]
  · rw [(settleNotice_sends c d.epoch _).own, (forwardRows_sends c d.epoch _).own, hjoined]

/-! ## HINGE_SEND -/

/-- Digest links join the inputs of a command and change nothing else of it. -/
theorem addLinks_inputs (s : State) (rc : RunCmd) : ∃ l, addLinks s rc = { rc with prog := { rc.prog with inputs := l } } := by
  unfold addLinks addInput
  split
  · exact ⟨_, rfl⟩
  · split
    · exact ⟨_, rfl⟩
    · exact ⟨_, rfl⟩

/-- A fresh command with the digest links of its range has noted nothing else. -/
theorem addLinks_noted {rc : RunCmd} (hfresh : Fresh rc) (s : State) :
    RecordNoted rc (addLinks s (passed rc)) ∧ (addLinks s (passed rc)).tainted = false := by
  obtain ⟨hprog, hfailed, htainted⟩ := hfresh
  obtain ⟨l, hlinks⟩ := addLinks_inputs s (passed rc)
  rw [hlinks]
  refine ⟨⟨rfl, rfl, rfl, hfailed, rfl, ?_, ?_, ?_, ?_⟩, htainted⟩ <;>
  · unfold passed
    rw [hprog]
    rfl

/-- The chain rows of a range are one for each row. -/
theorem chainRowsOf_one {s : State} {rc : RunCmd} {hs : List Nat} {x y : Nat × ChainRow} (hx : x ∈ chainRowsOf s rc hs)
    (hy : y ∈ chainRowsOf s rc hs) (h : x.1 = y.1) : x = y := by
  unfold chainRowsOf at hx hy
  dsimp only at hx hy
  split at hx
  · cases hx
  · next hsome =>
    rw [if_neg hsome] at hy
    obtain ⟨a, ha, rfl⟩ := List.mem_map.mp hx
    obtain ⟨b, hb, rfl⟩ := List.mem_map.mp hy
    simp only [List.mem_filter, Bool.and_eq_true, decide_eq_true_eq] at ha hb
    have hab : a = b := by
      dsimp only at h
      omega
    rw [hab]

/-- The state once a HINGE_SEND has sent its rows. -/
def rowsSent (rc : RunCmd) (rows : List (Nat × ChainRow)) (s : State) : State :=
  if rows.isEmpty then s else contributeRows (pkChainId rc.packet) rows rc true s

theorem rowsSent_aside (rc : RunCmd) (rows : List (Nat × ChainRow)) (s : State) : Aside s (rowsSent rc rows s) := by
  unfold rowsSent
  split
  · exact Aside.refl s
  · exact contributeRows_aside _ _ _ _ _

theorem rowsSent_ofChain (rc : RunCmd) (rows : List (Nat × ChainRow)) (s : State) : OfChain (pkChainId rc.packet) s (rowsSent rc rows s) := by
  unfold rowsSent
  split
  · exact .refl _ s
  · exact contributeRows_ofChain _ _ _ _ _

end Sys2Proof.Machine

open Sys2Proof Sys2Proof.Machine Sys2Proof.Claims

/-- Settles O28: the new rows join the current epoch before the completion, which changes no chain. -/
theorem hingeSendSendsItsRows : Obligations.HingeSendSendsItsRows := by
  unfold Obligations.HingeSendSendsItsRows
  intro s rc k d rows hissues hf0 hpasses hfresh hk hd hrows
  subst hk
  obtain ⟨hnoted, htainted⟩ := addLinks_noted hfresh s
  have hrowsOf : chainRowsOf s (addLinks s (passed rc)) (rangeHandles (addLinks s (passed rc))) = chainRowsOf s rc (rangeHandles rc) := by
    obtain ⟨l, hlinks⟩ := addLinks_inputs s (passed rc)
    rw [hlinks]
    rfl
  obtain ⟨c, hc⟩ : ∃ c, c = addLinks s (passed rc) := ⟨_, rfl⟩
  rw [← hc] at hnoted htainted hrowsOf
  have hpacket := hnoted.packet
  have hstatus : finalStatus c .ok = .ok := by rw [hnoted.status, htainted]; rfl
  have hrun : hingeSendRow s = completeCmd c .ok 0 0 rows.length (rowsSent c rows s) := by
    have hbody : hingeSendRow s = hingeSend (passed rc) s := by
      rw [hingeSendRow, issueIf_runs hissues.issues hissues.held hissues.running (by simp [hissues.opcode, hf0])]
      exact checkedThen_good _ _ hpasses.unchecked hpasses.good
    rw [hbody, hingeSend]
    rw [← hc, hrowsOf, hpacket, ← hd, ← hrows]
    unfold rowsSent
    rw [hpacket]
  have haside := rowsSent_aside c rows s
  have hchain := rowsSent_ofChain c rows s
  have hchainless : chainless c.packet := .inr (by rw [hpacket, hissues.opcode]; decide)
  have hcalm := completeCmd_calm hchainless .ok 0 0 rows.length (rowsSent c rows s)
  have hchainAt : ∀ j, chainAt (completeCmd c .ok 0 0 rows.length (rowsSent c rows s)) j = chainAt (rowsSent c rows s) j := by
    intro j
    unfold chainAt
    rw [hcalm.chains]
  rw [hpacket] at hchain
  have hcpl : cplOf c .ok 0 0 rows.length = okCpl rc 0 rows.length := by
    rw [hnoted.cpl, htainted, okCpl_fresh hfresh]
    rfl
  refine ⟨completeCmd c .ok 0 0 rows.length (rowsSent c rows s), ?_, ?_, fun j hj => ?_, fun hvalid hopen r hr => ?_, fun hnone => ⟨?_, ?_⟩⟩
  · rw [← hcpl]
    exact command_completes rc c .ok 0 0 rows.length hrun hissues.cached haside.toNear.works hnoted.ring hpacket hnoted.seq
  · rw [completeCmd_slots_none _ _ _ _ _ _ (by simp [hstatus]) hnoted.reduced hnoted.changed, haside.slots]
  · rw [hchainAt, hchain.others j hj]
  · have hnew : r ∈ chainRowsOf s rc (rangeHandles rc) ∧ spFind (epochAt d d.epoch).own r.1 = none := by
      rw [hrows] at hr
      simpa using List.mem_filter.mp hr
    have hone : ∀ x ∈ rows, x.1 = r.1 → x = r := by
      intro x hx hxr
      rw [hrows] at hx
      exact chainRowsOf_one (List.mem_filter.mp hx).1 hnew.1 hxr
    rw [hchainAt]
    unfold rowsSent
    rw [if_neg (by simpa using List.ne_nil_of_mem hr), hpacket, contributeRows_own rows c true hd hopen,
      spFind_joinOwn_of_mem hr hone hnew.2, hnoted.ring, hnoted.seq]
  · rw [hcalm.chains]
    unfold rowsSent
    rw [hnone]
    rfl
  · have hsame : rowsSent c rows s = s := by
      unfold rowsSent
      rw [hnone]
      rfl
    rw [hsame]
    have honly := completeCmd_onlyCompletion (base := .ok) 0 0 rows.length hissues.cached (Works.refl s) (Outside.refl [] s) hnoted.ring hpacket
      (by simp [hstatus]) (by simp [hstatus])
    rwa [hstatus] at honly

end


section
/-! SUPPORT. A load of a chain that is not valid, but that a command of another ring names: the chain is busy (R327). -/

namespace Sys2Proof.Machine

open Sys2Proof.Claims

/-- The load form of chain 9 by VI 5, its image at 0x6000. -/
def loadPacket : BitVec 512 :=
  BitVec.ofNat 512 (0x18 + 5 * 2 ^ 8 + 2 ^ 20 + 0x8000 * 2 ^ 128 + 2 ^ 296 + 9 * 2 ^ 320 + 2 ^ 335)

def loadCommand : RunCmd :=
  { ring := 3, vi := 5, seq := 0, packet := loadPacket, descs := [(0, BitVec.ofNat 256 (0x6000 + 2 ^ 192))], tumbler := 0, poisonedFetch := false,
    latched := ⟨false, false, 0, false, false, 4, 0, 112, 0, false⟩, bank := some 0, tableId := 0, key := none, phase := .running,
    wait := .nothing, tainted := false, failed := none, retained := false, prog := Progress.zero }

/-- HINGE_WAIT of ring 4 that names chain 9. -/
def otherCommand : RunCmd :=
  { loadCommand with
    ring := 4, packet := BitVec.ofNat 512 (0x19 + 5 * 2 ^ 8 + 4 * 2 ^ 192 + 9 * 2 ^ 320 + 2 ^ 335), descs := [],
    phase := .blocked false, wait := .final 9 }

/-- The image of member 0 of a line of two with one row at handle 4, its member table at 0x5000 (R322). -/
def loadImage : BitVec 512 := BitVec.ofNat 512 (1 + 2 ^ 16 + 2 ^ 28 + 0x5000 * 2 ^ 64 + 4 * 2 ^ 128 + 2 ^ 144)

/-- The unit with the load at work, the image in memory, and ring 4's command waiting; no chain is valid. -/
def busyState : State :=
  writeBytes { State.reset with
    ctl := { State.reset.ctl with state := .active, fence := false, refuse := false, ringsLost := false, resetSinceFence := false }
    pwr := { State.reset.pwr with grant := 88 }
    rings := { State.reset.rings with
      cache := [⟨3, expandCtx, true⟩, ⟨4, { expandCtx with state := .blocked }, true⟩], cmds := [loadCommand, otherCommand],
      holder := some 3 } } .device 0x6000 (natBytes 64 loadImage.toNat)

theorem busyState_issues : Issues busyState loadCommand 0x18 where
  issues := by decide +kernel
  held := by decide +kernel
  running := rfl
  opcode := by decide +kernel
  cached := by decide +kernel

theorem busyState_passes : Passes busyState loadCommand where
  unchecked := rfl
  good := by decide +kernel

theorem busyState_image : BitVec.ofNat 512 (readNat busyState .device 0x6000 64) = loadImage ∧ checkImage loadImage = none
    ∧ rangePoison busyState .device 0x6000 64 = false ∧ rangePoison busyState .device (cdTable loadImage) (4 * cdMembers loadImage) = false
    ∧ checkEntries ((List.range (cdMembers loadImage)).map (fun m =>
        (m, BitVec.ofNat 32 (readNat busyState .device (cdTable loadImage + 4 * m) 4)))) = none := by decide +kernel

theorem loadCommand_names : descAt loadCommand 0 = (.device, 0x6000) ∧ pkF0 loadPacket = true ∧ pkChainId loadPacket = 9 := by decide +kernel

theorem busyState_busy : (chainAt busyState 9).valid = false ∧ chainBusy busyState (passed loadCommand) 9 = true := by decide +kernel

/-- The load is refused. -/
theorem busyState_refused : hingeLoadRow busyState = refuseCmd (passed loadCommand) 40 busyState := by
  have hbody : hingeLoadRow busyState = hingeLoad (passed loadCommand) busyState := by
    rw [hingeLoadRow, issueIf_runs busyState_issues.issues busyState_issues.held busyState_issues.running (by decide +kernel)]
    exact checkedThen_good _ _ busyState_passes.unchecked busyState_passes.good
  have hname : pkChainId (passed loadCommand).packet = 9 := loadCommand_names.2.2
  rw [hbody, hingeLoad]
  dsimp only
  rw [hname, busyState_busy.2, Bool.or_true, if_pos rfl]

/-- A refused load leaves every chain. -/
theorem refuseCmd_chains {rc : RunCmd} (h : chainless rc.packet) (d : Nat) (s : State) : (refuseCmd rc d s).chains = s.chains :=
  (completeCmd_calm (rc := { rc with failed := none, tainted := false }) h .badCommand d 0 0 s).chains

end Sys2Proof.Machine

open Sys2Proof Sys2Proof.Machine Sys2Proof.Claims

/-- Refutes O29: a chain that is not valid is busy all the same while another ring's command names it (R327), and the load is refused. -/
theorem not_hingeLoadSetsUpItsChain : ¬ Obligations.HingeLoadSetsUpItsChain := by
  unfold Obligations.HingeLoadSetsUpItsChain
  intro h
  obtain ⟨hdesc, hf0, hname⟩ := loadCommand_names
  obtain ⟨hread, himage, hclean, htable, hentries⟩ := busyState_image
  obtain ⟨hgood, -⟩ := h busyState loadCommand 9 loadImage busyState_issues hf0 busyState_passes ⟨rfl, rfl, rfl⟩ hname.symm
    (.inl (by rw [show pkChainId loadCommand.packet = 9 from hname]; exact busyState_busy.1)) (by rw [hdesc]; exact hread.symm)
    (by rw [hdesc]; exact hclean)
  obtain ⟨t, ⟨hexec, -⟩, -, -, hloaded, -⟩ := hgood himage htable hentries
  have hnext : exec .hingeSendLoad busyState
      = .next { refuseCmd (passed loadCommand) 40 busyState with pending := busyState.pending, cfg := busyState.cfg } :=
    command_to busyState_refused
  have hchains := refuseCmd_chains (rc := passed loadCommand) (.inr (by decide +kernel)) 40 busyState
  generalize refuseCmd (passed loadCommand) 40 busyState = u at hnext hchains
  obtain rfl := Host.Outcome.next.inj (hnext.symm.trans hexec)
  have hvalid : (chainAt busyState 9).valid = true := by
    unfold chainAt at hloaded ⊢
    rw [← hchains, hloaded]
    rfl
  rw [busyState_busy.1] at hvalid
  cases hvalid

end


section
/-! SUPPORT. Hinge packets as they arrive: what answering, counting and returning credits leave alone (R334, R336, R337, R356). -/

namespace Sys2Proof.Machine

open Sys2Proof.Claims

/-! ## Headers -/

/-- A header's type and length, as they are read back. -/
theorem headBits_type {h : HingeHead} (htype : h.type < 8) (inc src : BitVec 16) : hdType (headBits h inc src) = h.type := by
  unfold hdType headBits field place
  rw [BitVec.toNat_ofNat]
  norm_num
  omega

/-- A header without payload. -/
structure PlainHead (h : HingeHead) : Prop where
  type    : h.type < 8
  settled : h.settled = false
  ptype   : h.ptype = ptypeNone
  level   : h.level = 0
  reason  : h.reason < 8
  chain   : h.chain < 2 ^ 10
  member  : h.member < 2 ^ 7
  rows    : h.rows = 0
  dst     : h.dst < 2 ^ 16
  row0    : h.row0 = 0
  len     : h.len = 0

theorem PlainHead.len_zero {h : HingeHead} (k : PlainHead h) (inc src : BitVec 16) : hdLen (headBits h inc src) = 0 := by
  have hepoch := h.epoch.isLt
  have hinc := inc.isLt
  have hsrc := src.isLt
  have hreply : boolNat h.reply ≤ 1 := by unfold boolNat; split <;> omega
  obtain ⟨htype, hsettled, hptype, hlevel, hreason, hchain, hmember, hrows, hdst, hrow0, hlen⟩ := k
  unfold hdLen headBits field place
  rw [BitVec.toNat_ofNat, hsettled, hptype, hlevel, hrows, hrow0, hlen]
  unfold ptypeNone boolNat
  norm_num
  unfold boolNat at hreply
  omega

theorem blank_plain {type chain member dst reason : Nat} (epoch : W32) (reply : Bool) (htype : type < 8) (hreason : reason < 8)
    (hchain : chain < 2 ^ 10) (hmember : member < 2 ^ 7) (hdst : dst < 2 ^ 16) :
    PlainHead { HingeHead.blank type chain epoch member dst with reason := reason, reply := reply } :=
  ⟨htype, rfl, rfl, rfl, hreason, hchain, hmember, rfl, hdst, rfl, rfl⟩

/-- A plain packet is one flit. -/
theorem PlainHead.flits {h : HingeHead} (k : PlainHead h) (inc src : BitVec 16) (bs : List Byte) :
    packetFlits ⟨headBits h inc src, bs⟩ = 1 := by
  unfold packetFlits
  rw [k.len_zero]
  rfl

/-! ## What stands aside of a packet -/

/-- Neither a chain nor a slot differs, nor the unit's control state. -/
structure Apart (s t : State) : Prop extends Quiet s t where
  slots : t.slots = s.slots
  ctl   : t.ctl = s.ctl

theorem Apart.refl (s : State) : Apart s s := ⟨Quiet.refl s, rfl, rfl⟩

theorem Apart.trans {s t u : State} (h : Apart s t) (k : Apart t u) : Apart s u :=
  ⟨h.toQuiet.trans k.toQuiet, k.slots.trans h.slots, k.ctl.trans h.ctl⟩

theorem countEvent_apart (c n : Nat) (v : Option ViId) (s : State) : Apart s (countEvent c n v s) :=
  ⟨countEvent_quiet c n v s, by simp, by simp⟩

theorem hinge_apart (s : State) (h : HingePort) : Apart s { s with hinge := h } := ⟨hinge_quiet s h, rfl, rfl⟩

theorem emit_apart (s : State) (e : OutEvent) : Apart s (emit s e) := ⟨emit_quiet s e, rfl, rfl⟩

theorem returnFlits_apart (ch n : Nat) (s : State) : Apart s (returnFlits ch n s) := (hinge_apart s _).trans (emit_apart _ _)

theorem rxCredit_apart (p : HingePacket) (s : State) : Apart s (rxCredit p s) := returnFlits_apart _ _ s

theorem takeFlits_apart (p : HingePacket) (s : State) : Apart s (takeFlits p s) := hinge_apart s _

theorem wake_apart (s : State) : Apart s (wake s) := by
  refine ⟨⟨?_, ?_, ?_, ?_⟩, ?_, ?_⟩ <;> simp

theorem storeRelease_apart (s : State) : Apart s (storeRelease s) := by
  unfold storeRelease
  split
  · exact (hinge_apart s _).trans (returnFlits_apart _ _ _)
  · exact Apart.refl s

theorem hingeOut_apart (twin : Bool) (o : ViId) (p : HingePacket) (s : State) : Apart s (hingeOut twin o p s) :=
  ⟨hingeOut_quiet twin o p s, (hingeOut_aside twin o p s).slots, (hingeOut_aside twin o p s).ctl⟩

theorem answer_apart (p : HingePacket) (type reason : Nat) (reply : Bool) (e : W32) (s : State) : Apart s (answer p type reason reply e s) :=
  hingeOut_apart _ _ _ s

/-! ## Arriving -/

/-- The state with a packet of its type counted (R598, R336). -/
def arrived (p : HingePacket) (s : State) : State := countEvent 0x51 1 (chainVi s (hdChain p.header)) (takeFlits p (wake s))

theorem arrived_apart (p : HingePacket) (s : State) : Apart s (arrived p s) :=
  ((wake_apart s).trans (takeFlits_apart p _)).trans (countEvent_apart _ _ _ _)

/-- The transmit side of the hinge port is not concerned, nor is memory or the determinism controls. -/
theorem arrived_port (p : HingePacket) (s : State) : (arrived p s).hinge.credits = s.hinge.credits
    ∧ (arrived p s).hinge.waiting = s.hinge.waiting ∧ (arrived p s).hinge.resend = s.hinge.resend := by
  unfold arrived takeFlits
  simp

theorem arrived_dev (p : HingePacket) (s : State) : (arrived p s).dev = s.dev ∧ (arrived p s).det = s.det := by
  unfold arrived takeFlits
  simp

theorem rxCredit_port (p : HingePacket) (s : State) : (rxCredit p s).hinge.credits = s.hinge.credits
    ∧ (rxCredit p s).hinge.waiting = s.hinge.waiting ∧ (rxCredit p s).hinge.resend = s.hinge.resend := ⟨rfl, rfl, rfl⟩

theorem arrive_listens {type : Nat} {p : HingePacket} (body : State → State) {s : State} (hactive : s.ctl.state = .active)
    (htype : hdType p.header = type) : arrive type p body s = body (arrived p s) := by
  unfold arrive hingeListens
  dsimp only
  rw [if_neg (by simp [hactive]), if_pos htype]
  rfl

theorem arrive_deaf {type : Nat} {p : HingePacket} (body : State → State) {s : State} (hinactive : s.ctl.state ≠ .active) :
    arrive type p body s = s := by
  unfold arrive hingeListens
  dsimp only
  rw [if_pos (by simp [hinactive])]

theorem arrive_reserved {type : Nat} {p : HingePacket} (body : State → State) {s : State} (hactive : s.ctl.state = .active)
    (htype : hdType p.header ≠ type) (hreserved : 5 ≤ hdType p.header) :
    arrive type p body s = countEvent 0x52 1 (chainVi s (hdChain p.header)) (countEvent 0x51 1 (chainVi s (hdChain p.header))
      (rxCredit p (takeFlits p (wake s)))) := by
  unfold arrive hingeListens
  dsimp only
  rw [if_neg (by simp [hactive]), if_neg htype, if_pos hreserved]

/-- The rows of packets, by what they do with one of their type. -/
theorem packetRow_exec {c : Instr} {type : Nat} {p : HingePacket} (h : packetRow c = some (type, p)) :
    type ≤ 4 ∧ ∃ body, (∀ s, exec c s = command (arrive type p body) s) ∧ (type = 0 → body = partialBody p) ∧ (type = 1 → body = finalBody p) := by
  unfold packetRow at h
  split at h <;> cases h
  · exact ⟨by decide, partialBody p, fun _ => rfl, fun _ => rfl, fun h => by cases h⟩
  · exact ⟨by decide, finalBody p, fun _ => rfl, fun h => by (cases h), fun _ => rfl⟩
  · exact ⟨by decide, retractBody p, fun _ => rfl, fun h => by (cases h), fun h => by cases h⟩
  · exact ⟨by decide, nackBody p, fun _ => rfl, fun h => by (cases h), fun h => by cases h⟩
  · exact ⟨by decide, probeBody p, fun _ => rfl, fun h => by (cases h), fun h => by cases h⟩

/-! ## Incarnations -/

theorem meetIncarnation_same {p : HingePacket} {s : State} (h : sameIncarnation (chainAt s (hdChain p.header)) p) :
    meetIncarnation p s = some s := by
  unfold sameIncarnation at h
  unfold meetIncarnation
  dsimp only
  rw [h]
  exact if_pos rfl

theorem meetIncarnation_first {p : HingePacket} {s : State} {d : ChainDesc} (hd : chainAt s (hdChain p.header) = d)
    (h : incOf d (hdSrc p.header) = none) :
    meetIncarnation p s = some (setChain s (hdChain p.header) { d with incs := (hdSrc p.header, hdInc p.header) :: d.incs }) := by
  have hnone : d.incs.filter (fun r => decide (r.1 ≠ hdSrc p.header)) = d.incs := by
    refine List.filter_eq_self.mpr fun r hr => ?_
    unfold incOf at h
    rw [Option.map_eq_none_iff, List.find?_eq_none] at h
    simpa using h r hr
  unfold meetIncarnation
  dsimp only
  rw [hd, h, hnone]

theorem meetIncarnation_older {p : HingePacket} {s : State} {d : ChainDesc} (hd : chainAt s (hdChain p.header) = d) {old : BitVec 16}
    (h : incOf d (hdSrc p.header) = some old) (hne : hdInc p.header ≠ old) (holder : incOlder (hdInc p.header) old = true) :
    meetIncarnation p s = none := by
  unfold meetIncarnation
  dsimp only
  rw [hd, h]
  dsimp only
  rw [if_neg hne, if_pos holder]

/-- A chain with a newer incarnation of a sender. -/
def renewed (p : HingePacket) (d : ChainDesc) : ChainDesc :=
  { d with
    incs := (hdSrc p.header, hdInc p.header) :: d.incs.filter (fun r => decide (r.1 ≠ hdSrc p.header))
    epochs := d.epochs.map (dropUnsettled (hdSrc p.header)) }

theorem meetIncarnation_newer {p : HingePacket} {s : State} {d : ChainDesc} (hd : chainAt s (hdChain p.header) = d) {old : BitVec 16}
    (h : incOf d (hdSrc p.header) = some old) (hne : hdInc p.header ≠ old) (holder : incOlder (hdInc p.header) old = false) :
    meetIncarnation p s = some (storeRelease (setChain s (hdChain p.header) (renewed p d))) := by
  unfold meetIncarnation
  dsimp only
  rw [hd, h]
  dsimp only
  rw [if_neg hne, if_neg (by simp [holder])]
  rfl

theorem dropUnsettled_isOver (src : BitVec 16) (x : Epoch) : (dropUnsettled src x).isOver = x.isOver := rfl

theorem epochAt_renewed_isOver (p : HingePacket) (d : ChainDesc) (e : W32) : (epochAt (renewed p d) e).isOver = (epochAt d e).isOver := by
  unfold epochAt renewed
  dsimp only
  rw [List.find?_map, show (fun x : Epoch => decide (x.number = e)) ∘ dropUnsettled (hdSrc p.header) = fun x => decide (x.number = e) from rfl]
  cases d.epochs.find? (fun x => decide (x.number = e)) with
  | none => rfl
  | some x => exact dropUnsettled_isOver _ x

theorem epochStale_renewed (p : HingePacket) (d : ChainDesc) (e : W32) : epochStale (renewed p d) e = epochStale d e := by
  unfold epochStale
  rw [epochAt_renewed_isOver]
  rfl

theorem incOf_renewed (p : HingePacket) (d : ChainDesc) : incOf (renewed p d) (hdSrc p.header) = some (hdInc p.header) := by
  unfold incOf renewed
  simp

/-! ## PARTIAL and FINAL that come to nothing -/

/-- A PARTIAL or FINAL of a valid chain, from an older incarnation or for a stale epoch, changes no more than its sender's record. -/
theorem drops_packet {p : HingePacket} {body : State → State} (hbody : body = partialBody p ∨ body = finalBody p) {s : State}
    (hvalid : (chainAt s (hdChain p.header)).valid = true) : ∃ u, Apart s u ∧ (meetIncarnation p u = none → Apart s (body s))
      ∧ ∀ s1, meetIncarnation p u = some s1 → epochStale (chainAt s1 (hdChain p.header)) (hdEpoch p.header) = true → Apart s1 (body s) := by
  rcases hbody with rfl | rfl
  · refine ⟨s, Apart.refl s, fun hnone => ?_, fun s1 hsome hstale => ?_⟩
    · unfold partialBody
      dsimp only
      rw [if_neg (by simp [hvalid]), hnone]
      exact (rxCredit_apart p s).trans (countEvent_apart _ _ _ _)
    · unfold partialBody
      dsimp only
      rw [if_neg (by simp [hvalid]), hsome]
      dsimp only
      rw [if_pos hstale]
      exact (rxCredit_apart p s1).trans (countEvent_apart _ _ _ _)
  · have hcredit : chainAt (rxCredit p s) (hdChain p.header) = chainAt s (hdChain p.header) := rfl
    refine ⟨rxCredit p s, rxCredit_apart p s, fun hnone => ?_, fun s1 hsome hstale => ?_⟩
    · unfold finalBody
      dsimp only
      rw [hcredit, if_neg (by simp [hvalid]), hnone]
      exact (rxCredit_apart p s).trans (countEvent_apart _ _ _ _)
    · unfold finalBody
      dsimp only
      rw [hcredit, if_neg (by simp [hvalid]), hsome]
      dsimp only
      rw [if_pos hstale]
      exact countEvent_apart _ _ _ _

/-! ## Answers -/

/-- A packet with credits that no other waits before on its channel leaves at once. -/
theorem hingeOut_sends {p : HingePacket} {s : State} (o : ViId) (hfirst : isSecondary s = false)
    (hnone : s.hinge.waiting.any (fun q => decide (packetChannel q = packetChannel p)) = false)
    (hcredits : packetFlits p ≤ spGet 0 s.hinge.credits (packetChannel p)) :
    OutEvent.hngTx false (onWire p) ∈ (hingeOut false o p s).out := by
  have hshown : isSecondary (showTwin (shownPacket p) s) = false := (isSecondary_eq (by simp) (by simp)).trans hfirst
  unfold hingeOut
  dsimp only
  rw [if_neg (by simp [hshown]), if_neg (by simp), showTwin_hinge, if_neg (by simp [hnone, hcredits])]
  simp

/-- A unit without the chain answers NACK with reason 3 (R357). -/
theorem answer_nack {p : HingePacket} {s : State} (hinvalid : (chainAt s (hdChain p.header)).valid = false) (hfirst : isSecondary s = false)
    (hnone : s.hinge.waiting.any (fun q => decide (packetChannel q = 2)) = false) (hcredits : spGet 0 s.hinge.credits 2 ≠ 0) :
    OutEvent.hngTx false (onWire ⟨headBits { HingeHead.blank 3 (hdChain p.header) (hdEpoch p.header) 0 (hdSrc p.header).toNat with
      reason := 3 } s.ctl.incarnation s.mg.unitAddress, []⟩) ∈ (answer p typeNack 3 false (hdEpoch p.header) s).out := by
  obtain ⟨h, hh⟩ : ∃ h : HingeHead, h = { HingeHead.blank 3 (hdChain p.header) (hdEpoch p.header) 0 (hdSrc p.header).toNat with reason := 3 } :=
    ⟨_, rfl⟩
  have hplain : PlainHead h := by
    rw [hh]
    exact blank_plain (type := 3) (member := 0) (reason := 3) _ false (by decide) (by decide) (field_lt_pow _ _ _) (by decide)
      (hdSrc p.header).isLt
  have hchannel : packetChannel ⟨headBits h s.ctl.incarnation s.mg.unitAddress, []⟩ = 2 := by
    unfold packetChannel
    rw [headBits_type hplain.type, hh]
    rfl
  have hanswer : answer p typeNack 3 false (hdEpoch p.header) s
      = hingeOut false (chainAt s (hdChain p.header)).owner ⟨headBits h s.ctl.incarnation s.mg.unitAddress, []⟩ s := by
    unfold answer
    dsimp only
    rw [hinvalid, hh]
    rfl
  rw [hanswer, ← hh]
  refine hingeOut_sends _ hfirst (by rw [hchannel]; exact hnone) ?_
  rw [hchannel, hplain.flits]
  omega

/-- A PARTIAL or FINAL for a chain that is not valid is answered. -/
theorem unknown_answered {p : HingePacket} {body : State → State} (hbody : body = partialBody p ∨ body = finalBody p) {s : State}
    (hinvalid : (chainAt s (hdChain p.header)).valid = false) (hhead : headReserved p.header = false) :
    body s = answer p typeNack 3 false (hdEpoch p.header) (rxCredit p s) := by
  rcases hbody with rfl | rfl
  · unfold partialBody
    dsimp only
    rw [if_pos (by simp [hinvalid]), if_neg (by simp [hhead])]
  · unfold finalBody
    dsimp only
    rw [show chainAt (rxCredit p s) (hdChain p.header) = chainAt s (hdChain p.header) from rfl, if_pos (by simp [hinvalid]),
      if_neg (by simp [hhead])]

theorem epochStale_incs (d : ChainDesc) (l : List (BitVec 16 × BitVec 16)) (e : W32) : epochStale { d with incs := l } e = epochStale d e := rfl

end Sys2Proof.Machine

open Sys2Proof Sys2Proof.Machine Sys2Proof.Claims

/-- Settles O30: what drops a packet, counts it or answers it stands aside of chains and slots; a sender's new incarnation changes its
record and its unsettled inputs. -/
theorem packetsForNothingAreDropped : Obligations.PacketsForNothingAreDropped := by
  unfold Obligations.PacketsForNothingAreDropped
  intro c s p type d hrow hd
  obtain ⟨htypes, body, hexec, hpartial, hfinal⟩ := packetRow_exec hrow
  have hnext : ∀ u, arrive type p body s = u → exec c s = .next { u with pending := s.pending, cfg := s.cfg } := fun u hu =>
    (hexec s).trans (command_to hu)
  refine ⟨fun hinactive => hnext s (arrive_deaf body hinactive), fun hactive hreserved => ?_, fun hactive htype htwo => ?_⟩
  · have hstep := hnext _ (arrive_reserved body hactive (by omega) hreserved)
    have hcounted : Apart s (countEvent 0x52 1 (chainVi s (hdChain p.header)) (countEvent 0x51 1 (chainVi s (hdChain p.header))
        (rxCredit p (takeFlits p (wake s))))) :=
      (((wake_apart s).trans (takeFlits_apart p _)).trans (rxCredit_apart p _)).trans
        ((countEvent_apart _ _ _ _).trans (countEvent_apart _ _ _ _))
    exact ⟨_, hstep, hcounted.chains, hcounted.slots, by simp [rxCredit, returnFlits]⟩
  · have hbody : body = partialBody p ∨ body = finalBody p := htwo.imp hpartial hfinal
    have hstep := hnext _ (arrive_listens body hactive htype)
    have harrived := arrived_apart p s
    have hchain : chainAt (arrived p s) (hdChain p.header) = d := by rw [harrived.chainAt, hd]
    refine ⟨fun hinvalid hhead hfirst hnone hcredits => ?_, fun hvalid hsame hstale => ?_, fun hvalid hnone hstale => ?_,
      fun old hvalid hold hne => ⟨fun holder => ?_, fun holder hstale => ?_⟩⟩
    · rw [unknown_answered hbody (by rw [hchain]; exact hinvalid) hhead] at hstep
      have hcredited := harrived.trans (rxCredit_apart p _)
      have hanswered := hcredited.trans (answer_apart p typeNack 3 false (hdEpoch p.header) _)
      obtain ⟨hport, hwaiting, -⟩ := arrived_port p s
      have hsends := answer_nack (p := p) (s := rxCredit p (arrived p s)) (by rw [hcredited.chainAt, ← hd]; exact hinvalid)
        ((isSecondary_eq (by rw [hcredited.twin]) (by rw [hcredited.twin])).trans hfirst)
        (by rw [show (rxCredit p (arrived p s)).hinge.waiting = s.hinge.waiting from hwaiting]; exact hnone)
        (by rw [show (rxCredit p (arrived p s)).hinge.credits = s.hinge.credits from hport]; exact hcredits)
      rw [hcredited.ctl, hcredited.mg] at hsends
      exact ⟨_, hstep, hanswered.chains, hanswered.slots, hsends⟩
    · obtain ⟨u, hu, -, hdrops⟩ := drops_packet hbody (s := arrived p s) (by rw [hchain]; exact hvalid)
      have hdesc : chainAt u (hdChain p.header) = d := by rw [hu.chainAt, hchain]
      have hdropped := (harrived.trans hu).trans
        (hdrops u (meetIncarnation_same (by rw [hdesc]; exact hsame)) (by rw [hdesc]; exact hstale))
      exact ⟨_, hstep, hdropped.chains, hdropped.slots⟩
    · obtain ⟨u, hu, -, hdrops⟩ := drops_packet hbody (s := arrived p s) (by rw [hchain]; exact hvalid)
      have hdesc : chainAt u (hdChain p.header) = d := by rw [hu.chainAt, hchain]
      have hdropped := hdrops _ (meetIncarnation_first hdesc hnone) (by rw [chainAt_setChain_same]; exact hstale)
      refine ⟨_, hstep, hdropped.slots.trans (hu.slots.trans harrived.slots), ?_⟩
      have hset := hdropped.chainAt (hdChain p.header)
      rw [chainAt_setChain_same] at hset
      exact hset
    · obtain ⟨u, hu, hdrops, -⟩ := drops_packet hbody (s := arrived p s) (by rw [hchain]; exact hvalid)
      have hdesc : chainAt u (hdChain p.header) = d := by rw [hu.chainAt, hchain]
      have hdropped := harrived.trans (hdrops (meetIncarnation_older hdesc hold hne holder))
      exact ⟨_, hstep, hdropped.chains, hdropped.slots⟩
    · obtain ⟨u, hu, -, hdrops⟩ := drops_packet hbody (s := arrived p s) (by rw [hchain]; exact hvalid)
      have hdesc : chainAt u (hdChain p.header) = d := by rw [hu.chainAt, hchain]
      have hreleased : chainAt (storeRelease (setChain u (hdChain p.header) (renewed p d))) (hdChain p.header) = renewed p d := by
        rw [(storeRelease_apart _).chainAt, chainAt_setChain_same]
      have hdropped := hdrops _ (meetIncarnation_newer hdesc hold hne holder) (by rw [hreleased, epochStale_renewed]; exact hstale)
      have hset : chainAt (body (arrived p s)) (hdChain p.header) = renewed p d := by rw [hdropped.chainAt, hreleased]
      refine ⟨_, hstep, ?_, ?_, ?_⟩
      · exact hdropped.slots.trans ((storeRelease_apart _).slots.trans (hu.slots.trans harrived.slots))
      · exact (congrArg (incOf · _) hset).trans (incOf_renewed p d)
      · exact congrArg ChainDesc.epochs hset

end


section
/-! SUPPORT. Packets that a valid chain takes: PARTIAL (R339, R340, R342, R350), RETRACT, NACK and PROBE (R352, R353, R357 to R360). -/

namespace Sys2Proof.Machine

open Sys2Proof.Claims

/-- What a step's state takes from what its command's meaning leaves. -/
structure Lands (u t : State) : Prop where
  chains : t.chains = u.chains
  slots  : t.slots = u.slots
  hinge  : t.hinge = u.hinge
  out    : t.out = u.out
  rings  : t.rings = u.rings

theorem Lands.chainAt {u t : State} (h : Lands u t) (k : Nat) : chainAt t k = chainAt u k := by
  unfold Machine.chainAt
  rw [h.chains]

theorem command_lands {c : Instr} {f : State → State} {s u : State} (hexec : exec c s = command f s) (hu : f s = u) :
    ∃ t, exec c s = .next t ∧ Lands u t := ⟨_, hexec.trans (command_to hu), rfl, rfl, rfl, rfl, rfl⟩

/-- A packet's step, from what its body makes of the state that it arrives in. -/
theorem packet_step {c : Instr} {type : Nat} {p : HingePacket} {body : State → State} {s u : State}
    (hexec : exec c s = command (arrive type p body) s) (hactive : s.ctl.state = .active) (htype : hdType p.header = type)
    (hu : body (arrived p s) = u) : ∃ t, exec c s = .next t ∧ Lands u t :=
  command_lands hexec ((arrive_listens body hactive htype).trans hu)

/-! ## Inputs -/

/-- Without a record to follow an input joins in arrival order. -/
theorem mem_joinInput_none {i y : Input} {l : List Input} : y ∈ joinInput (fun _ => none) i l ↔ y = i ∨ y ∈ l := by
  induction l with
  | nil => simp [joinInput]
  | cons z rest ih =>
    unfold joinInput
    simp only [Bool.and_false, Bool.false_eq_true, if_false, List.mem_cons, ih]
    tauto

/-- An input that is not the one that enters stays. -/
theorem mem_enterInput_other {x : Epoch} {i y : Input} (hy : y ∈ x.inputs) (hother : sameInput i y = false) :
    y ∈ (enterInput (fun _ => none) x i).inputs := by
  unfold enterInput
  split
  · exact mem_joinInput_none.mpr (.inr hy)
  · split
    · exact hy
    · exact List.mem_map.mpr ⟨y, hy, by simp [hother]⟩

theorem enterInput_inputs_of_none {x : Epoch} {i : Input} (h : x.inputs.find? (sameInput i) = none) :
    (enterInput (fun _ => none) x i).inputs = joinInput (fun _ => none) i x.inputs := by
  unfold enterInput
  rw [h]

theorem sameInput_comm (a b : Input) : sameInput a b = sameInput b a := by
  unfold sameInput
  simp only [eq_comm]

/-- What entering other inputs keeps. -/
theorem mem_enterInputs_other {l : List Input} {x : Epoch} {y : Input} (hy : y ∈ x.inputs) (hother : ∀ i ∈ l, sameInput i y = false) :
    y ∈ (l.foldl (enterInput (fun _ => none)) x).inputs := by
  induction l generalizing x with
  | nil => exact hy
  | cons i rest ih =>
    exact ih (mem_enterInput_other hy (hother i List.mem_cons_self)) (fun j hj => hother j (List.mem_cons_of_mem _ hj))

theorem enterInput_keeps_none {x : Epoch} {i y : Input} (hy : x.inputs.find? (sameInput y) = none) (hother : sameInput y i = false) :
    (enterInput (fun _ => none) x i).inputs.find? (sameInput y) = none := by
  rw [List.find?_eq_none] at hy ⊢
  intro z hz hsame
  have hzi : z ≠ i := by
    rintro rfl
    rw [hother] at hsame
    cases hsame
  unfold enterInput at hz
  split at hz
  · exact hy z ((mem_joinInput_none.mp hz).resolve_left hzi) hsame
  · split at hz
    · exact hy z hz hsame
    · obtain ⟨w, hw, hwz⟩ := List.mem_map.mp hz
      split at hwz
      · exact hzi hwz.symm
      · exact hy z (hwz ▸ hw) hsame

/-- Inputs of different places all enter where there was none. -/
theorem mem_enterInputs_self {l : List Input} (hdistinct : l.Pairwise (fun a b => sameInput a b = false)) {x : Epoch} {y : Input}
    (hy : y ∈ l) (hnone : x.inputs.find? (sameInput y) = none) : y ∈ (l.foldl (enterInput (fun _ => none)) x).inputs := by
  induction l generalizing x with
  | nil => cases hy
  | cons i rest ih =>
    obtain ⟨hfirst, hrest⟩ := List.pairwise_cons.mp hdistinct
    rcases List.mem_cons.mp hy with rfl | hy
    · refine mem_enterInputs_other (l := rest) ?_ (fun j hj => by rw [sameInput_comm]; exact hfirst j hj)
      rw [enterInput_inputs_of_none hnone]
      exact mem_joinInput_none.mpr (.inl rfl)
    · exact ih hrest hy (enterInput_keeps_none hnone (by rw [sameInput_comm]; exact hfirst y hy))

/-- The inputs of one packet are of different rows. -/
theorem packetInputs_distinct (x : Epoch) (p : HingePacket) : (packetInputs x p).Pairwise (fun a b => sameInput a b = false) := by
  unfold packetInputs
  dsimp only
  split
  · exact List.pairwise_singleton _ _
  · rw [List.pairwise_map]
    refine List.Pairwise.imp ?_ List.nodup_range
    intro a b hab
    unfold sameInput
    simp [hab]

/-! ## PARTIAL -/

/-- What a PARTIAL makes of its epoch, no record being replayed. -/
def partialEntered (p : HingePacket) (x : Epoch) : Epoch :=
  if isNotice p.header then takeNotice ⟨hdLevel p.header, hdMember p.header, hdSrc p.header⟩ x
  else (packetInputs x p).foldl (enterInput (fun _ => none)) x

theorem enterInput_number (place : Input → Option Nat) (x : Epoch) (i : Input) : (enterInput place x i).number = x.number := by
  unfold enterInput
  split
  · rfl
  · split <;> rfl

theorem partialEntered_number (p : HingePacket) (x : Epoch) : (partialEntered p x).number = x.number := by
  have hfold : ∀ (l : List Input) (y : Epoch), (l.foldl (enterInput (fun _ => none)) y).number = y.number := by
    intro l
    induction l with
    | nil => exact fun _ => rfl
    | cons i rest ih => exact fun y => (ih _).trans (enterInput_number _ y i)
  unfold partialEntered
  split
  · rfl
  · exact hfold _ x

/-- A good PARTIAL away from the keystone enters its epoch; what follows only sends. -/
theorem storePartial_enters {p : HingePacket} {s : State} (hreplay : s.det.replayActive = false)
    (hkeystone : cdIsKeystone (chainAt s (hdChain p.header)).image = false) :
    ∃ u, Apart s u ∧ Sends (hdChain p.header) (hdEpoch p.header) (modEpoch u (hdChain p.header) (hdEpoch p.header) (partialEntered p)) (storePartial p s)
      ∧ (storePartial p s).slots = s.slots := by
  have hplace : recordedPlace s (hdChain p.header) (hdEpoch p.header) = fun _ => none := by
    funext i
    unfold recordedPlace
    dsimp only
    rw [if_neg (by simp [hreplay])]
  unfold storePartial
  dsimp only
  rw [hplace]
  generalize hu : (if decide (Config.hingeStore ≤ storeUsed s) = true then _ else rxCredit p s : State) = u
  have hcredit : Apart s u := by
    rw [← hu]
    split
    · exact hinge_apart s _
    · exact rxCredit_apart p s
  have hsends := (forwardRows_sends (hdChain p.header) (hdEpoch p.header) (modEpoch u (hdChain p.header) (hdEpoch p.header) (partialEntered p))).trans
    (settleNotice_sends (hdChain p.header) (hdEpoch p.header) _)
  have himage : cdIsKeystone (chainAt (settleNotice (hdChain p.header) (hdEpoch p.header) (forwardRows (hdChain p.header) (hdEpoch p.header)
      (modEpoch u (hdChain p.header) (hdEpoch p.header) (partialEntered p)))) (hdChain p.header)).image = false := by
    rw [hsends.desc, chainAt_modEpoch_same, hcredit.chainAt]
    exact hkeystone
  have hafter : afterInput (hdChain p.header) (hdEpoch p.header) (modEpoch u (hdChain p.header) (hdEpoch p.header) (partialEntered p))
      = settleNotice (hdChain p.header) (hdEpoch p.header) (forwardRows (hdChain p.header) (hdEpoch p.header)
        (modEpoch u (hdChain p.header) (hdEpoch p.header) (partialEntered p))) := by
    unfold afterInput
    dsimp only
    rw [if_neg (by simp [himage])]
  have hslots := ((modEpoch_aside u (hdChain p.header) (hdEpoch p.header) (partialEntered p)).trans
    ((forwardRows_aside (hdChain p.header) (hdEpoch p.header) _).trans (settleNotice_aside (hdChain p.header) (hdEpoch p.header) _))).slots
  refine ⟨u, hcredit, ?_, ?_⟩
  · exact hafter ▸ hsends
  · exact (congrArg State.slots hafter).trans (hslots.trans hcredit.slots)

/-- A PARTIAL for an epoch that its member takes inputs for. -/
theorem partialBody_takes {p : HingePacket} {s : State} {d : ChainDesc} (hd : chainAt s (hdChain p.header) = d) (hvalid : d.valid = true)
    (hsame : sameIncarnation d p) (hfresh : epochStale d (hdEpoch p.header) = false)
    (hnear : hdEpoch p.header = d.epoch ∨ hdEpoch p.header = d.epoch + 1) :
    partialBody p s = if partialBad d p then failEpoch (hdChain p.header) (hdEpoch p.header) .retracted
        (countEvent 0x52 1 (chainVi s (hdChain p.header)) (rxCredit p s))
      else storePartial p s := by
  unfold partialBody
  dsimp only
  rw [if_neg (by simp [hd, hvalid]), meetIncarnation_same (by rw [hd]; exact hsame)]
  dsimp only
  rw [hd, if_neg (by simp [hfresh])]
  split
  · rfl
  · rw [if_neg]
    rintro ⟨h1, h2⟩
    exact hnear.elim h1 h2

theorem epochStale_isOver {d : ChainDesc} {e : W32} (h : epochStale d e = false) : (epochAt d e).isOver = false := by
  unfold epochStale at h
  simp only [Bool.or_eq_false_iff] at h
  exact h.2

end Sys2Proof.Machine

open Sys2Proof Sys2Proof.Machine Sys2Proof.Claims

/-- Settles O31: the packet's inputs join those of its epoch, and the rows that go up then change none of them. -/
theorem partialsEnterTheirEpoch : Obligations.PartialsEnterTheirEpoch := by
  unfold Obligations.PartialsEnterTheirEpoch
  intro s p k e d hk he hd hactive htype hvalid hsame hfresh hnear
  subst hk he
  have harrived := arrived_apart p s
  have hchain : chainAt (arrived p s) (hdChain p.header) = d := by rw [harrived.chainAt, hd]
  have hbody := partialBody_takes hchain hvalid hsame hfresh hnear
  have hothers : ∀ u, OfChain (hdChain p.header) (arrived p s) u → ∀ j, j ≠ hdChain p.header → chainAt u j = chainAt s j :=
    fun u hu j hj => (hu.others j hj).trans (harrived.chainAt j)
  refine ⟨fun hgood hkeystone hreplay => ?_, fun hbad hunsent => ?_⟩
  · rw [if_neg (by simp [hgood])] at hbody
    obtain ⟨u, hu, hsends, hslots⟩ := storePartial_enters (p := p) (s := arrived p s) (by rw [(arrived_dev p s).2]; exact hreplay)
      (by rw [hchain]; exact hkeystone)
    have hepoch : SentOnly (partialEntered p (epochAt d (hdEpoch p.header)))
        (epochAt (chainAt (storePartial p (arrived p s)) (hdChain p.header)) (hdEpoch p.header)) := by
      have hsent := hsends.epoch
      rwa [epochAt_modEpoch_same u (hdChain p.header) (hdEpoch p.header) ((partialEntered_number p _).trans (epochAt_number _ _)),
        hu.chainAt, hchain] at hsent
    have hinputs : (epochAt (chainAt (storePartial p (arrived p s)) (hdChain p.header)) (hdEpoch p.header)).inputs
        = (partialEntered p (epochAt d (hdEpoch p.header))).inputs := by rw [hepoch.1]
    have hnotices : (epochAt (chainAt (storePartial p (arrived p s)) (hdChain p.header)) (hdEpoch p.header)).settledNotices
        = (partialEntered p (epochAt d (hdEpoch p.header))).settledNotices := by rw [hepoch.1]
    obtain ⟨t, hexec, hlands⟩ := packet_step (c := .hingePartial p) (type := 0) rfl hactive htype hbody
    refine ⟨t, hexec, fun j hj => (hlands.chainAt j).trans
      (hothers _ ((hu.toQuiet.ofChain _).trans ((modEpoch_ofChain _ _ _ _).trans hsends.toOfChain)) j hj),
      hlands.slots.trans (hslots.trans harrived.slots), ?_⟩
    rw [hlands.chainAt, hinputs, hnotices]
    unfold partialEntered
    refine ⟨fun hnotice => ?_, fun hrows => ?_⟩
    · rw [if_pos hnotice]
      exact ⟨rfl, List.mem_cons_self⟩
    · rw [if_neg (by simp [hrows])]
      exact ⟨fun i hi hnone => mem_enterInputs_self (packetInputs_distinct _ p) hi hnone,
        fun i hi hother => mem_enterInputs_other hi hother⟩
  · rw [if_pos hbad] at hbody
    have hcounted := (rxCredit_apart p (arrived p s)).trans (countEvent_apart 0x52 1 (chainVi (arrived p s) (hdChain p.header)) _)
    generalize countEvent 0x52 1 (chainVi (arrived p s) (hdChain p.header)) (rxCredit p (arrived p s)) = u at hbody hcounted
    have hdesc : chainAt u (hdChain p.header) = d := by rw [hcounted.chainAt, hchain]
    obtain ⟨t, hexec, hlands⟩ := packet_step (c := .hingePartial p) (type := 0) rfl hactive htype hbody
    refine ⟨t, hexec, fun j hj => (hlands.chainAt j).trans
      (hothers _ ((hcounted.toQuiet.ofChain _).trans (failEpoch_ofChain _ _ _ _)) j hj),
      hlands.slots.trans ((failEpoch_aside _ _ _ _).slots.trans (hcounted.slots.trans harrived.slots)), ?_⟩
    rw [hlands.chainAt, failEpoch_epoch .retracted (by rw [hdesc]; exact epochStale_isOver hfresh) (by rw [hdesc]; exact hunsent)]
    exact closedEpoch_closed _ _

end


section
/-! SUPPORT. RETRACT, NACK and PROBE of a valid chain (R352, R353, R357 to R360). -/

namespace Sys2Proof.Machine

open Sys2Proof.Claims

theorem Apart.ofChain {s t : State} (h : Apart s t) (c : Nat) : OfChain c s t := h.toQuiet.ofChain c

/-! ## RETRACT -/

theorem retractBody_eq {p : HingePacket} {s : State} {d : ChainDesc} (hd : chainAt s (hdChain p.header) = d) (hplain : plainBad p.header = false)
    (hvalid : d.valid = true) (hsame : sameIncarnation d p) :
    retractBody p s = if epochStale d (hdEpoch p.header) || (epochAt d (hdEpoch p.header)).finalSent then rxCredit p s
      else closeEpoch (hdChain p.header) (hdEpoch p.header) .retracted
        (if cdIsKeystone d.image then retractAll (hdChain p.header) (hdEpoch p.header) (rxCredit p s) else rxCredit p s) := by
  have hcredit : chainAt (rxCredit p s) (hdChain p.header) = d := hd
  unfold retractBody
  dsimp only
  rw [if_neg (by simp [hplain]), hcredit, if_neg (by simp [hvalid]), meetIncarnation_same (by rw [hcredit]; exact hsame)]
  dsimp only
  rw [hcredit]

/-! ## NACK -/

theorem nackBody_eq {p : HingePacket} {s : State} {d : ChainDesc} (hd : chainAt s (hdChain p.header) = d) (hplain : plainBad p.header = false)
    (hreason : hdReason p.header ≤ 4) (hvalid : d.valid = true) (hsame : sameIncarnation d p) :
    nackBody p s = nackValid p (hdChain p.header) (chainVi s (hdChain p.header))
      (countEvent 0x54 1 (chainVi s (hdChain p.header)) (rxCredit p s)) := by
  have hcounted : chainAt (countEvent 0x54 1 (chainVi s (hdChain p.header)) (rxCredit p s)) (hdChain p.header) = d := by
    rw [(countEvent_apart _ _ _ _).chainAt]
    exact hd
  unfold nackBody
  dsimp only
  rw [if_neg (by simp [hplain]; omega), show chainVi (rxCredit p s) (hdChain p.header) = chainVi s (hdChain p.header) from rfl, hcounted,
    if_neg (by simp [hvalid]), meetIncarnation_same (by rw [hcounted]; exact hsame)]

/-! ## PROBE -/

theorem probeBody_eq {p : HingePacket} {s : State} {d : ChainDesc} (hd : chainAt s (hdChain p.header) = d) (hplain : plainBad p.header = false)
    (hvalid : d.valid = true) (hsame : sameIncarnation d p) :
    probeBody p s = if !hdReply p.header then answer p typeProbe 0 true d.epoch (rxCredit p s)
      else if epochLater (hdEpoch p.header) d.epoch then rxCredit p s
      else resendRefused (hdChain p.header) (hdMember p.header) (rxCredit p s) := by
  have hcredit : chainAt (rxCredit p s) (hdChain p.header) = d := hd
  unfold probeBody
  dsimp only
  rw [if_neg (by simp [hplain]), hcredit, if_neg (by simp [hvalid]), meetIncarnation_same (by rw [hcredit]; exact hsame)]
  dsimp only
  rw [hcredit]

/-- A member answers a PROBE with its current epoch. -/
theorem answer_probe {p : HingePacket} {s : State} {d : ChainDesc} (hd : chainAt s (hdChain p.header) = d) (hvalid : d.valid = true)
    (hfirst : isSecondary s = false) (htwin : entryTwin s (tableEntry s d (hdMember p.header)) = false)
    (hnone : s.hinge.waiting.any (fun q => decide (packetChannel q = 3)) = false) (hcredits : spGet 0 s.hinge.credits 3 ≠ 0) :
    OutEvent.hngTx false (onWire ⟨headBits { HingeHead.blank 4 (hdChain p.header) d.epoch (cdSelf d.image) (hdSrc p.header).toNat with
      reply := true } s.ctl.incarnation s.mg.unitAddress, []⟩) ∈ (answer p typeProbe 0 true d.epoch s).out := by
  obtain ⟨h, hh⟩ : ∃ h : HingeHead,
      h = { HingeHead.blank 4 (hdChain p.header) d.epoch (cdSelf d.image) (hdSrc p.header).toNat with reply := true } := ⟨_, rfl⟩
  have hplain : PlainHead h := by
    rw [hh]
    exact blank_plain (type := 4) (reason := 0) _ true (by decide) (by decide) (field_lt_pow _ _ _) (field_lt_pow _ _ _)
      (hdSrc p.header).isLt
  have hchannel : packetChannel ⟨headBits h s.ctl.incarnation s.mg.unitAddress, []⟩ = 3 := by
    unfold packetChannel
    rw [headBits_type hplain.type, hh]
    rfl
  have hanswer : answer p typeProbe 0 true d.epoch s = hingeOut false d.owner ⟨headBits h s.ctl.incarnation s.mg.unitAddress, []⟩ s := by
    unfold answer
    dsimp only
    rw [hd, htwin, hvalid, hh]
    rfl
  rw [hanswer, ← hh]
  refine hingeOut_sends _ hfirst (by rw [hchannel]; exact hnone) ?_
  rw [hchannel, hplain.flits]
  omega

/-- Nothing that an open epoch has sent to a member stands refused. -/
def notRefused (m : Nat) (x : Epoch) : Prop := x.isOver = false → ∀ q ∈ x.sent, q.member = m → q.refused = false

/-- What was refused to a member goes out again, epoch by epoch. -/
def resendEpoch (c m : Nat) (s : State) (x : Epoch) : State :=
  if x.isOver then s
  else
    modEpoch ((x.sent.filter (fun q => q.refused && decide (q.member = m))).foldl (fun s q => resendPartial c q s) s) c x.number (fun y =>
      { y with sent := y.sent.map (fun q => if q.member = m then { q with refused := false } else q) })

theorem resendRefused_eq (c m : Nat) (s : State) : resendRefused c m s = (chainAt s c).epochs.foldl (resendEpoch c m) s := rfl

theorem resendPartials_apart (c : Nat) (l : List SentPartial) (s : State) : Apart s (l.foldl (fun s q => resendPartial c q s) s) := by
  induction l generalizing s with
  | nil => exact Apart.refl s
  | cons q rest ih => exact (hingeOut_apart _ _ _ s).trans (ih _)

theorem resendEpoch_ofChain (c m : Nat) (s : State) (x : Epoch) : OfChain c s (resendEpoch c m s x) ∧ (resendEpoch c m s x).slots = s.slots := by
  unfold resendEpoch
  split
  · exact ⟨.refl c s, rfl⟩
  · have hsent := resendPartials_apart c (x.sent.filter (fun q => q.refused && decide (q.member = m))) s
    exact ⟨(hsent.ofChain c).trans (modEpoch_ofChain _ _ _ _), (modEpoch_aside _ _ _ _).slots.trans hsent.slots⟩

/-- After one epoch's turn every epoch is clear that was, and that one is. -/
theorem resendEpoch_clears {c m : Nat} {s : State} {x y : Epoch} (hy : y ∈ (chainAt (resendEpoch c m s x) c).epochs) :
    notRefused m y ∨ y ∈ (chainAt s c).epochs ∧ (y = x → x.isOver = true) := by
  unfold resendEpoch at hy
  split at hy
  · next hover => exact .inr ⟨hy, fun _ => hover⟩
  · have hsent := resendPartials_apart c (x.sent.filter (fun q => q.refused && decide (q.member = m))) s
    rw [chainAt_modEpoch_same, hsent.chainAt] at hy
    unfold setEpoch at hy
    dsimp only at hy
    rcases List.mem_append.mp hy with hkept | hnew
    · refine .inr ⟨(List.mem_filter.mp hkept).1, ?_⟩
      rintro rfl
      have hne := (List.mem_filter.mp hkept).2
      simp [epochAt_number] at hne
    · refine .inl fun _ q hq hmember => ?_
      rw [List.mem_singleton.mp hnew] at hq
      obtain ⟨q0, -, rfl⟩ := List.mem_map.mp hq
      split at hmember
      · next h => rw [if_pos h]
      · next h => exact absurd hmember h

/-- Once every epoch has had its turn, nothing stands refused. -/
theorem resendEpochs_clear {c m : Nat} (l : List Epoch) {s : State}
    (hs : ∀ y ∈ (chainAt s c).epochs, notRefused m y ∨ y ∈ l) :
    (∀ y ∈ (chainAt (l.foldl (resendEpoch c m) s) c).epochs, notRefused m y) ∧ OfChain c s (l.foldl (resendEpoch c m) s)
      ∧ (l.foldl (resendEpoch c m) s).slots = s.slots := by
  induction l generalizing s with
  | nil => exact ⟨fun y hy => (hs y hy).resolve_right (by simp), .refl c s, rfl⟩
  | cons x rest ih =>
    obtain ⟨hchain, hslots⟩ := resendEpoch_ofChain c m s x
    obtain ⟨hclear, hrest, hrestSlots⟩ := ih (s := resendEpoch c m s x) fun y hy => by
      rcases resendEpoch_clears hy with hclear | ⟨hold, hx⟩
      · exact .inl hclear
      · rcases hs y hold with hclear | hmem
        · exact .inl hclear
        · rcases List.mem_cons.mp hmem with rfl | hmem
          · exact .inl fun hopen => by rw [hx rfl] at hopen; cases hopen
          · exact .inr hmem
    exact ⟨hclear, hchain.trans hrest, hrestSlots.trans hslots⟩

end Sys2Proof.Machine

open Sys2Proof Sys2Proof.Machine Sys2Proof.Claims

/-- Settles O33: each body, for a good packet of a valid chain, by its cases. -/
theorem retractsNacksAndProbesAct : Obligations.RetractsNacksAndProbesAct := by
  unfold Obligations.RetractsNacksAndProbesAct
  intro s p k e d x hk he hd hx hactive hplain hvalid hsame
  subst hk he hx
  have harrived := arrived_apart p s
  have hchain : chainAt (arrived p s) (hdChain p.header) = d := by rw [harrived.chainAt, hd]
  have hcredited := harrived.trans (rxCredit_apart p _)
  have hcounted := hcredited.trans (countEvent_apart 0x54 1 (chainVi (arrived p s) (hdChain p.header)) _)
  have hretract := retractBody_eq hchain hplain hvalid hsame
  have hnack := fun hreason => nackBody_eq hchain hplain hreason hvalid hsame
  have hprobe := probeBody_eq hchain hplain hvalid hsame
  have hquiet : ∀ {c : Instr} {u : State}, Apart s u → (∃ t, exec c s = .next t ∧ Lands u t) →
      ∃ t, exec c s = .next t ∧ t.chains = s.chains ∧ t.slots = s.slots := fun hu ⟨t, hexec, hlands⟩ =>
    ⟨t, hexec, hlands.chains.trans hu.chains, hlands.slots.trans hu.slots⟩
  refine ⟨fun htype hfresh hunsent => ?_, fun htype hdone => ?_, fun htype hreason hnothing => ?_, fun htype hreason hmember hfresh hsent => ?_,
    fun q htype hreason hmember hfresh hnext => ?_, fun htype hreply hfirst htwin hwaiting hcredits => ?_, fun htype hreply hlater => ?_⟩
  · rw [if_neg (by simp [hfresh, hunsent])] at hretract
    generalize hu : (if cdIsKeystone d.image = true then _ else rxCredit p (arrived p s) : State) = u at hretract
    have hall : Quiet s u ∧ u.slots = s.slots := by
      rw [← hu]
      split
      · exact ⟨hcredited.toQuiet.trans (retractAll_quiet _ _ _), (retractAll_aside _ _ _).slots.trans hcredited.slots⟩
      · exact ⟨hcredited.toQuiet, hcredited.slots⟩
    obtain ⟨t, hexec, hlands⟩ := packet_step (c := .hingeRetract p) (type := 2) rfl hactive htype hretract
    refine ⟨t, hexec, ?_, fun j hj => ?_, ?_⟩
    · rw [hlands.chainAt, closeEpoch_epoch]
      exact closedEpoch_closed _ _
    · rw [hlands.chainAt, (closeEpoch_ofChain _ _ _ _).others j hj, hall.1.chainAt]
    · rw [hlands.slots, (closeEpoch_aside _ _ _ _).slots, hall.2]
  · rw [if_pos (by rcases hdone with h | h <;> simp [h])] at hretract
    exact hquiet hcredited (packet_step (type := 2) rfl hactive htype hretract)
  · have hbody := hnack hreason
    unfold nackValid at hbody
    dsimp only at hbody
    rw [hcounted.chainAt, ← hd, if_pos (by rcases hnothing with h | h | h <;> simp [h])] at hbody
    exact hquiet (hcounted.trans (countEvent_apart _ _ _ _)) (packet_step (type := 3) rfl hactive htype hbody)
  · have hbody := hnack (by omega)
    unfold nackValid at hbody
    dsimp only at hbody
    rw [hcounted.chainAt, ← hd, if_neg (by simp [hmember, hfresh, hsent]), if_neg (by omega)] at hbody
    generalize countEvent 0x54 1 (chainVi (arrived p s) (hdChain p.header)) (rxCredit p (arrived p s)) = u at hbody hcounted
    have hdesc : chainAt u (hdChain p.header) = d := by rw [hcounted.chainAt, hd]
    refine ⟨fun hretry => ?_, fun hretry hunsent => ?_⟩
    · rw [if_pos hretry] at hbody
      obtain ⟨t, hexec, hlands⟩ := packet_step (c := .hingeNack p) (type := 3) rfl hactive htype hbody
      refine ⟨t, hexec, ?_, fun j hj => ?_, ?_⟩
      · rw [hlands.chainAt, chainAt_modEpoch_same, hdesc]
      · rw [hlands.chainAt, (modEpoch_ofChain _ _ _ _).others j hj, hcounted.chainAt]
      · rw [hlands.slots, (modEpoch_aside _ _ _ _).slots, hcounted.slots]
    · rw [if_neg (by simp [hretry])] at hbody
      obtain ⟨t, hexec, hlands⟩ := packet_step (c := .hingeNack p) (type := 3) rfl hactive htype hbody
      refine ⟨t, hexec, ?_, fun j hj => ?_, ?_⟩
      · rw [hlands.chainAt, failEpoch_epoch .hingePeerLost (by rw [hdesc]; exact epochStale_isOver hfresh) (by rw [hdesc]; exact hunsent)]
        exact closedEpoch_closed _ _
      · rw [hlands.chainAt, (failEpoch_ofChain _ _ _ _).others j hj, hcounted.chainAt]
      · rw [hlands.slots, (failEpoch_aside _ _ _ _).slots, hcounted.slots]
  · have hsent : (epochAt d (hdEpoch p.header)).sent ≠ [] := by
      intro hnil
      unfold nextAhead at hnext
      rw [hnil] at hnext
      cases hnext
    have hresend : (countEvent 0x54 1 (chainVi (arrived p s) (hdChain p.header)) (rxCredit p (arrived p s))).hinge.resend = s.hinge.resend := by
      rw [countEvent_hinge, (rxCredit_port p _).2.2, (arrived_port p s).2.2]
    have hbody := hnack (by omega)
    unfold nackValid at hbody
    dsimp only at hbody
    rw [hcounted.chainAt, ← hd, if_neg (by simp [hmember, hfresh, hsent]), if_pos hreason] at hbody
    generalize countEvent 0x54 1 (chainVi (arrived p s) (hdChain p.header)) (rxCredit p (arrived p s)) = u at hbody hcounted hresend
    have hnext' : nextAhead u (hdChain p.header) (epochAt d (hdEpoch p.header)) = some q := by
      unfold nextAhead at hnext ⊢
      rw [hresend]
      exact hnext
    rw [hnext'] at hbody
    obtain ⟨t, hexec, hlands⟩ := packet_step (c := .hingeNack p) (type := 3) rfl hactive htype hbody
    exact ⟨t, hexec, by rw [hlands.hinge, ← hresend], hlands.chains.trans hcounted.chains, hlands.slots.trans hcounted.slots⟩
  · rw [if_pos (by simp [hreply])] at hprobe
    obtain ⟨hport, hwaits, -⟩ := arrived_port p s
    have hdev : (rxCredit p (arrived p s)).dev = s.dev := (arrived_dev p s).1
    have hentry : entryTwin (rxCredit p (arrived p s)) (tableEntry (rxCredit p (arrived p s)) d (hdMember p.header))
        = entryTwin s (tableEntry s d (hdMember p.header)) := by
      unfold entryTwin tableEntry twinAddress readNat readBytes readByte getMem
      rw [hcredited.mg, hdev]
    have hsends := answer_probe (p := p) (s := rxCredit p (arrived p s)) (d := d) hchain hvalid
      ((isSecondary_eq (by rw [hcredited.twin]) (by rw [hcredited.twin])).trans hfirst) (hentry.trans htwin)
      (by rw [(rxCredit_port p _).2.1, hwaits]; exact hwaiting) (by rw [(rxCredit_port p _).1, hport]; exact hcredits)
    rw [hcredited.ctl, hcredited.mg] at hsends
    obtain ⟨t, hexec, hlands⟩ := packet_step (c := .hingeProbe p) (type := 4) rfl hactive htype hprobe
    have hanswered := hcredited.trans (answer_apart p typeProbe 0 true d.epoch _)
    exact ⟨t, hexec, hlands.chains.trans hanswered.chains, hlands.slots.trans hanswered.slots, by rw [hlands.out]; exact hsends⟩
  · rw [if_neg (by simp [hreply]), if_neg (by simp [hlater]), resendRefused_eq] at hprobe
    obtain ⟨hclear, hothers, hslots⟩ := resendEpochs_clear (c := hdChain p.header) (m := hdMember p.header)
      (chainAt (rxCredit p (arrived p s)) (hdChain p.header)).epochs (s := rxCredit p (arrived p s)) fun y hy => .inr hy
    obtain ⟨t, hexec, hlands⟩ := packet_step (c := .hingeProbe p) (type := 4) rfl hactive htype hprobe
    refine ⟨t, hexec, fun j hj => ?_, ?_, fun y hy hopen q hq hmember => ?_⟩
    · rw [hlands.chainAt, hothers.others j hj, hcredited.chainAt]
    · rw [hlands.slots, hslots, hcredited.slots]
    · rw [hlands.chainAt] at hy
      exact hclear y hy hopen q hq hmember

end

section
/-! SUPPORT. The hinge's timers and its transmit credits (R336, R337, R339, R359, R361). -/

namespace Sys2Proof.Machine

open Sys2Proof.Claims

/-! ## Packets that go out again -/

theorem hingeOut_resend (twin : Bool) (o : ViId) (p : HingePacket) (s : State) : (hingeOut twin o p s).hinge.resend = s.hinge.resend := by
  have hshown : (showTwin (shownPacket p) s).hinge.resend = s.hinge.resend := by simp
  unfold hingeOut
  dsimp only
  split
  · rw [hshown]
  · split
    · rw [countEvent_hinge]
      exact hshown
    · split
      · exact hshown
      · rw [countEvent_hinge]
        exact hshown

/-- A packet of a chain goes out again, if its epoch still has it. -/
def resendFound (c : Nat) (d : ChainDesc) (s : State) (q : HingePacket) : State :=
  match (epochAt d (hdEpoch q.header)).sent.find? (fun x => decide (x.packet = q)) with
  | some x => resendPartial c x s
  | none => s

theorem resendFound_apart (c : Nat) (d : ChainDesc) (s : State) (q : HingePacket) :
    Apart s (resendFound c d s q) ∧ (resendFound c d s q).hinge.resend = s.hinge.resend := by
  unfold resendFound
  split
  · exact ⟨hingeOut_apart _ _ _ s, hingeOut_resend _ _ _ s⟩
  · exact ⟨.refl s, rfl⟩

theorem resendFounds_apart (c : Nat) (d : ChainDesc) (l : List HingePacket) (s : State) :
    Apart s (l.foldl (resendFound c d) s) ∧ (l.foldl (resendFound c d) s).hinge.resend = s.hinge.resend := by
  induction l generalizing s with
  | nil => exact ⟨.refl s, rfl⟩
  | cons q rest ih =>
    obtain ⟨hone, hresend⟩ := resendFound_apart c d s q
    obtain ⟨hrest, hrestResend⟩ := ih (resendFound c d s q)
    exact ⟨hone.trans hrest, hrestResend.trans hresend⟩

/-- What was put by for a chain leaves the list, and nothing else of the unit's moves. -/
theorem aheadResend_empties (c : Nat) {s : State} (hlistens : hingeListens s = true) :
    Apart s (aheadResend c s) ∧ (aheadResend c s).hinge.resend = s.hinge.resend.filter (fun q => decide (q.1 ≠ c)) := by
  unfold aheadResend
  dsimp only
  split
  · next hnone =>
    refine ⟨.refl s, (List.filter_eq_self.mpr fun q hq => ?_).symm⟩
    simp only [hlistens, Bool.not_true, Bool.false_or, List.isEmpty_iff, List.map_eq_nil_iff, List.filter_eq_nil_iff,
      decide_eq_true_eq] at hnone
    simpa using hnone q hq
  · split
    · exact ⟨hinge_apart s _, rfl⟩
    · obtain ⟨hsent, hresend⟩ := resendFounds_apart c (chainAt { s with hinge := { s.hinge with
        resend := s.hinge.resend.filter (fun q => decide (q.1 ≠ c)) } } c)
        ((s.hinge.resend.filter (fun q => decide (q.1 = c))).map (fun q => q.2))
        { s with hinge := { s.hinge with resend := s.hinge.resend.filter (fun q => decide (q.1 ≠ c)) } }
      exact ⟨(hinge_apart s _).trans hsent, hresend⟩

/-! ## Credits -/

/-- One channel's credit returns. -/
def creditChannel (bits : BitVec 4) (s : State) (ch : Nat) : State :=
  if bit bits ch then
    let s1 := { s with hinge := { s.hinge with credits := spSet 0 s.hinge.credits ch (spGet 0 s.hinge.credits ch + 1) } }
    drainWaiting ch s1.hinge.waiting s1
  else s

theorem txCredit_eq (bits : BitVec 4) (s : State) : txCredit bits s = (List.range 4).foldl (creditChannel bits) s := rfl

theorem drainWaiting_other {ch : Nat} {l : List HingePacket} (s : State) (h : ∀ p ∈ l, packetChannel p ≠ ch) : drainWaiting ch l s = s := by
  induction l with
  | nil => rfl
  | cons p rest ih =>
    unfold drainWaiting
    rw [if_neg (h p List.mem_cons_self)]
    exact ih fun q hq => h q (List.mem_cons_of_mem _ hq)

/-- Where no packet waits on the channels, their credits rise alone. -/
theorem creditChannels_rise (bits : BitVec 4) (l : List Nat) (hdistinct : l.Nodup) (s : State)
    (hfree : ∀ p ∈ s.hinge.waiting, packetChannel p ∉ l) :
    ∃ credits, l.foldl (creditChannel bits) s = { s with hinge := { s.hinge with credits := credits } }
      ∧ ∀ n, spGet 0 credits n = spGet 0 s.hinge.credits n + if n ∈ l then boolNat (bit bits n) else 0 := by
  induction l generalizing s with
  | nil => exact ⟨s.hinge.credits, rfl, fun n => by simp⟩
  | cons ch rest ih =>
    obtain ⟨hch, hrest⟩ := List.nodup_cons.mp hdistinct
    obtain ⟨c1, hc1, hone⟩ : ∃ c1, creditChannel bits s ch = { s with hinge := { s.hinge with credits := c1 } }
        ∧ ∀ n, spGet 0 c1 n = spGet 0 s.hinge.credits n + if n = ch then boolNat (bit bits n) else 0 := by
      unfold creditChannel
      split
      · next hbit =>
        refine ⟨spSet 0 s.hinge.credits ch (spGet 0 s.hinge.credits ch + 1), ?_, fun n => ?_⟩
        · exact drainWaiting_other _ fun p hp heq => hfree p hp (heq ▸ List.mem_cons_self)
        · by_cases hn : n = ch
          · rw [hn, spGet_spSet_same, if_pos rfl, hbit]
            rfl
          · rw [spGet_spSet_other _ _ _ hn, if_neg hn, Nat.add_zero]
      · next hbit =>
        refine ⟨s.hinge.credits, rfl, fun n => ?_⟩
        split
        · next hn => simp [hn, Bool.eq_false_iff.mpr hbit, boolNat]
        · rfl
    obtain ⟨c2, hc2, hall⟩ := ih hrest { s with hinge := { s.hinge with credits := c1 } }
      fun p hp hmem => hfree p hp (List.mem_cons_of_mem _ hmem)
    refine ⟨c2, ?_, fun n => ?_⟩
    · rw [List.foldl_cons, hc1, hc2]
    · rw [hall n, show spGet 0 (State.hinge { s with hinge := { s.hinge with credits := c1 } }).credits n = _ from hone n]
      by_cases hn : n = ch
      · subst hn
        simp [hch]
      · simp [hn]

theorem packetChannel_lt (p : HingePacket) : packetChannel p < 4 := by
  unfold packetChannel
  split <;> decide

/-- The packet that waits alone leaves with the credit that it lacked. -/
theorem txCredit_releases {bits : BitVec 4} {s : State} {p : HingePacket} (hwaiting : s.hinge.waiting = [p])
    (hbit : bit bits (packetChannel p) = true) (hlacks : packetFlits p = spGet 0 s.hinge.credits (packetChannel p) + 1) :
    (txCredit bits s).hinge.waiting = [] ∧ spGet 0 (txCredit bits s).hinge.credits (packetChannel p) = 0
      ∧ OutEvent.hngTx false (onWire p) ∈ (txCredit bits s).out ∧ Apart s (txCredit bits s) := by
  obtain ⟨before, after, hsplit⟩ := List.append_of_mem (List.mem_range.mpr (packetChannel_lt p))
  have hdistinct : (before ++ packetChannel p :: after).Nodup := hsplit ▸ List.nodup_range
  obtain ⟨hbefore, hafter, hapart⟩ := List.nodup_append.mp hdistinct
  obtain ⟨hnotAfter, hafter⟩ := List.nodup_cons.mp hafter
  have hnotBefore : packetChannel p ∉ before := fun h => hapart _ h _ List.mem_cons_self rfl
  obtain ⟨c1, hc1, hone⟩ := creditChannels_rise bits before hbefore s fun q hq => by
    rw [hwaiting, List.mem_singleton] at hq
    rwa [hq]
  have hcredit : spGet 0 c1 (packetChannel p) = spGet 0 s.hinge.credits (packetChannel p) := by rw [hone, if_neg hnotBefore, Nat.add_zero]
  obtain ⟨u, hu, hempty, hspent, hout, hkept⟩ : ∃ u, creditChannel bits { s with hinge := { s.hinge with credits := c1 } } (packetChannel p) = u
      ∧ u.hinge.waiting = [] ∧ spGet 0 u.hinge.credits (packetChannel p) = 0 ∧ OutEvent.hngTx false (onWire p) ∈ u.out ∧ Apart s u := by
    refine ⟨_, rfl, ?_⟩
    unfold creditChannel
    rw [if_pos hbit]
    dsimp only
    rw [hwaiting, hcredit]
    unfold drainWaiting
    rw [if_pos rfl]
    dsimp only
    rw [spGet_spSet_same, if_neg (by omega), ← hlacks, Nat.sub_self]
    unfold drainWaiting
    refine ⟨?_, ?_, ?_, ?_⟩
    · simp [emit]
    · rw [countEvent_hinge]
      exact show spGet 0 (spSet 0 (spSet 0 c1 (packetChannel p) (packetFlits p)) (packetChannel p) 0) (packetChannel p) = 0 from
        spGet_spSet_same _ _ _ _
    · simp [emit]
    · exact ((hinge_apart s _).trans (emit_apart _ _)).trans (countEvent_apart _ _ _ _)
  obtain ⟨c2, hc2, htwo⟩ := creditChannels_rise bits after hafter u fun q hq => by rw [hempty] at hq; cases hq
  rw [txCredit_eq, hsplit, List.foldl_append, hc1, List.foldl_cons, hu, hc2]
  refine ⟨hempty, ?_, hout, hkept.trans (hinge_apart u _)⟩
  rw [show (State.hinge { u with hinge := { u.hinge with credits := c2 } }).credits = c2 from rfl, htwo, if_neg hnotAfter, hspent]

end Sys2Proof.Machine

open Sys2Proof Sys2Proof.Machine Sys2Proof.Claims

/-- Settles O34: each timer by its guard, and the credits channel by channel. -/
theorem hingeTimersAndCreditsAct : Obligations.HingeTimersAndCreditsAct := by
  unfold Obligations.HingeTimersAndCreditsAct
  intro s k d x bits hd hx
  refine ⟨fun hdeaf => ?_, fun hactive => ?_, fun hnothing => ?_, fun e m hactive hvalid hrefused => ?_, fun hidle => ?_,
    fun hactive hvalid htimer hopen hunsent => ?_, fun hwaiting => ?_, fun p hwaiting hbit hlacks => ?_⟩
  · have hl : hingeListens s = false := by simpa [hingeListens] using hdeaf
    refine ⟨command_of_same ?_, command_of_same ?_, command_of_same ?_⟩
    · unfold aheadResend
      exact if_pos (by simp [hl])
    · unfold probeRetry
      exact if_pos (by simp [hl])
    · unfold chainTimeoutRow
      exact if_pos (by simp [hl])
  · obtain ⟨hkept, hresend⟩ := aheadResend_empties k.toNat (s := s) (by simpa [hingeListens] using hactive)
    obtain ⟨t, hexec, hlands⟩ := command_lands (c := .epochAheadResend k) (s := s) rfl rfl
    exact ⟨t, hexec, hlands.chains.trans hkept.chains, hlands.slots.trans hkept.slots, by rw [hlands.hinge, hresend]⟩
  · refine command_of_same (f := probeRetry k.toNat) ?_
    unfold probeRetry
    dsimp only
    rw [← hd]
    split
    · rfl
    · next hgoes =>
      have hnone : refusedMember d = none := hnothing.resolve_left fun h => hgoes (by simp [h])
      rw [hnone]
  · have hprobe : probeRetry k.toNat s = sendPlain typeProbe 0 false k.toNat e (tableEntry s d m)
        (setChain s k.toNat { d with hops := spPut d.hops m (tableEntry s d m) }) := by
      unfold probeRetry
      dsimp only
      rw [← hd, if_neg (by simp [hingeListens, hactive, hvalid]), hrefused]
    obtain ⟨t, hexec, hlands⟩ := command_lands (c := .probeRetryTimer k) rfl hprobe
    refine ⟨t, hexec, ?_, fun j hj => ?_, ?_⟩
    · rw [hlands.chainAt]
      unfold sendPlain sendHead
      rw [(hingeOut_apart _ _ _ _).chainAt, chainAt_setChain_same]
    · rw [hlands.chainAt]
      unfold sendPlain sendHead
      rw [(hingeOut_apart _ _ _ _).chainAt, chainAt_setChain_other _ _ hj]
    · rw [hlands.slots]
      unfold sendPlain sendHead
      rw [(hingeOut_apart _ _ _ _).slots]
      rfl
  · refine command_of_same (f := chainTimeoutRow k.toNat) ?_
    unfold chainTimeoutRow
    dsimp only
    rw [← hd, ← hx]
    exact if_pos (by rcases hidle with h | h | h <;> simp [h])
  · have hfail : chainTimeoutRow k.toNat s = failEpoch k.toNat d.epoch (if x.nacked then .hingePeerLost else .hingeTimeout) s := by
      unfold chainTimeoutRow
      dsimp only
      rw [← hd, ← hx, if_neg (by simp [hingeListens, hactive, hvalid, htimer, hopen])]
    obtain ⟨t, hexec, hlands⟩ := command_lands (c := .chainTimeout k) rfl hfail
    refine ⟨t, hexec, fun j hj => ?_, ?_, ?_⟩
    · rw [hlands.chainAt, (failEpoch_ofChain _ _ _ _).others j hj]
    · rw [hlands.slots, (failEpoch_aside _ _ _ _).slots]
    · rw [hlands.chainAt, failEpoch_epoch _ (by rw [← hd, ← hx]; exact hopen) (by rw [← hd, ← hx]; exact hunsent)]
      exact closedEpoch_closed _ _
  · obtain ⟨credits, hcredits, hrise⟩ := creditChannels_rise bits (List.range 4) List.nodup_range s fun p hp => by
      rw [hwaiting] at hp
      cases hp
    refine ⟨{ s with hinge := { s.hinge with credits := credits } }, ?_, rfl, fun ch hch => ?_⟩
    · exact command_eq (f := txCredit bits) hcredits rfl rfl
    · rw [show (State.hinge { s with hinge := { s.hinge with credits := credits } }).credits = credits from rfl, hrise ch,
        if_pos (List.mem_range.mpr hch)]
  · obtain ⟨hempty, hspent, hout, hkept⟩ := txCredit_releases hwaiting hbit hlacks
    obtain ⟨t, hexec, hlands⟩ := command_lands (c := .hngTxCredit bits) (s := s) rfl rfl
    exact ⟨t, hexec, by rw [hlands.hinge, hempty], by rw [hlands.hinge, hspent], by rw [hlands.out]; exact hout,
      hlands.chains.trans hkept.chains, hlands.slots.trans hkept.slots⟩

end

section
/-! SUPPORT. Commands that end before they have done anything: at a check (R454), or barred (R537, R574). -/

namespace Sys2Proof.Machine

open Sys2Proof.Claims

/-! ## Rows and their checks -/

theorem finalCommand_checks (finalise : RunCmd → State → RunCmd × State) (run : Run) (rc : RunCmd) (s : State) :
    ∃ start go, finalCommand finalise run rc s = checkedThen rc start go s := by
  unfold finalCommand
  exact ⟨_, _, rfl⟩

theorem sampleBody_checks (rc : RunCmd) (s : State) : ∃ start go, sampleBody rc s = checkedThen rc start go s := by
  unfold sampleBody
  exact ⟨_, _, rfl⟩

/-- The row of a ring command that holds the chain checks it first. -/
theorem row_checks {c : Instr} {op : Nat} {s : State} {rc : RunCmd} (hrow : ringOpcode c = some op) (hissues : Issues s rc op)
    (hform : ofForm c rc.packet = true) : ∃ f start go, exec c s = command f s ∧ f s = checkedThen rc start go s := by
  cases c with
  | hingeSend =>
    cases hrow
    refine ⟨_, _, _, rfl, issueIf_runs hissues.issues hissues.held hissues.running ?_⟩
    simpa [hissues.opcode, ofForm] using hform
  | hingeSendLoad =>
    cases hrow
    refine ⟨_, _, _, rfl, issueIf_runs hissues.issues hissues.held hissues.running ?_⟩
    simpa [hissues.opcode, ofForm] using hform
  | norm _ | softmaxFinal _ =>
    cases hrow
    obtain ⟨start, go, hchecks⟩ := finalCommand_checks _ _ rc s
    exact ⟨_, start, go, rfl, (issue_issued hissues _).trans hchecks⟩
  | sample =>
    cases hrow
    obtain ⟨start, go, hchecks⟩ := sampleBody_checks rc s
    exact ⟨_, start, go, rfl, (issue_issued hissues _).trans hchecks⟩
  | _ => cases hrow <;> exact ⟨_, _, _, rfl, (issue_issued hissues _).trans rfl⟩

theorem checkedThen_bad {rc : RunCmd} {s : State} {d : Nat} (start go : RunCmd → State → State) (hunchecked : rc.prog.checked = false)
    (hverdict : verdict s rc = .bad d) : checkedThen rc start go s = refuseCmd rc d s := by
  rw [checkedThen, if_neg (by simp [hunchecked]), hverdict]

theorem checkedThen_refused {rc : RunCmd} {s : State} {st : Status} (start go : RunCmd → State → State)
    (hunchecked : rc.prog.checked = false) (hverdict : verdict s rc = .refused st) :
    checkedThen rc start go s = completeCmd rc st 0 0 0 s := by
  rw [checkedThen, if_neg (by simp [hunchecked]), hverdict]

/-- The statuses that a check refuses with. -/
theorem verdict_refused {s : State} {rc : RunCmd} {st : Status} (h : verdict s rc = .refused st) :
    st = .quota ∨ st = .tableMismatch ∨ st = .hingePeerLost := by
  unfold verdict at h
  dsimp only at h
  split at h
  · cases h
  · split at h
    · cases h
      exact .inr (.inr rfl)
    · split at h
      · cases h
        exact .inl rfl
      · split at h
        · cases h
          exact .inr (.inl rfl)
        · cases h

/-- A row that runs a pass ends a barred command when its checks have passed. -/
theorem row_barred {c : Instr} {op : Nat} {s : State} {rc : RunCmd} (hrow : ringOpcode c = some op) (hissues : Issues s rc op)
    (hop : op ∈ [0x01, 0x02, 0x03, 0x04, 0x05, 0x06, 0x08, 0x09, 0x0B]) (hpasses : Passes s rc) (hbarred : barred s (passed rc) = true) :
    ∃ f, exec c s = command f s ∧ f s = failCmdUnlogged (passed rc) s := by
  have hpass : ∀ k run finish, passCommand k run finish rc s = failCmdUnlogged (passed rc) s := fun k run finish => by
    rw [passCommand, checkedThen_good _ _ hpasses.unchecked hpasses.good, if_pos hbarred]
  have hfinal : ∀ finalise run, finalCommand finalise run rc s = failCmdUnlogged (passed rc) s := fun finalise run => by
    rw [finalCommand, checkedThen_good _ _ hpasses.unchecked hpasses.good, if_pos hbarred]
  cases c with
  | norm _ | softmaxFinal _ => cases hrow; exact ⟨_, rfl, (issue_issued hissues _).trans (hfinal _ _)⟩
  | chain _ | chainAcc _ | softmaxStep _ | select _ | compress _ | expand _ | quantiseMx _ =>
    cases hrow; exact ⟨_, rfl, (issue_issued hissues _).trans (hpass _ _ _)⟩
  | _ => cases hrow <;> simp at hop

/-! ## Completions with nothing done -/

/-- The command has noted nothing that it reads, has written or has reduced. -/
structure NothingDone (rc : RunCmd) : Prop where
  reduced   : rc.prog.reduced = []
  changed   : rc.prog.changed = []
  wrote     : rc.prog.wrote = []
  wroteRegs : rc.prog.wroteRegs = []

theorem nothingDone_fresh {rc : RunCmd} (h : Fresh rc) : NothingDone rc := by
  constructor <;> rw [h.1] <;> rfl

theorem nothingDone_passed {rc : RunCmd} (h : Fresh rc) : NothingDone (passed rc) := by
  constructor <;> rw [passed, h.1] <;> rfl

/-- A command that has met nothing ends with the status of its end (R458). -/
theorem finalStatus_met_nothing {rc : RunCmd} (hpoison : rc.prog.poisonIn = false) (hflags : rc.prog.flags = 0) (hfailed : rc.failed = none)
    (htainted : rc.tainted = false) (st : Status) : finalStatus rc st = st := by
  simp [finalStatus, hpoison, hflags, hfailed, htainted]

theorem finalStatus_fresh {rc : RunCmd} (h : Fresh rc) (st : Status) : finalStatus rc st = st :=
  finalStatus_met_nothing (by rw [h.1]; rfl) (by rw [h.1]; rfl) h.2.1 h.2.2 st

theorem finalStatus_passed_of_fresh {rc : RunCmd} (h : Fresh rc) (st : Status) : finalStatus (passed rc) st = st :=
  finalStatus_met_nothing (rc := passed rc) (by rw [passed, h.1]; rfl) (by rw [passed, h.1]; rfl) h.2.1 h.2.2 st

section

variable {rc : RunCmd} (hnothing : NothingDone rc)
include hnothing

theorem appendRecord_slots_of_nothing (x : Cpl) (taint : Bool) (s : State) : (appendRecord rc x taint s).slots = s.slots := by
  have hdev : ∀ (u : State) (a : Nat) (bs : List Byte), (devWriteFor rc.vi u a bs).slots = u.slots := fun u a bs =>
    (devWriteFor_aside u _ a bs).slots
  have hlinks : ∀ (w : W128) (u : State), linkSlots rc w u = u := fun w u => by rw [linkSlots, hnothing.changed, List.foldl_nil]
  unfold appendRecord
  split
  · rfl
  · dsimp only
    rw [hlinks, ite_self, hdev]
    split
    · exact (countEvent_aside s _ _ _).slots
    · exact hdev _ _ _

/-- Nothing is discarded of a command that has done nothing, however it ends. -/
theorem beforeRecord_of_nothing (base : Status) (d r n : Nat) (s : State) :
    (beforeRecord rc base d r n s).slots = s.slots
      ∧ (chainless rc.packet → pkRecord rc.packet = false → ∀ sp a, readByte (beforeRecord rc base d r n s) sp a = readByte s sp a) := by
  have hwrites : undefineWrites rc s = s := by rw [undefineWrites, hnothing.wrote, List.foldl_nil]
  have hregs : undefineRegs rc s = s := by rw [undefineRegs, hnothing.wroteRegs, List.foldl_nil]
  have hslots : poisonSlots rc s = s := by rw [poisonSlots, hnothing.reduced, List.foldl_nil]
  have hshown : ∀ (st : Status) (x : Cpl) (taint : Bool) (l : List Nat),
      (appendRecord rc x taint (showTwin l (settleChain rc st s))).slots = s.slots
        ∧ (chainless rc.packet → pkRecord rc.packet = false →
            ∀ sp a, readByte (appendRecord rc x taint (showTwin l (settleChain rc st s))) sp a = readByte s sp a) := by
    refine fun st x taint l => ⟨?_, fun hchain hrecord sp a => ?_⟩
    · rw [appendRecord_slots_of_nothing hnothing, (showTwin_aside _ _).slots, (settleChain_aside _ _ _).slots]
    · rw [settleChain_chainless hchain, appendRecord, if_pos (by simp [hrecord])]
      exact readByte_mem (by simp) (by simp) (by simp) sp a
  unfold beforeRecord
  rw [show writeViews rc.prog.reduced s = s by rw [hnothing.reduced]; rfl]
  dsimp only
  rw [hwrites, hregs, hslots]
  cases finalStatus rc base <;> exact hshown _ _ _ _

theorem completeCmd_slots_of_nothing (base : Status) (d r n : Nat) (s : State) : (completeCmd rc base d r n s).slots = s.slots := by
  rw [completeCmd_eq, ringAfter_slots]
  have hwritten : (writeCpl rc.ring (cplOf rc base d r n) (beforeRecord rc base d r n s)).slots = s.slots := by
    rw [writeCpl_slots, (beforeRecord_of_nothing hnothing base d r n s).1]
  split
  · rw [writeNotify_slots, hwritten]
  · exact hwritten

end

/-- What is written after a command's record is its completion and its notification word alone. -/
theorem completion_readByte {rc : RunCmd} {s : State} (x : Cpl) (hcached : (cacheEntry s rc.ring).isSome) (hplain : plainEnd s rc x.status)
    {sp : Space} {a : Nat} (hown : ¬ cplHolds (ctxOfRing s rc.ring) rc sp a) :
    readByte (ringAfter rc.ring x.status (if pkNotify rc.packet then writeNotify rc.ring rc.seq.toNat (writeCpl rc.ring x s)
      else writeCpl rc.ring x s)) sp a = readByte s sp a := by
  have hwritten := writeCpl_written rc.ring x s hcached
  obtain ⟨hnone, hhalt⟩ := hplain
  generalize writeCpl rc.ring x s = v at hwritten ⊢
  obtain ⟨z, hz, hrings, hbytes⟩ : ∃ z, (if pkNotify rc.packet then writeNotify rc.ring rc.seq.toNat v else v) = z ∧ z.rings = v.rings
      ∧ readByte z sp a = readByte v sp a := by
    refine ⟨_, rfl, ?_⟩
    split
    · next hnotify =>
      refine ⟨(writeNotify_rest _ _ v).1, writeNotify_other _ _ v sp a ?_⟩
      rw [hwritten.ctx]
      rintro ⟨hdevice, hword, hheld⟩
      exact hown ⟨hdevice, .inr ⟨hnotify, hword, hheld⟩⟩
    · exact ⟨rfl, rfl⟩
  have hcachedZ : (cacheEntry z rc.ring).isSome := by rw [cacheEntry_eq (t := z) (s := v) (by rw [hrings])]; exact hwritten.cached
  have hctxZ : ctxOfRing z rc.ring = ctxOfRing v rc.ring := ctxOfRing_eq (by rw [hrings]) hwritten.cached
  have hnoneZ : ringDeferred z rc.ring = none := by
    unfold ringDeferred at hnone ⊢
    rw [hrings, hwritten.deferred, hnone]
  rw [hz, (ringAfter_plain rc.ring x.status z hcachedZ hnoneZ (by rw [hctxZ, hwritten.ctx]; exact hhalt)).2.2, hbytes]
  exact hwritten.other sp a fun h => hown ⟨h.1, .inl h.2⟩

/-- A command that has done nothing changes no byte but its completion's, however it ends. -/
theorem NothingDone.onlyCompletion {s : State} {rc rc' : RunCmd} (hnothing : NothingDone rc') (hring : rc'.ring = rc.ring)
    (hpacket : rc'.packet = rc.packet) (hcached : (cacheEntry s rc.ring).isSome) (base : Status) (d r n : Nat) :
    OnlyCompletion s (completeCmd rc' base d r n s) rc (finalStatus rc' base) := by
  intro hplain hchain hrecord sp a hown
  have hkept := beforeRecord_keepsCtx rc' base d r n s
  have hctx : ctxOfRing (beforeRecord rc' base d r n s) rc'.ring = ctxOfRing s rc.ring := by
    rw [hring]
    exact ctxOfRing_eq hkept.cache hcached
  obtain ⟨hnone, hhalt⟩ := hplain
  rw [completeCmd_eq]
  refine (completion_readByte (rc := rc') (cplOf rc' base d r n) ?_ ⟨?_, ?_⟩ ?_).trans
    ((beforeRecord_of_nothing hnothing base d r n s).2 (hpacket ▸ hchain) (hpacket ▸ hrecord) sp a)
  · rw [hring, cacheEntry_eq hkept.cache]
    exact hcached
  · unfold ringDeferred at hnone ⊢
    rw [hring, hkept.deferred, hnone]
  · rw [hctx]
    exact hhalt
  · unfold cplHolds notifyHolds at hown ⊢
    rw [hctx, hpacket]
    exact hown

/-- A row that completes a command which has done nothing leaves slots and bytes. -/
theorem nothingDone_ends {c : Instr} {s : State} {rc rc' : RunCmd} {f : State → State} {base : Status} {d r n : Nat}
    (hexec : exec c s = command f s) (hrun : f s = completeCmd rc' base d r n s) (hcached : (cacheEntry s rc.ring).isSome)
    (hnothing : NothingDone rc') (hring : rc'.ring = rc.ring) (hpacket : rc'.packet = rc.packet) (hseq : rc'.seq = rc.seq) :
    ∃ t, Ends c s t rc (cplOf rc' base d r n) ∧ t.slots = s.slots ∧ OnlyCompletion s t rc (finalStatus rc' base) := by
  refine ⟨completeCmd rc' base d r n s, ?_, completeCmd_slots_of_nothing hnothing base d r n s,
    hnothing.onlyCompletion hring hpacket hcached base d r n⟩
  unfold Ends
  rw [hexec]
  exact command_completes rc rc' base d r n hrun hcached (Works.refl s) hring hpacket hseq

/-- The result word and the count of a command that has just started are 0, but for those that wait for an event. -/
theorem soFar_passed_fresh {rc : RunCmd} (hfresh : Fresh rc) (hop : pkOpcode rc.packet ≠ 0x2A) (s : State) : soFar (passed rc) s = (0, 0) := by
  have hprog : (passed rc).prog = { Progress.zero with checked := true } := by rw [passed, hfresh.1]
  unfold soFar
  rw [hprog]
  dsimp only
  split
  · rfl
  · rfl
  · rfl
  · rfl
  · rfl
  · exact ite_self _
  · rfl
  · rfl
  · next h => exact absurd h hop
  · rfl

end Sys2Proof.Machine

open Sys2Proof Sys2Proof.Machine Sys2Proof.Claims

/-- Settles O5: the row's check comes before all else, and a fresh command has nothing to discard. -/
theorem failedCheckEndsTheCommand : Obligations.FailedCheckEndsTheCommand := by
  unfold Obligations.FailedCheckEndsTheCommand
  intro c op s rc hrow hissues hform hfresh
  have hunchecked : rc.prog.checked = false := by rw [hfresh.1]; rfl
  have hplain : ({ rc with failed := none, tainted := false } : RunCmd) = rc := by
    obtain ⟨-, hfailed, htainted⟩ := hfresh
    rw [← hfailed, ← htainted]
  obtain ⟨f, start, go, hexec, hchecks⟩ := row_checks hrow hissues hform
  refine ⟨fun d hverdict => ?_, fun st hverdict => ⟨verdict_refused hverdict, ?_⟩, fun hop hpasses hbarred => ?_⟩
  · have hrun : f s = completeCmd rc .badCommand d 0 0 s := by
      rw [hchecks, checkedThen_bad start go hunchecked hverdict, refuseCmd, hplain]
    have hends := nothingDone_ends hexec hrun hissues.cached (nothingDone_fresh hfresh) rfl rfl rfl
    rwa [show cplOf rc .badCommand d 0 0 = refusedCpl rc .badCommand d by simp [cplOf, refusedCpl, finalStatus_fresh hfresh],
      finalStatus_fresh hfresh] at hends
  · have hrun := hchecks.trans (checkedThen_refused start go hunchecked hverdict)
    have hends := nothingDone_ends hexec hrun hissues.cached (nothingDone_fresh hfresh) rfl rfl rfl
    have hcpl : cplOf rc st 0 0 0 = refusedCpl rc st 0 := by
      unfold cplOf refusedCpl
      rw [finalStatus_fresh hfresh]
      split <;> rfl
    rwa [hcpl, finalStatus_fresh hfresh] at hends
  · obtain ⟨f, hexec, hrun⟩ := row_barred hrow hissues hop hpasses hbarred
    have hwait : pkOpcode rc.packet ≠ 0x2A := by
      rw [hissues.opcode]
      rintro rfl
      simp at hop
    rw [failCmdUnlogged, soFar_passed_fresh hfresh hwait] at hrun
    have hends := nothingDone_ends hexec hrun hissues.cached (nothingDone_passed hfresh) rfl rfl rfl
    have hcpl : cplOf (passed rc) .errorContained 0xFFFF 0 0 = ⟨rc.seq.toNat, .errorContained, 0, 0xFFFF, 0, 0⟩ := by
      have hflags : (passed rc).prog.flags = 0 := by rw [passed, hfresh.1]; rfl
      simp only [cplOf, finalStatus_passed_of_fresh hfresh, hflags]
      rfl
    rwa [hcpl, finalStatus_passed_of_fresh hfresh] at hends

end

section
/-! SUPPORT. The drain's prescan (R32) and the shift acknowledgements (R298, R299, R627). -/

namespace Sys2Proof.Machine

open Sys2Proof.Claims

/-! ## The prescan -/

/-- The record of one more lane. -/
theorem tops_laneMaxOf {b : Beat} {first n : Nat} {m : LaneMax} (h : Tops b first n m) :
    Tops b first (n + 1) (laneMaxOf m ⟨b.lanes.getD (first + n) 0, first + n⟩) := by
  obtain ⟨hlow, hhigh, hvalue, htop⟩ := h
  have hlast : ∀ l, l < first + (n + 1) → l < first + n ∨ l = first + n := fun l hl => by omega
  unfold laneMaxOf
  dsimp only
  split
  · next hmore =>
    refine ⟨by dsimp only; omega, by dsimp only; omega, rfl, fun l hfirst hl => ?_⟩
    dsimp only
    rcases hlast l hl with hl | rfl
    · have hle := (htop l hfirst hl).1
      exact ⟨by omega, fun _ => by omega⟩
    · exact ⟨Int.le_refl _, fun h => absurd h (Nat.lt_irrefl _)⟩
  · next hless =>
    refine ⟨hlow, by omega, hvalue, fun l hfirst hl => ?_⟩
    rcases hlast l hl with hl | rfl
    · exact htop l hfirst hl
    · exact ⟨by omega, fun h => by omega⟩

theorem prescanGroup_tops (b : Beat) (first : Nat) {n : Nat} (hn : n ≠ 0) : Tops b first n (prescanGroup b first n) := by
  obtain ⟨n, rfl⟩ := Nat.exists_eq_succ_of_ne_zero hn
  unfold prescanGroup
  induction n with
  | zero =>
    have hone : Tops b first 1 ⟨b.lanes.getD first 0, first⟩ := by
      refine ⟨Nat.le_refl _, Nat.lt_succ_self _, rfl, fun l hfirst hl => ?_⟩
      rw [show l = first by omega]
      exact ⟨Int.le_refl _, fun h => absurd h (Nat.lt_irrefl _)⟩
    rw [List.range_one, List.foldl_cons, List.foldl_nil, Nat.add_zero, laneMaxOf]
    split <;> exact hone
  | succ k ih =>
    rw [List.range_succ, List.foldl_append]
    exact tops_laneMaxOf (ih (Nat.succ_ne_zero k))

theorem prescan_top (b : Beat) : Tops b 0 512 (prescan b).top := by
  unfold prescan
  dsimp only [Config.lanes]
  exact prescanGroup_tops b 0 (by decide)

/-! ## Requests -/

theorem setRequests_beats (s : State) (l : List ShiftReq) : shiftCmd (setRequests s l) = shiftCmd s ∧ holderCmd (setRequests s l) = holderCmd s :=
  ⟨rfl, rfl⟩

/-- An answer takes the oldest request, and goes to the command whose request it is. -/
theorem shiftAnswered_cons {s : State} {q : ShiftReq} {rest : List ShiftReq} (h : s.shift.requests = q :: rest) (ok : Bool) :
    shiftAnswered ok s = match shiftCmd s with
      | none => setRequests s rest
      | some rc => if ackIsMine s rc then (if ok then ackApplied rc (setRequests s rest) else ackFailed rc (setRequests s rest))
          else setRequests s rest := by
  unfold shiftAnswered
  rw [h]
  rfl

theorem shiftCmd_raising {s : State} {rc : RunCmd} (h : shiftCmd s = some rc) : 0 < raisingHeld rc := by
  simpa using List.find?_some h

theorem shiftAnswered_nil {s : State} (h : s.shift.requests = []) (ok : Bool) : shiftAnswered ok s = s := by
  unfold shiftAnswered
  rw [h]

/-- Another command's request is answered: it leaves the queue. -/
theorem shiftAnswered_other {s : State} {q : ShiftReq} {rest : List ShiftReq} (hrequests : s.shift.requests = q :: rest)
    (hother : shiftCmd s = none ∨ ∃ rc, shiftCmd s = some rc ∧ raisingHeld rc < s.shift.requests.length) (ok : Bool) :
    shiftAnswered ok s = setRequests s rest := by
  rw [shiftAnswered_cons hrequests]
  rcases hother with hnone | ⟨rc, hsome, hearlier⟩
  · rw [hnone]
  · rw [hsome]
    dsimp only
    rw [if_neg (by unfold ackIsMine; simp; omega)]

/-- The request of the command whose beats wait is answered. -/
theorem shiftAnswered_mine {s : State} {q : ShiftReq} {rest : List ShiftReq} {rc : RunCmd} (hrequests : s.shift.requests = q :: rest)
    (hcmd : shiftCmd s = some rc) (hmine : s.shift.requests.length ≤ raisingHeld rc) (ok : Bool) :
    shiftAnswered ok s = if ok then ackApplied rc (setRequests s rest) else ackFailed rc (setRequests s rest) := by
  rw [shiftAnswered_cons hrequests, hcmd]
  dsimp only
  rw [if_pos (by unfold ackIsMine; simp [shiftCmd_raising hcmd, hmine])]

/-! ## Held beats -/

/-- The writes of held beats go out up to the next that waits, and nothing else of the command's moves. -/
theorem releaseHeld_releases (l : List HeldBeat) (rc : RunCmd) (s : State) :
    (releaseHeld l rc s).1.prog.heldBeats = l.dropWhile (fun x => !x.raising) ∧ (releaseHeld l rc s).1.prog.ended = rc.prog.ended
      ∧ (releaseHeld l rc s).1.ring = rc.ring ∧ Works s (releaseHeld l rc s).2 ∧ (releaseHeld l rc s).2.slots = s.slots := by
  induction l generalizing rc s with
  | nil => exact ⟨rfl, rfl, rfl, Works.refl s, rfl⟩
  | cons b rest ih =>
    unfold releaseHeld
    split
    · next hraising => exact ⟨by rw [List.dropWhile_cons_of_neg (by simp [hraising])], rfl, rfl, Works.refl s, rfl⟩
    · next hraising =>
      obtain ⟨hbeats, hended, hring, hworks, hslots⟩ := ih (bufferWrites rc b.writes s).1 (bufferWrites rc b.writes s).2
      exact ⟨by rw [List.dropWhile_cons_of_pos (by simpa using hraising)]; exact hbeats, hended, hring,
        (bufferWrites_does rc b.writes s).works.trans hworks, hslots.trans (bufferWrites_noSlot rc b.writes s).slots⟩

end Sys2Proof.Machine

open Sys2Proof Sys2Proof.Machine Sys2Proof.Claims

/-- Settles O20: the beat by the unit's refusal, the prescan lane by lane, and an acknowledgement by whose request is the oldest. -/
theorem beatsAndShiftsMove : Obligations.BeatsAndShiftsMove := by
  unfold Obligations.BeatsAndShiftsMove
  intro s b a
  refine ⟨fun hrefuse => ?_, fun hrefuse hcredits => ?_, ⟨rfl, prescan_top b, fun g hg => ?_⟩, fun hnone => ⟨?_, ?_⟩,
    fun q rest hrequests c hc => ⟨fun hother => ?_, fun rc hcmd hmine => ⟨fun hfails => ?_, ?_, ?_⟩⟩, fun hidle => ?_⟩
  · exact (if_pos hrefuse).trans (command_of_same rfl)
  · refine (if_neg (by simp [hrefuse])).trans ((if_neg hcredits).trans (command_eq ?_ (by simp) (by simp)))
    unfold drainBeat wake
    dsimp only
    split
    · rfl
    · split
      · rfl
      · rfl
      · split <;> rfl
  · refine ⟨prescanGroup b (32 * g) 32, ?_, prescanGroup_tops b (32 * g) (by decide)⟩
    simp [prescan, hg]
  · exact command_of_same (shiftAnswered_nil hnone _)
  · exact command_of_same (shiftAnswered_nil hnone _)
  · have hanswer := shiftAnswered_other hrequests hother
    simp only [List.mem_cons, List.not_mem_nil, or_false] at hc
    rcases hc with rfl | rfl | rfl <;> exact command_eq (hanswer _) rfl rfl
  · have hanswer := (shiftAnswered_mine hrequests hcmd hmine false).trans (if_neg Bool.false_ne_true)
    simp only [List.mem_cons, List.not_mem_nil, or_false] at hc
    rcases hc with rfl | rfl | rfl
    · exact absurd rfl hfails
    · exact command_eq hanswer rfl rfl
    · exact command_eq hanswer rfl rfl
  · rintro rfl hsuspended
    have hanswer := (shiftAnswered_mine hrequests hcmd hmine true).trans (if_pos rfl)
    unfold ackApplied at hanswer
    dsimp only at hanswer
    rw [if_neg hsuspended] at hanswer
    exact command_eq hanswer rfl rfl
  · rintro rfl hrunning
    have hanswer := (shiftAnswered_mine hrequests hcmd hmine true).trans (if_pos rfl)
    unfold ackApplied at hanswer
    dsimp only at hanswer
    rw [if_pos hrunning] at hanswer
    obtain ⟨hbeats, hended, hring, hworks, hslots⟩ := releaseHeld_releases (ackOldest rc.prog.heldBeats) rc (setRequests s rest)
    refine ⟨_, _, command_to hanswer, ?_, ?_, hended, hbeats, ?_⟩
    · exact congrArg (fun x => x.requests) hworks.shift
    · rw [← hring]
      exact cmdOf_setCmd_same _ _
    · exact hslots
  · refine command_eq (f := queueSpace) ?_ rfl rfl
    unfold queueSpace
    dsimp only
    split
    · next hheld =>
      have hnone : holderCmd (setRequests s (shiftPlace s.shift.requests)) = none := by
        rw [(setRequests_beats s _).2]
        exact hidle.resolve_left (by simp_all)
      unfold setRequests at hnone
      rw [hnone]
      rfl
    · rfl

end

section
/-! SUPPORT. Where a step of a pass stops: at a segment boundary (R482, R486), or where the drain has no beat for it (R278). -/

namespace Sys2Proof.Machine

open Sys2Proof.Claims

/-! ## The rows -/

theorem passOf_exec {c : Instr} {op : Nat} {k : PassKind} (h : passOf c = some (op, k)) :
    op ≠ 0x0A ∧ (k.writer = emitWriter ∨ k.writer = selectWriter)
      ∧ ∃ finish, ∀ s, exec c s = command (issue op (passCommand k (runOf c) finish)) s := by
  unfold passOf at h
  split at h <;> cases h
  case h_4 => exact ⟨by decide, .inr rfl, _, fun _ => rfl⟩
  all_goals exact ⟨by decide, .inl rfl, _, fun _ => rfl⟩

theorem tame_of_writer {k : PassKind} (h : k.writer = emitWriter ∨ k.writer = selectWriter) : k.writer.tame := by
  rcases h with h | h <;> rw [h]
  · exact emitWriter_tame
  · exact selectWriter_tame

/-- A pass that one step leaves open puts its command back. -/
theorem continuePass_stops {k : PassKind} {run : Run} (finish : RunCmd → State → State) {rc : RunCmd} {s : State} {h r : RunCmd × State}
    (herror : run.error = none) (hreleased : releaseHeld rc.prog.heldBeats rc s = h)
    (hruns : runVectors k (stepLimit h.2 h.1 (psVectors h.1 - h.1.prog.vector) run.vectors) h.1 h.2 = r) (hopen : passOver r.1 = false) :
    continuePass k run finish rc s = setCmd r.2 r.1 := by
  unfold continuePass
  dsimp only
  rw [hreleased, herror]
  unfold meetError stagedVector
  simp only [hruns, hopen, Bool.not_false, Bool.true_or, if_true]

/-- While its oldest held beat waits for its acknowledgement, nothing of a command's goes out. -/
theorem releaseHeld_waits {rc : RunCmd} (s : State) (h : rc.prog.heldBeats = [] ∨ ∃ x l, rc.prog.heldBeats = x :: l ∧ x.raising = true) :
    releaseHeld rc.prog.heldBeats rc s = (rc, s) := by
  rcases h with h | ⟨x, l, h, hraising⟩
  · exact releaseHeld_nil h s
  · rw [h, releaseHeld, if_pos hraising, ← h]

theorem passOver_of_open {rc : RunCmd} (hleft : rc.prog.vector < psVectors rc) (hended : rc.prog.ended = none) : passOver rc = false := by
  unfold passOver
  simp [hended, hleft]

/-! ## Boundaries -/

theorem isBoundary_congr {a b : RunCmd} (hpacket : b.packet = a.packet) (htumbler : b.tumbler = a.tumbler) (hlatched : b.latched = a.latched) :
    isBoundary b = isBoundary a := by
  funext v
  unfold isBoundary segmentLength segmentVectors placesRecords recordsAt cmdDrains
  rw [hpacket, htumbler, hlatched]

section

variable {rc : RunCmd} {n : Nat} (hbound : isBoundary rc n = true) (hfirst : ∀ v < n, isBoundary rc v = false)
include hbound hfirst

/-- The first boundary comes no later than a whole segment. -/
theorem firstBoundary_le : n ≠ 0 ∧ n ≤ segmentLength rc := by
  have hne : n ≠ 0 := by
    rintro rfl
    simp [isBoundary] at hbound
  refine ⟨hne, Nat.le_of_not_lt fun hlt => ?_⟩
  have hno := hfirst _ hlt
  unfold isBoundary at hno
  have hlength := segmentLength_pos rc
  simp at hno
  omega

theorem firstBoundary_eq (hplaces : placesRecords rc = false) : n = segmentLength rc := by
  obtain ⟨hne, hle⟩ := firstBoundary_le hbound hfirst
  unfold isBoundary at hbound
  simp only [hplaces, Bool.false_and, Bool.or_false, Bool.and_eq_true, decide_eq_true_eq] at hbound
  exact Nat.le_antisymm hle (Nat.le_of_dvd (Nat.pos_of_ne_zero hne) (Nat.dvd_of_mod_eq_zero hbound.2))

/-- A pass at its start may go as far as its first boundary. -/
theorem toBoundary_first (hvector : rc.prog.vector = 0) {left : Nat} (hleft : n ≤ left) : toBoundary rc left = n := by
  obtain ⟨hne, hle⟩ := firstBoundary_le hbound hfirst
  unfold toBoundary
  dsimp only
  rw [hvector, Nat.zero_mod, Nat.sub_zero]
  split
  · have hfound : (List.range (min left (segmentLength rc))).find? (fun k => isBoundary rc (0 + k + 1)) = some (n - 1) := by
      rw [List.find?_range_eq_some]
      refine ⟨?_, List.mem_range.mpr (by omega), fun j hj => ?_⟩
      · rw [show 0 + (n - 1) + 1 = n by omega]
        exact hbound
      · rw [hfirst _ (by omega)]
        rfl
    rw [hfound]
    show n - 1 + 1 = n
    omega
  · next hplaces =>
    have hwhole := firstBoundary_eq hbound hfirst (Bool.eq_false_iff.mpr hplaces)
    omega

end

/-! ## What the vectors leave of a command's place -/

/-- A command is checked, and the boundary decided for it last is `n`. -/
def Placed (n : Nat) (rc : RunCmd) : Prop := rc.prog.checked = true ∧ rc.prog.decided = n

theorem Placed.steady {n : Nat} (a b : RunCmd) (h : Steady a b) (ha : Placed n a) : Placed n b :=
  ⟨h.checked.trans ha.1, h.decided.trans ha.2⟩

theorem placeRecord_placed {n : Nat} (s : State) (a : Placing) (g : GateRecord) (h : Placed n a.rc) : Placed n (placeRecord s a g).rc := by
  unfold placeRecord
  dsimp only
  split
  · exact h
  · split
    · exact h
    · split
      · split
        · exact h
        · exact Placed.steady _ _ (combineRecord_steady _ _ _ _ _ _) h
      · split
        · exact Placed.steady _ _ (combineRecord_steady _ _ _ _ _ _) h
        · exact h

theorem placedRecords_placed {n : Nat} (s : State) (l : List GateRecord) (a : Placing) (h : Placed n a.rc) :
    Placed n (l.foldl (placeRecord s) a).rc := by
  induction l generalizing a with
  | nil => exact h
  | cons g rest ih => exact ih _ (placeRecord_placed s a g h)

theorem selectWriter_placed {n : Nat} (s : State) (rc : RunCmd) (v : Nat) (es : List Elem) (h : Placed n rc) :
    Placed n (selectWriter.write s rc v es).1.rc := by
  have hfold : ∀ (f : EmitOut × State → Nat → EmitOut × State) (_ : ∀ a r, Placed n a.1.rc → Placed n (f a r).1.rc)
      (l : List Nat) (a : EmitOut × State), Placed n a.1.rc → Placed n (l.foldl f a).1.rc := by
    intro f hf l
    induction l with
    | nil => exact fun _ ha => ha
    | cons x rest ih => exact fun a ha => ih _ (hf a x ha)
  unfold selectWriter
  dsimp only
  refine hfold _ (fun a row ha => ?_) _ _ h
  split
  · exact ha
  · split
    · dsimp only
      generalize hb : List.foldl (placeRecord _) _ _ = b
      have hplaced : Placed n b.rc := by
        rw [← hb]
        exact placedRecords_placed _ _ _ ha
      split <;> exact hplaced
    · exact ha

theorem writer_placed {k : PassKind} (hwriter : k.writer = emitWriter ∨ k.writer = selectWriter) {n : Nat} (s : State) (rc : RunCmd)
    (v : Nat) (es : List Elem) (h : Placed n rc) : Placed n (k.writer.write s rc v es).1.rc := by
  rcases hwriter with hwriter | hwriter <;> rw [hwriter]
  · exact Placed.steady _ _ (emitVector_steady rc v es _) h
  · exact selectWriter_placed s rc v es h

/-! ## The first segment -/

/-- A pass that has a boundary before its end runs to the first one, and waits there for arbitration. -/
theorem firstSegment_runs {k : PassKind} (hwriter : k.writer = emitWriter ∨ k.writer = selectWriter) (finish : RunCmd → State → State)
    {s : State} {rc : RunCmd} {op n : Nat} (hissues : Issues s rc op) (hpasses : Passes s rc) (hfresh : Fresh rc)
    (hunbarred : barred s (passed rc) = false) (hdrains : psDrains rc = false) (htrap : rc.latched.nanTrap = false)
    (hregs : hasRegs (ctxOfRing s rc.ring) = true) (hbound : isBoundary rc n = true) (hfirst : ∀ v < n, isBoundary rc v = false)
    (hn : n < psVectors rc) : ∃ r, issue op (passCommand k wholeRun finish) s = setCmd r.2 r.1 ∧ Goes (passed rc, s) r
      ∧ r.1.prog.vector = n ∧ Placed 0 r.1 := by
  have htame := tame_of_writer hwriter
  have hstart : Placed 0 (passed rc) := ⟨rfl, by rw [passed, hfresh.1]; rfl⟩
  rw [passRow_begins k wholeRun finish hissues hpasses hunbarred]
  have hbegun := beginPass_does k (passed rc) s
  have hplaced := beginPass_keeps (P := Placed 0) Placed.steady (fun s a h => h) k s hstart
  generalize beginPass k (passed rc) s = b at hbegun hplaced ⊢
  have hbeats : b.1.prog.heldBeats = [] := hbegun.cmd.heldBeats.trans (passed_heldBeats hfresh)
  have hvector : b.1.prog.vector = 0 := hbegun.cmd.vector.trans (passed_vector hfresh)
  have hvectors : psVectors b.1 = psVectors rc := hbegun.cmd.vectors
  have hsame : isBoundary b.1 = isBoundary rc := isBoundary_congr hbegun.cmd.packet hbegun.cmd.tumbler hbegun.cmd.latched
  have hctx : ctxOfRing b.2 b.1.ring = ctxOfRing s rc.ring := by
    rw [hbegun.cmd.ring]
    exact ctxOfRing_eq hbegun.works.cache hissues.cached
  have hlimit : stepLimit b.2 b.1 (psVectors b.1 - b.1.prog.vector) wholeRun.vectors = n := by
    have hat : atSegment b.2 b.1 = false := by simp [atSegment, isBoundary, hvector]
    unfold stepLimit
    simp only [hat, hctx, hregs, wholeRun, hvectors, hvector, Nat.sub_zero, Option.getD_none, Nat.min_self, Bool.false_eq_true, if_false,
      if_true]
    exact toBoundary_first (hsame ▸ hbound) (hsame ▸ hfirst) hvector (by omega)
  obtain ⟨hgoes, hend⟩ := runVectors_ran htame n b.2 (hbegun.goes.drains.trans hdrains) hbeats
    (hbegun.cmd.ended.trans (passed_ended hfresh)) (by omega)
  have hkept := runVectors_keeps htame (P := Placed 0) Placed.steady (writer_placed hwriter) n b.2 (hbegun.goes.drains.trans hdrains)
    hbeats hplaced
  obtain ⟨hended, hran⟩ := hend.resolve_right fun ⟨_, hlatched⟩ => by
    rw [hbegun.cmd.latched, show (passed rc).latched = rc.latched from rfl, htrap] at hlatched
    cases hlatched
  refine ⟨runVectors k n b.1 b.2, ?_, hbegun.goes.trans hgoes, by rw [hran, hvector, Nat.zero_add], hkept⟩
  refine continuePass_stops finish (h := b) rfl (releaseHeld_nil hbeats b.2) (by rw [hlimit]) (passOver_of_open ?_ hended)
  rw [hgoes.vectors, hran, hvectors, hvector, Nat.zero_add]
  exact hn

/-! ## A pass that waits -/

/-- No vector runs at a boundary, nor while the drain has no beat that a vector could take. -/
theorem runVectors_waits (k : PassKind) {rc : RunCmd} {s : State} {run : Run} (hended : rc.prog.ended = none) (hleft : rc.prog.vector < psVectors rc)
    (hwaits : atSegment s rc = true ∨ psDrains rc = true ∧ s.drain.queue = [] ∧ rc.prog.ready = [] ∧ runnable rc = []) :
    runVectors k (stepLimit s rc (psVectors rc - rc.prog.vector) run.vectors) rc s = (rc, s) := by
  rcases hwaits with hat | ⟨hdrains, hqueue, hready, hnone⟩
  · unfold stepLimit
    dsimp only
    rw [if_pos hat]
    rfl
  · have htake : takeBeat s = none := by rw [takeBeat, hqueue]
    have hnext : nextVector k none rc s = (false, rc, s) := by
      unfold nextVector
      split
      · rw [hqueue]
        dsimp only [List.length_nil, gatherBeats]
        rw [if_neg (by simp [hended])]
        unfold nextWaiting
        rw [hready, hnone]
      · rw [nextBeat, htake]
    generalize stepLimit s rc (psVectors rc - rc.prog.vector) run.vectors = m
    cases m with
    | zero => rfl
    | succ m =>
      unfold runVectors
      simp only [passOver_of_open hleft hended, hnext, Bool.false_eq_true, if_false]

end Sys2Proof.Machine
end

section
/-! SUPPORT. What leaves the unit's ports is never taken back: the events of a state stand in every later one, through a vector's work
and the contributions that it sends. -/

namespace Sys2Proof.Machine

open Sys2Proof.Claims

/-- Whatever has left in `s` has left in `t`. -/
def Says (s t : State) : Prop := ∀ e ∈ s.out, e ∈ t.out

theorem Says.of_out {s t : State} (h : t.out = s.out) : Says s t := fun _ he => h ▸ he

theorem Says.refl (s : State) : Says s s := .of_out rfl

theorem Says.trans {s t u : State} (h : Says s t) (k : Says t u) : Says s u := fun e he => k e (h e he)

theorem Says.foldl {β : Type} (f : State → β → State) (hf : ∀ s x, Says s (f s x)) (l : List β) (s : State) : Says s (l.foldl f s) := by
  induction l generalizing s with
  | nil => exact .refl s
  | cons x rest ih => exact (hf s x).trans (ih _)

/-- A fold that carries the state with something else. -/
theorem Says.foldl_on {α β : Type} (g : α → State) (f : α → β → α) (hf : ∀ a x, Says (g a) (g (f a x))) (l : List β) (a : α) :
    Says (g a) (g (l.foldl f a)) := by
  induction l generalizing a with
  | nil => exact .refl _
  | cons x rest ih => exact (hf a x).trans (ih _)

theorem emit_says (s : State) (e : OutEvent) : Says s (emit s e) := fun _ h => List.mem_append_left _ h

theorem countEvent_says (c n : Nat) (v : Option ViId) (s : State) : Says s (countEvent c n v s) := .of_out (countEvent_out s c n v)

theorem hinge_says (s : State) (h : HingePort) : Says s { s with hinge := h } := .of_out rfl

theorem det_says (s : State) (d : Det) : Says s { s with det := d } := .of_out rfl

theorem modEpoch_says (c : Nat) (e : W32) (f : Epoch → Epoch) (s : State) : Says s (modEpoch s c e f) := .of_out rfl

/-! ## The trace -/

theorem traceDrain_says (rs : List TraceRecord) (s : State) : Says s (traceDrain rs s) := by
  induction rs generalizing s with
  | nil => exact .of_out rfl
  | cons r rest ih =>
    unfold traceDrain
    split
    · exact .of_out rfl
    · exact Says.trans (.of_out (by simp)) (ih _)

theorem traceFlush_says (s : State) : Says s (traceFlush s) := traceDrain_says _ s

theorem tracePut_says (v : Option ViId) (r : TraceRecord) (s : State) : Says s (tracePut v r s) := by
  unfold tracePut
  split
  · have hflushed : Says s (traceFlush { s with det := { s.det with buffer := s.det.buffer ++ [r] } }) :=
      (det_says s _).trans (traceFlush_says _)
    dsimp only
    split
    · exact hflushed
    · exact hflushed.trans (.of_out (by simp))
  · exact .of_out (by simp)

theorem traceChoice_says (type : Nat) (vi : Option ViId) (a b c : Nat) (s : State) : Says s (traceChoice type vi a b c s) := by
  unfold traceChoice
  split
  · exact Says.trans (.of_out (by simp)) (tracePut_says _ _ _)
  · exact .refl s

/-! ## The hinge -/

theorem hingeOut_says (twin : Bool) (o : ViId) (p : HingePacket) (s : State) : Says s (hingeOut twin o p s) := by
  have hshown : Says s (showTwin (shownPacket p) s) := .of_out (by simp)
  unfold hingeOut
  dsimp only
  split
  · exact hshown
  · split
    · exact (hshown.trans (emit_says _ _)).trans (countEvent_says _ _ _ _)
    · split
      · exact hshown
      · refine Says.trans ?_ (countEvent_says _ _ _ _)
        refine Says.trans ?_ (emit_says _ _)
        exact hshown.trans (hinge_says _ _)

theorem sendRetract_says (c : Nat) (e : W32) (entry : BitVec 32) (s : State) : Says s (sendRetract c e entry s) :=
  (hingeOut_says _ _ _ s).trans (countEvent_says _ _ _ _)

theorem retractAll_says (c : Nat) (e : W32) (s : State) : Says s (retractAll c e s) := .foldl _ (fun s _ => sendRetract_says c e _ s) _ s

theorem storeRelease_says (s : State) : Says s (storeRelease s) := by
  unfold storeRelease
  split
  · refine Says.trans ?_ (emit_says _ _)
    exact (hinge_says s _).trans (hinge_says _ _)
  · exact .refl s

theorem wakeConsumer_says (c : Nat) (s : State) : Says s (wakeConsumer c s) := .of_out rfl

theorem closeEpoch_says (c : Nat) (e : W32) (r : Status) (s : State) : Says s (closeEpoch c e r s) :=
  ((modEpoch_says c e _ s).trans (wakeConsumer_says c _)).trans (storeRelease_says _)

theorem failEpoch_says (c : Nat) (e : W32) (r : Status) (s : State) : Says s (failEpoch c e r s) := by
  unfold failEpoch
  dsimp only
  split
  · exact .refl s
  · refine Says.trans ?_ (closeEpoch_says c e r _)
    split
    · exact retractAll_says c e s
    · exact sendRetract_says c e _ s

theorem sendPartial_says (c : Nat) (e : W32) (b : Bool) (pt r0 n : Nat) (bs : List Byte) (s : State) :
    Says s (sendPartial c e b pt r0 n bs s) := by
  unfold sendPartial
  dsimp only
  split
  · exact .refl s
  · exact (modEpoch_says c e _ s).trans (hingeOut_says _ _ _ _)

theorem starCounts_says (d : ChainDesc) (x : Epoch) (c : Nat) (e : W32) (rows : List Nat) (s : State) :
    Says s (rows.foldl (fun s r => traceOrder c e r d.owner (orderedInputs d x r) (countBits (orderedInputs d x r).length d.owner s)) s) :=
  .foldl _ (fun s _ => Says.trans (.of_out (by simp)) (.foldl _ (fun s _ => traceChoice_says _ _ _ _ _ s) _ _)) _ s

theorem sendList_says (c : Nat) (e : W32) (b : Bool) (row : Nat) (r : ChainRow) (s : State) : Says s (sendList c e b row r s) :=
  .foldl _ (fun s _ => sendPartial_says c e b _ _ _ _ s) _ s

theorem forwardRows_says (c : Nat) (e : W32) (s : State) : Says s (forwardRows c e s) := by
  unfold forwardRows
  dsimp only
  split
  · exact .refl s
  · split
    · exact .refl s
    · generalize hsent : (if partialType (chainAt s c).image = ptypeCand then _ else _ : State) = u
      have hu : Says s u := by
        rw [← hsent]
        split
        · exact (modEpoch_says c e _ s).trans (.foldl _ (fun s _ => sendList_says c e _ _ _ s) _ _)
        · refine Says.trans ?_ (.foldl _ (fun s _ => sendPartial_says c e _ _ _ _ _ s) _ _)
          refine Says.trans ?_ (.foldl _ (fun s _ => sendPartial_says c e _ _ _ _ _ s) _ _)
          exact modEpoch_says c e _ s
      split
      · exact hu.trans (starCounts_says _ _ _ _ _ _)
      · exact hu

theorem settleNotice_says (c : Nat) (e : W32) (s : State) : Says s (settleNotice c e s) := by
  unfold settleNotice
  dsimp only
  split
  · exact (modEpoch_says c e _ s).trans (sendPartial_says _ _ _ _ _ _ _ _)
  · exact .refl s

theorem contributeRows_says (c : Nat) (rows : List (Nat × ChainRow)) (rc : RunCmd) (b : Bool) (s : State) :
    Says s (contributeRows c rows rc b s) := by
  unfold contributeRows
  dsimp only
  split
  · exact .refl s
  · split
    · exact ((modEpoch_says c _ _ s).trans (countEvent_says _ _ _ _)).trans (failEpoch_says _ _ _ _)
    · exact ((modEpoch_says c _ _ s).trans (forwardRows_says _ _ _)).trans (settleNotice_says _ _ _)

/-! ## Memory -/

theorem writeWhole_says (v : ViId) (sp : Space) (k : Nat) (bs : List (Nat × Byte)) (p : Bool) (s : State) :
    Says s (writeWhole v sp k bs p s) := by
  unfold writeWhole
  split
  · exact .refl s
  · refine .of_out ?_
    rw [setSectorPoison_out, putSector, foldl_keeps (fun s => s.out) _ (fun s x => by simp) bs _]
    exact countEvent_out _ _ _ _

theorem mergeSector_says (v : ViId) (h : HeldSector) (s : State) : Says s (mergeSector v h s) := by
  unfold mergeSector
  dsimp only
  refine Says.trans (.of_out ?_) (writeWhole_says _ _ _ _ _ _)
  split <;> simp

theorem bufferWrites_says (rc : RunCmd) (w : VecWrites) (s : State) : Says s (bufferWrites rc w s).2 := by
  unfold bufferWrites
  dsimp only
  refine Says.trans (.foldl _ (fun s _ => mergeSector_says _ _ s) _ s)
    (.foldl_on Prod.snd _ (fun (a : List HeldSector × State) (x : SectorBytes) => ?_) _ ([], _))
  split
  · split
    · exact writeWhole_says _ _ _ _ _ _
    · exact mergeSector_says _ _ _
  · split
    · exact writeWhole_says _ _ _ _ _ _
    · exact .refl _

end Sys2Proof.Machine
end

section
/-! SUPPORT. A pass from the drain takes one beat (R31, R278 to R280). -/

namespace Sys2Proof.Machine

open Sys2Proof.Claims

/-! ## One vector of a beat -/

/-- What a command's work leaves of its place in the pass, whatever it holds back; and of the unit. -/
structure Moves (a b : RunCmd × State) : Prop where
  cmd    : b.1 = { a.1 with prog := b.1.prog, failed := b.1.failed }
  vector : b.1.prog.vector = a.1.prog.vector
  ended  : b.1.prog.ended = a.1.prog.ended
  works  : Works a.2 b.2
  said   : Says a.2 b.2

theorem Moves.trans {a b c : RunCmd × State} (h : Moves a b) (k : Moves b c) : Moves a c :=
  ⟨by rw [k.cmd, h.cmd], k.vector.trans h.vector, k.ended.trans h.ended, h.works.trans k.works, h.said.trans k.said⟩

theorem Does.moves {a b : RunCmd × State} (h : Does a b) (hsays : Says a.2 b.2) : Moves a b :=
  ⟨h.goes.cmd, h.cmd.vector, h.cmd.ended, h.works, hsays⟩

theorem countBuckets_says (old new : Progress) (v : ViId) (s : State) : Says s (countBuckets old new v s) := .of_out (by simp [countBuckets])

theorem selectWriter_says (s : State) (rc : RunCmd) (v : Nat) (es : List Elem) : Says s (selectWriter.write s rc v es).2 := by
  unfold selectWriter
  dsimp only
  refine .foldl_on Prod.snd _ (fun (a : EmitOut × State) (row : Nat) => ?_) _ (⟨rc, VecWrites.empty, []⟩, s)
  split
  · exact countEvent_says _ _ _ _
  · split
    · exact ((countEvent_says _ _ _ _).trans (countEvent_says _ _ _ _)).trans (countBuckets_says _ _ _ _)
    · exact (countEvent_says _ _ _ _).trans (countEvent_says _ _ _ _)

theorem writer_says {k : PassKind} (hwriter : k.writer = emitWriter ∨ k.writer = selectWriter) (s : State) (rc : RunCmd) (v : Nat)
    (es : List Elem) : Says s (k.writer.write s rc v es).2 := by
  rcases hwriter with hwriter | hwriter <;> rw [hwriter]
  · unfold emitWriter
    dsimp only
    split
    · exact .refl s
    · exact .of_out rfl
  · exact selectWriter_says s rc v es

theorem applyReduction_says (rc : RunCmd) (h : Nat) (r : Reduction) (s : State) : Says s (applyReduction rc h r s).2 := by
  unfold applyReduction
  split <;> exact .of_out (by simp)

theorem outWrites_moves (rc : RunCmd) (raising : Bool) (w : VecWrites) (s : State) : Moves (rc, s) (outWrites rc raising w s) := by
  unfold outWrites
  split
  · exact ⟨rfl, rfl, rfl, Works.refl s, .refl s⟩
  · exact (bufferWrites_does rc w s).moves (bufferWrites_says rc w s)

theorem forwardEarly_says (rc : RunCmd) (es : List Elem) (s : State) : Says s (forwardEarly rc es s) := by
  unfold forwardEarly
  split
  · dsimp only
    split
    · exact .refl s
    · exact contributeRows_says _ _ _ _ s
  · exact .refl s

theorem lockstepFold_says (l : List Nat) (s : State) : Says s (lockstepFold l s) := by
  unfold lockstepFold
  split
  · exact Says.trans (.of_out rfl) (emit_says _ _)
  · exact .refl s

/-- A vector that meets no trap: one more has run. -/
theorem finishVector_moves {k : PassKind} (hwriter : k.writer = emitWriter ∨ k.writer = selectWriter) (v : Nat) (raising : Bool) (n : Nat)
    (es : List Elem) {rc : RunCmd} (s : State) (htrap : rc.latched.nanTrap = false) :
    Moves (oneMore rc, s) (finishVector k.writer v SoftStep.none raising n es rc s) := by
  have hno : ∀ rs, vectorTrap rc es rs = none := fun rs => by
    unfold vectorTrap
    simp [htrap]
  unfold finishVector
  simp only [hno]
  generalize vectorReductions (applyDecision SoftStep.none rc s).2 rc es = rs
  generalize hmet : ({ rc.prog with flags := _, poisonIn := _, vector := _ } : Progress) = met
  have hstart : Moves (oneMore rc, s) ({ rc with prog := met }, s) := by
    rw [← hmet]
    exact ⟨rfl, rfl, rfl, Works.refl s, .refl s⟩
  have hwritten := tame_of_writer hwriter s { rc with prog := met } v es
  have hsaid := writer_says hwriter s { rc with prog := met } v es
  rw [show applyDecision SoftStep.none { rc with prog := met } s = ({ rc with prog := met }, s) from rfl]
  generalize k.writer.write s { rc with prog := met } v es = o at hwritten hsaid ⊢
  have hlast : ∀ (x : RunCmd × State) (l : List Nat), Moves x (x.1, forwardEarly x.1 es (lockstepFold l x.2)) := fun x l =>
    ⟨rfl, rfl, rfl, (lockstepFold_aside _ _).toNear.works.trans (forwardEarly_works _ _ _),
      (lockstepFold_says _ _).trans (forwardEarly_says _ _ _)⟩
  refine hstart.trans (Moves.trans ?_ (hlast _ _))
  refine Moves.trans ?_ (outWrites_moves _ _ _ _)
  refine Moves.trans ?_ (Does.moves (Does.foldl _ (fun a r => applyReduction_does _ _ _ _) _ _)
    (Says.foldl_on Prod.snd _ (fun (a : RunCmd × State) (r : Nat × Reduction) => applyReduction_says a.1 r.1 r.2 a.2) _ _))
  have hcmd : o.1.rc = { rc with prog := o.1.rc.prog, failed := o.1.rc.failed } := by rw [hwritten.1]
  exact ⟨by rw [hcmd], hwritten.1.vector, hwritten.1.ended, hwritten.2.trans ((countBlocks_works _ _ _ _).trans (countEvent_works _ _ _ _)),
    hsaid.trans (.of_out (by simp [countBlocks]))⟩

/-- A beat's vector runs, where no soft-maximum decision waits for a place. -/
theorem runVector_moves {k : PassKind} (hwriter : k.writer = emitWriter ∨ k.writer = selectWriter) (hsoft : k.soft = false) (v : VecIn)
    {rc : RunCmd} (s : State) (hrow : rowAtOnce rc = false) (htrap : rc.latched.nanTrap = false) :
    ∃ r, runVector k v rc s = some r ∧ Moves (oneMore rc, s) r := by
  have hformed : formVector s rc v = ⟨(takeIn s rc v).1, (takeIn s rc v).2.1, (takeIn s rc v).2.2.elems, (takeIn s rc v).2.2.fired, false⟩ := by
    unfold formVector
    rw [if_neg (by simp [hrow])]
  have htaken := takeIn_does s rc v
  have htakenSays : Says s (takeIn s rc v).2.1 := .of_out (by simp [takeIn, countReads])
  have hraising : (decide (0 < SoftStep.none.delta) && v.beat.isSome) = false := rfl
  unfold runVector
  rw [hformed]
  dsimp only
  rw [hsoft]
  simp only [Bool.false_eq_true, if_false, hraising, Bool.false_and]
  refine ⟨_, rfl, Moves.trans ?_ (finishVector_moves hwriter _ _ _ _ _ (htaken.cmd.latched ▸ htrap))⟩
  generalize (takeIn s rc v).2.1 = u at htaken htakenSays ⊢
  refine ⟨?_, congrArg (· + 1) htaken.cmd.vector, htaken.cmd.ended, htaken.works.trans ?_, htakenSays.trans (.of_out ?_)⟩
  · have hcmd := htaken.cmd
    unfold SameCmd at hcmd
    rw [hcmd]
    rfl
  · exact ((countEvent_works _ _ _ _).trans (countEvent_works _ _ _ _)).trans ((countEvent_works _ _ _ _).trans (countEvent_works _ _ _ _))
  · simp [countVector]

/-! ## The beat -/

/-- The state once the oldest beat has been taken: its credit returns. -/
def beatTaken (rc : RunCmd) (rest : List DrainEntry) (s : State) : State :=
  countEvent 0x30 1 (some rc.vi)
    (emit { s with drain := { s.drain with queue := rest, credits := s.drain.credits + 1 } } (.drnCredit 1))

theorem beatTaken_leaves (rc : RunCmd) (rest : List DrainEntry) (s : State) :
    (beatTaken rc rest s).pending = s.pending ∧ (beatTaken rc rest s).cfg = s.cfg ∧ (beatTaken rc rest s).rings = s.rings
      ∧ (beatTaken rc rest s).drain = { s.drain with queue := rest, credits := s.drain.credits + 1 }
      ∧ (beatTaken rc rest s).out = s.out ++ [.drnCredit 1] := by
  unfold beatTaken
  simp [emit]

theorem takeBeat_cons {s : State} {b : DrainEntry} {rest : List DrainEntry} (hqueue : s.drain.queue = b :: rest) (hrefuse : s.ctl.refuse = false) :
    takeBeat s = some (b, emit { s with drain := { s.drain with queue := rest, credits := s.drain.credits + 1 } } (.drnCredit 1)) := by
  unfold takeBeat
  rw [hqueue]
  dsimp only
  rw [if_neg (by simp [hrefuse])]

/-- How the command stands after it has taken a beat. -/
structure BeatRan (rc : RunCmd) (t : State) (r : RunCmd × State) (bad : Bool) : Prop where
  cmd    : r.1 = { rc with prog := r.1.prog, failed := r.1.failed }
  vector : r.1.prog.vector = rc.prog.vector + 1
  ended  : r.1.prog.ended = if bad then some .errorContained else none
  drain  : r.2.drain = t.drain
  holder : r.2.rings.holder = t.rings.holder
  said   : Says t r.2
  cfg    : r.2.pending = t.pending ∧ r.2.cfg = t.cfg

/-- The next vector of a drain pass whose beats run as they come: the oldest beat's, or none of the command's rows. -/
theorem nextBeat_takes {k : PassKind} (hwriter : k.writer = emitWriter ∨ k.writer = selectWriter) (hsoft : k.soft = false) {rc : RunCmd}
    {s : State} {b : DrainEntry} {rest : List DrainEntry} (hqueue : s.drain.queue = b :: rest) (hrefuse : s.ctl.refuse = false)
    (hended : rc.prog.ended = none) (hrow : rowAtOnce rc = false) (htrap : rc.latched.nanTrap = false) :
    (nextBeat k none rc s).1 = true
      ∧ BeatRan rc (beatTaken rc rest s) (nextBeat k none rc s).2 (decide (beatRow rc b.beat = none)) := by
  unfold nextBeat
  rw [takeBeat_cons hqueue hrefuse]
  dsimp only
  rw [if_neg (by simp [hended])]
  rw [show countEvent 0x30 1 (some rc.vi) (emit { s with drain := { s.drain with queue := rest, credits := s.drain.credits + 1 } } (.drnCredit 1))
    = beatTaken rc rest s from rfl]
  generalize beatTaken rc rest s = t
  unfold admitBeat
  cases hbeat : beatRow rc b.beat with
  | none => exact ⟨rfl, rfl, rfl, rfl, rfl, rfl, .refl t, rfl, rfl⟩
  | some row =>
    dsimp only [Option.map_some]
    have hstarted : SameCmd rc (noteBeat (if spGet 0 rc.prog.beats row = 0 then rowStarts t rc row else rc) row b.beat) := by
      refine SameCmd.trans ?_ (show SameCmd _ (noteBeat _ row b.beat) from rfl)
      split
      · exact rowStarts_same t rc row
      · exact SameCmd.refl rc
    generalize noteBeat _ row b.beat = c at hstarted
    have hrow' : rowAtOnce c = false := (congrArg rowAtOnce hstarted).trans hrow
    obtain ⟨r, hrun, hmoves⟩ := runVector_moves hwriter hsoft (beatVector c row b none) t hrow' (hstarted.latched ▸ htrap)
    rw [hrun]
    exact ⟨rfl, by rw [hmoves.cmd, hstarted]; rfl, hmoves.vector.trans (congrArg (· + 1) hstarted.vector),
      (hmoves.ended.trans hstarted.ended).trans hended, hmoves.works.drain, hmoves.works.holder, hmoves.said,
      hmoves.works.pending, hmoves.works.cfg⟩

/-! ## One step -/

/-- What goes out of the held beats changes of the command its notes of what it holds alone. -/
theorem releaseHeld_cmd (l : List HeldBeat) (rc : RunCmd) (s : State) : ∃ beats held runs,
    (releaseHeld l rc s).1 = { rc with prog := { rc.prog with heldBeats := beats, held := held, wrote := runs } } := by
  induction l generalizing rc s with
  | nil => exact ⟨_, _, _, rfl⟩
  | cons b rest ih =>
    unfold releaseHeld
    split
    · exact ⟨_, _, _, rfl⟩
    · obtain ⟨beats, held, runs, hcmd⟩ := ih (bufferWrites rc b.writes s).1 (bufferWrites rc b.writes s).2
      exact ⟨beats, held, runs, hcmd⟩

/-- One vector may run where no boundary waits for arbitration. -/
theorem stepLimit_one {rc : RunCmd} {s : State} {left : Nat} (hat : atSegment s rc = false) (hleft : 1 < left) :
    stepLimit s rc left (some 1) = 1 := by
  have hlength := segmentLength_pos rc
  have hmod := Nat.mod_lt rc.prog.vector hlength
  unfold stepLimit
  dsimp only [Option.getD_some]
  rw [if_neg (by simp [hat]), Nat.min_eq_right (by omega)]
  split
  · unfold toBoundary
    dsimp only
    rw [Nat.min_eq_left (by omega)]
    split
    · rw [List.range_one, List.find?_cons, List.find?_nil]
      split <;> rfl
    · rfl
  · rfl

end Sys2Proof.Machine

open Sys2Proof Sys2Proof.Machine Sys2Proof.Claims

/-- Settles O19: the first boundary from the lengths of segments, a pass that may take no vector as it stands, and one vector's step
of a pass from the drain. -/
theorem passesStopAtBoundariesAndTakeBeats : Obligations.PassesStopAtBoundariesAndTakeBeats := by
  unfold Obligations.PassesStopAtBoundariesAndTakeBeats
  intro c op k s rc hpass hissues
  obtain ⟨hop, hwriter, finish, hexec⟩ := passOf_exec hpass
  rw [hexec]
  refine ⟨fun n hpasses hfresh hunbarred hdrains htrap hrun hregs htaddr hbound hfirst hn => ⟨fun hplaces => ?_, ?_⟩,
    fun hchecked herror hleft hended hbeats hwaits => ?_,
    fun b rest hsoft hrun hchecked hdrains hwait hat hleft hended htrap hqueue hrefuse => ?_⟩
  · rw [firstBoundary_eq hbound hfirst hplaces, segmentLength, if_neg (by rw [hissues.opcode]; exact hop), segmentVectors]
    simp
  · rw [hrun]
    obtain ⟨r, hstep, hgoes, hvector, hchecked, hdecided⟩ := firstSegment_runs hwriter finish hissues hpasses hfresh hunbarred hdrains htrap
      hregs hbound hfirst hn
    have hframe : Frame s (setCmd r.2 r.1) := (hgoes.works.trans (setCmd_works r.2 r.1)).toFrame
    have hring : r.1.ring = rc.ring := hgoes.ring
    have hheld : r.2.rings.holder = some r.1.ring := by
      rw [hgoes.works.holder, hring]
      exact (holderCmd_ring hissues.held).1
    have hctx : ctxOfRing (setCmd r.2 r.1) r.1.ring = ctxOfRing s rc.ring := by
      rw [hring]
      exact ctxOfRing_eq hgoes.works.cache hissues.cached
    have hphase : r.1.phase = .running := by
      rw [hgoes.cmd]
      exact hissues.running
    refine ⟨setCmd r.2 r.1, r.1, ?_, ?_, hphase, hgoes.packet, hvector, ?_, hframe⟩
    · exact (command_next (hstep ▸ hframe)).trans (congrArg _ hstep)
    · unfold holderCmd
      rw [show (setCmd r.2 r.1).rings.holder = some r.1.ring from hheld]
      exact cmdOf_setCmd_same _ _
    · have hhere : isBoundary r.1 n = true := by
        rw [isBoundary_congr hgoes.packet hgoes.tumbler hgoes.latched]
        exact hbound
      have hne := (firstBoundary_le hbound hfirst).1
      have hpacket : r.1.packet = rc.packet := hgoes.packet
      unfold atSegment
      rw [hctx, hregs, hchecked, hvector, hhere, hdecided, hpacket]
      simp [htaddr, Ne.symm hne]
  · have hreleased := releaseHeld_waits s hbeats
    have hstep : issue op (passCommand k (runOf c) finish) s = setCmd s rc := by
      rw [issue_issued hissues, passCommand, checkedThen_checked hchecked]
      exact continuePass_stops finish herror hreleased (runVectors_waits k hended hleft hwaits) (passOver_of_open hleft hended)
    have hframe := (setCmd_works s rc).toFrame
    exact ⟨setCmd s rc, (command_next (hstep ▸ hframe)).trans (congrArg _ hstep), holderCmd_setCmd hissues.held rfl, hframe, rfl,
      fun sp a => readByte_mem rfl rfl rfl sp a⟩
  · obtain ⟨beats, held, runs, hcmd⟩ := releaseHeld_cmd rc.prog.heldBeats rc s
    obtain ⟨-, -, -, hworks, -⟩ := releaseHeld_releases rc.prog.heldBeats rc s
    obtain ⟨h, hh⟩ : ∃ h, releaseHeld rc.prog.heldBeats rc s = h := ⟨_, rfl⟩
    rw [hh] at hcmd hworks
    have hvectors : psVectors h.1 = psVectors rc := by rw [hcmd]; rfl
    have hvector : h.1.prog.vector = rc.prog.vector := by rw [hcmd]
    have hat' : atSegment h.2 h.1 = false := by
      rw [← hat]
      unfold atSegment
      rw [hcmd, show ctxOfRing h.2 rc.ring = ctxOfRing s rc.ring from ctxOfRing_eq hworks.cache hissues.cached]
      rfl
    have hdrains' : psDrains h.1 = true := by rw [hcmd]; exact hdrains
    have hwait' : beatsWait h.1 = false := by rw [hcmd]; exact hwait
    have hrow : rowAtOnce h.1 = false := by
      unfold beatsWait at hwait'
      rw [hdrains'] at hwait'
      simp only [Bool.true_and, Bool.or_eq_false_iff] at hwait'
      exact hwait'.1
    obtain ⟨htrue, hran⟩ := nextBeat_takes hwriter hsoft (rc := h.1) (s := h.2) (b := b) (rest := rest) (by rw [hworks.drain]; exact hqueue)
      (by rw [hworks.ctl]; exact hrefuse) (by rw [hcmd]; exact hended) hrow (by rw [hcmd]; exact htrap)
    have hruns : runVectors k 1 h.1 h.2 = (nextBeat k none h.1 h.2).2 := by
      have hnext : nextVector k none h.1 h.2 = nextBeat k none h.1 h.2 := by
        unfold nextVector
        rw [if_neg (by simp [hwait']), if_pos hdrains']
      unfold runVectors runVectors
      rw [if_neg (by rw [passOver_of_open (by omega) (by rw [hcmd]; exact hended)]; decide), hnext, if_pos htrue]
    generalize nextBeat k none h.1 h.2 = r at hran hruns
    have hcmd' : r.2.1 = { rc with prog := r.2.1.prog, failed := r.2.1.failed } := by
      rw [hran.cmd, hcmd]
    have hvector' : r.2.1.prog.vector = rc.prog.vector + 1 := by rw [hran.vector, hvector]
    have hopen : passOver r.2.1 = false := by
      unfold passOver
      rw [show psVectors r.2.1 = psVectors rc by rw [hcmd']; rfl, show psDrains r.2.1 = true by rw [hcmd']; exact hdrains, hvector']
      simp only [Bool.not_true, Bool.false_and, Bool.or_false, decide_eq_false_iff_not]
      omega
    have hstep : issue op (passCommand k (runOf c) finish) s = setCmd r.2.2 r.2.1 := by
      rw [issue_issued hissues, passCommand, checkedThen_checked hchecked, hrun]
      refine continuePass_stops finish rfl hh ?_ hopen
      rw [stepLimit_one hat' (by omega)]
      exact hruns
    have hring : r.2.1.ring = rc.ring := by rw [hcmd']
    obtain ⟨hpending, hcfg, hrings, hdrain, hout⟩ := beatTaken_leaves h.1 rest h.2
    refine ⟨setCmd r.2.2 r.2.1, r.2.1, command_eq hstep ?_ ?_, ?_, hvector', ?_, ?_, ?_, ?_⟩
    · exact hran.cfg.1.trans (hpending.trans hworks.pending)
    · exact hran.cfg.2.trans (hcfg.trans hworks.cfg)
    · have hheld : (setCmd r.2.2 r.2.1).rings.holder = some r.2.1.ring := by
        rw [hring, ← (holderCmd_ring hissues.held).1, ← hworks.holder, ← hrings]
        exact hran.holder
      unfold holderCmd
      rw [hheld]
      exact cmdOf_setCmd_same _ _
    · exact (congrArg (fun d => d.queue) (hran.drain.trans hdrain))
    · refine (congrArg (fun d => d.credits) (hran.drain.trans hdrain)).trans ?_
      rw [hworks.drain]
    · refine hran.said _ ?_
      rw [hout]
      exact List.mem_append_right _ (List.mem_singleton.mpr rfl)
    · rw [hran.ended, show beatRow h.1 b.beat = beatRow rc b.beat by rw [hcmd]; rfl]
      simp

end

section
/-! SUPPORT. Rows finalised by their command itself: NORM and SOFTMAX_FINAL without a chain (R260, R303, R312 to R315). -/

namespace Sys2Proof.Machine

open Sys2Proof.Claims

/-! ## Finalising a range -/

/-- From `a` to `b` a command has finalised the slots of `n` handles from `base` on as `f` says, and has met flags, and poison if `bad`;
of the unit it has changed no other slot and no byte, of itself it has noted nothing else. -/
structure Finalises (base n : Nat) (f : Nat → Slot) (flags : Byte) (bad : Bool) (a b : RunCmd × State) : Prop where
  rows    : ∀ r < n, slotAt b.2 (base + r) = f r
  others  : ∀ h, ¬ (base ≤ h ∧ h < base + n) → slotAt b.2 h = slotAt a.2 h
  works   : Works a.2 b.2
  bytes   : Outside [] a.2 b.2
  changed : ∀ h ∈ b.1.prog.changed, h ∈ a.1.prog.changed ∨ base ≤ h ∧ h < base + n
  flags   : b.1.prog.flags = a.1.prog.flags ||| flags
  poison  : b.1.prog.poisonIn = (a.1.prog.poisonIn || bad)
  cmd     : b.1 = { a.1 with prog := { a.1.prog with
    flags := b.1.prog.flags, poisonIn := b.1.prog.poisonIn, changed := b.1.prog.changed } }

theorem Finalises.refl (base : Nat) (f : Nat → Slot) (a : RunCmd × State) : Finalises base 0 f 0 false a a where
  rows r hr := absurd hr (Nat.not_lt_zero r)
  others _ _ := rfl
  works := Works.refl _
  bytes := Outside.refl _ _
  changed _ hh := .inl hh
  flags := BitVec.or_zero.symm
  poison := (Bool.or_false _).symm
  cmd := rfl

/-- One more slot. -/
theorem Finalises.snoc {base n : Nat} {f : Nat → Slot} {flags : Byte} {bad : Bool} {a b : RunCmd × State} (h : Finalises base n f flags bad a b)
    {u : State} (hslots : u.slots = b.2.slots) (hworks : Works b.2 u) (hbytes : Outside [] b.2 u) (fl : Byte) (p : Bool) :
    Finalises base (n + 1) f (flags ||| fl) (bad || p) a (noteFinal b.1 (base + n) fl p, putSlot u (base + n) (f n)) where
  rows r hr := by
    by_cases hlast : r = n
    · rw [hlast, slotAt_putSlot_same]
    · rw [slotAt_putSlot_other _ _ (by omega), slotAt_slots hslots]
      exact h.rows r (by omega)
  others i hi := by
    rw [slotAt_putSlot_other _ _ (by omega), slotAt_slots hslots]
    exact h.others i (by omega)
  works := (h.works.trans hworks).trans (putSlot_works _ _ _)
  bytes := (h.bytes.trans hbytes).trans (Outside.of_mem (by simp) (by simp) (by simp))
  changed i hi := by
    rcases (mem_setInsert _ _ _).mp hi with rfl | hi
    · exact .inr ⟨Nat.le_add_right _ _, by omega⟩
    · exact (h.changed i hi).imp id fun hin => ⟨hin.1, by omega⟩
  flags := by
    dsimp only [noteFinal]
    rw [h.flags, BitVec.or_assoc]
  poison := by
    dsimp only [noteFinal]
    rw [h.poison, Bool.or_assoc]
  cmd := by
    rw [h.cmd]
    rfl

/-- A command that finalises one slot after another, each as its own state says, and counts events as it goes. -/
theorem finalises_range (g : Slot → Slot) (fl : Slot → Byte) (p : Slot → Bool) (step : RunCmd × State → Nat → RunCmd × State)
    (hstep : ∀ a h, ∃ u, u.slots = a.2.slots ∧ Works a.2 u ∧ Outside [] a.2 u
      ∧ step a h = (noteFinal a.1 h (fl (slotAt a.2 h)) (p (slotAt a.2 h)), putSlot u h (g (slotAt a.2 h))))
    (base n : Nat) (a : RunCmd × State) :
    Finalises base n (fun r => g (slotAt a.2 (base + r))) (flagsOf n (fun r => fl (slotAt a.2 (base + r))))
      ((List.range n).any (fun r => p (slotAt a.2 (base + r)))) a ((span base n).foldl step a) := by
  unfold span flagsOf
  rw [List.foldl_map]
  induction n with
  | zero => exact Finalises.refl base _ a
  | succ n ih =>
    rw [List.range_succ, List.foldl_append, List.foldl_append, List.any_append]
    generalize (List.range n).foldl (fun x y => step x (base + y)) a = b at ih
    obtain ⟨u, hslots, hworks, hbytes, heq⟩ := hstep b (base + n)
    have hsame : slotAt b.2 (base + n) = slotAt a.2 (base + n) := ih.others _ (by omega)
    rw [hsame] at heq
    simp only [List.foldl_cons, List.foldl_nil, List.any_cons, List.any_nil, Bool.or_false, heq]
    exact ih.snoc hslots hworks hbytes _ _

/-- An event counted. -/
theorem countEvent_apartFrom (c n : Nat) (v : Option ViId) (s : State) :
    (countEvent c n v s).slots = s.slots ∧ Works s (countEvent c n v s) ∧ Outside [] s (countEvent c n v s) :=
  ⟨(countEvent_aside s c n v).slots, countEvent_works s c n v, Outside.of_mem (by simp) (by simp) (by simp)⟩

/-- What NORM makes of a slot. -/
def normOf (p : BitVec 512) (x : Slot) : NormResult := normFinal x.exact (pkF0 p) (normEps p) (statOfSlot x)

theorem normLocal_finalises (rc : RunCmd) (s : State) :
    Finalises (pkRow0 rc.packet) (pkRows rc.packet)
      (fun r => slotFinal 1 (normOf rc.packet (slotAt s (pkRow0 rc.packet + r))).fin0 (normOf rc.packet (slotAt s (pkRow0 rc.packet + r))).fin1
        (slotAt s (pkRow0 rc.packet + r)))
      (flagsOf (pkRows rc.packet) (fun r => (normOf rc.packet (slotAt s (pkRow0 rc.packet + r))).flags))
      ((List.range (pkRows rc.packet)).any (fun r => (normOf rc.packet (slotAt s (pkRow0 rc.packet + r))).poison))
      (rc, s) (normLocal rc s) := by
  refine finalises_range (fun x => slotFinal 1 (normOf rc.packet x).fin0 (normOf rc.packet x).fin1 x) (fun x => (normOf rc.packet x).flags)
    (fun x => (normOf rc.packet x).poison) _ (fun a h => ⟨countNorm (normOf rc.packet (slotAt a.2 h)) rc.vi a.2, ?_, ?_, ?_, rfl⟩) _ _ (rc, s)
  · exact (countEvent_apartFrom _ _ _ _).1.trans (countEvent_apartFrom _ _ _ _).1
  · exact (countEvent_works _ _ _ _).trans (countEvent_works _ _ _ _)
  · exact (countEvent_apartFrom _ _ _ a.2).2.2.trans (countEvent_apartFrom _ _ _ _).2.2

/-- What SOFTMAX_FINAL makes of a slot. -/
def softOf (x : Slot) : SoftResult := softRow x.exact (statOfSlot x) x.ref

theorem statOfSlot_poison (x : Slot) : bit (statOfSlot x).flags 4 = x.poison := by
  have hbit : ∀ a b c d p : Bool, bit (BitVec.ofNat 8 (boolNat a + 2 * boolNat b + 4 * boolNat c + 8 * boolNat d + 16 * boolNat p)) 4 = p := by
    decide
  exact hbit _ _ _ _ _

theorem softLocal_finalises (rc : RunCmd) (s : State) :
    Finalises (pkRow0 rc.packet) (pkRows rc.packet)
      (fun r => slotFinal 2 (softOf (slotAt s (pkRow0 rc.packet + r))).fin0 (softOf (slotAt s (pkRow0 rc.packet + r))).fin1
        (slotAt s (pkRow0 rc.packet + r)))
      (flagsOf (pkRows rc.packet) (fun r => (softOf (slotAt s (pkRow0 rc.packet + r))).flags))
      ((List.range (pkRows rc.packet)).any (fun r => (slotAt s (pkRow0 rc.packet + r)).poison))
      (rc, s) (softLocal rc s) := by
  refine finalises_range (fun x => slotFinal 2 (softOf x).fin0 (softOf x).fin1 x) (fun x => (softOf x).flags) (fun x => x.poison) _
    (fun a h => ⟨countEvent 0x34 (boolNat (softOf (slotAt a.2 h)).empty) (some a.1.vi) a.2, ?_, ?_, ?_, ?_⟩) _ _ (rc, s)
  · exact (countEvent_apartFrom _ _ _ _).1
  · exact countEvent_works _ _ _ _
  · exact (countEvent_apartFrom _ _ _ a.2).2.2
  · rw [← statOfSlot_poison]
    rfl

/-! ## A command that has met flags and poison alone -/

/-- How a command that was fresh stands: it has met flags, and poison if `bad`, has reduced nothing, and changed slots of its range alone. -/
structure MetAlone (rc c : RunCmd) (flags : Byte) (bad : Bool) : Prop where
  ring    : c.ring = rc.ring
  packet  : c.packet = rc.packet
  seq     : c.seq = rc.seq
  failed  : c.failed = none
  tainted : c.tainted = false
  flags   : c.prog.flags = flags
  poison  : c.prog.poisonIn = bad
  reduced : c.prog.reduced = []
  changed : ∀ h ∈ c.prog.changed, inRange rc.packet h

theorem metStatus_plain (flags : Byte) (bad : Bool) : metStatus flags bad ≠ .errorContained ∧ metStatus flags bad ≠ .retracted := by
  unfold metStatus
  split
  · exact ⟨by decide, by decide⟩
  · split <;> exact ⟨by decide, by decide⟩

section

variable {rc c : RunCmd} {flags : Byte} {bad : Bool} (hmet : MetAlone rc c flags bad)
include hmet

theorem MetAlone.status : finalStatus c .ok = metStatus flags bad := by
  rw [finalStatus_ok hmet.failed hmet.tainted, hmet.flags, hmet.poison]

theorem MetAlone.plain : finalStatus c .ok ≠ .errorContained ∧ finalStatus c .ok ≠ .retracted := hmet.status ▸ metStatus_plain flags bad

variable {s u : State} (hcached : (cacheEntry s rc.ring).isSome) (hworks : Works s u)
include hworks

theorem MetAlone.ends (hcached : (cacheEntry s rc.ring).isSome) {i : Instr} {f : State → State} {r n : Nat} (hexec : exec i s = command f s)
    (hrun : f s = completeCmd c .ok 0 r n u) : Ends i s (completeCmd c .ok 0 r n u) rc ⟨rc.seq.toNat, metStatus flags bad, flags, 0, r, n⟩ := by
  have hcpl : cplOf c .ok 0 r n = ⟨rc.seq.toNat, metStatus flags bad, flags, 0, r, n⟩ := by
    unfold cplOf
    rw [hmet.status, hmet.seq, hmet.flags]
    split <;> rfl
  have hends := command_completes rc c .ok 0 r n hrun hcached hworks hmet.ring hmet.packet hmet.seq
  rw [hcpl] at hends
  unfold Ends
  rw [hexec]
  exact hends

omit hworks in
theorem MetAlone.rowsHold {g : Nat → Slot} (hrows : ∀ r < pkRows rc.packet, slotAt u (pkRow0 rc.packet + r) = g r)
    (hothers : ∀ h, ¬ inRange rc.packet h → slotAt u h = slotAt s h) (r n : Nat) : RowsHold s (completeCmd c .ok 0 r n u) rc g := by
  have hcontained := hmet.plain.1
  refine ⟨fun row hrow => ?_, fun h hout => ?_⟩
  · have hholds := completeCmd_holds c .ok 0 r n u (pkRow0 rc.packet + row) hcontained (by simp [hmet.reduced])
    rw [hrows row hrow] at hholds
    unfold Holds at hholds ⊢
    rwa [hmet.packet] at hholds
  · rw [completeCmd_slot _ _ _ _ _ _ _ hcontained (by simp [hmet.reduced]) (.inr fun hh => hout (hmet.changed h hh))]
    exact hothers h hout

include hcached

theorem MetAlone.onlyCompletion (hbytes : Outside [] s u) (r n : Nat) :
    OnlyCompletion s (completeCmd c .ok 0 r n u) rc (metStatus flags bad) := by
  rw [← hmet.status]
  exact completeCmd_onlyCompletion 0 r n hcached hworks hbytes hmet.ring hmet.packet hmet.plain.1 hmet.plain.2

theorem MetAlone.stands {k : Nat} {bs : List Byte} (r n : Nat)
    (hbytes : isSecondary s = false → ∀ i < bs.length, readByte u (descAt rc k).1 ((descAt rc k).2 + i) = bs.getD i 0) :
    Stands s (completeCmd c .ok 0 r n u) rc (metStatus flags bad) k bs := by
  rw [← hmet.status]
  exact completeCmd_stands 0 r n hcached hworks hmet.ring hmet.packet hmet.plain.1 hmet.plain.2 hbytes

end

/-- A command that has finalised its range from its links on. -/
theorem Finalises.metAlone {rc : RunCmd} {s : State} {f : Nat → Slot} {flags : Byte} {bad : Bool} {e : RunCmd × State} (hfresh : Fresh rc)
    (hdone : Finalises (pkRow0 rc.packet) (pkRows rc.packet) f flags bad (addLinks s (passed rc), s) e) : MetAlone rc e.1 flags bad := by
  obtain ⟨hnoted, htainted⟩ := addLinks_noted hfresh s
  constructor
  · rw [hdone.cmd]; exact hnoted.ring
  · rw [hdone.cmd]; exact hnoted.packet
  · rw [hdone.cmd]; exact hnoted.seq
  · rw [hdone.cmd]; exact hnoted.failed
  · rw [hdone.cmd]; exact htainted
  · rw [hdone.flags, hnoted.flags0]
    simp
  · rw [hdone.poison, hnoted.poison, Bool.false_or]
  · rw [hdone.cmd]; exact hnoted.reduced
  · intro h hh
    refine (hdone.changed h hh).resolve_left fun hold => ?_
    rw [hnoted.changed] at hold
    cases hold

/-! ## After the rows are finalised -/

/-- The command once its rows are finalised, and what it has written of them (R306). -/
def rowsFinal (f : RunCmd × State) : RunCmd :=
  { f.1 with prog := { f.1.prog with finalised := true, count := pkRows f.1.packet } }

/-- The same, waiting for nothing. -/
def rowsDone (f : RunCmd × State) : RunCmd := { rowsFinal f with wait := .nothing }

def lseWritten (f : RunCmd × State) : RunCmd × State := writeLse (rowsDone f) (setCmd f.2 (rowsFinal f))

theorem applyEnd_eq (f : RunCmd × State) : applyEnd f = passEnd plainPass (lseWritten f).1 (lseWritten f).2 := rfl

/-- The row of NORM or SOFTMAX_FINAL without a chain, of a command that has just started. -/
theorem finalRow_runs {finalise : RunCmd → State → RunCmd × State} {run : Run} {s : State} {rc : RunCmd} {op : Nat} (hissues : Issues s rc op)
    (hpasses : Passes s rc) (hunbarred : barred s (passed rc) = false) (hchv : pkChv rc.packet = false) {f : RunCmd × State}
    (hf : finalise (addLinks s (passed rc)) s = f) (hpacket : f.1.packet = rc.packet) :
    issue op (finalCommand finalise run) s
      = if hasPass rc.packet then continuePass plainPass run finishRows (beginPass plainPass (lseWritten f).1 (lseWritten f).2).1
            (beginPass plainPass (lseWritten f).1 (lseWritten f).2).2
        else finishRows (lseWritten f).1 (lseWritten f).2 := by
  have hlinks : (addLinks s (passed rc)).packet = rc.packet := (addLinks_same s (passed rc)).packet
  rw [issue_issued hissues, finalCommand, checkedThen_good _ _ hpasses.unchecked hpasses.good]
  dsimp only
  rw [if_neg (by simp [hunbarred]), if_neg (by simp [hlinks, hchv]), hf, hlinks, ← hpacket]
  rfl

theorem barred_noPass {rc : RunCmd} (h : hasPass rc.packet = false) (s : State) : barred s (passed rc) = false := by
  unfold barred
  rw [show (passed rc).packet = rc.packet from rfl, h]
  rfl

end Sys2Proof.Machine
end

section
/-! SUPPORT. What NORM and SOFTMAX_FINAL do once their rows are finalised: the second destination (R306) and the apply pass (R316). -/

namespace Sys2Proof.Machine

open Sys2Proof.Claims

/-! ## Writes at a descriptor -/

/-- Bytes written one after another from an address on stand there. -/
theorem readByte_flushed_at {rc : RunCmd} {w : VecWrites} {s : State} {sp : Space} {a : Nat} {bs : List Byte} (hheld : rc.prog.held = [])
    (hfirst : isSecondary s = false) (hbytes : w.bytes = bs.zipIdx.map (fun y => (sp, a + y.2, y.1))) (hlength : bs.length ≤ 2 ^ 64)
    {i : Nat} (hi : i < bs.length) :
    readByte (flushSectors (bufferWrites rc w s).1 (bufferWrites rc w s).2).2 sp (a + i) = bs.getD i 0 := by
  rw [readByte_flushed rc w s sp (a + i) hheld hfirst, hbytes, lastWrite_place sp a bs hlength i hi, List.getD_eq_getElem _ _ hi]
  rfl

/-! ## The second destination -/

theorem writeLse_of_none {rc : RunCmd} (h : pkOpcode rc.packet ≠ 0x05 ∨ pkF0 rc.packet = false) (s : State) : writeLse rc s = (rc, s) := by
  unfold writeLse
  rw [if_neg]
  rcases h with h | h <;> simp [h]

/-- FIN1 of each row as it is written, NaN for a poisoned slot. -/
def lseBytes (rc : RunCmd) (s : State) (r : Nat) : List Byte :=
  natBytes 8 (if (slotAt s (pkRow0 rc.packet + r)).poison then canonicalF64 else (slotAt s (pkRow0 rc.packet + r)).fsumsq).toNat

def lseWrites (rc : RunCmd) (s : State) : VecWrites :=
  (List.range (pkRows rc.packet)).foldl (fun (w : VecWrites) r => w.append
    (VecWrites.place 5 (descAt rc 5).1 ((descAt rc 5).2 + 8 * r) (lseBytes rc s r) (slotAt s (pkRow0 rc.packet + r)).poison)) VecWrites.empty

theorem writeLse_eq {rc : RunCmd} (hop : pkOpcode rc.packet = 0x05) (hf0 : pkF0 rc.packet = true) (s : State) :
    ∃ c, writeLse rc s = (c, (flushSectors (bufferWrites rc (lseWrites rc s) s).1 (bufferWrites rc (lseWrites rc s) s).2).2)
      ∧ c = { rc with prog := { rc.prog with
          held := [], wrote := rc.prog.wrote ++ (lseWrites rc s).runs,
          poisonIn := rc.prog.poisonIn || (List.range (pkRows rc.packet)).any (fun r => (slotAt s (pkRow0 rc.packet + r)).poison) } } := by
  refine ⟨_, ?_, rfl⟩
  have hany : (span (pkRow0 rc.packet) (pkRows rc.packet)).any (fun h => (slotAt s h).poison)
      = (List.range (pkRows rc.packet)).any (fun r => (slotAt s (pkRow0 rc.packet + r)).poison) := by
    rw [span, List.any_map]
    rfl
  unfold writeLse
  rw [if_pos (by simp [hop, hf0]), ← hany]
  rfl

theorem writeLse_does (rc : RunCmd) (s : State) : Does (rc, s) (writeLse rc s) ∧ (writeLse rc s).2.slots = s.slots := by
  by_cases h : pkOpcode rc.packet = 0x05 ∧ pkF0 rc.packet = true
  · obtain ⟨c, heq, hc⟩ := writeLse_eq h.1 h.2 s
    rw [heq]
    refine ⟨⟨by rw [hc]; rfl, ?_⟩, ?_⟩
    · exact (bufferWrites_does rc _ s).works.trans (flushSectors_does _ _).works
    · exact (flushSectors_noSlot _ _).slots.trans (bufferWrites_noSlot rc _ s).slots
  · rw [writeLse_of_none]
    · exact ⟨Does.refl _, rfl⟩
    · by_cases hop : pkOpcode rc.packet = 0x05
      · exact .inr (by simpa using fun hf0 => h ⟨hop, hf0⟩)
      · exact .inl hop

/-! ## The command after its rows -/

theorem Finalises.same {base n : Nat} {g : Nat → Slot} {flags : Byte} {bad : Bool} {a b : RunCmd × State} (h : Finalises base n g flags bad a b) :
    SameCmd a.1 b.1 := by
  unfold SameCmd
  rw [h.cmd]

theorem lseWritten_slot (f : RunCmd × State) (h : Nat) : slotAt (lseWritten f).2 h = slotAt f.2 h := slotAt_slots (writeLse_does _ _).2 h

section

variable {rc : RunCmd} {s : State} {g : Nat → Slot} {flags : Byte} {bad : Bool} {f : RunCmd × State}
  (hdone : Finalises (pkRow0 rc.packet) (pkRows rc.packet) g flags bad (addLinks s (passed rc), s) f)
include hdone

/-- The finalised command stands as it did but for its note of it. -/
theorem rowsDone_met (hfresh : Fresh rc) : MetAlone rc (rowsDone f) flags bad := by
  obtain ⟨hring, hpacket, hseq, hfailed, htainted, hflags, hpoison, hreduced, hchanged⟩ := hdone.metAlone hfresh
  exact ⟨hring, hpacket, hseq, hfailed, htainted, hflags, hpoison, hreduced, hchanged⟩

theorem lseWritten_works : Works s (lseWritten f).2 :=
  (hdone.works.trans (setCmd_works f.2 _)).trans (writeLse_does _ _).1.works

theorem lseWritten_same : SameCmd { passed rc with wait := .nothing } (lseWritten f).1 := by
  have hsame : SameCmd (passed rc) f.1 := (addLinks_same s (passed rc)).trans hdone.same
  have hwaits : SameCmd { passed rc with wait := .nothing } (rowsDone f) := by
    unfold SameCmd at hsame ⊢
    unfold rowsDone rowsFinal
    rw [hsame]
  exact hwaits.trans (writeLse_does _ _).1.cmd

/-- The apply pass: it begins where the command stands, and runs to its end in one step. -/
theorem applyPass_ends (hfresh : Fresh rc) {op : Nat} {c : Instr} {finalise : RunCmd → State → RunCmd × State} (hissues : Issues s rc op)
    (hpasses : Passes s rc) (hexec : exec c s = command (issue op (finalCommand finalise wholeRun)) s)
    (hf : finalise (addLinks s (passed rc)) s = f) (hchv : pkChv rc.packet = false) (hpass : hasPass rc.packet = true)
    (hunbarred : barred s (passed rc) = false) (hdrains : psDrains rc = false) (hwhole : oneSegment s rc)
    (htrap : rc.latched.nanTrap = false) : ∃ t, Ends c s t rc (okCpl (applyEnd f).1 0 (applyEnd f).1.prog.count) := by
  have hrow := finalRow_runs (run := wholeRun) hissues hpasses hunbarred hchv hf (rowsDone_met hdone hfresh).packet
  have hsame := lseWritten_same hdone
  have hworks := lseWritten_works hdone
  rw [if_pos hpass] at hrow
  rw [applyEnd_eq]
  generalize lseWritten f = l at hsame hworks hrow ⊢
  have hring : l.1.ring = rc.ring := hsame.ring
  have hwhole' : oneSegment l.2 l.1 := by
    have hl : oneSegment s l.1 := hsame.oneSegment hwhole
    unfold oneSegment at hl ⊢
    rwa [hring, ctxOfRing_eq hworks.cache hissues.cached, ← hring]
  have hheld : l.1.prog.heldBeats = [] := hsame.heldBeats.trans (passed_heldBeats hfresh)
  have hended : l.1.prog.ended = none := hsame.ended.trans (passed_ended hfresh)
  have hstart : l.1.prog.vector = 0 := hsame.vector.trans (passed_vector hfresh)
  have hdrains' : psDrains l.1 = false := hsame.drains.trans hdrains
  rw [continuePass_whole emitWriter_tame finishRows hdrains' hheld hended hstart (by rw [hring, cacheEntry_eq hworks.cache]; exact hissues.cached)
    hwhole'] at hrow
  obtain ⟨hgoes, hend⟩ := passEnd_goes emitWriter_tame (k := plainPass) (s := l.2) hdrains' hheld hended hstart
  generalize passEnd plainPass l.1 l.2 = e at hgoes hend hrow ⊢
  have hnone : e.1.prog.ended = none := hend.resolve_right fun ⟨_, hlatched⟩ => by
    rw [hsame.latched, show ({ passed rc with wait := .nothing } : RunCmd).latched = rc.latched from rfl, htrap] at hlatched
    cases hlatched
  have hrun : issue op (finalCommand finalise wholeRun) s = completeCmd e.1 .ok 0 0 e.1.prog.count (setCmd e.2 e.1) := by
    rw [hrow, afterPass, hnone]
    rfl
  have hends := command_completes rc e.1 .ok 0 0 e.1.prog.count hrun hissues.cached ((hworks.trans hgoes.works).trans (setCmd_works _ _))
    (hgoes.ring.trans hsame.ring) (hgoes.packet.trans hsame.packet) (hgoes.seq.trans hsame.seq)
  rw [cplOf_okCpl] at hends
  exact ⟨_, hexec.trans hends.1, hends.2⟩

end

end Sys2Proof.Machine

open Sys2Proof Sys2Proof.Machine Sys2Proof.Claims

/-- Settles O21: the rows one after another, then the completion or the apply pass. -/
theorem normFinalisesItsRows : Obligations.NormFinalisesItsRows := by
  unfold Obligations.NormFinalisesItsRows
  intro s rc run n st hissues hpasses hfresh hchv hn hst
  obtain rfl : n = fun r => normOf rc.packet (slotAt s (pkRow0 rc.packet + r)) := funext hn
  have hpacket : (addLinks s (passed rc)).packet = rc.packet := (addLinks_same s (passed rc)).packet
  have hdone := normLocal_finalises (addLinks s (passed rc)) s
  rw [hpacket] at hdone
  refine ⟨fun hnopass => ?_, fun hpass hunbarred hdrains hwhole htrap => ?_⟩
  · have hrow := finalRow_runs (run := run) hissues hpasses (barred_noPass hnopass s) hchv (f := normLocal (addLinks s (passed rc)) s) rfl
      (hdone.metAlone hfresh).packet
    have hmet := rowsDone_met hdone hfresh
    have hcount : (rowsFinal (normLocal (addLinks s (passed rc)) s)).prog.count = pkRows rc.packet :=
      congrArg pkRows (hdone.metAlone hfresh).packet
    rw [if_neg (by simp [hnopass]), lseWritten, writeLse_of_none (.inl (by rw [hmet.packet, hissues.opcode]; decide))] at hrow
    generalize normLocal (addLinks s (passed rc)) s = f at hdone hrow hmet hcount
    have hworks : Works s (setCmd f.2 (rowsFinal f)) := hdone.works.trans (setCmd_works _ _)
    have hbytes : Outside [] s (setCmd f.2 (rowsFinal f)) := hdone.bytes.trans (Outside.of_mem rfl rfl rfl)
    have hrun : normRow run s = completeCmd (rowsDone f) .ok 0 0 (pkRows rc.packet) (setCmd f.2 (rowsFinal f)) := by
      rw [← hcount]
      exact hrow
    have hends := hmet.ends hworks hissues.cached (i := .norm run) rfl hrun
    have hrows := hmet.rowsHold (s := s) (u := setCmd f.2 (rowsFinal f)) hdone.rows hdone.others 0 (pkRows rc.packet)
    have honly := hmet.onlyCompletion hissues.cached hworks hbytes 0 (pkRows rc.packet)
    rw [← hst] at hends honly
    exact ⟨_, hends, hrows, honly⟩
  · obtain ⟨t, hends⟩ := applyPass_ends hdone hfresh (c := .norm wholeRun) hissues hpasses rfl rfl hchv hpass hunbarred hdrains hwhole htrap
    exact ⟨t, _, rfl, hends⟩

end

section
/-! SUPPORT. SOFTMAX_FINAL without a chain (R303, R306). -/

namespace Sys2Proof.Machine

open Sys2Proof.Claims

section

variable {rc : RunCmd} {s : State} {flags : Byte} {f : RunCmd × State} {n : Nat → SoftResult} {x : Nat → Slot}
  (hfresh : Fresh rc)
  (hdone : Finalises (pkRow0 rc.packet) (pkRows rc.packet) (fun r => slotFinal 2 (n r).fin0 (n r).fin1 (x r)) flags
    ((List.range (pkRows rc.packet)).any (fun r => (x r).poison)) (addLinks s (passed rc), s) f)
include hfresh hdone

/-- The command once it has written FIN1 of each row: it has met what it had met before. -/
theorem lseWritten_met (hop : pkOpcode rc.packet = 0x05) :
    MetAlone rc (lseWritten f).1 flags ((List.range (pkRows rc.packet)).any (fun r => (x r).poison))
      ∧ (lseWritten f).1.prog.count = pkRows rc.packet := by
  have hmet := rowsDone_met hdone hfresh
  have hcount : (rowsDone f).prog.count = pkRows rc.packet := congrArg pkRows (hdone.metAlone hfresh).packet
  have hpoisons : (List.range (pkRows rc.packet)).any (fun r => (slotAt (setCmd f.2 (rowsFinal f)) (pkRow0 rc.packet + r)).poison)
      = (List.range (pkRows rc.packet)).any (fun r => (x r).poison) := by
    rw [Bool.eq_iff_iff, List.any_eq_true, List.any_eq_true]
    refine exists_congr fun r => and_congr_right fun hr => ?_
    rw [show slotAt (setCmd f.2 (rowsFinal f)) (pkRow0 rc.packet + r) = _ from hdone.rows r (List.mem_range.mp hr)]
    rfl
  unfold lseWritten
  generalize rowsDone f = y at hmet hcount ⊢
  cases hf0 : pkF0 rc.packet with
  | false =>
    rw [writeLse_of_none (.inr (by rw [hmet.packet]; exact hf0))]
    exact ⟨hmet, hcount⟩
  | true =>
    obtain ⟨c, heq, hc⟩ := writeLse_eq (rc := y) (by rw [hmet.packet]; exact hop) (by rw [hmet.packet]; exact hf0) (setCmd f.2 (rowsFinal f))
    rw [heq, hc]
    obtain ⟨hring, hpacket, hseq, hfailed, htainted, hflags, hpoison, hreduced, hchanged⟩ := hmet
    refine ⟨⟨hring, hpacket, hseq, hfailed, htainted, hflags, ?_, hreduced, hchanged⟩, hcount⟩
    show (y.prog.poisonIn || _) = _
    rw [hpoison, hpacket, hpoisons, Bool.or_self]

theorem rowsFinal_held : (rowsFinal f).prog.held = [] := by
  obtain ⟨inputs, hlinks⟩ := addLinks_inputs s (passed rc)
  have hheld : f.1.prog.held = (addLinks s (passed rc)).prog.held := by rw [hdone.cmd]
  refine hheld.trans ?_
  rw [hlinks]
  unfold passed
  rw [hfresh.1]
  rfl

/-- FIN1 of each row stands at the second destination. -/
theorem lseWritten_stands (hop : pkOpcode rc.packet = 0x05) (hf0 : pkF0 rc.packet = true) (hfirst : isSecondary s = false) {bs : List Byte}
    (hbs : bs = (List.range (pkRows rc.packet)).flatMap (fun r => natBytes 8 (if (x r).poison then canonicalF64 else (n r).fin1).toNat))
    {i : Nat} (hi : i < bs.length) : readByte (lseWritten f).2 (descAt rc 5).1 ((descAt rc 5).2 + i) = bs.getD i 0 := by
  have hmet := rowsDone_met hdone hfresh
  have hheld := rowsFinal_held hfresh hdone
  have hdesc : descAt (rowsDone f) 5 = descAt rc 5 := by
    have hdoes : Does (passed rc, s) (f.1, s) := ⟨(addLinks_same s (passed rc)).trans hdone.same, Works.refl s⟩
    exact hdoes.goes.descAt 5
  have hfirst' : isSecondary (setCmd f.2 (rowsFinal f)) = false := (isSecondary_eq hdone.works.mode hdone.works.primary).trans hfirst
  have hslots : ∀ r < pkRows rc.packet, slotAt (setCmd f.2 (rowsFinal f)) (pkRow0 rc.packet + r) = slotFinal 2 (n r).fin0 (n r).fin1 (x r) :=
    hdone.rows
  have hrows := pkRows_le rc.packet
  unfold lseWritten
  rw [show (rowsFinal f).prog.held = (rowsDone f).prog.held from rfl] at hheld
  generalize setCmd f.2 (rowsFinal f) = u at hslots hfirst' ⊢
  generalize rowsDone f = y at hmet hheld hdesc ⊢
  obtain ⟨c, heq, -⟩ := writeLse_eq (rc := y) (by rw [hmet.packet]; exact hop) (by rw [hmet.packet]; exact hf0) u
  have hlse : (List.range (pkRows y.packet)).flatMap (lseBytes y u) = bs := by
    rw [hbs, hmet.packet]
    refine List.flatMap_congr fun r hr => ?_
    unfold lseBytes
    rw [hmet.packet, hslots r (List.mem_range.mp hr)]
    rfl
  have hwritten : (lseWrites y u).bytes = bs.zipIdx.map (fun z => ((descAt rc 5).1, (descAt rc 5).2 + z.2, z.1)) := by
    rw [← hlse, ← hdesc]
    exact (rowPlaces_written 5 _ _ 8 (fun r => natBytes_length 8 _) _ _).1
  have hlength : bs.length ≤ 2 ^ 64 := by
    rw [← hlse, flatMap_length_of _ _ (fun r => show (lseBytes y u r).length = 8 from natBytes_length 8 _), List.length_range, hmet.packet]
    omega
  rw [heq]
  exact readByte_flushed_at hheld hfirst' hwritten hlength hi

end

end Sys2Proof.Machine

open Sys2Proof Sys2Proof.Machine Sys2Proof.Claims

/-- Settles O22: the rows one after another, what F0 writes of them, then the completion or the apply pass. -/
theorem softmaxFinalFinalisesItsRows : Obligations.SoftmaxFinalFinalisesItsRows := by
  unfold Obligations.SoftmaxFinalFinalisesItsRows
  intro s rc run n x st hissues hpasses hfresh hchv hx hn hst
  obtain rfl : n = fun r => softOf (x r) := funext hn
  obtain rfl : x = fun r => slotAt s (pkRow0 rc.packet + r) := funext hx
  have hpacket : (addLinks s (passed rc)).packet = rc.packet := (addLinks_same s (passed rc)).packet
  have hdone := softLocal_finalises (addLinks s (passed rc)) s
  rw [hpacket] at hdone
  refine ⟨fun hnopass => ?_, fun hpass hunbarred hdrains hwhole htrap => ?_⟩
  · have hrow := finalRow_runs (run := run) hissues hpasses (barred_noPass hnopass s) hchv (f := softLocal (addLinks s (passed rc)) s) rfl
      (hdone.metAlone hfresh).packet
    rw [if_neg (by simp [hnopass])] at hrow
    generalize softLocal (addLinks s (passed rc)) s = f at hdone hrow
    obtain ⟨hmet, hcount⟩ := lseWritten_met hfresh hdone hissues.opcode
    have hworks := lseWritten_works hdone
    have hrun : softFinalRow run s = completeCmd (lseWritten f).1 .ok 0 0 (pkRows rc.packet) (lseWritten f).2 := by
      rw [← hcount]
      exact hrow
    have hends := hmet.ends hworks hissues.cached (i := .softmaxFinal run) rfl hrun
    have hrows := hmet.rowsHold (s := s) (u := (lseWritten f).2) (fun r hr => (lseWritten_slot f _).trans (hdone.rows r hr))
      (fun h hout => (lseWritten_slot f h).trans (hdone.others h hout)) 0 (pkRows rc.packet)
    have hstands := fun hf0 => hmet.stands hissues.cached hworks (k := 5) 0 (pkRows rc.packet)
      fun hfirst i hi => lseWritten_stands hfresh hdone hissues.opcode hf0 hfirst rfl hi
    have honly := fun (hf0 : pkF0 rc.packet = false) => hmet.onlyCompletion hissues.cached hworks (by
      unfold lseWritten
      rw [writeLse_of_none (.inr (by rw [(rowsDone_met hdone hfresh).packet]; exact hf0))]
      exact hdone.bytes.trans (Outside.of_mem rfl rfl rfl)) 0 (pkRows rc.packet)
    rw [← hst] at hends
    simp only [← hst] at hstands honly
    exact ⟨_, hends, hrows, hstands, honly⟩
  · obtain ⟨t, hends⟩ := applyPass_ends hdone hfresh (c := .softmaxFinal wholeRun) hissues hpasses rfl rfl hchv hpass hunbarred hdrains hwhole htrap
    exact ⟨t, _, rfl, hends⟩

end

section
/-! SUPPORT. SAMPLE without a chain (R391 to R394). -/

namespace Sys2Proof.Machine

open Sys2Proof.Claims

/-! ## The rows drawn -/

/-- The first `n` rows, drawn one after another. -/
def rowsDrawn (rc : RunCmd) (s : State) (n : Nat) : List Drawn × State :=
  (List.range n).foldl (fun (a : List Drawn × State) r => (a.1 ++ [(drawFromRegs rc r a.2).1], (drawFromRegs rc r a.2).2)) ([], s)

theorem rowsDrawn_succ (rc : RunCmd) (s : State) (n : Nat) : rowsDrawn rc s (n + 1)
    = ((rowsDrawn rc s n).1 ++ [(drawFromRegs rc n (rowsDrawn rc s n).2).1], (drawFromRegs rc n (rowsDrawn rc s n).2).2) := by
  unfold rowsDrawn
  rw [List.range_succ, List.foldl_append]
  rfl

theorem drawFromRegs_apart (rc : RunCmd) (r : Nat) (s : State) : (drawFromRegs rc r s).2.slots = s.slots ∧ Works s (drawFromRegs rc r s).2 := by
  unfold drawFromRegs
  dsimp only
  split
  · exact ⟨rfl, Works.refl s⟩
  · exact ⟨takeFree_slots s, takeFree_works s⟩

theorem rowsDrawn_apart (rc : RunCmd) (s : State) (n : Nat) : (rowsDrawn rc s n).2.slots = s.slots ∧ Works s (rowsDrawn rc s n).2 := by
  induction n with
  | zero => exact ⟨rfl, Works.refl s⟩
  | succ n ih =>
    obtain ⟨hslots, hworks⟩ := drawFromRegs_apart rc n (rowsDrawn rc s n).2
    rw [rowsDrawn_succ]
    dsimp only
    rw [hslots]
    exact ⟨ih.1, ih.2.trans hworks⟩

/-- What a row's registers hold, as its list. -/
def listOf (es : List (Cand × Bool)) : CandList := ⟨(es.map (fun e => e.1)).filter (fun c => admits (ofW38 c.value)), es.any (fun e => e.2)⟩

/-- Rows whose registers hold lists are drawn from them. -/
theorem rowsDrawn_lists {rc : RunCmd} {s : State} {es : Nat → List (Cand × Bool)} (n : Nat)
    (hes : ∀ r, es r = regEntries (regsOf s rc.ring) (pkOpc rc.packet % 32 + 4 * r) 1024)
    (hlists : ∀ r < n, isList ((es r).map (fun e => e.1)) = true) :
    rowsDrawn rc s n = ((List.range n).map (fun r => drawRow s rc (pkRow0 rc.packet + r) (listOf (es r))), s) := by
  induction n with
  | zero => rfl
  | succ n ih =>
    have hrow : drawFromRegs rc n s = (drawRow s rc (pkRow0 rc.packet + n) (listOf (es n)), s) := by
      have hlist := hlists n (Nat.lt_succ_self n)
      rw [hes n] at hlist ⊢
      unfold drawFromRegs
      dsimp only
      rw [if_pos hlist]
      rfl
    rw [rowsDrawn_succ, ih fun r hr => hlists r (by omega), List.range_succ, List.map_append, hrow]
    rfl

/-! ## What drawing notes -/

def drawnFlags (ds : List Drawn) : Byte := if ds.any (fun d => d.empty) then flInvalid else 0

theorem noteDrawn_met {rc : RunCmd} (hfresh : Fresh rc) (ds : List Drawn) (s : State) :
    MetAlone rc (noteDrawn ds (passed rc) s).1 (drawnFlags ds) (ds.any (fun d => d.poison))
      ∧ (noteDrawn ds (passed rc) s).1.prog.changed = [] ∧ (noteDrawn ds (passed rc) s).1.prog.held = [] := by
  obtain ⟨hprog, hfailed, htainted⟩ := hfresh
  have hempty : decide (0 < (ds.filter (fun d => d.empty)).length) = ds.any (fun d => d.empty) := by
    rw [Bool.eq_iff_iff, decide_eq_true_eq, List.length_filter_pos_iff, List.any_eq_true]
  have hflags : (noteDrawn ds (passed rc) s).1.prog.flags = drawnFlags ds := by
    dsimp only [noteDrawn, passed]
    rw [hprog, hempty]
    exact BitVec.zero_or
  have hpoison : (noteDrawn ds (passed rc) s).1.prog.poisonIn = ds.any (fun d => d.poison) := by
    dsimp only [noteDrawn, passed]
    rw [hprog]
    exact Bool.false_or _
  have hnone : (passed rc).prog.reduced = [] ∧ (passed rc).prog.changed = [] ∧ (passed rc).prog.held = [] := by
    unfold passed
    rw [hprog]
    exact ⟨rfl, rfl, rfl⟩
  obtain ⟨hreduced, hchanged, hheld⟩ := hnone
  refine ⟨⟨rfl, rfl, rfl, hfailed, htainted, hflags, hpoison, hreduced, fun h hh => ?_⟩, hchanged, hheld⟩
  rw [show (noteDrawn ds (passed rc) s).1.prog.changed = [] from hchanged] at hh
  cases hh

/-! ## The tokens written -/

def drawnBytes (ts : List (BitVec 40)) : List Byte := ts.flatMap (fun t => natBytes 8 t.toNat)

def tokenWrites (rc : RunCmd) (rows : List (Nat × List (BitVec 40) × Bool)) : VecWrites :=
  rows.foldl (fun (w : VecWrites) x => w.append
    (VecWrites.place 4 (descAt rc 4).1 ((descAt rc 4).2 + 8 * (x.2.1.length * x.1)) (drawnBytes x.2.1) x.2.2)) VecWrites.empty

theorem writeTokens_of_none {rc : RunCmd} (h : (pkDmask rc.packet).testBit 4 = false) (rows : List (Nat × List (BitVec 40) × Bool)) (s : State) :
    writeTokens rc rows s = (rc, s) := by
  unfold writeTokens
  rw [if_neg (by simp [h])]

theorem writeTokens_eq {rc : RunCmd} (h : (pkDmask rc.packet).testBit 4 = true) (rows : List (Nat × List (BitVec 40) × Bool)) (s : State) :
    ∃ c, writeTokens rc rows s = (c, (flushSectors (bufferWrites rc (tokenWrites rc rows) s).1 (bufferWrites rc (tokenWrites rc rows) s).2).2)
      ∧ c = { rc with prog := { rc.prog with held := [], wrote := rc.prog.wrote ++ (tokenWrites rc rows).runs } } := by
  refine ⟨_, ?_, rfl⟩
  unfold writeTokens
  rw [if_pos h]
  rfl

theorem writeTokens_works (rc : RunCmd) (rows : List (Nat × List (BitVec 40) × Bool)) (s : State) :
    Works s (writeTokens rc rows s).2 ∧ (writeTokens rc rows s).2.slots = s.slots := by
  by_cases h : (pkDmask rc.packet).testBit 4 = true
  · obtain ⟨c, heq, -⟩ := writeTokens_eq h rows s
    rw [heq]
    exact ⟨(bufferWrites_does rc _ s).works.trans (flushSectors_does _ _).works,
      (flushSectors_noSlot _ _).slots.trans (bufferWrites_noSlot rc _ s).slots⟩
  · rw [writeTokens_of_none (Bool.eq_false_iff.mpr h)]
    exact ⟨Works.refl s, rfl⟩

/-- Writing tokens notes nothing but what has been written. -/
theorem writeTokens_met {rc c : RunCmd} {flags : Byte} {bad : Bool} (hmet : MetAlone rc c flags bad)
    (rows : List (Nat × List (BitVec 40) × Bool)) (s : State) :
    MetAlone rc (writeTokens c rows s).1 flags bad ∧ (writeTokens c rows s).1.prog.changed = c.prog.changed := by
  by_cases h : (pkDmask c.packet).testBit 4 = true
  · obtain ⟨e, heq, he⟩ := writeTokens_eq h rows s
    obtain ⟨hring, hpacket, hseq, hfailed, htainted, hflags, hpoison, hreduced, hchanged⟩ := hmet
    rw [heq, he]
    exact ⟨⟨hring, hpacket, hseq, hfailed, htainted, hflags, hpoison, hreduced, hchanged⟩, rfl⟩
  · rw [writeTokens_of_none (Bool.eq_false_iff.mpr h)]
    exact ⟨hmet, rfl⟩

/-- The tokens of rows of `n` each stand one after another at the destination. -/
theorem readByte_writeTokens {rc : RunCmd} {ds : Nat → Drawn} {m n : Nat} {s : State} (h : (pkDmask rc.packet).testBit 4 = true)
    (hheld : rc.prog.held = []) (hfirst : isSecondary s = false) (hlength : ∀ r, (ds r).tokens.length = n) (hbound : m * (8 * n) ≤ 2 ^ 64)
    {bs : List Byte} (hbs : bs = (List.range m).flatMap (fun r => drawnBytes (ds r).tokens)) {i : Nat} (hi : i < bs.length) :
    readByte (writeTokens rc ((List.range m).map (fun r => (r, (ds r).tokens, (ds r).poison))) s).2 (descAt rc 4).1 ((descAt rc 4).2 + i)
      = bs.getD i 0 := by
  have hbytes : ∀ r, (drawnBytes (ds r).tokens).length = 8 * n := fun r => by
    rw [drawnBytes, flatMap_length_of _ _ (fun t : BitVec 40 => natBytes_length 8 t.toNat), hlength r, Nat.mul_comm]
  have hwrites : tokenWrites rc ((List.range m).map (fun r => (r, (ds r).tokens, (ds r).poison)))
      = (List.range m).foldl (fun (w : VecWrites) r => w.append
          (VecWrites.place 4 (descAt rc 4).1 ((descAt rc 4).2 + 8 * n * r) (drawnBytes (ds r).tokens) (ds r).poison)) VecWrites.empty := by
    rw [tokenWrites, List.foldl_map]
    simp only [hlength, Nat.mul_assoc]
  have hwritten := (rowPlaces_written 4 (descAt rc 4).1 (descAt rc 4).2 (8 * n) hbytes (fun r => (ds r).poison) m).1
  rw [← hwrites, ← hbs] at hwritten
  obtain ⟨c, heq, -⟩ := writeTokens_eq h ((List.range m).map (fun r => (r, (ds r).tokens, (ds r).poison))) s
  rw [heq]
  refine readByte_flushed_at hheld hfirst hwritten ?_ hi
  rw [hbs, flatMap_length_of _ _ hbytes, List.length_range]
  exact hbound

/-! ## The command -/

/-- What SAMPLE without a chain has drawn, noted and written when it completes. -/
def sampled (rc : RunCmd) (s : State) : RunCmd × State :=
  writeTokens (noteDrawn (rowsDrawn rc s (pkRows rc.packet)).1 rc (rowsDrawn rc s (pkRows rc.packet)).2).1
    ((rowsDrawn rc s (pkRows rc.packet)).1.zipIdx.map (fun x => (x.2, x.1.tokens, x.1.poison)))
    (noteDrawn (rowsDrawn rc s (pkRows rc.packet)).1 rc (rowsDrawn rc s (pkRows rc.packet)).2).2

theorem sampleRow_completes {s : State} {rc : RunCmd} (hissues : Issues s rc 0x07) (hpasses : Passes s rc) (hchv : pkChv rc.packet = false) :
    sampleRow s = completeCmd (sampled (passed rc) s).1 .ok 0
      (((rowsDrawn (passed rc) s (pkRows rc.packet)).1.headD ⟨[], false, false⟩).tokens.headD emptyIndex).toNat
      (pkRows rc.packet * pkDraws rc.packet) (sampled (passed rc) s).2 := by
  rw [sampleRow, issue_issued hissues, sampleBody, checkedThen_good _ _ hpasses.unchecked hpasses.good]
  rw [if_neg (by simp [show (passed rc).packet = rc.packet from rfl, hchv])]
  rfl

/-- Rows drawn from their lists, whose tokens are then written in order. -/
theorem sampled_eq {rc : RunCmd} {s : State} {ds : Nat → Drawn} {l : List Drawn} (hl : l = (List.range (pkRows rc.packet)).map ds)
    (hdrawn : rowsDrawn rc s (pkRows rc.packet) = (l, s)) : sampled rc s
      = writeTokens (noteDrawn l rc s).1 ((List.range (pkRows rc.packet)).map (fun r => (r, (ds r).tokens, (ds r).poison))) (noteDrawn l rc s).2 := by
  have hrows : l.zipIdx.map (fun x => (x.2, x.1.tokens, x.1.poison))
      = (List.range (pkRows rc.packet)).map (fun r => (r, (ds r).tokens, (ds r).poison)) := by
    rw [hl]
    exact List.ext_getElem (by simp) (by simp)
  unfold sampled
  rw [hdrawn, hrows]

theorem sampled_works (rc : RunCmd) (s : State) : Works s (sampled rc s).2 ∧ (sampled rc s).2.slots = s.slots := by
  obtain ⟨hslots, hworks⟩ := rowsDrawn_apart rc s (pkRows rc.packet)
  unfold sampled
  generalize rowsDrawn rc s (pkRows rc.packet) = d at hslots hworks ⊢
  obtain ⟨hwrites, hsame⟩ := writeTokens_works (noteDrawn d.1 rc d.2).1 (d.1.zipIdx.map (fun x => (x.2, x.1.tokens, x.1.poison)))
    (noteDrawn d.1 rc d.2).2
  obtain ⟨hcounted, hcounts, -⟩ := countEvent_apartFrom 0x41 (d.1.filter (fun d => d.empty)).length (some rc.vi) d.2
  exact ⟨(hworks.trans hcounts).trans hwrites, hsame.trans (hcounted.trans hslots)⟩

theorem sampled_met {rc : RunCmd} (hfresh : Fresh rc) (s : State) :
    MetAlone rc (sampled (passed rc) s).1 (drawnFlags (rowsDrawn (passed rc) s (pkRows rc.packet)).1)
        ((rowsDrawn (passed rc) s (pkRows rc.packet)).1.any (fun d => d.poison))
      ∧ (sampled (passed rc) s).1.prog.changed = [] := by
  unfold sampled
  rw [show (passed rc).packet = rc.packet from rfl]
  generalize rowsDrawn (passed rc) s (pkRows rc.packet) = d
  obtain ⟨hmet, hchanged, -⟩ := noteDrawn_met hfresh d.1 d.2
  obtain ⟨hwritten, hsame⟩ := writeTokens_met hmet (d.1.zipIdx.map (fun x => (x.2, x.1.tokens, x.1.poison))) (noteDrawn d.1 (passed rc) d.2).2
  exact ⟨hwritten, hsame.trans hchanged⟩

end Sys2Proof.Machine

open Sys2Proof Sys2Proof.Machine Sys2Proof.Claims

/-- Settles O26: the rows drawn one after another, what they raise, and their tokens as they are written. -/
theorem sampleDrawsItsTokens : Obligations.SampleDrawsItsTokens := by
  unfold Obligations.SampleDrawsItsTokens
  intro s rc es ds flags st hissues hpasses hfresh hchv hes hds hflags hst
  have hrun := sampleRow_completes hissues hpasses hchv
  obtain ⟨hworks, hslots⟩ := sampled_works (passed rc) s
  obtain ⟨hmet, hchanged⟩ := sampled_met hfresh s
  have hends := hmet.ends hworks hissues.cached (i := .sample) rfl hrun
  refine ⟨?_, fun hlists => ?_⟩
  · refine ⟨_, _, hends, rfl, rfl, rfl, ?_⟩
    rw [completeCmd_slots_none _ _ _ _ _ _ hmet.plain.1 hmet.reduced hchanged, hslots]
  · have hdrawn : rowsDrawn (passed rc) s (pkRows rc.packet) = ((List.range (pkRows rc.packet)).map ds, s) := by
      rw [rowsDrawn_lists (rc := passed rc) (es := es) (pkRows rc.packet) hes hlists]
      congr 2
      exact funext fun r => (hds r).symm
    have hlength : ∀ r, (ds r).tokens.length = pkDraws rc.packet := fun r => by
      rw [hds r, drawRow]
      simp
    have hall : drawnFlags ((List.range (pkRows rc.packet)).map ds) = flags
        ∧ metStatus flags (((List.range (pkRows rc.packet)).map ds).any (fun d => d.poison)) = st := by
      rw [hflags, hst, drawnFlags, List.any_map, List.any_map]
      exact ⟨rfl, by rw [hflags]; rfl⟩
    have hfirstToken : ((List.range (pkRows rc.packet)).map ds).headD ⟨[], false, false⟩ = ds 0 := by
      rw [show pkRows rc.packet = field rc.packet 222 208 + 1 from rfl, List.range_succ_eq_map]
      rfl
    rw [hdrawn] at hmet hrun hends
    rw [hfirstToken] at hrun hends
    dsimp only at hmet
    rw [hall.1] at hmet
    rw [hall.1, hall.2] at hends
    have heq := sampled_eq rfl hdrawn
    obtain ⟨-, -, hheld⟩ := noteDrawn_met hfresh ((List.range (pkRows rc.packet)).map ds) s
    obtain ⟨-, hcounts, hcountsBytes⟩ :=
      countEvent_apartFrom 0x41 (((List.range (pkRows rc.packet)).map ds).filter (fun d => d.empty)).length (some (passed rc).vi) s
    have hbound : pkRows rc.packet * (8 * pkDraws rc.packet) ≤ 2 ^ 64 := by
      have hrows := pkRows_le rc.packet
      have hdraws : pkDraws rc.packet ≤ 2 ^ 8 := field_lt_pow rc.packet 492 485
      calc pkRows rc.packet * (8 * pkDraws rc.packet) ≤ 2 ^ 15 * (8 * 2 ^ 8) := Nat.mul_le_mul hrows (Nat.mul_le_mul_left 8 hdraws)
        _ ≤ 2 ^ 64 := by decide
    refine ⟨_, hends, fun hplaced => ?_, fun hnone => ?_⟩
    · have hstands := hmet.stands hissues.cached hworks (k := 4) (bs := (List.range (pkRows rc.packet)).flatMap (fun r => drawnBytes (ds r).tokens))
        ((ds 0).tokens.headD emptyIndex).toNat (pkRows rc.packet * pkDraws rc.packet) fun hfirst i hi => ?_
      · rw [hall.2] at hstands
        exact hstands
      · rw [heq]
        exact readByte_writeTokens (rc := (noteDrawn _ (passed rc) s).1) hplaced hheld ((isSecondary_eq hcounts.mode hcounts.primary).trans hfirst) hlength hbound rfl hi
    · have honly := hmet.onlyCompletion hissues.cached hworks ?_ ((ds 0).tokens.headD emptyIndex).toNat (pkRows rc.packet * pkDraws rc.packet)
      · rw [hall.2] at honly
        exact honly
      · rw [heq, writeTokens_of_none (rc := (noteDrawn _ (passed rc) s).1) hnone]
        exact hcountsBytes

end

section
/-! SUPPORT. Fills written back to their buckets (R401), and what placing one record does (R400, R403, R404). -/

namespace Sys2Proof.Machine

open Sys2Proof.Claims

/-! ## Fills written back -/

theorem setFill_bucketFill (x : Slot) : setFill (bucketFill x) x = x := by
  have hfill : bucketFill x < 2 ^ 32 := field_lt_pow x.sw 127 96
  have hword : BitVec.ofNat 128 (field x.sw 95 0 + place (bucketFill x % 2 ^ 32) 96) = x.sw := by
    refine BitVec.eq_of_toNat_eq ?_
    have hsw := x.sw.isLt
    rw [BitVec.toNat_ofNat, Nat.mod_eq_of_lt hfill, bucketFill, field_digit, field_digit, place, Nat.shiftLeft_eq]
    omega
  unfold setFill
  rw [hword]

/-- One fill written back. -/
def putFill (p : BitVec 512) (a : RunCmd × State) (x : Nat × Nat) : RunCmd × State :=
  if bucketFill (slotAt a.2 (pkRow0 p + x.1)) = x.2 then a
  else ({ a.1 with prog := { a.1.prog with changed := setInsert a.1.prog.changed (pkRow0 p + x.1) } }, modSlot a.2 (pkRow0 p + x.1) (setFill x.2))

theorem writeFills_eq (rc : RunCmd) (s : State) : writeFills rc s = rc.prog.fills.foldl (putFill rc.packet) (rc, s) := rfl

section

variable (p : BitVec 512) (a : RunCmd × State) (x : Nat × Nat)

theorem putFill_same : slotAt (putFill p a x).2 (pkRow0 p + x.1) = setFill x.2 (slotAt a.2 (pkRow0 p + x.1)) := by
  unfold putFill
  split
  · next hfill => rw [← hfill, setFill_bucketFill]
  · exact slotAt_modSlot_same _ _ _

theorem putFill_other {h : Nat} (hother : h ≠ pkRow0 p + x.1) : slotAt (putFill p a x).2 h = slotAt a.2 h := by
  unfold putFill
  split
  · rfl
  · exact slotAt_modSlot_other _ _ hother

theorem putFill_changed {h : Nat} (hh : h ∈ (putFill p a x).1.prog.changed) : h ∈ a.1.prog.changed ∨ h = pkRow0 p + x.1 := by
  unfold putFill at hh
  split at hh
  · exact .inl hh
  · exact ((mem_setInsert _ _ _).mp hh).symm

end

/-- Fills of distinct buckets, all written back. -/
theorem putFills_slots (p : BitVec 512) (l : List (Nat × Nat)) (hone : (l.map Prod.fst).Nodup) (a : RunCmd × State) :
    (∀ x ∈ l, slotAt (l.foldl (putFill p) a).2 (pkRow0 p + x.1) = setFill x.2 (slotAt a.2 (pkRow0 p + x.1)))
      ∧ ∀ h, (∀ x ∈ l, h ≠ pkRow0 p + x.1) → slotAt (l.foldl (putFill p) a).2 h = slotAt a.2 h := by
  induction l generalizing a with
  | nil => exact ⟨fun x hx => absurd hx List.not_mem_nil, fun _ _ => rfl⟩
  | cons y rest ih =>
    rw [List.map_cons, List.nodup_cons] at hone
    obtain ⟨hnew, hrest⟩ := hone
    obtain ⟨hset, hkept⟩ := ih hrest (putFill p a y)
    have hapart : ∀ x ∈ rest, x.1 ≠ y.1 := fun x hx heq => hnew (List.mem_map.mpr ⟨x, hx, heq⟩)
    refine ⟨fun x hx => ?_, fun h hh => ?_⟩
    · rw [List.foldl_cons]
      rcases List.mem_cons.mp hx with rfl | hx
      · rw [hkept _ fun z hz => by have := hapart z hz; omega, putFill_same]
      · rw [hset x hx, putFill_other _ _ _ (by have := hapart x hx; omega)]
    · rw [List.foldl_cons, hkept h fun z hz => hh z (List.mem_cons_of_mem _ hz), putFill_other _ _ _ (hh y List.mem_cons_self)]

theorem putFills_changed (p : BitVec 512) (l : List (Nat × Nat)) (a : RunCmd × State) {h : Nat}
    (hh : h ∈ (l.foldl (putFill p) a).1.prog.changed) : h ∈ a.1.prog.changed ∨ ∃ x ∈ l, h = pkRow0 p + x.1 := by
  induction l generalizing a with
  | nil => exact .inl hh
  | cons y rest ih =>
    rcases ih (putFill p a y) hh with hh | ⟨x, hx, heq⟩
    · exact (putFill_changed p a y hh).imp id fun heq => ⟨y, List.mem_cons_self, heq⟩
    · exact .inr ⟨x, List.mem_cons_of_mem _ hx, heq⟩

/-! ## The buckets of a range -/

/-- A command keeps one fill for each bucket of its range. -/
def FillsRange (p : BitVec 512) (rc : RunCmd) : Prop := rc.packet = p ∧ rc.prog.fills.map Prod.fst = List.range (pkRows p)

theorem FillsRange.inRange {p : BitVec 512} {rc : RunCmd} (h : FillsRange p rc) : fillsInRange p rc := by
  refine ⟨h.1, fun x hx => ?_⟩
  have hkey : x.1 ∈ rc.prog.fills.map Prod.fst := List.mem_map_of_mem hx
  rw [h.2] at hkey
  exact List.mem_range.mp hkey

theorem readFills_range (s : State) (rc : RunCmd) : FillsRange rc.packet (readFills s rc) := by
  refine ⟨rfl, ?_⟩
  unfold readFills
  rw [List.map_map]
  exact List.map_id _

/-- A value put at a key that is listed leaves the keys. -/
theorem spPut_keys {α : Type} {m : Sparse α} (hsorted : (m.map Prod.fst).Pairwise (· < ·)) {n : Nat} (hn : n ∈ m.map Prod.fst) (v : α) :
    (spPut m n v).map Prod.fst = m.map Prod.fst := by
  induction m with
  | nil => cases hn
  | cons y rest ih =>
    rw [List.map_cons, List.pairwise_cons] at hsorted
    obtain ⟨hless, hrest⟩ := hsorted
    unfold spPut
    rcases List.mem_cons.mp hn with rfl | hn
    · rw [if_neg (Nat.lt_irrefl _), if_pos rfl]
      rfl
    · have hlt := hless n hn
      rw [if_neg (by omega), if_neg (by omega), List.map_cons, List.map_cons, ih hrest hn]

theorem spGet_of_mem {α : Type} (d : α) {m : Sparse α} (hone : (m.map Prod.fst).Nodup) {x : Nat × α} (hx : x ∈ m) : spGet d m x.1 = x.2 := by
  induction m with
  | nil => cases hx
  | cons y rest ih =>
    rw [List.map_cons, List.nodup_cons] at hone
    unfold spGet
    rcases List.mem_cons.mp hx with rfl | hx
    · exact if_pos rfl
    · rw [if_neg fun heq : y.1 = x.1 => hone.1 (heq ▸ List.mem_map_of_mem hx)]
      exact ih hone.2 hx

/-- Each bucket's slot holds its fill once the fills are written back. -/
theorem writeFills_row {p : BitVec 512} {rc : RunCmd} (h : FillsRange p rc) (s : State) {e : Nat} (he : e < pkRows p) :
    slotAt (writeFills rc s).2 (pkRow0 p + e) = setFill (fillNow rc e) (slotAt s (pkRow0 p + e)) := by
  have hone : (rc.prog.fills.map Prod.fst).Nodup := h.2 ▸ List.nodup_range
  have hkey : e ∈ rc.prog.fills.map Prod.fst := h.2 ▸ List.mem_range.mpr he
  obtain ⟨x, hx, rfl⟩ := List.mem_map.mp hkey
  rw [writeFills_eq, h.1, (putFills_slots p _ hone (rc, s)).1 x hx, fillNow, spGet_of_mem 0 hone hx]

theorem writeFills_changed {p : BitVec 512} {rc : RunCmd} (hfills : fillsInRange p rc) (s : State) {h : Nat}
    (hh : h ∈ (writeFills rc s).1.prog.changed) : h ∈ rc.prog.changed ∨ inRange p h := by
  rw [writeFills_eq, hfills.1] at hh
  refine (putFills_changed p _ _ hh).imp id fun ⟨x, hx, heq⟩ => ?_
  have := hfills.2 x hx
  exact ⟨by omega, by omega⟩

/-! ## One record -/

/-- The records that have come to an end, but those that name no expert. -/
def recordsEnded (a : Placing) : Nat := a.rc.prog.placed + a.rc.prog.overflowed + a.rc.prog.dropped + a.rc.prog.special

/-- From `a` to `b` records have been placed of which `n` named an expert; no bucket lay outside the SRAM. -/
structure PlacesRecords (p : BitVec 512) (n : Nat) (a b : Placing) : Prop where
  sound   : a.fault = false
  ended   : recordsEnded b = recordsEnded a + n
  cmd     : b.rc = { a.rc with prog := b.rc.prog }
  changed : b.rc.prog.changed = a.rc.prog.changed
  fills   : FillsRange p a.rc → FillsRange p b.rc

theorem PlacesRecords.trans {p : BitVec 512} {m n : Nat} {a b c : Placing} (h : PlacesRecords p m a b) (k : PlacesRecords p n b c) :
    PlacesRecords p (m + n) a c := by
  refine ⟨h.sound, ?_, ?_, k.changed.trans h.changed, fun ha => k.fills (h.fills ha)⟩
  · rw [k.ended, h.ended, Nat.add_assoc]
  · rw [k.cmd, h.cmd]

/-- A record that joins a stream changes nothing of its command but the buffers. -/
theorem combineRecord_only (key : Nat) (sp : Space) (a : Nat) (bs : List Byte) (bad : Bool) (q : Placing) :
    ∃ l, (combineRecord key sp a bs bad q).rc = { q.rc with prog := { q.rc.prog with combine := l } }
      ∧ (combineRecord key sp a bs bad q).fault = q.fault := by
  have hfold : ∀ (xs : List SectorBytes) (q : Placing), ∃ l,
      (xs.foldl (combineSector key bad) q).rc = { q.rc with prog := { q.rc.prog with combine := l } }
        ∧ (xs.foldl (combineSector key bad) q).fault = q.fault := by
    intro xs
    induction xs with
    | nil => exact fun q => ⟨_, rfl, rfl⟩
    | cons x rest ih =>
      intro q
      obtain ⟨l, hcmd, hfault⟩ := ih (combineSector key bad q x)
      rw [List.foldl_cons, hcmd, hfault]
      unfold combineSector
      dsimp only
      split <;> exact ⟨l, rfl, rfl⟩
  exact hfold _ _

theorem combineRecord_places (p : BitVec 512) {key : Nat} {sp : Space} {at_ : Nat} {bs : List Byte} {bad : Bool} {q : Placing}
    (hsound : (combineRecord key sp at_ bs bad q).fault = false) : PlacesRecords p 0 q (combineRecord key sp at_ bs bad q) := by
  obtain ⟨l, hcmd, hfault⟩ := combineRecord_only key sp at_ bs bad q
  refine ⟨hfault ▸ hsound, ?_, ?_, ?_, fun hq => ?_⟩
  · unfold recordsEnded
    rw [hcmd]
    rfl
  · rw [hcmd]
  · rw [hcmd]
  · rw [hcmd]
    exact hq

/-- One record is skipped, placed, in the overflow list, dropped, or of a bad expert. -/
theorem placeRecord_places {p : BitVec 512} {s : State} {a : Placing} {g : GateRecord} (hsound : (placeRecord s a g).fault = false) :
    PlacesRecords p (if g.expert = -1 then 0 else 1) a (placeRecord s a g) := by
  unfold placeRecord at hsound ⊢
  dsimp only at hsound ⊢
  by_cases hskip : g.expert = -1
  · rw [if_pos hskip] at hsound ⊢
    rw [if_pos hskip]
    exact ⟨hsound, rfl, rfl, rfl, id⟩
  rw [if_neg hskip] at hsound ⊢
  rw [if_neg hskip]
  by_cases hbad : g.expert < 0 ∨ (pkRows a.rc.packet : Int) ≤ g.expert
  · rw [if_pos hbad] at hsound ⊢
    exact ⟨hsound, rfl, rfl, rfl, id⟩
  rw [if_neg hbad] at hsound ⊢
  by_cases hroom : fillNow a.rc g.expert.toNat < bucketCap (slotAt s (pkRow0 a.rc.packet + g.expert.toNat))
  · rw [if_pos hroom] at hsound ⊢
    split at hsound
    · cases hsound
    · next hsram =>
      rw [if_neg hsram]
      have hjoined := combineRecord_places p hsound
      refine PlacesRecords.trans (m := 1) (n := 0) ?_ hjoined
      refine ⟨hjoined.sound, ?_, rfl, rfl, fun ha => ⟨ha.1, ?_⟩⟩
      · dsimp only [recordsEnded]
        omega
      · have hexpert : g.expert.toNat < pkRows p := by
          rw [← ha.1]
          omega
        exact (spPut_keys (ha.2 ▸ List.pairwise_lt_range) (ha.2 ▸ List.mem_range.mpr hexpert) _).trans ha.2
  · rw [if_neg hroom] at hsound ⊢
    split at hsound
    · next hlist =>
      rw [if_pos hlist]
      have hjoined := combineRecord_places p hsound
      refine PlacesRecords.trans (m := 1) (n := 0) ?_ hjoined
      refine ⟨hjoined.sound, ?_, rfl, rfl, id⟩
      dsimp only [recordsEnded]
      omega
    · next hlist =>
      rw [if_neg hlist]
      refine ⟨hsound, ?_, rfl, rfl, id⟩
      dsimp only [recordsEnded]
      omega

/-- Records placed one after another: each that names an expert comes to an end. -/
theorem placedRecords_places (p : BitVec 512) {s : State} (gs : List GateRecord) {a : Placing} (hsound : (gs.foldl (placeRecord s) a).fault = false) :
    PlacesRecords p (gs.filter (fun g => decide (g.expert ≠ -1))).length a (gs.foldl (placeRecord s) a) := by
  induction gs generalizing a with
  | nil => exact ⟨hsound, rfl, rfl, rfl, id⟩
  | cons g rest ih =>
    have hrest := ih hsound
    have hcount : ((g :: rest).filter (fun g => decide (g.expert ≠ -1))).length
        = (if g.expert = -1 then 0 else 1) + (rest.filter (fun g => decide (g.expert ≠ -1))).length := by
      by_cases hskip : g.expert = -1
      · simp [hskip]
      · simp [hskip, Nat.add_comm]
    rw [hcount]
    exact (placeRecord_places hrest.sound).trans hrest

/-- Records are placed by what the slots say alone. -/
theorem placeRecord_slots {s t : State} (h : t.slots = s.slots) : placeRecord t = placeRecord s := by
  funext a g
  unfold placeRecord
  simp only [slotAt_slots h]

end Sys2Proof.Machine

end

section
/-! SUPPORT. SCATTER_BUCKETS of at most one segment (R400 to R405, R482). -/

namespace Sys2Proof.Machine

open Sys2Proof.Claims

/-- A step of SCATTER_BUCKETS takes all of at most one segment's records. -/
theorem stepLimit_segment {s : State} {rc : RunCmd} {n : Nat} (hop : pkOpcode rc.packet = 0x0A) (hvector : rc.prog.vector = 0)
    (hwhole : hasRegs (ctxOfRing s rc.ring) = false ∨ n ≤ 65536) : stepLimit s rc n none = n := by
  have hsegment : segmentLength rc = 65536 := if_pos hop
  have hplaces : placesRecords rc = false := by simp [placesRecords, hop]
  have hbound : ∀ v < 65536, isBoundary rc v = false := fun v hv => by
    rw [isBoundary, hsegment, hplaces, Bool.false_and, Bool.or_false, Bool.and_eq_false_iff, decide_eq_false_iff_not, decide_eq_false_iff_not]
    omega
  have hat : atSegment s rc = false := by
    rw [atSegment, hvector, hbound 0 (by decide), Bool.and_false, Bool.false_and]
  unfold stepLimit
  rw [hat, Option.getD_none, Nat.min_self, if_neg (by simp)]
  split
  · next hregs =>
    have hn := hwhole.resolve_left (by simp [hregs])
    exact toBoundary_all rc n hvector fun v hv => hbound v (by omega)
  · rfl

section

variable {s : State} {rc : RunCmd}

/-- Where the records of a fresh command are placed from. -/
def scatterStart (s : State) (rc : RunCmd) (n : Nat) : Placing :=
  ⟨{ readFills s rc with prog := { (readFills s rc).prog with vector := n } }, VecWrites.empty, false⟩

theorem scattered_folds (s : State) (rc : RunCmd) : (scattered s rc).2
    = (scattered s rc).1.foldl (placeRecord s) (scatterStart s rc (pkOpb rc.packet * pkOpc rc.packet)) := rfl

theorem scattered_eq (s : State) (rc : RunCmd) : scattered s rc
    = ((List.range (pkOpb rc.packet * pkOpc rc.packet)).map (denseRecord s rc),
      ((List.range (pkOpb rc.packet * pkOpc rc.packet)).map (denseRecord s rc)).foldl (placeRecord s)
        (scatterStart s rc (pkOpb rc.packet * pkOpc rc.packet))) := rfl

/-- Once SCATTER_BUCKETS has gone through its list: its reads and the records' ends counted, what is complete of its buckets written. -/
def scatterRead (s : State) (rc : RunCmd) : State :=
  countReads (readFills s rc) (spaceSectors (descSpace rc (descOf rc 0)) (dBase (descOf rc 0)) (8 * (pkOpb rc.packet * pkOpc rc.packet))) s

def scatterCounted (s : State) (rc : RunCmd) (a : Placing) : State :=
  countBuckets (scatterStart s rc (pkOpb rc.packet * pkOpc rc.packet)).rc.prog a.rc.prog rc.vi (scatterRead s rc)

def scatterPlaced (s : State) (rc : RunCmd) (a : Placing) : RunCmd × State :=
  let b := bufferWrites a.rc a.writes (scatterCounted s rc a)
  (b.1, setCmd b.2 b.1)

theorem scatterStep_whole (hop : pkOpcode rc.packet = 0x0A) (hvector : rc.prog.vector = 0)
    (hwhole : hasRegs (ctxOfRing s rc.ring) = false ∨ pkOpb rc.packet * pkOpc rc.packet ≤ 65536)
    (hsound : (scattered s rc).2.fault = false) :
    scatterStep wholeRun (readFills s rc) s
      = finishBuckets .ok (scatterPlaced s rc (scattered s rc).2).1 (scatterPlaced s rc (scattered s rc).2).2 := by
  have hlimit : stepLimit s (readFills s rc) (pkOpb rc.packet * pkOpc rc.packet - 0) none = pkOpb rc.packet * pkOpc rc.packet :=
    stepLimit_segment (rc := readFills s rc) hop hvector hwhole
  have hrecords : ∀ n, (span 0 n).map (denseRecord s (readFills s rc)) = (List.range n).map (denseRecord s rc) := fun n => by
    rw [span, List.map_map]
    refine List.map_congr_left fun i _ => ?_
    rw [Function.comp_apply, Nat.zero_add]
    rfl
  have hslots := fun l => placeRecord_slots (s := s) (t := countReads (readFills s rc) l s) (by simp [countReads])
  unfold scatterStep
  rw [show meetError wholeRun.error (readFills s rc) s = some (none, readFills s rc, s) from rfl]
  dsimp only
  rw [show (readFills s rc).prog.vector = 0 from hvector, show (readFills s rc).packet = rc.packet from rfl,
    show wholeRun.vectors = none from rfl, hlimit, Nat.zero_add]
  simp only [inBadWord, Bool.false_eq_true, if_false]
  rw [hrecords]
  unfold placeRecords
  rw [hslots]
  have hgoes : ¬ (scattered s rc).2.fault = true := by simp [hsound]
  rw [scattered_eq] at hgoes ⊢
  exact (if_neg hgoes).trans (if_neg (Nat.lt_irrefl _))

theorem scatterCounted_works (a : Placing) : Works s (scatterCounted s rc a) :=
  (countReads_works _ _ s).trans (countBuckets_works _ _ _ _)

theorem scatterCounted_outside (l : List (Nat × Space × Nat × Nat)) (a : Placing) : Outside l s (scatterCounted s rc a) :=
  (countReads_outside l _ _ s).trans (countBuckets_outside l _ _ _ _)

theorem scatterPlaced_slots (a : Placing) : (scatterPlaced s rc a).2.slots = s.slots :=
  (bufferWrites_noSlot a.rc a.writes (scatterCounted s rc a)).slots.trans (by simp [scatterCounted, scatterRead, countBuckets, countReads])

/-- The records written change bytes of their own runs alone. -/
theorem scatterPlaced_stores (hheld : rc.prog.held = []) (hwrote : rc.prog.wrote = []) (hcombine : rc.prog.combine = []) {a : Placing}
    (ha : a = (scattered s rc).2) :
    heldIn (scatterPlaced s rc a).1 ∧ (scatterPlaced s rc a).1.prog.wrote = a.writes.runs
      ∧ Outside a.writes.runs s (scatterPlaced s rc a).2 := by
  have hwithin : a.within [] (scatterStart s rc (pkOpb rc.packet * pkOpc rc.packet)).rc := by
    rw [ha]
    refine placeRecords_within _ _ _ _ _ ⟨rfl, rfl, fun x hx => absurd hx List.not_mem_nil, fun x hx => ?_⟩
    rw [show (EmitOut.rc _).prog.combine = [] from hcombine] at hx
    cases hx
  have hnone : a.rc.prog.wrote = [] := hwithin.wrote.trans hwrote
  have hstores := bufferWrites_stores a.rc a.writes (scatterCounted s rc a) (by rw [hnone]; exact hwithin.bytes)
    (fun h hh => by rw [show a.rc.prog.held = [] from hwithin.held.trans hheld] at hh; cases hh) (by rw [hnone]; exact hwithin.combine)
  have hruns : (bufferWrites a.rc a.writes (scatterCounted s rc a)).1.prog.wrote = a.writes.runs := by
    show a.rc.prog.wrote ++ a.writes.runs = _
    rw [hnone, List.nil_append]
  refine ⟨hstores.held, hruns, ?_⟩
  rw [← hruns]
  exact ((scatterCounted_outside _ a).trans hstores.outside).trans (Outside.of_mem rfl rfl rfl)

/-- Placing and writing the records changes of the command its progress alone. -/
theorem scatterPlaced_goes {a : Placing} (ha : a = (scattered s rc).2) (hsound : a.fault = false) :
    Goes (rc, s) (scatterPlaced s rc a)
      ∧ PlacesRecords rc.packet (((scattered s rc).1.filter (fun g => decide (g.expert ≠ -1))).length)
          (scatterStart s rc (pkOpb rc.packet * pkOpc rc.packet)) a
      ∧ a.rc.prog.reduced = rc.prog.reduced := by
  rw [scattered_folds] at ha
  have hplaces := placedRecords_places rc.packet (scattered s rc).1 (ha ▸ hsound)
  have hbeats := (placeRecords_same s (scattered s rc).1 (scatterStart s rc (pkOpb rc.packet * pkOpc rc.packet))).heldBeats
  have hreduced := placeRecords_red s (scattered s rc).1 (scatterStart s rc (pkOpb rc.packet * pkOpc rc.packet))
  rw [← ha] at hplaces hbeats hreduced
  have hcmd : (scatterPlaced s rc a).1 = { a.rc with prog := (scatterPlaced s rc a).1.prog } := rfl
  rw [hplaces.cmd] at hcmd
  have hfailed : (scatterPlaced s rc a).1.failed = rc.failed := by
    rw [hcmd]
    rfl
  exact ⟨⟨hcmd.trans (by rw [hfailed]; rfl), hbeats, ((scatterCounted_works a).trans (bufferWrites_does a.rc a.writes (scatterCounted s rc a)).works).trans (setCmd_works _ _)⟩,
    hplaces, hreduced⟩

theorem bucketsWritten_row {p : BitVec 512} (h : FillsRange p rc) {e : Nat} (he : e < pkRows p) :
    slotAt (bucketsWritten rc s).2 (pkRow0 p + e) = setFill (fillNow rc e) (slotAt s (pkRow0 p + e)) := by
  rw [bucketsWritten, writeFills_row (rc := (flushBuckets rc s).1) h _ he, slotAt_slots (flushBuckets_slots rc s)]
  rfl

theorem bucketsWritten_changed {p : BitVec 512} (h : FillsRange p rc) (hnone : rc.prog.changed = []) :
    ∀ k ∈ (bucketsWritten rc s).1.prog.changed, inRange p k := by
  intro k hk
  refine (writeFills_changed (rc := (flushBuckets rc s).1) h.inRange _ hk).resolve_left fun hold => ?_
  rw [show (flushBuckets rc s).1.prog.changed = [] from hnone] at hold
  cases hold

/-- Every record has one end. -/
theorem scattered_count {a : Placing} {n : Nat} (gs : List GateRecord) {b : Placing} (hplaces : PlacesRecords rc.packet
    ((gs.filter (fun g => decide (g.expert ≠ -1))).length) b a) (hnone : recordsEnded b = 0) (hlength : gs.length = n) :
    (gs.filter (fun g => decide (g.expert = -1))).length + a.rc.prog.placed + a.rc.prog.overflowed + a.rc.prog.dropped + a.rc.prog.special = n := by
  have hended := hplaces.ended
  have hboth := List.length_eq_length_filter_add (l := gs) (fun g => decide (g.expert = -1))
  have hsame : gs.filter (fun g => !decide (g.expert = -1)) = gs.filter (fun g => decide (g.expert ≠ -1)) :=
    List.filter_congr fun g _ => (decide_not).symm
  rw [hsame] at hboth
  unfold recordsEnded at hended hnone
  omega

end

end Sys2Proof.Machine

open Sys2Proof Sys2Proof.Machine Sys2Proof.Claims

/-- Settles O27: one step places its records, each of which comes to one end; the end writes fills and buffers back and completes. -/
theorem scatterPlacesItsRecords : Obligations.ScatterPlacesItsRecords := by
  unfold Obligations.ScatterPlacesItsRecords
  intro s rc a hissues hpasses hfresh hwhole ha hsound
  obtain ⟨hnoted, -⟩ := addLinks_noted hfresh s
  have hstart : (addLinks s (passed rc)).prog.vector = 0 ∧ (addLinks s (passed rc)).prog.held = [] ∧ (addLinks s (passed rc)).prog.wrote = []
      ∧ (addLinks s (passed rc)).prog.combine = [] ∧ ∀ n, recordsEnded (scatterStart s (addLinks s (passed rc)) n) = 0 := by
    obtain ⟨l, hlinks⟩ := addLinks_inputs s (passed rc)
    rw [hlinks]
    unfold passed
    rw [hfresh.1]
    exact ⟨rfl, rfl, rfl, rfl, fun _ => rfl⟩
  obtain ⟨hvector, hheld, hwrote, hcombine, hnone⟩ := hstart
  have hlinks : Goes (passed rc, s) (addLinks s (passed rc), s) := Does.goes ⟨addLinks_same s (passed rc), Works.refl s⟩
  have hring : (addLinks s (passed rc)).ring = rc.ring := hnoted.ring
  have hpacket : (addLinks s (passed rc)).packet = rc.packet := hnoted.packet
  have hfailed := hnoted.failed
  have hchanged := hnoted.changed
  have hreduced := hnoted.reduced
  have hrow : scatterRow wholeRun s = scatterStep wholeRun (readFills s (addLinks s (passed rc))) s := by
    rw [scatterRow, issue_issued hissues, scatterBody, checkedThen_good _ _ hpasses.unchecked hpasses.good]
  clear hnoted
  generalize addLinks s (passed rc) = c at *
  obtain ⟨hgoes, hplaces, hred⟩ := scatterPlaced_goes ha hsound
  obtain ⟨hheldIn, hruns, houtside⟩ := scatterPlaced_stores hheld hwrote hcombine ha
  have hstep := scatterStep_whole (s := s) (rc := c) (by rw [hpacket]; exact hissues.opcode) hvector (by rw [hring, hpacket]; exact hwhole)
    (ha ▸ hsound)
  rw [← ha] at hstep
  have hslots := scatterPlaced_slots (s := s) (rc := c) a
  have hfills : FillsRange rc.packet a.rc := by
    rw [← hpacket]
    exact hplaces.fills (readFills_range s c)
  have hstatus : finalStatus (scatterPlaced s c a).1 .ok = finalStatus a.rc .ok := rfl
  have hcpl : okCpl (scatterPlaced s c a).1 a.rc.prog.overflowed a.rc.prog.placed = okCpl a.rc a.rc.prog.overflowed a.rc.prog.placed := rfl
  have hkept : FillsRange rc.packet (scatterPlaced s c a).1 ∧ (scatterPlaced s c a).1.prog.changed = []
      ∧ (scatterPlaced s c a).1.prog.reduced = [] ∧ (scatterPlaced s c a).1.failed = none
      ∧ (∀ e, fillNow (scatterPlaced s c a).1 e = fillNow a.rc e)
      ∧ (scatterPlaced s c a).1.prog.overflowed = a.rc.prog.overflowed ∧ (scatterPlaced s c a).1.prog.placed = a.rc.prog.placed := by
    refine ⟨hfills, hplaces.changed.trans hchanged, hred.trans hreduced, ?_, fun _ => rfl, rfl, rfl⟩
    show a.rc.failed = none
    rw [hplaces.cmd]
    exact hfailed
  generalize scatterPlaced s c a = E at *
  obtain ⟨hrange, hchangedE, hreducedE, hfailedE, hfillsE, hoverflowed, hplaced⟩ := hkept
  have hfinishes := bucketsWritten_finishes (e := E) hheldIn hrange.inRange
  have hall := (hlinks.trans hgoes).trans hfinishes.toGoes
  have hends := (finalStatus_ok_ran hfailedE)
  rw [← hfinishes.status] at hends
  obtain ⟨hcontained, hretracted⟩ := hends
  have hrun : scatterRow wholeRun s = completeCmd (bucketsWritten E.1 E.2).1 .ok 0 a.rc.prog.overflowed a.rc.prog.placed (bucketsWritten E.1 E.2).2 := by
    rw [hrow, hstep, finishBuckets_eq, hoverflowed, hplaced]
  have hcompletes := command_completes rc _ .ok 0 _ _ hrun hissues.cached hall.works hall.ring hall.packet hall.seq
  rw [cplOf_bucketsWritten, cplOf_okCpl, hcpl] at hcompletes
  refine ⟨_, hcompletes, fun hrecord e he => ?_, fun h hout => ?_, fun hplain hchain hrecord sp b hb hown => ?_, ?_⟩
  · rw [completeCmd_slot _ _ _ _ _ _ _ hcontained (by rw [hfinishes.reduced, hreducedE]; exact List.not_mem_nil)
      (.inl (by rw [hall.packet]; exact hrecord)), bucketsWritten_row hrange he, hfillsE, slotAt_slots hslots]
  · rw [completeCmd_slot _ _ _ _ _ _ _ hcontained (by rw [hfinishes.reduced, hreducedE]; exact List.not_mem_nil)
      (.inr fun hh => hout (bucketsWritten_changed hrange hchangedE h hh)), hfinishes.slots h hout, slotAt_slots hslots]
  · rw [completeCmd_readByte_after 0 _ _ hissues.cached hall.works hall.ring hall.packet hcontained hretracted
      (by rw [hfinishes.status, hstatus]; exact hplain) hchain hrecord hown, hfinishes.outside sp b (hruns ▸ hb), houtside sp b hb]
  · rw [← hpacket]
    exact scattered_count _ hplaces (hnone _) (by rw [scattered_eq, List.length_map, List.length_range])

end
